-- ==== Sys2Proof/Word.lean ====
section
/-! DEFINITION. The word types of the machine: 32-bit register and instruction words, bytes, lane masks (R9, R12). -/
namespace Sys2Proof

/-- A 32-bit register value or instruction word of one lane (R15, R48). -/
abbrev Word := BitVec 32

/-- One byte of memory. -/
abbrev Byte := BitVec 8

/-- A set of lanes of a group: bit L is lane L (R18). -/
abbrev Mask := BitVec 32

end Sys2Proof
end

