-- ==== Sys2Proof/Machine/Bits.lean ====
section
/-! DEFINITION. Bit fields, sign extension, byte order and small list helpers over natural numbers (R9, R12, R13). -/
namespace Sys2Proof.Machine

/-- `x[hi:lo]` as an unsigned value (R12). -/
def bits (x hi lo : Nat) : Nat := x / 2 ^ lo % 2 ^ (hi + 1 - lo)

/-- One bit of `x`. -/
def bit (x i : Nat) : Bool := x / 2 ^ i % 2 == 1

/-- 1 for true, 0 for false. -/
def b2n (b : Bool) : Nat := if b then 1 else 0

/-- The two's-complement reading of the low `w` bits of `x` (R12 SignExtend). -/
def sext (x w : Nat) : Int :=
  let y := x % 2 ^ w
  if y < 2 ^ (w - 1) then (y : Int) else (y : Int) - (2 ^ w : Nat)

/-- The low `w` bits of an integer (R13: a store into a field of width w keeps bits [w-1:0]). -/
def wrapN (x : Int) (w : Nat) : Nat := (x % ((2 ^ w : Nat) : Int)).toNat

/-- Restrict an integer to a range (R84, R137). -/
def clampI (x lo hi : Int) : Int := if x < lo then lo else if hi < x then hi else x

/-- Restrict a natural number to a range. -/
def clampN (x lo hi : Nat) : Nat := if x < lo then lo else if hi < x then hi else x

/-- x / y rounded up. -/
def ceilDiv (x y : Nat) : Nat := (x + y - 1) / y

/-- The number of one bits among the low `w` bits. -/
def popN : Nat → Nat → Nat
  | 0, _ => 0
  | w + 1, x => x % 2 + popN w (x / 2)

/-- Spread the low `w` bits of `x`, bit i to bit `k * i` (R89). -/
def spread (k : Nat) : Nat → Nat → Nat
  | 0, _ => 0
  | w + 1, x => x % 2 + 2 ^ k * spread k w (x / 2)

/-- Gather bits 0, k, 2k, ... of `x` into a dense number of `w` bits (R89). -/
def gather (k : Nat) : Nat → Nat → Nat
  | 0, _ => 0
  | w + 1, x => x % 2 + 2 * gather k w (x / 2 ^ k)

/-- The low `w` bits of `x` in reverse order (R88). -/
def revBits : Nat → Nat → Nat
  | 0, _ => 0
  | w + 1, x => (x % 2) * 2 ^ w + revBits w (x / 2)

/-- The number of bits needed to write `x`: 0 for 0. -/
def bitLen (x : Nat) : Nat := if x = 0 then 0 else Nat.log2 x + 1

/-- The little-endian bytes of `x`, `n` of them (R9). -/
def leBytes : Nat → Nat → List Byte
  | 0, _ => []
  | n + 1, x => BitVec.ofNat 8 x :: leBytes n (x / 256)

/-- The little-endian value of a list of bytes (R9). -/
def leValue : List Byte → Nat
  | [] => 0
  | b :: r => b.toNat + 256 * leValue r

/-- The bytes of a list from offset `o`, `n` of them, zeros beyond its end. -/
def sliceBytes (bs : List Byte) (o n : Nat) : List Byte :=
  let r := (bs.drop o).take n
  r ++ List.replicate (n - r.length) 0

/-- The little-endian field of `n` bytes at offset `o`. -/
def fieldAt (bs : List Byte) (o n : Nat) : Nat := leValue (sliceBytes bs o n)

/-- The first element that `f` answers for. -/
def firstSome {α β : Type} (f : α → Option β) : List α → Option β
  | [] => none
  | a :: r => match f a with
    | some b => some b
    | none => firstSome f r

/-- The lanes of a mask in ascending order (R14). -/
def lanesOf (m : Mask) : List Nat := (List.range 32).filter fun L => m.getLsbD L

/-- The lowest lane of a mask: the leader lane (R100). -/
def leaderOf (m : Mask) : Option Nat := (lanesOf m).head?

/-- The mask that holds exactly the lanes for which `p` holds. -/
def maskOf (p : Nat → Bool) : Mask :=
  BitVec.ofNat 32 ((List.range 32).foldl (fun a L => a + (if p L then 2 ^ L else 0)) 0)

/-- Replace element `i` of a list, if there is one. -/
def setAt {α : Type} : List α → Nat → α → List α
  | [], _, _ => []
  | _ :: r, 0, v => v :: r
  | a :: r, i + 1, v => a :: setAt r i v

/-- Drop element `i` of a list. -/
def dropAt {α : Type} : List α → Nat → List α
  | [], _ => []
  | _ :: r, 0 => r
  | a :: r, i + 1 => a :: dropAt r i

/-- A list with later repeats of an element removed. -/
def dedupN : List Nat → List Nat
  | [] => []
  | a :: r => if r.contains a then dedupN r else a :: dedupN r

end Sys2Proof.Machine
end

