-- ==== Sys2Proof/Syntax.lean ====
section
/-! DEFINITION. Instructions: one constructor per row of the opcode table, the 155 instruction words with their
fields (R48, R66, R67) and the 90 whole-device steps with what identifies them. -/
namespace Sys2Proof

/-- A source operand of format A (R17): a register, or what operand codes 120 to 126 select. -/
inductive Src where
  | reg (n : Nat) | lit (v : Nat) | zero | one | ones | lane | grp | fone
  deriving DecidableEq, Repr

/-- A program-counter slot of a group (R18). -/
inductive PSlot where | a | b
  deriving DecidableEq, Repr

/-- Wrapping or saturating forms of IADD and ISUB (R83). -/
inductive SatMode where | wrap | s32 | n32
  deriving DecidableEq, Repr

/-- Signed or unsigned reading of 32-bit operands (R82). -/
inductive SN where | s | n
  deriving DecidableEq, Repr

/-- The forms of IADD64 by its second operand (R85). -/
inductive Add64Mode where | b64 | s32 | n32
  deriving DecidableEq, Repr

/-- Direction of the funnel shift (R86). -/
inductive ShfDir where | r | l
  deriving DecidableEq, Repr

/-- Two-way or three-way bit interleaving (R89). -/
inductive IlMode where | x2 | x3
  deriving DecidableEq, Repr

/-- Conditions of ICMPS and ICMPN (R90). -/
inductive ICond where | eq | ne | ltS | leS | ltN | leN
  deriving DecidableEq, Repr

/-- Lane selection of SHFL (R95). -/
inductive ShflMode where | idx | up | down | xor
  deriving DecidableEq, Repr

/-- Operators of LRED and LSCAN (R97). -/
inductive RedOp where | add | minS | maxS | minN | maxN | and | or | xor
  deriving DecidableEq, Repr

/-- Operators of FLRED (R94). -/
inductive FredOp where | add | min | max
  deriving DecidableEq, Repr

/-- Rounding modes (R120). -/
inductive Rnd where | rne | rtz | rdn | rup
  deriving DecidableEq, Repr

/-- Conditions of FCMP (R129). -/
inductive FCond where | eq | ne | lt | le | un | ord
  deriving DecidableEq, Repr

/-- Floating-point formats (R116, R135). -/
inductive FFmt where | f32 | f16 | bf16 | e4m3 | e5m2 | e2m1 | e8m0
  deriving DecidableEq, Repr

/-- Integer formats of the conversions (R135). -/
inductive IFmt where | s32 | n32 | s16 | n16 | s8 | n8 | s64 | n64
  deriving DecidableEq, Repr

/-- Source formats of FCLASS (R131). -/
inductive ClsFmt where | f32 | f16 | bf16
  deriving DecidableEq, Repr

/-- Forms of CVTPK (R139). -/
inductive PkForm where | f16 | bf16 | e4m3 | e5m2 | e2m1 | e4m3s | e5m2s
  deriving DecidableEq, Repr

/-- Access sizes of format M (R48). -/
inductive Sz where | b8 | b16 | b32 | b64 | b128
  deriving DecidableEq, Repr

/-- Operand sizes of ATOM, ATOMS and CAS (R150). -/
inductive ASz where | b32 | b64
  deriving DecidableEq, Repr

/-- The eight scopes (R3, R236). -/
inductive Scope where | group | team | core | cluster | die | package | pair | system
  deriving DecidableEq, Repr

/-- Kinds of a fence (R155). -/
inductive FenceKind where | acq | rel | ar | sc
  deriving DecidableEq, Repr

/-- Cache levels of CACHE (R158). -/
inductive CacheLevel where | l1 | cl | l2
  deriving DecidableEq, Repr

/-- Modes of a cluster SRAM bank (R165). -/
inductive BankMode where | cache | scratch | fifo
  deriving DecidableEq, Repr

/-- Address spaces of TLD and TST (R167). -/
inductive TSpace where | global | scratch | buffer
  deriving DecidableEq, Repr

/-- Block orders of MHAD and MSIGN (R167). -/
inductive HOrder where | h16 | h32 | h64
  deriving DecidableEq, Repr

/-- Engine classes (R32). -/
inductive EngClass where | copy | matrix | ray | build | link
  deriving DecidableEq, Repr

/-- Wake conditions and other modes of TACQ (R209). -/
inductive AcqMode where | rd | wr | rdTest | wrTest
  deriving DecidableEq, Repr

/-- Where an error strikes (R288, R382). -/
inductive ErrorSite where
  | corrected (core : Nat)
  | correctedSlice (die slice : Nat)
  | sector (pa : Nat)
  | register (group reg lane : Nat)
  | control (group : Nat)
  | sliceTag (die slice : Nat)
  /-- a sector of a team's scratch window -/
  | scratch (team addr : Nat)
  /-- a tile of a group -/
  | tile (group tile : Nat)
  /-- an entry of a FIFO bank, counted from the oldest -/
  | fifo (cluster bank entry : Nat)
  /-- an entry of an accumulator of a group, row-major -/
  | accumulator (group acc entry : Nat)
  /-- a sector of a line in a cache: an L1 (level 0), a cluster cache (1) or a die's L2 (2) -/
  | copy (level unit pa : Nat)
  deriving DecidableEq, Repr

/-- What a host writes to a register page: a width in bytes and a value (R299, R375). -/
structure RegWrite where
  n : Nat
  v : Nat
  deriving DecidableEq, Repr

/-- The 16-byte header of a Pair Protocol message (R355). -/
structure PairHdr where
  ver : Nat
  src : Nat
  qp  : Nat
  ctx : Nat
  seq : Nat
  /-- it bears a reserved PTYPE, in place of the type of the message that the step is named after -/
  rsv : Bool := false
  deriving DecidableEq, Repr

/-- The instructions: the words of R66 and R67, then the whole-device steps of the opcode table. -/
inductive Instr where
  /-- NOP (R49). -/
  | nop
  /-- MOV (R84). -/
  | mov (d : Nat) (a : Src) (b64 : Bool)
  /-- SREG (R93). -/
  | sreg (d code : Nat)
  /-- IADD (R84). -/
  | iadd (d : Nat) (a b : Src) (m : SatMode)
  /-- ISUB (R84). -/
  | isub (d : Nat) (a b : Src) (m : SatMode)
  /-- IMUL (R84). -/
  | imul (d : Nat) (a b : Src)
  /-- IMULH (R84). -/
  | imulh (d : Nat) (a b : Src) (m : SN)
  /-- IMAD (R84). -/
  | imad (d : Nat) (a b : Src)
  /-- IADD64 (R85). -/
  | iadd64 (d : Nat) (a b : Src) (m : Add64Mode)
  /-- IMAD64 (R85). -/
  | imad64 (d : Nat) (a b : Src) (m : SN)
  /-- IMIN (R84). -/
  | imin (d : Nat) (a b : Src) (m : SN)
  /-- IMAX (R84). -/
  | imax (d : Nat) (a b : Src) (m : SN)
  /-- IABSD (R84). -/
  | iabsd (d : Nat) (a b : Src) (m : SN)
  /-- AND (R84). -/
  | land (d : Nat) (a b : Src)
  /-- OR (R84). -/
  | lor (d : Nat) (a b : Src)
  /-- XOR (R84). -/
  | lxor (d : Nat) (a b : Src)
  /-- ANDN (R84). -/
  | landn (d : Nat) (a b : Src)
  /-- SHL (R86). -/
  | shl (d : Nat) (a b : Src)
  /-- SHR (R86). -/
  | shr (d : Nat) (a b : Src) (m : SN)
  /-- SHF (R86). -/
  | shf (d : Nat) (a b : Src) (m : ShfDir)
  /-- BFX (R87). -/
  | bfx (d : Nat) (a b : Src) (m : SN)
  /-- BFI (R87). -/
  | bfi (d : Nat) (a b : Src)
  /-- CLZ (R88). -/
  | clz (d : Nat) (a : Src) (b64 : Bool)
  /-- POPC (R88). -/
  | popc (d : Nat) (a : Src) (b64 : Bool)
  /-- BREV (R88). -/
  | brev (d : Nat) (a : Src)
  /-- BITIL (R89). -/
  | bitil (d : Nat) (a b : Src) (m : IlMode)
  /-- BITDL (R89). -/
  | bitdl (d : Nat) (a : Src) (m : IlMode)
  /-- ICMPS (R90). -/
  | icmps (d : Nat) (a b : Src) (m : ICond)
  /-- ICMPN (R90). -/
  | icmpn (d : Nat) (a b : Src) (m : ICond)
  /-- SEL (R91). -/
  | sel (d : Nat) (a b : Src) (bitwise : Bool)
  /-- BYTSEL (R92). -/
  | bytsel (d : Nat) (a b : Src) (sw : Bool)
  /-- SHFL (R95). -/
  | shfl (d : Nat) (a b : Src) (m : ShflMode)
  /-- BALLOT (R96). -/
  | ballot (d : Nat) (a : Src) (cnt : Bool)
  /-- LRED (R97). -/
  | lred (d : Nat) (a : Src) (m : RedOp)
  /-- LSCAN (R97). -/
  | lscan (d : Nat) (a : Src) (m : RedOp)
  /-- LFIRST (R98). -/
  | lfirst (d : Nat) (a : Src) (idx : Bool)
  /-- LMATCH (R98). -/
  | lmatch (d : Nat) (a : Src) (b64 : Bool)
  /-- FLRED (R99). -/
  | flred (d : Nat) (a : Src) (m : FredOp)
  /-- BR (R103). -/
  | br (v : Src) (o : Int)
  /-- BRV (R104). -/
  | brv (v : Nat)
  /-- SPLIT (R106). -/
  | split (o : Int)
  /-- JOIN (R106). -/
  | join
  /-- CALL (R105). -/
  | call (o : Int)
  /-- CALLV (R104). -/
  | callv (a : Nat)
  /-- RET (R104). -/
  | ret (a : Nat)
  /-- EXIT (R107). -/
  | exit
  /-- PSET (R108). -/
  | pset (a n : Nat)
  /-- SLEEP (R109). -/
  | sleep (a : Src)
  /-- SLEEP.T (R109). -/
  | sleepT (a : Src)
  /-- SLEEP.B (R109). -/
  | sleepB (a : Src)
  /-- YIELD (R110). -/
  | yield
  /-- TRAP with user code 0x80 + code (R112). -/
  | trap (code : Nat)
  /-- BKPT (R112). -/
  | bkpt
  /-- RETT (R114). -/
  | rett
  /-- WAITC (R111). -/
  | waitc (c : EngClass) (n : Nat)
  /-- FADD (R127). -/
  | fadd (d : Nat) (a b : Src) (r : Rnd)
  /-- FMUL (R127). -/
  | fmul (d : Nat) (a b : Src) (r : Rnd)
  /-- FFMA (R127). -/
  | ffma (d : Nat) (a b : Src) (r : Rnd)
  /-- FMIN (R128). -/
  | fmin (d : Nat) (a b : Src)
  /-- FMAX (R128). -/
  | fmax (d : Nat) (a b : Src)
  /-- FCMP (R129). -/
  | fcmp (d : Nat) (a b : Src) (m : FCond)
  /-- FRND (R130). -/
  | frnd (d : Nat) (a : Src) (r : Rnd)
  /-- FCLASS (R131). -/
  | fclass (d : Nat) (a : Src) (m : ClsFmt)
  /-- PADD2 (R132). -/
  | padd2 (d : Nat) (a b : Src) (bf : Bool) (r : Rnd)
  /-- PMUL2 (R132). -/
  | pmul2 (d : Nat) (a b : Src) (bf : Bool) (r : Rnd)
  /-- PFMA2 (R132). -/
  | pfma2 (d : Nat) (a b : Src) (bf : Bool) (r : Rnd)
  /-- PDOT2 (R133). -/
  | pdot2 (d : Nat) (a b : Src) (bf : Bool) (r : Rnd)
  /-- FDIV (R134). -/
  | fdiv (d : Nat) (a b : Src) (r : Rnd)
  /-- FRCP (R134). -/
  | frcp (d : Nat) (a : Src) (r : Rnd)
  /-- FRSQ (R134). -/
  | frsq (d : Nat) (a : Src) (r : Rnd)
  /-- FSQRT (R134). -/
  | fsqrt (d : Nat) (a : Src) (r : Rnd)
  /-- FEXP2 (R134). -/
  | fexp2 (d : Nat) (a : Src) (r : Rnd)
  /-- FLOG2 (R134). -/
  | flog2 (d : Nat) (a : Src) (r : Rnd)
  /-- FSINPI (R134). -/
  | fsinpi (d : Nat) (a : Src) (r : Rnd)
  /-- FCOSPI (R134). -/
  | fcospi (d : Nat) (a : Src) (r : Rnd)
  /-- CVTF (R136). -/
  | cvtf (d : Nat) (a : Src) (df sf : FFmt) (sat : Bool) (r : Rnd)
  /-- CVTI from float df to integer sf (R137). -/
  | cvti (d : Nat) (a : Src) (df : FFmt) (sf : IFmt) (r : Rnd)
  /-- CVTIF (R138). -/
  | cvtif (d : Nat) (a : Src) (df : FFmt) (sf : IFmt) (sat : Bool) (r : Rnd)
  /-- CVTPK (R139). -/
  | cvtpk (d : Nat) (a b : Src) (m : PkForm)
  /-- LD (R146). -/
  | ld (d a : Nat) (f : Option Nat) (z : Sz) (off : Option Nat) (sx nc : Bool)
  /-- ST (R146). -/
  | st (d a : Nat) (f : Option Nat) (z : Sz) (off : Option Nat) (nc : Bool)
  /-- LDS (R146). -/
  | lds (d a : Nat) (f : Option Nat) (z : Sz) (off : Option Nat) (sx : Bool)
  /-- STS (R146). -/
  | sts (d a : Nat) (f : Option Nat) (z : Sz) (off : Option Nat)
  /-- LDB (R149). -/
  | ldb (d a : Nat) (f : Option Nat) (z : Sz) (off : Option Nat) (sx : Bool)
  /-- STB (R149). -/
  | stb (d a : Nat) (f : Option Nat) (z : Sz) (off : Option Nat)
  /-- ATOM (R152). -/
  | atom (d a : Nat) (f : Option Nat) (z : ASz) (off : Option Nat) (nr : Bool)
  /-- ATOMS (R152). -/
  | atoms (d a : Nat) (f : Option Nat) (z : ASz) (off : Option Nat) (nr : Bool)
  /-- CAS (R152). -/
  | cas (d a : Nat) (f : Option Nat) (z : ASz) (off : Option Nat)
  /-- CAS128 (R152). -/
  | cas128 (d a : Nat) (f : Option Nat) (off : Option Nat)
  /-- AMINV (R154). -/
  | aminv (d a : Nat) (f : Option Nat) (off : Option Nat) (nr : Bool)
  /-- FENCE (R155). -/
  | fence (sc : Scope) (k : FenceKind)
  /-- CACHE_PREF (R158). -/
  | cachePref (a : Nat) (f : Option Nat) (lv : CacheLevel)
  /-- CACHE_FLUSH (R158). -/
  | cacheFlush (a : Nat) (f : Option Nat) (lv : CacheLevel)
  /-- CACHE_INV (R158). -/
  | cacheInv (a : Nat) (f : Option Nat) (lv : CacheLevel)
  /-- BAR.INIT (R161). -/
  | barInit (b : Nat) (rlx : Bool) (target : Nat)
  /-- BAR_ARRIVE (R161). -/
  | barArrive (d b : Nat) (rlx : Bool)
  /-- BAR_WAIT (R161). -/
  | barWait (d b : Nat) (rlx : Bool)
  /-- BAR_ARRIVEWAIT (R161). -/
  | barArrivewait (d b : Nat) (rlx : Bool)
  /-- BAR.INV (R161). -/
  | barInv (b : Nat) (rlx : Bool)
  /-- BAR.QUERY (R161). -/
  | barQuery (d b : Nat) (rlx : Bool)
  /-- QPUSH (R164). -/
  | qpush (a : Nat) (f : Option Nat) (cl : Bool) (bank : Nat)
  /-- QPOP (R164). -/
  | qpop (d : Nat) (f : Option Nat) (cl : Bool) (bank : Nat)
  /-- BKCFG (R165). -/
  | bkcfg (d a : Nat) (f : Option Nat) (m : BankMode)
  /-- TCFG (R174). -/
  | tcfg (p cfg : Nat)
  /-- TLD (R176). -/
  | tld (p v : Nat) (sp : TSpace) (pitch : Nat)
  /-- TST (R176). -/
  | tst (p v : Nat) (sp : TSpace) (sc : Scope) (pitch : Nat)
  /-- TMOVV (R178). -/
  | tmovv (p v j : Nat) (toTile : Bool)
  /-- MMA (R181). -/
  | mma (a p q : Nat)
  /-- MZERO (R184). -/
  | mzero (a : Nat) (e : Int)
  /-- MDRAIN accumulator a to tile t (R186). -/
  | mdrain (a t v c0 : Nat) (clr : Bool)
  /-- MHAD (R189). -/
  | mhad (p q v : Nat) (n : HOrder) (sgn : Bool)
  /-- MSIGN (R188). -/
  | msign (p q v : Nat) (n : HOrder)
  /-- MQUANT (R190). -/
  | mquant (p q : Nat)
  /-- MBATCH (R170). -/
  | mbatch
  /-- TTRANS (R179). -/
  | ttrans (p q : Nat)
  /-- BNEW (R197). -/
  | bnew (d a : Nat) (f : Option Nat) (full : Bool)
  /-- BFREE (R198). -/
  | bfree (a : Nat)
  /-- BSTAT (R199). -/
  | bstat (d a : Nat) (f : Option Nat)
  /-- CPY (R200). -/
  | cpy (d a : Nat) (f : Option Nat) (w : Nat)
  /-- CPYO (R200). -/
  | cpyo (d a : Nat) (f : Option Nat) (w : Nat)
  /-- CPYL.READ (R208). -/
  | cpylRead (d a : Nat) (f : Option Nat) (qp len : Nat)
  /-- CPYL.WRITE (R208). -/
  | cpylWrite (d a : Nat) (f : Option Nat) (qp len : Nat)
  /-- LREC_BASE (R195). -/
  | lrecBase (d a : Nat) (f : Option Nat)
  /-- LREC_SCALE (R195). -/
  | lrecScale (d a : Nat) (f : Option Nat)
  /-- LREC_SEED (R195). -/
  | lrecSeed (d a : Nat) (f : Option Nat)
  /-- LREC_CHK (R195). -/
  | lrecChk (d a : Nat) (f : Option Nat)
  /-- THNEW (R210). -/
  | thnew (d a : Nat) (f : Option Nat)
  /-- THFREE (R211). -/
  | thfree (a : Nat) (f : Option Nat)
  /-- THQRY (R210). -/
  | thqry (d a : Nat) (f : Option Nat)
  /-- TACQ (R211). -/
  | tacq (d a : Nat) (f : Option Nat) (m : AcqMode)
  /-- TREL (R211). -/
  | trel (a : Nat) (f : Option Nat)
  /-- TFLUSH (R211). -/
  | tflush (a : Nat) (f : Option Nat)
  /-- TSPLIT (R212). -/
  | tsplit (d a : Nat) (f : Option Nat) (dim p : Nat)
  /-- RTRACE (R224). -/
  | rtrace (d a : Nat) (f : Option Nat)
  /-- RANY (R225). -/
  | rany (d a : Nat) (f : Option Nat)
  /-- RPIN (R227). -/
  | rpin (d a : Nat) (f : Option Nat)
  /-- RUNPIN (R227). -/
  | runpin (a : Nat) (f : Option Nat)
  /-- RHIT (R230). -/
  | rhit (d a : Nat) (f : Option Nat)
  /-- RGENQ (R228). -/
  | rgenq (d a : Nat) (f : Option Nat)
  /-- ASBUILD (R231, R232). -/
  | asbuild (a : Nat) (f : Option Nat)
  /-- ASREFIT (R231, R232). -/
  | asrefit (a : Nat) (f : Option Nat)
  /-- ASREBAL (R231, R232). -/
  | asrebal (a : Nat) (f : Option Nat)
  /-- ASIMPORT (R231, R232). -/
  | asimport (a : Nat) (f : Option Nat)
  /-- ASPUBL (R231, R232). -/
  | aspubl (a : Nat) (f : Option Nat)
  /-- ASSTAT (R231, R232). -/
  | asstat (a : Nat) (f : Option Nat)
  /-- ASQUAL (R231, R232). -/
  | asqual (a : Nat) (f : Option Nat)
  /-- ASRECL (R231, R232). -/
  | asrecl (a : Nat) (f : Option Nat)
  /-- FEAT (R215). -/
  | feat (d : Nat)
  /-- DFEAT (R215). -/
  | dfeat (d : Nat)
  /-- CKPT (R216). -/
  | ckpt (d : Nat)
  /-- MBPOST (R217). -/
  | mbpost (d a : Nat)
  /-- TRAPINFO (R218). -/
  | trapinfo (d k : Nat)
  /-- TRCON (R220). -/
  | trcon
  /-- TRCOFF (R220). -/
  | trcoff
  /-- TRCMARK (R220). -/
  | trcmark (mark : Nat)
  /-- V_PIPE_RESULT_WRITE (R59). -/
  | vPipeResultWrite (g : Nat)
  /-- S_PIPE_RESULT_WRITE (R59). -/
  | sPipeResultWrite (g op : Nat)
  /-- L_PIPE_RESULT_WRITE (R147). -/
  | lPipeResultWrite (g op : Nat)
  /-- STORE_PERFORMED (R147). -/
  | storePerformed (g op : Nat)
  /-- FENCE_COMPLETE (R156). -/
  | fenceComplete (g : Nat) (sl : PSlot)
  /-- MATRIX_EXECUTE (R169). -/
  | matrixExecute (g : Nat)
  /-- COPY_COMPLETE (R204). -/
  | copyComplete (g op : Nat)
  /-- RAY_RECORD_WRITE (R226). -/
  | rayRecordWrite (g op : Nat)
  /-- BUILDER_DISPATCH (R344). -/
  | builderDispatch (die : Nat)
  /-- BUILD_REQUEST_COMPLETE (R231). -/
  | buildRequestComplete (die n : Nat)
  /-- SLEEP_WAKE (R109). -/
  | sleepWake (g : Nat) (sl : PSlot)
  /-- PROMISE_MISS (R109). -/
  | promiseMiss (g : Nat) (sl : PSlot)
  /-- CHECKPOINT_COMMIT (R364). -/
  | checkpointCommit (ctx : Nat)
  /-- CHECKPOINT_TIMER (R364). -/
  | checkpointTimer (ctx : Nat)
  /-- EMULATE_COMPLETE (R7). -/
  | emulateComplete (g : Nat) (sl : PSlot)
  /-- TRANSLATION_WALK (R293). -/
  | translationWalk (core ctx va : Nat) (wr : Bool)
  /-- REQRD (R266). -/
  | reqrd (src dst : Nat)
  /-- REQWR (R266). -/
  | reqwr (src dst : Nat)
  /-- REQUEST_START (R266). -/
  | requestStart (die set : Nat)
  /-- GRANT (R268). -/
  | grant (src dst : Nat)
  /-- FWD (R269). -/
  | fwd (src dst : Nat)
  /-- DATA (R268). -/
  | data (src dst : Nat)
  /-- INV (R269). -/
  | inv (src dst : Nat)
  /-- INVACK (R266). -/
  | invack (src dst : Nat)
  /-- RECALL (R269). -/
  | recallMsg (src dst : Nat)
  /-- WBDATA (R270). -/
  | wbdata (src dst : Nat)
  /-- BACKINV (R276). -/
  | backinv (src dst : Nat)
  /-- NACK (R275). -/
  | nack (src dst : Nat)
  /-- BUSY_RESEND (R275). -/
  | busyResend (die txn : Nat)
  /-- PAGE_HOME_MOVE (R363). -/
  | pageHomeMove (ctx va : Nat)
  /-- MAILBOX_ARRIVAL (R316). -/
  | mailboxArrival (n : Nat)
  /-- LAUNCH_START (R314). -/
  | launchStart (mb : Nat)
  /-- PREEMPT_REQUEST (R326). -/
  | preemptRequest (team : Nat)
  /-- SAFE_POINT (R327). -/
  | safePoint (team : Nat)
  /-- TEAM_RESTORE (R331). -/
  | teamRestore (team : Nat)
  /-- SLICE_EXPIRY (R329). -/
  | sliceExpiry (team : Nat)
  /-- CORE_RETIREMENT (R383). -/
  | coreRetirement (core : Nat)
  /-- SLICE_RETIREMENT (R384). -/
  | sliceRetirement (die slice : Nat)
  /-- PAGE_RETIREMENT (R385). -/
  | pageRetirement (page : Nat)
  /-- MEMORY_ERROR (R288). -/
  | memoryError (e : ErrorSite)
  /-- TLBINV_PAGE_RANGE (R299). -/
  | tlbinvPageRange (fn w1 : Nat)
  /-- TLBINV_CONTEXT (R299). -/
  | tlbinvContext (fn w1 : Nat)
  /-- TLBINV_TENANT (R299). -/
  | tlbinvTenant (fn w1 : Nat)
  /-- TLBINV_ALL (R299). -/
  | tlbinvAll (fn w1 : Nat)
  /-- TLBINV_COMPLETE (R300). -/
  | tlbinvComplete
  /-- INVSTAT_WRITE (R299). -/
  | invstatWrite (fn v : Nat)
  /-- FLTREP_RETRY (R303). -/
  | fltrepRetry (fn v : Nat)
  /-- FLTREP_FAIL (R303). -/
  | fltrepFail (fn v : Nat)
  /-- WRITE_WINDOW_DESCRIPTOR (R376). -/
  | writeWindowDescriptor (fn addr : Nat)
  /-- WRITE_MAILBOX_ENTRY (R376). -/
  | writeMailboxEntry (fn addr : Nat)
  /-- WRITE_CONTEXT_RECORD (R376). -/
  | writeContextRecord (fn addr : Nat)
  /-- END_CONTEXT (R376). -/
  | endContext (fn addr : Nat)
  /-- GIVE_CLUSTER_BANK (R393). -/
  | giveClusterBank (fn addr : Nat)
  /-- ATTESTATION_REPORT (R389). -/
  | attestationReport (fn addr : Nat)
  /-- SET_RETIREMENT_THRESHOLD (R383). -/
  | setRetirementThreshold (fn addr : Nat)
  /-- REQUEST_COMPLETE (R376). -/
  | requestComplete (fn : Nat)
  /-- MBACK (R377). -/
  | mback (fn v : Nat)
  /-- HSTAT_READ (R375). -/
  | hstatRead (fn : Nat)
  /-- RASSTAT_READ (R375). -/
  | rasstatRead (fn die : Nat)
  /-- PAIRSTAT_READ (R354). -/
  | pairstatRead (half : Nat)
  /-- REGISTER_WRITE (R375): function, offset, what is written. -/
  | registerWrite (fn off : Nat) (v : RegWrite)
  /-- HOST_MAILBOX_WRITE (R378). -/
  | hostMailboxWrite (fn off : Nat) (bytes : List Byte)
  /-- FUNCTION_LEVEL_RESET (R380). -/
  | functionLevelReset (vf : Nat)
  /-- PART_RESET (R392). -/
  | partReset
  /-- D3HOT_ENTRY (R391). -/
  | d3hotEntry
  /-- D0_EXIT (R391). -/
  | d0Exit
  /-- LINK_UP (R356). -/
  | linkUp (half : Nat) (ok : Bool)
  /-- HELLO (R356). -/
  | hello (half : Nat) (h : PairHdr) (nonce versions : Nat)
  /-- ATTEST (R356). -/
  | attest (half : Nat) (h : PairHdr) (tb sig : Nat)
  /-- ALIGN (R358). -/
  | align (half : Nat) (h : PairHdr) (ofs : Nat) (nodesOk : Bool) (ctxs : List Nat)
  /-- IMAGE (R361). -/
  | image (half : Nat) (h : PairHdr) (ctx addr size : Nat)
  /-- RESUME (R361). -/
  | resume (half : Nat) (h : PairHdr) (ctx status : Nat)
  /-- TENURE (R279). -/
  | tenure (half : Nat) (h : PairHdr) (type : Nat) (body : List Byte)
  /-- MBOX (R355). -/
  | mbox (half : Nat) (h : PairHdr) (mb : Nat) (msg : List Byte)
  /-- CREDIT (R367). -/
  | credit (half : Nat) (h : PairHdr) (n drops refused : Nat)
  /-- QPERR (R368). -/
  | qperr (half : Nat) (h : PairHdr) (err : Nat)
  /-- COMMIT (R365). -/
  | commit (half ctx n : Nat)
  /-- UNDOCK (R362). -/
  | undock (half : Nat) (h : PairHdr)
  /-- UNDONE (R355). -/
  | undone (half : Nat) (h : PairHdr)
  /-- LINK_LOSS (R369). -/
  | linkLoss (half : Nat)
  /-- TRACE_DRAIN (R395). -/
  | traceDrain (cluster : Nat)
  /-- UNDEFINED_ENCODING (R70). -/
  | undefinedEncoding
  /-- CONTROL_WORD_ISSUE (R25). -/
  | controlWordIssue
  /-- FLIT (R261). -/
  | flit (n : Nat)
  /-- UNSUPPORTED_TLP (R352). -/
  | unsupportedTlp (half : Nat)
  /-- QUEUE_PAIR_MEMORY_REQUEST (R355). -/
  | queuePairMemoryRequest (half ctx qp off : Nat) (wr : Bool) (bytes : List Byte)
  /-- QUEUE_PAIR_RESET (R366). -/
  | queuePairReset (ctx qp : Nat)
  /-- POWER_STATE_CHANGE (R391). -/
  | powerStateChange (die p : Nat)
  /-- BADREQ (R376). -/
  | badreq (fn addr : Nat)
  /-- CORRECTED_ERROR_WINDOW (R383). -/
  | correctedErrorWindow
  deriving DecidableEq, Repr

end Sys2Proof
end

