-- ==== Sys2Proof/Decode.lean ====
section
/-! DEFINITION. Decoding of instruction words with their literals, total on any word, rejecting by name (R48 to R54,
R66 to R70), the encoder, and the host's view of one instruction. -/
namespace Sys2Proof

open Sys2Proof.Machine

/-- The two traps of step 4 of R64: ILLEGAL_OP, which comes first within a word, and ILLEGAL_ENC (R70). -/
inductive DecErr where | illegalOp | illegalEnc
  deriving DecidableEq, Repr

/-! ### Mode codes -/

def SatMode.ofCode : Nat → Option SatMode | 0 => some .wrap | 1 => some .s32 | 2 => some .n32 | _ => none
def SatMode.code : SatMode → Nat | .wrap => 0 | .s32 => 1 | .n32 => 2
/-- S32 is code 0, N32 code 1 (R83). -/
def SN.ofCode : Nat → Option SN | 0 => some .s | 1 => some .n | _ => none
def SN.code : SN → Nat | .s => 0 | .n => 1
/-- N32 is code 0, S32 code 1: IMAD64, SHR and BFX (R83). -/
def SN.ofCodeN : Nat → Option SN | 0 => some .n | 1 => some .s | _ => none
def SN.codeN : SN → Nat | .n => 0 | .s => 1
def Add64Mode.ofCode : Nat → Option Add64Mode | 0 => some .b64 | 1 => some .s32 | 2 => some .n32 | _ => none
def Add64Mode.code : Add64Mode → Nat | .b64 => 0 | .s32 => 1 | .n32 => 2
def ShfDir.ofCode : Nat → Option ShfDir | 0 => some .r | 1 => some .l | _ => none
def ShfDir.code : ShfDir → Nat | .r => 0 | .l => 1
def IlMode.ofCode : Nat → Option IlMode | 0 => some .x2 | 1 => some .x3 | _ => none
def IlMode.code : IlMode → Nat | .x2 => 0 | .x3 => 1
def ICond.ofCode : Nat → Option ICond
  | 0 => some .eq | 1 => some .ne | 2 => some .ltS | 3 => some .leS | 4 => some .ltN | 5 => some .leN | _ => none
def ICond.code : ICond → Nat | .eq => 0 | .ne => 1 | .ltS => 2 | .leS => 3 | .ltN => 4 | .leN => 5
def ShflMode.ofCode : Nat → Option ShflMode
  | 0 => some .idx | 1 => some .up | 2 => some .down | 3 => some .xor | _ => none
def ShflMode.code : ShflMode → Nat | .idx => 0 | .up => 1 | .down => 2 | .xor => 3
def RedOp.ofCode : Nat → Option RedOp
  | 0 => some .add | 1 => some .minS | 2 => some .maxS | 3 => some .minN | 4 => some .maxN | 5 => some .and
  | 6 => some .or | 7 => some .xor | _ => none
def RedOp.code : RedOp → Nat
  | .add => 0 | .minS => 1 | .maxS => 2 | .minN => 3 | .maxN => 4 | .and => 5 | .or => 6 | .xor => 7
def FredOp.ofCode : Nat → Option FredOp | 0 => some .add | 1 => some .min | 2 => some .max | _ => none
def FredOp.code : FredOp → Nat | .add => 0 | .min => 1 | .max => 2
def Rnd.ofCode : Nat → Option Rnd | 0 => some .rne | 1 => some .rtz | 2 => some .rdn | 3 => some .rup | _ => none
def Rnd.code : Rnd → Nat | .rne => 0 | .rtz => 1 | .rdn => 2 | .rup => 3
def FCond.ofCode : Nat → Option FCond
  | 0 => some .eq | 1 => some .ne | 2 => some .lt | 3 => some .le | 4 => some .un | 5 => some .ord | _ => none
def FCond.code : FCond → Nat | .eq => 0 | .ne => 1 | .lt => 2 | .le => 3 | .un => 4 | .ord => 5
def FFmt.ofCode : Nat → Option FFmt
  | 0 => some .f32 | 1 => some .f16 | 2 => some .bf16 | 3 => some .e4m3 | 4 => some .e5m2 | 5 => some .e2m1
  | 6 => some .e8m0 | _ => none
def FFmt.code : FFmt → Nat
  | .f32 => 0 | .f16 => 1 | .bf16 => 2 | .e4m3 => 3 | .e5m2 => 4 | .e2m1 => 5 | .e8m0 => 6
def IFmt.ofCode : Nat → Option IFmt
  | 0 => some .s32 | 1 => some .n32 | 2 => some .s16 | 3 => some .n16 | 4 => some .s8 | 5 => some .n8
  | 6 => some .s64 | 7 => some .n64 | _ => none
def IFmt.code : IFmt → Nat
  | .s32 => 0 | .n32 => 1 | .s16 => 2 | .n16 => 3 | .s8 => 4 | .n8 => 5 | .s64 => 6 | .n64 => 7
def ClsFmt.ofCode : Nat → Option ClsFmt | 0 => some .f32 | 1 => some .f16 | 2 => some .bf16 | _ => none
def ClsFmt.code : ClsFmt → Nat | .f32 => 0 | .f16 => 1 | .bf16 => 2
def PkForm.ofCode : Nat → Option PkForm
  | 0 => some .f16 | 1 => some .bf16 | 2 => some .e4m3 | 3 => some .e5m2 | 4 => some .e2m1 | 5 => some .e4m3s
  | 6 => some .e5m2s | _ => none
def PkForm.code : PkForm → Nat
  | .f16 => 0 | .bf16 => 1 | .e4m3 => 2 | .e5m2 => 3 | .e2m1 => 4 | .e4m3s => 5 | .e5m2s => 6
def Sz.ofCode : Nat → Option Sz
  | 0 => some .b8 | 1 => some .b16 | 2 => some .b32 | 3 => some .b64 | 4 => some .b128 | _ => none
def Sz.code : Sz → Nat | .b8 => 0 | .b16 => 1 | .b32 => 2 | .b64 => 3 | .b128 => 4
def ASz.ofCode : Nat → Option ASz | 2 => some .b32 | 3 => some .b64 | _ => none
def ASz.code : ASz → Nat | .b32 => 2 | .b64 => 3
def Scope.ofCode : Nat → Option Scope
  | 0 => some .group | 1 => some .team | 2 => some .core | 3 => some .cluster | 4 => some .die | 5 => some .package
  | 6 => some .pair | 7 => some .system | _ => none
def Scope.code : Scope → Nat
  | .group => 0 | .team => 1 | .core => 2 | .cluster => 3 | .die => 4 | .package => 5 | .pair => 6 | .system => 7
def FenceKind.ofCode : Nat → Option FenceKind
  | 0 => some .acq | 1 => some .rel | 2 => some .ar | 3 => some .sc | _ => none
def FenceKind.code : FenceKind → Nat | .acq => 0 | .rel => 1 | .ar => 2 | .sc => 3
def CacheLevel.ofCode : Nat → Option CacheLevel | 0 => some .l1 | 1 => some .cl | 2 => some .l2 | _ => none
def CacheLevel.code : CacheLevel → Nat | .l1 => 0 | .cl => 1 | .l2 => 2
def BankMode.ofCode : Nat → Option BankMode | 0 => some .cache | 1 => some .scratch | 2 => some .fifo | _ => none
def BankMode.code : BankMode → Nat | .cache => 0 | .scratch => 1 | .fifo => 2
def TSpace.ofCode : Nat → Option TSpace | 0 => some .global | 1 => some .scratch | 2 => some .buffer | _ => none
def TSpace.code : TSpace → Nat | .global => 0 | .scratch => 1 | .buffer => 2
def HOrder.ofCode : Nat → Option HOrder | 0 => some .h16 | 1 => some .h32 | 2 => some .h64 | _ => none
def HOrder.code : HOrder → Nat | .h16 => 0 | .h32 => 1 | .h64 => 2
def HOrder.size : HOrder → Nat | .h16 => 16 | .h32 => 32 | .h64 => 64
def EngClass.ofCode : Nat → Option EngClass
  | 0 => some .copy | 1 => some .matrix | 2 => some .ray | 3 => some .build | 4 => some .link | _ => none
def EngClass.code : EngClass → Nat | .copy => 0 | .matrix => 1 | .ray => 2 | .build => 3 | .link => 4
def AcqMode.ofCode : Nat → Option AcqMode
  | 0 => some .rd | 1 => some .wr | 2 => some .rdTest | 3 => some .wrTest | _ => none
def AcqMode.code : AcqMode → Nat | .rd => 0 | .wr => 1 | .rdTest => 2 | .wrTest => 3
/-- A modifier of one bit. -/
def boolOfCode : Nat → Option Bool | 0 => some false | 1 => some true | _ => none
/-- A modifier field where only 0 is defined (R48). -/
def unitOfCode : Nat → Option Unit | 0 => some () | _ => none

/-! ### Operand fields -/

/-- The codes of a source operand field (R17); `lit` is the literal of the next slot. -/
def srcOf (c lit : Nat) : Option Src :=
  if c < 120 then some (.reg c)
  else match c with
    | 120 => some (.lit lit) | 121 => some .zero | 122 => some .one | 123 => some .ones
    | 124 => some .lane | 125 => some .grp | 126 => some .fone | _ => none

/-- A source operand field in a 64-bit position: a register must be even (R16). -/
def src64Of (c lit : Nat) : Option Src :=
  if c < 120 ∧ c % 2 ≠ 0 then none else srcOf c lit

/-- The code of a source operand. -/
def Src.code : Src → Nat
  | .reg n => n | .lit _ => 120 | .zero => 121 | .one => 122 | .ones => 123 | .lane => 124 | .grp => 125 | .fone => 126

/-- The literal that a source operand holds. -/
def Src.litOf : Src → Option Nat
  | .lit v => some v
  | _ => none

/-- A destination or register field whose register must be a multiple of `k` (R16, R140). -/
def regOf (c k : Nat) : Option Nat := if c < 120 ∧ c % k = 0 then some c else none

/-- A completion-flag field (R31). -/
def flagOf (f : Nat) : Option (Option Nat) := if f < 12 then some (some f) else if f = 15 then some none else none

/-- The code of a completion-flag field. -/
def flagCode : Option Nat → Nat | some f => f | none => 15

/-- A field that must be zero. -/
def zeroOf (x : Nat) : Option Unit := if x = 0 then some () else none

/-- A number field restricted by a condition. -/
def numIf (c : Bool) (x : Nat) : Option Nat := if c then some x else none

/-- The alignment of the register group that an access size names (R140). -/
def Sz.align : Sz → Nat | .b64 => 2 | .b128 => 4 | _ => 1

/-! ### Step 4 of R64: a modifier breach is ILLEGAL_OP and comes first, any other breach is ILLEGAL_ENC -/

def decM {α : Type} (m : Option α) (k : α → Except DecErr Instr) : Except DecErr Instr :=
  match m with
  | some v => k v
  | none => .error .illegalOp

def decF {α : Type} (m : Option α) (k : α → Except DecErr Instr) : Except DecErr Instr :=
  match m with
  | some v => k v
  | none => .error .illegalEnc

/-- Three-operand forms with a modifier. -/
def decAB {μ : Type} (m : Option μ) (d : Option Nat) (a b : Option Src) (k : Nat → Src → Src → μ → Instr) :
    Except DecErr Instr :=
  decM m fun m => decF d fun d => decF a fun a => decF b fun b => .ok (k d a b m)

/-- Two-operand forms, b unused, with a modifier. -/
def decA1 {μ : Type} (m : Option μ) (d : Option Nat) (a : Option Src) (b : Nat) (k : Nat → Src → μ → Instr) :
    Except DecErr Instr :=
  decM m fun m => decF d fun d => decF a fun a => decF (zeroOf b) fun _ => .ok (k d a m)

/-- The register field of a 64-bit position when `b64` holds. -/
def pairIf (b64 : Bool) (c : Nat) : Option Nat := regOf c (if b64 then 2 else 1)
def srcIf (b64 : Bool) (c lit : Nat) : Option Src := if b64 then src64Of c lit else srcOf c lit

/-- The special-register codes of R37. -/
def sregAssigned (c : Nat) : Bool := decide (c ≤ 0x0E) || (decide (0x11 ≤ c) && decide (c ≤ 0x17)) ||
  (decide (0x21 ≤ c) && decide (c ≤ 0x27))

/-- Majors 0x00 to 0x26: integer, bit and lane instructions and SREG (R49, R83, R93, R94). -/
def decodeInt (maj d a b m lit : Nat) : Except DecErr Instr :=
  let rd := regOf d 1
  let rd2 := regOf d 2
  let sa := srcOf a lit
  let sa2 := src64Of a lit
  let sb := srcOf b lit
  match maj with
  | 0x00 => if d = 0 ∧ a = 0 ∧ b = 0 ∧ m = 0 then .ok .nop else .error .illegalEnc
  | 0x01 => decM (boolOfCode m) fun w => decF (pairIf w d) fun d => decF (srcIf w a lit) fun a =>
      decF (zeroOf b) fun _ => .ok (.mov d a w)
  | 0x02 => decM (if m = 0 ∧ sregAssigned a then some () else none) fun _ => decF rd fun d =>
      decF (zeroOf b) fun _ => .ok (.sreg d a)
  | 0x03 => decAB (SatMode.ofCode m) rd sa sb .iadd
  | 0x04 => decAB (SatMode.ofCode m) rd sa sb .isub
  | 0x05 => decAB (unitOfCode m) rd sa sb fun d a b _ => .imul d a b
  | 0x06 => decAB (SN.ofCode m) rd sa sb .imulh
  | 0x07 => decAB (unitOfCode m) rd sa sb fun d a b _ => .imad d a b
  | 0x08 => decM (Add64Mode.ofCode m) fun m => decF rd2 fun d => decF sa2 fun a =>
      decF (srcIf (m == .b64) b lit) fun b => .ok (.iadd64 d a b m)
  | 0x09 => decAB (SN.ofCodeN m) rd2 sa sb .imad64
  | 0x0A => decAB (SN.ofCode m) rd sa sb .imin
  | 0x0B => decAB (SN.ofCode m) rd sa sb .imax
  | 0x0C => decAB (SN.ofCode m) rd sa sb .iabsd
  | 0x0D => decAB (unitOfCode m) rd sa sb fun d a b _ => .land d a b
  | 0x0E => decAB (unitOfCode m) rd sa sb fun d a b _ => .lor d a b
  | 0x0F => decAB (unitOfCode m) rd sa sb fun d a b _ => .lxor d a b
  | 0x10 => decAB (unitOfCode m) rd sa sb fun d a b _ => .landn d a b
  | 0x11 => decAB (unitOfCode m) rd sa sb fun d a b _ => .shl d a b
  | 0x12 => decAB (SN.ofCodeN m) rd sa sb .shr
  | 0x13 => decAB (ShfDir.ofCode m) rd sa2 sb .shf
  | 0x14 => decAB (SN.ofCodeN m) rd sa sb .bfx
  | 0x15 => decAB (unitOfCode m) rd sa sb fun d a b _ => .bfi d a b
  | 0x16 => decM (boolOfCode m) fun w => decA1 (some w) rd (srcIf w a lit) b .clz
  | 0x17 => decM (boolOfCode m) fun w => decA1 (some w) rd (srcIf w a lit) b .popc
  | 0x18 => decA1 (unitOfCode m) rd sa b fun d a _ => .brev d a
  | 0x19 => decAB (IlMode.ofCode m) rd sa sb .bitil
  | 0x1A => decA1 (IlMode.ofCode m) rd sa b .bitdl
  | 0x1B => decAB (ICond.ofCode m) rd sa sb .icmps
  | 0x1C => decAB (ICond.ofCode m) rd sa sb .icmpn
  | 0x1D => decAB (boolOfCode m) rd sa sb .sel
  | 0x1E => decAB (boolOfCode m) rd sa sb .bytsel
  | 0x20 => decAB (ShflMode.ofCode m) rd sa sb .shfl
  | 0x21 => decA1 (boolOfCode m) rd sa b .ballot
  | 0x22 => decA1 (RedOp.ofCode m) rd sa b .lred
  | 0x23 => decA1 (RedOp.ofCode m) rd sa b .lscan
  | 0x24 => decA1 (boolOfCode m) rd sa b .lfirst
  | 0x25 => decM (boolOfCode m) fun w => decA1 (some w) rd (srcIf w a lit) b .lmatch
  | 0x26 => decA1 (FredOp.ofCode m) rd sa b .flred
  | _ => .error .illegalOp

/-- The condition operand of BR: a register or operand code 121 to 126 (R69). -/
def brSrcOf (c : Nat) : Option Src := if c = 120 then none else srcOf c 0

/-- Majors 0x28 to 0x36: control flow (R69, R100). -/
def decodeControl (maj d a b m o lit : Nat) : Except DecErr Instr :=
  let plain (i : Instr) : Except DecErr Instr :=
    decM (unitOfCode m) fun _ => if d = 0 ∧ a = 0 ∧ b = 0 then .ok i else .error .illegalEnc
  match maj with
  | 0x28 => decF (brSrcOf d) fun v => .ok (.br v (sext o 17))
  | 0x29 => decF (regOf d 2) fun v => decF (zeroOf o) fun _ => .ok (.brv v)
  | 0x2A => decF (zeroOf d) fun _ => .ok (.split (sext o 17))
  | 0x2B => plain .join
  | 0x2C => decF (zeroOf d) fun _ => .ok (.call (sext o 17))
  | 0x2D => decM (unitOfCode m) fun _ => decF (regOf a 2) fun a =>
      if d = 0 ∧ b = 0 then .ok (.callv a) else .error .illegalEnc
  | 0x2E => decM (unitOfCode m) fun _ => decF (regOf a 2) fun a =>
      if d = 0 ∧ b = 0 then .ok (.ret a) else .error .illegalEnc
  | 0x2F => plain .exit
  | 0x30 => decM (unitOfCode m) fun _ => decF (regOf a 1) fun a =>
      if d = 0 ∧ 1 ≤ b ∧ b ≤ 15 then .ok (.pset a b) else .error .illegalEnc
  | 0x31 => match m with
    | 0 => decF (srcOf a lit) fun a => if d = 0 ∧ b = 0 then .ok (.sleep a) else .error .illegalEnc
    | 1 => decF (src64Of a lit) fun a => if d = 0 ∧ b = 0 then .ok (.sleepT a) else .error .illegalEnc
    | 2 => decF (srcOf a lit) fun a => if d = 0 ∧ b = 0 then .ok (.sleepB a) else .error .illegalEnc
    | _ => .error .illegalOp
  | 0x32 => plain .yield
  | 0x33 => decM (unitOfCode m) fun _ => if d = 0 ∧ a = 0 then .ok (.trap b) else .error .illegalEnc
  | 0x34 => plain .bkpt
  | 0x35 => plain .rett
  | 0x36 => decM (EngClass.ofCode m) fun c =>
      if d = 0 ∧ a = 0 ∧ b < 64 then .ok (.waitc c b) else .error .illegalEnc
  | _ => .error .illegalOp

/-- A float format allowed by CVTI and CVTIF: not E8M0 (R135). -/
def ffmtNoScale (c : Nat) : Option FFmt := if c = 6 then none else FFmt.ofCode c

/-- A 64-bit integer format (R135). -/
def IFmt.is64 : IFmt → Bool | .s64 => true | .n64 => true | _ => false

/-- Majors 0x38 to 0x4F: floating point and conversions (R125, R135). -/
def decodeFloat (maj d a b m lit : Nat) : Except DecErr Instr :=
  let rd := regOf d 1
  let sa := srcOf a lit
  let sb := srcOf b lit
  let rn := Rnd.ofCode m
  let pk := Rnd.ofCode (m % 4)
  let bf := decide (4 ≤ m)
  match maj with
  | 0x38 => decAB rn rd sa sb .fadd
  | 0x39 => decAB rn rd sa sb .fmul
  | 0x3A => decAB rn rd sa sb .ffma
  | 0x3B => decAB (unitOfCode m) rd sa sb fun d a b _ => .fmin d a b
  | 0x3C => decAB (unitOfCode m) rd sa sb fun d a b _ => .fmax d a b
  | 0x3D => decAB (FCond.ofCode m) rd sa sb .fcmp
  | 0x3E => decA1 rn rd sa b .frnd
  | 0x3F => decA1 (ClsFmt.ofCode m) rd sa b .fclass
  | 0x40 => decAB pk rd sa sb fun d a b r => .padd2 d a b bf r
  | 0x41 => decAB pk rd sa sb fun d a b r => .pmul2 d a b bf r
  | 0x42 => decAB pk rd sa sb fun d a b r => .pfma2 d a b bf r
  | 0x43 => decAB pk rd sa sb fun d a b r => .pdot2 d a b bf r
  | 0x44 => decAB rn rd sa sb .fdiv
  | 0x45 => decA1 rn rd sa b .frcp
  | 0x46 => decA1 rn rd sa b .frsq
  | 0x47 => decA1 rn rd sa b .fsqrt
  | 0x48 => decA1 rn rd sa b .fexp2
  | 0x49 => decA1 rn rd sa b .flog2
  | 0x4A => decA1 rn rd sa b .fsinpi
  | 0x4B => decA1 rn rd sa b .fcospi
  | 0x4C => decM rn fun r => decM (FFmt.ofCode (b % 8)) fun df => decM (FFmt.ofCode (b / 8 % 8)) fun sf =>
      decF rd fun d => decF sa fun a => .ok (.cvtf d a df sf (decide (64 ≤ b)) r)
  | 0x4D => decM rn fun r => decM (ffmtNoScale (b % 8)) fun df => decM (IFmt.ofCode (b / 8 % 8)) fun sf =>
      decM (zeroOf (b / 64)) fun _ => decF (pairIf sf.is64 d) fun d => decF sa fun a => .ok (.cvti d a df sf r)
  | 0x4E => decM rn fun r => decM (ffmtNoScale (b % 8)) fun df => decM (IFmt.ofCode (b / 8 % 8)) fun sf =>
      decF rd fun d => decF (srcIf sf.is64 a lit) fun a => .ok (.cvtif d a df sf (decide (64 ≤ b)) r)
  | 0x4F => decAB (PkForm.ofCode m) rd sa sb .cvtpk
  | _ => .error .illegalOp

/-- The offset operand of format M: the literal when xo = 1 (R48, R141). -/
def offOf (xo lit : Nat) : Option Nat := if xo = 1 then some lit else none

/-- Majors 0x50 to 0x5A: format M (R140, R146, R150). -/
def decodeMem (maj d a f z xo xm lit : Nat) : Except DecErr Instr :=
  let off := offOf xo lit
  let sxOk (z : Sz) (sx : Bool) : Option Bool := if sx && (z == .b32 || z == .b64 || z == .b128) then none else some sx
  match maj with
  | 0x50 => decM (Sz.ofCode z) fun z => decM (sxOk z (decide (xm % 2 = 1))) fun sx => decF (regOf d z.align) fun d =>
      decF (regOf a 2) fun a => decF (flagOf f) fun f => .ok (.ld d a f z off sx (decide (2 ≤ xm)))
  | 0x51 => decM (Sz.ofCode z) fun z => decM (boolOfCode xm) fun nc => decF (regOf d z.align) fun d =>
      decF (regOf a 2) fun a => decF (flagOf f) fun f => .ok (.st d a f z off nc)
  | 0x52 => decM (Sz.ofCode z) fun z => decM (boolOfCode xm) fun sx => decM (sxOk z sx) fun sx =>
      decF (regOf d z.align) fun d => decF (regOf a 1) fun a => decF (flagOf f) fun f => .ok (.lds d a f z off sx)
  | 0x53 => decM (Sz.ofCode z) fun z => decM (unitOfCode xm) fun _ => decF (regOf d z.align) fun d =>
      decF (regOf a 1) fun a => decF (flagOf f) fun f => .ok (.sts d a f z off)
  | 0x54 => decM (Sz.ofCode z) fun z => decM (boolOfCode xm) fun sx => decM (sxOk z sx) fun sx =>
      decF (regOf d z.align) fun d => decF (regOf a 2) fun a => decF (flagOf f) fun f => .ok (.ldb d a f z off sx)
  | 0x55 => decM (Sz.ofCode z) fun z => decM (unitOfCode xm) fun _ => decF (regOf d z.align) fun d =>
      decF (regOf a 2) fun a => decF (flagOf f) fun f => .ok (.stb d a f z off)
  | 0x56 => decM (ASz.ofCode z) fun z => decM (boolOfCode xm) fun nr =>
      decF (regOf d (if z = .b64 then 2 else 1)) fun d => decF (regOf a 2) fun a => decF (flagOf f) fun f =>
      .ok (.atom d a f z off nr)
  | 0x57 => decM (ASz.ofCode z) fun z => decM (boolOfCode xm) fun nr =>
      decF (regOf d (if z = .b64 then 2 else 1)) fun d => decF (regOf a 1) fun a => decF (flagOf f) fun f =>
      .ok (.atoms d a f z off nr)
  | 0x58 => decM (ASz.ofCode z) fun z => decM (unitOfCode xm) fun _ =>
      decF (regOf d (if z = .b64 then 4 else 2)) fun d => decF (regOf a 2) fun a => decF (flagOf f) fun f =>
      .ok (.cas d a f z off)
  | 0x59 => decM (if z = 4 ∧ xm = 0 then some () else none) fun _ => decF (regOf d 8) fun d =>
      decF (regOf a 2) fun a => decF (flagOf f) fun f => .ok (.cas128 d a f off)
  | 0x5A => decM (if z = 3 then boolOfCode xm else none) fun nr => decF (regOf d 2) fun d =>
      decF (regOf a 2) fun a => decF (flagOf f) fun f => .ok (.aminv d a f off nr)
  | _ => .error .illegalOp

/-- Majors 0x5B to 0x5F: fences, cache maintenance, barriers, FIFOs and bank modes (R155 to R165). -/
def decodeSync (maj fn d a f m lit : Nat) : Except DecErr Instr :=
  match maj with
  | 0x5B => decM (Scope.ofCode fn) fun sc => decM (FenceKind.ofCode m) fun k =>
      if d = 0 ∧ a = 0 ∧ f = 0 then .ok (.fence sc k) else .error .illegalEnc
  | 0x5C => decM (if fn < 3 then CacheLevel.ofCode m else none) fun lv => decF (regOf a 2) fun a =>
      decF (zeroOf d) fun _ => decF (flagOf f) fun f =>
      .ok (if fn = 0 then .cachePref a f lv else if fn = 1 then .cacheFlush a f lv else .cacheInv a f lv)
  | 0x5D => decM (if fn < 6 then boolOfCode m else none) fun rlx => decF (numIf (decide (a < 16)) a) fun b =>
      decF (zeroOf f) fun _ => match fn with
      | 0 => if d = 0 ∧ 1 ≤ lit ∧ lit ≤ 255 then .ok (.barInit b rlx lit) else .error .illegalEnc
      | 1 => decF (regOf d 1) fun d => .ok (.barArrive d b rlx)
      | 2 => decF (regOf d 1) fun d => .ok (.barWait d b rlx)
      | 3 => decF (regOf d 1) fun d => .ok (.barArrivewait d b rlx)
      | 4 => decF (zeroOf d) fun _ => .ok (.barInv b rlx)
      | _ => decF (regOf d 1) fun d => .ok (.barQuery d b rlx)
  | 0x5E => decM (if fn < 2 then boolOfCode m else none) fun cl => decF (flagOf f) fun f =>
      decF (numIf (decide (lit < 32)) lit) fun bank =>
      if fn = 0 then decF (regOf a 1) fun a => decF (zeroOf d) fun _ => .ok (.qpush a f cl bank)
      else decF (regOf d 1) fun d => decF (zeroOf a) fun _ => .ok (.qpop d f cl bank)
  | 0x5F => decM (if m = 0 then BankMode.ofCode fn else none) fun md => decF (regOf d 1) fun d =>
      decF (regOf a 1) fun a => decF (flagOf f) fun f => .ok (.bkcfg d a f md)
  | _ => .error .illegalOp

/-- A TCFG literal that names a legal configuration: its ILLEGAL_OP part (R168). -/
def tcfgLegal (lit : Nat) : Bool :=
  let fmt := lit % 16
  let cols := bits lit 15 9 + 1
  let sc := bit lit 16
  decide (fmt < 9) && (!sc || fmt == 3 || fmt == 4 || fmt == 5) && !((fmt == 1 || fmt == 3) && cols % 2 == 1)

/-- Majors 0x60 to 0x6B: matrix instructions (R167, R168). -/
def decodeMatrix (maj p q s v k lit : Nat) : Except DecErr Instr :=
  let pairOfSp (sp : TSpace) : Option Nat := regOf v (if sp = .scratch then 1 else 2)
  match maj with
  | 0x60 => decM (numIf (tcfgLegal lit) lit) fun c =>
      if q = 0 ∧ s = 0 ∧ v = 0 ∧ k = 0 ∧ c < 2 ^ 17 then .ok (.tcfg p c) else .error .illegalEnc
  | 0x61 => decM (TSpace.ofCode s) fun sp => decF (pairOfSp sp) fun v =>
      if q = 0 ∧ k = 0 then .ok (.tld p v sp lit) else .error .illegalEnc
  | 0x62 => decM (TSpace.ofCode s) fun sp => decF (pairOfSp sp) fun v => decF (Scope.ofCode k) fun sc =>
      if q = 0 then .ok (.tst p v sp sc lit) else .error .illegalEnc
  | 0x63 => decF (regOf v 1) fun v =>
      if q = 0 ∧ s = 0 then .ok (.tmovv p v (k % 128) (decide (128 ≤ k))) else .error .illegalEnc
  | 0x64 => if p < 4 ∧ v = 0 ∧ k = 0 then .ok (.mma p q s) else .error .illegalEnc
  | 0x65 => let e := sext lit 32
      if p < 4 ∧ q = 0 ∧ s = 0 ∧ v = 0 ∧ k = 0 ∧ -2048 ≤ e ∧ e ≤ 2047 then .ok (.mzero p e) else .error .illegalEnc
  | 0x66 => decF (regOf v 1) fun v =>
      if p < 4 ∧ s = 0 ∧ k < 64 then .ok (.mdrain p q v (k % 32) (decide (32 ≤ k))) else .error .illegalEnc
  | 0x67 => decM (HOrder.ofCode (k % 4)) fun n =>
      if s = 0 ∧ k < 8 ∧ (if 4 ≤ k then v < 120 ∧ v % 4 = 0 else v = 0) then .ok (.mhad p q v n (decide (4 ≤ k)))
      else .error .illegalEnc
  | 0x68 => decM (HOrder.ofCode (k % 4)) fun n => decF (regOf v 4) fun v =>
      if s = 0 ∧ k < 4 then .ok (.msign p q v n) else .error .illegalEnc
  | 0x69 => if s = 0 ∧ v = 0 ∧ k = 0 then .ok (.mquant p q) else .error .illegalEnc
  | 0x6A => if p = 0 ∧ q = 0 ∧ s = 0 ∧ v = 0 ∧ k = 0 then .ok .mbatch else .error .illegalEnc
  | 0x6B => if s = 0 ∧ v = 0 ∧ k = 0 then .ok (.ttrans p q) else .error .illegalEnc
  | _ => .error .illegalOp

/-- Majors 0x6C to 0x76: buffers, copies, layout records, tile handles (R195 to R212). -/
def decodeCopy (maj fn d a f m lit : Nat) : Except DecErr Instr :=
  match maj with
  | 0x6C => decM (boolOfCode m) fun full => decF (zeroOf fn) fun _ => decF (regOf d 1) fun d =>
      decF (regOf a 2) fun a => decF (flagOf f) fun f => .ok (.bnew d a f full)
  | 0x6D => decM (unitOfCode m) fun _ => decF (regOf a 1) fun a =>
      if fn = 0 ∧ d = 0 ∧ f = 0 then .ok (.bfree a) else .error .illegalEnc
  | 0x6E => decM (unitOfCode m) fun _ => decF (zeroOf fn) fun _ => decF (regOf d 1) fun d =>
      decF (regOf a 1) fun a => decF (flagOf f) fun f => .ok (.bstat d a f)
  | 0x6F => decM (unitOfCode m) fun _ => decF (zeroOf fn) fun _ => decF (regOf d 2) fun d =>
      decF (regOf a 8) fun a => decF (flagOf f) fun f => decF (numIf (decide (lit < 2 ^ 21)) lit) fun w =>
      .ok (.cpy d a f w)
  | 0x70 => decM (unitOfCode m) fun _ => decF (zeroOf fn) fun _ => decF (regOf d 2) fun d =>
      decF (regOf a 8) fun a => decF (flagOf f) fun f => decF (numIf (decide (lit < 2 ^ 21)) lit) fun w =>
      .ok (.cpyo d a f w)
  | 0x71 => decM (boolOfCode m) fun wr => decF (numIf (decide (fn < 4)) fn) fun qp => decF (regOf d 2) fun d =>
      decF (regOf a 4) fun a => decF (flagOf f) fun f =>
      decF (numIf (decide (lit ≠ 0 ∧ lit % 16 = 0 ∧ lit ≤ 262144)) lit) fun len =>
      .ok (if wr then .cpylWrite d a f qp len else .cpylRead d a f qp len)
  | 0x72 => decM (if fn < 4 then unitOfCode m else none) fun _ => decF (regOf d (if fn < 3 then 2 else 1)) fun d =>
      decF (regOf a 2) fun a => decF (flagOf f) fun f =>
      .ok (match fn with
        | 0 => .lrecBase d a f
        | 1 => .lrecScale d a f
        | 2 => .lrecSeed d a f
        | _ => .lrecChk d a f)
  | 0x74 => decM (if fn < 3 then unitOfCode m else none) fun _ => decF (flagOf f) fun f => match fn with
      | 0 => decF (regOf d 1) fun d => decF (regOf a 8) fun a => .ok (.thnew d a f)
      | 1 => decF (zeroOf d) fun _ => decF (regOf a 1) fun a => .ok (.thfree a f)
      | _ => decF (regOf d 1) fun d => decF (regOf a 1) fun a => .ok (.thqry d a f)
  | 0x75 => decM (AcqMode.ofCode m) fun md => decF (zeroOf fn) fun _ => decF (regOf d 1) fun d =>
      decF (regOf a 1) fun a => decF (flagOf f) fun f => .ok (.tacq d a f md)
  | 0x76 => decM (if fn < 3 then unitOfCode m else none) fun _ => decF (regOf a 1) fun a => decF (flagOf f) fun f =>
      match fn with
      | 0 => decF (zeroOf d) fun _ => .ok (.trel a f)
      | 1 => decF (zeroOf d) fun _ => .ok (.tflush a f)
      | _ => decF (regOf d 1) fun d => decF (zeroOf (bits lit 15 2)) fun _ =>
          .ok (.tsplit d a f (lit % 4) (bits lit 31 16))
  | _ => .error .illegalOp

/-- Majors 0x78 to 0x7D: rays, builder, system and trace functions (R214, R220, R221). -/
def decodeSys (maj fn d a f m lit : Nat) : Except DecErr Instr :=
  match maj with
  | 0x78 => decM (if fn < 2 then unitOfCode m else none) fun _ => decF (regOf d 8) fun d => decF (regOf a 4) fun a =>
      decF (flagOf f) fun f => .ok (if fn = 0 then .rtrace d a f else .rany d a f)
  | 0x79 => decM (if fn < 4 then unitOfCode m else none) fun _ => decF (flagOf f) fun f => match fn with
      | 0 => decF (regOf d 1) fun d => decF (regOf a 2) fun a => .ok (.rpin d a f)
      | 1 => decF (zeroOf d) fun _ => decF (regOf a 4) fun a => .ok (.runpin a f)
      | 2 => decF (regOf d 4) fun d => decF (regOf a 4) fun a => .ok (.rhit d a f)
      | _ => decF (regOf d 2) fun d => decF (regOf a 4) fun a => .ok (.rgenq d a f)
  | 0x7A => decM (if fn < 8 then unitOfCode m else none) fun _ => decF (zeroOf d) fun _ => decF (regOf a 2) fun a =>
      decF (flagOf f) fun f =>
      .ok (match fn with
        | 0 => .asbuild a f
        | 1 => .asrefit a f
        | 2 => .asrebal a f
        | 3 => .asimport a f
        | 4 => .aspubl a f
        | 5 => .asstat a f
        | 6 => .asqual a f
        | _ => .asrecl a f)
  | 0x7C => decM (if fn < 5 then unitOfCode m else none) fun _ => decF (zeroOf f) fun _ =>
      decF (regOf d 1) fun d => match fn with
      | 0 => decF (zeroOf a) fun _ => .ok (.feat d)
      | 1 => decF (zeroOf a) fun _ => .ok (.dfeat d)
      | 2 => decF (zeroOf a) fun _ => .ok (.ckpt d)
      | 3 => decF (regOf a 4) fun a => .ok (.mbpost d a)
      | _ => decF (numIf (decide (a < 8)) a) fun k => .ok (.trapinfo d k)
  | 0x7D => decM (if fn < 3 then unitOfCode m else none) fun _ =>
      if d = 0 ∧ a = 0 ∧ f = 0 then match fn with
        | 0 => .ok .trcon
        | 1 => .ok .trcoff
        | _ => decF (numIf (decide (lit < 65536)) lit) fun k => .ok (.trcmark k)
      else .error .illegalEnc
  | _ => .error .illegalOp

/-- The major opcode of a word (R48). -/
def majorOf (w : Nat) : Nat := bits w 30 24

/-- The instruction that a word holds, its chain bit apart, with the literal of its next slot (R48, R66, R67). -/
def decodeInstr (w lit : Nat) : Except DecErr Instr :=
  let maj := majorOf w
  if maj < 0x28 then decodeInt maj (bits w 23 17) (bits w 16 10) (bits w 9 3) (bits w 2 0) lit
  else if maj < 0x38 then
    decodeControl maj (bits w 23 17) (bits w 16 10) (bits w 9 3) (bits w 2 0) (bits w 16 0) lit
  else if maj < 0x50 then decodeFloat maj (bits w 23 17) (bits w 16 10) (bits w 9 3) (bits w 2 0) lit
  else if maj < 0x5B then
    decodeMem maj (bits w 23 17) (bits w 16 10) (bits w 9 6) (bits w 5 3) (bits w 2 2) (bits w 1 0) lit
  else if maj < 0x60 then decodeSync maj (bits w 23 20) (bits w 19 13) (bits w 12 6) (bits w 5 2) (bits w 1 0) lit
  else if maj < 0x6C then decodeMatrix maj (bits w 23 21) (bits w 20 18) (bits w 17 15) (bits w 14 8) (bits w 7 0) lit
  else if maj < 0x77 then decodeCopy maj (bits w 23 20) (bits w 19 13) (bits w 12 6) (bits w 5 2) (bits w 1 0) lit
  else decodeSys maj (bits w 23 20) (bits w 19 13) (bits w 12 6) (bits w 5 2) (bits w 1 0) lit

/-- Majors of format A whose a field is a source operand (R17, R52). -/
def aIsSource (maj : Nat) : Bool :=
  maj == 0x01 || (decide (0x03 ≤ maj) && decide (maj ≤ 0x1E)) || (decide (0x20 ≤ maj) && decide (maj ≤ 0x26)) ||
  maj == 0x31 || (decide (0x38 ≤ maj) && decide (maj ≤ 0x4F))

/-- Majors of format A whose b field is a source operand. -/
def bIsSource (maj : Nat) : Bool :=
  (decide (0x03 ≤ maj) && decide (maj ≤ 0x15)) || maj == 0x19 || (decide (0x1B ≤ maj) && decide (maj ≤ 0x1E)) ||
  maj == 0x20 || (decide (0x38 ≤ maj) && decide (maj ≤ 0x3D)) || (decide (0x40 ≤ maj) && decide (maj ≤ 0x44)) ||
  maj == 0x4F

/-- Whether a word consumes a literal: decided by its major, function code and encoding fields alone (R52). -/
def consumesLit (w : Nat) : Bool :=
  let maj := majorOf w
  let fn := bits w 23 20
  (aIsSource maj && bits w 16 10 == 120) || (bIsSource maj && bits w 9 3 == 120) ||
  (decide (0x50 ≤ maj) && decide (maj ≤ 0x5A) && bits w 2 2 == 1) ||
  (maj == 0x5D && fn == 0) || maj == 0x5E || maj == 0x60 || maj == 0x61 || maj == 0x62 || maj == 0x65 ||
  maj == 0x6F || maj == 0x70 || maj == 0x71 || (maj == 0x76 && fn == 2) || (maj == 0x7D && fn == 2)

/-! ### The encoder -/

def encA (maj d a b m : Nat) : Nat := maj * 2 ^ 24 + d * 2 ^ 17 + a * 2 ^ 10 + b * 2 ^ 3 + m
def encM (maj d a f z xo xm : Nat) : Nat :=
  maj * 2 ^ 24 + d * 2 ^ 17 + a * 2 ^ 10 + f * 2 ^ 6 + z * 2 ^ 3 + xo * 2 ^ 2 + xm
def encB (maj v o : Nat) : Nat := maj * 2 ^ 24 + v * 2 ^ 17 + o
def encF (maj fn d a f m : Nat) : Nat := maj * 2 ^ 24 + fn * 2 ^ 20 + d * 2 ^ 13 + a * 2 ^ 6 + f * 2 ^ 2 + m
def encT (maj p q s v k : Nat) : Nat := maj * 2 ^ 24 + p * 2 ^ 21 + q * 2 ^ 18 + s * 2 ^ 15 + v * 2 ^ 8 + k

/-- A word with the literal of its source operands, if any. -/
def withLit (w : Nat) : Option Nat → List Nat
  | some l => [w, l]
  | none => [w]

def lit2 (a b : Src) : Option Nat := match a.litOf with
  | some l => some l
  | none => b.litOf

def eAB (maj d : Nat) (a b : Src) (m : Nat) : List Nat := withLit (encA maj d a.code b.code m) (lit2 a b)
def eA1 (maj d : Nat) (a : Src) (m : Nat) : List Nat := withLit (encA maj d a.code 0 m) a.litOf
def eM (maj d a : Nat) (f : Option Nat) (z : Nat) (off : Option Nat) (xm : Nat) : List Nat :=
  withLit (encM maj d a (flagCode f) z (b2n off.isSome) xm) off
def eF (maj fn d a : Nat) (f : Option Nat) (m : Nat) : List Nat := [encF maj fn d a (flagCode f) m]

/-- The words of an instruction: its instruction word with C = 0 and its literal, if it consumes one (R48 to R52,
R66, R67). A whole-device step has no words. -/
def encode : Instr → List Nat
  | .nop => [0]
  | .mov d a w => eA1 0x01 d a (b2n w)
  | .sreg d c => [encA 0x02 d c 0 0]
  | .iadd d a b m => eAB 0x03 d a b m.code
  | .isub d a b m => eAB 0x04 d a b m.code
  | .imul d a b => eAB 0x05 d a b 0
  | .imulh d a b m => eAB 0x06 d a b m.code
  | .imad d a b => eAB 0x07 d a b 0
  | .iadd64 d a b m => eAB 0x08 d a b m.code
  | .imad64 d a b m => eAB 0x09 d a b m.codeN
  | .imin d a b m => eAB 0x0A d a b m.code
  | .imax d a b m => eAB 0x0B d a b m.code
  | .iabsd d a b m => eAB 0x0C d a b m.code
  | .land d a b => eAB 0x0D d a b 0
  | .lor d a b => eAB 0x0E d a b 0
  | .lxor d a b => eAB 0x0F d a b 0
  | .landn d a b => eAB 0x10 d a b 0
  | .shl d a b => eAB 0x11 d a b 0
  | .shr d a b m => eAB 0x12 d a b m.codeN
  | .shf d a b m => eAB 0x13 d a b m.code
  | .bfx d a b m => eAB 0x14 d a b m.codeN
  | .bfi d a b => eAB 0x15 d a b 0
  | .clz d a w => eA1 0x16 d a (b2n w)
  | .popc d a w => eA1 0x17 d a (b2n w)
  | .brev d a => eA1 0x18 d a 0
  | .bitil d a b m => eAB 0x19 d a b m.code
  | .bitdl d a m => eA1 0x1A d a m.code
  | .icmps d a b m => eAB 0x1B d a b m.code
  | .icmpn d a b m => eAB 0x1C d a b m.code
  | .sel d a b w => eAB 0x1D d a b (b2n w)
  | .bytsel d a b w => eAB 0x1E d a b (b2n w)
  | .shfl d a b m => eAB 0x20 d a b m.code
  | .ballot d a w => eA1 0x21 d a (b2n w)
  | .lred d a m => eA1 0x22 d a m.code
  | .lscan d a m => eA1 0x23 d a m.code
  | .lfirst d a w => eA1 0x24 d a (b2n w)
  | .lmatch d a w => eA1 0x25 d a (b2n w)
  | .flred d a m => eA1 0x26 d a m.code
  | .br v o => [encB 0x28 v.code (wrapN o 17)]
  | .brv v => [encB 0x29 v 0]
  | .split o => [encB 0x2A 0 (wrapN o 17)]
  | .join => [encA 0x2B 0 0 0 0]
  | .call o => [encB 0x2C 0 (wrapN o 17)]
  | .callv a => [encA 0x2D 0 a 0 0]
  | .ret a => [encA 0x2E 0 a 0 0]
  | .exit => [encA 0x2F 0 0 0 0]
  | .pset a n => [encA 0x30 0 a n 0]
  | .sleep a => eA1 0x31 0 a 0
  | .sleepT a => eA1 0x31 0 a 1
  | .sleepB a => eA1 0x31 0 a 2
  | .yield => [encA 0x32 0 0 0 0]
  | .trap b => [encA 0x33 0 0 b 0]
  | .bkpt => [encA 0x34 0 0 0 0]
  | .rett => [encA 0x35 0 0 0 0]
  | .waitc c n => [encA 0x36 0 0 n c.code]
  | .fadd d a b r => eAB 0x38 d a b r.code
  | .fmul d a b r => eAB 0x39 d a b r.code
  | .ffma d a b r => eAB 0x3A d a b r.code
  | .fmin d a b => eAB 0x3B d a b 0
  | .fmax d a b => eAB 0x3C d a b 0
  | .fcmp d a b m => eAB 0x3D d a b m.code
  | .frnd d a r => eA1 0x3E d a r.code
  | .fclass d a m => eA1 0x3F d a m.code
  | .padd2 d a b bf r => eAB 0x40 d a b (4 * b2n bf + r.code)
  | .pmul2 d a b bf r => eAB 0x41 d a b (4 * b2n bf + r.code)
  | .pfma2 d a b bf r => eAB 0x42 d a b (4 * b2n bf + r.code)
  | .pdot2 d a b bf r => eAB 0x43 d a b (4 * b2n bf + r.code)
  | .fdiv d a b r => eAB 0x44 d a b r.code
  | .frcp d a r => eA1 0x45 d a r.code
  | .frsq d a r => eA1 0x46 d a r.code
  | .fsqrt d a r => eA1 0x47 d a r.code
  | .fexp2 d a r => eA1 0x48 d a r.code
  | .flog2 d a r => eA1 0x49 d a r.code
  | .fsinpi d a r => eA1 0x4A d a r.code
  | .fcospi d a r => eA1 0x4B d a r.code
  | .cvtf d a df sf sat r => withLit (encA 0x4C d a.code (df.code + 8 * sf.code + 64 * b2n sat) r.code) a.litOf
  | .cvti d a df sf r => withLit (encA 0x4D d a.code (df.code + 8 * sf.code) r.code) a.litOf
  | .cvtif d a df sf sat r => withLit (encA 0x4E d a.code (df.code + 8 * sf.code + 64 * b2n sat) r.code) a.litOf
  | .cvtpk d a b m => eAB 0x4F d a b m.code
  | .ld d a f z off sx nc => eM 0x50 d a f z.code off (b2n sx + 2 * b2n nc)
  | .st d a f z off nc => eM 0x51 d a f z.code off (b2n nc)
  | .lds d a f z off sx => eM 0x52 d a f z.code off (b2n sx)
  | .sts d a f z off => eM 0x53 d a f z.code off 0
  | .ldb d a f z off sx => eM 0x54 d a f z.code off (b2n sx)
  | .stb d a f z off => eM 0x55 d a f z.code off 0
  | .atom d a f z off nr => eM 0x56 d a f z.code off (b2n nr)
  | .atoms d a f z off nr => eM 0x57 d a f z.code off (b2n nr)
  | .cas d a f z off => eM 0x58 d a f z.code off 0
  | .cas128 d a f off => eM 0x59 d a f 4 off 0
  | .aminv d a f off nr => eM 0x5A d a f 3 off (b2n nr)
  | .fence sc k => [encF 0x5B sc.code 0 0 0 k.code]
  | .cachePref a f lv => eF 0x5C 0 0 a f lv.code
  | .cacheFlush a f lv => eF 0x5C 1 0 a f lv.code
  | .cacheInv a f lv => eF 0x5C 2 0 a f lv.code
  | .barInit b rlx t => [encF 0x5D 0 0 b 0 (b2n rlx), t]
  | .barArrive d b rlx => [encF 0x5D 1 d b 0 (b2n rlx)]
  | .barWait d b rlx => [encF 0x5D 2 d b 0 (b2n rlx)]
  | .barArrivewait d b rlx => [encF 0x5D 3 d b 0 (b2n rlx)]
  | .barInv b rlx => [encF 0x5D 4 0 b 0 (b2n rlx)]
  | .barQuery d b rlx => [encF 0x5D 5 d b 0 (b2n rlx)]
  | .qpush a f cl bank => [encF 0x5E 0 0 a (flagCode f) (b2n cl), bank]
  | .qpop d f cl bank => [encF 0x5E 1 d 0 (flagCode f) (b2n cl), bank]
  | .bkcfg d a f m => eF 0x5F m.code d a f 0
  | .tcfg p c => [encT 0x60 p 0 0 0 0, c]
  | .tld p v sp pitch => [encT 0x61 p 0 sp.code v 0, pitch]
  | .tst p v sp sc pitch => [encT 0x62 p 0 sp.code v sc.code, pitch]
  | .tmovv p v j t => [encT 0x63 p 0 0 v (j + 128 * b2n t)]
  | .mma a p q => [encT 0x64 a p q 0 0]
  | .mzero a e => [encT 0x65 a 0 0 0 0, wrapN e 32]
  | .mdrain a t v c0 clr => [encT 0x66 a t 0 v (c0 + 32 * b2n clr)]
  | .mhad p q v n sgn => [encT 0x67 p q 0 v (n.code + 4 * b2n sgn)]
  | .msign p q v n => [encT 0x68 p q 0 v n.code]
  | .mquant p q => [encT 0x69 p q 0 0 0]
  | .mbatch => [encT 0x6A 0 0 0 0 0]
  | .ttrans p q => [encT 0x6B p q 0 0 0]
  | .bnew d a f full => eF 0x6C 0 d a f (b2n full)
  | .bfree a => [encF 0x6D 0 0 a 0 0]
  | .bstat d a f => eF 0x6E 0 d a f 0
  | .cpy d a f w => [encF 0x6F 0 d a (flagCode f) 0, w]
  | .cpyo d a f w => [encF 0x70 0 d a (flagCode f) 0, w]
  | .cpylRead d a f qp len => [encF 0x71 qp d a (flagCode f) 0, len]
  | .cpylWrite d a f qp len => [encF 0x71 qp d a (flagCode f) 1, len]
  | .lrecBase d a f => eF 0x72 0 d a f 0
  | .lrecScale d a f => eF 0x72 1 d a f 0
  | .lrecSeed d a f => eF 0x72 2 d a f 0
  | .lrecChk d a f => eF 0x72 3 d a f 0
  | .thnew d a f => eF 0x74 0 d a f 0
  | .thfree a f => eF 0x74 1 0 a f 0
  | .thqry d a f => eF 0x74 2 d a f 0
  | .tacq d a f m => eF 0x75 0 d a f m.code
  | .trel a f => eF 0x76 0 0 a f 0
  | .tflush a f => eF 0x76 1 0 a f 0
  | .tsplit d a f dim p => [encF 0x76 2 d a (flagCode f) 0, dim + 2 ^ 16 * p]
  | .rtrace d a f => eF 0x78 0 d a f 0
  | .rany d a f => eF 0x78 1 d a f 0
  | .rpin d a f => eF 0x79 0 d a f 0
  | .runpin a f => eF 0x79 1 0 a f 0
  | .rhit d a f => eF 0x79 2 d a f 0
  | .rgenq d a f => eF 0x79 3 d a f 0
  | .asbuild a f => eF 0x7A 0 0 a f 0
  | .asrefit a f => eF 0x7A 1 0 a f 0
  | .asrebal a f => eF 0x7A 2 0 a f 0
  | .asimport a f => eF 0x7A 3 0 a f 0
  | .aspubl a f => eF 0x7A 4 0 a f 0
  | .asstat a f => eF 0x7A 5 0 a f 0
  | .asqual a f => eF 0x7A 6 0 a f 0
  | .asrecl a f => eF 0x7A 7 0 a f 0
  | .feat d => [encF 0x7C 0 d 0 0 0]
  | .dfeat d => [encF 0x7C 1 d 0 0 0]
  | .ckpt d => [encF 0x7C 2 d 0 0 0]
  | .mbpost d a => [encF 0x7C 3 d a 0 0]
  | .trapinfo d k => [encF 0x7C 4 d k 0 0]
  | .trcon => [encF 0x7D 0 0 0 0 0]
  | .trcoff => [encF 0x7D 1 0 0 0 0]
  | .trcmark k => [encF 0x7D 2 0 0 0 0, k]
  | _ => []

/-- Decode a list of instruction words: one word, and its literal when it consumes one. -/
def decodeWords : List Nat → Except DecErr Instr
  | [] => .error .illegalEnc
  | [w] => if consumesLit w then .error .illegalEnc else decodeInstr w 0
  | w :: l :: _ => if consumesLit w then decodeInstr w l else decodeInstr w 0

/-- The host's view: the instruction whose bits are `w`, its literal, if it consumes one, being 0. -/
def decodeTableWord (nbits w : Nat) : Option Instr :=
  match decodeWords [w % 2 ^ nbits % 2 ^ 32, w % 2 ^ nbits / 2 ^ 32 % 2 ^ 32] with
  | .ok i => some i
  | .error _ => none

end Sys2Proof
end

