-- ==== Sys2Proof/Config.lean ====
section
/-! DEFINITION. What an implementation fixes and the values the spec leaves free: constants without a body, of which
nothing can be proved. -/
namespace Sys2Proof.Config

/-- R63: whether a read of a register unit whose producer is incomplete, or the end of two overlapping writes, takes
the newer value. Arguments: a fresh number and the unit. -/
opaque racePick : Nat → Nat → Bool

/-- R25: whether a reloaded divergence-stack entry is taken from memory (true) or is the value the core pushed. -/
opaque stackPick : Nat → Bool

/-- R203: how far after its issue a copy is expected to complete, less one tick. -/
opaque promiseDelay : Nat → Nat

/-- R142: whether the piece of an access in a sector is performed after the issue. Arguments: a fresh number and the
sector. -/
opaque pieceLater : Nat → Nat → Bool

/-- R45: whether a fetch of a packet that has been stored into since the launch started returns its value at launch start.
Arguments: a fresh number and the packet's address. -/
opaque fetchOld : Nat → Nat → Bool

/-- R143: the order in which the lanes of one atomic instruction are performed: a key per lane. -/
opaque atomicKey : Nat → Nat → Nat

/-- R225: which accepted triangle RANY returns: a number taken modulo the count of accepted triangles. -/
opaque anyPick : Nat → Nat

/-- R8, R345: the shape of a tree built by ASBUILD and ASREBAL: a split position for a run of triangles. -/
opaque treeSplit : Nat → Nat → Nat → Nat

/-- R215: the revision of a die. -/
opaque dieRev : Nat → BitVec 8

/-- The virtual address that a trap reports for an access which a companion's home refused, by its physical address (log 93). -/
opaque refusedAddr : Nat → Nat

/-- R365: byte i of a redo-log entry's data where its mask names no written byte, by the line (log 104). -/
opaque logByte : Nat → Nat → BitVec 8

/-- R145: the bits that the memory system returns for a poisoned byte. -/
opaque poisonByte : Nat → BitVec 8

/-- R8, R283, R285, R286: the line that a cache replaces in a set: a number taken modulo the count of its lines, by a fresh number. -/
opaque victim : Nat → Nat

/-- R165, R285: which line of a set, if any, the way of a bank that leaves CACHE holds. Arguments: a fresh number and the set. -/
opaque bankWay : Nat → Nat → Nat

/-- R375: the security version of the running firmware. -/
opaque svn : BitVec 16

/-- R387: the minimum security version that is fused at manufacture; firmware may raise it. -/
opaque svnMinimum : BitVec 16

/-- R387: whether the firmware image's signature verifies. -/
opaque firmwareOk : Bool

/-- R392: whether the work of a bring-up phase from 2 on succeeds: memory training, self-test and repairs, SRAMs, the host link. -/
opaque phaseOk : Nat → Bool

/-- R300: whether, at a tick, the docked companions have completed the command that is the oldest (log 94). -/
opaque companionInv : Nat → Bool

/-- R387, R392: the cause code in FAIL of a bring-up phase that fails. -/
opaque failCause : Nat → BitVec 8

/-- R389: the SHAKE256 hash of the running firmware, as 32 bytes little-endian. -/
opaque firmwareHash : BitVec 256

/-- R389: the part serial number. -/
opaque serialNumber : BitVec 64

/-- R386, R389: byte i of the randomiser, the WOTS+ signature and the authentication path of a signature over a message (little-endian
value) made with a leaf index. -/
opaque signatureByte : Nat → Nat → Nat → BitVec 8

/-- R389: byte i of the identity certificate. -/
opaque certificateByte : Nat → BitVec 8

/-- R389: the length in bytes of the identity certificate. -/
opaque certificateSize : Nat

/-- R356: whether the peer's signature and chain verify: nonce signed, offered versions, timebase, signature. -/
opaque peerVerifies : Nat → Nat → Nat → Nat → Bool

/-- R356: the offset of a companion's timebase that Precision Time Measurement finds, by a fresh number. -/
opaque ptmOffset : Nat → Nat

/-- R367: whether an MBOX message of a companion is the last of its CPYL.WRITE, by a fresh number (log 46). -/
opaque writeEnds : Nat → Bool

/-- R367: the credits that the hub grants as a queue pair becomes READY, less one, taken modulo 1,024; by a fresh number. -/
opaque readyCredits : Nat → Nat

/-- R360: the status, taken modulo 7, of a CPYL of which only the count travelled in an image, and the bytes that it leaves in the
buffer that it fills; by a fresh number, and by a fresh number and an offset (log 72). -/
opaque linkStatus : Nat → Nat
opaque linkByte : Nat → Nat → BitVec 8

/-- R356: the nonce of a HELLO that the hub sends. -/
opaque nonce : Nat → BitVec 256

/-- R191, R324, R391: core cycles that pass in a microsecond at a core clock state of a die. -/
opaque cyclesPerMicro : Nat → Nat

end Sys2Proof.Config
end

