-- ==== Sys2Proof/Machine/Map.lean ====
section
/-! DEFINITION. Sparse data by key: a list of key and value pairs with strictly rising keys, and sets of
natural numbers in rising order. Equal contents are equal lists. -/
namespace Sys2Proof.Machine

/-- Sparse data by key, keys strictly rising. -/
abbrev FMap (α : Type) := List (Nat × α)

/-- The value at a key. -/
def mapGet? {α : Type} : FMap α → Nat → Option α
  | [], _ => none
  | (i, v) :: r, k => if i = k then some v else mapGet? r k

/-- The value at a key, or a default. -/
def mapGetD {α : Type} (m : FMap α) (k : Nat) (d : α) : α := (mapGet? m k).getD d

/-- Set the value at a key. -/
def mapSet {α : Type} : FMap α → Nat → α → FMap α
  | [], k, v => [(k, v)]
  | (i, w) :: r, k, v =>
    if k < i then (k, v) :: (i, w) :: r else if i = k then (k, v) :: r else (i, w) :: mapSet r k v

/-- Remove a key. -/
def mapErase {α : Type} : FMap α → Nat → FMap α
  | [], _ => []
  | (i, w) :: r, k => if i = k then mapErase r k else (i, w) :: mapErase r k

/-- Set the value at a key, where the default is not listed. -/
def mapPut {α : Type} [DecidableEq α] (m : FMap α) (k : Nat) (d v : α) : FMap α :=
  if v = d then mapErase m k else mapSet m k v

/-- Apply a function to the value at a key, if there is one. -/
def mapMod {α : Type} (m : FMap α) (k : Nat) (f : α → α) : FMap α :=
  match mapGet? m k with
  | some v => mapSet m k (f v)
  | none => m

/-- The keys are strictly rising. -/
def mapWf {α : Type} : FMap α → Bool
  | [] => true
  | (i, _) :: r =>
    (match r with
      | [] => true
      | (j, _) :: _ => decide (i < j)) && mapWf r

/-- A set of natural numbers, strictly rising. -/
abbrev NSet := List Nat

/-- Add a member. -/
def setAdd : NSet → Nat → NSet
  | [], k => [k]
  | i :: r, k => if k < i then k :: i :: r else if i = k then i :: r else i :: setAdd r k

/-- Remove a member. -/
def setDel : NSet → Nat → NSet
  | [], _ => []
  | i :: r, k => if i = k then r else if k < i then i :: r else i :: setDel r k

/-- Set or clear membership. -/
def setPut (s : NSet) (k : Nat) (b : Bool) : NSet := if b then setAdd s k else setDel s k

end Sys2Proof.Machine
end

