-- ==== Sys2Proof/Machine/State.lean ====
section
/-! DEFINITION. The state of the machine as plain data: everything the spec gives the part, the state after reset, and
the reasons a step can stop. -/
namespace Sys2Proof.Machine

open Sys2Proof

/-- Why the machine stops with a fault. -/
inductive Fault where
  /-- Raised by `step` after a step in which a unit named a physical address at which R281 places nothing. Safe: the
  machine stops where the spec gives the address no contents. -/
  | noSuchAddress (pa : Nat)
  deriving DecidableEq, Repr

/-- Why an instruction has no meaning. -/
inductive Refusal where
  /-- Raised by `exec` for an instruction that has no meaning in this model. Safe: nothing is claimed of it. -/
  | notModelled (mnemonic : String)
  deriving DecidableEq, Repr

/-! ### Boxes and cache lines -/

/-- A box descriptor (R192, R256, R263): geometry, origin and extents. -/
structure Box where
  base : Nat := 0
  fmt  : Nat := 2
  ndim : Nat := 0
  str  : List Nat := [0, 0, 0]
  org  : List Int := [0, 0, 0, 0]
  ext  : List Nat := [1, 1, 1, 1]
  deriving DecidableEq, Repr

/-- One 128-byte cache line: present and dirty bytes as bit masks, and the bytes by offset (R283, R286). -/
structure CLine where
  present : Nat := 0
  dirty   : Nat := 0
  data    : FMap Byte := []
  deriving DecidableEq, Repr

/-! ### Slots and groups -/

/-- Slot states with their codes 0 to 6 (R20). -/
inductive SlotSt where | free | active | join | miss | sleep | barwait | held
  deriving DecidableEq, Repr

/-- What a parked or blocked slot waits for. -/
inductive Wait where
  /-- SLEEP: a core cycle (R109). -/
  | cycle (c : Nat)
  /-- SLEEP.T: a context timebase value (R109). -/
  | time (t : Nat)
  /-- SLEEP.B: a buffer handle, the chain and its packet slot (R109). -/
  | buffer (h pc word : Nat)
  /-- BAR.WAIT: barrier, phase, status register and its lanes, and whether the end acquires (R161). -/
  | barrier (b p : Nat) (d : Nat) (lanes : Mask) (acq : Bool)
  /-- An operation with f = 15 whose registers are not yet written (R59). -/
  | op (id : Nat)
  /-- An issued FENCE that is not yet complete; it waits for the operations numbered below `id` (R156). -/
  | fence (sc : Scope) (k : FenceKind) (id : Nat)
  /-- CKPT: the register d, its chain, and the checkpoint waited for; none where it waits to start the next (R216). -/
  | ckpt (d pc : Nat) (n : Option Nat)
  /-- MBPOST: the register d and the post (R217). -/
  | post (d id : Nat)
  /-- EMULATE: the chain parks until the Pavilion has executed it (R7). -/
  | emulate
  deriving DecidableEq, Repr

/-- One program-counter slot (R18, R58). -/
structure Slot where
  pc   : Nat := 0
  mask : Mask := 0
  st   : SlotSt := .free
  ja   : Nat := 0
  jd   : Nat := 0
  pv   : Nat := 0
  pn   : Nat := 0
  tbh  : Nat := 0
  n    : Nat := 0
  /-- The chain after the JOIN at which a JOIN slot stands (R26). -/
  jnext : Nat := 0
  /-- What the slot waits for: it issues nothing while the list is not empty. -/
  waits : List Wait := []
  /-- The state before HELD (R30). -/
  prior : SlotSt := .free
  /-- The bytes of layout records and request blocks that the chain at an address waits for, by physical address: those that have
  come stay read (R268). -/
  seen : Nat × FMap (Option (Byte × Bool)) := (0, [])
  /-- A PROMISE_MISS kept pending while HELD: its chain, packet slot and handle (R30). -/
  missed : Option (Nat × Nat × Nat) := Option.none
  deriving DecidableEq, Repr

/-- A divergence-stack entry (R24). MASK = 0 marks a join record. -/
structure DEntry where
  mask : Mask
  pc   : Nat
  ja   : Nat
  jd   : Nat
  /-- what blocks the path that was pushed (log 35); no part of the entry's 16 bytes -/
  waits : List Wait := []
  deriving DecidableEq, Repr

/-- One lane's access of a load: the lane, its bytes, and the pieces already performed. -/
structure LaneAcc where
  lane : Nat
  /-- physical address of each byte, in order -/
  pas  : List Nat
  /-- bytes of the sectors already read: value and poison by physical address (R142) -/
  got  : FMap (Byte × Bool) := []
  deriving DecidableEq, Repr

/-- The copy operand group and record as read at issue (R192, R200). -/
structure CopyDesc where
  recAddr : Nat := 0
  handle  : Nat := 0
  off     : Nat := 0
  scaleAt : Nat := 0
  scb     : Bool := false
  text    : List Nat := []
  box     : Box := {}
  /-- completion word (R200) -/
  word    : Nat := 0
  wr      : Bool := false
  /-- The engine has started: the sectors already moved, and whether poison was among them (R202, R243). -/
  begun   : Bool := false
  moved   : NSet := []
  bad     : Bool := false
  deriving DecidableEq, Repr

/-- One lane's ray (R222). -/
structure Ray where
  lane : Nat
  hdr  : Nat
  gen  : Nat
  flags : Nat
  o    : List Nat
  tmin : Nat
  dir  : List Nat
  tmax : Nat
  deriving DecidableEq, Repr

/-- What a builder request writes back to its block, and its output record (R231). -/
structure BRes where
  status  : Nat := 0
  outgen  : Nat := 0
  detail  : Nat := 0
  skipped : Nat := 0
  aux     : Option (List Byte) := none
  deriving DecidableEq, Repr

/-- A lane's traversal that has begun: the header, the generation found live, its record and its pool (R229). -/
structure Begun where
  lane  : Nat
  hdr   : Nat
  gen   : Nat
  rec_  : Nat
  pool  : Nat
  units : Nat
  deriving DecidableEq, Repr

/-- A builder request as read at issue (R231). -/
structure BReq where
  gid   : Nat := 0
  op    : Nat := 0
  ctx   : Nat := 0
  fn    : Nat := 0
  block : Nat := 0
  hdr   : Nat := 0
  src   : Nat := 0
  aux   : Nat := 0
  count : Nat := 0
  stride : Nat := 0
  first : Nat := 0
  gen   : Nat := 0
  skip  : Bool := false
  publ  : Bool := false
  start : Nat := 0
  /-- ASRECL has cleared the entries up to this generation and waits for traversals to end (R343). -/
  cleared : Option Nat := none
  /-- The structure is written; the block and the output record are to come (R231). -/
  res   : Option BRes := none
  deriving DecidableEq, Repr

/-- What an outstanding operation is. -/
inductive OpKind where
  /-- Values fixed at issue: V pipe, S pipe and L-pipe register results. -/
  | result
  /-- A load: size in bytes, sign extension, non-cached, and the lanes' bytes (R146). -/
  | load (n : Nat) (sx nc : Bool) (lanes : List LaneAcc)
  /-- A store that names a flag, or that is not yet performed whole: the lines it touches, and the bytes of the pieces still
  to be performed, by physical address (R142, R147). -/
  | store (nc : Bool) (lines : List Nat) (rest : List (Nat × Byte))
  /-- A load from the scratch window of which some pieces are still to be performed: size, sign extension, lanes with window
  offsets for addresses (R142). -/
  | wload (n : Nat) (sx : Bool) (lanes : List LaneAcc)
  /-- A store to the scratch window: the bytes of the pieces still to be performed, by window offset (R142). -/
  | wstore (rest : List (Nat × Byte))
  /-- Global atomics: opcode (10 CAS), operand bytes, scope, kind, lanes with their transaction when sent (R152). -/
  | atomic (op n : Nat) (sc kind : Nat) (lanes : List (Nat × Nat × List Byte)) (sent : FMap Nat) (back : FMap (List Byte))
  /-- TACQ of handle index `h` (R211). -/
  | tacq (h : Nat) (m : AcqMode)
  /-- TREL or TFLUSH of handle index `h` (R270). -/
  | trel (h : Nat) (release : Bool)
  /-- CACHE.FLUSH or CACHE.INV of lines (R158). -/
  | cacheOp (inv : Bool) (lv : CacheLevel) (lines : List Nat)
  /-- CACHE.PREF of lines that the die has yet to be granted (R158). -/
  | prefetch (lv : CacheLevel) (lines : List Nat)
  /-- CPY and CPYO (R202). -/
  | copy (c : CopyDesc)
  /-- CPYL: queue pair, remote offset, buffer handle, buffer offset, length, issue order, and whether a mailbox write has
  been sent (R208, R367). -/
  | link (qp ro h off len seq : Nat) (wr sent : Bool)
  /-- RTRACE or RANY (R224). -/
  | ray (any : Bool) (rays : List Ray)
  /-- RHIT: lane, header, generation, leaf reference (R230). -/
  | rhit (lanes : List (Nat × Nat × Nat × Nat))
  /-- RGENQ: lane, header, generation (R228). -/
  | rgenq (lanes : List (Nat × Nat × Nat))
  /-- RUNPIN, whose flag counts until the pin is released. -/
  | runpin
  /-- A builder request (R231). -/
  | build
  /-- A BKCFG switch in progress (R165). -/
  | bank
  /-- TMOVV into vector registers: written at its execution (R169). -/
  | tile
  deriving DecidableEq, Repr

/-- An outstanding operation of a group, in issue order. -/
structure Op where
  id    : Nat
  pipe  : Nat                    -- 0 V, 1 S, 2 L, 3 M
  slot  : PSlot
  kind  : OpKind
  flag  : Option Nat := Option.none
  cls   : Option EngClass := Option.none
  due   : Nat := 0               -- V pipe: the cycle at whose end it is written (R59)
  units : List Nat := []         -- register units reg * 32 + lane that it writes
  vals  : List (Nat × Word × Bool) := []   -- values and poison marks, where fixed at issue
  clash : List Nat := []         -- units that a later producer has already written, and that it still writes (R63)
  drop  : List Nat := []         -- units whose earlier producer's value stands (R63)
  done  : Bool := false          -- completed, counted only when older ones of its class are (R32)
  begun : List Begun := []       -- traversals of its lanes that have begun (R229)
  flt   : Option (Nat × Nat) := Option.none -- waits for a fault reply: page and cause (R303)
  failed : List Nat := []        -- pages that a fault reply failed (R303)
  status : Nat := 0              -- 1: TACQ, TREL or TFLUSH has been answered
  dst    : Nat := 0              -- first register written, where values come later
  /-- paths in whose path order it does not stand: 0 slot A, 1 slot B, 2 + i stack entry i from the bottom (R240) -/
  skips  : List Nat := []
  /-- operations outstanding at its issue that do not precede it in its path's order (R240) -/
  apart  : List Nat := []
  deriving DecidableEq, Repr

/-- An unexecuted matrix word (R169): the instruction, its lanes and the values read at issue. -/
structure MWord where
  i     : Instr
  unit  : Nat                    -- the unit it counts in (R170)
  lanes : Mask
  vals  : FMap Nat               -- lane → register value(s) read at issue
  base  : Nat                    -- base address or handle, leader lane
  aux   : Nat
  open? : Bool := true           -- issued since the previous MBATCH
  op    : Option Nat := Option.none
  pas   : List (List Nat) := []  -- physical addresses of each row's bytes, global space
  cfgs  : FMap Nat := []         -- tile configurations at issue (R169)
  /-- A TST has put its bytes into the L1, and the write-backs of its scope are to come (R177). -/
  stored : Bool := false
  /-- Execution has begun: pieces of a TLD that are read, and bytes of a TST whose pieces are still to be performed (R142, R176). -/
  begun  : Bool := false
  got    : FMap (Byte × Bool) := []
  rest   : List (Nat × Byte) := []
  deriving DecidableEq, Repr

/-- An accumulator entry: residues, non-finite mark, poison mark (R35, R173). -/
structure AccE where
  r0 : Nat := 0
  r1 : Nat := 0
  r2 : Nat := 0
  nf : Bool := false
  ps : Bool := false
  deriving DecidableEq, Repr

/-- The trap record (R218). -/
structure TrapRec where
  code   : Nat := 0
  word   : Nat := 0
  pslot  : PSlot := .a
  lane   : Option Nat := Option.none
  jd     : Nat := 0
  pc     : Nat := 0
  sc     : Nat := 0
  res    : Nat := 0
  pv     : Nat := 0
  pn     : Nat := 0
  addr   : Nat := 0
  detail : Nat := 0
  deriving DecidableEq, Repr

/-- Trace state of a group (R396). -/
structure GTrace where
  on   : Bool := false
  tid  : Nat := 0
  ns   : Nat := 0
  last : Nat := 0
  l    : Bool := false
  deriving DecidableEq, Repr

/-- A group (R3, R15 to R35). -/
structure Group where
  team  : Nat := 0
  idx   : Nat := 0
  quad  : Nat := 0
  regs  : FMap Word := []
  marks : NSet := []
  a     : Slot := {}
  b     : Slot := {}
  ops   : List Op := []
  nextOp : Nat := 0
  mq    : List MWord := []
  stack : List DEntry := []      -- top first
  sticky : Word := 0
  tcfg  : FMap Nat := []
  tiles : FMap Byte := []        -- t * 2048 + offset
  tmarks : NSet := []
  acc   : FMap AccE := []        -- a * 1024 + row * 32 + column
  accE  : FMap Int := []
  trap  : Option TrapRec := Option.none
  pins  : List (Nat × Nat) := []
  trace : GTrace := {}
  turn  : PSlot := .a            -- the slot that issued last (R21)
  retired : Bool := false
  deriving DecidableEq, Repr

/-! ### Teams, launches, contexts -/

/-- Buffer states (R196, R199). -/
inductive BufSt where | free | filling | full | draining
  deriving DecidableEq, Repr

/-- A buffer entry (R196). -/
structure Buf where
  alloc  : Bool := false
  off    : Nat := 0
  size   : Nat := 0
  st     : BufSt := .free
  status : Nat := 0
  serial : Nat := 1
  promise : Nat := 0
  /-- The copy that gave the status, by group and operation (R205). -/
  last   : Option (Nat × Nat) := Option.none
  deriving DecidableEq, Repr

/-- A scratch window with its barrier words at its start (R159, R311, R313). -/
structure Win where
  size : Nat := 0
  bars : Nat := 0
  data : FMap Byte := []
  /-- poisoned bytes (R145, R205) -/
  poison : NSet := []
  cluster : Nat := 0
  granules : List Nat := []      -- bank * 16 + granule of 4 KiB (R284)
  acq  : Nat := 1                -- scope code of barrier ordering (R161)
  deriving DecidableEq, Repr

/-- Why a team is pre-empted, or what a saved team waits for. -/
inductive SaveWhy where
  | sched | realtime | fault (ctx page : Nat) | checkpoint (n : Nat) | migrate | retire | ctxFault | power
  deriving DecidableEq, Repr

/-- A team (R3, R326 to R331). -/
structure Team where
  launch : Nat := 0
  index  : Nat := 0
  core   : Nat := 0
  win    : Nat := 0
  bufs   : FMap Buf := []
  saved  : Bool := false
  why    : SaveWhy := .sched
  ready  : Bool := false         -- saved and ready for restore
  preempt : Option SaveWhy := Option.none
  reqTick : Nat := 0             -- when pre-emption was requested (R329)
  /-- Its slice has run out, at `reqTick`, and the overrun is not yet paid (R329). -/
  slice  : Bool := false
  /-- Pages whose fault replies it waits for before it can be restored (R303, R330). -/
  flts   : List Nat := []
  /-- A fault reply failed one of its pages: it stays saved (R330). -/
  lost   : Bool := false
  residence : Nat := 0
  since  : Nat := 0              -- quadrant cycle at dispatch or restore
  sinceTick : Nat := 0
  hash   : Nat := 0
  first  : Nat := 0
  stamp  : Nat := 0              -- dispatch or save order
  disp   : Nat := 0              -- dispatch order (R323)
  allow  : Nat := 0              -- ticks of residence that its slice allows; 0 no slice (R329)
  /-- DRAIN was chosen: the team runs to its end (R327). -/
  draining : Bool := false
  /-- Its last group has retired, and its residence is charged (R325). -/
  gone   : Bool := false
  /-- Its resources are freed and it counts as ended (R317, R333). -/
  ended  : Bool := false
  /-- The die that it last ran on (R213). -/
  lastDie : Nat := 0
  deriving DecidableEq, Repr

/-- A level descriptor (R308). -/
structure Level where
  ext   : Nat := 1
  dom   : Nat := 0
  scope : Nat := 0
  shift : Nat := 0
  deriving DecidableEq, Repr

/-- A launch record (R308). -/
structure LRec where
  entry   : Nat := 0
  handler : Nat := 0
  dsbase  : Nat := 0
  cmbox   : Nat := 0
  cmen    : Bool := false
  regs    : Nat := 8
  tiles   : Nat := 0
  accs    : Nat := 0
  d       : Nat := 0
  scratch : Nat := 0
  bars    : Nat := 0
  argoff  : Nat := 0
  argen   : Bool := false
  scoreboard : Bool := false
  loose   : Bool := false
  idem    : Bool := false
  rt      : Bool := false
  lext    : Nat := 0
  est     : Nat := 0
  levels  : List Level := []
  deriving DecidableEq, Repr

/-- A launch in flight (R316, R317). -/
structure Launch where
  mb      : Nat := 0
  ctx     : Nat := 0
  qidx    : Nat := 0
  tmpl    : Nat := 0
  /-- memory as a fetch saw it when the launch started (R45); none for a launch placed from outside (log 1) -/
  code    : Option (List Host.Cell) := none
  lr      : LRec := {}
  raw     : List Byte := []
  msg     : List Byte := []
  arrival : Nat := 0
  next    : Nat := 0             -- next team index to dispatch
  redo    : List Nat := []       -- flushed teams, ahead of the undispatched ones (R328)
  ended   : Nat := 0
  status  : Nat := 0
  charged : Nat := 0
  order   : Nat := 0             -- start order within its mailbox
  place   : Option Nat := none   -- cluster freed for the first gang of a real-time launch (R324)
  hold    : List Nat := []       -- the cores so freed, which no other team may take (R324)
  units   : FMap Nat := []       -- unit bound to a cluster or core → the cluster of its first placement (R331)
  deriving DecidableEq, Repr

/-- A tile-handle entry (R210). State 0 IDLE, 1 PEND, 2 HELD_R, 3 HELD_W. -/
structure HEntry where
  box    : Box := {}
  st     : Nat := 0
  part   : Bool := false
  serial : Nat := 1
  alloc  : Bool := false
  pbox   : Box := {}             -- the box at its physical page (R211)
  home   : Nat := 0
  die    : Nat := 0              -- the holding die (R257)
  reacq  : Bool := false         -- to be acquired again before the next chain that names it (R213)
  deriving DecidableEq, Repr

/-- A queue-pair descriptor (R366). -/
structure QPair where
  st    : Nat := 0
  kind  : Nat := 0
  peer  : Nat := 0
  err   : Nat := 0
  cred  : Nat := 0
  rbase : Nat := 0
  wsize : Nat := 0
  deriving DecidableEq, Repr

/-- A redo-log entry: a line with its mask and data, or a marker (R365). -/
structure LogE where
  line : Nat := 0
  mask : Nat := 0
  data : FMap Byte := []
  marker : Option Nat := Option.none
  deriving DecidableEq, Repr

/-- A mirror binding (R364) with its redo log (R365) and frame numbers. -/
structure Mirror where
  en : Bool := false
  imgu : Nat := 0
  interval : Nat := 0
  slot0 : Nat := 0
  slot1 : Nat := 0
  commit : Nat := 0
  frames : Nat := 0
  log : Nat := 0
  logsz : Nat := 0
  entries : List LogE := []      -- oldest first; those beyond LOGSZ are writes that the full log stalls (R365)
  head : Nat := 0                -- the place in the ring of the oldest entry (R365)
  frameOf : FMap Nat := []       -- physical page → frame number
  lastNo : Nat := 0              -- last checkpoint started
  lastAt : Nat := 0              -- tick of the last commit
  committed : Nat := 0
  inProgress : Option Nat := Option.none
  imgDone : Bool := false
  imgAt : Nat := 0               -- when its image was made, as issue orders are numbered
  stood : FMap Nat := []         -- the frame numbers as at the last commit (R370)
  failing : Bool := false
  deriving DecidableEq, Repr

/-- A context (R318) and the context state that is not a team's. -/
structure Context where
  num   : Nat := 0
  ten   : Nat := 0
  floor : Nat := 0
  st    : Nat := 0
  fmbox : Nat := 0
  root  : Nat := 0
  save  : Nat := 0
  slice : Nat := 0
  drainmax : Nat := 0
  debt  : Nat := 0
  sys   : Bool := false
  tboff : Nat := 0
  handles : FMap HEntry := []
  qps   : FMap QPair := []
  mirror : Mirror := {}
  tidNext : Nat := 1
  origin : Nat := 4
  moving : Option Nat := Option.none   -- port half to which the context is being moved
  deriving DecidableEq, Repr

/-! ### Cores, clusters, dies -/

/-- A TLB entry (R291, R294, R295, R298). -/
structure TlbE where
  va   : Nat := 0
  size : Nat := 0
  pa   : Nat := 0
  home : Nat := 0
  ctx  : Nat := 0
  ten  : Nat := 0
  w    : Bool := false
  x    : Bool := false
  dset : Bool := false
  winR : Bool := false
  winW : Bool := false
  winX : Bool := false
  deriving DecidableEq, Repr

/-- A core: its TLB, its L1 and its repair state. -/
structure Core where
  tlb : List TlbE := []
  l1  : FMap CLine := []
  ce  : Nat := 0
  stopped : Bool := false        -- nothing further is dispatched (R383)
  absent : Bool := false         -- retired with no spare (R381)
  deriving DecidableEq, Repr

/-- A cluster SRAM bank (R284, R164). -/
structure Bank where
  mode  : BankMode := .cache
  owner : Option Nat := Option.none
  fifo  : List Word := []
  bad   : NSet := []             -- poisoned entries, counted from the oldest (R145, R288)
  deriving DecidableEq, Repr

/-- A trace descriptor (R394) and the bank's loss count (R403). -/
structure TraceD where
  /-- the trace hold of the cluster's trace bank, until its context ends (R284, R393) -/
  held : Bool := false
  en   : Bool := false
  bank : Nat := 0
  ctx  : Nat := 0
  ring : Nat := 0
  rsize : Nat := 0
  loss : Nat := 0
  flt  : Option (Nat × Nat) := Option.none
  deriving DecidableEq, Repr

/-- A cluster: its banks, its cluster cache, its TLB, its trace bank. -/
structure Cluster where
  banks : FMap Bank := []
  cc    : FMap CLine := []
  tlb   : List TlbE := []        -- shared by the cluster's cores (R294)
  trace : TraceD := {}
  deriving DecidableEq, Repr

/-- A Belvedere entry (R259). DST 0 UNHELD, 1 SHARED, 2 EXCLUSIVE, 3 OWNED. -/
structure DirE where
  dst   : Nat := 0
  pend  : Bool := false
  impl  : Bool := false
  hold  : NSet := []
  owner : Nat := 0
  gstamp : Nat := 0
  box   : Box := {}
  deriving DecidableEq, Repr

/-- Holder states (R258). -/
inductive HSt where | m | o | e | s | i
  deriving DecidableEq, Repr

/-- A holder record of a die: the entry's box and state, and whether it came of an implicit tile (R258, R271). -/
structure HRec where
  home : Nat
  box  : Box
  st   : HSt
  impl : Bool := false
  deriving DecidableEq, Repr

/-- A request as the home sees it (R262, R263). -/
structure Req where
  req   : Nat := 0
  txn   : Nat := 0
  stamp : Nat := 0
  impl  : Bool := false
  test  : Bool := false
  at_   : Bool := false
  wr    : Bool := false
  ctl   : Nat := 0
  ops   : List Byte := []
  box   : Box := {}
  deriving DecidableEq, Repr

/-- Why the home runs a transaction of its own, or for whom. -/
inductive TxWhy where | serve | evict | recall
  deriving DecidableEq, Repr

/-- A started transaction at the home: the answers owed, in sending order, and the ways reserved (R266). -/
structure Tx where
  q     : Req := {}
  why   : TxWhy := .serve
  freq  : Nat := 0                     -- REQ and TXN carried by the actions it sends
  ftxn  : Nat := 0
  owed  : List (Nat × Nat) := []       -- holder, entry key
  inter : List Nat := []               -- entry keys of the intersections
  sent  : Nat := 0                     -- lines sent
  nd    : Nat := 0
  way   : Nat := 0                     -- entry key reserved for the request's own entry
  outs  : List (Nat × Nat × Nat) := [] -- entry key, holder, state answered
  deriving DecidableEq, Repr

/-- For whom a die has sent a request. -/
inductive Purpose where
  | line
  /-- a home-performed access of an engine, a builder, the host or a mailbox (R272) -/
  | engine
  | handle (ctx h g op : Nat)
  /-- a handle acquired again on another die (R213) -/
  | reacq (ctx h : Nat)
  /-- a lane's atomic; the request's control word does not say whether it compares and swaps (R151, R263) -/
  | atom (g op lane : Nat) (cas : Bool)
  /-- TREL (release) or TFLUSH of a handle, or a release for a context that moves or ends (R213) -/
  | release (who : Option (Nat × Nat × Nat × Nat)) (release : Bool)
  deriving DecidableEq, Repr

/-- A request of a die that is not yet complete (R268, R275). -/
structure MyReq where
  r     : Req := {}
  home  : Nat := 0
  why   : Purpose := .line
  grant : Option (Nat × Nat) := Option.none  -- code, NDATA
  recv  : Nat := 0
  hdata : FMap Byte := []
  fdata : FMap Byte := []
  busyAt : Option Nat := Option.none   -- tick of a BUSY refusal
  va    : Nat := 0
  ctx   : Nat := 0
  deriving DecidableEq, Repr

/-- A compute die. -/
structure Die where
  level : Nat := 2
  l2    : FMap CLine := []
  dir   : FMap DirE := []              -- (slice * 128 + set) * 16 + way
  rsv   : NSet := []                   -- reserved ways (R266)
  recs  : List HRec := []
  queue : List Req := []
  txs   : List Tx := []
  mine  : List MyReq := []
  nextTxn : Nat := 0
  bq    : List BReq := []
  serving : FMap BReq := []
  cores : Nat := 32
  spc   : Nat := 2
  sps   : Nat := 1
  cecnt : Nat := 0
  sliceCe : FMap Nat := []
  tagErr : NSet := []                  -- slices with an uncorrectable tag or directory error, to be retired (R384)
  faulted : Bool := false
  /-- answers to atomics on poisoned sectors that are on their way: requester * 65536 + TXN (R145) -/
  taint : NSet := []
  power : Nat := 0
  deriving DecidableEq, Repr

/-! ### Messages between dies -/

/-- A tenure message: type, and the bytes of its body (R261 to R263). -/
structure Msg where
  type : Nat
  body : List Byte
  deriving DecidableEq, Repr

/-- A flit (R261): header fields and 56 body bytes. -/
structure Flit where
  src  : Nat
  dst  : Nat
  msgno : Nat
  fidx : Nat
  fcnt : Nat
  type : Nat
  body : List Byte
  deriving DecidableEq, Repr

/-- The channel of one (SRC, DST) pair: counters, the messages that the sender still keeps (R261), the flits gathered and the
messages complete but not delivered. -/
structure Chan where
  sendNo : Nat := 0
  recvNo : Nat := 0
  held   : List Msg := []
  part   : List Flit := []
  whole  : FMap Msg := []
  deriving DecidableEq, Repr

/-! ### Hub -/

/-- A mailbox entry (R315) with its deficit (R325). -/
structure MBox where
  en : Bool := false
  ten : Nat := 0
  rt : Bool := false
  stream : Nat := 0
  qdepth : Nat := 0
  conc : Nat := 0
  tmpl : Nat := 0
  qbase : Nat := 0
  ctx : Nat := 0
  quantum : Nat := 0
  head : Nat := 0
  count : Nat := 0
  drops : Nat := 0
  deficit : Int := 0
  started : Nat := 0             -- queued messages that have started a launch
  freed : List Nat := []         -- queue indexes whose launch has ended before older ones
  arrivals : FMap Nat := []      -- queue index → tick of arrival
  blocked : Option (Nat × Nat) := Option.none   -- template fault waited for (R314)
  ready  : FMap Launch := []     -- queue index → the launch of its message, whose template has been checked (R314)
  order : Nat := 0
  deriving DecidableEq, Repr

/-- Who posts a message (R316). -/
inductive Sender where
  | ctx (c : Nat) | fn (f : Nat) | companion (half : Nat)
  deriving DecidableEq, Repr

/-- To whom the outcome of a post is reported. -/
inductive Reply where
  | none | mbpost (g : Nat) (sl : PSlot) | copy (g h op : Nat) | pair (half write : Nat)
  deriving DecidableEq, Repr

/-- A message on its way to a mailbox. -/
structure Post where
  id  : Nat := 0
  mb  : Nat := 0
  msg : List Byte := []
  from_ : Sender := .fn 0
  reply : Reply := .none
  deriving DecidableEq, Repr

/-- A tenant window descriptor (R297). -/
structure Window where
  en : Bool := false
  wr : Bool := false
  ex : Bool := false
  first : Nat := 0
  last : Nat := 0
  deriving DecidableEq, Repr

/-- A host function's register page and request (R375, R376). -/
structure HostFn where
  tlbinv0 : Nat := 0
  busy   : Bool := false
  status : Nat := 0
  rej    : Nat := 0
  irq    : FMap Nat := []
  pending : Nat := 0             -- status of the request in progress
  deriving DecidableEq, Repr

/-- A queued TLBINV command (R299). -/
structure InvCmd where
  kind : Nat := 0
  ctx  : Nat := 0
  ten  : Nat := 0
  count : Nat := 0
  va   : Nat := 0
  deriving DecidableEq, Repr

/-- A decrement of PINS whose header's page has yet to be supplied: context, header, generation, and the group and operation of the
RUNPIN that made it (R227, R303). -/
structure Unpin where
  ctx : Nat := 0
  hdr : Nat := 0
  gen : Nat := 0
  op  : Option (Nat × Nat) := Option.none
  deriving DecidableEq, Repr

/-- An outstanding fault (R302): context, cause, page. -/
structure FaultO where
  ctx : Nat := 0
  cause : Nat := 0
  page : Nat := 0
  deriving DecidableEq, Repr

/-- A message that the Afmor has sent over a companion port, with the fields of its pair header (R355). -/
structure PairOut where
  ptype : Nat := 0
  ver : Nat := 0
  src : Nat := 0
  seq : Nat := 0
  ctx : Nat := 0
  qp : Nat := 0
  body : List Byte := []
  deriving DecidableEq, Repr

/-- A CPYL.WRITE of a companion to mailboxes of the Afmor, as its MBOX messages come: its number, its context and queue pair, the
messages so far, those that have yet to be judged, those dropped and refused, and whether its last has come (R367). -/
structure MsgWrite where
  no : Nat := 0
  ctx : Nat := 0
  qp : Nat := 0
  n : Nat := 0
  left : Nat := 0
  drops : Nat := 0
  refused : Nat := 0
  whole : Bool := false
  deriving DecidableEq, Repr

/-- One companion port half (R354) with its sequence counters, nonces and offers. -/
structure Half where
  st : Nat := 0
  ver : Nat := 0
  agent : Nat := 0
  refuse : Nat := 0
  drops : Nat := 0
  seqIn : Nat := 0
  seqOut : Nat := 0
  sentNonce : Nat := 0
  peerNonce : Nat := 0
  heard : Bool := false          -- a HELLO has come
  peerVers : Nat := 0
  ofs : Nat := 0
  offered : List Nat := []
  back : List Nat := []          -- contexts being moved back (R362)
  out : List PairOut := []
  /-- writes to mailboxes whose credits are yet to be returned, oldest first, and the next number (R367) -/
  writes : List MsgWrite := []
  wno : Nat := 0
  deriving DecidableEq, Repr

/-- What happens next: an instruction issues from a slot, a whole-device step happens, time passes, a cache evicts. -/
inductive Move where
  | issue (g : Nat) (sl : PSlot)
  | event (i : Instr)
  /-- the results of an operation are there, and its registers are written later (R63) -/
  | arrive (g op : Nat)
  | cycles (quad n : Nat)
  | ticks (n : Nat)
  | evictL1 (core line : Nat)
  | evictCluster (cluster line : Nat)
  | evictL2 (die line : Nat)
  /-- a companion port half starts to train: its cable is seated, or the Pavilion retrains it (R356) -/
  | train (half : Nat)
  /-- a core's TLB, or its cluster's, replaces its translation of a page (R294) -/
  | dropTlb (cluster : Bool) (unit page : Nat)
  /-- firmware raises the fused minimum security version (R387) -/
  | raiseSvn (v : Nat)
  deriving DecidableEq, Repr

/-- What a step wants before it can be made: the machine asks for it, and makes the step later. -/
inductive Want where
  /-- a line of a die's home resolved for a home-performed read or write (R272) -/
  | engine (line : Nat) (wr : Bool)
  /-- exclusive tenure of a line for a die that writes its cores' bytes back (R271) -/
  | write (die line : Nat)
  /-- every tenure of a page called in: by Recall (R277), or by BackInv where its slice is retired (R384) -/
  | recall (page : Nat) (back : Bool)
  /-- accesses that are still out performed (R298, R300) -/
  | quiet
  deriving DecidableEq, Repr

end Sys2Proof.Machine

namespace Sys2Proof.Machine

/-- The state of the machine. -/
structure State where
  /-- moves to come, and the slot that issues when there are none (log 4) -/
  agenda : List Move := []
  cur    : Option (Nat × PSlot) := none
  /-- the current slot could not issue: what is due comes first, then the next slot (log 4) -/
  idling : Bool := false
  /-- the control word of the packet being issued (log 10) -/
  word   : Nat := 0
  /-- the next fresh number for free values (log 7) -/
  fresh  : Nat := 0
  /-- a fault met inside the step (log 9) -/
  stuck  : Option Fault := none
  /-- package timebase in ticks (R36) -/
  tb     : Nat := 0
  /-- core cycles of each quadrant, core * 4 + quadrant (log 5) -/
  cyc    : FMap Nat := []
  /-- what the step being made wants first: the step is not made, and it is asked for (log 13) -/
  wants  : List Want := []
  /-- lines of companions that their homes have resolved for a home-performed access which is yet to be made: line * 2, plus 1
  for a write. Code 0 resolved, 2 refused as PERM; plus 1 once the step being made has used it (R272, R275, R279, log 13) -/
  served : FMap Nat := []
  /-- the line of a die whose request is being completed: the accesses that waited for it are performed now (R268) -/
  granted : Option (Nat × Nat) := none
  /-- physical memory (R281) -/
  mem    : List Host.Cell := []
  /-- poisoned 32-byte sectors, PA / 32 (R145, R288) -/
  poison : NSet := []
  groups : FMap Group := []
  teams  : FMap Team := []
  wins   : FMap Win := []
  launches : FMap Launch := []
  nextId : Nat := 1
  ctxs   : FMap Context := []
  cores  : FMap Core := []
  clusters : FMap Cluster := []
  dies   : FMap Die := []
  flits  : List Flit := []
  chans  : FMap Chan := []             -- src * 16 + dst
  flitReports : Nat := 0               -- flits discarded and reported to the Pavilion (R261)
  tlpReports : Nat := 0                -- TLPs dropped and reported to the Pavilion (R352)
  moves  : FMap Nat := []              -- home-move counts by page (R363)
  moveOrder : List Nat := []           -- counted pages, least recent first (R363)
  moveBy : FMap Nat := []              -- counted page → the agent whose request was counted last (R363)
  written : NSet := []                 -- the dies' pages that have been written at their homes (R364)
  movedPages : FMap Nat := []          -- vacated frame → frame that the page moved to (R275, R363)
  pools  : FMap (List Nat) := []       -- free home-move and retirement frames by home (R363, R385)
  frameOwner : FMap Nat := []          -- companion frame → owning context (R420)
  mboxes : FMap MBox := []
  posts  : List Post := []
  windows : FMap Window := []          -- tenant * 16 + index
  fns    : FMap HostFn := []           -- 0 PF0, i + 1 tenant i
  invq   : List InvCmd := []
  ovf    : Bool := false
  faults : List FaultO := []
  irqs   : List (Nat × Nat) := []      -- function, vector raised
  halves : FMap Half := []             -- port * 2 + half
  split  : NSet := []                  -- ports configured as two x4 halves; the others are one x8 port (R352)
  readback : Nat := 0                  -- the word that the latest read of HSTAT, RASSTAT or PAIRSTAT returned (R354, R375)
  phase  : Nat := 0
  fail   : Nat := 0
  threshold : Nat := 64
  events : Nat := 0                    -- scheduling events whose Round() is to come (R325)
  ceWindow : Nat := 0                  -- the window of corrected-error counts in force (R383)
  leaf   : Nat := 0
  svnRaised : Nat := 0                 -- the fused minimum security version, as far as firmware has raised it (R387)
  d3     : Bool := false
  /-- decrements of PINS whose header's page has yet to be supplied (R227, R303) -/
  unpins : List Unpin := []
  deriving DecidableEq, Repr

/-- The machine right after reset (R375, R392): bring-up has not begun, no context exists, memory lists nothing, and
every register holds its reset value, or the value that log 3 names. The sparse tables list only what differs from the
reset value of their entries, given with the fields above: CORES 32, SPC 2, SPS 1, banks in CACHE owned by the system. -/
def State.reset : State := {}

end Sys2Proof.Machine
end

