-- ==== Sys2Proof/Machine/Memory.lean ====
section
/-! DEFINITION. Physical memory, homes, boxes and their footprints, cache lines, and what a die or a core reads of a
byte (R148, R192, R256, R258 to R260, R271, R281 to R286). -/
namespace Sys2Proof.Machine

open Sys2Proof

/-! ### Physical memory -/

/-- The byte of physical memory at an address: 0 where none is listed (log 2). -/
def memGet (m : List Host.Cell) (pa : Nat) : Byte := mapGetD m pa 0

/-- Write one byte of physical memory, keeping the canonical form. -/
def memPut (m : List Host.Cell) (pa : Nat) (b : Byte) : List Host.Cell := mapPut m pa 0 b

/-- The canonical form of memory: addresses strictly rising, and no entry equal to what an unlisted address reads as. -/
def Memory.wf (m : List Host.Cell) : Bool := mapWf m && m.all fun c => c.2 != 0

/-- The home of a physical address (R281): 0 to 3 a die, 4 the hub, 5 the host, 8 to 15 a companion. -/
def homeOf (pa : Nat) : Option Nat :=
  if pa < 0x2000000000 then
    if pa % 0x800000000 < 0x600000000 then some (pa / 0x800000000) else none
  else if 0x30000000000 ≤ pa ∧ pa < 0x30100000000 then some 4
  else if 0x40000000000 ≤ pa ∧ pa < 0x60000000000 then some (8 + (pa - 0x40000000000) / 0x4000000000)
  else if 0x80000000000 ≤ pa ∧ pa < 0x100000000000 then some 5
  else none

/-- A companion holds the agent number: its port half is docked or undocking (R296, R353). -/
def companionDocked (s : State) (agent : Nat) : Bool :=
  s.halves.any fun h => h.2.agent == agent && (h.2.st == 4 || h.2.st == 5)

/-- The page of a byte is lost: its home is a companion that is not docked (R296, R369). -/
def lostByte (s : State) (pa : Nat) : Bool := match homeOf pa with
  | some h => decide (8 ≤ h) && !companionDocked s h
  | none => false

/-- Record that a unit named an address at which R281 places nothing. -/
def touch (s : State) (pa : Nat) : State :=
  if (homeOf pa).isNone && s.stuck.isNone then { s with stuck := some (.noSuchAddress pa) } else s

/-! ### Cache lines -/

def lineOf (pa : Nat) : Nat := pa / 128
def clGet (m : FMap CLine) (line : Nat) : CLine := mapGetD m line {}
def clPut (m : FMap CLine) (line : Nat) (c : CLine) : FMap CLine := mapPut m line {} c

/-- A byte of a line, if present. -/
def CLine.get? (c : CLine) (off : Nat) : Option Byte :=
  if bit c.present off then some (mapGetD c.data off 0) else none

/-- Set bit `i` of a bit mask. -/
def setBit (m i : Nat) : Nat := if bit m i then m else m + 2 ^ i

/-- Clear bit `i` of a bit mask. -/
def clearBit (m i : Nat) : Nat := if bit m i then m - 2 ^ i else m

/-- Place a byte in a line, dirty or clean. -/
def CLine.put (c : CLine) (off : Nat) (b : Byte) (dirty : Bool) : CLine :=
  { present := setBit c.present off, dirty := if dirty then setBit c.dirty off else c.dirty,
    data := mapPut c.data off 0 b }

/-- Fill a byte that is not present. -/
def CLine.fill (c : CLine) (off : Nat) (b : Byte) : CLine := if bit c.present off then c else c.put off b false

/-- Remove a byte from a line, dirty or not. -/
def CLine.drop (c : CLine) (off : Nat) : CLine :=
  { present := clearBit c.present off, dirty := clearBit c.dirty off, data := mapErase c.data off }

/-- The offsets of the dirty bytes of a line. -/
def CLine.dirtyOffs (c : CLine) : List Nat := if c.dirty = 0 then [] else (List.range 128).filter (bit c.dirty)

/-- Drop the clean bytes of a line (R157: invalidate clean lines). -/
def CLine.dropClean (c : CLine) : CLine :=
  { present := c.dirty, dirty := c.dirty, data := c.data.filter fun e => bit c.dirty e.1 }

/-- All bytes clean, kept. -/
def CLine.clean (c : CLine) : CLine := { c with dirty := 0 }

/-! ### Boxes -/

/-- Element width in bits of a tile format code (R34). -/
def fmtWidth (f : Nat) : Nat :=
  if f = 1 ∨ f = 3 then 4 else if f = 2 ∨ f = 4 ∨ f = 5 then 8 else if f = 6 ∨ f = 7 then 16 else 32

def nthI (l : List Int) (k : Nat) : Int := l.getD k 0
def nthN (l : List Nat) (k : Nat) : Nat := l.getD k 0

/-- The box of an implicit tile (R256). -/
def lineBox (line : Nat) : Box := { base := line * 128, ext := [128, 1, 1, 1] }

/-- The rows of a box: j1, j2, j3 with the row's first element at column o0 (R194). -/
def boxRowIdx (b : Box) : List (Nat × Nat × Nat) :=
  (List.range (nthN b.ext 3)).flatMap fun j3 => (List.range (nthN b.ext 2)).flatMap fun j2 =>
    (List.range (nthN b.ext 1)).map fun j1 => (j1, j2, j3)

/-- The byte range of the elements of columns [c, c + n) of a row (R193), as integers; BASE has 48 bits, and addresses are
taken modulo 2^48 (R259). -/
def rowSpan (b : Box) (c : Int) (n : Nat) (j : Nat × Nat × Nat) : Int × Int :=
  let w := fmtWidth b.fmt
  let r : Int := (b.base : Int) + (nthI b.org 1 + j.1) * nthN b.str 0 + (nthI b.org 2 + j.2.1) * nthN b.str 1 +
    (nthI b.org 3 + j.2.2) * nthN b.str 2
  let lo := (r + (c * w) / 8) % (2 ^ 48 : Nat)
  (lo, lo + ((c + n - 1) * w) / 8 - (c * w) / 8 + (if w < 8 then 1 else (w / 8 : Nat)))

/-- The byte ranges [lo, hi) of the rows of a box: its footprint (R256). -/
def boxSpans (b : Box) : List (Nat × Nat) :=
  (boxRowIdx b).map fun j => let r := rowSpan b (nthI b.org 0) (nthN b.ext 0) j; (r.1.toNat, r.2.toNat)

/-- A byte lies in the footprint of a box. -/
def boxHas (b : Box) (pa : Nat) : Bool := (boxSpans b).any fun r => decide (r.1 ≤ pa) && decide (pa < r.2)

/-- Two footprints meet. -/
def boxMeets (x y : Box) : Bool :=
  let ys := boxSpans y
  (boxSpans x).any fun r => ys.any fun q => decide (r.1 < q.2) && decide (q.1 < r.2)

/-- The footprint of `x` lies within that of `y`. -/
def boxWithin (x y : Box) : Bool :=
  (boxSpans x).all fun r => (List.range (r.2 - r.1)).all fun i => boxHas y (r.1 + i)

/-- The lines that a footprint touches, rising. -/
def boxLines (b : Box) : List Nat :=
  (boxSpans b).foldl (fun acc r =>
    if r.1 < r.2 then (List.range ((r.2 - 1) / 128 - r.1 / 128 + 1)).foldl (fun a i => setAdd a (r.1 / 128 + i)) acc
    else acc) []

/-! ### The directory -/

/-- The set of a page in its home's Belvedere, slice * 128 + set (R260). -/
def setKey (pa : Nat) : Nat :=
  bits pa 20 17 * 128 + ((bits pa 27 21 ^^^ bits pa 34 28) ^^^ (bits pa 41 35 ^^^ bits pa 43 42))

def getDie (s : State) (d : Nat) : Die := mapGetD s.dies d {}
def setDie (s : State) (d : Nat) (v : Die) : State := { s with dies := mapPut s.dies d {} v }
def modDie (s : State) (d : Nat) (f : Die → Die) : State := setDie s d (f (getDie s d))

/-- The entries in use of a set: way key and entry. -/
def dirSet (d : Die) (set : Nat) : List (Nat × DirE) :=
  if d.dir.isEmpty then []
  else (List.range 16).filterMap fun w => (mapGet? d.dir (set * 16 + w)).map fun e => (set * 16 + w, e)

/-- The entries of a home that cover a byte. -/
def dirCover (s : State) (home pa : Nat) : List (Nat × DirE) :=
  (dirSet (getDie s home) (setKey pa)).filter fun e => boxHas e.2.box pa

/-- The state in which a die holds a byte of another home (R258). -/
def hstOf (s : State) (die pa : Nat) : HSt :=
  let rs := (getDie s die).recs.filter fun r => r.st != .i && boxHas r.box pa
  if rs.any (·.st == .m) then .m else if rs.any (·.st == .e) then .e else if rs.any (·.st == .o) then .o
  else if rs.isEmpty then .i else .s

/-- A request that the home has started and not finished covers the byte: a write, or any where `any` (R274). -/
def underWay (d : Die) (pa : Nat) (any : Bool) : Bool := d.txs.any fun t => t.why == .serve && (any || t.q.wr) && boxHas t.q.box pa

/-- The byte's line is being granted to the die: an access that waited for it is performed (R268). -/
def granting (s : State) (die pa : Nat) : Bool := s.granted == some (die, pa / 128)

/-- A read of the byte by the die needs no message (R271): another home's byte is held; a byte of its own home has no
other holder in E, M or O and no transaction under way that collides with the read (R274). -/
def canRead (s : State) (die pa : Nat) : Bool :=
  match homeOf pa with
  | none => true
  | some h =>
    if h = 4 ∨ h = 5 ∨ granting s die pa = true then true
    else if h = die then
      ((dirCover s h pa).all fun e => !e.2.pend && (decide (e.2.dst < 2) || e.2.hold == [die])) && !underWay (getDie s h) pa false
    else hstOf s die pa != .i

/-- A write of the byte by the die needs no message (R271). -/
def canWrite (s : State) (die pa : Nat) : Bool :=
  match homeOf pa with
  | none => true
  | some h =>
    if h = 4 ∨ h = 5 then true
    else if h = die then
      ((dirCover s h pa).all fun e => !e.2.pend && e.2.hold.all (· == die)) && !underWay (getDie s h) pa true
    else match hstOf s die pa with
      | .m => true
      | .e => true
      | _ => false

/-! ### The home's copy -/

/-- The newest logged value of a byte of a companion frame that a mirror binding owns (R252, R365). -/
def loggedByte (s : State) (pa : Nat) : Option Byte :=
  match mapGet? s.frameOwner (pa / 131072) with
  | none => none
  | some c => match mapGet? s.ctxs c with
    | none => none
    | some x => x.mirror.entries.foldl (fun acc e =>
        if e.marker.isNone && e.line == pa / 128 && bit e.mask (pa % 128) then some (mapGetD e.data (pa % 128) 0)
        else acc) none

/-- The value of a byte at its home: the home die's L2, the redo log, or memory (R252, R286). -/
def homeByte (s : State) (pa : Nat) : Byte :=
  match homeOf pa with
  | some h =>
    if h < 4 then match (clGet (getDie s h).l2 (pa / 128)).get? (pa % 128) with
      | some b => b
      | none => memGet s.mem pa
    else if h = 4 then 0
    else if h = 5 then memGet s.mem pa
    else (loggedByte s pa).getD (memGet s.mem pa)
  | none => 0

/-- The 160 bytes of an entry of the redo log (R365). The bytes of the line that were not written are free (log 104). -/
def logBytes (e : LogE) : List Byte := match e.marker with
  | some n => leBytes 8 0 ++ leBytes 8 n ++ List.replicate 144 0
  | none => leBytes 8 (e.line * 128) ++ leBytes 16 e.mask ++
      ((List.range 128).map fun i => if bit e.mask i then mapGetD e.data i 0 else Config.logByte e.line i) ++ List.replicate 8 0

/-- The ring in companion memory takes the entry that stands at place i of a binding's log; behind LOGSZ entries it is stalled
(R365). -/
def ringPut (s : State) (m : Mirror) (i : Nat) : State := match m.entries[i]? with
  | none => s
  | some e => if m.logsz ≤ i then s else
      let at_ := m.log + 160 * ((m.head + i) % m.logsz)
      { s with mem := ((List.range 160).zip (logBytes e)).foldl (fun mm b => memPut mm (at_ + b.1) b.2) s.mem }

/-- A write or a marker goes into a binding's redo log (R365). -/
def logPut (s : State) (ctx : Nat) (e : LogE) : State := match mapGet? s.ctxs ctx with
  | none => s
  | some x =>
    let m := { x.mirror with entries := x.mirror.entries ++ [e] }
    ringPut { s with ctxs := mapSet s.ctxs ctx { x with mirror := m } } m x.mirror.entries.length

/-- A write to the line is stalled by a full redo log: it is not yet performed at its home (R365). -/
def stalledLine (s : State) (line : Nat) : Bool := match mapGet? s.frameOwner (line / 1024) with
  | none => false
  | some c => match mapGet? s.ctxs c with
    | none => false
    | some x => (x.mirror.entries.drop x.mirror.logsz).any fun e => e.marker.isNone && e.line == line

/-- Clear the poison of every sector that a set of written addresses covers whole. -/
def clearCovered (s : State) (pas : List Nat) : State :=
  if s.poison.isEmpty then s
  else { s with poison := s.poison.filter fun k => !((List.range 32).all fun i => pas.contains (k * 32 + i)) }

/-- Write bytes of external memory, past every cache and log. -/
def rawPut (s : State) (bs : List (Nat × Byte)) : State := { s with mem := bs.foldl (fun m e => memPut m e.1 e.2) s.mem }

/-- Place bytes of one line at its home: a die's L2, the redo log of the owning binding (R365), or memory. A write to a
lost page is not performed (R369). -/
def homeBytesLine (s : State) (line : Nat) (bs : List (Nat × Byte)) : State :=
  match homeOf (line * 128) with
  | none => touch s (line * 128)
  | some h =>
    if 8 ≤ h ∧ companionDocked s h = false then s
    else if h < 4 then
      let s := modDie s h fun d => { d with l2 := clPut d.l2 line (bs.foldl (fun c e => c.put e.1 e.2 true) (clGet d.l2 line)) }
      if bs.isEmpty then s else { s with written := setAdd s.written (line / 1024) }
    else if h = 4 then s
    else
      match mapGet? s.frameOwner (line / 1024) with
      | some c =>
        if decide (h = 5) || bs.isEmpty then { s with mem := bs.foldl (fun m e => memPut m (line * 128 + e.1) e.2) s.mem }
        else logPut s c { line := line, mask := bs.foldl (fun m e => setBit m e.1) 0, data := bs.foldl (fun d e => mapPut d e.1 0 e.2) [] }
      | none => { s with mem := bs.foldl (fun m e => memPut m (line * 128 + e.1) e.2) s.mem }

/-- Write bytes of one line at its home. A whole sector that so reaches its home is poisoned no more (R145, R288). -/
def homePutLine (s : State) (line : Nat) (bs : List (Nat × Byte)) : State :=
  clearCovered (homeBytesLine s line bs) (bs.map fun e => line * 128 + e.1)

/-- Group bytes with their physical addresses by line. -/
def byLine (bs : List (Nat × Byte)) : FMap (List (Nat × Byte)) :=
  bs.foldl (fun m e => mapSet m (e.1 / 128) (mapGetD m (e.1 / 128) [] ++ [(e.1 % 128, e.2)])) []

/-- Write bytes at their homes. -/
def homePut (s : State) (bs : List (Nat × Byte)) : State :=
  (byLine bs).foldl (fun s e => homePutLine s e.1 e.2) s

/-- Consecutive addresses with the bytes of a list. -/
def withAddrs (pa : Nat) : List Byte → List (Nat × Byte)
  | [] => []
  | b :: r => (pa, b) :: withAddrs (pa + 1) r

/-- The value that a home-performed read returns of a byte (R272): the dirty byte of a holder in M or O, else the
home's copy. -/
def engByte (s : State) (pa : Nat) : Byte :=
  match firstSome (fun d : Nat × Die =>
    let c := clGet d.2.l2 (pa / 128)
    if bit c.dirty (pa % 128) && homeOf pa != some d.1 then c.get? (pa % 128) else none) s.dies with
  | some b => b
  | none => homeByte s pa

/-- Bytes as a home-performed read returns them. -/
def engBytes (s : State) (pa n : Nat) : List Byte := (List.range n).map fun i => engByte s (pa + i)

def homeBytes (s : State) (pa n : Nat) : List Byte := (List.range n).map fun i => homeByte s (pa + i)

/-! ### The die's and the core's view -/

/-- The value that a die reads of a byte that it may read (R148, R271). -/
def dieByte (s : State) (die pa : Nat) : Byte :=
  match (clGet (getDie s die).l2 (pa / 128)).get? (pa % 128) with
  | some b => b
  | none => homeByte s pa

/-- Write bytes of a line in a die that may write them; a held line becomes M (R258, R271). -/
def diePutLine (s : State) (die line : Nat) (bs : List (Nat × Byte)) : State :=
  match homeOf (line * 128) with
  | none => touch s (line * 128)
  | some h =>
    let mark (d : Die) : List HRec := d.recs.map fun r =>
      if r.st == .e && bs.any (fun e => boxHas r.box (line * 128 + e.1)) then { r with st := .m } else r
    if h = 4 ∨ h = 5 then homePutLine s line bs
    else if h = die then
      let s := homePutLine s line bs
      if (getDie s die).recs.isEmpty then s else modDie s die fun d => { d with recs := mark d }
    else modDie s die fun d =>
      { d with l2 := clPut d.l2 line (bs.foldl (fun c e => c.put e.1 e.2 true) (clGet d.l2 line)), recs := mark d }

def getCore (s : State) (c : Nat) : Core := mapGetD s.cores c {}
def setCore (s : State) (c : Nat) (v : Core) : State := { s with cores := mapPut s.cores c {} v }
def modCore (s : State) (c : Nat) (f : Core → Core) : State := setCore s c (f (getCore s c))
def getCluster (s : State) (c : Nat) : Cluster := mapGetD s.clusters c {}
def setCluster (s : State) (c : Nat) (v : Cluster) : State := { s with clusters := mapPut s.clusters c {} v }
def modCluster (s : State) (c : Nat) (f : Cluster → Cluster) : State := setCluster s c (f (getCluster s c))

/-- The cluster and the die of a core number, cluster * 4 + core in cluster. -/
def clusterOf (core : Nat) : Nat := core / 4
def dieOfCore (core : Nat) : Nat := core / 32

def getBank (k : Cluster) (b : Nat) : Bank := mapGetD k.banks b {}
def setBank (k : Cluster) (b : Nat) (v : Bank) : Cluster := { k with banks := mapPut k.banks b {} v }

/-- The cluster has a cluster cache: some bank is in CACHE mode (R285). -/
def hasCC (k : Cluster) : Bool := (List.range 32).any fun b => (getBank k b).mode == .cache

/-- What a core's plain load reads of a byte: L1, cluster cache, then the die's L2; none where the die must first take
tenure (R148, R271). -/
def coreByte? (s : State) (core pa : Nat) : Option Byte :=
  match (clGet (getCore s core).l1 (pa / 128)).get? (pa % 128) with
  | some b => some b
  | none => match (clGet (getCluster s (clusterOf core)).cc (pa / 128)).get? (pa % 128) with
    | some b => some b
    | none => if canRead s (dieOfCore core) pa then some (dieByte s (dieOfCore core) pa) else none

/-- What LD.NC reads of a byte (R148). -/
def coreByteNc? (s : State) (core pa : Nat) : Option Byte :=
  if canRead s (dieOfCore core) pa then some (dieByte s (dieOfCore core) pa) else none

/-- Place a stored byte in a core's L1, dirty (R148). -/
def l1Put (s : State) (core pa : Nat) (b : Byte) : State :=
  modCore s core fun c => { c with l1 := clPut c.l1 (pa / 128) ((clGet c.l1 (pa / 128)).put (pa % 128) b true) }

def poisoned (s : State) (pa : Nat) : Bool := s.poison.contains (pa / 32)

/-- The bytes of a line that a fill may bring to a die's caches: readable, in no poisoned sector. -/
def fillOffs (s : State) (die line : Nat) : List Nat :=
  (List.range 128).filter fun i => canRead s die (line * 128 + i) && !poisoned s (line * 128 + i)

/-- Fill a line into the cluster cache (R148, R158): bytes that are not present. -/
def fillCC (s : State) (core line : Nat) : State :=
  let die := dieOfCore core
  let k := getCluster s (clusterOf core)
  if hasCC k && homeOf (line * 128) != some 4 then
    let cc := (fillOffs s die line).foldl (fun c i => c.fill i (dieByte s die (line * 128 + i))) (clGet k.cc line)
    modCluster s (clusterOf core) fun k => { k with cc := clPut k.cc line cc }
  else s

/-- Fill a line into the caches that a load passed (R148). -/
def fillLine (s : State) (core line : Nat) : State :=
  let die := dieOfCore core
  let s := fillCC s core line
  let cc := clGet (getCluster s (clusterOf core)).cc line
  modCore s core fun c => { c with l1 := clPut c.l1 line ((fillOffs s die line).foldl (fun x i =>
    x.fill i ((cc.get? i).getD (dieByte s die (line * 128 + i)))) (clGet c.l1 line)) }

/-! ### Poison (R145, R288) -/

/-- Every byte of the sector of an offset is dirty in a line. -/
def CLine.sectorDirty (c : CLine) (off : Nat) : Bool := c.dirty != 0 && (List.range 32).all fun i => bit c.dirty (off / 32 * 32 + i)

/-- A store of the core, or one that its die received under tenure, covers the whole sector and has not reached the home yet:
what the core reads of it is good data, whatever the home's sector holds (R145). -/
def ownSector (s : State) (core : Nat) (nc : Bool) (pa : Nat) : Bool :=
  (!nc && ((clGet (getCore s core).l1 (pa / 128)).sectorDirty (pa % 128) ||
    (clGet (getCluster s (clusterOf core)).cc (pa / 128)).sectorDirty (pa % 128))) ||
  (homeOf pa != some (dieOfCore core) && (clGet (getDie s (dieOfCore core)).l2 (pa / 128)).sectorDirty (pa % 128))

def setPoison (s : State) (pa : Nat) (b : Bool) : State := { s with poison := setPut s.poison (pa / 32) b }

/-- Poison-table entries in use of a die (R288, R375 PTUSE). -/
def ptUse (s : State) (die : Nat) : Nat := (s.poison.filter fun k => homeOf (k * 32) == some die).length

/-- A page lies in an enabled window of the tenant that `ok` accepts; a system context is checked against none (R298). -/
def inWindow (s : State) (x : Context) (pa : Nat) (ok : Window → Bool) : Bool :=
  x.sys || (List.range 16).any fun i =>
    let w := mapGetD s.windows (x.ten * 16 + i) {}
    w.en && ok w && decide (w.first ≤ pa / 131072) && decide (pa / 131072 ≤ w.last)

/-- A fresh number for a free value. -/
def bump (s : State) : State := { s with fresh := s.fresh + 1 }

end Sys2Proof.Machine
end

