-- ==== Sys2Proof/Machine/TenureMsg.lean ====
section
/-! DEFINITION. Tenure messages: bodies, flits, channels, and the sending and queueing of requests (R261 to R263, R270,
R271, R274, R275, R279). -/
namespace Sys2Proof.Machine

open Sys2Proof

/-! ### Bodies (R263) -/

def boxBytes (b : Box) : List Byte :=
  leBytes 8 b.base ++ (b.str.take 3).flatMap (leBytes 4) ++ (b.org.take 4).flatMap (fun o => leBytes 4 (wrapN o 32)) ++
    (b.ext.take 4).flatMap (leBytes 2) ++ [BitVec.ofNat 8 (b.fmt + 16 * b.ndim), 0, 0, 0]

def boxOfBytes (bs : List Byte) : Box :=
  { base := fieldAt bs 0 8, str := [fieldAt bs 8 4, fieldAt bs 12 4, fieldAt bs 16 4],
    org := [sext (fieldAt bs 20 4) 32, sext (fieldAt bs 24 4) 32, sext (fieldAt bs 28 4) 32, sext (fieldAt bs 32 4) 32],
    ext := [fieldAt bs 36 2, fieldAt bs 38 2, fieldAt bs 40 2, fieldAt bs 42 2],
    fmt := fieldAt bs 44 1 % 16, ndim := fieldAt bs 44 1 / 16 % 4 }

/-- The body of ReqRd, ReqWr, Fwd, Inv, Recall and BackInv. -/
def reqBody (q : Req) : List Byte :=
  leBytes 8 q.stamp ++ [BitVec.ofNat 8 q.req,
    BitVec.ofNat 8 (b2n q.impl + 2 * b2n q.test + 4 * b2n q.at_ + 8 * b2n q.wr)] ++ leBytes 2 q.txn ++
    leBytes 4 q.ctl ++ boxBytes q.box ++ sliceBytes q.ops 0 32 ++ List.replicate 16 0

def reqOfBody (bs : List Byte) : Req :=
  let fl := fieldAt bs 9 1
  { stamp := fieldAt bs 0 8, req := fieldAt bs 8 1 % 16, impl := bit fl 0, test := bit fl 1, at_ := bit fl 2,
    wr := bit fl 3, txn := fieldAt bs 10 2, ctl := fieldAt bs 12 4, box := boxOfBytes (sliceBytes bs 16 48),
    ops := sliceBytes bs 64 32 }

/-- The body of Grant, InvAck and Nack. -/
structure AckB where
  txn : Nat := 0
  req : Nat := 0
  code : Nat := 0
  ndata : Nat := 0
  atom : List Byte := []
  deriving DecidableEq, Repr

def ackBody (a : AckB) : List Byte :=
  leBytes 2 a.txn ++ [BitVec.ofNat 8 a.req, BitVec.ofNat 8 a.code] ++ leBytes 4 a.ndata ++ sliceBytes a.atom 0 16 ++
    List.replicate 32 0

def ackOfBody (bs : List Byte) : AckB :=
  { txn := fieldAt bs 0 2, req := fieldAt bs 2 1, code := fieldAt bs 3 1, ndata := fieldAt bs 4 4,
    atom := sliceBytes bs 8 16 }

/-- The body of Data and WbData. -/
structure DataB where
  line : Nat := 0        -- line address
  mask : Nat := 0
  txn : Nat := 0
  req : Nat := 0
  kind : Nat := 0
  data : List Byte := []
  deriving DecidableEq, Repr

def dataBody (d : DataB) : List Byte :=
  leBytes 8 d.line ++ leBytes 16 d.mask ++ leBytes 2 d.txn ++ [BitVec.ofNat 8 d.req, BitVec.ofNat 8 d.kind, 0, 0, 0, 0] ++
    sliceBytes d.data 0 128 ++ List.replicate 8 0

def dataOfBody (bs : List Byte) : DataB :=
  { line := fieldAt bs 0 8, mask := fieldAt bs 8 16, txn := fieldAt bs 24 2, req := fieldAt bs 26 1,
    kind := fieldAt bs 27 1, data := sliceBytes bs 32 128 }

/-- The bytes that a Data or WbData message carries, with their physical addresses. -/
def DataB.bytes (d : DataB) : List (Nat × Byte) :=
  ((List.range 128).filter (bit d.mask)).map fun i => (d.line + i, d.data.getD i 0)

/-! ### Sending (R261, R279, R355) -/

/-- Flits of a message type (R262). -/
def flitsOf (type : Nat) : Nat := if type = 2 ∨ type = 6 ∨ type = 10 then 1 else if type = 4 ∨ type = 8 then 3 else 2

def getChan (s : State) (src dst : Nat) : Chan := mapGetD s.chans (src * 16 + dst) {}
def setChan (s : State) (src dst : Nat) (c : Chan) : State := { s with chans := mapPut s.chans (src * 16 + dst) {} c }

def getHalf (s : State) (h : Nat) : Half := mapGetD s.halves h {}
def setHalf (s : State) (h : Nat) (v : Half) : State := { s with halves := mapPut s.halves h {} v }
def modHalf (s : State) (h : Nat) (f : Half → Half) : State := setHalf s h (f (getHalf s h))

/-- The port half whose docked companion holds an agent number. -/
def halfOfAgent (s : State) (agent : Nat) : Option Nat :=
  (s.halves.find? fun h => h.2.agent == agent && (h.2.st == 4 || h.2.st == 5)).map (·.1)

/-- Send a Pair Protocol message with the next SEQ of the direction; HELLO bears no version (R355). -/
def pairSend (s : State) (half ptype ctx qp : Nat) (body : List Byte) (src : Nat := 4) : State :=
  modHalf s half fun h => { h with
    seqOut := h.seqOut + 1,
    out := h.out ++ [{ ptype := ptype, ver := if ptype = 1 then 0 else h.ver, src := src, seq := h.seqOut, ctx := ctx, qp := qp,
                       body := body }] }

/-- The flits of a message (R261). -/
def flitList (src dst no : Nat) (m : Msg) : List Flit :=
  let n := flitsOf m.type
  (List.range n).map fun i =>
    { src := src, dst := dst, msgno := no, fidx := i, fcnt := n - 1, type := m.type, body := sliceBytes m.body (56 * i) 56 }

/-- Messages of a channel that are sent and not delivered. -/
def Chan.undelivered (c : Chan) : Nat := (c.sendNo + 65536 - c.recvNo) % 65536

/-- The flits of a message leave with the next MSGNO of the pair. -/
def putFlits (s : State) (src dst : Nat) (m : Msg) : State :=
  let c := getChan s src dst
  let s := setChan s src dst { c with sendNo := (c.sendNo + 1) % 65536 }
  { s with flits := s.flits ++ flitList src dst c.sendNo m }

/-- Send a message toward a die or the hub; beyond 32,768 undelivered ones the sender keeps it (R261). -/
def sendFlits (s : State) (src dst : Nat) (m : Msg) : State :=
  let c := getChan s src dst
  if 32768 ≤ c.undelivered ∨ c.held.isEmpty = false then setChan s src dst { c with held := c.held ++ [m] }
  else putFlits s src dst m

/-- The oldest message that a sender keeps leaves where there is now room for it (R261). -/
def pumpChan (s : State) (src dst : Nat) : State :=
  let c := getChan s src dst
  match c.held with
  | [] => s
  | m :: r => if 32768 ≤ c.undelivered then s else putFlits (setChan s src dst { c with held := r }) src dst m

/-- Send a tenure message: flits toward a die, one Pair Protocol message toward a companion. -/
def sendMsg (s : State) (src dst type : Nat) (body : List Byte) : State :=
  if 8 ≤ dst then match halfOfAgent s dst with
    | some h => pairSend s h 0x10 0 0 (BitVec.ofNat 8 type :: body) src
    | none => s
  else sendFlits s src dst { type := type, body := body }

def sendAck (s : State) (src dst type : Nat) (a : AckB) : State := sendMsg s src dst type (ackBody a)
def sendData (s : State) (src dst type : Nat) (d : DataB) : State := sendMsg s src dst type (dataBody d)

/-- Send WbData with a line's bytes to their home. A companion's home takes them as they are sent: into the redo log of the
owning binding or its memory, as `homePutLine` places them (R252, R279). -/
def sendBack (s : State) (die home : Nat) (d : DataB) : State :=
  let s := if 8 ≤ home then homePut s d.bytes else s
  sendData s die home 8 d

/-! ### Requests (R268, R271, R274, R275, R363) -/

/-- The page of a request: PA[43:17]. -/
def Req.page (q : Req) : Nat := match boxSpans q.box with
  | r :: _ => r.1 / 131072
  | [] => q.box.base / 131072

def Req.set (q : Req) : Nat := setKey (q.page * 131072)

/-- The count of a page's requests restarts (R363). -/
def dropCount (s : State) (page : Nat) : State :=
  { s with moves := mapErase s.moves page, moveOrder := s.moveOrder.filter (· != page), moveBy := mapErase s.moveBy page }

/-- Count a tenure request for the page's home move (R363): consecutive requests from across the pair link. -/
def countMove (s : State) (home : Nat) (q : Req) : State :=
  if q.at_ then s
  else
    let cross := decide (8 ≤ q.req) != decide (8 ≤ home)
    if cross then
      let full := decide (4096 ≤ s.moves.length) && (mapGet? s.moves q.page).isNone
      let s := if full then dropCount s (s.moveOrder.headD 0) else s
      { s with moves := mapSet s.moves q.page (mapGetD s.moves q.page 0 + 1), moveOrder := (s.moveOrder.filter (· != q.page)) ++ [q.page]
               moveBy := mapSet s.moveBy q.page q.req }
    else dropCount s q.page

/-- A companion's request for a page outside the windows of the contexts that it has a part in: those that came from it and
those with a queue pair to it (R275, R298). A request names no context, so one that lies in a window of any of them passes, and
so does every request of a companion with no such context (DESIGN CHOICE, log 92). -/
def outside (s : State) (q : Req) : Bool :=
  let xs := s.ctxs.filter fun x => x.2.st != 0 && (x.2.origin == q.req || x.2.qps.any fun p => p.2.peer == q.req && p.2.st != 0)
  decide (8 ≤ q.req) && !xs.isEmpty && xs.all fun x => !inWindow s x.2 (q.page * 131072) fun w => !q.wr || w.wr

/-- A slice whose corrected errors exceed the threshold: it is being retired (R384). -/
def sliceDue (s : State) (die slice : Nat) : Bool :=
  decide (s.threshold < mapGetD (getDie s die).sliceCe slice 0) || (getDie s die).tagErr.contains slice

/-- A request arrives at its home: refused as MOVED, PERM or BUSY, the last also while its slice is retired (R384), or queued
until its set starts work (R274, R275). The home's own requests take the same queue, with no message. -/
def arriveReq (s : State) (home : Nat) (q : Req) : State :=
  if q.req ≠ home ∧ (mapGet? s.movedPages q.page).isSome = true then
    sendAck s home q.req 10 { txn := q.txn, req := q.req, code := 1 }
  else if outside s q then sendAck s home q.req 10 { txn := q.txn, req := q.req, code := 3 }
  else
    let s := countMove s home q
    let slice := q.set / 128
    if q.req ≠ home ∧ (64 ≤ ((getDie s home).queue.filter fun r => r.set / 128 == slice).length ∨ sliceDue s home slice = true) then
      sendAck s home q.req 10 { txn := q.txn, req := q.req, code := 2 }
    else modDie s home fun d => { d with queue := d.queue ++ [q] }

/-- A request with its box on the frame that its page has moved to (R275, R363). -/
def Req.toFrame (q : Req) (frame : Nat) : Req :=
  { q with box := { q.box with base := wrapN ((q.box.base : Int) + ((frame : Int) - q.page) * 131072) 48 } }

/-- The operation that a home-performed atomic asks for, 10 for a compare and swap. The control word of R151 has OP 0 for CAS and
CAS128 as for ADD, and R263 gives no other field: a die's own request is known by its purpose; a companion's is one where it has
16 bytes or where a new value follows the expected one (DESIGN CHOICE, log 105). -/
def Req.atomOp (s : State) (q : Req) : Nat :=
  let n := nthN q.box.ext 0
  let cas := if q.req < 4 then (getDie s q.req).mine.any fun m => m.r.txn == q.txn && (match m.why with
      | .atom _ _ _ c => c
      | _ => false)
    else decide (q.ctl % 16 = 0) && (n == 16 || (sliceBytes q.ops n n).any (· != 0))
  if cas then 10 else q.ctl % 16

/-- A die sends a request to a home, with a fresh transaction number and the present timebase as its STAMP. A home that asks
for a page which has left it asks the new home at once (R275). -/
def sendReq (s : State) (die home : Nat) (q : Req) (why : Purpose) : State × Nat :=
  let d := getDie s die
  let moved := if home = die then mapGet? s.movedPages q.page else none
  let q := (moved.map q.toFrame).getD q
  let home := (moved.bind fun f => homeOf (f * 131072)).getD home
  let q := { q with req := die, txn := d.nextTxn, stamp := s.tb }
  let s := setDie s die { d with nextTxn := (d.nextTxn + 1) % 65536, mine := d.mine ++ [{ r := q, home := home, why := why }] }
  let s := if 8 ≤ home then countMove s home q else s
  (if home = die then arriveReq s home q else sendMsg s die home (if q.wr then 1 else 0) (reqBody q), q.txn)

/-- Ask for the implicit tile of a line, unless the die has asked already (R271). -/
def askLine (s : State) (die line : Nat) (wr : Bool) : State :=
  match homeOf (line * 128) with
  | none => touch s (line * 128)
  | some h =>
    if h = 4 ∨ h = 5 then s
    else if (getDie s die).mine.any fun m => m.why == .line && m.r.box.base == line * 128 && (m.r.wr || !wr) then s
    else (sendReq s die h { impl := true, wr := wr, box := lineBox line } .line).1

/-! ### Write-backs between the cache levels (R148, R157, R283, R286) -/

/-- A release or flush of the die that covers a byte of the line awaits its acknowledgement (R270). -/
def releasing (d : Die) (line : Nat) : Bool := d.mine.any fun m => match m.why with
  | .release _ _ => boxMeets m.r.box (lineBox line)
  | _ => false

/-- Write bytes of a line at a die: at once where it may write them, else ask for exclusive tenure first. The flag says
whether the write is done with: written, or dropped on a lost page (R369). Nothing is written in place behind a release or flush that is not yet acknowledged. -/
def dieWriteLine (s : State) (die line : Nat) (bs : List (Nat × Byte)) : State × Bool :=
  if bs.isEmpty || lostByte s (line * 128) then (s, true)
  else if releasing (getDie s die) line then (s, false)
  else if bs.all fun e => canWrite s die (line * 128 + e.1) then (diePutLine s die line bs, true)
  else (askLine s die line true, false)

/-- Write back the dirty bytes of a line of a core's L1, to the cluster cache where it holds the line, else to the L2. -/
def wbL1 (s : State) (core line : Nat) : State × Bool :=
  let c := clGet (getCore s core).l1 line
  let offs := c.dirtyOffs
  if offs.isEmpty then (s, true)
  else
    let bs := offs.map fun i => (i, mapGetD c.data i 0)
    let clean (s : State) := modCore s core fun k => { k with l1 := clPut k.l1 line c.clean }
    let k := getCluster s (clusterOf core)
    let cc := clGet k.cc line
    if cc.present = 0 then
      let r := dieWriteLine s (dieOfCore core) line bs
      if r.2 then (clean r.1, true) else r
    else (clean (modCluster s (clusterOf core) fun k =>
      { k with cc := clPut k.cc line (bs.foldl (fun x e => x.put e.1 e.2 true) cc) }), true)

/-- Write back the dirty bytes of a line of a cluster cache to the die's L2. -/
def wbCC (s : State) (cluster line : Nat) : State × Bool :=
  let c := clGet (getCluster s cluster).cc line
  let offs := c.dirtyOffs
  if offs.isEmpty then (s, true)
  else
    let r := dieWriteLine s (cluster / 8) line (offs.map fun i => (i, mapGetD c.data i 0))
    if r.2 then (modCluster r.1 cluster fun k => { k with cc := clPut k.cc line c.clean }, true) else r

/-- Apply a write-back to each line; the flag says whether all are done. -/
def wbAll (f : State → Nat → State × Bool) (lines : List Nat) (s : State) : State × Bool :=
  lines.foldl (fun r l => let q := f r.1 l; (q.1, r.2 && q.2)) (s, true)

/-- Write back every dirty byte of a core's L1. -/
def wbL1All (s : State) (core : Nat) : State × Bool :=
  wbAll (fun s l => wbL1 s core l) ((getCore s core).l1.map (·.1)) s

/-- Write back every dirty byte of a cluster cache. -/
def wbCCAll (s : State) (cluster : Nat) : State × Bool :=
  wbAll (fun s l => wbCC s cluster l) ((getCluster s cluster).cc.map (·.1)) s

/-- The write-backs of a release at a scope (R157); the flag says whether they are done. -/
def releaseCaches (s : State) (core : Nat) (sc : Scope) : State × Bool :=
  if sc.code < 3 then (s, true)
  else
    let r := wbL1All s core
    if sc.code < 4 then r
    else let q := wbCCAll r.1 (clusterOf core); (q.1, r.2 && q.2)

end Sys2Proof.Machine
end

