-- ==== Sys2Proof/Machine/Tenure.lean ====
section
/-! DEFINITION. Tenure: splits, conflicts, the home's transactions, the holders' answers, the requesters' completions
(R264 to R278). -/
namespace Sys2Proof.Machine

open Sys2Proof

/-! ### Splits (R265) -/

/-- The columns of a row, starting at byte `rb`, whose elements have a byte in [lo, hi). -/
def colRange (w : Nat) (rb lo hi : Int) : Int × Int :=
  if w < 8 then (2 * (lo - rb), 2 * (hi - rb))
  else ((lo - rb) / (w / 8 : Nat), (hi - rb + (w / 8 : Nat) - 1) / (w / 8 : Nat))

/-- Bounds per dimension of the elements of `h` that have a byte in the footprint of `f`: lower, upper exclusive. -/
def interBounds (h f : Box) : Option (List (Int × Int)) :=
  let fs := boxSpans f
  let o0 := nthI h.org 0
  let e0 : Int := (nthN h.ext 0 : Nat)
  let hits := (boxRowIdx h).flatMap fun j => fs.filterMap fun r =>
    let rb := (rowSpan h o0 1 j).1 - o0 * fmtWidth h.fmt / 8
    let c := colRange (fmtWidth h.fmt) rb r.1 r.2
    let lo := if c.1 < o0 then o0 else c.1
    let hi := if o0 + e0 < c.2 then o0 + e0 else c.2
    if lo < hi then some [(lo, hi), (nthI h.org 1 + j.1, nthI h.org 1 + j.1 + 1),
      (nthI h.org 2 + j.2.1, nthI h.org 2 + j.2.1 + 1), (nthI h.org 3 + j.2.2, nthI h.org 3 + j.2.2 + 1)] else none
  match hits with
  | [] => none
  | x :: r => some (r.foldl (fun a b => (a.zip b).map fun p =>
      (if p.2.1 < p.1.1 then p.2.1 else p.1.1, if p.1.2 < p.2.2 then p.2.2 else p.1.2)) x)

/-- A box of the geometry of `h` with the given bounds. -/
def boxAt (h : Box) (bs : List (Int × Int)) : Box :=
  { h with org := bs.map (·.1), ext := bs.map fun b => (b.2 - b.1).toNat }

/-- The smallest sub-box of `h` that contains every element with a byte in the footprint of `f` (R265). -/
def interBox (h f : Box) : Option Box := (interBounds h f).map (boxAt h)

def bounds (b : Box) : List (Int × Int) :=
  (List.range 4).map fun k => (nthI b.org k, nthI b.org k + (nthN b.ext k : Nat))

/-- The residual boxes of `h` around its sub-box `i`, in order of dimension and part (R265). -/
def residuals (h i : Box) : List Box :=
  let hb := bounds h
  let ib := bounds i
  (List.range (h.ndim + 1)).flatMap fun k =>
    let hk := hb.getD k (0, 1)
    let ik := ib.getD k (0, 1)
    [(hk.1, ik.1), (ik.2, hk.2)].filterMap fun part =>
      if part.1 < part.2 then some (boxAt h ((List.range 4).map fun j =>
        if j = k then part else if j < k then ib.getD j (0, 1) else hb.getD j (0, 1))) else none

/-! ### Holders (R258, R264, R269) -/

/-- Set PART on the handles of a holding die whose tenure was cut (R265, R211). -/
def setPart (s : State) (die : Nat) (i : Box) : State :=
  { s with ctxs := s.ctxs.map fun c => (c.1, { c.2 with handles := c.2.handles.map fun h =>
      (h.1, if h.2.alloc && (h.2.st == 2 || h.2.st == 3) && h.2.die == die && boxMeets h.2.pbox i
        then { h.2 with part := true } else h.2) }) }

/-- Cut the holder records of a die around an intersection; `f` gives the new state of the part inside. -/
def cutRecs (recs : List HRec) (i : Box) (f : HSt → HSt) : List HRec :=
  recs.flatMap fun r => match interBox r.box i with
    | none => [r]
    | some x => (residuals r.box x).map (fun b => { r with box := b }) ++
        (if f r.st == .i then [] else [{ r with box := x, st := f r.st }])

/-- The dirty bytes of an intersection in a die's L2, by line address with their mask. -/
def dirtyOf (s : State) (die : Nat) (i : Box) : List DataB :=
  (boxLines i).filterMap fun line =>
    let c := clGet (getDie s die).l2 line
    let offs := c.dirtyOffs.filter fun o => boxHas i (line * 128 + o)
    if offs.isEmpty then none
    else some { line := line * 128, mask := offs.foldl setBit 0,
                data := (List.range 128).map fun o => if offs.contains o then mapGetD c.data o 0 else 0 }

/-- Drop the bytes of an intersection from a die's L2. -/
def dropBytes (s : State) (die : Nat) (i : Box) : State :=
  modDie s die fun d => { d with l2 := (boxLines i).foldl (fun l2 line =>
    let c := clGet l2 line
    clPut l2 line (((List.range 128).filter fun o => boxHas i (line * 128 + o)).foldl CLine.drop c)) d.l2 }

/-- Mark the bytes of an intersection clean in a die's L2. -/
def cleanBytes (s : State) (die : Nat) (i : Box) : State :=
  modDie s die fun d => { d with l2 := (boxLines i).foldl (fun l2 line =>
    let c := clGet l2 line
    clPut l2 line { c with dirty := (c.dirtyOffs.filter fun o => boxHas i (line * 128 + o)).foldl clearBit c.dirty }) d.l2 }

/-- The states of the records of a die that cover some byte of an intersection. -/
def heldStates (s : State) (die : Nat) (i : Box) : List HSt :=
  ((getDie s die).recs.filter fun r => boxMeets r.box i).map (·.st)

/-- The state after a Fwd (read) (R264). -/
def afterFwdRead : HSt → HSt
  | .m => .o
  | .e => .s
  | x => x

/-- The dirty bytes of a line in an L1 or a cluster cache that lie in an intersection and that its die holds in M or E. -/
def storedOffs (recs : List HRec) (i : Box) (line : Nat) (c : CLine) : List Nat := c.dirtyOffs.filter fun o =>
  boxHas i (line * 128 + o) && recs.any fun r => (r.st == .m || r.st == .e) && boxHas r.box (line * 128 + o)

/-- The lines of a cache that hold dirty bytes of an intersection. -/
def storedLines (m : FMap CLine) (i : Box) : FMap CLine := m.filter fun e => e.2.dirty != 0 && boxMeets i (lineBox e.1)

/-- Bytes that were dirty in a line are clean. -/
def CLine.cleaned (c : CLine) (offs : List Nat) : CLine := { c with dirty := offs.foldl clearBit c.dirty }

/-- Dirty bytes of an intersection go from a cluster cache to the die's L2. -/
def sweepCC (i : Box) (s : State) (cluster : Nat) : State :=
  (storedLines (getCluster s cluster).cc i).foldl (fun s e =>
    let offs := storedOffs (getDie s (cluster / 8)).recs i e.1 e.2
    if offs.isEmpty then s
    else modCluster (diePutLine s (cluster / 8) e.1 (offs.map fun o => (o, mapGetD e.2.data o 0))) cluster fun k =>
      { k with cc := clPut k.cc e.1 (e.2.cleaned offs) }) s

/-- Dirty bytes of an intersection go from an L1 to the die's L2, and to the cluster cache's copies of them. -/
def sweepL1 (i : Box) (s : State) (core : Nat) : State :=
  (storedLines (getCore s core).l1 i).foldl (fun s e =>
    let offs := storedOffs (getDie s (dieOfCore core)).recs i e.1 e.2
    if offs.isEmpty then s
    else
      let s := diePutLine s (dieOfCore core) e.1 (offs.map fun o => (o, mapGetD e.2.data o 0))
      let s := modCluster s (clusterOf core) fun k =>
        { k with cc := clPut k.cc e.1 (offs.foldl (fun c o => if bit c.present o then c.put o (mapGetD e.2.data o 0) false else c)
            (clGet k.cc e.1)) }
      modCore s core fun c => { c with l1 := clPut c.l1 e.1 (e.2.cleaned offs) }) s

/-- Store bytes by a core that may write them: into its L1, or past it, to the die's L2 and the copies of them (R148). -/
def coreStore (core : Nat) (nc : Bool) (bs : List (Nat × Byte)) (s : State) : State :=
  if !nc then bs.foldl (fun s b => l1Put s core b.1 b.2) s
  else bs.foldl (fun s b =>
    let upd (m : FMap CLine) : FMap CLine :=
      let c := clGet m (b.1 / 128)
      if bit c.present (b.1 % 128) then clPut m (b.1 / 128) { c.put (b.1 % 128) b.2 false with dirty := clearBit c.dirty (b.1 % 128) } else m
    let s := diePutLine s (dieOfCore core) (b.1 / 128) [(b.1 % 128, b.2)]
    let s := modCluster s (clusterOf core) fun k => { k with cc := upd k.cc }
    modCore s core fun c => { c with l1 := upd c.l1 }) s

/-- A TST to global memory of a tile without a poison mark. -/
def tstPlain (g : Group) (w : MWord) : Bool := match w.i with
  | .tst p _ .global _ _ => !g.tmarks.contains p
  | _ => false

/-- The stores of a group to bytes that `take` accepts whose pieces are still to be performed are performed, and so are those of a
TST under way (R142). -/
def sweepStores (take : Nat → Bool) (s : State) (gid : Nat) : State := match mapGet? s.groups gid with
  | none => s
  | some g =>
    let core := ((mapGet? s.teams g.team).map (·.core)).getD 0
    let part (bs : List (Nat × Byte)) : List (Nat × Byte) := bs.filter fun b => take b.1
    let left (bs : List (Nat × Byte)) : List (Nat × Byte) := bs.filter fun b => !take b.1
    let s := g.ops.foldl (fun s o => match o.kind with
      | .store nc _ rest => coreStore core nc (part rest) s
      | _ => s) s
    let s := g.mq.foldl (fun s w => if tstPlain g w then coreStore core false (part w.rest) s else s) s
    { s with groups := mapMod s.groups gid fun g => { g with
        ops := g.ops.map fun o => match o.kind with
          | .store nc ls rest => { o with kind := .store nc ls (left rest) }
          | _ => o
        mq := g.mq.map fun w => if tstPlain g w && !w.rest.isEmpty then { w with rest := left w.rest, stored := (left w.rest).isEmpty }
          else w } }

/-- The groups of a die that have pieces of stores to come. -/
def storing (s : State) (die : Nat) : List Nat := (s.groups.filter fun g =>
  dieOfCore (((mapGet? s.teams g.2.team).map (·.core)).getD 0) == die &&
    (g.2.ops.any (fun o => match o.kind with
      | .store _ _ rest => !rest.isEmpty
      | _ => false) || g.2.mq.any fun w => !w.rest.isEmpty)).map (·.1)

/-- The stores that a die's cores have issued to an intersection which it holds in M or E reach its L2: they come before the
answer to the message that takes it (R251). -/
def sweepBox (s : State) (die : Nat) (i : Box) : State :=
  let recs := (getDie s die).recs
  let s := (storing s die).foldl (sweepStores fun pa =>
    boxHas i pa && recs.any fun r => (r.st == .m || r.st == .e) && boxHas r.box pa) s
  let s := ((s.clusters.map (·.1)).filter fun k => k / 8 == die).foldl (sweepCC i) s
  ((s.cores.map (·.1)).filter fun c => dieOfCore c == die).foldl (sweepL1 i) s

/-- Drop the bytes of an intersection from a die's L2, but for those that a record of the die still covers. -/
def dropUnheld (s : State) (die : Nat) (i : Box) : State :=
  modDie s die fun d => { d with l2 := (boxLines i).foldl (fun l2 line =>
    let c := clGet l2 line
    clPut l2 line (((List.range 128).filter fun o =>
      boxHas i (line * 128 + o) && !(d.recs.any fun r => boxHas r.box (line * 128 + o))).foldl CLine.drop c)) d.l2 }

/-- Some record of a die that shares part of an intersection. -/
def sharesPart (s : State) (die : Nat) (i : Box) : Bool := (getDie s die).recs.any fun r => r.st == .s && boxMeets r.box i

/-- What a holder does on Inv for an intersection: the records that it shares there are cut. What it holds of the same bytes under
another entry stays (R258, R264). The flag says that it held nothing. -/
def invAct (s : State) (die : Nat) (i : Box) : Bool × State :=
  if !sharesPart s die i then (true, s)
  else
    let s := modDie (if (heldStates s die i).any (· != .s) then s else setPart s die i) die fun d =>
      { d with recs := d.recs.flatMap fun r => if r.st == .s then cutRecs [r] i (fun _ => .i) else [r] }
    (false, if homeOf ((boxLines i).headD 0 * 128) == some die then s else dropUnheld s die i)

/-- What a holder does on Fwd, Inv, Recall or BackInv for an intersection (R251, R264, R269): the dirty bytes it sends, its
state after (0 I, 1 S, 2 O), whether it held nothing, and the machine after. The home die's own bytes are the home's copy: it
sends none and keeps them (R257). -/
def holderAct (s : State) (die : Nat) (i : Box) (read : Bool) : List DataB × Nat × Bool × State :=
  if (heldStates s die i).isEmpty then ([], 0, true, s)
  else
    let s := sweepBox s die i
    let st := heldStates s die i
    let own := homeOf ((boxLines i).headD 0 * 128) == some die
    let ds := if own then [] else dirtyOf s die i
    let s := setPart s die i
    if read then
      let code := if st.any fun x => x == .m || x == .o then 2 else 1
      (ds, code, false, modDie s die fun d => { d with recs := cutRecs d.recs i afterFwdRead })
    else (ds, 0, false, modDie (if own then s else dropBytes s die i) die fun d => { d with recs := cutRecs d.recs i fun _ => .i })

/-! ### The home (R264, R266) -/

/-- The agents that a request must act on at an entry, other than the requester, each with Fwd (true) or Inv (false). -/
def conflictActs (e : DirE) (req : Nat) (wr : Bool) : List (Nat × Bool) :=
  if e.dst = 1 then (if wr then (e.hold.filter (· != req)).map fun h => (h, false) else [])
  else if e.dst = 2 ∨ e.dst = 3 then
    (if e.owner = req then [] else [(e.owner, true)]) ++
    (if wr then (e.hold.filter fun h => h != req && h != e.owner).map fun h => (h, false) else [])
  else []

/-- The agent for which the home resolves a request: the home itself for a home-performed access (R272). -/
def actsFor (home : Nat) (q : Req) : Nat := if q.at_ then home else q.req

/-- A request conflicts with an entry (R264). -/
def conflicts (home : Nat) (q : Req) (e : DirE) : Bool :=
  !(conflictActs e (actsFor home q) q.wr).isEmpty && boxMeets e.box q.box

/-- A request must touch an entry: it conflicts with it, or it takes exclusively what the requester itself holds there, which it is
dropped from (R267). -/
def touches (home : Nat) (q : Req) (e : DirE) : Bool :=
  conflicts home q e || (q.wr && !q.at_ && !(q.req == home && q.impl) && e.hold.contains q.req && boxMeets e.box q.box)

/-- Two requests collide (R274). -/
def collide (x y : Req) : Bool := (x.wr || y.wr) && boxMeets x.box y.box

/-- Requests are ordered by (STAMP, REQ, TXN) (R274). -/
def reqBefore (x y : Req) : Bool :=
  if x.stamp ≠ y.stamp then decide (x.stamp < y.stamp)
  else if x.req ≠ y.req then decide (x.req < y.req) else decide (x.txn < y.txn)

def insReq (q : Req) : List Req → List Req
  | [] => [q]
  | x :: r => if reqBefore q x then q :: x :: r else x :: insReq q r

def sortReqs (qs : List Req) : List Req := qs.foldr insReq []

/-- Free ways of a set, lowest first. -/
def freeWays (d : Die) (set : Nat) : List Nat :=
  ((List.range 16).map fun w => set * 16 + w).filter fun k => (mapGet? d.dir k).isNone && !d.rsv.contains k

/-- A request that makes no entry of its own: home-performed accesses, and the home's own ordinary accesses (R257). -/
def noEntry (home : Nat) (q : Req) : Bool := q.at_ || (q.req == home && q.impl)

/-- The bytes of a request's footprint in a line. -/
def footMask (b : Box) (line : Nat) : Nat :=
  ((List.range 128).filter fun i => boxHas b (line * 128 + i)).foldl setBit 0

/-- GSTAMP: timebase [41:10] (R259). -/
def gstampOf (tb : Nat) : Nat := bits tb 41 10

/-- The new value of an atomic operation over w-bit operands, old and x unsigned (R151); `fadd` adds F32 values. -/
def atomNew (fadd : Nat → Nat → Nat) (op w old x : Nat) : Nat :=
  let sl := decide (sext old w < sext x w)
  match op with
  | 0 => (old + x) % 2 ^ w
  | 1 => fadd old x
  | 2 => if sl then old else x
  | 3 => if sl then x else old
  | 4 => if old < x then old else x
  | 5 => if old < x then x else old
  | 6 => old &&& x
  | 7 => old ||| x
  | 8 => old ^^^ x
  | _ => x

/-- The result of a home-performed atomic: the bytes it leaves, from the old bytes, its operation (10 compares and
swaps), its width in bytes and its operand bytes (R152). -/
def atomBytes (fadd : Nat → Nat → Nat) (op n : Nat) (old x : List Byte) : List Byte :=
  if op = 10 then (if old == sliceBytes x 0 n then sliceBytes x n n else old)
  else leBytes n (atomNew fadd op (8 * n) (leValue old) (fieldAt x 0 n))

/-- Perform a home-performed atomic at its home; an atomic on a poisoned sector leaves memory unchanged, and its old bytes
come with one byte more, which says so (R145). -/
def performAtomic (fadd : Nat → Nat → Nat) (s : State) (q : Req) : State × List Byte :=
  let n := nthN q.box.ext 0
  let pa := (boxSpans q.box).headD (q.box.base, 0) |>.1
  let old := homeBytes s pa n
  if poisoned s pa then (s, old ++ [1])
  else (homePut s (withAddrs pa (atomBytes fadd (q.atomOp s) n old q.ops)), old)

/-- Complete a die's own request in place: used where the home is the requester, whose data move without messages. -/
def grantSelf (s : State) (home txn code : Nat) : State :=
  modDie s home fun d => { d with mine := d.mine.map fun m =>
    if m.r.txn == txn && m.home == home then { m with grant := some (code, 0) } else m }

/-- Set an entry after the answers to its transaction (R266): holders that answered I leave, a holder that answered O
owns, the others share. -/
def settleEntry (d : Die) (key : Nat) (outs : List (Nat × Nat × Nat)) : Die :=
  match mapGet? d.dir key with
  | none => d
  | some e =>
    let mine := outs.filter fun o => o.1 == key
    let hold := e.hold.filter fun h => match mine.find? fun o => o.2.1 == h with
      | some o => o.2.2 != 0
      | none => true
    let put (dst owner : Nat) : Die :=
      { d with dir := mapSet d.dir key { e with pend := false, hold := hold, dst := dst, owner := owner } }
    let stays := e.dst != 1 && hold.contains e.owner
    if hold.isEmpty then { d with dir := mapErase d.dir key }
    else if mine.isEmpty then put (if stays then e.dst else 1) (if stays then e.owner else 0)
    else match mine.find? fun o => o.2.2 == 2 with
      | some o => put 3 o.2.1
      | none =>
        let keepO := e.dst == 3 && stays && !(mine.any fun o => o.2.1 == e.owner)
        put (if keepO then 3 else 1) (if keepO then e.owner else 0)

/-- Settle the intersections of a transaction whose answers are all in, and forget it (R266). -/
def closeTx (s : State) (home : Nat) (t : Tx) : State := modDie s home fun d =>
  let d := t.inter.foldl (fun d k => settleEntry d k t.outs) d
  { d with txs := d.txs.filter fun x => !(x.freq == t.freq && x.ftxn == t.ftxn) }

/-- A home-performed access of an engine, as against an atomic: every read, and a write of more than the 16 bytes of the widest
atomic (R272, log 13). -/
def Req.engine (q : Req) : Bool := q.at_ && (!q.wr || decide (16 < nthN q.box.ext 0))

/-- Answer the home-performed read or write of an engine: Data(HOME) or Grant(ACK) (R272). -/
def answerEngine (s : State) (home : Nat) (q : Req) : State :=
  if q.req = home then modDie s home fun d => { d with mine := d.mine.filter fun m => !(m.r.txn == q.txn && m.home == home) }
  else if q.wr then sendAck s home q.req 2 { txn := q.txn, req := q.req, code := 2 }
  else (boxLines q.box).foldl (fun s l => sendData s home q.req 4
    { line := l * 128, mask := footMask q.box l, txn := q.txn, req := q.req, kind := 0, data := homeBytes s (l * 128) 128 }) s

/-- End a transaction whose answers are all in (R266): settle the intersections, then perform the access or make the
requester's entry and grant it. -/
def finishTx (fadd : Nat → Nat → Nat) (s : State) (home : Nat) (t : Tx) : State :=
  let s := closeTx s home t
  match t.why with
  | .evict => s
  | .recall => s
  | .serve =>
    let q := t.q
    if q.engine then answerEngine s home q
    else if q.at_ then
      let r := performAtomic fadd s q
      if q.req = home then
        modDie (grantSelf r.1 home q.txn 3) home fun d => { d with mine := d.mine.map fun m =>
          if m.r.txn == q.txn && m.home == home then { m with hdata := withAddrs 0 r.2 } else m }
      else
        let s := modDie r.1 home fun d => { d with taint := setPut d.taint (q.req * 65536 + q.txn) (decide (nthN q.box.ext 0 < r.2.length)) }
        sendAck s home q.req 2 { txn := q.txn, req := q.req, code := 3, atom := sliceBytes r.2 0 (nthN q.box.ext 0) }
    else if noEntry home q then grantSelf s home q.txn (if q.wr then 1 else 0)
    else
      let e : DirE :=
        { dst := if q.wr then 2 else 1, impl := q.impl, hold := [q.req], owner := if q.wr then q.req else 0,
          gstamp := gstampOf s.tb, box := q.box }
      let s := modDie s home fun d => { d with rsv := setDel d.rsv t.way, dir := mapSet d.dir t.way e }
      if q.req = home then grantSelf s home q.txn (if q.wr then 1 else 0)
      else sendAck s home q.req 2 { txn := q.txn, req := q.req, code := if q.wr then 1 else 0, ndata := t.sent + t.nd }

/-- Number of entries a request's Serve adds to its set (R266). -/
def needOf (home : Nat) (q : Req) (es : List (Nat × DirE)) : Nat :=
  (es.foldl (fun n e => if touches home q e.2 then n + ((interBox e.2.box q.box).map fun i => (residuals e.2.box i).length).getD 0
    else n) 0) + (if noEntry home q then 0 else 1)

/-- Take an entry back from every holder: Recall (type 7) or BackInv (type 9) to each, the home's own part in place (R257,
R276, R277). -/
def takeBack (s : State) (home : Nat) (why : TxWhy) (type : Nat) (e : Nat × DirE) : State :=
  let near := e.2.hold.contains home
  let far := e.2.hold.filter (· != home)
  let s := if near then (holderAct s home e.2.box false).2.2.2 else s
  let d := getDie s home
  let t : Tx := { why := why, freq := home, ftxn := d.nextTxn, owed := far.map fun h => (h, e.1), inter := [e.1],
                  outs := if near then [(e.1, home, 0)] else [] }
  let q : Req := { req := home, txn := d.nextTxn, stamp := s.tb, box := e.2.box }
  let s := setDie s home { d with nextTxn := (d.nextTxn + 1) % 65536, txs := d.txs ++ [t],
                                  dir := mapSet d.dir e.1 { e.2 with pend := true } }
  if far.isEmpty then closeTx s home t else far.foldl (fun s h => sendMsg s home h type (reqBody q)) s

/-- Put an entry before those granted no longer ago than it: least recently granted first, the lowest way first among equals
(R276, R413). -/
def insAged (age : DirE → Nat) (e : Nat × DirE) : List (Nat × DirE) → List (Nat × DirE)
  | [] => [e]
  | x :: r => if age x.2 ≤ age e.2 then e :: x :: r else x :: insAged age e r

/-- Evict entries of a set, least recently granted first, until enough ways are free (R276): a BackInv to each holder. -/
def evictSet (s : State) (home set need : Nat) : State :=
  let d := getDie s home
  let free := (freeWays d set).length + (d.txs.filter fun t => t.why == .evict && t.inter.any fun k => k / 16 == set).length
  let now := gstampOf s.tb
  let age (e : DirE) : Nat := (now + 2 ^ 32 - e.gstamp) % 2 ^ 32
  let cand := (dirSet d set).filter fun e => !e.2.pend
  if need ≤ free ∨ cand.length < need - free then s
  else ((cand.foldr (insAged age) []).take (need - free)).foldl (fun s e => takeBack s home .evict 9 e) s

/-- What a request does to the home's own tenure, and how the home answers itself: entry key, home, state after. -/
def nearActs (s : State) (home : Nat) (acts : List (Nat × Nat × Bool × Box)) (wr : Bool) : State × List (Nat × Nat × Nat) :=
  acts.foldl (fun r a =>
    if a.2.2.1 then
      let h := holderAct r.1 home a.2.2.2 (!wr)
      (h.2.2.2, r.2 ++ [(a.2.1, home, h.2.1)])
    else ((invAct r.1 home a.2.2.2).2, r.2 ++ [(a.2.1, home, 0)])) (s, [])

/-- Serve one request (R266): reserve ways, split conflicting entries, send the actions of R264 and the home's data. -/
def serve (fadd : Nat → Nat → Nat) (s : State) (home : Nat) (q : Req) : State :=
  let d := getDie s home
  let es := (dirSet d q.set).filter fun e => touches home q e.2
  let need := needOf home q es
  let ways := (freeWays d q.set).take need
  let own := noEntry home q
  -- the home stands as the requester of the actions of a home-performed access
  let freq := actsFor home q
  let ftxn := if q.at_ then d.nextTxn else q.txn
  let d := { d with nextTxn := if q.at_ then (d.nextTxn + 1) % 65536 else d.nextTxn,
                    queue := d.queue.filter fun x => !(x.req == q.req && x.txn == q.txn) }
  let step (acc : Die × List Nat × List (Nat × Nat × Bool × Box) × List Nat) (e : Nat × DirE) :=
    match interBox e.2.box q.box with
    | none => acc
    | some i =>
      let res := residuals e.2.box i
      let dir := ((res.zip acc.2.1).foldl (fun m p => mapSet m p.2 { e.2 with box := p.1 }) acc.1.dir)
      let hold := if q.at_ then e.2.hold else e.2.hold.filter (· != q.req)
      let dir := mapSet dir e.1 { e.2 with box := i, pend := true, hold := hold }
      let acts := (conflictActs e.2 freq q.wr).map fun a => (a.1, e.1, a.2, i)
      ({ acc.1 with dir := dir, recs := acc.1.recs }, acc.2.1.drop res.length, acc.2.2.1 ++ acts, acc.2.2.2 ++ [e.1])
  let r := es.foldl step (d, ways, [], [])
  let way := if own then 0 else r.2.1.headD 0
  let lines := if q.at_ || q.req == home then [] else boxLines q.box
  let far := r.2.2.1.filter (·.1 != home)
  -- the home's own part is acted on in place, with no message (R257)
  let near := nearActs (setDie s home r.1) home (r.2.2.1.filter (·.1 == home)) q.wr
  let t : Tx := { q := q, freq := freq, ftxn := ftxn, owed := far.map fun a => (a.1, a.2.1), inter := r.2.2.2,
                  sent := lines.length, way := way, outs := near.2 }
  let s := modDie near.1 home fun d => { d with txs := d.txs ++ [t], rsv := if own then d.rsv else setAdd d.rsv way }
  -- a requester that holds part of an intersection is dropped from it with no message (R267)
  let s := if q.req < 4 ∧ q.at_ = false then r.2.2.2.foldl (fun s k => match mapGet? (getDie s home).dir k with
      | some e => modDie s q.req fun d => { d with recs := cutRecs d.recs e.box fun _ => .i }
      | none => s) s else s
  let s := far.foldl (fun s a =>
    sendMsg s home a.1 (if a.2.2.1 then 3 else 5)
      (reqBody
        { q with
          req := freq
          txn := ftxn
          box := a.2.2.2
          wr := a.2.2.1 && q.wr
          impl := false
          test := false
          at_ := false
          ctl := 0
          ops := [] })) s
  let s := lines.foldl (fun s l =>
    sendData s home q.req 4
      { line := l * 128, mask := footMask q.box l, txn := q.txn, req := q.req, kind := 0,
        data := homeBytes s (l * 128) 128 }) s
  if t.owed.isEmpty then finishTx fadd s home t else s

/-- A TEST request is refused (R273): its Serve would send a message to a holder, or evict, or a colliding request is ahead. -/
def testRefused (s : State) (home : Nat) (q : Req) (ahead : List Req) : Bool :=
  let d := getDie s home
  let es := dirSet d q.set
  q.test && (es.any (fun e => conflicts home q e.2) || ahead.any (collide q) || decide ((freeWays d q.set).length < needOf home q []))

/-- The request waits: a colliding transaction, a PEND entry that it conflicts with, or an earlier colliding request
that still waits (R274). -/
def mustWait (s : State) (home : Nat) (q : Req) (ahead : List Req) : Bool :=
  let d := getDie s home
  d.txs.any (fun t => t.why == .serve && collide t.q q) ||
  (dirSet d q.set).any (fun e => e.2.pend && touches home q e.2) ||
  ahead.any (collide q)

/-- The ways of its set that a request needs: one for each residual that it leaves, and its own (R266). -/
def waysFor (s : State) (home : Nat) (q : Req) : Nat := needOf home q ((dirSet (getDie s home) q.set).filter fun e => touches home q e.2)

/-- Start every waiting request of a set that may start, in (STAMP, REQ, TXN) order (R266, R274). One that is short of ways waits for
evictions, and the free ways that it is to reserve are not given to a later one (R266, R413). -/
def startReqs (fadd : Nat → Nat → Nat) (s : State) (home set : Nat) : State :=
  let qs := sortReqs ((getDie s home).queue.filter fun q => q.set == set)
  (qs.foldl (fun (acc : State × List Req × Nat) q =>
    let s := acc.1
    if testRefused s home q acc.2.1 then
      let s := modDie s home fun d => { d with queue := d.queue.filter fun x => !(x.req == q.req && x.txn == q.txn) }
      (if q.req = home then grantSelf s home q.txn 4
       else sendAck s home q.req 10 { txn := q.txn, req := q.req, code := 0 }, acc.2)
    else if mustWait s home q acc.2.1 then (s, acc.2.1 ++ [q], acc.2.2)
    else
      let need := waysFor s home q + acc.2.2
      if (freeWays (getDie s home) set).length < need then (evictSet s home set need, acc.2.1 ++ [q], need)
      else (serve fadd s home q, acc.2)) (s, [], 0)).1

/-- Record a holder's answer and finish the transaction when all are in (R266). -/
def takeAnswer (fadd : Nat → Nat → Nat) (s : State) (home from_ : Nat) (a : AckB) : State :=
  match (getDie s home).txs.find? fun t => t.freq == a.req && t.ftxn == a.txn && t.owed.any (·.1 == from_) with
  | none => s
  | some t =>
    let key := ((t.owed.find? (·.1 == from_)).map (·.2)).getD 0
    let t' := { t with owed := t.owed.erase (from_, key), nd := t.nd + a.ndata, outs := t.outs ++ [(key, from_, a.code % 4)] }
    let s := modDie s home fun d => { d with txs := d.txs.map fun x => if x.freq == t.freq && x.ftxn == t.ftxn then t' else x }
    if t'.owed.isEmpty then finishTx fadd s home t' else s

/-! ### The holder's answers as messages (R269) -/

/-- Answer a Fwd: Data of KIND FWD to the requester, then InvAck to the home. What is sent to a die or to a companion's home
reaches the home's copy too, behind the requester's tenure, so that no byte is nowhere while it travels (log 13). -/
def onFwd (s : State) (home holder : Nat) (q : Req) : State :=
  let r := holderAct s holder q.box (!q.wr)
  let s := r.1.foldl (fun s d => if q.req = holder then s
    else
      let s := if q.req < 4 ∨ 8 ≤ home then homePut s d.bytes else s
      sendData s holder q.req 4 { d with txn := q.txn, req := q.req, kind := 1 }) r.2.2.2
  sendAck s holder home 6 { txn := q.txn, req := q.req, code := r.2.1 + (if r.2.2.1 then 128 else 0), ndata := r.1.length }

/-- Answer an Inv. -/
def onInv (s : State) (home holder : Nat) (q : Req) : State :=
  let r := invAct s holder q.box
  sendAck r.2 holder home 6 { txn := q.txn, req := q.req, code := if r.1 then 128 else 0 }

/-- Answer a Recall (KIND 1) or a BackInv (KIND 2): WbData for the dirty bytes, then InvAck. -/
def onRecall (s : State) (home holder kind : Nat) (q : Req) : State :=
  let r := holderAct s holder q.box false
  let s := r.1.foldl (fun s d => sendBack s holder home { d with txn := q.txn, req := q.req, kind := kind }) r.2.2.2
  sendAck s holder home 6 { txn := q.txn, req := q.req, code := if r.2.2.1 then 128 else 0 }

/-! ### The requester (R268, R270, R275) -/

/-- Give a group's outstanding operation its register value, to be written by its result step. -/
def setOpResult (s : State) (g op : Nat) (v : Nat) : State :=
  { s with groups := mapMod s.groups g fun x => { x with ops := x.ops.map fun o =>
      if o.id == op then
        { o with
          kind := match o.kind with
            | .tacq h m => .tacq h m
            | _ => .result
          status := 1
          vals := (o.units ++ o.clash).map fun u => (u, BitVec.ofNat 32 v, false) }
      else o } }

/-- Change a tile handle. -/
def modHandle (s : State) (ctx h : Nat) (f : HEntry → HEntry) : State :=
  { s with ctxs := mapMod s.ctxs ctx fun c => { c with handles := mapMod c.handles h f } }

/-- The state of a holder after TFLUSH: what was dirty is clean (R270). -/
def flushedSt : HSt → HSt
  | .m => .e
  | .o => .s
  | x => x

/-- Complete a die's request when its Grant and all its Data are in (R268). -/
def completeReq (s : State) (die : Nat) (m : MyReq) (code : Nat) (atom : List Byte) : State :=
  let s := modDie s die fun d => { d with mine := d.mine.filter fun x => x.r.txn != m.r.txn }
  match m.why with
  | .atom g op lane _ =>
    { s with groups := mapMod s.groups g fun x => { x with ops := x.ops.map fun o =>
        if o.id == op then match o.kind with
          | .atomic a n sc k ls sent back => { o with kind := .atomic a n sc k ls sent (mapSet back lane atom) }
          | _ => o
        else o } }
  | .engine =>
    -- a companion's home has resolved the line: the step that asked for it can be made
    if 8 ≤ m.home then { s with served := mapSet s.served (m.r.box.base / 128 * 2 + b2n m.r.wr) 0 } else s
  | .release who rel =>
    -- the home die's own bytes are the home's copy: they stay as they are
    let s := if m.home = die then s else if rel then dropBytes s die m.r.box else cleanBytes s die m.r.box
    let s := if rel then modDie s die fun d => { d with recs := d.recs.filter fun r => !boxWithin r.box m.r.box }
      else modDie s die fun d => { d with recs := d.recs.map fun r =>
        { r with st := if boxWithin r.box m.r.box then flushedSt r.st else r.st } }
    match who with
    | none => s
    | some (ctx, h, g, op) =>
      setOpResult (if rel then modHandle s ctx h fun e => { e with st := 0, part := false } else s) g op 0
  | why =>
    -- bytes that the requester had dirty under an entry which it was dropped from stay dirty (R267)
    let own := m.home != die && !(dirtyOf s die m.r.box).isEmpty
    let st : HSt := if code = 1 then (if m.fdata.isEmpty && !own then .e else .m) else .s
    let put (l2 : FMap CLine) (e : Nat × Byte) (dirty : Bool) := clPut l2 (e.1 / 128) ((clGet l2 (e.1 / 128)).put (e.1 % 128) e.2 dirty)
    let s := if m.home = die then (if m.r.impl then s else modDie s die fun d =>
          { d with recs := d.recs ++ [{ home := m.home, box := m.r.box, st := st, impl := m.r.impl }] })
      else modDie s die fun d =>
        let l2 := m.hdata.foldl (fun l e => if bit (clGet l (e.1 / 128)).dirty (e.1 % 128) then l else put l e false) d.l2
        let l2 := m.fdata.foldl (fun l e => put l e (decide (code = 1))) l2
        { d with l2 := l2, recs := d.recs ++ [{ home := m.home, box := m.r.box, st := st, impl := m.r.impl }] }
    -- dirty bytes received under a shared grant are written back to the home, and are clean from here on (R258)
    let s := if code = 0 ∧ m.home ≠ die then
        (byLine m.fdata).foldl (fun s l => sendBack s die m.home
          { line := l.1 * 128, mask := l.2.foldl (fun k e => setBit k e.1) 0, txn := m.r.txn, req := die, kind := 0,
            data := (List.range 128).map fun i => ((l.2.find? (·.1 == i)).map (·.2)).getD 0 }) s
      else s
    match why with
    | .handle ctx h g op =>
      setOpResult (modHandle s ctx h fun e => { e with st := if m.r.wr then 3 else 2, part := false, die := die }) g op 1
    | .reacq ctx h => modHandle s ctx h fun e => { e with part := false, die := die, reacq := false }
    | _ => s

/-- A TACQ test is refused: d := 0 and the handle returns to IDLE (R211, R275). -/
def refuseReq (s : State) (die : Nat) (m : MyReq) : State :=
  let s := modDie s die fun d => { d with mine := d.mine.filter fun x => x.r.txn != m.r.txn }
  match m.why with
  | .handle ctx h g op => setOpResult (modHandle s ctx h fun e => { e with st := 0 }) g op 0
  | _ => s

/-- Complete what can be completed among a die's own requests. -/
def settleMine (s : State) (die : Nat) : State :=
  (getDie s die).mine.foldl (fun s m => match m.grant with
    | some (code, nd) =>
      if code = 4 then refuseReq s die m
      else if m.recv < nd then s
      else completeReq s die m code (m.hdata.map (·.2))
    | none => s) s

/-- Start every waiting request of a set that may start, and complete the home's own (R266, R274). -/
def startSet (fadd : Nat → Nat → Nat) (s : State) (home set : Nat) : State := settleMine (startReqs fadd s home set) home

/-- A holder's answer reaches the home, which completes its own requests that it ends (R266). -/
def onInvAck (fadd : Nat → Nat → Nat) (s : State) (home from_ : Nat) (a : AckB) : State :=
  settleMine (takeAnswer fadd s home from_ a) home

/-- A Grant reaches its requester. -/
def onGrant (s : State) (die : Nat) (a : AckB) : State :=
  match (getDie s die).mine.find? (·.r.txn == a.txn) with
  | none => s
  | some m =>
    if a.code = 3 then
      let k := die * 65536 + a.txn
      let bad := (getDie s m.home).taint.contains k
      completeReq (modDie s m.home fun d => { d with taint := setDel d.taint k }) die m 3
        (sliceBytes a.atom 0 (nthN m.r.box.ext 0) ++ if bad then [1] else [])
    else if a.code = 2 then completeReq s die m 2 []
    else settleMine (modDie s die fun d => { d with mine := d.mine.map fun x =>
      if x.r.txn == a.txn then { x with grant := some (a.code, a.ndata) } else x }) die

/-- A line of data reaches a requester; a home that stands as the requester applies it to its copy (R268, R272). What a companion's
home sends of its copy is what its memory holds now. -/
def onData (s : State) (die : Nat) (d : DataB) : State :=
  match (getDie s die).mine.find? fun m => m.r.txn == d.txn && m.home != die with
  | some m =>
    let s := if 8 ≤ m.home ∧ d.kind = 0 then rawPut s d.bytes else s
    if m.why == .engine then completeReq s die m 0 [] else settleMine (modDie s die fun x => { x with mine := x.mine.map fun m =>
      if m.r.txn == d.txn && m.home != die then
        if d.kind = 0 then { m with recv := m.recv + 1, hdata := d.bytes.foldl (fun f e => mapSet f e.1 e.2) m.hdata }
        else { m with recv := m.recv + 1, fdata := d.bytes.foldl (fun f e => mapSet f e.1 e.2) m.fdata }
      else m }) die
  | none => homePut s d.bytes

/-- The home receives WbData (R270). -/
def onWbData (s : State) (home from_ : Nat) (d : DataB) : State :=
  if d.kind < 3 then homePut s d.bytes
  else
    let b := boxOfBytes d.data
    let set := setKey ((boxSpans b).headD (b.base, 0)).1
    let s := if d.kind = 3 then modDie s home fun x =>
        (dirSet x set).foldl (fun x e =>
          if e.2.hold.contains from_ && boxWithin e.2.box b then
            let hold := e.2.hold.erase from_
            let own := e.2.owner == from_ && !e.2.pend
            let e' : DirE :=
              { e.2 with hold := hold, dst := if own then 1 else e.2.dst, owner := if own then 0 else e.2.owner }
            if hold.isEmpty && !e.2.pend then { x with dir := mapErase x.dir e.1 }
            else { x with dir := mapSet x.dir e.1 e' }
          else x) x else s
    if from_ = home then s else sendAck s home from_ 2 { txn := d.txn, req := d.req, code := 2 }

/-- Release or flush tenure of a box (R270): WbData(KEEP) for the dirty lines, then REL or FLUSHEND; the home's own
tenure is released in place. -/
def releaseBox (s : State) (die home : Nat) (box : Box) (why : Purpose) (rel : Bool) : State :=
  let d := getDie s die
  let txn := d.nextTxn
  let m : MyReq := { r := { req := die, txn := txn, stamp := s.tb, box := box, wr := true }, home := home, why := why }
  if home = die then
    let s := onWbData (setDie s die { d with nextTxn := (txn + 1) % 65536 }) home die
      { txn := txn, req := die, kind := if rel then 3 else 4, data := boxBytes box }
    completeReq s die m 2 []
  else
    let s := setDie s die { d with nextTxn := (txn + 1) % 65536, mine := d.mine ++ [m] }
    let s := (dirtyOf s die box).foldl (fun s x => sendBack s die home { x with txn := txn, req := die, kind := 0 }) s
    sendData s die home 8 { txn := txn, req := die, kind := if rel then 3 else 4, data := boxBytes box }

/-- Move what a die holds of a vacated frame to the page's new frame: loads in flight, dirty L1 and cluster-cache lines
(R275 MOVED). -/
def redirect (s : State) (die old new : Nat) : State :=
  let mv (pa : Nat) : Nat := if pa / 131072 = old then new * 131072 + pa % 131072 else pa
  let mvLines (m : FMap CLine) : FMap CLine := m.foldl (fun acc e =>
    if e.1 / 1024 = old then clPut acc (new * 1024 + e.1 % 1024) e.2 else mapSet acc e.1 e.2) []
  let mvOp (o : Op) : Op := match o.kind with
    | .load n sx nc ls => { o with kind := .load n sx nc (ls.map fun l =>
        { l with pas := l.pas.map mv, got := l.got.foldl (fun m e => mapSet m (mv e.1) e.2) [] }) }
    | .store nc ls rest => { o with kind := .store nc (ls.map fun l => mv (l * 128) / 128) (rest.map fun b => (mv b.1, b.2)) }
    | .atomic a n sc k ls sent back => { o with kind := .atomic a n sc k (ls.map fun l => (l.1, mv l.2.1, l.2.2)) sent back }
    | _ => o
  let coreOf (g : Group) : Nat := ((mapGet? s.teams g.team).map (·.core)).getD 0
  { s with
    groups := s.groups.map fun g => (g.1, if dieOfCore (coreOf g.2) = die then { g.2 with ops := g.2.ops.map mvOp } else g.2)
    cores := s.cores.map fun c => (c.1, if dieOfCore c.1 = die then { c.2 with l1 := mvLines c.2.l1 } else c.2)
    clusters := s.clusters.map fun c => (c.1, if c.1 / 8 = die then { c.2 with cc := mvLines c.2.cc } else c.2) }

/-- A Nack reaches its requester (R275). -/
def onNack (s : State) (die : Nat) (a : AckB) : State :=
  match (getDie s die).mine.find? (·.r.txn == a.txn) with
  | none => s
  | some m =>
    if a.code = 1 then match mapGet? s.movedPages m.r.page with
      | none => s
      | some p =>
        let home := (homeOf (p * 131072)).getD m.home
        let q := m.r.toFrame p
        let s := redirect s die m.r.page p
        let s := modDie s die fun x => { x with mine := x.mine.map fun y =>
          if y.r.txn == m.r.txn then { y with r := q, home := home } else y }
        if home = die then arriveReq s home q else sendMsg s die home (if q.wr then 1 else 0) (reqBody q)
    else if a.code = 2 then modDie s die fun x => { x with mine := x.mine.map fun y =>
      if y.r.txn == a.txn then { y with busyAt := some s.tb } else y }
    else refuseReq s die m

/-! ### Home-performed accesses of engines, builders, the host and mailboxes (R272, log 13) -/

/-- Nothing stands in the way of a home-performed access to a line of a die's home: no entry conflicts with it, and no
transaction that collides with it is under way (R264, R272, R274). -/
def lineClear (s : State) (home line : Nat) (wr : Bool) : Bool :=
  let q : Req := { req := home, at_ := true, wr := wr, box := lineBox line }
  (dirSet (getDie s home) q.set).all (fun e => !conflicts home q e.2) &&
    (getDie s home).txs.all fun t => !(t.why == .serve && collide t.q q)

/-- The dies give up or share what they hold of a line of a companion, whose dirty bytes reach its home (R279, log 13). -/
def takeLine (s : State) (line : Nat) (wr : Bool) : State :=
  (s.dies.map (·.1)).foldl (fun s d =>
    let a := holderAct s d (lineBox line) (!wr)
    a.1.foldl (fun s x => homePut s x.bytes) a.2.2.2) s

/-- A companion's home has resolved the line for the access: a request for it has been answered. -/
def lineServed (s : State) (line : Nat) (wr : Bool) : Bool :=
  (mapGet? s.served (line * 2 + 1)).isSome || (!wr && (mapGet? s.served (line * 2)).isSome)

/-- The step being made uses what a companion's home has resolved for it. -/
def useServed (s : State) (line : Nat) : State :=
  { s with served := mapMod (mapMod s.served (line * 2) fun n => n / 2 * 2 + 1) (line * 2 + 1) fun n => n / 2 * 2 + 1 }

/-- A companion's home has refused the access as PERM (R275). -/
def lineRefused (s : State) (line : Nat) (wr : Bool) : Bool := decide (2 ≤ mapGetD s.served (line * 2 + b2n wr) 0)

/-- Resolve the tenure on one line for a home-performed access (R264, R272). Where a die's home has first to act on holders or
to end a transaction, the step wants it: it is asked for with a request of its own, and the step is made later. A companion's
home is always asked, and resolves its directory itself (R279); behind a write that a full redo log stalls the access waits
(R365). -/
def resolveLine (s : State) (line : Nat) (wr : Bool) : State :=
  match homeOf (line * 128) with
  | none => touch s (line * 128)
  | some home =>
    if home = 4 ∨ home = 5 then s
    else if 8 ≤ home then
      if lostByte s (line * 128) then s
      else if stalledLine s line then { s with wants := s.wants ++ [.quiet] }
      else if lineServed s line wr then useServed s line
      else { s with wants := s.wants ++ [.engine line wr] }
    else if lineClear s home line wr then s
    else { s with wants := s.wants ++ [.engine line wr] }

def resolveLines (s : State) (lines : List Nat) (wr : Bool) : State := lines.foldl (fun s l => resolveLine s l wr) s

/-- Write bytes as memory writes that need no answer (R355): the dies give up what they hold of a companion's lines. -/
def postPut (s : State) (bs : List (Nat × Byte)) : State :=
  homePut ((bs.foldl (fun a e => setAdd a (e.1 / 128)) []).foldl (fun s l => takeLine s l true) s) bs

/-- Write bytes as a home-performed write. -/
def engPut (s : State) (bs : List (Nat × Byte)) : State :=
  homePut (resolveLines s (bs.foldl (fun a e => setAdd a (e.1 / 128)) []) true)
    (if s.served.isEmpty then bs else bs.filter fun e => !lineRefused s (e.1 / 128) true)

/-! ### Recalls (R277) -/

/-- The entries of a page at a home. -/
def pageEntries (s : State) (home page : Nat) : List (Nat × DirE) :=
  (dirSet (getDie s home) (setKey (page * 131072))).filter fun e => ((boxSpans e.2.box).headD (0, 0)).1 / 131072 == page

/-- No holder has tenure of a page of a die's home, and no request for it is waiting or under way. -/
def pageFree (s : State) (home page : Nat) : Bool :=
  let d := getDie s home
  (pageEntries s home page).isEmpty && d.queue.all (fun q => q.page != page) &&
    d.txs.all fun t => !(t.why == .serve && t.q.page == page)

/-- A step that needs a page of a die's home with no tenure on it: where there is some, the step wants it recalled. -/
def recallPage (s : State) (page : Nat) (back : Bool := false) : State :=
  match homeOf (page * 131072) with
  | none => s
  | some home => if 4 ≤ home ∨ pageFree s home page = true then s else { s with wants := s.wants ++ [.recall page back] }

/-- The home sends Recall, or BackInv, for every entry of a page that is not already in a transaction (R277, R384). -/
def startRecall (s : State) (page : Nat) (back : Bool) : State :=
  match homeOf (page * 131072) with
  | none => s
  | some home => if 4 ≤ home then s
    else ((pageEntries s home page).filter fun e => !e.2.pend).foldl (fun s e => takeBack s home .recall (if back then 9 else 7) e) s

/-! ### What a step wants (log 13) -/

/-- An agent sends the request of a home-performed access, unless it has sent one. -/
def askEngine (s : State) (agent line : Nat) (wr : Bool) : State :=
  match homeOf (line * 128) with
  | none => s
  | some home =>
    if (getDie s agent).mine.any fun m => m.why == .engine && m.r.box.base == line * 128 && (m.r.wr || !wr) then s
    else (sendReq s agent home { at_ := true, wr := wr, box := lineBox line } .engine).1

/-- Ask for what a step wants, for the agent that makes it. -/
def askWant (agent : Nat) (s : State) : Want → State
  | .engine line wr => askEngine s agent line wr
  | .write die line => askLine s die line true
  | .recall page back => startRecall s page back
  | .quiet => s

end Sys2Proof.Machine
end

