-- ==== Sys2Proof/Machine/Translate.lean ====
section
/-! DEFINITION. Virtual addresses, page-table walks, TLBs, tenant windows, and the global accesses of engines
(R289 to R298, R301). -/
namespace Sys2Proof.Machine

open Sys2Proof

/-- The accesses that a fault message distinguishes, with their codes (R302). -/
inductive Acc where | read | write | fetch | atomic | engRead | engWrite | walk
  deriving DecidableEq, Repr

def Acc.code : Acc → Nat
  | .read => 0 | .write => 1 | .fetch => 2 | .atomic => 3 | .engRead => 4 | .engWrite => 5 | .walk => 6

/-- The access needs write permission (R296). -/
def Acc.writes : Acc → Bool
  | .write => true
  | .atomic => true
  | .engWrite => true
  | _ => false

/-- A translation failure: cause of R301, level of the entry that failed or 255, its address or 0. -/
structure XFail where
  cause : Nat := 0
  level : Nat := 255
  pte   : Nat := 0
  deriving DecidableEq, Repr

/-- A context record, or the free one. -/
def getCtx (s : State) (c : Nat) : Context := mapGetD s.ctxs c {}

/-- The tenant of a context: 0 for a system context (R318). -/
def tenantOf (x : Context) : Nat := if x.sys then 0 else x.ten

/-- The CTX word of SREG 0x0D (R37). -/
def ctxWord (x : Context) : Nat := x.num % 4096 + 4096 * (tenantOf x % 16)

/-- A virtual address is canonical (R289). -/
def canonical (va : Nat) : Bool := decide (va < 2 ^ 48)

/-- What a leaf entry gives one access: the physical address, home and permissions (R291). -/
structure Leaf where
  pa   : Nat
  size : Nat
  home : Nat
  w    : Bool
  x    : Bool
  d    : Bool
  lost : Bool
  mob  : Bool
  mir  : Bool
  pte  : Nat
  level : Nat
  deriving DecidableEq, Repr

/-- The index of a level in a virtual address, and the bytes that a leaf of the level maps (R290). -/
def vaIndex (level va : Nat) : Nat :=
  if level = 3 then bits va 47 44 else if level = 2 then bits va 43 35 else if level = 1 then bits va 34 26 else bits va 25 17

def leafSize (level : Nat) : Nat := if level = 2 then 2 ^ 35 else if level = 1 then 2 ^ 26 else 2 ^ 17

/-- A valid leaf entry of a level is bad (R292). -/
def badLeaf (level e : Nat) : Bool :=
  let base := bits e 43 12 * 4096
  let size := leafSize level
  let home := bits e 9 6
  bits e 55 44 != 0 || level == 3 || base % size != 0 || home == 4 || home == 6 || home == 7 ||
  homeOf base != some home || homeOf (base + size - 1) != some home ||
  (bit e 10 && level != 0) || (level == 2 && home != 5) ||
  (decide (home < 4) && decide (base ≤ home * 0x800000000 + 0x5FFFE0000) &&
    decide (home * 0x800000000 + 0x5FFFE0000 < base + size))

/-- A valid non-leaf entry of a level is bad (R292). -/
def badNode (level e : Nat) : Bool := bits e 11 2 != 0 || bits e 55 44 != 0 || level == 0

/-- Walk the levels below `n` from a node (R290, R292, R296): the entries are home-performed reads (R293). -/
def walkFrom (s : State) (va : Nat) : Nat → Nat → Except XFail Leaf
  | 0, node => .error { cause := 1, level := 0, pte := node }
  | level + 1, node =>
    let ea := node + 8 * vaIndex level va
    let away := match homeOf node with
      | some h => decide (8 ≤ h) && !companionDocked s h
      | none => false
    if away then .error { cause := 6, level := level, pte := ea }
    else
      let e := leValue (engBytes s ea 8)
      if !bit e 0 then .error { cause := 0, level := level, pte := ea }
      else if bit e 1 then
        if badLeaf level e then .error { cause := 1, level := level, pte := ea }
        else .ok { pa := bits e 43 12 * 4096 + va % leafSize level, size := leafSize level, home := bits e 9 6, w := bit e 2,
                   x := bit e 3, d := bit e 5, lost := bit e 63, mob := bit e 10, mir := bit e 11, pte := ea, level := level }
      else if badNode level e then .error { cause := 1, level := level, pte := ea }
      else walkFrom s va level (bits e 43 12 * 4096)

/-- The walk of a context's address, and the checks up to LOST (R296). -/
def walk (s : State) (x : Context) (va : Nat) : Except XFail Leaf :=
  if !canonical va then .error { cause := 2 }
  else match walkFrom s va 4 x.root with
    | .error f => .error f
    | .ok l => if l.lost || (decide (8 ≤ l.home) && !companionDocked s l.home)
      then .error { cause := 6, level := l.level, pte := l.pte } else .ok l

/-- Permission causes in the order of R296: WRITE, EXEC, WINDOW. -/
def permFail (a : Acc) (w x winR winW winX : Bool) : Option Nat :=
  if a.writes && !w then some 3
  else if a == .fetch && !x then some 4
  else if (if a.writes then !winW else if a == .fetch then !winX else !winR) then some 5
  else none

/-- The TLB entry that a walk fills, with the permission that resulted (R298). -/
def tlbEntry (s : State) (x : Context) (va : Nat) (l : Leaf) (d : Bool) : TlbE :=
  { va := va / 131072, size := l.size, pa := l.pa / 131072, home := l.home, ctx := x.num, ten := tenantOf x, w := l.w,
    x := l.x, dset := d, winR := inWindow s x l.pa fun _ => true, winW := inWindow s x l.pa (·.wr),
    winX := inWindow s x l.pa (·.ex) }

/-- A TLB's entry for a page of a context: it bears the context's number and tenant (R295). -/
def tlbLook (tlb : List TlbE) (x : Context) (va : Nat) : Option TlbE :=
  tlb.find? fun e => e.ctx == x.num && e.ten == tenantOf x && e.va == va / 131072

/-- The TLB entry of a core for a page of a context (R295). -/
def tlbFind (s : State) (core : Nat) (x : Context) (va : Nat) : Option TlbE := tlbLook (getCore s core).tlb x va

/-- The entry serves an access of this kind: a write, only where it was filled for a write, whose walk set D (R293). -/
def tlbServes (e : TlbE) (a : Acc) : Bool := !a.writes || e.dset

/-- The entry that serves an access: the core's, else its cluster's (R294). -/
def tlbHit (s : State) (core : Nat) (x : Context) (va : Nat) (a : Acc) : Option TlbE :=
  match (tlbFind s core x va).filter (tlbServes · a) with
  | some e => some e
  | none => (tlbLook (getCluster s (clusterOf core)).tlb x va).filter (tlbServes · a)

/-- Place an entry in a TLB, in place of an older one for its page. -/
def tlbPut (tlb : List TlbE) (e : TlbE) : List TlbE :=
  e :: tlb.filter fun o => !(o.ctx == e.ctx && o.ten == e.ten && o.va == e.va)

/-- The outcome of an access through a TLB entry. -/
def tlbUse (s : State) (e : TlbE) (va : Nat) (a : Acc) : Except XFail Nat :=
  if decide (8 ≤ e.home) && !companionDocked s e.home then .error { cause := 6 }
  else match permFail a e.w e.x e.winR e.winW e.winX with
    | some c => .error { cause := c }
    | none => .ok (e.pa * 131072 + va % 131072)

/-- Translate one byte address of a context on a core, with no effect: through the core's TLB or its cluster's, else by a walk. -/
def xlate (s : State) (core : Nat) (x : Context) (va : Nat) (a : Acc) : Except XFail Nat :=
  if !canonical va then .error { cause := 2 }
  else match tlbHit s core x va a with
    | some e => tlbUse s e va a
    | none => match walk s x va with
      | .error f => .error f
      | .ok l => match permFail a l.w l.x (inWindow s x l.pa fun _ => true) (inWindow s x l.pa (·.wr)) (inWindow s x l.pa (·.ex)) with
        | some c => .error { cause := c, level := l.level, pte := l.pte }
        | none => .ok l.pa

/-- The walker's home-performed OR of A, and of D for a write, into a leaf entry (R293). -/
def setAD (s : State) (pte : Nat) (d : Bool) : State :=
  let b := (engByte s pte).toNat
  let b' := b ||| (if d then 0x30 else 0x10)
  if b' = b then s else engPut s [(pte, BitVec.ofNat 8 b')]

/-- Make a translation for an access, if the TLB of the core does not serve it: take the cluster's, else walk, set A and for a write
D, and fill both. A walk whose node lies where nothing is placed is recorded as such. -/
def fillTlb (s : State) (core : Nat) (x : Context) (va : Nat) (a : Acc) : State :=
  if !canonical va then s
  else if ((tlbFind s core x va).filter (tlbServes · a)).isSome then s
  else match (tlbLook (getCluster s (clusterOf core)).tlb x va).filter (tlbServes · a) with
  | some e => modCore s core fun c => { c with tlb := tlbPut c.tlb e }
  | none => match walk s x va with
    | .error f => if f.pte = 0 then s else touch s f.pte
    | .ok l =>
      let s := setAD s l.pte a.writes
      let e := tlbEntry s x va l a.writes
      let s := modCluster s (clusterOf core) fun k => { k with tlb := tlbPut k.tlb e }
      modCore s core fun c => { c with tlb := tlbPut c.tlb e }

/-- The page pieces of `n` consecutive bytes, modulo 2^64 (R141): first address and number of bytes of each. -/
def pagePieces (va n : Nat) : List (Nat × Nat) :=
  if n = 0 then []
  else (List.range ((va % 131072 + n + 131071) / 131072)).map fun i =>
    let lo := if i = 0 then va else (va / 131072 + i) * 131072
    let hi := (va / 131072 + i + 1) * 131072
    (lo % 2 ^ 64, (if hi < va + n then hi else va + n) - lo)

/-- Fill the translations of every page that `n` bytes touch (R294). -/
def fillRange (s : State) (core : Nat) (x : Context) (va n : Nat) (a : Acc) : State :=
  (pagePieces va n).foldl (fun s p => fillTlb s core x p.1 a) s

/-- The lowest byte of an access that fails, with its failure (R296). -/
def rangeFail (s : State) (core : Nat) (x : Context) (va n : Nat) (a : Acc) : Option (Nat × XFail) :=
  firstSome (fun p => match xlate s core x p.1 a with
    | .error f => some (p.1, f)
    | .ok _ => none) (pagePieces va n)

/-- The physical addresses of a translated access. -/
def rangePas (s : State) (core : Nat) (x : Context) (va n : Nat) (a : Acc) : List Nat :=
  (pagePieces va n).flatMap fun p => match xlate s core x p.1 a with
    | .ok pa => (List.range p.2).map (pa + ·)
    | .error _ => List.replicate p.2 0

/-! ### Engines, the hub and the Pavilion: accesses at the homes (R272, R301) -/

/-- A companion's home has refused an engine's access to the page as PERM (R275). -/
def refusedPage (s : State) (pa : Nat) (a : Acc) : Bool := (a == .engRead || a == .engWrite) && s.served.any fun e =>
  decide (2 ≤ e.2) && e.1 / 2048 == pa / 131072 && (e.1 % 2 == 1) == a.writes

/-- Translate one byte of a context for an engine: a walk by the die's walkers. -/
def engXlate (s : State) (x : Context) (va : Nat) (a : Acc) : Except XFail Nat :=
  match walk s x va with
  | .error f => .error f
  | .ok l => match permFail a l.w l.x (inWindow s x l.pa fun _ => true) (inWindow s x l.pa (·.wr)) (inWindow s x l.pa (·.ex)) with
    | some c => .error { cause := c, level := l.level, pte := l.pte }
    | none => if refusedPage s l.pa a then .error { cause := 5 } else .ok l.pa

/-- The first page of an access that fails for an engine. -/
def engFail (s : State) (x : Context) (va n : Nat) (a : Acc) : Option (Nat × XFail) :=
  firstSome (fun p => match engXlate s x p.1 a with
    | .error f => some (p.1, f)
    | .ok _ => none) (pagePieces va n)

/-- Physical addresses of an engine's access, page by page. -/
def engPas (s : State) (x : Context) (va n : Nat) (a : Acc) : List Nat :=
  (pagePieces va n).flatMap fun p => match engXlate s x p.1 a with
    | .ok pa => (List.range p.2).map (pa + ·)
    | .error _ => List.replicate p.2 0

/-- Set A, and D for a write, on the pages of an engine's access (R293). -/
def engMark (s : State) (x : Context) (va n : Nat) (a : Acc) : State :=
  (pagePieces va n).foldl (fun s p => match walk s x p.1 with
    | .ok l => setAD s l.pte a.writes
    | .error f => if f.pte = 0 then s else touch s f.pte) s

/-- Bytes that an engine of a context reads (R272). -/
def engRead (s : State) (x : Context) (va n : Nat) : List Byte := (engPas s x va n .engRead).map (engByte s)

/-- Write bytes as an engine of a context (R272); the sectors they cover whole lose their poison (R145). -/
def engWrite (s : State) (x : Context) (va : Nat) (bs : List Byte) : State :=
  let pas := engPas s x va bs.length .engWrite
  clearCovered (engPut (engMark s x va bs.length .engWrite) (pas.zip bs)) pas

/-- Mark the sector at an address that an engine of a context writes poisoned bytes to (R145). -/
def engPoison (s : State) (x : Context) (va : Nat) : State := (engPas s x va 1 .engWrite).foldl (fun s pa => setPoison s pa true) s

end Sys2Proof.Machine
end

