-- ==== Sys2Proof/Machine/Hub.lean ====
section
/-! DEFINITION. Posts to mailboxes, fault messages, and lookups of groups, teams and launches (R3, R36, R301, R302). -/
namespace Sys2Proof.Machine

open Sys2Proof

def getGroup (s : State) (g : Nat) : Group := mapGetD s.groups g {}
def setGroup (s : State) (g : Nat) (v : Group) : State := { s with groups := mapSet s.groups g v }
def modGroup (s : State) (g : Nat) (f : Group → Group) : State := { s with groups := mapMod s.groups g f }
def getTeam (s : State) (t : Nat) : Team := mapGetD s.teams t {}
def modTeam (s : State) (t : Nat) (f : Team → Team) : State := { s with teams := mapMod s.teams t f }
def getLaunch (s : State) (l : Nat) : Launch := mapGetD s.launches l {}
def modLaunch (s : State) (l : Nat) (f : Launch → Launch) : State := { s with launches := mapMod s.launches l f }
def modCtx (s : State) (c : Nat) (f : Context → Context) : State := { s with ctxs := mapMod s.ctxs c f }

/-- A slot of a group. -/
def Group.slot (g : Group) : PSlot → Slot
  | .a => g.a
  | .b => g.b

def Group.setSlot (g : Group) (sl : PSlot) (v : Slot) : Group :=
  match sl with
  | .a => { g with a := v }
  | .b => { g with b := v }

def Group.modSlot (g : Group) (sl : PSlot) (f : Slot → Slot) : Group := g.setSlot sl (f (g.slot sl))

def otherSlot : PSlot → PSlot
  | .a => .b
  | .b => .a

def modSlot (s : State) (g : Nat) (sl : PSlot) (f : Slot → Slot) : State := modGroup s g fun x => x.modSlot sl f

/-- The team, core, launch and context of a group. -/
def teamOf (s : State) (g : Nat) : Team := getTeam s (getGroup s g).team
def coreOf (s : State) (g : Nat) : Nat := (teamOf s g).core
def launchOf (s : State) (g : Nat) : Launch := getLaunch s (teamOf s g).launch
def ctxNumOf (s : State) (g : Nat) : Nat := (launchOf s g).ctx
def ctxOf (s : State) (g : Nat) : Context := getCtx s (ctxNumOf s g)
def lrecOf (s : State) (g : Nat) : LRec := (launchOf s g).lr
def dieOf (s : State) (g : Nat) : Nat := dieOfCore (coreOf s g)

/-- The groups of a team, with their numbers. -/
def groupsOf (s : State) (t : Nat) : List (Nat × Group) := s.groups.filter fun g => g.2.team == t

/-- The teams of a launch, with their numbers. -/
def teamsOf (s : State) (l : Nat) : List (Nat × Team) := s.teams.filter fun t => t.2.launch == l

/-- The timebase that a context reads (R36). -/
def ctxTime (s : State) (x : Context) : Nat := (s.tb + x.tboff) % 2 ^ 64

/-- The ticks since an earlier tick of the 64-bit counter (R36). -/
def elapsed (s : State) (t : Nat) : Nat := if t ≤ s.tb then s.tb - t else s.tb + 2 ^ 64 - t

/-- The core-cycle clock of a quadrant. -/
def quadKey (core quad : Nat) : Nat := core * 4 + quad
def getCyc (s : State) (core quad : Nat) : Nat := mapGetD s.cyc (quadKey core quad) 0
def setCyc (s : State) (core quad c : Nat) : State := { s with cyc := mapPut s.cyc (quadKey core quad) 0 c }
def cycOf (s : State) (g : Nat) : Nat := getCyc s (coreOf s g) (getGroup s g).quad

/-- A fresh identifier. -/
def freshId (s : State) : State × Nat := ({ s with nextId := s.nextId + 1 }, s.nextId)

/-- Send a message to a mailbox (R316): it is judged when it arrives at the mailbox unit. -/
def postMsg (s : State) (mb : Nat) (msg : List Byte) (from_ : Sender) (reply : Reply) : State × Nat :=
  let r := freshId s
  ({ r.1 with posts := r.1.posts ++ [{ id := r.2, mb := mb, msg := sliceBytes msg 0 64, from_ := from_, reply := reply }] }, r.2)

/-- A fault message (R302). -/
def faultBytes (s : State) (x : Context) (va cause access agent level pte : Nat) (tail : List Byte) : List Byte :=
  leBytes 8 va ++ [BitVec.ofNat 8 cause, BitVec.ofNat 8 access, BitVec.ofNat 8 agent, BitVec.ofNat 8 level] ++
    leBytes 4 (ctxWord x) ++ leBytes 8 (ctxTime s x) ++ leBytes 8 pte ++ sliceBytes tail 0 32

/-- The failure is a PAGE or PAGE_LOST, not a PERM (R301). -/
def isPageFail (f : XFail) : Bool := decide (f.cause < 3) || f.cause == 6

/-- An engine's or a walker's access that fails so is reported and waits for a reply: NOTVALID and BADPTE (R301). -/
def waitsReply (f : XFail) : Bool := decide (f.cause < 2)

/-- The page of a fault, as a reply names it: VA[47:17] (R303). -/
def faultPage (va : Nat) : Nat := bits va 47 17

/-- Report a translation failure of a context: one message per outstanding context, cause and page (R302). -/
def raiseFault (s : State) (x : Context) (va : Nat) (f : XFail) (a : Acc) (agent : Nat) : State :=
  if s.faults.any fun o => o.ctx == x.num && o.cause == f.cause && o.page == faultPage va then s
  else
    let s := { s with faults := s.faults ++ [{ ctx := x.num, cause := f.cause, page := faultPage va }] }
    (postMsg s x.fmbox (faultBytes s x va f.cause a.code agent f.level f.pte []) (.ctx x.num) .none).1

/-- A team is asked to stop: the tick of the first request since its slice ran out stands (R329). -/
def Team.asked (x : Team) (tb : Nat) (why : SaveWhy) : Team :=
  { x with preempt := some why, reqTick := if x.preempt.isSome || x.slice then x.reqTick else tb }

/-- Request the pre-emption of a team (R326); a request that it already has stands, but for one of a slice where a real-time
launch now waits on its core (R327). -/
def requestPreempt (s : State) (t : Nat) (why : SaveWhy) : State :=
  modTeam s t fun x => match x.preempt with
    | none => x.asked s.tb why
    | some .sched => if why = .realtime then x.asked s.tb why else x
    | some _ => x

/-- Request that a team be saved in every case; a request of the scheduler's own gives way. -/
def forcePreempt (s : State) (t : Nat) (why : SaveWhy) : State :=
  modTeam s t fun x => match x.preempt with
    | none => x.asked s.tb why
    | some .sched => x.asked s.tb why
    | some .realtime => x.asked s.tb why
    | _ => x

/-- A team that traps PAGE or PAGE_LOST is saved at the faulting chain, whatever else was asked of it, and waits for the
reply on the page (R301, R330). -/
def parkTeam (s : State) (t ctx page : Nat) : State :=
  modTeam (forcePreempt s t (.fault ctx page)) t fun x => { x with flts := setAdd x.flts page }

/-- A scheduling event: Round() is to run once for it (R325). -/
def schedEvent (s : State) : State := { s with events := s.events + 1 }

end Sys2Proof.Machine
end

