-- ==== Sys2Proof/Machine/Trace.lean ====
section
/-! DEFINITION. Branch-and-mask trace: packets, SYNCs, losses (R396 to R403). -/
namespace Sys2Proof.Machine

open Sys2Proof

def slotCode : SlotSt → Nat
  | .free => 0 | .active => 1 | .join => 2 | .miss => 3 | .sleep => 4 | .barwait => 5 | .held => 6

/-- An extended PC: PC[33:2], then PC[47:34] (R397). -/
def extPc (pc : Nat) : List Nat := [bits pc 33 2, bits pc 47 34]

/-- The words of a SYNC that records the slots of `x` (R398). -/
def syncWords (s : State) (g : Nat) (x : Group) (reason mark : Nat) (sl : Option PSlot) : List Nat :=
  let tr := (getGroup s g).trace
  let c := ctxOf s g
  let t := ctxTime s c
  let m (v : Slot) : Nat := if reason = 8 then 0 else v.mask.toNat
  let sw (v : Slot) : List Nat := [bits v.pc 33 2, bits v.pc 47 34 + slotCode v.st * 2 ^ 14 + v.jd % 256 * 2 ^ 17, m v]
  [tr.tid * 8 + reason * 2 ^ 15 + b2n tr.l * 2 ^ 19 + (if sl = some .b then 2 ^ 20 else 0), bits t 31 0, bits t 63 32] ++
    sw x.a ++ sw x.b ++ [mark % 65536 + x.stack.length % 2048 * 65536 + x.idx % 32 * 2 ^ 27, (teamOf s g).index % 2 ^ 24, ctxWord c]

/-- The cluster whose trace bank records a group, if there is one (R393, R403). -/
def traceCluster (s : State) (g : Nat) : Option Nat :=
  let k := clusterOf (coreOf s g)
  let d := (getCluster s k).trace
  if d.en && d.ctx == ctxNumOf s g then some k else none

/-- The length in words of a packet, from its word 0 (R397). -/
def pktLen (w : Nat) : Nat := match w % 8 with
  | 0 => 12
  | 1 => if bit w 17 then 3 else 1
  | 2 => if bit w 17 then 4 else 2
  | 3 => 4
  | 4 => 2
  | 5 => 2
  | _ => 1

def fifoCap : Nat := 16384

/-- Write words to the trace bank of a cluster, with a LOSS first where one is due and both fit (R403; the example of R403 at
tick 1,016 shows the packet alone where it fits without the LOSS, log 20); false when they do not fit. -/
def traceWrite (s : State) (k : Nat) (ws : List Nat) : State × Bool :=
  let c := getCluster s k
  let b := getBank c c.trace.bank
  let due := decide (c.trace.loss ≠ 0) && decide (b.fifo.length + 2 + ws.length ≤ fifoCap)
  let f := if due then b.fifo ++ [BitVec.ofNat 32 5, BitVec.ofNat 32 c.trace.loss] else b.fifo
  let loss := if due then 0 else c.trace.loss
  let fits := decide (f.length + ws.length ≤ fifoCap)
  let f := if fits then f ++ ws.map (BitVec.ofNat 32) else f
  let loss := if fits then loss else if loss < 0xFFFFFFFF then loss + 1 else loss
  (setCluster s k (setBank { c with trace := { c.trace with loss := loss } } c.trace.bank { b with fifo := f }), fits)

/-- A LOSS that is due goes into a bank in which entries have become free (R403). -/
def traceFreed (c : Cluster) : Cluster :=
  let b := getBank c c.trace.bank
  if c.trace.loss = 0 ∨ fifoCap < b.fifo.length + 2 then c
  else setBank { c with trace := { c.trace with loss := 0 } } c.trace.bank
    { b with fifo := b.fifo ++ [BitVec.ofNat 32 5, BitVec.ofNat 32 c.trace.loss] }

/-- The context has a trace bank, on whichever cluster (R220, R393). -/
def hasTraceBank (s : State) (ctx : Nat) : Bool := s.clusters.any fun k => k.2.trace.held && k.2.trace.ctx == ctx

/-- Change the trace state of a group. -/
def modTrace (s : State) (g : Nat) (f : GTrace → GTrace) : State := modGroup s g fun x => { x with trace := f x.trace }

/-- Emit a SYNC of a traced group that records the slots of `x` (R398). -/
def emitSyncOf (x : Group) (s : State) (g : Nat) (reason mark : Nat) (sl : Option PSlot) : State :=
  if !(getGroup s g).trace.on then s
  else
    let now := ctxTime s (ctxOf s g)
    match traceCluster s g with
    | none => modTrace s g fun t => { t with l := true }
    | some k =>
      let r := traceWrite s k (syncWords s g x reason mark sl)
      modTrace r.1 g fun t => { t with ns := 0, last := now, l := !r.2 }

/-- Emit a SYNC of the group's state now. -/
def emitSync (s : State) (g : Nat) (reason mark : Nat) (sl : Option PSlot) : State := emitSyncOf (getGroup s g) s g reason mark sl

/-- Emit a packet of a traced group, with the SYNC that must come before it: that SYNC records `x`, the group before the
packet's event, from which a decoder walks to the event; `ss` is the slot of the chain that emits (R397, R398, R403, R406). -/
def emitPkt (x : Group) (s : State) (g : Nat) (ss : Option PSlot) (type flags : Nat) (ws : List Nat) : State :=
  if !(getGroup s g).trace.on then s
  else match traceCluster s g with
    | none => modTrace s g fun t => { t with l := true }
    | some k =>
      let now := ctxTime s (ctxOf s g)
      let t := (getGroup s g).trace
      let s :=
        if t.l then s
        else if t.ns = 255 then emitSyncOf x s g 0 0 ss
        else if 4095 < now - t.last then emitSyncOf x s g 5 0 ss else s
      let t := (getGroup s g).trace
      let w0 (last : Nat) : Nat := type + t.tid * 8 + flags * 2 ^ 15 + (now - last) * 2 ^ 20
      if t.l then
        let sync := syncWords s g x 0 0 ss
        let r := traceWrite s k (sync ++ w0 now :: ws)
        if r.2 then modTrace r.1 g fun t => { t with ns := 1, last := now, l := false } else r.1
      else
        let r := traceWrite s k (w0 t.last :: ws)
        if r.2 then modTrace r.1 g fun t => { t with ns := t.ns + 1, last := now } else modTrace r.1 g fun t => { t with l := true }

def slotBit (sl : PSlot) : Nat := if sl = .b then 1 else 0

/-- BR packets: an agreed conditional branch, and an agreed indirect transfer (R399). -/
def emitBr (x : Group) (s : State) (g : Nat) (sl : PSlot) (taken : Bool) : State := emitPkt x s g (some sl) 1 (slotBit sl + 2 * b2n taken) []
def emitBrX (x : Group) (s : State) (g : Nat) (sl : PSlot) (target : Nat) : State := emitPkt x s g (some sl) 1 (slotBit sl + 2 + 4) (extPc target)

/-- DIV packets (R400). -/
def emitDiv (x : Group) (s : State) (g : Nat) (sl : PSlot) (pushed miss : Bool) (moved : Mask) (xpc : Option Nat) : State :=
  emitPkt x s g (some sl) 2 (slotBit sl + 2 * b2n pushed + 4 * b2n xpc.isSome + 8 * b2n miss)
    (moved.toNat :: (match xpc with
      | some pc => extPc pc
      | none => []))

/-- JOIN packets (R401): `ss` is the slot of the chain after which the rule applies, none after any other event (R398). -/
def emitJoin (x : Group) (s : State) (g : Nat) (ss : Option PSlot) (sl : PSlot) (rule : Nat) : State :=
  let v := (getGroup s g).slot sl
  emitPkt x s g ss 3 (slotBit sl + 2 * rule) (v.mask.toNat :: extPc v.pc)

/-- EXIT packets (R402). -/
def emitExit (x : Group) (s : State) (g : Nat) (sl : PSlot) (left : Mask) : State := emitPkt x s g (some sl) 4 (slotBit sl) [left.toNat]

end Sys2Proof.Machine
end

