-- ==== Sys2Proof/Machine/Operands.lean ====
section
/-! DEFINITION. Operand forms: register units, their producers and marks, source operands in 32-bit and 64-bit
positions, and the writing of results (R15 to R17, R56, R59, R61 to R63, R82, R145). -/
namespace Sys2Proof.Machine

open Sys2Proof

/-- The unit of vector register `r` of lane `L`. -/
def vunit (r L : Nat) : Nat := r * 32 + L

/-- What a chain knows at issue (R56): its group as it stood, the issuing slot, the word's active lanes and the slot's
lanes, the chain address, the word's own address and packet slot, the next chain's address, and the issue cycle. -/
structure Ctx where
  gid  : Nat := 0
  sl   : PSlot := .a
  g    : Group := {}
  act  : Mask := 0
  mask : Mask := 0
  pc   : Nat := 0
  wpc  : Nat := 0
  next : Nat := 0
  ps   : Nat := 1
  cyc  : Nat := 0
  k    : Nat := 0
  /-- the chain holds a C-pipe word -/
  ctl  : Bool := false
  deriving DecidableEq, Repr

/-- The latest issued operation whose result for a unit is not yet written (R61). -/
def pendingFor (g : Group) (u : Nat) : Option Op := g.ops.reverse.find? fun o => o.units.contains u

/-- A unit's producer is incomplete (R61). -/
def incomplete (g : Group) (u : Nat) : Bool := g.ops.any fun o => o.units.contains u

/-- The value that a read of a unit returns: while its producer is incomplete, the old value or the producer's result
(R63); `k` numbers the read. Where two producers of the unit are incomplete, R63 does not say whether the value before the later one
is the register's present content or the earlier one's result: it is the present content here (DESIGN CHOICE, log 18). -/
def readUnit (g : Group) (k u : Nat) : Word :=
  let old := mapGetD g.regs u 0
  match pendingFor g u with
  | none => old
  | some o => match o.vals.find? fun v => v.1 == u with
    | some v => if Config.racePick k u then v.2.1 else old
    | none => old

/-- V(r, L) as a chain reads it. -/
def Ctx.v (c : Ctx) (r L : Nat) : Nat := (readUnit c.g c.k (vunit r L)).toNat

/-- V(r:r+1, L). -/
def Ctx.v64 (c : Ctx) (r L : Nat) : Nat := c.v r L + 2 ^ 32 * c.v (r + 1) L

/-- A source operand in a 32-bit position (R17, R82). -/
def Ctx.get32 (c : Ctx) (a : Src) (L : Nat) : Nat :=
  match a with
  | .reg n => c.v n L
  | .lit x => x % 2 ^ 32
  | .zero => 0
  | .one => 1
  | .ones => 0xFFFFFFFF
  | .lane => L
  | .grp => c.g.idx % 2 ^ 32
  | .fone => 0x3F800000

/-- A source operand in a 64-bit position (R17, R82). -/
def Ctx.get64 (c : Ctx) (a : Src) (L : Nat) : Nat :=
  match a with
  | .reg n => c.v64 n L
  | .lit x => wrapN (sext x 32) 64
  | .ones => 0xFFFFFFFFFFFFFFFF
  | a => c.get32 a L

/-- The registers that a source operand reads. -/
def srcRegs : Src → List Nat
  | .reg n => [n]
  | _ => []

def srcRegs64 : Src → List Nat
  | .reg n => [n, n + 1]
  | _ => []

/-- The active lanes of a word. -/
def Ctx.lanes (c : Ctx) : List Nat := lanesOf c.act

/-- The leader lane, or lane 0 where there is none. -/
def Ctx.lead (c : Ctx) : Nat := (leaderOf c.act).getD 0

/-! ### Writing registers -/

/-- Write a whole unit: its value and its poison mark (R145). -/
def Group.put (g : Group) (u : Nat) (v : Word) (p : Bool) : Group :=
  { g with regs := mapPut g.regs u 0 v, marks := setPut g.marks u p }

/-- What the write of unit `u` by operation `id` does to another pending operation that writes it too (R63): an earlier
one still writes it or is lost, a later one may be lost. -/
def contend (k id u : Nat) (o : Op) : Op :=
  if o.units.contains u then
    if o.id < id then { o with units := o.units.erase u, clash := if Config.racePick k u then u :: o.clash else o.clash }
    else if Config.racePick k u then { o with drop := u :: o.drop } else o
  else o

/-- Write a unit as the result of operation `id`. -/
def Group.putResult (g : Group) (k id u : Nat) (v : Word) (p : Bool) : Group :=
  { (g.put u v p) with ops := g.ops.map (contend k id u) }

/-- The units that an operation still writes. -/
def Op.wanted (o : Op) (u : Nat) : Bool := (o.units.contains u && !o.drop.contains u) || o.clash.contains u

/-- Write the values of an operation into the registers. -/
def Group.putVals (g : Group) (k : Nat) (o : Op) (vals : List (Nat × Word × Bool)) : Group :=
  vals.foldl (fun g v => if o.wanted v.1 then g.putResult k o.id v.1 v.2.1 v.2.2 else g) g

/-- Remove an operation from the list. -/
def Group.dropOp (g : Group) (id : Nat) : Group := { g with ops := g.ops.filter fun o => o.id != id }

/-- An operation of a group. -/
def Group.op? (g : Group) (id : Nat) : Option Op := g.ops.find? fun o => o.id == id

/-- Change an operation of a group. -/
def Group.modOp (g : Group) (id : Nat) (f : Op → Op) : Group :=
  { g with ops := g.ops.map fun o => if o.id == id then f o else o }

/-- The path of a slot, and of an entry of the divergence stack, numbered from the bottom (R240). -/
def slotKey : PSlot → Nat
  | .a => 0
  | .b => 1

/-- The paths of a group other than a slot's own. -/
def Group.otherPaths (g : Group) (sl : PSlot) : List Nat :=
  (if (g.slot (otherSlot sl)).st = .free then [] else [slotKey (otherSlot sl)]) ++ (List.range g.stack.length).map (2 + ·)

/-- The outstanding operations that do not precede a slot's next chain in its path order (R240). -/
def Group.apartOf (g : Group) (sl : PSlot) : List Nat := (g.ops.filter (·.skips.contains (slotKey sl))).map (·.id)

/-- An operation as it joins the list: a memory access stands in the order of its own path alone (R240). -/
def Group.newOp (g : Group) (o : Op) : Op :=
  if o.pipe = 2 then { o with id := g.nextOp, skips := g.otherPaths o.slot, apart := g.apartOf o.slot } else { o with id := g.nextOp }

/-- Add an operation in issue order. -/
def Group.addOp (g : Group) (o : Op) : Group := { g with ops := g.ops ++ [g.newOp o], nextOp := g.nextOp + 1 }

/-- Change what every outstanding operation knows of the paths. -/
def Group.modSkips (g : Group) (f : List Nat → List Nat) : Group := { g with ops := g.ops.map fun o => { o with skips := f o.skips } }

/-- Path `q` splits off path `p` with the same path order (R240). -/
def forkPath (p q : Nat) (ks : List Nat) : List Nat := if ks.contains p then setAdd ks q else ks.filter (· != q)

/-- Path `p` is now path `q`. -/
def movePath (p q : Nat) (ks : List Nat) : List Nat := (ks.filter (· != q)).map fun k => if k = p then q else k

/-- Paths `p` and `q` are exchanged. -/
def swapPath (p q : Nat) (ks : List Nat) : List Nat := ks.map fun k => if k = p then q else if k = q then p else k

/-- Path `q` merges into path `p`: what either issued precedes what the merged path issues (R240). -/
def joinPath (p q : Nat) (ks : List Nat) : List Nat := (if ks.contains q then ks else ks.filter (· != p)).filter (· != q)

/-- Write the results of an operation, which then leaves the list. -/
def Group.landOp (g : Group) (k : Nat) (o : Op) : Group := (g.dropOp o.id).putVals k o o.vals

/-- Write the V-pipe results that are due: a chain that issues in cycle t + 4 or later reads them (R59). -/
def Group.landV (g : Group) (k cyc : Nat) : Group :=
  (g.ops.filter fun o => o.pipe == 0 && decide (o.due < cyc)).foldl (fun g o => match g.op? o.id with
    | some o => g.landOp k o
    | none => g) g

/-- The values of one result register per active lane. -/
def Ctx.out32 (c : Ctx) (d : Nat) (f : Nat → Nat) : List (Nat × Word × Bool) :=
  c.lanes.map fun L => (vunit d L, BitVec.ofNat 32 (f L), false)

/-- The values of a result pair per active lane. -/
def Ctx.out64 (c : Ctx) (d : Nat) (f : Nat → Nat) : List (Nat × Word × Bool) :=
  c.lanes.flatMap fun L => [(vunit d L, BitVec.ofNat 32 (f L), false), (vunit (d + 1) L, BitVec.ofNat 32 (f L / 2 ^ 32), false)]

/-- Issue a V-pipe result, written at the end of cycle t + 3 (R59). -/
def putV (c : Ctx) (vals : List (Nat × Word × Bool)) (s : State) : State :=
  modGroup s c.gid fun g => g.addOp
    { id := 0, pipe := 0, slot := c.sl, kind := .result, due := c.cyc + 3, units := vals.map (·.1), vals := vals }

/-- Issue an S-pipe result, which counts on f11 until it is written (R59). -/
def putS (c : Ctx) (vals : List (Nat × Word × Bool)) (s : State) : State :=
  modGroup s c.gid fun g => g.addOp
    { id := 0, pipe := 1, slot := c.sl, kind := .result, flag := some 11, units := vals.map (·.1), vals := vals }

/-- Issue an L-pipe operation. With f = 15 and register results for an active lane, the path waits for it (R59). -/
def putL (c : Ctx) (f : Option Nat) (kind : OpKind) (units : List Nat) (vals : List (Nat × Word × Bool)) (s : State) : State :=
  modGroup s c.gid fun g =>
    let id := g.nextOp
    let g := g.addOp { id := 0, pipe := 2, slot := c.sl, kind := kind, flag := f, units := units, vals := vals }
    if f.isNone && !units.isEmpty then g.modSlot c.sl fun v => { v with waits := v.waits ++ [.op id] } else g

/-- The operation just issued writes registers from d. -/
def withDst (c : Ctx) (d : Nat) (s : State) : State :=
  modGroup s c.gid fun g => g.modOp (g.nextOp - 1) fun o => { o with dst := d }

/-- Register results of an L-pipe word whose values are fixed at issue. -/
def putLres (c : Ctx) (f : Option Nat) (vals : List (Nat × Word × Bool)) (s : State) : State :=
  putL c f .result (vals.map (·.1)) vals s

/-- Write registers within the issue cycle. -/
def putNow (c : Ctx) (vals : List (Nat × Word × Bool)) (s : State) : State :=
  modGroup s c.gid fun g => vals.foldl (fun g v => g.putResult c.k g.nextOp v.1 v.2.1 v.2.2) g

end Sys2Proof.Machine
end

