-- ==== Sys2Proof/Machine/Flags.lean ====
section
/-! DEFINITION. Completion flags, engine counters and STICKY: each counts what is outstanding (R31, R32, R37, R60,
R170). -/
namespace Sys2Proof.Machine

open Sys2Proof

/-- Completion flag f of a group: the outstanding operations that name it (R31). -/
def flagCount (g : Group) (f : Nat) : Nat := (g.ops.filter fun o => o.flag == some f && !o.done).length

/-- The units of unexecuted matrix words, one per batch or single word (R170). -/
def matrixUnits (g : Group) : List Nat := dedupN (g.mq.map (·.unit))

/-- An engine-class counter (R32): operations of the class that have not left the list. -/
def counter (g : Group) (c : EngClass) : Nat :=
  match c with
  | .matrix => (matrixUnits g).length
  | c => (g.ops.filter fun o => o.cls == some c).length

/-- Completed operations leave a class in issue order (R32, R204). -/
def retireCls : List Op → List EngClass → List Op
  | [], _ => []
  | o :: r, open_ => match o.cls with
    | none => o :: retireCls r open_
    | some c => if o.done && !open_.contains c then retireCls r open_ else o :: retireCls r (c :: open_)

/-- An engine operation completes: its flag falls, and its counter in issue order (R32, R204). -/
def Group.finishOp (g : Group) (id : Nat) : Group :=
  { g with ops := retireCls (g.ops.map fun o => if o.id == id then { o with done := true, units := [], vals := [], clash := [] } else o) [] }

/-- SREG FLGLO: f0 to f9, three bits each (R37). -/
def flgLo (g : Group) : Nat := (List.range 10).foldl (fun a i => a + flagCount g i % 8 * 2 ^ (3 * i)) 0

/-- SREG FLGHI: f10 and f11 (R37). -/
def flgHi (g : Group) : Nat := flagCount g 10 % 8 + flagCount g 11 % 8 * 8

/-- SREG ENGC: the engine counters (R37). -/
def engCounters (g : Group) : Nat :=
  counter g .copy % 64 + counter g .matrix % 64 * 2 ^ 6 + counter g .ray % 64 * 2 ^ 12 + counter g .build % 64 * 2 ^ 18 +
    counter g .link % 64 * 2 ^ 24

/-- Every completion flag is zero. -/
def flagsZero (g : Group) : Bool := !(g.ops.any fun o => o.flag.isSome && !o.done)

end Sys2Proof.Machine
end

