-- ==== Sys2Proof/Machine/Diverge.lean ====
section
/-! DEFINITION. The divergence stack and the rules that move lanes between slots (R23 to R28, R102, R312). -/
namespace Sys2Proof.Machine

open Sys2Proof

/-! ### Control word fields (R46) -/

def cwLit (w k : Nat) : Bool := if k = 2 then bit w 6 else if k = 3 then bit w 7 else false
def cwStall (w k : Nat) : Nat := if k = 1 then bits w 10 8 else if k = 2 then bits w 13 11 else if k = 3 then bits w 16 14 else 0
def cwMark (w k : Nat) : Bool := if k = 1 then bit w 17 else if k = 2 then bit w 18 else if k = 3 then bit w 19 else false
def cwWait (w i : Nat) : Bool := bit w (20 + i)

/-- The packet slot of a PC. -/
def pcSlot (pc : Nat) : Nat := pc / 4 % 4

/-- The address of the first instruction word after packet slot k of the packet at `base`, under control word w (R44). -/
def nextWord (w base k : Nat) : Nat :=
  if k < 2 ∧ !cwLit w 2 then base + 8
  else if k < 3 ∧ !cwLit w 3 then base + 12
  else base + 20

/-- The chain after a chain at `pc` whose last word is in packet slot k. -/
def nextChain (w pc k : Nat) : Nat := nextWord w (pc - pc % 16) k

/-- The instruction word after the one in slot k of a packet. -/
def followWord (cw k : Nat) : Option Nat :=
  if k = 1 then (if !cwLit cw 2 then some 2 else if !cwLit cw 3 then some 3 else none)
  else if k = 2 then (if !cwLit cw 3 then some 3 else none) else none

/-- The slots of the chain that starts in slot k (R54). -/
def chainSlots (cw : Nat) (ws : Nat → Nat) : Nat → Nat → List Nat
  | 0, _ => []
  | n + 1, k => k :: if bit (ws k) 31 then match followWord cw k with
      | some j => chainSlots cw ws n j
      | none => []
    else []

/-- The chain after the chain at `pc` of a packet with the given words. -/
def chainAfter (ws : Nat → Nat) (pc : Nat) : Nat :=
  nextChain (ws 0) pc ((chainSlots (ws 0) ws 3 (pcSlot pc)).getLast?.getD 1)

/-! ### Waits of a slot -/

/-- A wait that parks its slot in SLEEP. -/
def Wait.sleeps : Wait → Bool
  | .cycle _ => true
  | .time _ => true
  | .buffer _ _ _ => true
  | _ => false

/-- A wait at a barrier. -/
def Wait.bars : Wait → Bool
  | .barrier _ _ _ _ _ => true
  | _ => false

/-- A wait for registers that an operation has yet to write (R59). -/
def Wait.isOp : Wait → Bool
  | .op _ => true
  | _ => false

/-- The state of a slot that is parked by what it waits for, else ACTIVE. -/
def parkedSt (ws : List Wait) : SlotSt := if ws.any Wait.bars then .barwait else if ws.any Wait.sleeps then .sleep else .active

/-- A parked slot's condition has come about (R30): the waits that `p` names end, and the slot becomes ACTIVE, or, while
HELD, will return ACTIVE. What else blocks the path blocks it still (R59). -/
def Slot.wake (p : Wait → Bool) (v : Slot) : Slot :=
  let v := { v with waits := v.waits.filter fun w => !p w }
  if v.st = .held then { v with prior := if v.prior = .join then .join else parkedSt v.waits }
  else { v with st := if v.st = .join then .join else parkedSt v.waits }

/-! ### Stack entries -/

/-- The bytes of a divergence-stack entry (R24). -/
def dentryBytes (e : DEntry) : List Byte :=
  leBytes 16 (e.mask.toNat + bits e.pc 47 2 * 2 ^ 32 + bits e.ja 47 6 * 2 ^ 78 + e.jd % 256 * 2 ^ 120)

/-- The entry that 16 bytes hold. A join address is a fetch-block address plus 4 (R19) wherever a SPLIT is open; at depth 0
JA holds no join (R41), and the block address is taken as it stands (DEDUCED, log 83). -/
def dentryOf (bs : List Byte) : DEntry :=
  let v := fieldAt bs 0 16
  let jd := bits v 127 120
  { mask := BitVec.ofNat 32 (bits v 31 0), pc := bits v 77 32 * 4, ja := bits v 119 78 * 64 + (if jd = 0 then 0 else 4), jd := jd }

/-- Groups per team: EXT of level 1, or 1 (R309). -/
def LRec.groups (r : LRec) : Nat := match r.levels with
  | l :: _ => l.ext
  | [] => 1

/-- The virtual address of entry `i` of a group's stack (R312). -/
def stackVa (s : State) (g : Nat) (i : Nat) : Nat :=
  let r := lrecOf s g
  r.dsbase + (((teamOf s g).index * r.groups + (getGroup s g).idx) * r.d + i) * 16

/-- Write an entry to memory through the home L2 (R25). -/
def stackStore (s : State) (g i : Nat) (e : DEntry) : State :=
  let pas := rangePas s (coreOf s g) (ctxOf s g) (stackVa s g i) 16 .write
  engPut s (pas.zip (dentryBytes e))

/-- The entry that a reload takes: what the core pushed, or what a program stored in its place (R25). Where the memory
holds the bytes that the core pushed, it is the pushed value, whole. -/
def stackLook (s : State) (g i : Nat) (e : DEntry) : DEntry :=
  let pas := rangePas s (coreOf s g) (ctxOf s g) (stackVa s g i) 16 .read
  let m := pas.map (engByte s)
  if m == dentryBytes e then e else if Config.stackPick (s.fresh + i) then { dentryOf m with waits := e.waits } else e

/-- Push an entry (R24, R25). -/
def pushEntry (s : State) (g : Nat) (e : DEntry) : State :=
  stackStore (modGroup s g fun x => { x with stack := e :: x.stack }) g (getGroup s g).stack.length e

/-- The slot holds a path: it is not FREE and holds lanes. -/
def Slot.holds (v : Slot) : Bool := v.st != .free && v.mask != 0

/-- The slot stands in a state in which rule 1 merges it; a slot parked by CKPT, MBPOST or EMULATE does not stand at a
chain that it may issue. -/
def Slot.mergeable (v : Slot) : Bool :=
  (v.st == .active || v.st == .join || v.st == .barwait) && v.pn == 0 && !(v.waits.any fun w => match w with
    | .ckpt _ _ _ => true
    | .post _ _ => true
    | .emulate => true
    | _ => false)

/-- The waits of two paths that merge: barrier waits that differ only in their lanes become one (R161, R163). -/
def joinWait (ws : List Wait) (w : Wait) : List Wait :=
  if ws.contains w then ws
  else match w with
    | .barrier b p d ls acq =>
      if ws.any (fun x => match x with
          | .barrier b' p' d' _ a' => b' == b && p' == p && d' == d && a' == acq
          | _ => false) then
        ws.map fun x => match x with
          | .barrier b' p' d' ls' a' => if b' = b ∧ p' = p ∧ d' = d ∧ a' = acq then .barrier b' p' d' (ls' ||| ls) a' else x
          | x => x
      else ws ++ [w]
    | w => ws ++ [w]

/-- Rule 1: slot B merges into slot A (R26). -/
def ruleMerge (g : Group) : Option Group :=
  if g.a.mergeable && g.b.mergeable && g.a.st == g.b.st && g.a.pc == g.b.pc && g.a.ja == g.b.ja && g.a.jd == g.b.jd then
    some ({ g with
      a := { g.a with mask := g.a.mask ||| g.b.mask, n := if g.a.n < g.b.n then g.b.n else g.a.n, waits := g.b.waits.foldl joinWait g.a.waits,
                        seen := (0, []) }
      b := {} }.modSkips (joinPath 0 1))
  else none

/-- The slot that a path entry makes on reload (R26 rule 3, R58); what blocked the path blocks it still (R59). -/
def slotOfEntry (e : DEntry) : Slot := { pc := e.pc, mask := e.mask, st := .active, ja := e.ja, jd := e.jd, waits := e.waits }

/-- Rules 4 to 6 for a JOIN slot, its sibling and the top of the stack: the new slot, the new stack and the rule (R26). A slot that
came out of an image completes its join once it has found the chain after it (log 60). -/
def ruleJoin (v o : Slot) (top : DEntry) (rest : List DEntry) : Option (Slot × List DEntry × Nat) :=
  if v.st != .join then none
  else if top.mask ≠ 0 then
    if top.pc = v.pc ∧ top.ja = v.ja ∧ top.jd = v.jd then
      some ({ v with mask := v.mask ||| top.mask, waits := top.waits.foldl joinWait v.waits }, rest, 4)
    else if v.jd ≤ top.jd ∧ o.st ≠ .free ∧ o.jd < v.jd then
      some ({ slotOfEntry top with n := 0 }, { mask := v.mask, pc := v.pc, ja := v.ja, jd := v.jd, waits := v.waits } :: rest, 5)
    else none
  else if (o.st = .free ∨ o.jd < v.jd) ∧ v.jnext ≠ 0 then
    some ({ v with ja := top.ja, jd := top.jd, pc := v.jnext, st := .active }, rest, 6)
  else none

/-- How rules 4 and 5 carry the path order of a slot and of the entry at position i (R240). -/
def joinSkips (g : Group) (r i : Nat) (sl : PSlot) : Group :=
  if r = 4 then g.modSkips (joinPath (slotKey sl) (2 + i)) else if r = 5 then g.modSkips (swapPath (slotKey sl) (2 + i)) else g

/-- One rule of R26, the first that applies; `look` gives the entry on top as a reload would take it. The answer names
the rule and the slot that it leaves holding a path. Where both slots are FREE rule 3 says which not: slot A takes the entry
(DESIGN CHOICE, log 103). -/
def ruleStep (look : Nat → DEntry → DEntry) (g : Group) : Option (Group × Nat × PSlot) :=
  match ruleMerge g with
  | some g' => some (g', 1, .a)
  | none => match g.stack with
    | [] => none
    | e :: rest =>
      let top := look rest.length e
      if top.mask = 0 ∧ !(g.a.holds && decide (top.jd < g.a.jd)) ∧ !(g.b.holds && decide (top.jd < g.b.jd)) then
        some ({ g with stack := rest }, 2, .a)
      else if top.mask ≠ 0 ∧ g.a.st = .free then some ({ g with a := slotOfEntry top, stack := rest }.modSkips (movePath (2 + rest.length) 0), 3, .a)
      else if top.mask ≠ 0 ∧ g.b.st = .free then
        some ({ g with b := slotOfEntry top, stack := rest }.modSkips (movePath (2 + rest.length) 1), 3, .b)
      else match ruleJoin g.a g.b top rest with
        | some r => some (joinSkips { g with a := r.1, stack := r.2.1 } r.2.2 rest.length .a, r.2.2, .a)
        | none => match ruleJoin g.b g.a top rest with
          | some r => some (joinSkips { g with b := r.1, stack := r.2.1 } r.2.2 rest.length .b, r.2.2, .b)
          | none => none

/-- A bound on the rules that can apply one after another. -/
def ruleFuel (g : Group) : Nat := 2 * g.stack.length + 8

/-- The stack entries that the rules will read (false) or write (true). -/
def rulesTouch (look : Nat → DEntry → DEntry) : Nat → Group → List (Nat × Bool)
  | 0, _ => []
  | n + 1, g => match ruleStep look g with
    | none => []
    | some (g', r, _) =>
      (if r = 3 ∨ r = 4 then [(g.stack.length - 1, false)]
       else if r = 5 then [(g.stack.length - 1, false), (g.stack.length - 1, true)] else []) ++ rulesTouch look n g'

/-- Apply the rules until none applies, with their stack accesses and JOIN packets (R26, R401); `ss` is the slot of the chain that
they follow. -/
def applyRulesN (ss : Option PSlot) : Nat → State → Nat → State
  | 0, s, _ => s
  | n + 1, s, g => match ruleStep (stackLook s g) (getGroup s g) with
    | none => s
    | some (g', r, sl) =>
      let x := getGroup s g
      let s := bump (setGroup s g g')
      let s := match r, g'.stack with
        | 5, e :: rest => stackStore s g rest.length e
        | _, _ => s
      applyRulesN ss n (if r = 2 then s else emitJoin x s g ss sl r) g

/-- The first failing translation among stack accesses of a group. -/
def stackFail (s : State) (g : Nat) (ts : List (Nat × Bool)) : Option (Nat × XFail × Acc) :=
  firstSome (fun t =>
    let a : Acc := if t.2 then .write else .read
    (rangeFail s (coreOf s g) (ctxOf s g) (stackVa s g t.1) 16 a).map fun f => (f.1, f.2, a)) ts

/-- Fill the translations of stack accesses. -/
def stackFill (s : State) (g : Nat) (ts : List (Nat × Bool)) : State :=
  ts.foldl (fun s t => fillRange s (coreOf s g) (ctxOf s g) (stackVa s g t.1) 16 (if t.2 then .write else .read)) s

/-- Apply the rules after a chain of slot `ss`, or after another state change of a slot. Where a stack access faults, the rules
wait for the fault's reply: the team is saved, as a team that traps PAGE (R301, R312). -/
def applyRules (s : State) (g : Nat) (ss : Option PSlot := none) : State :=
  let x := getGroup s g
  let ts := rulesTouch (stackLook s g) (ruleFuel x) x
  let s := stackFill s g ts
  match stackFail s g ts with
  | none => applyRulesN ss (ruleFuel x) s g
  | some (va, f, a) =>
    parkTeam (raiseFault s (ctxOf s g) va f a (dieOf s g)) x.team (ctxNumOf s g) (faultPage va)

/-- A slot that stands in JOIN, or did before its group entered a handler, and came out of an image: the chain after its JOIN chain
is not known yet (R360). -/
def Slot.lacksNext (v : Slot) : Bool := (v.st == .join || (v.st == .held && v.prior == .join)) && v.jnext == 0

/-- Such a slot finds the chain after its JOIN chain in the code at its PC, where that can be read (log 60). -/
def joinNext (s : State) (x : Context) (v : Slot) : Slot :=
  if !v.lacksNext then v
  else match engXlate s x (v.pc - v.pc % 16) .fetch with
    | .ok pa => { v with jnext := chainAfter (fun k => leValue (engBytes s (pa + 4 * k) 4)) v.pc }
    | .error _ => v

/-- What a restore makes of a group: the rules apply to what its save and its image changed of its slots (R26). Where the code at a
JOIN slot cannot be read, the team waits for that page first (R301, log 60). -/
def resumeRules (s : State) (g : Nat) : State :=
  let x := ctxOf s g
  let s := modGroup s g fun y => (y.modSlot .a (joinNext s x)).modSlot .b (joinNext s x)
  let fail := (([(getGroup s g).a, (getGroup s g).b]).filter Slot.lacksNext).findSome? fun v =>
    match engXlate s x (v.pc - v.pc % 16) .fetch with
    | .ok _ => none
    | .error f => some (v.pc, f)
  match fail with
  | none => applyRules s g
  | some (va, f) => parkTeam (raiseFault s x va f .fetch (dieOf s g)) (getGroup s g).team x.num (faultPage va)

/-- What an earlier word of a chain made its path wait for and both halves of a split path wait for: an operation's
registers, a fence, CKPT and MBPOST (R59, R156, R216, R217). A barrier wait stays with the slot that it parked (R102). -/
def sharedWaits (ws : List Wait) : List Wait := ws.filter fun w => match w with
  | .barrier _ _ _ _ _ => false
  | _ => true

/-- The path that a slot's moved lanes form stands in the slot's path order so far (R240). -/
def forkSlot (s : State) (gid : Nat) (sl : PSlot) (q : Nat) : State := modGroup s gid fun g => g.modSkips (forkPath (slotKey sl) q)

/-- Split the lanes of a slot (R102): the kept lanes stay, the moved lanes take the other slot, ACTIVE, or the stack. Both
inherit the path order (R240). -/
def diverge (c : Ctx) (keep : Mask) (keepPC : Nat) (move : Mask) (movePC : Nat) (s : State) : State :=
  let g := getGroup s c.gid
  let v := g.slot c.sl
  let s := if (g.slot (otherSlot c.sl)).st = .free then
      modSlot (forkSlot s c.gid c.sl (slotKey (otherSlot c.sl))) c.gid (otherSlot c.sl) fun _ =>
        { pc := movePC, mask := move, st := .active, ja := v.ja, jd := v.jd, waits := sharedWaits v.waits }
    else pushEntry (forkSlot s c.gid c.sl (2 + g.stack.length)) c.gid { mask := move, pc := movePC, ja := v.ja, jd := v.jd, waits := sharedWaits v.waits }
  modSlot s c.gid c.sl fun v => { v with mask := keep, pc := keepPC }

end Sys2Proof.Machine
end

