-- ==== Sys2Proof/Machine/Place.lean ====
section
/-! DEFINITION. Launch levels, placement and the fit of teams (R309 to R311, R314, R319 to R322, R331, R40). -/
namespace Sys2Proof.Machine

open Sys2Proof

/-! ### Levels -/

/-- EXT of level k. -/
def LRec.ext (r : LRec) (k : Nat) : Nat := ((r.levels[k - 1]?).map (·.ext)).getD 1

/-- The highest declared level, at least 1. -/
def LRec.top (r : LRec) : Nat := if r.levels.length = 0 then 1 else r.levels.length

/-- Teams of one level-k unit: the product of EXT over levels 2 to k (R309). -/
def LRec.unit (r : LRec) (k : Nat) : Nat := ((r.levels.take k).drop 1).foldl (fun n l => n * l.ext) 1

/-- The team count T of a launch (R309). -/
def LRec.teams (r : LRec) : Nat := r.unit r.top

/-- The level coordinate x_k of a team index, k from 2 (R310). -/
def LRec.coord (r : LRec) (k idx : Nat) : Nat := idx / r.unit (k - 1) % r.ext k

/-- The levels k from 2 with a property of their descriptor. -/
def LRec.levelsWith (r : LRec) (p : Level → Bool) : List Nat :=
  (List.range (r.top + 1)).filter fun k => decide (2 ≤ k) && ((r.levels[k - 1]?).map p).getD false

/-- The sharing level: the highest level whose SCOPE is CORE or CLUSTER (R311). -/
def LRec.sharing (r : LRec) : Option Nat := (r.levelsWith fun l => l.scope == 2 || l.scope == 3).getLast?

/-- The level whose units are gangs: the sharing level, or a wider one bound to DOM CORE (R311); 1 when there is none. -/
def LRec.gangLevel (r : LRec) : Nat :=
  let c := ((r.levelsWith fun l => l.dom == 2).getLast?).getD 1
  let s := r.sharing.getD 1
  if c < s then s else c

/-- The lowest-indexed team of the level-k unit of a team. -/
def LRec.unitBase (r : LRec) (k idx : Nat) : Nat := idx / r.unit k * r.unit k

/-- The live lanes of group g of team idx (R310). -/
def LRec.liveMask (r : LRec) (idx g : Nat) : Mask :=
  maskOf fun L => r.lext == 0 || decide ((idx * r.groups + g) * 32 + L < r.lext)

/-- The groups of a team that have a live lane (R310). -/
def LRec.liveGroups (r : LRec) (idx : Nat) : List Nat := (List.range r.groups).filter fun g => r.liveMask idx g != 0

/-! ### Home cluster (R319, R320) -/

def multipliers : List Nat := [0x9E3779B1, 0x85EBCA77, 0xC2B2AE3D, 0x27D4EB2F, 0x165667B1, 0xD3A2646D]

/-- The hash cluster of a team. -/
def LRec.hash (r : LRec) (idx : Nat) : Nat :=
  ((List.range 6).foldl (fun h i =>
    let k := i + 2
    if k ≤ r.top then h + r.coord k idx / 2 ^ (((r.levels[k - 1]?).map (·.shift)).getD 0) * multipliers.getD i 0 else h) 0)
    % 2 ^ 32 / 2 ^ 27

/-- The home cluster of a team. -/
def LRec.home (r : LRec) (idx : Nat) : Nat :=
  match (r.levelsWith fun l => l.dom == 3 || l.dom == 4).head? with
  | none => r.hash idx
  | some k =>
    let h := r.hash (r.unitBase k idx)
    if (((r.levels[k - 1]?).map (·.dom)).getD 0) = 3 then h else h / 8 * 8 + r.hash idx % 8

/-! ### Room (R40, R321) -/

/-- What is taken of a quadrant: groups, tile registers, accumulators, lane-registers. -/
structure QUse where
  grp  : Nat := 0
  tile : Nat := 0
  acc  : Nat := 0
  reg  : Nat := 0
  deriving DecidableEq, Repr

/-- What is taken of a core: teams and its four quadrants. -/
structure CUse where
  teams : Nat := 0
  quads : List QUse := [{}, {}, {}, {}]
  deriving DecidableEq, Repr

def QUse.add (u : QUse) (r : LRec) : QUse :=
  { grp := u.grp + 1, tile := u.tile + r.tiles, acc := u.acc + r.accs, reg := u.reg + 8 * r.regs }

def QUse.fits (u : QUse) : Bool :=
  decide (u.grp ≤ 16) && decide (u.tile ≤ 32) && decide (u.acc ≤ 8) && decide (u.reg ≤ 1024)

/-- What resident groups take of a core; a retired group keeps its registers until its flags are zero (R107, R333). -/
def coreUse (s : State) (core : Nat) : CUse :=
  let ts := s.teams.filter fun t => t.2.core == core && !t.2.saved && !t.2.ended
  s.groups.foldl (fun u g =>
    match s.teams.find? fun t => t.1 == g.2.team with
    | none => u
    | some t =>
      if t.2.core = core ∧ !t.2.saved then
        let r := (getLaunch s t.2.launch).lr
        let q := u.quads.getD g.2.quad {}
        let q := if !g.2.retired then q.add r else if flagsZero g.2 then q else { q with reg := q.reg + 8 * r.regs }
        { u with quads := setAt u.quads g.2.quad q }
      else u) { teams := ts.length, quads := [{}, {}, {}, {}] }

/-- Place the groups of one team on a core: group g goes to quadrant g mod 4 or the lowest with room (R321). -/
def placeGroups (r : LRec) : List Nat → CUse → Option (List (Nat × Nat) × CUse)
  | [], u => some ([], u)
  | g :: gs, u =>
    let ok (q : Nat) : Bool := ((u.quads.getD q {}).add r).fits
    match (if ok (g % 4) then some (g % 4) else (List.range 4).find? ok) with
    | none => none
    | some q => match placeGroups r gs { u with quads := setAt u.quads q ((u.quads.getD q {}).add r) } with
      | none => none
      | some (ps, u') => some ((g, q) :: ps, u')

/-- A team's place: its core and the quadrant of each of its groups. -/
structure Spot where
  idx  : Nat
  core : Nat
  quads : List (Nat × Nat)
  deriving DecidableEq, Repr

/-- The context may run: it is runnable, not being moved nor saved for a checkpoint, and the part is not in D3hot
(R361, R364, R391). -/
def ctxRuns (s : State) (c : Nat) : Bool :=
  let x := getCtx s c
  !s.d3 && x.st == 1 && x.moving.isNone && (x.mirror.inProgress.isNone || x.mirror.imgDone)

/-- The STREAM of the mailbox that caused a launch (R315). -/
def streamOf (s : State) (l : Launch) : Nat := (mapGetD s.mboxes l.mb {}).stream

/-- The cores kept free for the first team or gang of a real-time launch that waits for its victims (R324). -/
def heldCores (s : State) : List Nat := (s.launches.filter fun l => ctxRuns s l.2.ctx).flatMap (·.2.hold)

/-- The state as the placement of a launch's teams sees it: its own cores, and those kept for a larger STREAM, are free to a
real-time launch (R323, R324). -/
def unheld (s : State) (lid : Nat) : State :=
  let x := getLaunch s lid
  { s with launches := s.launches.map fun e =>
      if e.1 = lid ∨ x.lr.rt = true ∧ streamOf s x < streamOf s e.2 then (e.1, { e.2 with hold := [] }) else e }

/-- The core takes teams: it is present, not stopped (R383) and not kept for another launch (R324). -/
def coreOpen (s : State) (core : Nat) : Bool :=
  !(getCore s core).stopped && !(getCore s core).absent && !(heldCores s).contains core

/-- Place teams on one core, each with the groups that `live` gives it (R321). -/
def placeOn (s : State) (r : LRec) (live : Nat → List Nat) (core : Nat) : List Nat → CUse → Option (List Spot × CUse)
  | [], u => some ([], u)
  | i :: is, u =>
    if coreOpen s core && decide (u.teams < 8) then match placeGroups r (live i) u with
      | none => none
      | some (qs, u') => (placeOn s r live core is { u' with teams := u.teams + 1 }).map fun p =>
          ({ idx := i, core := core, quads := qs } :: p.1, p.2)
    else none

/-- Place units of teams, each whole on the first core of a list that has room for it (R321). -/
def placeUnits (s : State) (r : LRec) (live : Nat → List Nat) (cores : List Nat) : List (List Nat) → FMap CUse → Option (List Spot)
  | [], _ => some []
  | ids :: rest, us =>
    match firstSome (fun c => (placeOn s r live c ids ((mapGet? us c).getD (coreUse s c))).map fun p => (c, p.1, p.2)) cores with
    | none => none
    | some (c, ps, u) => (placeUnits s r live cores rest (mapSet us c u)).map (ps ++ ·)

/-- Free 4 KiB granules of the SCRATCH banks of a cluster that a context owns, bank * 16 + granule (R284). -/
def freeGranules (s : State) (ctx cluster : Nat) : List Nat :=
  let k := getCluster s cluster
  let used := (s.wins.filter fun w => w.2.cluster == cluster).flatMap (·.2.granules)
  (List.range 512).filter fun g =>
    (getBank k (g / 16)).mode == .scratch && (getBank k (g / 16)).owner == some ctx && !used.contains g

/-- 4 KiB granules of a window. -/
def LRec.granules (r : LRec) : Nat := ceilDiv (r.scratch * 16) 4096

/-- The clusters that may take teams of a launch, in order: the home first, then under loose placement the ring, within
the instance of the narrowest level bound to a die or cluster (R320, R322, R331). `fixed` names a core at which other
teams of each bound unit reside. -/
def candClusters (r : LRec) (idx : Nat) (loose : Bool) (residents : List (Nat × Nat)) : List Nat :=
  let unitAt (k : Nat) : Option Nat := (residents.find? fun t => t.1 / r.unit k == idx / r.unit k).map (·.2)
  let cl := firstSome unitAt (r.levelsWith fun l => l.dom == 2 || l.dom == 3)
  let dl := firstSome unitAt (r.levelsWith fun l => l.dom == 4)
  let home := r.home idx
  match cl with
  | some core => [clusterOf core]
  | none =>
    let home := match dl with
      | some core => dieOfCore core * 8 + home % 8
      | none => home
    if !loose then [home]
    else if !(r.levelsWith fun l => l.dom == 3).isEmpty then [home]
    else if !(r.levelsWith fun l => l.dom == 4).isEmpty then (List.range 8).map fun i => home / 8 * 8 + (home + i) % 8
    else (List.range 32).map fun i => (home + i) % 32

/-- The team indexes of the gang of a team. -/
def LRec.gang (r : LRec) (idx : Nat) : List Nat :=
  let k := r.gangLevel
  (List.range (if k ≤ 1 then 1 else r.unit k)).map fun i => (if k ≤ 1 then idx else r.unitBase k idx) + i

/-- The lowest team index of those that share a window with a team: its sharing unit's, or its own (R311). -/
def LRec.winKey (r : LRec) (idx : Nat) : Nat := match r.sharing with
  | some k => r.unitBase k idx
  | none => idx

/-- How many windows some teams have. -/
def LRec.windows (r : LRec) (ids : List Nat) : Nat := (dedupN (ids.map r.winKey)).length

/-- Teams by the unit that one core takes whole: the widest unit bound to DOM CORE, or a team alone (R311). -/
def LRec.coreUnits (r : LRec) (ids : List Nat) : List (List Nat) :=
  let key (i : Nat) : Nat := match (r.levelsWith fun l => l.dom == 2).getLast? with
    | some k => r.unitBase k i
    | none => i
  (dedupN (ids.map key)).map fun b => ids.filter fun i => key i == b

/-- The unit of a team that is bound to one cluster: its unit of the widest level with DOM CLUSTER or CORE (R331). -/
def LRec.boundUnit (r : LRec) (idx : Nat) : Option Nat :=
  ((r.levelsWith fun l => l.dom == 2 || l.dom == 3).getLast?).map fun k => idx / r.unit k

/-- The cores of a cluster. -/
def coresOf (cluster : Nat) : List Nat := (List.range 4).map (cluster * 4 + ·)

/-- The teams of a gang placed together in a cluster (R321). -/
def placeGang (s : State) (r : LRec) (live : Nat → List Nat) (cluster : Nat) (ids : List Nat) : Option (List Spot) :=
  placeUnits s r live (coresOf cluster) (r.coreUnits ids) []

/-- Cores at which teams of a launch reside, with their indexes. -/
def residentCores (s : State) (l : Nat) : List (Nat × Nat) :=
  ((teamsOf s l).filter fun t => !t.2.saved && !t.2.ended).map fun t => (t.2.index, t.2.core)

/-- The teams of a team's gang that wait for dispatch: of a flushed gang only those that were flushed (R328). -/
def Launch.gang (l : Launch) (idx : Nat) : List Nat :=
  if l.redo.isEmpty then l.lr.gang idx else (l.lr.gang idx).filter l.redo.contains

/-- Where the gang of a team fits now, if anywhere: its spots and its window's cluster (R321, R322). Teams with no live
group take no place (R310). -/
def fitGang (s : State) (l : Nat) (idx : Nat) (loose : Bool) (clusters : Option (List Nat)) : Option (List Spot) :=
  let s := unheld s l
  let x := getLaunch s l
  let r := x.lr
  let ids := (x.gang idx).filter fun i => !(r.liveGroups i).isEmpty
  let cands := candClusters r idx loose (residentCores s l)
  let cands := match clusters with
    | some cs => cs
    | none => match x.place with
      | some cl => [cl]
      | none => cands
  let resident := (residentCores s l).find? fun t => (r.gang idx).contains t.1
  firstSome (fun cl =>
    let need := if resident.isSome && r.sharing.isSome then 0 else r.granules * r.windows ids
    if (freeGranules s x.ctx cl).length < need then none else placeGang s r r.liveGroups cl ids) cands

end Sys2Proof.Machine
end

