-- ==== Sys2Proof/Machine/Sched.lean ====
section
/-! DEFINITION. Dispatch, scheduling rounds, the ends of groups, teams and launches, saving and restoring
(R28, R41, R107, R253, R313, R316, R317, R325 to R331, R333). -/
namespace Sys2Proof.Machine

open Sys2Proof

/-! ### Write-backs that a save, a launch end or a retirement makes at once -/

/-- A write-back that its die may not make yet: the step wants tenure of the line, or the end of a release that covers it
(R270, R271). -/
def wantWrite (s : State) (die line : Nat) : State :=
  { s with wants := s.wants ++ [if releasing (getDie s die) line then .quiet else .write die line] }

/-- Write back the dirty bytes of a core's L1: to the cluster cache where it holds the line, else to the die's L2 (R253). -/
def flushL1 (s : State) (core : Nat) : State :=
  ((getCore s core).l1.map (·.1)).foldl (fun s l =>
    let r := wbL1 s core l
    if r.2 then r.1 else wantWrite r.1 (dieOfCore core) l) s

/-- Write back the dirty bytes of a cluster cache to the die's L2 (R253). -/
def flushCC (s : State) (cluster : Nat) : State :=
  ((getCluster s cluster).cc.map (·.1)).foldl (fun s l =>
    let r := wbCC s cluster l
    if r.2 then r.1 else wantWrite r.1 (cluster / 8) l) s

/-- The ways of a cluster cache: the banks in CACHE mode (R285). -/
def cacheWays (k : Cluster) : Nat := ((List.range 32).filter fun b => (getBank k b).mode == .cache).length

/-- The set of a line in a cluster cache: PA[15:7] (R285). -/
def ccSet (line : Nat) : Nat := line % 512

/-- The lines that a bank leaving CACHE holds, one way of the cluster cache: of each set at most one, and of a full set one. Nothing
that a program or the Pavilion sees shows which bank holds which line, so the choice is free (R165, R285; DESIGN CHOICE, log 25). -/
def bankLines (fresh : Nat) (k : Cluster) : List Nat :=
  let n := cacheWays k
  let ls := k.cc.map (·.1)
  if n ≤ 1 then ls
  else (dedupN (ls.map ccSet)).filterMap fun g => (ls.filter fun l => ccSet l == g)[Config.bankWay fresh g % n]?

/-- A bank leaves CACHE: the lines that it held are written back to the L2 and leave the cluster cache (R165, R285). -/
def leaveCache (s : State) (cluster : Nat) : State :=
  let ls := bankLines s.fresh (getCluster s cluster)
  let s := ls.foldl (fun s l =>
    let r := wbCC s cluster l
    if r.2 then r.1 else wantWrite r.1 (cluster / 8) l) s
  modCluster (bump s) cluster fun k => { k with cc := k.cc.filter fun e => !ls.contains e.1 }

/-- The release that a save makes for the groups of a core (R253). -/
def releaseCore (s : State) (core : Nat) : State := flushCC (flushL1 s core) (clusterOf core)

/-- Write the dirty bytes that a die holds of companion-homed pages to their homes, with WbData(KEEP) (R157 PAIR, log 13). -/
def pushPair (s : State) (die : Nat) : State :=
  let ls := (getDie s die).l2.filter fun e => e.2.dirty != 0 && (match homeOf (e.1 * 128) with
    | some h => decide (8 ≤ h)
    | none => false)
  ls.foldl (fun s e =>
    let s := (dirtyOf s die (lineBox e.1)).foldl (fun s x =>
      sendBack s die ((homeOf (e.1 * 128)).getD 4) { x with req := die, kind := 0 }) s
    modDie s die fun d => { d with l2 := clPut d.l2 e.1 e.2.clean }) s

/-- Every die writes its dirty bytes of companion-homed pages to their homes: those of a team that ran on another die before stand
there (R244, R253). -/
def pushPairs (s : State) : State := [0, 1, 2, 3].foldl pushPair s

/-- The dirty bytes of a line of another home go there with WbData(KEEP), and are clean. The home's copy has them at once, so
that no byte is nowhere while the message travels (log 13). -/
def keepLine (s : State) (die home line : Nat) : State :=
  let s := (dirtyOf s die (lineBox line)).foldl (fun s x =>
    sendBack (if home < 8 then homePut s x.bytes else s) die home { x with req := die, kind := 0 }) s
  cleanBytes s die (lineBox line)

/-- No redo log holds more entries than it has room for: a write stalled on a full log is not performed at PAIR scope
(R365). -/
def logsFit (s : State) : Bool := s.ctxs.all fun x => !x.2.mirror.en || decide (x.2.mirror.entries.length ≤ x.2.mirror.logsz)

/-- The release at PAIR scope of what the cores have written back (R157, R244); a step that needs it waits while a redo log is
full (R365). -/
def pairRelease (s : State) : State :=
  let s := pushPairs s
  if logsFit s then s else { s with wants := s.wants ++ [.quiet] }

/-- The release at SYSTEM scope that the end of a launch makes: every cache gives its dirty bytes to their homes (R317). -/
def releaseAll (s : State) : State :=
  let s := s.cores.foldl (fun s c => flushL1 s c.1) s
  pushPairs (s.clusters.foldl (fun s k => flushCC s k.1) s)

/-- The invalidation of an acquire at CLUSTER (`wide` false) or wider scope on a core (R157). -/
def acquireCore (s : State) (core : Nat) (wide : Bool) : State :=
  let drop (m : FMap CLine) : FMap CLine := (m.map fun e => (e.1, e.2.dropClean)).filter fun e => e.2 != {}
  let s := modCore s core fun c => { c with l1 := drop c.l1 }
  if wide then modCluster s (clusterOf core) fun k => { k with cc := drop k.cc } else s

/-! ### Pins (R227, R342) -/

/-- Decrement PINS of the generation entry of a header, where it has one: a home-performed access that a die makes. Where the
header's page has to be supplied first, the decrement waits for the fault's reply. RPIN's access was permitted, so the decrement is
made whatever the permissions now are (log 38). -/
def headerPins (s : State) (x : Context) (hdr gen agent : Nat) (op : Option (Nat × Nat)) : State :=
  match walk s x hdr with
  | .error f =>
    if waitsReply f then
      let s := raiseFault s x hdr f .engWrite agent
      { s with unpins := s.unpins ++ [{ ctx := x.num, hdr := hdr, gen := gen, op := op }] }
    else s
  | .ok l =>
    let pa := l.pa
    let s := setAD s l.pte true
    match (List.range 16).find? fun i => leValue (engBytes s (pa + 64 + 12 * i) 4) == gen with
    | none => s
    | some i => engPut s (withAddrs (pa + 64 + 12 * i + 8) (leBytes 4 (leValue (engBytes s (pa + 64 + 12 * i + 8) 4) - 1)))

/-- Release every pin that a group holds; the flags of its RUNPINs need no more (R227). -/
def releasePins (s : State) (g : Nat) : State :=
  let x := ctxOf s g
  modGroup ((getGroup s g).pins.foldl (fun s p => headerPins s x p.1 p.2 (dieOf s g) none) s) g fun v => { v with pins := [] }

/-! ### Mailbox queues (R316, R377) -/

def getBox (s : State) (b : Nat) : MBox := mapGetD s.mboxes b {}
def modBox (s : State) (b : Nat) (f : MBox → MBox) : State := { s with mboxes := mapPut s.mboxes b {} (f (getBox s b)) }

/-- Advance HEAD past freed entries. -/
def advanceHead : Nat → MBox → MBox
  | 0, b => b
  | n + 1, b =>
    if b.freed.contains b.head ∧ 0 < b.count then
      advanceHead n { b with head := (b.head + 1) % (b.qdepth + 1), count := b.count - 1, started := b.started - 1,
                             freed := b.freed.erase b.head, arrivals := mapErase b.arrivals b.head,
                             ready := mapErase b.ready b.head }
    else b

/-- The launch of a queue entry has ended: the entry is freed, in queue order (R316). -/
def freeEntry (s : State) (mb q : Nat) : State := modBox s mb fun b =>
  if (q + (b.qdepth + 1) - b.head) % (b.qdepth + 1) < b.count ∧ !b.freed.contains q then advanceHead 256 { b with freed := q :: b.freed }
  else b

/-! ### Ends (R28, R107, R317, R333) -/

/-- Core cycles of a core: its quadrants' latest. -/
def coreCyc (s : State) (core : Nat) : Nat :=
  (List.range 4).foldl (fun m q => if m < getCyc s core q then getCyc s core q else m) 0

/-- The residence of a team so far (R325, R327). -/
def residenceOf (s : State) (t : Team) : Nat := t.residence + (if t.saved || t.gone then 0 else coreCyc s t.core - t.since)

/-- Charge the residence since dispatch or restore to the launch and to its mailbox's deficit, at its retirement or save
(R325). -/
def charge (s : State) (tid : Nat) : State :=
  let t := getTeam s tid
  let d := coreCyc s t.core - t.since
  let l := getLaunch s t.launch
  let s := modTeam s tid fun t => { t with residence := t.residence + d }
  let s := modLaunch s t.launch fun l => { l with charged := l.charged + d }
  if (getBox s l.mb).quantum = 0 then s else modBox s l.mb fun b => { b with deficit := b.deficit - (d : Int) }

/-- A slice of a best-effort team starts with its residence (R329). -/
def startSlice (s : State) (tid : Nat) : State :=
  let l := getLaunch s (getTeam s tid).launch
  let x := getCtx s l.ctx
  let n := 1000 * x.slice
  if l.lr.rt ∨ n = 0 then modTeam s tid fun t => { t with allow := 0 }
  else modCtx (modTeam s tid fun t => { t with allow := if n ≤ x.debt then n else n - x.debt }) l.ctx fun x => { x with debt := x.debt - n }

/-- The overrun of a slice, from its request to the team's save, flush, end or DRAIN (R329). -/
def payOverrun (s : State) (tid : Nat) : State :=
  let t := getTeam s tid
  if t.slice then
    modTeam (modCtx s (getLaunch s t.launch).ctx fun x => { x with debt := x.debt + elapsed s t.reqTick }) tid fun t => { t with slice := false }
  else s

/-- The completion message of a launch (R317). -/
def completionBytes (s : State) (l : Launch) (status : Nat) : List Byte :=
  let x := getCtx s l.ctx
  leBytes 4 status ++ leBytes 4 l.mb ++ leBytes 8 l.tmpl ++ leBytes 8 ((l.arrival + x.tboff) % 2 ^ 64) ++ leBytes 8 (ctxTime s x) ++
    leBytes 8 l.charged ++ leBytes 4 (ctxWord x) ++ leBytes 4 l.qidx ++ List.replicate 16 0

/-- End a launch (R317): a release of its accesses, its completion message, its queue entry. A launch that was rejected
or ended posts even when CMEN = 0 where the spec says so (`always`); one with no record posts to the fault mailbox. -/
def endLaunch (s : State) (lid status : Nat) (always : Bool) : State :=
  let l := getLaunch s lid
  let x := getCtx s l.ctx
  let s := if l.raw.isEmpty then s else releaseAll s
  let s := if l.raw.isEmpty then (postMsg s x.fmbox (completionBytes s l status) (.ctx l.ctx) .none).1
    else if l.lr.cmen || always then (postMsg s l.lr.cmbox (completionBytes s l status) (.ctx l.ctx) .none).1 else s
  freeEntry { s with launches := mapErase s.launches lid } l.mb l.qidx

/-- The team still has a group that has not retired. -/
def teamLive (s : State) (tid : Nat) : Bool := (groupsOf s tid).any fun g => !g.2.retired

/-- The team's resources are free once its groups have retired and its COPY and LINK operations have completed (R333). -/
def teamQuiet (s : State) (tid : Nat) : Bool :=
  (groupsOf s tid).all fun g => g.2.retired && !(g.2.ops.any fun o => (o.cls == some .copy || o.cls == some .link) && !o.done)

/-- Teams that share a window. -/
def winShared (s : State) (win tid : Nat) : Bool := s.teams.any fun t => t.1 != tid && t.2.win == win && !t.2.ended

/-- The window of a team leaves its granules once no team that shares it is resident. -/
def vacateWin (s : State) (tid : Nat) : State :=
  let w := (getTeam s tid).win
  if s.teams.any fun t => t.2.win == w && !t.2.saved && !t.2.ended then s
  else { s with wins := mapMod s.wins w fun x => { x with granules := [] } }

/-- The last group of a team has retired: the team is charged its residence, and the scheduler learns of it (R325). -/
def retireTeam (s : State) (tid : Nat) : State :=
  let t := getTeam s tid
  if t.gone ∨ t.ended = true ∨ teamLive s tid = true then s
  else schedEvent (modTeam (if t.saved then s else charge (payOverrun s tid) tid) tid fun t => { t with gone := true })

/-- Free what a team holds (R333). Where its copies outlasted its groups, the freeing is an event of its own (R325). -/
def endTeam (s : State) (tid : Nat) (later : Bool) : State :=
  let t := getTeam s tid
  let s := modTeam s tid fun t => { t with ended := true, bufs := [] }
  let s := if winShared s t.win tid then vacateWin s tid else { s with wins := mapErase s.wins t.win }
  let s := if later then schedEvent s else s
  modLaunch s t.launch fun l => { l with ended := l.ended + 1 }

/-- Every team of a launch has ended, and its groups have no operation left (R317). -/
def launchOver (s : State) (lid : Nat) (l : Launch) : Bool :=
  l.redo.isEmpty && decide (l.lr.teams ≤ l.next) && decide (l.lr.teams ≤ l.ended) && (teamsOf s lid).isEmpty

/-- A launch that is over ends once its release is performed, which a full redo log delays (R317, R365). -/
def settleLaunch (s : State) (lid : Nat) : State :=
  match mapGet? s.launches lid with
  | none => s
  | some l =>
    if !launchOver s lid l then s
    else
      let s := releaseAll s
      if logsFit s then endLaunch s lid l.status false else s

/-- The launches whose end a full redo log delayed end once it has room (R365). -/
def settleLaunches (s : State) : State := s.launches.foldl (fun s l => settleLaunch s l.1) s

/-- Drop retired groups that have nothing outstanding, and a team that has no group left. -/
def settleTeam (s : State) (tid : Nat) : State :=
  let t := getTeam s tid
  let s := { s with groups := s.groups.filter fun g => !(g.2.team == tid && g.2.retired && g.2.ops.isEmpty && g.2.mq.isEmpty) }
  let s := retireTeam s tid
  let s := if !t.ended && teamQuiet s tid then endTeam s tid t.gone else s
  if (getTeam s tid).ended && (groupsOf s tid).isEmpty then settleLaunch { s with teams := mapErase s.teams tid } t.launch
  else s

/-! ### Dispatch (R41, R313, R321) -/

/-- The bytes of a new window: zero, and the argument block (R313). -/
def newWin (l : Launch) (cluster : Nat) (grs : List Nat) : Win :=
  let r := l.lr
  { size := r.scratch * 16, bars := r.bars, cluster := cluster, granules := grs,
    acq := match r.sharing with
      | some k => ((r.levels[k - 1]?).map (·.scope)).getD 1
      | none => 1,
    data := if r.argen then (withAddrs (16 * r.argoff) (sliceBytes l.msg 0 64)).foldl (fun m e => mapPut m e.1 0 e.2) [] else [] }

/-- A new group (R41). -/
def newGroup (r : LRec) (tid idx g quad : Nat) : Group :=
  { team := tid, idx := g, quad := quad, a := { pc := r.entry + 4, mask := r.liveMask idx g, st := .active } }

/-- A team of a unit bound to a cluster or core takes its place: where it is the unit's first, that cluster is the unit's
(R331). -/
def placeUnit (s : State) (lid idx core : Nat) : State :=
  match (getLaunch s lid).lr.boundUnit idx with
  | none => s
  | some u => modLaunch s lid fun l => if (mapGet? l.units u).isSome then l else { l with units := mapSet l.units u (clusterOf core) }

/-- Start one team at its spot with its window (R41). The arrival that the launch came of acquires here, whatever its scope: the
core and its cluster drop their clean lines (R254). -/
def startTeam (s : State) (lid win : Nat) (p : Spot) : State :=
  let l := getLaunch s lid
  let r := freshId s
  let s := acquireCore r.1 p.core true
  let t : Team :=
    { launch := lid, index := p.idx, core := p.core, win := win, since := coreCyc s p.core, sinceTick := s.tb,
      hash := l.lr.hash p.idx, first := clusterOf p.core, stamp := r.2, disp := r.2, lastDie := dieOfCore p.core }
  let s := startSlice (placeUnit { s with teams := mapSet s.teams r.2 t } lid p.idx p.core) r.2
  p.quads.foldl (fun s q =>
    let i := freshId s
    setGroup i.1 i.2 (newGroup l.lr r.2 p.idx q.1 q.2)) s

/-- Dispatch the gang of a team at its spots (R311, R313, R321): a window for each sharing unit, or for each team. -/
def startGang (s : State) (lid : Nat) (spots : List Spot) : State :=
  let l := getLaunch s lid
  let key (p : Spot) : Nat := l.lr.winKey p.idx
  (dedupN (spots.map key)).foldl (fun s k =>
    let ps := spots.filter fun p => key p == k
    let cl := clusterOf ((ps.head?.map (·.core)).getD 0)
    let i := freshId s
    let s := { i.1 with wins := mapSet i.1.wins i.2 (newWin l cl ((freeGranules s l.ctx cl).take l.lr.granules)) }
    ps.foldl (fun s p => startTeam s lid i.2 p) s) s

/-- The next team index of a launch that waits for dispatch (R322, R328). -/
def nextTeam (l : Launch) : Option Nat :=
  match l.redo with
  | i :: _ => some i
  | [] => if l.next < l.lr.teams then some l.next else none

/-- The launch of a mailbox whose next team is the next to be dispatched (R316). -/
def headLaunch (s : State) (mb : Nat) : Option Nat :=
  let ls := s.launches.filter fun l => l.2.mb == mb && (nextTeam l.2).isSome
  match ls with
  | [] => none
  | x :: r => some ((r.foldl (fun a b => if b.2.order < a.2.order then b else a) x).1)

/-- Teams with no live group are the last of a launch, by R310's launch numbers: once one is next, all that wait count as
retired. -/
def takeRest (l : Launch) : Launch :=
  { l with place := none, hold := [], next := l.lr.teams, ended := l.ended + (l.lr.teams - l.next) }

/-- Take the gang of the next team off the launch's waiting teams; teams with no live group count as retired (R310). -/
def takeGang (l : Launch) (ids : List Nat) : Launch :=
  let dead := ids.filter fun i => (l.lr.liveGroups i).isEmpty
  let l := { l with place := none, hold := [] }
  if l.redo.isEmpty then { l with next := l.next + ids.length, ended := l.ended + dead.length }
  else { l with redo := l.redo.filter fun i => !ids.contains i }

/-- Dispatch the next team or gang of a launch, where it fits; `clusters` restricts the clusters. -/
def dispatchNext (s : State) (lid : Nat) (clusters : Option (List Nat)) : Option State :=
  let l := getLaunch s lid
  match nextTeam l with
  | none => none
  | some i =>
    let ids := l.gang i
    if ids.all fun i => (l.lr.liveGroups i).isEmpty then some (settleLaunch (modLaunch s lid takeRest) lid)
    else match fitGang s lid i l.lr.loose clusters with
      | none => none
      | some spots => some (startGang (modLaunch s lid fun l => takeGang l ids) lid spots)

/-- The next team of a mailbox fits now. -/
def nextFits (s : State) (mb : Nat) : Bool :=
  match headLaunch s mb with
  | none => false
  | some lid => ctxRuns s (getLaunch s lid).ctx && match nextTeam (getLaunch s lid) with
    | none => false
    | some i => (fitGang s lid i (getLaunch s lid).lr.loose none).isSome

/-- Dispatch teams of a mailbox while they fit and a condition holds. -/
def dispatchWhile (cond : State → Bool) : Nat → State → Nat → State × Bool
  | 0, s, _ => (s, false)
  | n + 1, s, mb =>
    if !cond s then (s, false)
    else match headLaunch s mb with
      | none => (s, false)
      | some lid =>
        if !ctxRuns s (getLaunch s lid).ctx then (s, false)
        else match dispatchNext s lid none with
          | none => (s, false)
          | some s' => ((dispatchWhile cond n s' mb).1, true)

/-- No more than this many dispatches can follow one another: 128 cores of 8 teams, and the launches of a mailbox whose remaining teams
have no group. -/
def dispatchFuel : Nat := 1400

/-- The saved teams of a class that may be restored: ready, with every fault reply there (R303, R323, R330). -/
def readyTeams (s : State) (rt : Bool) : List (Nat × Team) :=
  s.teams.filter fun t => t.2.saved && t.2.ready && t.2.flts.isEmpty && !t.2.lost && !t.2.ended &&
    (getLaunch s t.2.launch).lr.rt == rt && ctxRuns s (getLaunch s t.2.launch).ctx

/-- The teams of a team's gang that have not ended. -/
def gangTeams (s : State) (tid : Nat) : List Nat :=
  let t := getTeam s tid
  let ids := (getLaunch s t.launch).lr.gang t.index
  ((teamsOf s t.launch).filter fun o => ids.contains o.2.index && !o.2.ended).map (·.1)

/-- The clusters that may take a saved team: where others of its bound units reside, if any do, else its home and the ring; of a unit
bound to a cluster or core only the cluster of its first placement (R331). -/
def restoreClusters (s : State) (l : Launch) (lid idx : Nat) : List Nat :=
  let cands := candClusters l.lr idx true (residentCores s lid)
  match (l.lr.boundUnit idx).bind (mapGet? l.units) with
  | none => cands
  | some cl =>
    -- no team of the unit resides: its first cluster is the only one, on its home or off it (R324, R331)
    let resident := (residentCores s lid).any fun t => l.lr.boundUnit t.1 == l.lr.boundUnit idx
    if resident then cands.filter (· == cl) else [cl]

/-- Where a saved gang fits: each of its teams on a core that meets R321, near its home, within its instances (R331). -/
def restoreSpots (s : State) (tid : Nat) : Option (List Spot) :=
  let t := getTeam s tid
  let s := unheld s t.launch
  let l := getLaunch s t.launch
  let ids := (gangTeams s tid).map fun i => (getTeam s i).index
  let cands := restoreClusters s l t.launch t.index
  let live (i : Nat) : List Nat := match s.teams.find? fun o => o.2.launch == t.launch && o.2.index == i with
    | some o => ((groupsOf s o.1).filter fun g => !g.2.retired).map (·.2.idx)
    | none => []
  firstSome (fun cl => if (freeGranules s l.ctx cl).length < l.lr.granules * l.lr.windows ids then none
    else placeGang s l.lr live cl ids) cands

/-- A ready team whose gang is ready whole and fits now (R311, R331). -/
def restoreFits (s : State) (ready : List (Nat × Team)) (tid : Nat) : Bool :=
  (gangTeams s tid).all (fun i => ready.any fun o => o.1 == i) && (restoreSpots s tid).isSome

/-- Round() of R325: the state after, and whether a team was dispatched. -/
def round (s : State) : State × Bool :=
  let be := s.mboxes.filter fun b => !b.2.rt
  let r := (be.filter fun b => b.2.quantum != 0).foldl (fun (acc : State × Bool) b =>
    let s := acc.1
    match headLaunch s b.1 with
    | none => (modBox s b.1 fun x => { x with deficit := if x.deficit < 0 then x.deficit else 0 }, acc.2)
    | some _ =>
      let s := modBox s b.1 fun x => { x with deficit := x.deficit + (1024 * x.quantum : Nat) }
      let q := dispatchWhile (fun s => decide (0 < (getBox s b.1).deficit)) dispatchFuel s b.1
      (q.1, acc.2 || q.2)) (s, false)
  (be.filter fun b => b.2.quantum == 0).foldl (fun acc b =>
    let q := dispatchWhile (fun s => !((s.mboxes.filter fun c => !c.2.rt && c.2.quantum != 0).any fun c => nextFits s c.1))
      dispatchFuel acc.1 b.1
    (q.1, acc.2 || q.2)) r

/-- Some best-effort mailbox still has a waiting team. -/
def beWaiting (s : State) : Bool := (s.mboxes.filter fun b => !b.2.rt).any fun b => (headLaunch s b.1).isSome

/-- Rounds, again at once after one that dispatched (R325). -/
def rounds : Nat → State → State
  | 0, s => s
  | n + 1, s =>
    let r := round s
    if r.2 && beWaiting r.1 then rounds n r.1 else r.1

/-- Real-time mailboxes in ascending STREAM (R323). -/
def rtBoxes (s : State) : List Nat :=
  (List.range 64).flatMap fun st => (s.mboxes.filter fun b => b.2.rt && b.2.stream == st).map (·.1)

/-- The rounds of some scheduling events, one event after another (R325). -/
def eventRounds : Nat → State → State
  | 0, s => s
  | n + 1, s => eventRounds n (rounds dispatchFuel s)

/-- The scheduler serves its classes (R323, R325): dispatches of real-time launches, after the restores of real-time teams of
no larger STREAM that fit; then, once no best-effort team that fits waits to be restored, Round() once for each scheduling
event. The restores are steps of their own. -/
def schedule (s : State) : State :=
  if s.mboxes.isEmpty then s
  else
    let s := (rtBoxes s).foldl (fun s b => (dispatchWhile (fun s =>
      let ready := readyTeams s true
      !(ready.any fun t => decide (streamOf s (getLaunch s t.2.launch) ≤ (getBox s b).stream) && restoreFits s ready t.1))
      dispatchFuel s b).1) s
    let ready := readyTeams s false
    if s.events = 0 ∨ (ready.any fun t => restoreFits s ready t.1) = true then s
    else eventRounds s.events { s with events := 0 }

/-- An operation that outlives its group: one that a flag or a counter counts, or a write not yet performed (R107). -/
def outlives (o : Op) : Bool := o.flag.isSome || o.cls.isSome || match o.kind with
  | .atomic _ _ _ _ _ _ _ => true
  | .cacheOp _ _ _ => true
  | .store _ _ rest => !rest.isEmpty
  | .wstore _ => true
  | _ => false

/-- A group retires (R28): its join records are discarded and its pins released; then the ends that follow. Matrix words
that it issued still execute on its tiles. -/
def retireGroup (s : State) (g : Nat) : State :=
  let tid := (getGroup s g).team
  let s := releasePins s g
  let s := modGroup s g fun x => { x with retired := true, stack := [], trap := none, ops := x.ops.filter outlives }
  schedule (settleTeam s tid)

/-- An operation of a group ended: a retired group, its team and its launch may end with it. -/
def afterOp (s : State) (g : Nat) : State :=
  if (getGroup s g).retired then schedule (settleTeam s (getGroup s g).team) else s

/-! ### Saves and restores (R42, R253, R326 to R331) -/

/-- A group is at its safe point (R326): flags, COPY, MATRIX and RAY zero, and every register-writing operation done; a path parked
in MBPOST or EMULATE ends first. -/
def groupSafe (g : Group) : Bool :=
  flagsZero g && counter g .copy == 0 && counter g .matrix == 0 && counter g .ray == 0 &&
  g.ops.all (fun o => o.pipe == 0 || o.cls.isSome) && g.a.st != .miss && g.b.st != .miss &&
  (g.a.waits ++ g.b.waits ++ g.stack.flatMap (·.waits)).all fun w => match w with
    | .op _ => false
    | .post _ _ => false
    | .emulate => false
    | _ => true

/-- A slot as a save leaves it: a cycle-count SLEEP ends (R109). -/
def savedSlot (v : Slot) : Slot :=
  if v.st = .sleep ∧ v.waits.any (fun w => match w with
      | .cycle _ => true
      | _ => false) then { v.wake Wait.sleeps with n := 0 }
  else if v.st = .held ∧ v.prior = .sleep ∧ v.waits.any (fun w => match w with
      | .cycle _ => true
      | _ => false) then { v.wake Wait.sleeps with n := 0 }
  else { v with n := 0 }

/-- Save a team (R253, R327): a release at PACKAGE scope, or at PAIR scope where it leaves for a companion; its V-pipe results written, its slots as a save leaves them; its
state stays in the team's entries, from which its image is written (log 21). -/
def saveTeam (s : State) (tid : Nat) : State :=
  let t := getTeam s tid
  if t.saved then s
  else
    let s := releaseCore s t.core
    let s := if t.preempt = some .migrate then pairRelease s else s
    let s := charge (payOverrun s tid) tid
    let s := (groupsOf s tid).foldl (fun s g => modGroup s g.1 fun x =>
      let x := (x.ops.filter fun o => o.pipe == 0).foldl (fun x o => match x.op? o.id with
        | some o => x.landOp s.fresh o
        | none => x) x
      { x with a := savedSlot x.a, b := savedSlot x.b }) s
    let why := t.preempt.getD .sched
    let r := freshId (schedEvent s)
    modTeam r.1 tid fun t =>
      { t with saved := true, why := why, preempt := none, stamp := r.2, draining := false
               ready := match why with
                 | .sched => true
                 | .realtime => true
                 | .fault _ _ => true
                 | .retire => true
                 | .power => true
                 | _ => false }

/-- Discard a team and queue it again (R328). Its residence is charged to nobody: it neither retires nor is saved (R325). -/
def flushTeam (s : State) (tid : Nat) : State :=
  let t := getTeam s tid
  let gs := (groupsOf s tid).map (·.1)
  let s := gs.foldl (fun s g => releasePins (emitSync s g 8 0 none) g) s
  let s := schedEvent (payOverrun s tid)
  let s := { s with groups := s.groups.filter fun g => g.2.team != tid, teams := mapErase s.teams tid }
  let s := if winShared s t.win tid then s else { s with wins := mapErase s.wins t.win }
  modLaunch s t.launch fun l => { l with redo := (l.redo.filter (· < t.index)) ++ t.index :: l.redo.filter (t.index < ·) }

/-- A held handle leaves its die: its tenure there is released by the sequence of TREL, and it is to be acquired again
before the next chain that names it (R213, R278). -/
def rehome (s : State) (ctx die : Nat) : State :=
  let hs := (getCtx s ctx).handles.filter fun h => h.2.alloc && (h.2.st == 2 || h.2.st == 3) && h.2.die == die && !h.2.reacq
  hs.foldl (fun s h =>
    let s := modHandle s ctx h.1 fun e => { e with reacq := true, part := false }
    if h.2.home = 5 then s else releaseBox s die h.2.home h.2.pbox (.release none true) true) s

/-- Restore one team at its spot (R253, R331, R405): acquire, new place, SYNC RESTORE. Handles held by another die are
released and acquired again (R213). -/
def restoreTeam (s : State) (tid : Nat) (p : Spot) : State :=
  let t := getTeam s tid
  let l := getLaunch s t.launch
  let die := dieOfCore p.core
  let s := acquireCore s p.core true
  let s := modTeam s tid fun t => { t with saved := false, ready := false, core := p.core, since := coreCyc s p.core,
                                           sinceTick := s.tb, lastDie := die }
  let s := p.quads.foldl (fun s q => match (groupsOf s tid).find? fun g => g.2.idx == q.1 with
    | some g => modGroup s g.1 fun x => { x with quad := q.2 }
    | none => s) s
  let s := placeUnit (startSlice (if die = t.lastDie then s else rehome s l.ctx t.lastDie) tid) t.launch t.index p.core
  (groupsOf s tid).foldl (fun s g => resumeRules (emitSync s g.1 4 0 none) g.1) s

/-- Restore a gang where it fits (R331). -/
def restoreGang (s : State) (tid : Nat) : State :=
  match restoreSpots s tid with
  | none => s
  | some spots =>
    let t := getTeam s tid
    let l := getLaunch s t.launch
    spots.foldl (fun s p => match s.teams.find? fun o => o.2.launch == t.launch && o.2.index == p.idx && !o.2.ended with
      | none => s
      | some o =>
        let cl := clusterOf p.core
        let s := if ((mapGet? s.wins o.2.win).map (·.granules.isEmpty)).getD false then
            let grs := (freeGranules s l.ctx cl).take l.lr.granules
            { s with wins := mapMod s.wins o.2.win fun w => { w with cluster := cl, granules := grs } }
          else s
        restoreTeam s o.1 p) s

end Sys2Proof.Machine
end

