-- ==== Sys2Proof/Machine/Ops.lean ====
section
/-! DEFINITION. The named operations over the machine: reads and writes of the memory spaces, barrier words, wakes of
slots, the landing of results, taking an exception and returning from one (R30, R107, R109, R112 to R114, R145, R159 to
R162, R218, R219, R301, R332). -/
namespace Sys2Proof.Machine

open Sys2Proof

/-! ### Trap codes (R219) -/

def tIllegalEnc : Nat := 0x01
def tIllegalOp : Nat := 0x02
def tRegBound : Nat := 0x03
def tAlign : Nat := 0x04
def tTargetAlign : Nat := 0x05
def tPage : Nat := 0x06
def tPerm : Nat := 0x07
def tStallShort : Nat := 0x08
def tPromiseMiss : Nat := 0x09
def tBarrierClobber : Nat := 0x0A
def tDivstack : Nat := 0x0B
def tHandleStale : Nat := 0x0C
def tHandleState : Nat := 0x0D
def tPoison : Nat := 0x0E
def tEmulate : Nat := 0x0F
def tLayout : Nat := 0x10
def tResource : Nat := 0x11
def tBkpt : Nat := 0x12
def tPageLost : Nat := 0x13

/-- A trap cause: code, lane where it is a step-8 cause, faulting address, detail, and the translation failure behind a
PAGE, PAGE_LOST or PERM. -/
structure Cause where
  code   : Nat
  lane   : Option Nat := none
  addr   : Nat := 0
  detail : Nat := 0
  xf     : Option (XFail × Acc) := none
  deriving DecidableEq, Repr

/-- The trap of a group's translation failure (R301). -/
def xfCause (L va : Nat) (f : XFail) (a : Acc) : Cause :=
  { code := if f.cause = 6 then tPageLost else if f.cause < 3 then tPage else tPerm, lane := some L, addr := va, xf := some (f, a) }

/-! ### Waking slots -/

/-- An operation that a slot waited for is done. -/
def Slot.unblock (v : Slot) (w : Wait) : Slot :=
  if v.waits.contains w then
    let ws := v.waits.filter (· != w)
    { v with
      waits := ws
      st := if v.st = .miss ∧ ws.isEmpty then .active else v.st
      prior := if v.st = .held ∧ v.prior = .miss ∧ ws.isEmpty then .active else v.prior }
  else v

/-- Unblock both slots of a group and the paths on its stack, and apply the rules. -/
def unblockGroup (s : State) (g : Nat) (w : Wait) : State :=
  applyRules (modGroup s g fun x =>
    { x with a := x.a.unblock w, b := x.b.unblock w, stack := x.stack.map fun e => { e with waits := e.waits.filter (· != w) } }) g

/-! ### The scratch window and its barrier words (R159 to R163) -/

def getWin (s : State) (w : Nat) : Win := mapGetD s.wins w {}
def winOf (s : State) (g : Nat) : Win := getWin s (teamOf s g).win
def winByte (w : Win) (off : Nat) : Byte := mapGetD w.data off 0
def winBytes (w : Win) (off n : Nat) : List Byte := (List.range n).map fun i => winByte w (off + i)
def Win.put (w : Win) (off : Nat) (bs : List Byte) : Win :=
  { w with data := (withAddrs off bs).foldl (fun m e => mapPut m e.1 0 e.2) w.data }
def winPoison (w : Win) (off n : Nat) : Bool := !w.poison.isEmpty && (List.range n).any fun i => w.poison.contains (off + i)

/-- Clear the poison of every sector of a window that written bytes cover whole (R145). -/
def Win.covered (w : Win) (offs : List Nat) : Win :=
  if w.poison.isEmpty then w
  else { w with poison := w.poison.filter fun o => !((List.range 32).all fun i => offs.contains (o / 32 * 32 + i)) }

def modWin (s : State) (w : Nat) (f : Win → Win) : State := { s with wins := mapMod s.wins w f }

/-- The access lies within the window. -/
def Win.holds (w : Win) (off n : Nat) : Bool := decide (off + n ≤ w.size)

/-- The access touches a tagged barrier word (R159, R160). -/
def Win.tagged (w : Win) (off n : Nat) : Bool := decide (off < 8 * w.bars) && decide (0 < n)

/-- Fields of a barrier word (R159). -/
def Win.bar (w : Win) (b : Nat) : Nat := leValue (winBytes w (8 * b) 8)
def barTarget (x : Nat) : Nat := bits x 7 0
def barCount (x : Nat) : Nat := bits x 15 8
def barPhase (x : Nat) : Nat := bits x 23 16
def barLive (x : Nat) : Bool := bit x 24
def barGone (x : Nat) : Bool := bit x 25
def barWord (target count phase : Nat) (live gone : Bool) : Nat :=
  target + count * 2 ^ 8 + phase * 2 ^ 16 + b2n live * 2 ^ 24 + b2n gone * 2 ^ 25
def setBar (s : State) (win b x : Nat) : State := modWin s win fun w => w.put (8 * b) (leBytes 8 x)

/-- Write a status to lanes of a register, within the step. -/
def Group.status (g : Group) (k d : Nat) (lanes : Mask) (v : Nat) : Group :=
  (lanesOf lanes).foldl (fun g L => g.putResult k g.nextOp (vunit d L) (BitVec.ofNat 32 v) false) g

/-- The end of a barrier wait for one slot: status to its lanes, and the slot returns (R30, R161). -/
def endBarWait (b v : Nat) (k : Nat) (g : Group) (sl : PSlot) : Group :=
  let x := g.slot sl
  let hit := x.waits.any fun w => match w with
    | .barrier b' _ _ _ _ => b' == b
    | _ => false
  if !hit then g
  else
    let g := x.waits.foldl (fun g w => match w with
      | .barrier b' _ d ls _ => if b' = b then g.status k d ls v else g
      | _ => g) g
    g.modSlot sl (Slot.wake fun w => match w with
      | .barrier b' _ _ _ _ => b' == b
      | _ => false)

/-- Some slot of the group waits at barrier b with acquire semantics. -/
def barAcquires (g : Group) (b : Nat) : Bool := (g.a.waits ++ g.b.waits).any fun w => match w with
  | .barrier b' _ _ _ acq => b' == b && acq
  | _ => false

/-- Wake the waiters of barrier b of a window (R161): every group of the teams that have the window, saved ones too. The rules
follow, but for the group `own` whose chain is under way: there they follow the chain (R26, R401). -/
def wakeWaiters (s : State) (win b v : Nat) (own : Option Nat) : State :=
  let gs := (s.groups.filter fun g => (getTeam s g.2.team).win == win && !g.2.retired).map (·.1)
  gs.foldl (fun s g =>
    let x := getGroup s g
    let s := if barAcquires x b && decide (3 ≤ (getWin s win).acq) then acquireCore s (coreOf s g) false else s
    let s := setGroup s g (endBarWait b v s.fresh (endBarWait b v s.fresh x .a) .b)
    if own = some g then s else applyRules s g) s

/-- One arrival at a barrier word (R161), by a chain of the group `own` or by a copy. -/
def arrive (s : State) (win b : Nat) (own : Option Nat) : State :=
  let x := (getWin s win).bar b
  if barGone x then s
  else if barCount x + 1 = barTarget x then
    wakeWaiters (setBar s win b (barWord (barTarget x) 0 ((barPhase x + 1) % 256) (barLive x) false)) win b 0 own
  else setBar s win b (barWord (barTarget x) (barCount x + 1) (barPhase x) (barLive x) false)

/-! ### Landing results -/

/-- Write the results of an operation and let go what waited for it; a retired group's results are discarded (R107). -/
def landOpS (s : State) (g : Nat) (o : Op) : State :=
  let s := modGroup s g fun x => if x.retired then x.dropOp o.id else x.landOp s.fresh o
  afterOp (unblockGroup (bump s) g (.op o.id)) g

/-- What companions' homes refused has been reported. -/
def forgetRefused (s : State) : State := if s.served.isEmpty then s else { s with served := s.served.filter fun e => decide (e.2 < 2) }

/-- An engine operation completes (R32, R204). -/
def finishOpS (s : State) (g id : Nat) : State :=
  afterOp (unblockGroup (modGroup (forgetRefused s) g fun x => x.finishOp id) g (.op id)) g

/-! ### Taking an exception and returning from one -/

/-- The 256 bits of a trap record (R218). -/
def trapBits (t : TrapRec) : Nat :=
  t.code % 256 + t.word % 4 * 2 ^ 8 + slotBit t.pslot * 2 ^ 10 + (t.lane.getD 0) % 32 * 2 ^ 11 + b2n t.lane.isSome * 2 ^ 16 +
  t.jd % 256 * 2 ^ 24 + t.pc % 2 ^ 48 * 2 ^ 32 + t.sc % 2048 * 2 ^ 80 + t.res % 2 ^ 48 * 2 ^ 96 + t.pv % 128 * 2 ^ 144 +
  t.pn % 16 * 2 ^ 151 + t.addr % 2 ^ 64 * 2 ^ 160 + t.detail % 2 ^ 32 * 2 ^ 224

/-- Every team of a context is to be saved. -/
def stopContext (s : State) (ctx : Nat) (why : SaveWhy) : State :=
  (s.teams.filter fun t => (getLaunch s t.2.launch).ctx == ctx && !t.2.saved && !t.2.ended).foldl
    (fun s t => modTeam s t.1 fun x => x.asked s.tb why) s

/-- The context faults to system software (R332): cause 0x10 with a trap record, or another cause (R382). -/
def contextFault (s : State) (ctx cause : Nat) (tail : List Byte) : State :=
  let x := getCtx s ctx
  let s := stopContext (modCtx s ctx fun x => { x with st := 2 }) ctx .ctxFault
  (postMsg s x.fmbox (faultBytes s x 0 cause 0 0 255 0 tail) (.ctx ctx) .none).1

/-- The trap record of a cause (R65, R218). A chain that traps has no effect (R57), so a C-pipe chain that traps, TRAP and
BKPT among them, has not closed an open predicate window: the record saves the PN from before the chain, and after RETT the
window is open at the resume address (DEDUCED, log 85). -/
def mkTrapRec (g : Group) (sl : PSlot) (word pc res : Nat) (c : Cause) : TrapRec :=
  let v := g.slot sl
  { code := c.code, word := word, pslot := sl, lane := c.lane, jd := v.jd, pc := pc, sc := g.stack.length, res := res,
    pv := v.pv, pn := v.pn, addr := c.addr, detail := c.detail }

/-- Enter the handler (R30, R113): the faulting slot takes the handler path, the other slot is HELD. Registers that the path waits
for block the handler path too (R59). -/
def enterHandler (s : State) (gid : Nat) (sl : PSlot) (t : TrapRec) : State :=
  let h := (lrecOf s gid).handler
  let s := modGroup s gid fun g =>
    let g := g.modSlot sl fun v => { v with pc := h + 4, pv := 0, pn := 0, st := .active, waits := v.waits.filter Wait.isOp, seen := (0, []) }
    let g := g.modSlot (otherSlot sl) fun v => { v with st := .held, prior := v.st }
    { g with trap := some t }
  emitSync s gid 6 0 (some sl)

/-- Take a trap of a chain (R112, R113, R218, R219, R301, R332, R7): `word` is the packet slot reported, `pc` the chain,
`res` the resume address. The chain has no effect. -/
def takeTrap (s : State) (gid : Nat) (sl : PSlot) (word pc res : Nat) (c : Cause) : State :=
  let g := getGroup s gid
  if c.code = tPage ∨ c.code = tPageLost then
    let x := ctxOf s gid
    let f := c.xf.getD ({}, .read)
    let s := raiseFault (modSlot s gid sl fun v => { v with seen := (0, []) }) x c.addr f.1 f.2 (dieOf s gid)
    (gangTeams s g.team).foldl (fun s t => forcePreempt s t (.fault x.num (faultPage c.addr)))
      (parkTeam s g.team x.num (faultPage c.addr))
  else if c.code = tEmulate then modSlot s gid sl fun v => { v with waits := [.emulate] }
  else
    let t := mkTrapRec g sl word pc res c
    if g.trap.isSome ∨ (lrecOf s gid).handler = 0 then contextFault s (ctxNumOf s gid) 0x10 (leBytes 32 (trapBits t))
    else enterHandler s gid sl t

/-- The other slot returns to its state before the trap, as events have changed it (R30). -/
def Slot.release (v : Slot) : Slot := if v.st = .held then { v with st := v.prior, prior := .free } else v

/-- Raise a PROMISE_MISS kept pending for a slot (R30, R109). -/
def raiseMissed (s : State) (gid : Nat) (sl : PSlot) : State :=
  let v := (getGroup s gid).slot sl
  match v.missed with
  | none => s
  | some (pc, word, h) =>
    let s := modSlot s gid sl fun v => { v with missed := none }
    takeTrap s gid sl word pc v.pc { code := tPromiseMiss, detail := h }

/-- The handler has ended: the held slot returns, the record is dropped, a SYNC is emitted (R107, R114, R398). -/
def endHandler (s : State) (gid : Nat) (sl : PSlot) : State :=
  let s := modGroup s gid fun g => { (g.modSlot (otherSlot sl) Slot.release) with trap := none }
  emitSync s gid 7 0 (some sl)

/-- Return from a handler (R114): the slot resumes at the record's resume address with PN and PV from the record. -/
def returnFromTrap (s : State) (gid : Nat) (sl : PSlot) : State :=
  match (getGroup s gid).trap with
  | none => s
  | some t => endHandler (modSlot s gid sl fun v => { v with pc := t.res, pv := t.pv, pn := t.pn }) gid sl

/-- The lanes of a slot leave (R28, R107): the slot becomes FREE; in a handler, the handler ends. `x` is the group before
the chain. -/
def exitSlot (x : Group) (s : State) (gid : Nat) (sl : PSlot) : State :=
  let g := getGroup s gid
  let s := modSlot s gid sl fun _ => {}
  let s := emitExit x s gid sl (g.slot sl).mask
  if g.trap.isSome then raiseMissed (endHandler s gid sl) gid (otherSlot sl) else s

/-- Both slots are FREE and no path entry remains (R28). -/
def groupDone (g : Group) : Bool := g.a.st == .free && g.b.st == .free && g.stack.all (·.mask == 0)

/-! ### Loads and stores of global memory (R145, R148) -/

/-- The value and poison of a byte as a core reads it; none where the die must first take tenure. A byte of a lost page
reads as 0 with a poison mark (R369). -/
def loadByte? (s : State) (core : Nat) (nc : Bool) (pa : Nat) : Option (Byte × Bool) :=
  if lostByte s pa then some (0, true)
  else match (if nc then coreByteNc? s core pa else coreByte? s core pa) with
  | none => none
  | some b => some (if poisoned s pa && !ownSector s core nc pa then (Config.poisonByte pa, true) else (b, false))

/-- All bytes of an access, or none. -/
def loadBytes? (s : State) (core : Nat) (nc : Bool) : List Nat → Option (List (Byte × Bool))
  | [] => some []
  | pa :: r => match loadByte? s core nc pa, loadBytes? s core nc r with
    | some b, some bs => some (b :: bs)
    | _, _ => none

/-- The register values of a load of n bytes from its bytes: extension below 4 bytes (R146), one unit for each 4. -/
def loadVals (n : Nat) (sx : Bool) (d L : Nat) (bs : List (Byte × Bool)) : List (Nat × Word × Bool) :=
  let v := leValue (bs.map (·.1))
  if n < 4 then
    [(vunit d L, BitVec.ofNat 32 (if sx then wrapN (sext v (8 * n)) 32 else v), bs.any (·.2))]
  else (List.range (n / 4)).map fun i =>
    (vunit (d + i) L, BitVec.ofNat 32 (v / 2 ^ (32 * i)), ((bs.drop (4 * i)).take 4).any (·.2))

/-- Fill the lines of a plain load into the caches it passed; a hub access fills none (R148, R282). -/
def fillLoad (s : State) (core : Nat) (pas : List Nat) : State :=
  (pas.foldl (fun a pa => setAdd a (pa / 128)) []).foldl (fun s line =>
    if homeOf (line * 128) = some 4 then s else fillLine s core line) s

/-- Write bytes as ST.NC does: through to the L2, with the L1 and cluster copies updated in place (R148). The flag says
whether they are written. -/
def storeNc (s : State) (core : Nat) (bs : List (Nat × Byte)) : State × Bool :=
  (byLine bs).foldl (fun r e =>
    let w := dieWriteLine r.1 (dieOfCore core) e.1 e.2
    let upd (c : CLine) : CLine := e.2.foldl (fun c b => if bit c.present b.1 then
      { c with data := mapPut c.data b.1 0 b.2, dirty := if w.2 then clearBit c.dirty b.1 else c.dirty } else c) c
    let s := modCore w.1 core fun c => { c with l1 := clPut c.l1 e.1 (upd (clGet c.l1 e.1)) }
    (modCluster s (clusterOf core) fun k => { k with cc := clPut k.cc e.1 (upd (clGet k.cc e.1)) }, r.2 && w.2)) (s, true)

end Sys2Proof.Machine
end

