-- ==== Sys2Proof/Machine/Issue.lean ====
section
/-! DEFINITION. The issue of one chain: bounds, waits and holds, the causes of steps 6 to 9 in their order, the effects
of its words, and the rules that follow (R22, R26, R44, R55 to R65, R294, R421). -/
namespace Sys2Proof.Machine

open Sys2Proof

/-- What an instruction word is to the issue of its chain. Every function sees the state and the word's context. -/
structure Sem where
  /-- 0 V, 1 S, 2 L, 3 M, 4 C, 5 none (R55) -/
  pipe : Nat := 5
  /-- registers read for every active lane -/
  reads : List Nat := []
  /-- registers read from the leader lane -/
  leads : List Nat := []
  /-- registers written for every active lane -/
  writes : List Nat := []
  /-- the active lanes for which `writes` are written -/
  wl : Ctx → Nat → Bool := fun _ _ => true
  /-- further registers named, for the bound only -/
  names : List Nat := []
  /-- tiles and accumulators named, and those written -/
  tiles : List Nat := []
  accs : List Nat := []
  wtiles : List Nat := []
  waccs : List Nat := []
  /-- completion flags counted on -/
  flags : List Nat := []
  cls : Option EngClass := none
  /-- needs feature level F2 of the die (R4, R7) -/
  level2 : Bool := false
  /-- a condition that holds the chain (R421) -/
  hold : State → Ctx → Bool := fun _ _ => false
  /-- causes of the instruction as a whole, for the leader lane -/
  pre : State → Ctx → Option Cause := fun _ _ => none
  /-- causes of one active lane, after POISON and STALL_SHORT -/
  lane : State → Ctx → Nat → Option Cause := fun _ _ _ => none
  /-- global accesses to translate before issue (R294) -/
  addrs : State → Ctx → List (Nat × Nat × Acc) := fun _ _ => []
  /-- the word pushes a divergence-stack entry -/
  push : State → Ctx → Bool := fun _ _ => false
  /-- step 9 (R64) -/
  last : State → Ctx → Option Cause := fun _ _ => none
  eff : Ctx → State → State := fun _ s => s
  /-- write-backs that the wait of a held chain sets going; a cache may make them at any time -/
  nudge : Ctx → State → State := fun _ s => s

/-- A chain: its words in slot order with their packet slots. -/
abbrev Chain := List (Nat × Sem)

/-! ### Contexts of the words -/

/-- The lanes on which the word at position i of a chain acts (R22). -/
def wordAct (g : Group) (k : Nat) (v : Slot) (pn i : Nat) : Mask :=
  if i < pn then maskOf fun L => v.mask.getLsbD L && (readUnit g k (vunit v.pv L)) != 0 else v.mask

/-- The context of the word at position i. -/
def wordCtx (s : State) (gid : Nat) (sl : PSlot) (pn next i : Nat) (ps : Nat) : Ctx :=
  let g := getGroup s gid
  let v := g.slot sl
  { gid := gid, sl := sl, g := g, act := wordAct g s.fresh v pn i, mask := v.mask, pc := v.pc, wpc := v.pc - v.pc % 16 + 4 * ps,
    next := next, ps := ps, cyc := cycOf s gid, k := s.fresh }

/-- The window count in force for a chain: a C-pipe word closes the window first (R22). -/
def chainPn (v : Slot) (ch : Chain) : Nat := if ch.any (·.2.pipe == 4) then 0 else v.pn

/-- Pair every word with its context. -/
def chainCtxs (s : State) (gid : Nat) (sl : PSlot) (ch : Chain) (next : Nat) : List (Ctx × Sem) :=
  let v := (getGroup s gid).slot sl
  let ctl := ch.any (·.2.pipe == 4)
  ((List.range ch.length).zip ch).map fun e => ({ wordCtx s gid sl (chainPn v ch) next e.1 e.2.1 with ctl := ctl }, e.2.2)

/-! ### Causes -/

/-- Step 6: an index at or beyond the allocation (R15, R33, R35). -/
def boundCause (r : LRec) (m : Sem) : Option Cause :=
  if (m.reads ++ m.leads ++ m.writes ++ m.names).any (fun n => decide (r.regs * 8 ≤ n)) || m.tiles.any (fun t => decide (r.tiles ≤ t)) ||
    m.accs.any (fun a => decide (r.accs ≤ a)) then some { code := tRegBound } else none

/-- Step 7: not implemented on this die (R7). -/
def emulCause (s : State) (m : Sem) (die : Nat) : Option Cause :=
  if m.level2 && decide ((getDie s die).level < 2) then some { code := tEmulate } else none

/-- POISON and STALL_SHORT of one lane for the registers it reads and writes (R22, R62, R145). -/
def unitCause (g : Group) (sb : Bool) (rd wr : List Nat) (L : Nat) : Option Cause :=
  match rd.find? fun r => g.marks.contains (vunit r L) with
  | some r => some { code := tPoison, lane := some L, detail := r }
  | none =>
    if !sb then none
    else match (rd ++ wr).find? fun r => incomplete g (vunit r L) with
      | some r => some { code := tStallShort, lane := some L, detail := r }
      | none => none

/-- Step 8 for one lane of one word. For the leader lane, the causes of the instruction as a whole come first, then POISON
and STALL_SHORT, then the causes that the instruction gives each lane: R64 leaves POISON and STALL_SHORT no place in the
order of R161 and R164 (DESIGN CHOICE, log 84). -/
def laneCause (s : State) (sb : Bool) (windowed : Bool) (c : Ctx) (m : Sem) (L : Nat) : Option Cause :=
  let pv := if windowed then [(c.g.slot c.sl).pv] else []
  if !c.act.getLsbD L then unitCause c.g sb pv [] L
  else
    let lead := decide (leaderOf c.act = some L)
    match (if lead then m.pre s c else none) with
    | some k => some { k with lane := some L }
    | none => match unitCause c.g sb (pv ++ m.reads ++ (if lead then m.leads else [])) (if m.wl c L then m.writes else []) L with
      | some k => some k
      | none => (m.lane s c L).map fun k => { k with lane := some L }

/-- Step 8 for one word: the lowest lane that has a cause (R64). -/
def wordCause (s : State) (sb : Bool) (windowed : Bool) (c : Ctx) (m : Sem) : Option Cause :=
  firstSome (laneCause s sb windowed c m) (lanesOf (if windowed then c.mask else c.act))

/-- A failing stack access of a chain, as a cause for the slot's leader lane (R312). -/
def stackCause (s : State) (gid : Nat) (mask : Mask) (ts : List (Nat × Bool)) : Option Cause :=
  (stackFail s gid ts).map fun f => xfCause ((leaderOf mask).getD 0) f.1 f.2.1 f.2.2

/-! ### Issue control -/

/-- A path of the group is parked in EMULATE: the group is parked with it (R7). -/
def Group.emulates (g : Group) : Bool := (g.a.waits ++ g.b.waits).contains .emulate

/-- The slot and its team stand ready to issue (R7, R20, R326); a slot with no lanes does not issue (R100). -/
def slotReady (s : State) (gid : Nat) (sl : PSlot) : Bool :=
  let g := getGroup s gid
  let v := g.slot sl
  let t := getTeam s g.team
  (mapGet? s.groups gid).isSome && (mapGet? s.teams g.team).isSome && v.st == .active && v.mask != 0 && v.waits.isEmpty && !g.emulates &&
    !g.retired && !t.saved && t.preempt.isNone && ctxRuns s (getLaunch s t.launch).ctx

/-- An operation whose acquire has not been made: no later memory-access chain of its path issues. It is an atomic with an acquire
part (R153), or an RTRACE, RANY or RHIT that has yet to read a current generation (R229, R244). -/
def acqOpen (o : Op) : Bool := match o.kind with
  | .atomic _ _ _ k _ _ _ => !o.done && (k == 1 || k == 3 || k == 4)
  | .ray _ rays => !o.done && rays.any fun r => r.gen == 0 && !(o.begun.any fun b => b.lane == r.lane)
  | .rhit ls => !o.done && ls.any fun l => l.2.2.1 == 0
  | _ => false

/-- CanIssue of R60, and the wait for an acquiring atomic of the same path (R153, R240). -/
def canIssue (s : State) (gid : Nat) (sl : PSlot) (ch : Chain) : Bool :=
  let g := getGroup s gid
  let v := g.slot sl
  let first := (ch.head?.map (·.1)).getD 1
  let fl := ch.flatMap (·.2.flags)
  decide (v.n ≤ cycOf s gid) &&
  (!cwMark s.word first || (List.range 12).all fun i => !cwWait s.word i || flagCount g i == 0) &&
  !(ch.any (fun e => e.2.pipe == 2 || e.2.pipe == 3) && g.ops.any fun o => acqOpen o && !o.skips.contains (slotKey sl)) &&
  (fl.all fun i => decide (flagCount g i + (fl.filter (· == i)).length ≤ 7)) &&
  ch.all fun e => match e.2.cls with
    | none => true
    | some c => decide (counter g c ≠ 63)

/-- One core cycle of a group's quadrant passes. -/
def passCycle (s : State) (gid : Nat) : State :=
  setCyc s (coreOf s gid) (getGroup s gid).quad (cycOf s gid + 1)

/-- The slots in their turn: two for each group. -/
def allSlots (s : State) : List (Nat × PSlot) := s.groups.flatMap fun g => [(g.1, .a), (g.1, .b)]

/-- A slot stands after another in the turn of slots. -/
def slotAfter (c g : Nat × PSlot) : Bool := decide (c.1 < g.1) || (c.1 == g.1 && c.2 == .a && g.2 == .b)

/-- The slots in the order in which they are tried after a slot. -/
def slotsAfter (s : State) (c : Nat × PSlot) : List (Nat × PSlot) :=
  (allSlots s).partition (slotAfter c) |> fun r => r.1 ++ r.2

/-- After a chain, the next ready slot in turn is the one to be tried, the other slot of the group before any other of a
later group, and what is due comes before it (R21, log 4). -/
def nextCur (s : State) (gid : Nat) (sl : PSlot) : State :=
  let s := modGroup s gid fun g => { g with turn := sl }
  { s with cur := some (((slotsAfter s (gid, sl)).find? fun c => slotReady s c.1 c.2).getD (gid, sl)), idling := true }

/-- A trap of a chain: taken at its boundary, in one cycle. -/
def chainTrap (s : State) (gid : Nat) (sl : PSlot) (word pc res : Nat) (c : Cause) : State :=
  nextCur (passCycle (takeTrap (bump s) gid sl word pc res c) gid) gid sl

/-- What follows a chain: a group with no path left retires, else the rules apply (R26, R28). -/
def afterChain (s : State) (gid : Nat) (sl : PSlot) : State :=
  let s := applyRules s gid (some sl)
  if groupDone (getGroup s gid) then retireGroup s gid else s

/-- The state in which a chain's effects start: the slot stands at the next chain with its window counted down, N set
from the stall count of the first word, and the issue cycle past (R22, R58). -/
def chainStart (s : State) (gid : Nat) (sl : PSlot) (ch : Chain) (next : Nat) : State :=
  let t := cycOf s gid
  let stall := cwStall s.word ((ch.head?.map (·.1)).getD 1)
  passCycle (modSlot s gid sl fun v => { v with pc := next, n := t + 1 + stall, pn := chainPn v ch - ch.length }) gid

/-- The causes of steps 6 and 7, word by word. -/
def earlyCause (s : State) (gid : Nat) (ch : Chain) : Option (Nat × Cause) :=
  match firstSome (fun e => (boundCause (lrecOf s gid) e.2).map fun c => (e.1, c)) ch with
  | some r => some r
  | none => firstSome (fun e => (emulCause s e.2 (dieOf s gid)).map fun c => (e.1, c)) ch

/-- The causes of steps 8 and 9, word by word. -/
def lateCause (s : State) (gid pn : Nat) (ws : List (Ctx × Sem)) : Option (Nat × Cause) :=
  match firstSome (fun e => (wordCause s (lrecOf s gid).scoreboard (decide (e.1 < pn)) e.2.1 e.2.2).map fun c => (e.2.1.ps, c))
      ((List.range ws.length).zip ws) with
  | some r => some r
  | none => firstSome (fun e => (e.2.last s e.1).map fun c => (e.1.ps, c)) ws

/-- Make the translations of a chain's global accesses (R294). -/
def fillAll (s : State) (gid : Nat) (as : List (Nat × Nat × Acc)) : State :=
  as.foldl (fun s a => fillRange s (coreOf s gid) (ctxOf s gid) a.1 a.2.1 a.2.2) s

/-- The trap of a step-9 cause or of a PROMISE_MISS resumes at the next chain, any other at the chain itself (R114). -/
def resumeOf (c : Cause) (pc next : Nat) : Nat := if c.code = tBkpt ∨ 0x80 ≤ c.code then next else pc

/-- Issue a chain from a slot (R56, R57, R60, R64): none while it cannot issue, else the state after it issued or
trapped. -/
def issueChain (s : State) (gid : Nat) (sl : PSlot) (ch : Chain) : Option State :=
  if !slotReady s gid sl then none
  else
    let s := modGroup s gid fun g => g.landV s.fresh (cycOf s gid)
    let v := (getGroup s gid).slot sl
    let next := nextChain s.word v.pc ((ch.getLast?.map (·.1)).getD 1)
    match earlyCause s gid ch with
    | some (w, c) => some (chainTrap s gid sl w v.pc v.pc c)
    | none =>
      let ws := chainCtxs s gid sl ch next
      if !canIssue s gid sl ch || ws.any (fun e => e.2.hold s e.1) then none
      else
        let s := fillAll s gid (ws.flatMap fun e => e.2.addrs s e.1)
        match lateCause s gid (chainPn v ch) ws with
        | some (w, c) => some (chainTrap s gid sl w v.pc (resumeOf c v.pc next) c)
        | none =>
          let pushes := if ws.any (fun e => e.2.push s e.1) then [((getGroup s gid).stack.length, true)] else []
          let s := stackFill s gid pushes
          match stackCause s gid v.mask pushes with
          | some c => some (chainTrap s gid sl ((ch.getLast?.map (·.1)).getD 1) v.pc v.pc c)
          | none =>
            let s' := ws.foldl (fun s e => e.2.eff e.1 s) (chainStart (bump s) gid sl ch next)
            let g' := getGroup s' gid
            let ts := rulesTouch (stackLook s' gid) (ruleFuel g') g'
            let s := stackFill s gid ts
            match stackCause s gid v.mask ts with
            | some c => some (chainTrap s gid sl ((ch.getLast?.map (·.1)).getD 1) v.pc v.pc c)
            | none => some (nextCur (afterChain s' gid sl) gid sl)

/-- What the wait of a held chain sets going. -/
def nudgeChain (s : State) (gid : Nat) (sl : PSlot) (ch : Chain) : State :=
  if !slotReady s gid sl then s
  else (chainCtxs s gid sl ch 0).foldl (fun s e => if e.2.hold s e.1 then e.2.nudge e.1 s else s) s

/-- Issue a chain, or let a cycle pass; the flag says whether it issued or trapped. -/
def issueOrWait (s : State) (gid : Nat) (sl : PSlot) (ch : Chain) : State × Bool :=
  match issueChain s gid sl ch with
  | some s' => (s', true)
  | none => (nextCur (passCycle (nudgeChain s gid sl ch) gid) gid sl, false)

/-- Issue one instruction as the chain of the current slot; while it cannot issue, a cycle passes. -/
def issueOne (m : Sem) (s : State) : State :=
  match s.cur with
  | none => s
  | some (gid, sl) => (issueOrWait s gid sl [(pcSlot ((getGroup s gid).slot sl).pc, m)]).1

end Sys2Proof.Machine
end

