-- ==== Sys2Proof/Machine/Float.lean ====
section
/-! DEFINITION. Number formats and the exact arithmetic of floating-point values, rounded once (R115 to R124, R127 to
R139). -/
namespace Sys2Proof.Machine

open Sys2Proof

/-- The value of an encoding (R117): `fin s m q` is (-1)^s * m * 2^q with m not 0. -/
inductive FVal where
  | nan
  | inf (s : Bool)
  | zero (s : Bool)
  | fin (s : Bool) (m : Nat) (q : Int)
  deriving DecidableEq, Repr

/-- A floating-point format (R116): width, exponent and fraction bits, bias, binades, the largest significand in the top
binade, the canonical NaN (R122), and whether it has infinities. -/
structure Fmt where
  w    : Nat
  eb   : Nat
  k    : Nat
  bias : Nat
  emin : Int
  emax : Int
  top  : Nat
  cnan : Nat
  inf  : Bool
  deriving DecidableEq, Repr

def fmtOf : FFmt → Fmt
  | .f32 => { w := 32, eb := 8, k := 23, bias := 127, emin := -126, emax := 127, top := 2 ^ 24 - 1, cnan := 0x7FC00000, inf := true }
  | .f16 => { w := 16, eb := 5, k := 10, bias := 15, emin := -14, emax := 15, top := 2 ^ 11 - 1, cnan := 0x7E00, inf := true }
  | .bf16 => { w := 16, eb := 8, k := 7, bias := 127, emin := -126, emax := 127, top := 2 ^ 8 - 1, cnan := 0x7FC0, inf := true }
  | .e4m3 => { w := 8, eb := 4, k := 3, bias := 7, emin := -6, emax := 8, top := 14, cnan := 0x7F, inf := false }
  | .e5m2 => { w := 8, eb := 5, k := 2, bias := 15, emin := -14, emax := 15, top := 7, cnan := 0x7E, inf := true }
  | .e2m1 => { w := 4, eb := 2, k := 1, bias := 1, emin := 0, emax := 2, top := 3, cnan := 0, inf := false }
  | .e8m0 => { w := 8, eb := 8, k := 0, bias := 127, emin := -127, emax := 127, top := 1, cnan := 0xFF, inf := false }

/-- The value of a pattern of a format (R117). -/
def decodeF (f : FFmt) (x : Nat) : FVal :=
  let t := fmtOf f
  if f = .e8m0 then (if x % 256 = 0xFF then .nan else .fin false 1 ((x % 256 : Nat) - 127))
  else
    let s := bit x (t.w - 1)
    let e := bits x (t.w - 2) t.k
    let fr := x % 2 ^ t.k
    if t.inf ∧ e = 2 ^ t.eb - 1 then (if fr = 0 then .inf s else .nan)
    else if f = .e4m3 ∧ x % 128 = 0x7F then .nan
    else if e = 0 then (if fr = 0 then .zero s else .fin s fr (1 - (t.bias : Int) - t.k))
    else .fin s (2 ^ t.k + fr) ((e : Int) - t.bias - t.k)

/-- The sign bit of a format. -/
def signBit (t : Fmt) (s : Bool) : Nat := if s then 2 ^ (t.w - 1) else 0

/-- The pattern of an infinity. -/
def infPat (t : Fmt) (s : Bool) : Nat := signBit t s + (2 ^ t.eb - 1) * 2 ^ t.k

/-- The pattern of the largest finite number. -/
def maxPat (t : Fmt) (s : Bool) : Nat := signBit t s + (t.emax + t.bias).toNat * 2 ^ t.k + (t.top - 2 ^ t.k)

/-- Round the magnitude N / D to an integer, for a value of sign s (R120 RoundInt). -/
def roundDiv (r : Rnd) (s : Bool) (n d : Nat) : Nat :=
  let q := n / d
  let m := n % d
  let up := match r with
    | .rne => decide (d < 2 * m) || (decide (2 * m = d) && q % 2 == 1)
    | .rtz => false
    | .rdn => s && m != 0
    | .rup => !s && m != 0
  if up then q + 1 else q

/-- Overflow of a format (R120). -/
def overflowPat (f : FFmt) (s : Bool) (r : Rnd) (sat : Bool) : Nat :=
  let t := fmtOf f
  if sat ∨ f = .e2m1 then maxPat t s
  else if f = .e4m3 then t.cnan
  else match r with
    | .rne => infPat t s
    | .rtz => maxPat t s
    | .rup => if s then maxPat t s else infPat t s
    | .rdn => if s then infPat t s else maxPat t s

/-- Floor(Log2(n / d)) of positive n and d. -/
def floorLog2 (n d : Nat) : Int :=
  let g : Int := (Nat.log2 n : Int) - Nat.log2 d
  let ge (e : Int) : Bool := if 0 ≤ e then decide (d * 2 ^ e.toNat ≤ n) else decide (d ≤ n * 2 ^ (-e).toNat)
  if ge g then g else g - 1

/-- RoundTo of R120: the pattern of (-1)^s * n / d * 2^q, n and d positive, rounded once. -/
def roundF (f : FFmt) (r : Rnd) (sat s : Bool) (n d : Nat) (q : Int) : Nat :=
  let t := fmtOf f
  let e0 := floorLog2 n d + q
  let e := if e0 < t.emin then t.emin else e0
  let sh := q - e + t.k
  let m := if 0 ≤ sh then roundDiv r s (n * 2 ^ sh.toNat) d else roundDiv r s n (d * 2 ^ (-sh).toNat)
  let e' := if m = 2 ^ (t.k + 1) then e + 1 else e
  let m' := if m = 2 ^ (t.k + 1) then 2 ^ t.k else m
  if t.emax < e' ∨ (e' = t.emax ∧ t.top < m') then overflowPat f s r sat
  else if m' < 2 ^ t.k then signBit t s + m'
  else signBit t s + (e' + t.bias).toNat * 2 ^ t.k + (m' - 2 ^ t.k)

/-- The pattern of a value that the format holds, or its rounding. -/
def encodeF (f : FFmt) (r : Rnd) (sat : Bool) : FVal → Nat
  | .nan => (fmtOf f).cnan
  | .inf s => infPat (fmtOf f) s
  | .zero s => signBit (fmtOf f) s
  | .fin s m q => roundF f r sat s m 1 q

/-! ### Exact sums and products (R121, R127) -/

def FVal.sign : FVal → Bool
  | .nan => false
  | .inf s => s
  | .zero s => s
  | .fin s _ _ => s

def FVal.neg : FVal → FVal
  | .nan => .nan
  | .inf s => .inf (!s)
  | .zero s => .zero (!s)
  | .fin s m q => .fin (!s) m q

/-- The exact product (R121, R127). -/
def fmulV : FVal → FVal → FVal
  | .nan, _ => .nan
  | _, .nan => .nan
  | .inf _, .zero _ => .nan
  | .zero _, .inf _ => .nan
  | .inf s, y => .inf (s != y.sign)
  | x, .inf s => .inf (x.sign != s)
  | .zero s, y => .zero (s != y.sign)
  | x, .zero s => .zero (x.sign != s)
  | .fin s m q, .fin s' m' q' => .fin (s != s') (m * m') (q + q')

/-- The exact sum of a list of terms, a zero signed as R121 lays down. -/
def fsumV (r : Rnd) (ts : List FVal) : FVal :=
  if ts.any fun t => t == .nan then .nan
  else match ts.find? fun t => match t with
      | .inf _ => true
      | _ => false with
    | some i => if ts.any fun t => match t with
        | .inf s => s != i.sign
        | _ => false then .nan else i
    | none =>
      let q := ts.foldl (fun (a : Int) t => match t with
        | .fin _ _ q => if q < a then q else a
        | _ => a) 4096
      let v := ts.foldl (fun (a : Int) t => match t with
        | .fin s m e => a + (if s then -1 else 1) * ((m * 2 ^ (e - q).toNat : Nat) : Int)
        | _ => a) 0
      if v = 0 then
        let s0 := (ts.headD (.zero false)).sign
        if (ts.all fun t => match t with
            | .zero s => s == s0
            | _ => false) then .zero s0 else .zero (r == .rdn)
      else .fin (decide (v < 0)) v.natAbs q

def fadd (f : FFmt) (r : Rnd) (x y : Nat) : Nat := encodeF f r false (fsumV r [decodeF f x, decodeF f y])
def fmul (f : FFmt) (r : Rnd) (x y : Nat) : Nat := encodeF f r false (fmulV (decodeF f x) (decodeF f y))
def ffma (f : FFmt) (r : Rnd) (x y z : Nat) : Nat := encodeF f r false (fsumV r [fmulV (decodeF f x) (decodeF f y), decodeF f z])

/-- F32 addition of an atomic, rounded RNE (R151). -/
def faddAtomic (x y : Nat) : Nat := fadd .f32 .rne x y

/-! ### Order (R128, R129) -/

/-- A total order key of F32 patterns that are not NaN: -0 below +0. -/
def fkey (x : Nat) : Int := if bit x 31 then -((x % 2 ^ 31 : Nat) : Int) - 1 else (x % 2 ^ 31 : Nat)

def isNan32 (x : Nat) : Bool := decodeF .f32 x == .nan

def fminOp (x y : Nat) : Nat :=
  if isNan32 x then (if isNan32 y then 0x7FC00000 else y) else if isNan32 y then x else if fkey x ≤ fkey y then x else y

def fmaxOp (x y : Nat) : Nat :=
  if isNan32 x then (if isNan32 y then 0x7FC00000 else y) else if isNan32 y then x else if fkey x ≤ fkey y then y else x

/-- The numeric order of F32 patterns that are not NaN, zeros equal (R129). -/
def fordKey (x : Nat) : Int := if bit x 31 then -((x % 2 ^ 31 : Nat) : Int) else (x % 2 ^ 31 : Nat)

def fcond (m : FCond) (x y : Nat) : Bool :=
  let un := isNan32 x || isNan32 y
  match m with
  | .eq => !un && decide (fordKey x = fordKey y)
  | .ne => un || decide (fordKey x ≠ fordKey y)
  | .lt => !un && decide (fordKey x < fordKey y)
  | .le => !un && decide (fordKey x ≤ fordKey y)
  | .un => un
  | .ord => !un

/-! ### Integral values and classes (R130, R131) -/

/-- RoundInt of a finite value, as a magnitude. -/
def roundMag (r : Rnd) (s : Bool) (m : Nat) (q : Int) : Nat :=
  if 0 ≤ q then m * 2 ^ q.toNat else roundDiv r s m (2 ^ (-q).toNat)

def frndOp (r : Rnd) (x : Nat) : Nat :=
  match decodeF .f32 x with
  | .nan => 0x7FC00000
  | .inf _ => x
  | .zero _ => x
  | .fin s m q =>
    let n := roundMag r s m q
    if n = 0 then signBit (fmtOf .f32) s else roundF .f32 r false s n 1 0

/-- The format of FCLASS. -/
def clsFmt : ClsFmt → FFmt
  | .f32 => .f32
  | .f16 => .f16
  | .bf16 => .bf16

def fclassOp (m : ClsFmt) (x : Nat) : Nat :=
  let t := fmtOf (clsFmt m)
  let x := x % 2 ^ t.w
  match decodeF (clsFmt m) x with
  | .nan => if bit x (t.k - 1) then 2 ^ 9 else 2 ^ 8
  | .inf s => if s then 1 else 2 ^ 7
  | .zero s => if s then 2 ^ 3 else 2 ^ 4
  | .fin s _ _ =>
    if bits x (t.w - 2) t.k = 0 then (if s then 2 ^ 2 else 2 ^ 5) else (if s then 2 else 2 ^ 6)

/-! ### Packed pairs (R132, R133) -/

def pkFmt (bf : Bool) : FFmt := if bf then .bf16 else .f16
def lo16 (x : Nat) : Nat := x % 65536
def hi16 (x : Nat) : Nat := x / 65536 % 65536

def pack2 (f : Nat → Nat → Nat → Nat) (x y z : Nat) : Nat :=
  f (lo16 x) (lo16 y) (lo16 z) + 65536 * f (hi16 x) (hi16 y) (hi16 z)

def pdot2 (bf : Bool) (r : Rnd) (x y z : Nat) : Nat :=
  let d := decodeF (pkFmt bf)
  encodeF .f32 r false (fsumV r [fmulV (d (lo16 x)) (d (lo16 y)), fmulV (d (hi16 x)) (d (hi16 y)), decodeF .f32 z])

/-! ### Special-pipe functions (R134) -/

def nan32 : Nat := 0x7FC00000
def inf32 (s : Bool) : Nat := infPat (fmtOf .f32) s
def zero32 (s : Bool) : Nat := signBit (fmtOf .f32) s
def one32 : Nat := 0x3F800000

def fdiv (r : Rnd) (x y : Nat) : Nat :=
  match decodeF .f32 x, decodeF .f32 y with
  | .nan, _ => nan32
  | _, .nan => nan32
  | .zero _, .zero _ => nan32
  | .inf _, .inf _ => nan32
  | .inf s, v => inf32 (s != v.sign)
  | .fin s _ _, .zero t => inf32 (s != t)
  | u, .inf t => zero32 (u.sign != t)
  | .zero s, v => zero32 (s != v.sign)
  | .fin s m q, .fin t n p => roundF .f32 r false (s != t) m n (q - p)

/-- Floor of the square root, from an upper bound on its bits. -/
def isqrtN (x : Nat) : Nat → Nat → Nat
  | 0, a => a
  | n + 1, a => isqrtN x n (if (a + 2 ^ n) * (a + 2 ^ n) ≤ x then a + 2 ^ n else a)

/-- Floor of the square root. -/
def isqrt (x : Nat) : Nat := isqrtN x (bitLen x / 2 + 1) 0

/-- Round a value known to lie strictly between n and n + 1 units of 2^q, or to equal n units when `exact`, into F32. -/
def roundBetween (r : Rnd) (s exact : Bool) (n : Nat) (q : Int) : Nat :=
  if exact then roundF .f32 r false s n 1 q else roundF .f32 r false s (2 * n + 1) 1 (q - 1)

def fsqrt (r : Rnd) (x : Nat) : Nat :=
  match decodeF .f32 x with
  | .nan => nan32
  | .zero s => zero32 s
  | .inf s => if s then nan32 else inf32 false
  | .fin s m q =>
    if s then nan32
    else
      let m' := if q % 2 = 0 then m * 2 ^ 64 else m * 2 ^ 65
      let q' := if q % 2 = 0 then q - 64 else q - 65
      let n := isqrt m'
      roundBetween r false (decide (n * n = m')) n (q' / 2)

def frsq (r : Rnd) (x : Nat) : Nat :=
  match decodeF .f32 x with
  | .nan => nan32
  | .zero s => inf32 s
  | .inf s => if s then nan32 else zero32 false
  | .fin s m q =>
    if s then nan32
    else
      let k : Nat := if q % 2 = 0 then 128 else 129
      let n := isqrt (2 ^ k / m)
      roundBetween r false (decide (n * n * m = 2 ^ k)) n ((-q - k) / 2)

/-- Pi and ln 2 in units of 2^-560, rounded down. -/
def piFix : Nat := 0x3243f6a8885a308d313198a2e03707344a4093822299f31d0082efa98ec4e6c89452821e638d01377be5466cf34e90c6cc0ac29b7c97c50dd3f84d5b5b54709179216d5d98979
def ln2Fix : Nat := 0xb17217f7d1cf79abc9e3b39803f2f6af40f343267298b62d8a0d175b8baafa2be7b876206debac98559552fb4afa1b10ed2eae35c138214427573b291169b8253e96ca16224a

/-- Fraction bits of the fixed-point series below. -/
def fixBits : Nat := 560

/-- The sum of the exponential series: term, its index, and the sum so far, in units of 2^-560. -/
def expSeries (y : Nat) : Nat → Nat → Nat → Nat → Nat
  | 0, _, _, acc => acc
  | n + 1, k, t, acc =>
    let t' := t * y / 2 ^ fixBits / k
    if t' = 0 then acc else expSeries y n (k + 1) t' (acc + t')

/-- 2^f in units of 2^-560, for a fraction f below 1 in the same units. -/
def exp2Fix (f : Nat) : Nat := expSeries (f * ln2Fix / 2 ^ fixBits) 200 1 (2 ^ fixBits) (2 ^ fixBits)

/-- The sum of the area-tangent series of t: power, its odd index, and the sum so far. -/
def atanhSeries (t2 : Nat) : Nat → Nat → Nat → Nat → Nat
  | 0, _, _, acc => acc
  | n + 1, k, p, acc => if p = 0 then acc else atanhSeries t2 n (k + 2) (p * t2 / 2 ^ fixBits) (acc + p / k)

/-- log2 of m / 2^b for 2^b <= m < 2^(b+1), in units of 2^-560. -/
def log2Fix (m b : Nat) : Nat :=
  let t := (m - 2 ^ b) * 2 ^ fixBits / (m + 2 ^ b)
  2 * atanhSeries (t * t / 2 ^ fixBits) 400 1 t 0 * 2 ^ fixBits / ln2Fix

/-- Alternating series of sine and cosine: term, index, sum; `neg` when the next term is subtracted. -/
def trigSeries (y2 : Nat) : Nat → Nat → Nat → Bool → Int → Int
  | 0, _, _, _, acc => acc
  | n + 1, k, t, neg, acc =>
    let t' := t * y2 / 2 ^ fixBits / (k * (k + 1))
    if t' = 0 then acc else trigSeries y2 n (k + 2) t' (!neg) (if neg then acc - (t' : Int) else acc + (t' : Int))

/-- sin and cos of pi * f, for f from 0 to 1/2 in units of 2^-560. -/
def sinFix (f : Nat) : Nat :=
  let y := f * piFix / 2 ^ fixBits
  (trigSeries (y * y / 2 ^ fixBits) 200 2 y true (y : Int)).toNat
def cosFix (f : Nat) : Nat :=
  let y := f * piFix / 2 ^ fixBits
  (trigSeries (y * y / 2 ^ fixBits) 200 1 (2 ^ fixBits) true ((2 ^ fixBits : Nat) : Int)).toNat

/-- A value m * 2^q in units of 2^-k, where q >= -k. -/
def toFix (m : Nat) (q : Int) (k : Nat) : Nat := m * 2 ^ (q + k).toNat

def fexp2 (r : Rnd) (x : Nat) : Nat :=
  match decodeF .f32 x with
  | .nan => nan32
  | .zero _ => one32
  | .inf s => if s then zero32 false else inf32 false
  | .fin s m q =>
    if 8 < floorLog2 m 1 + q then
      -- |x| is at least 512: beyond every binade, rounded as a value far outside the range
      (if s then roundF .f32 r false false 1 1 (-400) else roundF .f32 r false false 1 1 400)
    else
      let v : Int := (if s then -1 else 1) * (toFix m q fixBits : Nat)
      let i := v / (2 ^ fixBits : Nat)
      let f := (v % (2 ^ fixBits : Nat)).toNat
      if f = 0 then roundF .f32 r false false 1 1 i else roundBetween r false false (exp2Fix f) (i - fixBits)

def flog2 (r : Rnd) (x : Nat) : Nat :=
  match decodeF .f32 x with
  | .nan => nan32
  | .zero _ => inf32 true
  | .inf s => if s then nan32 else inf32 false
  | .fin s m q =>
    if s then nan32
    else
      let b := Nat.log2 m
      let e := q + b
      if m = 2 ^ b then (if e = 0 then zero32 false else roundF .f32 r false (decide (e < 0)) e.natAbs 1 0)
      else
        let v : Int := e * (2 ^ fixBits : Nat) + (log2Fix m b : Nat)
        if v < 0 then roundBetween r true false ((-v).toNat - 1) (-(fixBits : Int)) else roundBetween r false false v.toNat (-(fixBits : Int))

/-- sin(pi * x) of a fraction x of a turn of 2, in units of 2^-560 below 2: the sign and the magnitude, exact or not. -/
def sinTurn (v : Nat) : Bool × Bool × Nat :=
  let one := 2 ^ fixBits
  let s := decide (one ≤ v)
  let w := v % one
  let w := if one / 2 < w then one - w else w
  if w = 0 then (s, true, 0) else if w = one / 2 then (s, true, one)
  else if w ≤ one / 4 then (s, false, sinFix w) else (s, false, cosFix (one / 2 - w))

def fsinpi (r : Rnd) (x : Nat) : Nat :=
  match decodeF .f32 x with
  | .nan => nan32
  | .inf _ => nan32
  | .zero s => zero32 s
  | .fin s m q =>
    let v := toFix m q fixBits % (2 * 2 ^ fixBits)
    let t := sinTurn v
    if t.2.2 = 0 then zero32 s else roundBetween r (t.1 != s) t.2.1 t.2.2 (-(fixBits : Int))

def fcospi (r : Rnd) (x : Nat) : Nat :=
  match decodeF .f32 x with
  | .nan => nan32
  | .inf _ => nan32
  | .zero _ => one32
  | .fin _ m q =>
    let v := (toFix m q fixBits + 2 ^ fixBits / 2) % (2 * 2 ^ fixBits)
    let t := sinTurn v
    if t.2.2 = 0 then zero32 false else roundBetween r t.1 t.2.1 t.2.2 (-(fixBits : Int))

/-! ### Conversions (R136 to R139) -/

/-- ConvertF of R136, from a decoded value. -/
def convertF (dst : FFmt) (r : Rnd) (sat : Bool) (x : FVal) : Nat :=
  let t := fmtOf dst
  match x with
  | .nan => t.cnan
  | .inf s =>
    if dst = .e8m0 then 0xFF
    else if sat ∨ dst = .e2m1 then maxPat t s else if dst = .e4m3 then t.cnan else infPat t s
  | .zero s => if dst = .e8m0 then 0xFF else signBit t s
  | .fin s m q =>
    if dst = .e8m0 then (clampI (floorLog2 m 1 + q + 127) 0 254).toNat else roundF dst r sat s m 1 q

/-- Range and width of an integer format (R115). -/
def ifmtBits : IFmt → Nat
  | .s32 => 32 | .n32 => 32 | .s16 => 16 | .n16 => 16 | .s8 => 8 | .n8 => 8 | .s64 => 64 | .n64 => 64
def ifmtSigned : IFmt → Bool
  | .s32 => true | .s16 => true | .s8 => true | .s64 => true | _ => false
def ifmtMin (f : IFmt) : Int := if ifmtSigned f then -((2 ^ (ifmtBits f - 1) : Nat) : Int) else 0
def ifmtMax (f : IFmt) : Int := (2 ^ (if ifmtSigned f then ifmtBits f - 1 else ifmtBits f) : Nat) - 1

/-- The integer that CVTI gives, as an integer (R137). -/
def cvtiInt (i : IFmt) (r : Rnd) (x : FVal) : Int :=
  match x with
  | .nan => 0
  | .zero _ => 0
  | .inf s => if s then ifmtMin i else ifmtMax i
  | .fin s m q =>
    if 80 < floorLog2 m 1 + q then (if s then ifmtMin i else ifmtMax i)
    else
      let n : Int := (roundMag r s m q : Nat)
      clampI (if s then -n else n) (ifmtMin i) (ifmtMax i)

/-- The result of CVTIF of an integer (R138). -/
def cvtifInt (f : FFmt) (r : Rnd) (sat : Bool) (n : Int) : Nat :=
  if n = 0 then 0 else roundF f r sat (decide (n < 0)) n.natAbs 1 0

/-- The integer source of CVTIF (R138). -/
def cvtifSrc (i : IFmt) (x : Nat) : Int := if ifmtSigned i then sext x (ifmtBits i) else (x % 2 ^ ifmtBits i : Nat)

/-- CVTPK of two F32 values over the old destination (R139). -/
def cvtpkOp (m : PkForm) (x y z : Nat) : Nat :=
  let cv (f : FFmt) (sat : Bool) (v : Nat) : Nat := convertF f .rne sat (decodeF .f32 v)
  let w8 (f : FFmt) (sat : Bool) : Nat := cv f sat y * 2 ^ 24 + cv f sat x * 2 ^ 16 + bits z 31 16
  match m with
  | .f16 => cv .f16 false y * 2 ^ 16 + cv .f16 false x
  | .bf16 => cv .bf16 false y * 2 ^ 16 + cv .bf16 false x
  | .e4m3 => w8 .e4m3 false
  | .e5m2 => w8 .e5m2 false
  | .e4m3s => w8 .e4m3 true
  | .e5m2s => w8 .e5m2 true
  | .e2m1 => cv .e2m1 true y * 2 ^ 28 + cv .e2m1 true x * 2 ^ 24 + bits z 31 8

end Sys2Proof.Machine
end

