-- ==== Sys2Proof/Machine/Buffers.lean ====
section
/-! DEFINITION. Buffers of a team: their handles, states and wakes (R39, R109, R149, R196 to R199). -/
namespace Sys2Proof.Machine

open Sys2Proof

def bufOf (s : State) (gid i : Nat) : Buf := mapGetD (teamOf s gid).bufs i {}
def modBuf (s : State) (gid i : Nat) (f : Buf → Buf) : State :=
  modTeam s (getGroup s gid).team fun t => { t with bufs := mapSet t.bufs i (f (mapGetD t.bufs i {})) }

/-- The index that a buffer handle names, unless it is stale (R39, R196). -/
def bufIdx? (s : State) (gid h : Nat) : Option Nat :=
  let i := bits h 7 0
  let b := bufOf s gid i
  if h < 2 ^ 12 ∧ i < 32 ∧ b.alloc = true ∧ b.serial = bits h 11 8 then some i else none

/-- The handle of a buffer index (R39). -/
def bufHandle (b : Buf) (i : Nat) : Nat := i + b.serial * 2 ^ 8

/-- The cause of a handle that must name a buffer not in state FREE (R109, R149). -/
def bufCause (s : State) (gid h : Nat) : Option Cause :=
  match bufIdx? s gid h with
  | none => some { code := tHandleStale, detail := h }
  | some i => if (bufOf s gid i).st = .free then some { code := tHandleState, detail := h } else none

/-- The buffer state word (R199). -/
def bufWord (b : Buf) : Nat :=
  (match b.st with
    | .free => 0
    | .filling => 1
    | .full => 2
    | .draining => 3) + b.status * 2 ^ 8 + (b.size / 16 - 1) * 2 ^ 16

/-- A slot sleeps on buffer i (R109). -/
def sleepsOn (i : Nat) (v : Slot) : Bool := v.waits.any fun w => match w with
  | .buffer h _ _ => bits h 7 0 == i
  | _ => false

/-- Buffer i of a group's team has become FULL: the slots that sleep on it wake (R30, R109). -/
def wakeBuffer (s : State) (gid i : Nat) : State :=
  (groupsOf s (getGroup s gid).team).foldl (fun s g =>
    if (sleepsOn i g.2.a || sleepsOn i g.2.b) && !g.2.retired then
      applyRules (modGroup s g.1 fun x =>
        { x with a := if sleepsOn i x.a then x.a.wake Wait.sleeps else x.a, b := if sleepsOn i x.b then x.b.wake Wait.sleeps else x.b }) g.1
    else s) s

end Sys2Proof.Machine
end

