-- ==== Sys2Proof/Machine/Order.lean ====
section
/-! DEFINITION. Releases and acquires of a path: what must be performed before, and the cache actions
(R153, R156, R157, R236, R244). -/
namespace Sys2Proof.Machine

open Sys2Proof

/-- An access whose performance a release waits for, or whose data an acquire waits for. -/
def accessOp (o : Op) : Bool := !o.done && match o.kind with
  | .load _ _ _ _ => true
  | .store _ _ rest => !rest.isEmpty
  | .wload _ _ _ => true
  | .wstore _ => true
  | .atomic _ _ _ _ _ _ _ => true
  | .cacheOp _ _ _ => true
  | .rhit _ => true
  | .rgenq _ => true
  | _ => false

/-- The release of R244 at a scope for the operations of a group numbered below `id`, but for those `apart` that do not
precede it in path order (R240): the write-backs of R157 are attempted; the flag says whether every earlier access is
performed at the scope. -/
def released (s : State) (gid id : Nat) (apart : List Nat) (sc : Scope) : State × Bool :=
  let r := releaseCaches s (coreOf s gid) sc
  let quiet := !((getGroup s gid).ops.any fun o => decide (o.id < id) && !apart.contains o.id && accessOp o)
  let s := if 6 ≤ sc.code then pushPairs r.1 else r.1
  (s, r.2 && quiet && (decide (sc.code < 6) || logsFit s))

/-- The release that a slot's next access makes. -/
def slotReleased (s : State) (gid : Nat) (sl : PSlot) (sc : Scope) : State × Bool :=
  released s gid (getGroup s gid).nextOp ((getGroup s gid).apartOf sl) sc

/-- The release of a slot's path is made: nothing of the path is outstanding that it waits for. -/
def isReleased (s : State) (gid : Nat) (sl : PSlot) (sc : Scope) : Bool := (slotReleased s gid sl sc).2

/-- Set the write-backs of a release going. -/
def flushFor (s : State) (gid : Nat) (sl : PSlot) (sc : Scope) : State := (slotReleased s gid sl sc).1

/-- The invalidations of an acquire at a scope (R157). -/
def acquired (s : State) (gid : Nat) (sc : Scope) : State :=
  if sc.code < 3 then s else acquireCore s (coreOf s gid) (decide (4 ≤ sc.code))

/-- A pending access of the group, but for those `apart`, covers a byte: a later access of its path to the byte follows it
(R143, R240). -/
def bytePending (g : Group) (apart : List Nat) (pa : Nat) : Bool :=
  g.ops.any fun o => !o.done && !apart.contains o.id && match o.kind with
    | .load _ _ _ ls => ls.any fun l => l.pas.contains pa && (mapGet? l.got pa).isNone
    | .store _ _ rest => rest.any (·.1 == pa)
    | .atomic _ n _ _ ls _ _ => ls.any fun l => decide (l.2.1 ≤ pa) && decide (pa < l.2.1 + n)
    | _ => false

/-- A piece of an access of the group to the scratch window is pending at an offset, but for operations `apart`: a later access of
its path to the byte follows it (R143, R240). -/
def winPending (g : Group) (apart : List Nat) (o : Nat) : Bool :=
  g.ops.any fun p => !p.done && !apart.contains p.id && match p.kind with
    | .wload _ _ ls => ls.any fun l => l.pas.contains o && (mapGet? l.got o).isNone
    | .wstore rest => rest.any (·.1 == o)
    | _ => false

/-- Some load, atomic or piece of a store of the group is pending. -/
def anyPending (g : Group) : Bool := g.ops.any fun o => match o.kind with
  | .load _ _ _ _ => true
  | .store _ _ rest => !rest.isEmpty
  | .atomic _ _ _ _ _ _ _ => true
  | _ => false

/-- Write back a line of a core from its L1 and its cluster cache to the die's L2 (R153, R158). -/
def wbThrough (s : State) (core line : Nat) : State × Bool :=
  let r := wbL1 s core line
  let q := wbCC r.1 (clusterOf core) line
  (q.1, r.2 && q.2)

/-- Drop the copies of bytes from a core's L1 and its cluster cache. -/
def dropCopies (s : State) (core line : Nat) (offs : List Nat) : State :=
  let s := modCore s core fun c => { c with l1 := clPut c.l1 line (offs.foldl CLine.drop (clGet c.l1 line)) }
  modCluster s (clusterOf core) fun k => { k with cc := clPut k.cc line (offs.foldl CLine.drop (clGet k.cc line)) }

end Sys2Proof.Machine
end

