-- ==== Sys2Proof/Machine/MemOps.lean ====
section
/-! DEFINITION. Loads, stores and atomics, majors 0x50 to 0x5A, on the L pipe (R140 to R154). -/
namespace Sys2Proof.Machine

open Sys2Proof

/-! ### Operands (R140, R141) -/

/-- Bytes of an access size. -/
def szBytes (z : Sz) : Nat := 2 ^ z.code
def aszBytes (z : ASz) : Nat := 2 ^ z.code

/-- The registers of a group that holds n bytes. -/
def regGroup (d n : Nat) : List Nat := (List.range (if n ≤ 4 then 1 else n / 4)).map (d + ·)

/-- Effective address of a global access. -/
def gAddr (c : Ctx) (a : Nat) (off : Option Nat) (L : Nat) : Nat := wrapN ((c.v64 a L : Int) + sext (off.getD 0) 32) 64

/-- Effective offset of a scratch access. -/
def sAddr (c : Ctx) (a : Nat) (off : Option Nat) (L : Nat) : Nat := (c.v a L + off.getD 0) % 2 ^ 32

/-- The value of a register group, low bytes first. -/
def groupBytes (c : Ctx) (d n L : Nat) : List Byte :=
  sliceBytes ((regGroup d n).flatMap fun r => leBytes 4 (c.v r L)) 0 n

/-- The units that a load or atomic writes. -/
def groupUnits (c : Ctx) (d n : Nat) : List Nat := c.lanes.flatMap fun L => (regGroup d n).map fun r => vunit r L

/-- The flag that an instruction counts on. -/
def flagOf (f : Option Nat) : List Nat := f.toList

/-! ### Causes (R144) -/

def alignCause (n a : Nat) : Option Cause := if a % n = 0 then none else some { code := tAlign, addr := a }

/-- PAGE, PAGE_LOST and PERM of a global access. -/
def globalCause (s : State) (c : Ctx) (a n : Nat) (acc : Acc) (L : Nat) : Option Cause :=
  (rangeFail s (coreOf s c.gid) (ctxOf s c.gid) a n acc).map fun f => xfCause L f.1 f.2 acc

/-- PERM and BARRIER_CLOBBER of a scratch access. -/
def windowCause (s : State) (c : Ctx) (off n : Nat) (wr : Bool) : Option Cause :=
  let w := winOf s c.gid
  if !w.holds off n then some { code := tPerm, addr := off }
  else if wr && w.tagged off n then some { code := tBarrierClobber } else none

/-- The scratch offset of a buffer access, and its cause (R149). -/
def bufOff (s : State) (c : Ctx) (a : Nat) (off : Option Nat) (L : Nat) : Nat :=
  (bufOf s c.gid (bits (c.v a L) 7 0)).off + sAddr c (a + 1) off L

def bufferCause (s : State) (c : Ctx) (a : Nat) (off : Option Nat) (n : Nat) (wr : Bool) (L : Nat) : Option Cause :=
  match bufCause s c.gid (c.v a L) with
  | some k => some k
  | none =>
    if (bufOf s c.gid (bits (c.v a L) 7 0)).size < sAddr c (a + 1) off L + n then
      some { code := tPerm, addr := sAddr c (a + 1) off L }
    else windowCause s c (bufOff s c a off L) n wr

/-- Some named buffer does not yet allow the access (R149). -/
def bufferHold (s : State) (c : Ctx) (a : Nat) (wr : Bool) : Bool :=
  c.lanes.any fun L => match bufIdx? s c.gid (c.v a L) with
    | none => false
    | some i => (bufOf s c.gid i).st == .filling || (wr && (bufOf s c.gid i).st == .draining)

/-! ### Global loads (R27, R146 to R148) -/

/-- The physical addresses of a lane's access. -/
def lanePas (s : State) (c : Ctx) (a n : Nat) (acc : Acc) : List Nat := rangePas s (coreOf s c.gid) (ctxOf s c.gid) a n acc

/-- An earlier access of the path that covers a byte of the access is pending (R143, R240). -/
def pathHold (s : State) (c : Ctx) (addr : Nat → Nat) (n : Nat) (acc : Acc) : Bool :=
  let g := getGroup s c.gid
  anyPending g && c.lanes.any fun L => (lanePas s c (addr L) n acc).any (bytePending g (g.apartOf c.sl))

/-- Every byte is in the core's L1 or in its cluster cache: the load hits (R27). -/
def hitsCache (s : State) (core : Nat) (pas : List Nat) : Bool :=
  pas.all fun pa =>
    ((clGet (getCore s core).l1 (pa / 128)).get? (pa % 128)).isSome ||
    ((clGet (getCluster s (clusterOf core)).cc (pa / 128)).get? (pa % 128)).isSome

/-- Bring the path's own dirty bytes to the L2 before an access that passes the L1 by (R242). -/
def ncReady (s : State) (core : Nat) (pas : List Nat) : State × Bool :=
  (pas.foldl (fun a pa => setAdd a (pa / 128)) []).foldl (fun r l =>
    let q := wbThrough r.1 core l
    (q.1, r.2 && q.2)) (s, true)

/-- The sectors of some bytes, rising. -/
def sectorsOf (pas : List Nat) : List Nat := pas.foldl (fun a pa => setAdd a (pa / 32)) []

/-- The bytes lie in more than one sector (R142). -/
def crosses (pas : List Nat) : Bool := pas.any fun pa => pa / 32 != pas.headD 0 / 32

/-- Read some bytes of a load, if all can be read; lines that cannot are asked for. -/
def readBytes (s : State) (core : Nat) (nc : Bool) (pas : List Nat) : State × Option (List (Byte × Bool)) :=
  let q := if nc then ncReady s core pas else (s, true)
  match (if q.2 then loadBytes? q.1 core nc pas else none) with
  | some bs => (if nc then q.1 else fillLoad q.1 core pas, some bs)
  | none =>
    let lines := pas.foldl (fun a pa => setAdd a (pa / 128)) []
    (lines.foldl (fun s k => if pas.any fun pa => pa / 128 == k && !canRead s (dieOfCore core) pa
      then askLine s (dieOfCore core) k false else s) q.1, none)

/-- Perform the piece of a lane's load in sector k (R142). -/
def readPiece (core : Nat) (nc : Bool) (r : State × LaneAcc) (k : Nat) : State × LaneAcc :=
  let pas := r.2.pas.filter (· / 32 == k)
  let q := readBytes r.1 core nc pas
  match q.2 with
  | some bs => (q.1, { r.2 with got := (pas.zip bs).foldl (fun m e => mapSet m e.1 e.2) r.2.got })
  | none => (q.1, r.2)

/-- Perform a lane's load as far as it can be: whole where its bytes lie in one sector, and so where no piece of it comes
later, else sector by sector (R142). `issue` says that the word issues now, so that pieces may be left for later. The answer
holds the bytes once all are read. -/
def loadLane (s : State) (core : Nat) (nc issue : Bool) (l : LaneAcc) : State × LaneAcc × Option (List (Byte × Bool)) :=
  if l.got.isEmpty && !(issue && crosses l.pas) then
    let q := readBytes s core nc l.pas
    (q.1, l, q.2)
  else
    let ks := (sectorsOf (l.pas.filter fun pa => (mapGet? l.got pa).isNone)).filter fun k => !(issue && Config.pieceLater s.fresh k)
    let q := ks.foldl (readPiece core nc) (s, l)
    (q.1, q.2, if q.2.pas.all fun pa => (mapGet? q.2.got pa).isSome then some (q.2.pas.map fun pa => mapGetD q.2.got pa (0, false)) else none)

/-- What a load knows of its lanes: the values of those whose bytes are read, and the others. -/
def loadParts (s : State) (core : Nat) (nc : Bool) (n : Nat) (sx : Bool) (d : Nat) (issue : Bool) (ls : List LaneAcc) :
    State × List (Nat × Word × Bool) × List LaneAcc :=
  ls.foldl (fun r l =>
    let q := loadLane r.1 core nc issue l
    match q.2.2 with
    | some bs => (q.1, r.2.1 ++ loadVals n sx d l.lane bs, r.2.2)
    | none => (q.1, r.2.1, r.2.2 ++ [q.2.1])) (s, [], [])

/-- Issue the load of some lanes as one operation; the answer names it. -/
def issueLoad (c : Ctx) (f : Option Nat) (nc : Bool) (n : Nat) (sx : Bool) (d : Nat) (ls : List LaneAcc) (s : State) :
    State × Nat :=
  let r := loadParts s (coreOf s c.gid) nc n sx d true ls
  let id := (getGroup r.1 c.gid).nextOp
  let units := ls.flatMap fun l => (regGroup d n).map fun q => vunit q l.lane
  let kind : OpKind := if r.2.2.isEmpty then .result else .load n sx nc r.2.2
  (modGroup r.1 c.gid fun g => g.addOp
    { id := 0, pipe := 2, slot := c.sl, kind := kind, flag := f, units := units, vals := r.2.1, dst := d }, id)

def waitOn (s : State) (gid : Nat) (sl : PSlot) (w : Wait) : State := modSlot s gid sl fun v => { v with waits := v.waits ++ [w] }

/-- Form a miss split (R27): the missing lanes go to the other slot in state MISS. -/
def missSplit (c : Ctx) (miss : Mask) (id : Nat) (s : State) : State :=
  let v := c.g.slot c.sl
  let s := forkSlot s c.gid c.sl (slotKey (otherSlot c.sl))
  let s := modSlot s c.gid (otherSlot c.sl) fun _ => { pc := c.next, mask := miss, st := .miss, ja := v.ja, jd := v.jd, waits := [.op id] }
  let s := modSlot s c.gid c.sl fun v => { v with mask := v.mask &&& ~~~miss }
  emitDiv c.g s c.gid c.sl false true miss (some c.next)

def loadGlobal (d a : Nat) (f : Option Nat) (z : Sz) (off : Option Nat) (sx nc : Bool) (c : Ctx) (s : State) : State :=
  let n := szBytes z
  if c.act = 0 then putL c f .result [] [] s
  else
    let ls := c.lanes.map fun L => ({ lane := L, pas := lanePas s c (gAddr c a off L) n .read } : LaneAcc)
    let hits := ls.filter fun l => hitsCache s (coreOf s c.gid) l.pas
    let misses := ls.filter fun l => !hitsCache s (coreOf s c.gid) l.pas
    if f.isNone && !nc && !c.ctl && !hits.isEmpty && !misses.isEmpty && (c.g.slot (otherSlot c.sl)).st == .free &&
        (c.g.slot c.sl).pn == 0 then
      let r := issueLoad c f nc n sx d hits s
      let q := issueLoad c f nc n sx d misses (waitOn r.1 c.gid c.sl (.op r.2))
      missSplit c (maskOf fun L => misses.any (·.lane == L)) q.2 q.1
    else
      let r := issueLoad c f nc n sx d ls s
      if f.isNone then waitOn r.1 c.gid c.sl (.op r.2) else r.1

def semLd (d a : Nat) (f : Option Nat) (z : Sz) (off : Option Nat) (sx nc : Bool) : Sem :=
  { pipe := 2, reads := [a, a + 1], writes := regGroup d (szBytes z), flags := flagOf f,
    hold := fun s c => pathHold s c (gAddr c a off) (szBytes z) .read,
    lane := fun s c L => globalCause s c (gAddr c a off L) (szBytes z) .read L,
    addrs := fun _ c => c.lanes.map fun L => (gAddr c a off L, szBytes z, .read),
    eff := loadGlobal d a f z off sx nc }

/-! ### Global stores (R143, R147, R148) -/

/-- Write bytes: into the L1, or through to the L2 where the die may write it. The answer lists the bytes of the lines that
the die may not write yet. -/
def storeBytes (core : Nat) (nc : Bool) (bs : List (Nat × Byte)) (s : State) : State × List (Nat × Byte) :=
  if !nc then (bs.foldl (fun s b => l1Put s core b.1 b.2) s, [])
  else (byLine bs).foldl (fun r e =>
    let abs := e.2.map fun b => (e.1 * 128 + b.1, b.2)
    let q := storeNc r.1 core abs
    (q.1, if q.2 then r.2 else r.2 ++ abs)) (s, [])

/-- The bytes that a store's lanes write, lanes ascending. -/
def storeList (s : State) (c : Ctx) (d a : Nat) (off : Option Nat) (n : Nat) : List (Nat × Byte) :=
  c.lanes.flatMap fun L => (lanePas s c (gAddr c a off L) n .write).zip (groupBytes c d n L)

/-- The pieces of a store in a sector are performed after its issue: so it may be where a lane's access crosses a sector
(R142), and where another path of the group is live, which may still read the older value (R240). -/
def storeLater (s : State) (c : Ctx) (a : Nat) (off : Option Nat) (n k : Nat) : Bool :=
  (!(c.g.otherPaths c.sl).isEmpty || c.lanes.any fun L =>
    let pas := lanePas s c (gAddr c a off L) n .write
    crosses pas && pas.any (· / 32 == k)) && Config.pieceLater s.fresh k

def storeGlobal (d a : Nat) (f : Option Nat) (z : Sz) (off : Option Nat) (nc : Bool) (c : Ctx) (s : State) : State :=
  let n := szBytes z
  let bs := storeList s c d a off n
  let p := bs.partition fun b => storeLater s c a off n (b.1 / 32)
  let r := storeBytes (coreOf s c.gid) nc p.2 (bs.foldl (fun s b => touch s b.1) s)
  if f.isNone && (r.2 ++ p.1).isEmpty then r.1
  else putL c f (.store nc (bs.foldl (fun a b => setAdd a (b.1 / 128)) []) (r.2 ++ p.1)) [] [] r.1

def semSt (d a : Nat) (f : Option Nat) (z : Sz) (off : Option Nat) (nc : Bool) : Sem :=
  { pipe := 2, reads := regGroup d (szBytes z) ++ [a, a + 1], flags := flagOf f,
    hold := fun s c => pathHold s c (gAddr c a off) (szBytes z) .write,
    lane := fun s c L => globalCause s c (gAddr c a off L) (szBytes z) .write L,
    addrs := fun _ c => c.lanes.map fun L => (gAddr c a off L, szBytes z, .write),
    eff := storeGlobal d a f z off nc }

/-! ### Scratch and buffer accesses (R141, R148, R149, R160) -/

/-- An earlier access of the path to a byte of the window is pending (R143, R240). -/
def winHold (s : State) (c : Ctx) (n : Nat) (off : Nat → Nat) : Bool :=
  let g := getGroup s c.gid
  g.ops.any (fun o => match o.kind with
    | .wload _ _ _ => true
    | .wstore _ => true
    | _ => false) && c.lanes.any fun L => (List.range n).any fun i => winPending g (g.apartOf c.sl) (off L + i)

/-- The piece of an access to the window in sector k is performed after the issue: so it may be where the access of some lane
crosses a sector boundary there (R142). All that is left is performed in one later step (DESIGN CHOICE, log 91). -/
def winLater (s : State) (c : Ctx) (n : Nat) (off : Nat → Nat) (k : Nat) : Bool :=
  (c.lanes.any fun L => decide (off L / 32 ≠ (off L + n - 1) / 32) && decide (off L / 32 ≤ k) && decide (k ≤ (off L + n - 1) / 32)) &&
    Config.pieceLater s.fresh k

/-- The byte of a window with its poison, as a load reads it. -/
def winRead (w : Win) (o : Nat) : Byte × Bool := (winByte w o, winPoison w o 1)

/-- The values of a load from the scratch window, one offset per lane. -/
def windowVals (s : State) (c : Ctx) (d n : Nat) (sx : Bool) (off : Nat → Nat) : List (Nat × Word × Bool) :=
  let w := winOf s c.gid
  c.lanes.flatMap fun L => loadVals n sx d L ((List.range n).map fun i => winRead w (off L + i))

/-- Load from the scratch window: what is not left for later is read at once, and where nothing is left the load's values are there
(R142). -/
def windowLoad (c : Ctx) (d n : Nat) (sx : Bool) (f : Option Nat) (off : Nat → Nat) (s : State) : State :=
  let w := winOf s c.gid
  let ls : List LaneAcc := c.lanes.map fun L =>
    let pas := (List.range n).map (off L + ·)
    { lane := L, pas := pas,
      got := (pas.filter fun o => !winLater s c n off (o / 32)).foldl (fun m o => mapSet m o (winRead w o)) [] }
  if ls.all fun l => l.pas.all fun o => (mapGet? l.got o).isSome then putLres c f (windowVals s c d n sx off) s
  else withDst c d (putL c f (.wload n sx ls) (c.lanes.flatMap fun L => (regGroup d n).map fun r => vunit r L) [] s)

/-- The values of a load from the window whose remaining pieces are read now. -/
def windowRest (w : Win) (d n : Nat) (sx : Bool) (ls : List LaneAcc) : List (Nat × Word × Bool) :=
  ls.flatMap fun l => loadVals n sx d l.lane (l.pas.map fun o => (mapGet? l.got o).getD (winRead w o))

/-- The bytes that a store to the window writes, lanes ascending. -/
def windowBytes (c : Ctx) (d n : Nat) (off : Nat → Nat) : List (Nat × Byte) := c.lanes.flatMap fun L => withAddrs (off L) (groupBytes c d n L)

/-- Put bytes into a window, and clear the poison of the sectors that they cover whole. -/
def winStore (s : State) (win : Nat) (bs : List (Nat × Byte)) : State :=
  modWin s win fun w => ({ w with data := bs.foldl (fun m e => mapPut m e.1 0 e.2) w.data } : Win).covered (bs.map (·.1))

/-- Store the lanes' groups into the scratch window, ascending lanes, but for the pieces left for later (R142). -/
def windowStore (c : Ctx) (d n : Nat) (f : Option Nat) (off : Nat → Nat) (s : State) : State :=
  let p := (windowBytes c d n off).partition fun b => winLater s c n off (b.1 / 32)
  let s := winStore s (teamOf s c.gid).win p.2
  if !p.1.isEmpty then putL c f (.wstore p.1) [] [] s
  else match f with
    | none => s
    | some _ => putL c f (.store false [] []) [] [] s

def semLds (d a : Nat) (f : Option Nat) (z : Sz) (off : Option Nat) (sx : Bool) : Sem :=
  { pipe := 2, reads := [a], writes := regGroup d (szBytes z), flags := flagOf f,
    hold := fun s c => winHold s c (szBytes z) (sAddr c a off),
    lane := fun s c L => windowCause s c (sAddr c a off L) (szBytes z) false,
    eff := fun c s => windowLoad c d (szBytes z) sx f (sAddr c a off) s }

def semSts (d a : Nat) (f : Option Nat) (z : Sz) (off : Option Nat) : Sem :=
  { pipe := 2, reads := regGroup d (szBytes z) ++ [a], flags := flagOf f,
    hold := fun s c => winHold s c (szBytes z) (sAddr c a off),
    lane := fun s c L => windowCause s c (sAddr c a off L) (szBytes z) true,
    eff := fun c s => windowStore c d (szBytes z) f (sAddr c a off) s }

def semLdb (d a : Nat) (f : Option Nat) (z : Sz) (off : Option Nat) (sx : Bool) : Sem :=
  { pipe := 2, reads := [a, a + 1], writes := regGroup d (szBytes z), flags := flagOf f,
    hold := fun s c => bufferHold s c a false || winHold s c (szBytes z) (bufOff s c a off),
    lane := fun s c L => bufferCause s c a off (szBytes z) false L,
    eff := fun c s => windowLoad c d (szBytes z) sx f (bufOff s c a off) s }

def semStb (d a : Nat) (f : Option Nat) (z : Sz) (off : Option Nat) : Sem :=
  { pipe := 2, reads := regGroup d (szBytes z) ++ [a, a + 1], flags := flagOf f,
    hold := fun s c => bufferHold s c a true || winHold s c (szBytes z) (bufOff s c a off),
    lane := fun s c L => bufferCause s c a off (szBytes z) true L,
    eff := fun c s => windowStore c d (szBytes z) f (bufOff s c a off) s }

/-! ### Atomics (R143, R150 to R154) -/

def cwOp (w : Nat) : Nat := bits w 3 0
def cwScope (w : Nat) : Scope := (Scope.ofCode (bits w 6 4)).getD .group
def cwKind (w : Nat) : Nat := bits w 9 7
def kindAcquires (k : Nat) : Bool := k == 1 || k == 3 || k == 4
def kindReleases (k : Nat) : Bool := k == 2 || k == 3 || k == 4

/-- The control word is reserved for this atomic (R151). -/
def badControl (w n : Nat) (cas nr : Bool) : Bool :=
  decide (2 ^ 10 ≤ w) || decide (4 < cwKind w) || decide (9 < cwOp w) || (cas && decide (cwOp w ≠ 0)) ||
  (cwOp w == 1 && n == 8) || (kindAcquires (cwKind w) && nr)

def controlCause (c : Ctx) (r n : Nat) (cas nr : Bool) : Option Cause :=
  if badControl (c.v r c.lead) n cas nr then some { code := tIllegalOp } else none

/-- Lanes in the order in which their atomics are performed: any order (R143). -/
def atomicOrder (k : Nat) (lanes : List Nat) : List Nat :=
  lanes.foldr (fun L acc => acc.takeWhile (fun x => decide (Config.atomicKey k x < Config.atomicKey k L)) ++ L ::
    acc.dropWhile (fun x => decide (Config.atomicKey k x < Config.atomicKey k L))) []

/-- Perform an atomic on bytes that no die holds: host pages at the host port. The old bytes of a poisoned sector come with
one byte more, which says so (R145). -/
def atomicAt (s : State) (pa op n : Nat) (x : List Byte) : State × List Byte :=
  let old := (List.range n).map fun i => engByte s (pa + i)
  if poisoned s pa then (s, old ++ [1]) else (engPut s (withAddrs pa (atomBytes faddAtomic op n old x)), old)

/-- Send the atomics of an operation that have not been sent, once its release is made (R153): the core's copies of
each sector go first. One on a lost page ends with no bytes (R369). -/
def pushAtomic (s : State) (gid id : Nat) : State :=
  match (getGroup s gid).op? id with
  | none => s
  | some o => match o.kind with
    | .atomic op n sc kind lanes sent back =>
      let rest := lanes.filter fun l => (mapGet? sent l.1).isNone && (mapGet? back l.1).isNone
      if rest.isEmpty then s
      else
        let core := coreOf s gid
        let r := if kindReleases kind then released s gid id o.apart ((Scope.ofCode sc).getD .group) else (s, true)
        if !r.2 then r.1
        else rest.foldl (fun s l =>
          let q := wbThrough s core (l.2.1 / 128)
          if !q.2 then q.1
          else
            let s := dropCopies q.1 core (l.2.1 / 128) ((List.range 32).map fun i => l.2.1 % 128 / 32 * 32 + i)
            let set (s : State) (tx : Option Nat) (old : List Byte) : State :=
              modGroup s gid fun g => g.modOp id fun o => match o.kind with
                | .atomic op n sc kind lanes sent back =>
                  let sent' := match tx with
                    | some t => mapSet sent l.1 t
                    | none => sent
                  { o with kind := .atomic op n sc kind lanes sent' (if tx.isSome then back else mapSet back l.1 old) }
                | _ => o
            match homeOf l.2.1 with
            | none => set (touch s l.2.1) none (List.replicate n 0)
            | some h =>
              if lostByte s l.2.1 then set s none []
              else if h = 4 ∨ h = 5 then
                let r := atomicAt s l.2.1 op n l.2.2
                set r.1 none r.2
              else
                let q : Req :=
                  { at_ := true, wr := true, ctl := (if op = 10 then 0 else op) + sc * 2 ^ 4 + kind * 2 ^ 7, ops := sliceBytes l.2.2 0 32,
                    box := { base := l.2.1, ext := [n, 1, 1, 1] } }
                let r := sendReq s (dieOfCore core) h q (.atom gid id l.1 (op == 10))
                set r.1 (some r.2) []) r.1
    | _ => s

/-- Issue a global atomic: `op` 10 compares and swaps; units and operand bytes per lane. -/
def atomicGlobal (c : Ctx) (f : Option Nat) (op n sc kind : Nat) (a : Nat) (off : Option Nat) (units : List Nat)
    (d : Nat) (x : Nat → List Byte) (s : State) : State :=
  if c.act = 0 then putL c f .result [] [] s
  else
    let lanes := (atomicOrder s.fresh c.lanes).map fun L =>
      (L, (lanePas s c (gAddr c a off L) n .atomic).headD 0, x L)
    let id := (getGroup s c.gid).nextOp
    pushAtomic (withDst c d (putL c f (.atomic op n sc kind lanes [] []) units [] s)) c.gid id

def semAtom (d a : Nat) (f : Option Nat) (z : ASz) (off : Option Nat) (nr : Bool) : Sem :=
  let n := aszBytes z
  { pipe := 2, reads := regGroup d n ++ [a, a + 1], leads := [a + 2], writes := if nr then [] else regGroup d n,
    flags := flagOf f,
    hold := fun s c => pathHold s c (gAddr c a off) n .atomic,
    pre := fun _ c => controlCause c (a + 2) n false nr,
    lane := fun s c L => (alignCause n (gAddr c a off L)).orElse fun _ => globalCause s c (gAddr c a off L) n .atomic L,
    addrs := fun _ c => c.lanes.map fun L => (gAddr c a off L, n, .atomic),
    eff := fun c s =>
      let w := c.v (a + 2) c.lead
      atomicGlobal c f (cwOp w) n (cwScope w).code (cwKind w) a off (if nr then [] else groupUnits c d n) d (groupBytes c d n) s }

/-- CAS and CAS128 of n bytes: the expected value stands first in the group, then the new one. -/
def casSem (d a : Nat) (f : Option Nat) (n : Nat) (off : Option Nat) : Sem :=
  { pipe := 2, reads := regGroup d (2 * n) ++ [a, a + 1], leads := [a + 2], writes := regGroup d n, flags := flagOf f,
    hold := fun s c => pathHold s c (gAddr c a off) n .atomic,
    pre := fun _ c => controlCause c (a + 2) n true false,
    lane := fun s c L => (alignCause n (gAddr c a off L)).orElse fun _ => globalCause s c (gAddr c a off L) n .atomic L,
    addrs := fun _ c => c.lanes.map fun L => (gAddr c a off L, n, .atomic),
    eff := fun c s =>
      let w := c.v (a + 2) c.lead
      atomicGlobal c f 10 n (cwScope w).code (cwKind w) a off (groupUnits c d n) d (groupBytes c d (2 * n)) s }

def semCas (d a : Nat) (f : Option Nat) (z : ASz) (off : Option Nat) : Sem := casSem d a f (aszBytes z) off
def semCas128 (d a : Nat) (f : Option Nat) (off : Option Nat) : Sem := casSem d a f 16 off

def semAminv (d a : Nat) (f : Option Nat) (off : Option Nat) (nr : Bool) : Sem :=
  { pipe := 2, reads := regGroup d 8 ++ [a, a + 1], writes := if nr then [] else regGroup d 8, flags := flagOf f,
    hold := fun s c => pathHold s c (gAddr c a off) 8 .atomic,
    lane := fun s c L => (alignCause 8 (gAddr c a off L)).orElse fun _ => globalCause s c (gAddr c a off L) 8 .atomic L,
    addrs := fun _ c => c.lanes.map fun L => (gAddr c a off L, 8, .atomic),
    eff := fun c s => atomicGlobal c f 4 8 0 0 a off (if nr then [] else groupUnits c d 8) d (groupBytes c d 8) s }

/-- Perform the lanes' atomics on the scratch window, and give the old values. -/
def atomicWindow (c : Ctx) (op n : Nat) (off : Nat → Nat) (x : Nat → List Byte) (s : State) : State × FMap (List Byte) :=
  let win := (teamOf s c.gid).win
  (atomicOrder s.fresh c.lanes).foldl (fun (r : State × FMap (List Byte)) L =>
    let old := winBytes (getWin r.1 win) (off L) n
    (modWin r.1 win fun w => if winPoison w (off L / 32 * 32) 32 then w else w.put (off L) (atomBytes faddAtomic op n old (x L)),
      mapSet r.2 L old)) (s, [])

/-- ATOMS: a release before it and an acquire after it act at its scope; the scratch access itself is performed in its
bank at once. A release that is not yet made holds the chain. -/
def semAtoms (d a : Nat) (f : Option Nat) (z : ASz) (off : Option Nat) (nr : Bool) : Sem :=
  let n := aszBytes z
  { pipe := 2, reads := regGroup d n ++ [a], leads := [a + 1], writes := if nr then [] else regGroup d n, flags := flagOf f,
    hold := fun s c => winHold s c n (sAddr c a off) ||
      (c.act != 0 && !badControl (c.v (a + 1) c.lead) n false nr && kindReleases (cwKind (c.v (a + 1) c.lead)) &&
        !isReleased s c.gid c.sl (cwScope (c.v (a + 1) c.lead))),
    nudge := fun c s => flushFor s c.gid c.sl (cwScope (c.v (a + 1) c.lead)),
    pre := fun _ c => controlCause c (a + 1) n false nr,
    lane := fun s c L => (alignCause n (sAddr c a off L)).orElse fun _ => windowCause s c (sAddr c a off L) n true,
    eff := fun c s =>
      let w := c.v (a + 1) c.lead
      if c.act = 0 then putL c f .result [] [] s
      else
        let s := if kindReleases (cwKind w) then flushFor s c.gid c.sl (cwScope w) else s
        let r := atomicWindow c (cwOp w) n (sAddr c a off) (groupBytes c d n) s
        let s := if kindAcquires (cwKind w) then acquired r.1 c.gid (cwScope w) else r.1
        if nr then putL c f (.store false [] []) [] [] s
        else
          let w := winOf s c.gid
          putLres c f (c.lanes.flatMap fun L => loadVals n false d L
            ((mapGetD r.2 L []).map fun b => (b, winPoison w (sAddr c a off L / 32 * 32) 32))) s }

/-! ### Meanings -/

def execLd (d a : Nat) (f : Option Nat) (z : Sz) (off : Option Nat) (sx nc : Bool) (s : State) : Host.Outcome State Fault Refusal :=
  .next (issueOne (semLd d a f z off sx nc) s)
def execSt (d a : Nat) (f : Option Nat) (z : Sz) (off : Option Nat) (nc : Bool) (s : State) : Host.Outcome State Fault Refusal :=
  .next (issueOne (semSt d a f z off nc) s)
def execLds (d a : Nat) (f : Option Nat) (z : Sz) (off : Option Nat) (sx : Bool) (s : State) : Host.Outcome State Fault Refusal :=
  .next (issueOne (semLds d a f z off sx) s)
def execSts (d a : Nat) (f : Option Nat) (z : Sz) (off : Option Nat) (s : State) : Host.Outcome State Fault Refusal :=
  .next (issueOne (semSts d a f z off) s)
def execLdb (d a : Nat) (f : Option Nat) (z : Sz) (off : Option Nat) (sx : Bool) (s : State) : Host.Outcome State Fault Refusal :=
  .next (issueOne (semLdb d a f z off sx) s)
def execStb (d a : Nat) (f : Option Nat) (z : Sz) (off : Option Nat) (s : State) : Host.Outcome State Fault Refusal :=
  .next (issueOne (semStb d a f z off) s)
def execAtom (d a : Nat) (f : Option Nat) (z : ASz) (off : Option Nat) (nr : Bool) (s : State) : Host.Outcome State Fault Refusal :=
  .next (issueOne (semAtom d a f z off nr) s)
def execAtoms (d a : Nat) (f : Option Nat) (z : ASz) (off : Option Nat) (nr : Bool) (s : State) : Host.Outcome State Fault Refusal :=
  .next (issueOne (semAtoms d a f z off nr) s)
def execCas (d a : Nat) (f : Option Nat) (z : ASz) (off : Option Nat) (s : State) : Host.Outcome State Fault Refusal :=
  .next (issueOne (semCas d a f z off) s)
def execCas128 (d a : Nat) (f : Option Nat) (off : Option Nat) (s : State) : Host.Outcome State Fault Refusal :=
  .next (issueOne (semCas128 d a f off) s)
def execAminv (d a : Nat) (f : Option Nat) (off : Option Nat) (nr : Bool) (s : State) : Host.Outcome State Fault Refusal :=
  .next (issueOne (semAminv d a f off nr) s)

end Sys2Proof.Machine
end

