-- ==== Sys2Proof/Machine/Sync.lean ====
section
/-! DEFINITION. FENCE, CACHE, barriers, hardware FIFOs and bank modes, majors 0x5B to 0x5F (R155 to R165). -/
namespace Sys2Proof.Machine

open Sys2Proof

/-! ### FENCE (R155, R156) -/

/-- An issued FENCE waits; with no active lane it is complete at once. -/
def semFence (sc : Scope) (k : FenceKind) : Sem :=
  { pipe := 2,
    eff := fun c s => if c.act = 0 then s else waitOn s c.gid c.sl (.fence sc k (getGroup s c.gid).nextOp) }

/-- Attempt to complete a fence: the write-backs of a release, the earlier data of an acquire, its invalidations (R156,
R157), for what precedes the fence in the path order of its slot (R240). The flag says whether it is complete. -/
def fenceTry (s : State) (gid : Nat) (sl : PSlot) (sc : Scope) (k : FenceKind) (id : Nat) : State × Bool :=
  let rel := k != .acq
  let acq := k != .rel
  let apart := (getGroup s gid).apartOf sl
  let r := if rel then released s gid id apart sc else (s, true)
  let quiet := !((getGroup s gid).ops.any fun o => decide (o.id < id) && !apart.contains o.id && o.pipe == 2 && o.cls.isNone &&
    !o.done && (accessOp o || !o.units.isEmpty))
  let ok := r.2 && (!acq || quiet)
  (if ok && acq then acquired r.1 gid sc else r.1, ok)

/-! ### CACHE (R158) -/

/-- The lines that the active lanes name. -/
def cacheLines (s : State) (c : Ctx) (a : Nat) : List Nat :=
  c.lanes.foldl (fun acc L => match xlate s (coreOf s c.gid) (ctxOf s c.gid) (c.v64 a L) .read with
    | .ok pa => setAdd acc (pa / 128)
    | .error _ => acc) []

/-- Write a die's copy of a line back: another home's dirty bytes to the home, a home's own to external memory, where a whole clean
sector ends its sector's entry of the poison table (R288). -/
def wbL2 (s : State) (die line : Nat) : State :=
  match homeOf (line * 128) with
  | none => touch s (line * 128)
  | some h =>
    let dirty (d : Nat) (s : State) : List (Nat × Byte) :=
      let c := clGet (getDie s d).l2 line
      c.dirtyOffs.map fun o => (o, mapGetD c.data o 0)
    let clean (d : Nat) (s : State) : State := modDie s d fun x => { x with l2 := clPut x.l2 line (clGet x.l2 line).clean }
    let s := if h = die then s else clean die (homePutLine s line (dirty die s))
    if h < 4 then
      let bs := dirty h s
      clearCovered (clean h { s with mem := bs.foldl (fun m e => memPut m (line * 128 + e.1) e.2) s.mem }) (bs.map fun e => line * 128 + e.1)
    else s

/-- Drop the home's own copy of a line from its die's L2, once its dirty bytes are in external memory (R158). -/
def invL2 (s : State) (die line : Nat) : State :=
  if homeOf (line * 128) = some die ∧ !((getDie s die).recs.any fun r => boxMeets r.box (lineBox line)) then
    modDie (wbL2 s die line) die fun d => { d with l2 := mapErase d.l2 line }
  else s

/-- Perform CACHE.FLUSH or CACHE.INV on a line; the flag says whether it is done. -/
def cacheAct (s : State) (core : Nat) (inv : Bool) (lv : CacheLevel) (line : Nat) : State × Bool :=
  let cl := clusterOf core
  let r := wbL1 s core line
  let drop1 (s : State) : State := if inv then modCore s core fun c => { c with l1 := mapErase c.l1 line } else s
  if !r.2 then r
  else if lv = .l1 then (drop1 r.1, true)
  else
    let q := wbCC (drop1 r.1) cl line
    if !q.2 then q
    else
      let s := if inv then modCluster q.1 cl fun k => { k with cc := mapErase k.cc line } else q.1
      (if lv = .cl then s else if inv then invL2 s (dieOfCore core) line else wbL2 s (dieOfCore core) line, true)

/-- Attempt the lines of a CACHE operation; the answer lists those still to be done. -/
def cacheTry (s : State) (core : Nat) (inv : Bool) (lv : CacheLevel) (lines : List Nat) : State × List Nat :=
  lines.foldl (fun r l =>
    let q := cacheAct r.1 core inv lv l
    (q.1, if q.2 then r.2 else r.2 ++ [l])) (s, [])

/-- A store of the path is not yet performed whole on a line that the lanes name (R143). -/
def lineHold (s : State) (c : Ctx) (a : Nat) : Bool :=
  let g := getGroup s c.gid
  anyPending g && (cacheLines s c a).any fun l => (List.range 128).any fun i => bytePending g (g.apartOf c.sl) (l * 128 + i)

def cacheSem (a : Nat) (f : Option Nat) (lv : CacheLevel) (inv : Bool) : Sem :=
  { pipe := 2, reads := [a, a + 1], flags := flagOf f,
    hold := fun s c => lineHold s c a,
    lane := fun s c L => globalCause s c (c.v64 a L) 1 .read L,
    addrs := fun _ c => c.lanes.map fun L => (c.v64 a L, 1, .read),
    eff := fun c s =>
      let r := cacheTry s (coreOf s c.gid) inv lv (cacheLines s c a)
      if r.2.isEmpty && f.isNone then r.1 else putL c f (.cacheOp inv lv r.2) [] [] r.1 }

/-- A prefetch of a line into the caches down from its level: a line that the die may read is filled, any other is asked
for; the flag says whether it is done. No value changes; a lost page and the hub have nothing to fill (R158, R282, R369). -/
def prefetch (s : State) (core line : Nat) (lv : CacheLevel) : State × Bool :=
  if lostByte s (line * 128) || homeOf (line * 128) == some 4 then (s, true)
  else if canRead s (dieOfCore core) (line * 128) then
    (match lv with
      | .l1 => fillLine s core line
      | .cl => fillCC s core line
      | .l2 => s, true)
  else (askLine s (dieOfCore core) line false, false)

/-- Prefetch lines; the answer lists those still to be granted. -/
def prefetchAll (s : State) (core : Nat) (lv : CacheLevel) (lines : List Nat) : State × List Nat :=
  lines.foldl (fun r l =>
    let q := prefetch r.1 core l lv
    (q.1, if q.2 then r.2 else r.2 ++ [l])) (s, [])

def semCachePref (a : Nat) (f : Option Nat) (lv : CacheLevel) : Sem :=
  { pipe := 2, names := [a, a + 1], flags := flagOf f,
    eff := fun c s =>
      let r := prefetchAll s (coreOf s c.gid) lv (cacheLines s c a)
      if f.isNone && r.2.isEmpty then r.1 else putL c f (.prefetch lv r.2) [] [] r.1 }

def semCacheFlush (a : Nat) (f : Option Nat) (lv : CacheLevel) : Sem := cacheSem a f lv false
def semCacheInv (a : Nat) (f : Option Nat) (lv : CacheLevel) : Sem := cacheSem a f lv true

/-! ### Barriers (R159 to R163) -/

/-- The scope at which a barrier of the window orders (R161). -/
def barScope (s : State) (gid : Nat) : Scope := (Scope.ofCode (winOf s gid).acq).getD .team

/-- A barrier number at or beyond the team's count. -/
def barCause (s : State) (c : Ctx) (b : Nat) (k : Nat → Option Cause) : Option Cause :=
  if (winOf s c.gid).bars ≤ b then some { code := tResource } else k ((winOf s c.gid).bar b)

/-- The word is neither LIVE nor GONE. -/
def notReady (x : Nat) : Option Cause := if !barLive x && !barGone x then some { code := tHandleState } else none

/-- An arrival that releases is held until the release is made. -/
def barHold (s : State) (c : Ctx) (rlx : Bool) : Bool := c.act != 0 && !rlx && !isReleased s c.gid c.sl (barScope s c.gid)

/-- The write-backs of the release that an arrival makes (R160, R244). -/
def barRelease (c : Ctx) (rlx : Bool) (s : State) : State := if rlx then s else flushFor s c.gid c.sl (barScope s c.gid)

/-- Acquire at the end of a wait that did not park (R161). -/
def barAcquire (c : Ctx) (rlx : Bool) (s : State) : State := if rlx then s else acquired s c.gid (barScope s c.gid)

/-- Wait(b, p) of R161. -/
def barWaitFor (c : Ctx) (d b p : Nat) (rlx : Bool) (s : State) : State :=
  let x := (winOf s c.gid).bar b
  if barGone x then putNow c (c.out32 d fun _ => 1) (barAcquire c rlx s)
  else if barPhase x ≠ p then putNow c (c.out32 d fun _ => 0) (barAcquire c rlx s)
  else modSlot s c.gid c.sl fun v => { v with st := .barwait, waits := v.waits ++ [.barrier b p d c.act (!rlx)] }

def semBarInit (b : Nat) (_rlx : Bool) (target : Nat) : Sem :=
  { pipe := 2,
    pre := fun s c => barCause s c b fun x => if barLive x then some { code := tBarrierClobber } else none,
    eff := fun c s => if c.act = 0 then s else setBar s (teamOf s c.gid).win b (barWord target 0 0 true false) }

def semBarArrive (d b : Nat) (rlx : Bool) : Sem :=
  { pipe := 2, writes := [d],
    hold := fun s c => barHold s c rlx, nudge := fun c s => flushFor s c.gid c.sl (barScope s c.gid),
    pre := fun s c => barCause s c b notReady,
    eff := fun c s =>
      if c.act = 0 then s
      else
        let p := barPhase ((winOf s c.gid).bar b)
        arrive (putNow c (c.out32 d fun _ => p) (barRelease c rlx s)) (teamOf s c.gid).win b (some c.gid) }

def semBarWait (d b : Nat) (rlx : Bool) : Sem :=
  { pipe := 2, leads := [d], writes := [d],
    pre := fun s c => barCause s c b notReady,
    eff := fun c s => if c.act = 0 then s else barWaitFor c d b (c.v d c.lead % 256) rlx s }

def semBarArrivewait (d b : Nat) (rlx : Bool) : Sem :=
  { pipe := 2, writes := [d],
    hold := fun s c => barHold s c rlx, nudge := fun c s => flushFor s c.gid c.sl (barScope s c.gid),
    pre := fun s c => barCause s c b notReady,
    eff := fun c s =>
      if c.act = 0 then s
      else
        let p := barPhase ((winOf s c.gid).bar b)
        barWaitFor c d b p rlx (arrive (barRelease c rlx s) (teamOf s c.gid).win b (some c.gid)) }

def semBarInv (b : Nat) (_rlx : Bool) : Sem :=
  { pipe := 2,
    pre := fun s c => barCause s c b notReady,
    eff := fun c s =>
      let win := (teamOf s c.gid).win
      let x := (winOf s c.gid).bar b
      if c.act = 0 ∨ barGone x then s
      else wakeWaiters (setBar s win b (barWord (barTarget x) (barCount x) (barPhase x) false true)) win b 1 (some c.gid) }

def semBarQuery (d b : Nat) (_rlx : Bool) : Sem :=
  { pipe := 2, writes := [d],
    pre := fun s c => barCause s c b fun _ => none,
    eff := fun c s => if c.act = 0 then s else putNow c (c.out32 d fun _ => (winOf s c.gid).bar b) s }

/-! ### Hardware FIFOs (R164) -/

def bankOf (s : State) (gid b : Nat) : Bank := getBank (getCluster s (clusterOf (coreOf s gid))) b
def modBank (s : State) (cl b : Nat) (f : Bank → Bank) : State := modCluster s cl fun k => setBank k b (f (getBank k b))

/-- The trace unit holds the bank (R393). -/
def traceHolds (s : State) (cl b : Nat) : Bool := (getCluster s cl).trace.held && (getCluster s cl).trace.bank == b

/-- PERM of a bank that the context does not own, or that the trace unit holds. -/
def bankPerm (s : State) (gid b : Nat) : Option Cause :=
  if (bankOf s gid b).owner ≠ some (ctxNumOf s gid) ∨ traceHolds s (clusterOf (coreOf s gid)) b then some { code := tPerm } else none

def fifoCause (s : State) (c : Ctx) (b : Nat) : Option Cause :=
  if (bankOf s c.gid b).mode ≠ .fifo then some { code := tLayout } else bankPerm s c.gid b

/-- The bank does not have the entries, or the free entries, that the chain needs. -/
def fifoHold (s : State) (c : Ctx) (b : Nat) (push : Bool) : Bool :=
  let n := (bankOf s c.gid b).fifo.length
  (fifoCause s c b).isNone && (if push then decide (fifoCap - n < c.lanes.length) else decide (n < c.lanes.length))

def semQpush (a : Nat) (f : Option Nat) (cl : Bool) (bank : Nat) : Sem :=
  { pipe := 2, reads := [a], flags := flagOf f,
    hold := fun s c => fifoHold s c bank true || (cl && c.act != 0 && (fifoCause s c bank).isNone && !isReleased s c.gid c.sl .cluster),
    nudge := fun c s => if cl then flushFor s c.gid c.sl .cluster else s,
    pre := fun s c => fifoCause s c bank,
    eff := fun c s =>
      let s := if cl && c.act != 0 then flushFor s c.gid c.sl .cluster else s
      let s := if c.act = 0 then s else modBank s (clusterOf (coreOf s c.gid)) bank fun k =>
        { k with fifo := k.fifo ++ c.lanes.map fun L => BitVec.ofNat 32 (c.v a L) }
      match f with
      | none => s
      | some _ => putL c f (.store false [] []) [] [] s }

/-- A FIFO bank without its oldest entries. -/
def Bank.popped (k : Bank) (n : Nat) : Bank :=
  { k with fifo := k.fifo.drop n, bad := (k.bad.filter fun i => decide (n ≤ i)).map (· - n) }

def semQpop (d : Nat) (f : Option Nat) (cl : Bool) (bank : Nat) : Sem :=
  { pipe := 2, writes := [d], flags := flagOf f,
    hold := fun s c => fifoHold s c bank false,
    pre := fun s c => fifoCause s c bank,
    eff := fun c s =>
      let k := bankOf s c.gid bank
      let n := c.lanes.length
      let s := if c.act = 0 then s else modBank s (clusterOf (coreOf s c.gid)) bank fun k => k.popped n
      let s := if cl && c.act != 0 then acquired s c.gid .cluster else s
      putLres c f ((c.lanes.zip ((List.range n).zip k.fifo)).map fun e => (vunit d e.1, e.2.2, k.bad.contains e.2.1)) s }

/-! ### Bank modes (R165) -/

def bankModeNum : BankMode → Nat
  | .cache => 0 | .scratch => 1 | .fifo => 2

/-- The bank holds part of a live team's window. -/
def bankUsed (s : State) (cl b : Nat) : Bool := s.wins.any fun w => w.2.cluster == cl && w.2.granules.any fun g => g / 16 == b

def bkcfgCause (s : State) (c : Ctx) (v : Nat) : Option Cause :=
  if 31 < v then some { code := tLayout }
  else match bankPerm s c.gid v with
    | some k => some k
    | none => if bankUsed s (clusterOf (coreOf s c.gid)) v then some { code := tResource } else none

/-- Switch the mode of a bank (R165): a bank that leaves CACHE writes its lines back, one that leaves FIFO discards its
entries. -/
def switchBank (s : State) (cl b : Nat) (m : BankMode) : State :=
  let k := getBank (getCluster s cl) b
  if k.mode = m then s
  else
    let s := if k.mode = .cache then leaveCache s cl else s
    modBank s cl b fun k => { k with mode := m, fifo := [], bad := [] }

def semBkcfg (d a : Nat) (f : Option Nat) (m : BankMode) : Sem :=
  { pipe := 2, leads := [a], writes := [d], flags := flagOf f,
    lane := fun s c L => if leaderOf c.act = some L then bkcfgCause s c (c.v a L) else none,
    eff := fun c s =>
      let b := c.v a c.lead
      let old := (bankOf s c.gid b).mode
      let s := if c.act = 0 then s else switchBank s (clusterOf (coreOf s c.gid)) b m
      putLres c f (c.out32 d fun _ => bankModeNum old) s }

/-! ### Meanings -/

def execFence (sc : Scope) (k : FenceKind) (s : State) : Host.Outcome State Fault Refusal := .next (issueOne (semFence sc k) s)
def execCachePref (a : Nat) (f : Option Nat) (lv : CacheLevel) (s : State) : Host.Outcome State Fault Refusal :=
  .next (issueOne (semCachePref a f lv) s)
def execCacheFlush (a : Nat) (f : Option Nat) (lv : CacheLevel) (s : State) : Host.Outcome State Fault Refusal :=
  .next (issueOne (semCacheFlush a f lv) s)
def execCacheInv (a : Nat) (f : Option Nat) (lv : CacheLevel) (s : State) : Host.Outcome State Fault Refusal :=
  .next (issueOne (semCacheInv a f lv) s)
def execBarInit (b : Nat) (rlx : Bool) (target : Nat) (s : State) : Host.Outcome State Fault Refusal :=
  .next (issueOne (semBarInit b rlx target) s)
def execBarArrive (d b : Nat) (rlx : Bool) (s : State) : Host.Outcome State Fault Refusal := .next (issueOne (semBarArrive d b rlx) s)
def execBarWait (d b : Nat) (rlx : Bool) (s : State) : Host.Outcome State Fault Refusal := .next (issueOne (semBarWait d b rlx) s)
def execBarArrivewait (d b : Nat) (rlx : Bool) (s : State) : Host.Outcome State Fault Refusal :=
  .next (issueOne (semBarArrivewait d b rlx) s)
def execBarInv (b : Nat) (rlx : Bool) (s : State) : Host.Outcome State Fault Refusal := .next (issueOne (semBarInv b rlx) s)
def execBarQuery (d b : Nat) (rlx : Bool) (s : State) : Host.Outcome State Fault Refusal := .next (issueOne (semBarQuery d b rlx) s)
def execQpush (a : Nat) (f : Option Nat) (cl : Bool) (bank : Nat) (s : State) : Host.Outcome State Fault Refusal :=
  .next (issueOne (semQpush a f cl bank) s)
def execQpop (d : Nat) (f : Option Nat) (cl : Bool) (bank : Nat) (s : State) : Host.Outcome State Fault Refusal :=
  .next (issueOne (semQpop d f cl bank) s)
def execBkcfg (d a : Nat) (f : Option Nat) (m : BankMode) (s : State) : Host.Outcome State Fault Refusal :=
  .next (issueOne (semBkcfg d a f m) s)

end Sys2Proof.Machine
end

