-- ==== Sys2Proof/Machine/Matrix.lean ====
section
/-! DEFINITION. Matrix instructions, majors 0x60 to 0x6B: their issue on the M pipe and their execution on tiles and
accumulators (R33 to R35, R167 to R190). -/
namespace Sys2Proof.Machine

open Sys2Proof

/-! ### Tile configurations and elements (R33, R34, R118, R175) -/

/-- A tile configuration word, read. -/
structure TCfg where
  fmt  : Nat
  rows : Nat
  cols : Nat
  sc   : Bool
  deriving DecidableEq, Repr

def tcfgOf (w : Nat) : TCfg := { fmt := w % 16, rows := bits w 8 4 + 1, cols := bits w 15 9 + 1, sc := bit w 16 }

/-- Bytes of a row's elements, and of a row with its scale bytes (R175). -/
def TCfg.elemBytes (t : TCfg) : Nat := ceilDiv (t.cols * fmtWidth t.fmt) 8
def TCfg.rb (t : TCfg) : Nat := t.elemBytes + (if t.sc then ceilDiv t.cols 32 else 0)

/-- Storage in bits (R34); FMT 0 returns a tile to unconfigured and takes none, whatever ROWS and COLS say (R174; R34 gives
FMT 0 no width: DESIGN CHOICE, log 89). -/
def TCfg.storage (t : TCfg) : Nat := if t.fmt = 0 then 0 else t.rows * t.cols * fmtWidth t.fmt + (if t.sc then t.rows * ceilDiv t.cols 32 * 8 else 0)

/-- The float format of a tile format code. -/
def tileFmt (f : Nat) : Option FFmt :=
  match f with
  | 3 => some .e2m1
  | 4 => some .e4m3
  | 5 => some .e5m2
  | 6 => some .f16
  | 7 => some .bf16
  | 8 => some .f32
  | _ => none

/-- A byte of a tile row. -/
def tbyte (g : Group) (t : Nat) (k : TCfg) (r o : Nat) : Byte := mapGetD g.tiles (t * 2048 + r * k.rb + o) 0
def putTbyte (g : Group) (t : Nat) (k : TCfg) (r o : Nat) (b : Byte) : Group :=
  { g with tiles := mapPut g.tiles (t * 2048 + r * k.rb + o) 0 b }

/-- Element (r, c) as a pattern. -/
def telem (g : Group) (t : Nat) (k : TCfg) (r c : Nat) : Nat :=
  let w := fmtWidth k.fmt
  if w = 4 then (tbyte g t k r (c / 2)).toNat / 2 ^ (4 * (c % 2)) % 16
  else leValue ((List.range (w / 8)).map fun i => tbyte g t k r (c * (w / 8) + i))

def putTelem (g : Group) (t : Nat) (k : TCfg) (r c x : Nat) : Group :=
  let w := fmtWidth k.fmt
  if w = 4 then
    let b := (tbyte g t k r (c / 2)).toNat
    let v := if c % 2 = 0 then b / 16 * 16 + x % 16 else b % 16 + x % 16 * 16
    putTbyte g t k r (c / 2) (BitVec.ofNat 8 v)
  else (List.range (w / 8)).foldl (fun g i => putTbyte g t k r (c * (w / 8) + i) (BitVec.ofNat 8 (x / 2 ^ (8 * i)))) g

/-- Scale byte n of a row. -/
def tscale (g : Group) (t : Nat) (k : TCfg) (r n : Nat) : Nat := if k.sc then (tbyte g t k r (k.elemBytes + n)).toNat else 127

def cfgIn (m : FMap Nat) (t : Nat) : TCfg := tcfgOf (mapGetD m t 0)

/-- Lanes that have a row. -/
def rowsOf (lanes : Mask) (k : TCfg) : List Nat := (lanesOf lanes).filter (· < k.rows)

/-! ### Issue (R169 to R172) -/

/-- Add a matrix word to the group's queue: a unit of its own, open until the next MBATCH. -/
def issueM (i : Instr) (c : Ctx) (vals : FMap Nat) (base aux : Nat) (pas : List (List Nat)) (op : Option Nat) (s : State) : State :=
  modGroup s c.gid fun g =>
    { g with mq := g.mq ++ [{ i := i, unit := g.nextOp, lanes := c.act, vals := vals, base := base, aux := aux, op := op,
                              pas := pas, cfgs := g.tcfg }]
             nextOp := g.nextOp + 1 }

/-- A cause of the whole word, for the leader lane, after its register checks (R172). -/
def leadCause (k : State → Ctx → Option Cause) (s : State) (c : Ctx) (L : Nat) : Option Cause :=
  if leaderOf c.act = some L then k s c else none

def layoutIf (b : Bool) : Option Cause := if b then some { code := tLayout } else none

/-- The configuration of a tile at issue. -/
def Ctx.cfg (c : Ctx) (t : Nat) : TCfg := cfgIn c.g.tcfg t

/-- A row-wise matrix word on tiles. -/
def tileSem (i : Instr) (tiles accs : List Nat) (bad : Ctx → Bool) : Sem :=
  { pipe := 3, tiles := tiles, accs := accs, cls := some .matrix, lane := leadCause fun _ c => layoutIf (bad c),
    eff := fun c => issueM i c [] 0 0 [] none }

def semTcfg (p cfg : Nat) : Sem :=
  { pipe := 3, tiles := [p], wtiles := [p], cls := some .matrix,
    lane := leadCause fun _ _ => if 16384 < (tcfgOf cfg).storage then some { code := tResource } else none,
    eff := fun c s =>
      let s := issueM (.tcfg p cfg) c [] 0 0 [] none s
      if c.act = 0 then s else modGroup s c.gid fun g => { g with tcfg := mapPut g.tcfg p 0 cfg } }

/-- The row offsets of a scratch or buffer access: in the window. The table of R176 states a modulus for global and scratch
space alone; the offset into a buffer is taken modulo 2^32 too, before the bounds check (DESIGN CHOICE, log 90). -/
def rowOffs (s : State) (c : Ctx) (sp : TSpace) (v pitch rows : Nat) : List Nat :=
  (List.range rows).map fun r => match sp with
    | .buffer => (bufOf s c.gid (bits (c.v v c.lead) 7 0)).off + (c.v (v + 1) c.lead + r * pitch) % 2 ^ 32
    | _ => (c.v v c.lead + r * pitch) % 2 ^ 32

/-- The row addresses of a global access. -/
def rowAddrs (c : Ctx) (v pitch rows : Nat) : List Nat := (List.range rows).map fun r => (c.v64 v c.lead + r * pitch) % 2 ^ 64

/-- Causes of TLD and TST beyond LAYOUT (R172, R176). -/
def tileMemCause (s : State) (c : Ctx) (p v : Nat) (sp : TSpace) (pitch : Nat) (wr : Bool) : Option Cause :=
  let k := c.cfg p
  let acc : Acc := if wr then .write else .read
  if k.fmt = 0 then some { code := tLayout }
  else match sp with
    | .global => firstSome (fun a => globalCause s c a k.rb acc c.lead) (rowAddrs c v pitch k.rows)
    | .scratch =>
      let offs := rowOffs s c sp v pitch k.rows
      match offs.find? fun o => !(winOf s c.gid).holds o k.rb with
      | some o => some { code := tPerm, addr := o }
      | none => (offs.find? fun o => wr && (winOf s c.gid).tagged o k.rb).map fun _ => { code := tBarrierClobber }
    | .buffer => match bufCause s c.gid (c.v v c.lead) with
      | some x => some x
      | none =>
        let b := bufOf s c.gid (bits (c.v v c.lead) 7 0)
        match (List.range k.rows).find? fun r => decide (b.size < (c.v (v + 1) c.lead + r * pitch) % 2 ^ 32 + k.rb) with
        | some r => some { code := tPerm, addr := (c.v (v + 1) c.lead + r * pitch) % 2 ^ 32 }
        | none => (rowOffs s c sp v pitch k.rows).find? (fun o => wr && (winOf s c.gid).tagged o k.rb) |>.map fun _ =>
            { code := tBarrierClobber }

/-- The registers that give a base. -/
def baseRegs (v : Nat) (sp : TSpace) : List Nat := if sp = .scratch then [v] else [v, v + 1]

/-- TLD and TST at issue: addresses are translated, the bytes move at execution. -/
def tileMem (i : Instr) (p v : Nat) (sp : TSpace) (pitch : Nat) (wr : Bool) : Sem :=
  let acc : Acc := if wr then .write else .read
  { pipe := 3, leads := baseRegs v sp, tiles := [p], wtiles := if wr then [] else [p], cls := some .matrix,
    hold := fun s c => c.act != 0 && sp == .buffer && match bufIdx? s c.gid (c.v v c.lead) with
      | none => false
      | some b => (bufOf s c.gid b).st == .filling || (wr && (bufOf s c.gid b).st == .draining),
    lane := leadCause fun s c => tileMemCause s c p v sp pitch wr,
    addrs := fun _ c => if c.act = 0 ∨ sp ≠ .global then [] else (rowAddrs c v pitch (c.cfg p).rows).map fun a => (a, (c.cfg p).rb, acc),
    eff := fun c s =>
      let k := c.cfg p
      let pas := if c.act = 0 then []
        else if sp = .global then (rowAddrs c v pitch k.rows).map fun a => lanePas s c a k.rb acc
        else (rowOffs s c sp v pitch k.rows).map fun o => (List.range k.rb).map (o + ·)
      issueM i c [] 0 0 pas none s }

def semTld (p v : Nat) (sp : TSpace) (pitch : Nat) : Sem := tileMem (.tld p v sp pitch) p v sp pitch false
def semTst (p v : Nat) (sp : TSpace) (sc : Scope) (pitch : Nat) : Sem := tileMem (.tst p v sp sc pitch) p v sp pitch true

/-- TMOVV (R178): a move into vector registers leaves them incomplete until it executes. -/
def semTmovv (p v j : Nat) (toTile : Bool) : Sem :=
  { pipe := 3, reads := if toTile then [v] else [], writes := if toTile then [] else [v], wl := fun c L => decide (L < (c.cfg p).rows),
    tiles := [p], wtiles := if toTile then [p] else [], cls := some .matrix,
    lane := leadCause fun _ c => layoutIf ((c.cfg p).fmt == 0 || decide ((c.cfg p).rb ≤ 4 * j)),
    eff := fun c s =>
      if toTile then issueM (.tmovv p v j toTile) c (c.lanes.map fun L => (L, c.v v L)) 0 0 [] none s
      else if c.act = 0 then issueM (.tmovv p v j toTile) c [] 0 0 [] none s
      else
        let id := (getGroup s c.gid).nextOp
        let s := modGroup s c.gid fun g => g.addOp
          { id := 0, pipe := 3, slot := c.sl, kind := .tile, units := (rowsOf c.act (c.cfg p)).map (vunit v) }
        issueM (.tmovv p v j toTile) c [] 0 0 [] (some id) s }

/-- The tile formats and extents that MMA takes (R181). -/
def mmaBad (x y : TCfg) : Bool :=
  let okM (n : Nat) : Bool := n == 8 || n == 16 || n == 32
  let okF (f : Nat) : Bool := decide (1 ≤ f) && decide (f ≤ 7)
  let wide (f : Nat) : Bool := f == 6 || f == 7
  let k := if wide x.fmt || wide y.fmt then 32 else 64
  !(okM x.rows && okM y.rows && okF x.fmt && okF y.fmt && x.cols == k && y.cols == k)

def semMma (a p q : Nat) : Sem :=
  { tileSem (.mma a p q) [p, q] [a] (fun c => mmaBad (c.cfg p) (c.cfg q)) with waccs := [a] }

def semMzero (a : Nat) (e : Int) : Sem := { tileSem (.mzero a e) [] [a] (fun _ => false) with waccs := [a] }

def semMdrain (a t v c0 : Nat) (clr : Bool) : Sem :=
  { pipe := 3, reads := [v], tiles := [t], accs := [a], wtiles := [t], waccs := if clr then [a] else [], cls := some .matrix,
    lane := leadCause fun _ c => layoutIf ((c.cfg t).fmt == 0 || (c.cfg t).sc || decide (32 < c0 + (c.cfg t).cols)),
    eff := fun c => issueM (.mdrain a t v c0 clr) c (c.lanes.map fun L => (L, c.v v L)) 0 0 [] none }

def hadOrder : HOrder → Nat
  | .h16 => 16 | .h32 => 32 | .h64 => 64

def semMhad (p q v : Nat) (n : HOrder) (sgn : Bool) : Sem :=
  { pipe := 3, reads := if sgn then [v + 2] else [], leads := if sgn then [v, v + 1, v + 3] else [], tiles := [p, q], wtiles := [p],
    cls := some .matrix,
    lane := leadCause fun _ c => layoutIf (c.cfg p != c.cfg q || !(decide (6 ≤ (c.cfg q).fmt)) || (c.cfg q).sc ||
      (c.cfg q).cols % hadOrder n != 0),
    eff := fun c => issueM (.mhad p q v n sgn) c (if sgn then c.lanes.map fun L => (L, c.v (v + 2) L) else [])
      (if sgn then c.v64 v c.lead else 0) (if sgn then c.v (v + 3) c.lead else 0) [] none }

def semMsign (p q v : Nat) (n : HOrder) : Sem :=
  { pipe := 3, reads := [v + 2], leads := [v, v + 1, v + 3], tiles := [p, q], wtiles := [p], cls := some .matrix,
    lane := leadCause fun _ c => layoutIf (c.cfg p != c.cfg q || !decide (3 ≤ (c.cfg q).fmt)),
    eff := fun c => issueM (.msign p q v n) c (c.lanes.map fun L => (L, c.v (v + 2) L)) (c.v64 v c.lead) (c.v (v + 3) c.lead) [] none }

/-- The configurations that MQUANT takes (R190). -/
def quantBad (p q : TCfg) : Bool :=
  !(decide (6 ≤ q.fmt) && !q.sc && (p.fmt == 3 || p.fmt == 4 || p.fmt == 5) && p.sc && p.rows == q.rows && p.cols == q.cols)

def semMquant (p q : Nat) : Sem := { tileSem (.mquant p q) [p, q] [] (fun c => quantBad (c.cfg p) (c.cfg q)) with wtiles := [p] }

/-- MBATCH closes the open units into one (R170). -/
def semMbatch : Sem :=
  { pipe := 3,
    eff := fun c s => modGroup s c.gid fun g =>
      let last := ((g.mq.filter (·.open?)).getLast?.map (·.unit)).getD 0
      { g with mq := g.mq.map fun w => if w.open? then { w with unit := last, open? := false } else w } }

def semTtrans (p q : Nat) : Sem :=
  { tileSem (.ttrans p q) [p, q] [] (fun c =>
      let x := c.cfg p
      let y := c.cfg q
      x.fmt == 0 || x.fmt != y.fmt || x.sc || y.sc || x.rows != y.cols || x.cols != y.rows) with wtiles := [p] }

/-! ### From elements to integers (R180) -/

/-- A K-block as 32 integers, its unit exponent and its non-finite flag. -/
def blockInts (g : Group) (t : Nat) (k : TCfg) (r n : Nat) : List Int × Int × Bool :=
  let pats := (List.range 32).map fun i => telem g t k r (32 * n + i)
  match tileFmt k.fmt with
  | none => (pats.map fun x => sext x (fmtWidth k.fmt), 0, false)
  | some f =>
    let sc := tscale g t k r n
    let xs := pats.map (decodeF f)
    let nonFin (v : FVal) : Bool := match v with
      | .nan => true
      | .inf _ => true
      | _ => false
    let nf := sc == 0xFF || xs.any nonFin
    let xs := if sc = 0xFF then xs.map fun _ => FVal.zero false else xs
    let off : Int := (sc : Int) - 127
    if f = .e2m1 then
      (xs.map fun v => match v with
        | .fin s m q => (if s then -1 else 1) * ((m * 2 ^ (q + 1).toNat : Nat) : Int)
        | _ => 0, -1 + off, nf)
    else
      let w : Int := if f = .e4m3 ∨ f = .e5m2 then 8 else 12
      let eb := xs.foldl (fun (e : Int) v => match v with
        | .fin _ m q => if e < floorLog2 m 1 + q then floorLog2 m 1 + q else e
        | _ => e) (fmtOf f).emin
      let lim : Int := ((2 ^ (w - 1).toNat : Nat) : Int) - 1
      (xs.map fun v => match v with
        | .fin s m q => clampI ((if s then -1 else 1) * ((roundMag .rne s m (q + w - 2 - eb) : Nat) : Int)) (-lim) lim
        | _ => 0, eb - w + 2 + off, nf)

/-! ### Accumulators (R35, R182 to R186) -/

def accKey (a i j : Nat) : Nat := a * 1024 + i * 32 + j

def addRes (r : Nat) (t : Int) (m : Nat) : Nat := (((r : Int) + t) % (m : Int)).toNat

/-- RoundInt(p × 2^d, RNE) of an exact integer. -/
def scaleInt (p d : Int) : Int :=
  if 0 ≤ d then p * ((2 ^ d.toNat : Nat) : Int)
  else (if p < 0 then -1 else 1) * ((roundMag .rne (decide (p < 0)) p.natAbs d : Nat) : Int)

/-- Execute MMA on the rows of active lanes. -/
def runMma (g : Group) (a p q : Nat) (lanes : Mask) (cf : FMap Nat) : Group :=
  let x := cfgIn cf p
  let y := cfgIn cf q
  let e := mapGetD g.accE a 0
  let bad := g.tmarks.contains p || g.tmarks.contains q || (rowsOf lanes x).any fun i => (List.range y.rows).any fun j =>
    (mapGetD g.acc (accKey a i j) {}).ps
  let rowsB := (List.range y.rows).map fun j => (List.range (x.cols / 32)).map fun n => blockInts g q y j n
  (rowsOf lanes x).foldl (fun g' i =>
    let ba := (List.range (x.cols / 32)).map fun n => blockInts g p x i n
    ((List.range y.rows).zip rowsB).foldl (fun g' jb =>
      let key := accKey a i jb.1
      let acc := (ba.zip jb.2).foldl (fun (acc : AccE) ab =>
        let pr := (ab.1.1.zip ab.2.1).foldl (fun (z : Int) u => z + u.1 * u.2) 0
        let t := scaleInt pr (ab.1.2.1 + ab.2.2.1 - e)
        { r0 := addRes acc.r0 t 65535, r1 := addRes acc.r1 t 65536, r2 := addRes acc.r2 t 65521,
          nf := acc.nf || ab.1.2.2 || ab.2.2.2, ps := acc.ps || bad }) (mapGetD g'.acc key {})
      { g' with acc := mapPut g'.acc key {} acc }) g') g

/-- Reconstruct of R185. -/
def reconstruct (x : AccE) : Int :=
  let y := (x.r0 * 4293984256 * 4681 + x.r1 * 4293918735 * 61167 + x.r2 * 4294901760 * 65209) % 281406258216960
  if 140703129108480 ≤ y then (y : Int) - 281406258216960 else y

/-- The product that a drain rounds: X × 2^E × s. -/
def drainProduct (x e : Int) (s : Nat) : FVal :=
  fmulV (if x = 0 then .zero false else .fin (decide (x < 0)) x.natAbs e) (decodeF .f32 s)

/-- DrainValue of R185 for a float format. -/
def drainFloat (f : FFmt) (y : FVal) : Nat :=
  let sat := f == .e4m3
  match y with
  | .nan => (fmtOf f).cnan
  | .zero s => signBit (fmtOf f) s
  | .inf s => overflowPat f s .rne sat
  | .fin s m q => roundF f .rne sat s m 1 q

/-- DrainValue of R185 for S4 and S8. -/
def drainInt (w : Nat) (y : FVal) : Nat :=
  let hi : Int := ((2 ^ (w - 1) : Nat) : Int) - 1
  let lo : Int := -((2 ^ (w - 1) : Nat) : Int)
  let v : Int := match y with
    | .nan => 0
    | .zero _ => 0
    | .inf s => if s then lo else hi
    | .fin s m q => clampI ((if s then -1 else 1) * ((roundMag .rne s m q : Nat) : Int)) lo hi
  wrapN v w

def drainValue (x : AccE) (e : Int) (s fmt : Nat) : Nat :=
  match tileFmt fmt with
  | none => if x.nf then 0 else drainInt (fmtWidth fmt) (drainProduct (reconstruct x) e s)
  | some f => if x.nf then (fmtOf f).cnan else drainFloat f (drainProduct (reconstruct x) e s)

/-- Execute MDRAIN (R186). -/
def runMdrain (g : Group) (a t c0 : Nat) (clr : Bool) (lanes : Mask) (vals cf : FMap Nat) : Group :=
  let k := cfgIn cf t
  let e := mapGetD g.accE a 0
  let cells := (rowsOf lanes k).flatMap fun i => (List.range k.cols).map fun j => (i, j)
  let entry (ij : Nat × Nat) : AccE := mapGetD g.acc (accKey a ij.1 (c0 + ij.2)) {}
  let bad := cells.any fun ij => (entry ij).ps
  let stick := (tileFmt k.fmt).isNone && cells.any fun ij => (entry ij).nf
  let g' := cells.foldl (fun g' ij =>
    let g' := putTelem g' t k ij.1 ij.2 (drainValue (entry ij) e (mapGetD vals ij.1 0) k.fmt)
    if clr then { g' with acc := mapPut g'.acc (accKey a ij.1 (c0 + ij.2)) {} { ps := bad } } else g') g
  { g' with tmarks := if bad then setAdd g'.tmarks t else g'.tmarks, sticky := if stick then g'.sticky ||| 1 else g'.sticky }

/-! ### Rotation, signs and quantisation (R187 to R190) -/

/-- SignBit of R187. -/
def mixSign (seed r b j : Nat) : Bool :=
  let x := (seed + 0x9E3779B97F4A7C15 * (r * 65536 + b)) % 2 ^ 64
  let x := ((x ^^^ x / 2 ^ 30) * 0xBF58476D1CE4E5B9) % 2 ^ 64
  let x := ((x ^^^ x / 2 ^ 27) * 0x94D049BB133111EB) % 2 ^ 64
  bit (x ^^^ x / 2 ^ 31) (j % 64)

/-- The rows of a tile as patterns. -/
def tileRow (g : Group) (t : Nat) (k : TCfg) (r : Nat) : List Nat := (List.range k.cols).map fun c => telem g t k r c

def putRow (g : Group) (t : Nat) (k : TCfg) (r : Nat) (xs : List Nat) : Group :=
  ((List.range k.cols).zip xs).foldl (fun g e => putTelem g t k r e.1 e.2) g

def flipSign (w x : Nat) : Nat := (x + 2 ^ (w - 1)) % 2 ^ w

/-- An element of MSIGN: the sign flipped where asked, a NaN made canonical. An element that is NaN only because its block's scale byte is
0xFF (R119) counts as no NaN here: MSIGN looks at the element's own pattern (DESIGN CHOICE, log 111). -/
def signElem (f : FFmt) (neg : Bool) (x : Nat) : Nat :=
  if decodeF f x = .nan then (fmtOf f).cnan else if neg then flipSign (fmtOf f).w x else x

def runMsign (g : Group) (p q : Nat) (n : HOrder) (lanes : Mask) (seed blk : Nat) (vals cf : FMap Nat) : Group :=
  let k := cfgIn cf q
  let f := (tileFmt k.fmt).getD .f32
  let o := hadOrder n
  let g' := (rowsOf lanes k).foldl (fun g' L =>
    let xs := ((List.range k.cols).zip (tileRow g q k L)).map fun e =>
      signElem f (mixSign seed (mapGetD vals L 0) (blk + e.1 / o) (e.1 % o)) e.2
    let g' := putRow g' p k L xs
    (List.range (k.rb - k.elemBytes)).foldl (fun g' i => putTbyte g' p k L (k.elemBytes + i) (tbyte g q k L (k.elemBytes + i))) g') g
  { g' with tmarks := if g.tmarks.contains q && !(rowsOf lanes k).isEmpty then setAdd g'.tmarks p else g'.tmarks }

/-- One stage of the transform: sums and differences at distance 2^s. -/
def hadStage (s : Nat) (xs : List Nat) : List Nat :=
  (List.range xs.length).map fun i =>
    let d := 2 ^ s
    if i / d % 2 = 0 then fadd .f32 .rne (xs.getD i 0) (xs.getD (i + d) 0)
    else fadd .f32 .rne (xs.getD (i - d) 0) (flipSign 32 (xs.getD i 0))

/-- One block of MHAD: all stages, then the scaling. -/
def hadBlock (n : HOrder) (xs : List Nat) : List Nat :=
  let lg := match n with
    | .h16 => 4 | .h32 => 5 | .h64 => 6
  let scale := encodeF .f32 .rne false (.fin false 1 (-((lg / 2 : Nat) : Int)))
  ((List.range lg).foldl (fun xs s => hadStage s xs) xs).map fun x => fmul .f32 .rne x scale

def runMhad (g : Group) (p q : Nat) (n : HOrder) (sgn : Bool) (lanes : Mask) (seed blk : Nat) (vals cf : FMap Nat) : Group :=
  let k := cfgIn cf q
  let f := (tileFmt k.fmt).getD .f32
  let o := hadOrder n
  let g' := (rowsOf lanes k).foldl (fun g' L =>
    let row := tileRow g q k L
    let xs := (List.range (k.cols / o)).flatMap fun bb =>
      let ys := ((List.range o).zip ((row.drop (bb * o)).take o)).map fun e =>
        let x := convertF .f32 .rne false (decodeF f e.2)
        if sgn && mixSign seed (mapGetD vals L 0) (blk + bb) e.1 then flipSign 32 x else x
      (hadBlock n ys).map fun x => convertF f .rne false (decodeF .f32 x)
    putRow g' p k L xs) g
  { g' with tmarks := if g.tmarks.contains q && !(rowsOf lanes k).isEmpty then setAdd g'.tmarks p else g'.tmarks }

/-- The scale byte and elements of one block of MQUANT (R190). -/
def quantBlock (f : FFmt) (xs : List FVal) : Nat × List Nat :=
  let bad := xs.any fun v => match v with
    | .nan => true
    | .inf _ => true
    | _ => false
  let top := xs.foldl (fun (e : Option Int) v => match v, e with
    | .fin _ m q, some e => some (if e < floorLog2 m 1 + q then floorLog2 m 1 + q else e)
    | .fin _ m q, none => some (floorLog2 m 1 + q)
    | _, e => e) none
  if bad then (0xFF, xs.map fun _ => (fmtOf f).cnan)
  else match top with
    | none => (127, xs.map fun v => signBit (fmtOf f) v.sign)
    | some e =>
      let x := (clampI (e - (fmtOf f).emax + 127) 0 254).toNat
      (x, xs.map fun v => match v with
        | .fin s m q => roundF f .rne true s m 1 (q + 127 - (x : Int))
        | v => signBit (fmtOf f) v.sign)

def runMquant (g : Group) (p q : Nat) (lanes : Mask) (cf : FMap Nat) : Group :=
  let kq := cfgIn cf q
  let kp := cfgIn cf p
  let fq := (tileFmt kq.fmt).getD .f32
  let fp := (tileFmt kp.fmt).getD .e4m3
  let g' := (rowsOf lanes kq).foldl (fun g' L =>
    let row := (tileRow g q kq L).map (decodeF fq)
    (List.range (ceilDiv kq.cols 32)).foldl (fun g' n =>
      let r := quantBlock fp ((row.drop (32 * n)).take 32)
      let g' := ((List.range r.2.length).zip r.2).foldl (fun g' e => putTelem g' p kp L (32 * n + e.1) e.2) g'
      putTbyte g' p kp L (kp.elemBytes + n) (BitVec.ofNat 8 r.1)) g') g
  { g' with tmarks := if g.tmarks.contains q && !(rowsOf lanes kq).isEmpty then setAdd g'.tmarks p else g'.tmarks }

def runTtrans (g : Group) (p q : Nat) (cf : FMap Nat) : Group :=
  let kq := cfgIn cf q
  let kp := cfgIn cf p
  let g' := (List.range kq.rows).foldl (fun g' r => (List.range kq.cols).foldl (fun g' c =>
    putTelem g' p kp c r (telem g q kq r c)) g') g
  { g' with tmarks := if g.tmarks.contains q then setAdd g'.tmarks p else g'.tmarks }

/-- TMOVV from a vector register (R178): bytes beyond the row are dropped. -/
def runMovIn (g : Group) (p j : Nat) (lanes : Mask) (vals cf : FMap Nat) : Group :=
  let k := cfgIn cf p
  (rowsOf lanes k).foldl (fun g L => (List.range 4).foldl (fun g i =>
    if 4 * j + i < k.rb then putTbyte g p k L (4 * j + i) (BitVec.ofNat 8 (mapGetD vals L 0 / 2 ^ (8 * i))) else g) g) g

/-- The values that TMOVV gives vector registers: bytes beyond the row read as zero. -/
def movOutVals (g : Group) (p v j : Nat) (lanes : Mask) (cf : FMap Nat) : List (Nat × Word × Bool) :=
  let k := cfgIn cf p
  (rowsOf lanes k).map fun L =>
    (vunit v L, BitVec.ofNat 32 (leValue ((List.range 4).map fun i => if 4 * j + i < k.rb then tbyte g p k L (4 * j + i) else 0)),
      g.tmarks.contains p)

/-! ### Tile loads and stores at execution (R173, R176, R177) -/

/-- The sectors whose pieces a TLD or TST moves now: of several, some may be left for later when its execution
begins (R142, R176), and are then moved together (DESIGN CHOICE, log 91). -/
def sectorsNow (s : State) (w : MWord) (as : List Nat) : List Nat :=
  let ks := sectorsOf as
  if w.begun || decide (ks.length < 2) then ks else ks.filter fun k => !Config.pieceLater s.fresh k

/-- Change the oldest unexecuted matrix word of a group. -/
def modHead (s : State) (gid : Nat) (f : MWord → MWord) : State :=
  modGroup s gid fun g => { g with mq := match g.mq with
    | w :: ws => f w :: ws
    | [] => [] }

/-- Read some bytes of a TLD from global memory, where all of them can be read and no earlier access of the group to them is
pending; lines that cannot be read are asked for. -/
def tldRead (s : State) (gid : Nat) (as : List Nat) : State × Option (List (Byte × Bool)) :=
  let g := getGroup s gid
  if anyPending g && as.any (bytePending g []) then (s, none) else readBytes s (coreOf s gid) false as

/-- Read some bytes of a TLD from the window. -/
def tldReadWin (s : State) (gid : Nat) (as : List Nat) : State × Option (List (Byte × Bool)) :=
  (s, if as.any (winPending (getGroup s gid) []) then none else some (as.map (winRead (winOf s gid))))

/-- The bytes of a TLD that are still to be read. -/
def tldLeft (w : MWord) : List Nat := (w.pas.flatMap id).filter fun a => (mapGet? w.got a).isNone

/-- Perform the piece of a TLD in sector k. -/
def tldPiece (read : State → List Nat → State × Option (List (Byte × Bool))) (r : State × MWord) (k : Nat) : State × MWord :=
  let as := (tldLeft r.2).filter (· / 32 == k)
  let q := read r.1 as
  match q.2 with
  | some bs => (q.1, { r.2 with got := (as.zip bs).foldl (fun m e => mapSet m e.1 e.2) r.2.got })
  | none => (q.1, r.2)

/-- Perform what can be performed of a TLD: some sectors may be left for a later step (R142, R176). -/
def tldGo (s : State) (gid : Nat) (w : MWord) (sp : TSpace) : State × MWord :=
  let q := (sectorsNow s w (tldLeft w)).foldl
    (tldPiece fun s as => if sp = .global then tldRead s gid as else tldReadWin s gid as) (s, w)
  (q.1, { q.2 with begun := true })

/-- The lines of a store that must reach the L2 may be written now; where not, they are asked for. -/
def tstReady (s : State) (gid : Nat) (sc : Scope) (pas : List Nat) : State × Bool :=
  let die := dieOf s gid
  let lines := pas.foldl (fun a pa => setAdd a (pa / 128)) []
  let miss := if sc.code < 3 then [] else lines.filter fun l => !((List.range 128).all fun i => canWrite s die (l * 128 + i))
  (miss.foldl (fun s l => askLine s die l true) s,
    miss.isEmpty && !(anyPending (getGroup s gid) && pas.any (bytePending (getGroup s gid) [])))

/-- Put the bytes of row r into the tile. -/
def putTileRow (g : Group) (t : Nat) (k : TCfg) (r : Nat) (bs : List Byte) : Group :=
  ((List.range k.rb).zip bs).foldl (fun g e => putTbyte g t k r e.1 e.2) g

def tileRowBytes (g : Group) (t : Nat) (k : TCfg) (r : Nat) : List Byte := (List.range k.rb).map fun o => tbyte g t k r o

/-- The tile of a TLD whose bytes are all read. -/
def tldPut (g : Group) (p : Nat) (k : TCfg) (w : MWord) : Group :=
  let data := w.pas.map fun as => as.map fun a => mapGetD w.got a (0, false)
  let g := ((List.range w.pas.length).zip data).foldl (fun g e => putTileRow g p k e.1 (e.2.map (·.1))) g
  { g with tmarks := setPut g.tmarks p (data.any fun r => r.any (·.2)) }

/-- Execute a TLD (R176): once every byte is read, the tile is written. -/
def runTld (s : State) (gid p : Nat) (k : TCfg) (sp : TSpace) (w : MWord) : State × Bool :=
  let q := tldGo s gid w sp
  if (tldLeft q.2).isEmpty then (modGroup q.1 gid fun g => tldPut g p k q.2, true) else (modHead q.1 gid fun _ => q.2, false)

/-- The bytes that TST writes, rows ascending. -/
def tstBytes (g : Group) (p : Nat) (k : TCfg) (rows : List (List Nat)) : List (Nat × Byte) :=
  ((List.range rows.length).zip rows).flatMap fun e => e.2.zip (tileRowBytes g p k e.1)

/-- The write-backs that a TST owes at its scope (R177); the flag says whether its bytes are performed there. -/
def settleTst (s : State) (gid : Nat) (sc : Scope) (pas : List Nat) : State × Bool :=
  let core := coreOf s gid
  if sc.code < 3 then (s, true)
  else
    let q := wbAll (fun s l => if sc.code = 3 then wbL1 s core l else wbThrough s core l) (pas.foldl (fun a pa => setAdd a (pa / 128)) []) s
    let s := if 6 ≤ sc.code then pushPairs q.1 else q.1
    (s, q.2 && (decide (sc.code < 6) || logsFit s))

/-- Bytes of a TST of a marked tile go to their homes, whose sectors are then poisoned (R173). -/
def tstMarked (s : State) (gid : Nat) (bs : List (Nat × Byte)) : State :=
  let core := coreOf s gid
  let s := (byLine bs).foldl (fun s e => dropCopies (wbThrough s core e.1).1 core e.1 (e.2.map (·.1))) s
  bs.foldl (fun s b => setPoison s b.1 true) (engPut s bs)

/-- The bytes of a TST that are still to be stored, and those of them that are stored now: some sectors may be left for a later step
(R142, R176). -/
def tstNow (s : State) (gid p : Nat) (k : TCfg) (w : MWord) : List (Nat × Byte) × List (Nat × Byte) :=
  let bs := if w.begun then w.rest else tstBytes (getGroup s gid) p k w.pas
  let ks := sectorsNow s w (bs.map (·.1))
  (bs, bs.filter fun b => ks.contains (b.1 / 32))

/-- The word once some of its bytes are stored. -/
def tstLeft (w : MWord) (bs now : List (Nat × Byte)) : MWord :=
  let rest := bs.filter fun b => !(now.any fun n => n.1 / 32 == b.1 / 32)
  { w with begun := true, rest := rest, stored := rest.isEmpty }

/-- TST to global memory: the rows' bytes go into the L1, sector by sector, and then to the scope of the word; a later load of the
path reads each sector before or after that (R142, R177). A marked tile's bytes go to their homes (R173), and are performed at the
scope once no redo log is full (R365). -/
def runTstGlobal (s : State) (gid p : Nat) (k : TCfg) (sc : Scope) (w : MWord) : State × Bool :=
  let pas := w.pas.flatMap id
  if w.stored then settleTst s gid sc pas
  else
    let marked := (getGroup s gid).tmarks.contains p
    let r := tstReady s gid (if marked then .die else sc) pas
    if !r.2 then r
    else
      let n := tstNow r.1 gid p k w
      let w' := tstLeft w n.1 n.2
      let s := modHead (if marked then tstMarked r.1 gid n.2 else (storeBytes (coreOf r.1 gid) false n.2 r.1).1) gid fun _ => w'
      if w'.stored then settleTst s gid sc pas else (s, false)

/-- TST to the window, sector by sector. -/
def runTstWindow (s : State) (gid p : Nat) (k : TCfg) (w : MWord) : State × Bool :=
  let n := tstNow s gid p k w
  if n.2.any fun b => winPending (getGroup s gid) [] b.1 then (s, false)
  else
    let w' := tstLeft w n.1 n.2
    let win := (teamOf s gid).win
    let s := winStore s win n.2
    let s := if !(getGroup s gid).tmarks.contains p then s
      else modWin s win fun w => { w with poison := (sectorsOf (n.2.map (·.1))).foldl (fun m k =>
        (List.range 32).foldl (fun m i => setAdd m (k * 32 + i)) m) w.poison }
    (modHead s gid fun _ => w', w'.stored)

/-! ### Execution (R169) -/

/-- Execute one matrix word: none while its bytes cannot yet move, and then the requests that it makes. -/
def runWord (s : State) (gid : Nat) (w : MWord) : State × Bool :=
  if w.lanes = 0 then (s, true)
  else match w.i with
    | .tcfg p _ => (modGroup s gid fun g => { g with tmarks := setDel g.tmarks p }, true)
    | .tld p _ sp _ => runTld s gid p (cfgIn w.cfgs p) sp w
    | .tst p _ sp sc _ => if sp = .global then runTstGlobal s gid p (cfgIn w.cfgs p) sc w else runTstWindow s gid p (cfgIn w.cfgs p) w
    | .tmovv p v j toTile =>
      if toTile then (modGroup s gid fun g => runMovIn g p j w.lanes w.vals w.cfgs, true)
      else (modGroup s gid fun g => match w.op.bind g.op? with
        | none => g
        | some o => g.landOp s.fresh { o with vals := movOutVals g p v j w.lanes w.cfgs }, true)
    | .mma a p q => (modGroup s gid fun g => runMma g a p q w.lanes w.cfgs, true)
    | .mzero a e => (modGroup s gid fun g =>
        { g with acc := g.acc.filter (fun x => x.1 / 1024 != a), accE := mapPut g.accE a 0 e }, true)
    | .mdrain a t _ c0 clr => (modGroup s gid fun g => runMdrain g a t c0 clr w.lanes w.vals w.cfgs, true)
    | .mhad p q _ n sgn => (modGroup s gid fun g => runMhad g p q n sgn w.lanes w.base w.aux w.vals w.cfgs, true)
    | .msign p q _ n => (modGroup s gid fun g => runMsign g p q n w.lanes w.base w.aux w.vals w.cfgs, true)
    | .mquant p q => (modGroup s gid fun g => runMquant g p q w.lanes w.cfgs, true)
    | .ttrans p q => (modGroup s gid fun g => runTtrans g p q w.cfgs, true)
    | _ => (s, true)

/-- The acquire that WAITC MATRIX makes for a TST to global memory, at its scope (R250): made as the word is performed, before
any WAITC can show it. -/
def seenWord (s : State) (gid : Nat) (w : MWord) : State := match w.i with
  | .tst _ _ .global sc _ => if w.lanes = 0 then s else acquired s gid sc
  | _ => s

/-- The oldest unexecuted matrix word of a group executes, and its unit completes with it (R169, R170). -/
def matrixStep (s : State) (gid : Nat) : State :=
  match (getGroup s gid).mq with
  | [] => s
  | w :: _ =>
    let r := runWord (bump s) gid w
    if r.2 then afterOp (applyRules (modGroup (seenWord r.1 gid w) gid fun g => { g with mq := g.mq.drop 1 }) gid) gid else r.1

/-! ### Meanings -/

def execTcfg (p cfg : Nat) (s : State) : Host.Outcome State Fault Refusal := .next (issueOne (semTcfg p cfg) s)
def execTld (p v : Nat) (sp : TSpace) (pitch : Nat) (s : State) : Host.Outcome State Fault Refusal :=
  .next (issueOne (semTld p v sp pitch) s)
def execTst (p v : Nat) (sp : TSpace) (sc : Scope) (pitch : Nat) (s : State) : Host.Outcome State Fault Refusal :=
  .next (issueOne (semTst p v sp sc pitch) s)
def execTmovv (p v j : Nat) (toTile : Bool) (s : State) : Host.Outcome State Fault Refusal := .next (issueOne (semTmovv p v j toTile) s)
def execMma (a p q : Nat) (s : State) : Host.Outcome State Fault Refusal := .next (issueOne (semMma a p q) s)
def execMzero (a : Nat) (e : Int) (s : State) : Host.Outcome State Fault Refusal := .next (issueOne (semMzero a e) s)
def execMdrain (a t v c0 : Nat) (clr : Bool) (s : State) : Host.Outcome State Fault Refusal := .next (issueOne (semMdrain a t v c0 clr) s)
def execMhad (p q v : Nat) (n : HOrder) (sgn : Bool) (s : State) : Host.Outcome State Fault Refusal :=
  .next (issueOne (semMhad p q v n sgn) s)
def execMsign (p q v : Nat) (n : HOrder) (s : State) : Host.Outcome State Fault Refusal := .next (issueOne (semMsign p q v n) s)
def execMquant (p q : Nat) (s : State) : Host.Outcome State Fault Refusal := .next (issueOne (semMquant p q) s)
def execMbatch (s : State) : Host.Outcome State Fault Refusal := .next (issueOne semMbatch s)
def execTtrans (p q : Nat) (s : State) : Host.Outcome State Fault Refusal := .next (issueOne (semTtrans p q) s)

end Sys2Proof.Machine
end

