-- ==== Sys2Proof/Machine/Copy.lean ====
section
/-! DEFINITION. Layout records, buffers and copies, majors 0x6C to 0x72, and the copy engine (R192 to R208). -/
namespace Sys2Proof.Machine

open Sys2Proof

/-! ### Tensor layout records (R192 to R194) -/

/-- A layout record, read. -/
structure LayRec where
  base  : Nat
  scale : Nat
  seed  : Nat
  str   : List Nat
  ext   : List Nat
  box   : List Nat
  fmt   : Nat
  ndim  : Nat
  scb   : Bool
  rsv   : Nat
  deriving DecidableEq, Repr

def layRecOf (bs : List Byte) : LayRec :=
  let t := fieldAt bs 60 4
  { base := fieldAt bs 0 8, scale := fieldAt bs 8 8, seed := fieldAt bs 16 8,
    str := [fieldAt bs 24 4, fieldAt bs 28 4, fieldAt bs 32 4],
    ext := [fieldAt bs 36 4, fieldAt bs 40 4, fieldAt bs 44 4, fieldAt bs 48 4],
    box := [fieldAt bs 52 2, fieldAt bs 54 2, fieldAt bs 56 2, fieldAt bs 58 2],
    fmt := bits t 3 0, ndim := bits t 5 4, scb := bit t 6, rsv := bits t 31 7 }

/-- The mask of LREC.CHK (R195): 0 for a valid record. -/
def recMask (r : LayRec) : Nat :=
  let b0 := r.rsv != 0 || decide (2 ^ 48 ≤ r.base) || decide (2 ^ 48 ≤ r.scale)
  let b1 := !(decide (1 ≤ r.fmt) && decide (r.fmt ≤ 8)) || r.ext.any (· == 0) || r.box.any (· == 0) ||
    (List.range 4).any fun k => decide (r.ndim < k) && (nthN r.ext k != 1 || nthN r.box k != 1 || nthN r.str (k - 1) != 0)
  let b2 := if r.scb then !(r.fmt == 3 || r.fmt == 4 || r.fmt == 5) || r.scale == 0 || nthN r.box 0 % 32 != 0 else r.scale != 0
  let b3 := (r.fmt == 1 || r.fmt == 3) && (nthN r.ext 0 % 2 == 1 || nthN r.box 0 % 2 == 1)
  b2n b0 + 2 * b2n b1 + 4 * b2n b2 + 8 * b2n b3

/-- The origin of a box is misplaced (R194). -/
def badOrigin (r : LayRec) (o0 : Int) : Bool := ((r.fmt == 1 || r.fmt == 3) && o0 % 2 != 0) || (r.scb && o0 % 32 != 0)

/-- Row bytes and image length of a box (R194). -/
def imgRow (fmt b0 : Nat) (scb : Bool) : Nat := ceilDiv (b0 * fmtWidth fmt) 8 + (if scb then b0 / 32 else 0)
def imgLen (fmt : Nat) (box : List Nat) (scb : Bool) : Nat := imgRow fmt (nthN box 0) scb * nthN box 1 * nthN box 2 * nthN box 3

/-- A byte of a record or request block that has come for the chain at `pc` while its slot waited to issue it (R268). -/
def Slot.seenByte? (v : Slot) (pc pa : Nat) : Option (Byte × Bool) := if v.seen.1 = pc then (mapGet? v.seen.2 pa).join else none

/-- The bytes of a record as a load of the path, where they all have come or can be read. -/
def recBytes? (s : State) (c : Ctx) (a : Nat) : Option (List (Byte × Bool)) :=
  let v := (getGroup s c.gid).slot c.sl
  let pas := lanePas s c a 64 .read
  let bs := pas.filterMap fun pa => (v.seenByte? c.pc pa).orElse fun _ => loadByte? s (coreOf s c.gid) false pa
  if bs.length = pas.length then some bs else none

/-- ALIGN, PAGE and PERM of a record address. -/
def recCause (s : State) (c : Ctx) (a : Nat) (L : Nat) : Option Cause :=
  if a % 64 ≠ 0 then some { code := tAlign, addr := a } else globalCause s c a 64 .read L

/-- A record whose bytes have not arrived, or that an earlier access of the path is to reach first, holds the chain (R143, R201,
R421); asking for its bytes sets them going. -/
def recHold (s : State) (c : Ctx) (a : Nat) : Bool :=
  a % 64 == 0 && (rangeFail s (coreOf s c.gid) (ctxOf s c.gid) a 64 .read).isNone &&
    ((recBytes? s c a).isNone ||
      (lanePas s c a 64 .read).any (bytePending (getGroup s c.gid) ((getGroup s c.gid).apartOf c.sl)))

def recNudge (c : Ctx) (a : Nat) (s : State) : State :=
  let die := dieOf s c.gid
  let pas := lanePas s c a 64 .read
  if (recBytes? s c a).isSome then s
  else
    let s := modSlot s c.gid c.sl fun v =>
      { v with seen := (c.pc, pas.foldl (fun m pa => mapSet m pa (v.seenByte? c.pc pa)) (if v.seen.1 = c.pc then v.seen.2 else [])) }
    (pas.foldl (fun x pa => setAdd x (pa / 128)) []).foldl (fun s l =>
      if pas.any fun pa => pa / 128 == l && !canRead s die pa then askLine s die l false else s) s

/-- The chain has issued: what had come for it is forgotten. -/
def forgetSeen (c : Ctx) (s : State) : State :=
  if ((getGroup s c.gid).slot c.sl).seen = (0, []) then s else modSlot s c.gid c.sl fun v => { v with seen := (0, []) }

/-- The bytes that have come of what a slot's chain waits for stay read: its access is performed as they come (R268), unless an
earlier access of its path to the byte is pending (R143). -/
def seeSlot (s : State) (gid : Nat) (sl : PSlot) (line : Nat) : State :=
  let g := getGroup s gid
  let see (e : Nat × Option (Byte × Bool)) : Nat × Option (Byte × Bool) :=
    if e.2.isSome ∨ e.1 / 128 ≠ line ∨ bytePending g (g.apartOf sl) e.1 = true then e else (e.1, loadByte? s (coreOf s gid) false e.1)
  if (g.slot sl).seen.2.isEmpty then s else modSlot s gid sl fun v => { v with seen := (v.seen.1, v.seen.2.map see) }

/-- The record that a copy or THNEW reads. Of one in a poisoned sector the spec gives no outcome: it is read with the free values of
the poisoned bytes, and no trap or status says so (DESIGN CHOICE, log 96). -/
def recOf (s : State) (c : Ctx) (a : Nat) : LayRec := layRecOf (((recBytes? s c a).getD []).map (·.1))

/-! ### LREC (R195) -/

def lrecSem (d a : Nat) (f : Option Nat) (wide : Bool) (off n : Nat) (val : List Byte → Nat) : Sem :=
  { pipe := 2, reads := [a, a + 1], writes := if wide then [d, d + 1] else [d], flags := flagOf f,
    hold := fun s c => c.lanes.any fun L => recHold s c (c.v64 a L),
    nudge := fun c s => c.lanes.foldl (fun s L => recNudge c (c.v64 a L) s) s,
    lane := fun s c L => recCause s c (c.v64 a L) L,
    addrs := fun _ c => c.lanes.map fun L => (c.v64 a L, 64, .read),
    eff := fun c s =>
      let vals := c.lanes.flatMap fun L =>
        let bs := (recBytes? s c (c.v64 a L)).getD []
        let v := val (bs.map (·.1))
        let p (o k : Nat) : Bool := ((bs.drop o).take k).any (·.2)
        if wide then [(vunit d L, BitVec.ofNat 32 v, p off 4), (vunit (d + 1) L, BitVec.ofNat 32 (v / 2 ^ 32), p (off + 4) 4)]
        else [(vunit d L, BitVec.ofNat 32 v, p off n)]
      let s := c.lanes.foldl (fun s L => fillLoad s (coreOf s c.gid) (lanePas s c (c.v64 a L) 64 .read)) s
      putLres c f vals (forgetSeen c s) }

def semLrecBase (d a : Nat) (f : Option Nat) : Sem := lrecSem d a f true 0 8 fun bs => fieldAt bs 0 8
def semLrecScale (d a : Nat) (f : Option Nat) : Sem := lrecSem d a f true 8 8 fun bs => fieldAt bs 8 8
def semLrecSeed (d a : Nat) (f : Option Nat) : Sem := lrecSem d a f true 16 8 fun bs => fieldAt bs 16 8
def semLrecChk (d a : Nat) (f : Option Nat) : Sem := lrecSem d a f false 0 64 fun bs => recMask (layRecOf bs)

/-! ### BNEW, BFREE, BSTAT (R197 to R199) -/

/-- The live buffers of every team of the sharing unit of a group, which share its window (R197, R311). -/
def liveBufs (s : State) (gid : Nat) : List (Nat × Buf) :=
  let t := teamOf s gid
  (s.teams.filter fun e => e.1 == (getGroup s gid).team || (e.2.launch == t.launch && e.2.win == t.win)).flatMap fun e =>
    e.2.bufs.filter (·.2.alloc)

def freeBuf (s : State) (gid : Nat) : Option Nat := (List.range 32).find? fun i => !(bufOf s gid i).alloc

def bnewCause (s : State) (c : Ctx) (off size : Nat) : Option Cause :=
  if off % 16 ≠ 0 ∨ size % 16 ≠ 0 ∨ size < 16 ∨ 262144 < size then some { code := tLayout }
  else if !(winOf s c.gid).holds off size then some { code := tPerm, addr := off }
  else if (liveBufs s c.gid).any (fun b => decide (b.2.off < off + size) && decide (off < b.2.off + b.2.size)) ||
      (winOf s c.gid).tagged off size || (freeBuf s c.gid).isNone then some { code := tResource }
  else none

def semBnew (d a : Nat) (f : Option Nat) (full : Bool) : Sem :=
  { pipe := 2, leads := [a, a + 1], writes := [d], flags := flagOf f,
    lane := leadCause fun s c => bnewCause s c (c.v a c.lead) (c.v (a + 1) c.lead),
    eff := fun c s => match (if c.act = 0 then none else freeBuf s c.gid) with
      | none => putLres c f [] s
      | some i =>
        let s := modBuf s c.gid i fun b =>
          { b with alloc := true, off := c.v a c.lead, size := c.v (a + 1) c.lead, st := if full then .full else .free,
                   status := 0, promise := 0 }
        putLres c f (c.out32 d fun _ => bufHandle (bufOf s c.gid i) i) s }

def nextSerial (n : Nat) : Nat := if n = 15 then 1 else n + 1

def semBfree (a : Nat) : Sem :=
  { pipe := 2, leads := [a],
    lane := leadCause fun s c => match bufIdx? s c.gid (c.v a c.lead) with
      | none => some { code := tHandleStale, detail := c.v a c.lead }
      | some i => if (bufOf s c.gid i).st = .filling ∨ (bufOf s c.gid i).st = .draining then
          some { code := tHandleState, detail := c.v a c.lead } else none,
    eff := fun c s => match (if c.act = 0 then none else bufIdx? s c.gid (c.v a c.lead)) with
      | none => s
      | some i => modBuf s c.gid i fun b => { serial := nextSerial b.serial } }

def semBstat (d a : Nat) (f : Option Nat) : Sem :=
  { pipe := 2, reads := [a], writes := [d], flags := flagOf f,
    eff := fun c s => putLres c f (c.out32 d fun L => match bufIdx? s c.gid (c.v a L) with
      | none => 0xFFFFFFFF
      | some i => bufWord (bufOf s c.gid i)) s }

/-! ### Issue of copies (R200, R201, R203, R208) -/

/-- The buffer of a copy is busy: the chain is held (R201). -/
def copyBusy (s : State) (c : Ctx) (h : Nat) : Bool := match bufIdx? s c.gid h with
  | none => false
  | some i => (bufOf s c.gid i).st == .filling || (bufOf s c.gid i).st == .draining

/-- HANDLE_STALE, and HANDLE_STATE of a copy out of a FREE buffer. -/
def copyHandle (s : State) (c : Ctx) (h : Nat) (out : Bool) : Option Cause := match bufIdx? s c.gid h with
  | none => some { code := tHandleStale, detail := h }
  | some i => if out ∧ (bufOf s c.gid i).st = .free then some { code := tHandleState, detail := h } else none

/-- A context may post to a mailbox (R201, R316, R318). -/
def mayPost (s : State) (x : Context) (mb : Nat) : Bool :=
  x.sys || ((getBox s mb).ten == x.ten && !(getCtx s (getBox s mb).ctx).sys)

/-- The operand group of a copy, read from the leader lane. -/
def copyOrg (c : Ctx) (a : Nat) : List Int := (List.range 4).map fun k => sext (c.v (a + 4 + k) c.lead) 32

def copyCause (s : State) (c : Ctx) (a w : Nat) (out : Bool) : Option Cause :=
  let ra := c.v64 a c.lead
  let h := c.v (a + 2) c.lead
  let off := c.v (a + 3) c.lead
  match recCause s c ra c.lead with
  | some k => some k
  | none => match copyHandle s c h out with
    | some k => some k
    | none =>
      let r := recOf s c ra
      let size := (bufOf s c.gid (bits h 7 0)).size
      if recMask r ≠ 0 ∨ badOrigin r ((copyOrg c a).headD 0) = true ∨ off % 16 ≠ 0 then some { code := tLayout }
      else if size < off + imgLen r.fmt r.box r.scb then some { code := tPerm }
      else if bit w 4 = true ∧ (winOf s c.gid).bars ≤ bits w 3 0 then some { code := tResource }
      else if bit w 5 = true ∧ mayPost s (ctxOf s c.gid) (bits w 17 6) = false then some { code := tPerm }
      else none

/-- A promise: later than the issue time (R203). -/
def promiseOf (s : State) (gid : Nat) : Nat := (ctxTime s (ctxOf s gid) + 1 + Config.promiseDelay s.fresh) % 2 ^ 64

/-- Add an engine operation with its class. -/
def addEngine (c : Ctx) (cls : EngClass) (flag : Option Nat) (kind : OpKind) (units : List Nat) (s : State) : State :=
  modGroup s c.gid fun g => g.addOp { id := 0, pipe := 2, slot := c.sl, kind := kind, cls := some cls, flag := flag, units := units }

/-- Issue a copy: the buffer fills or drains, the promise goes to d, the engine operation starts (R196, R203). -/
def startCopy (c : Ctx) (d : Nat) (f : Option Nat) (h : Nat) (out : Bool) (cls : EngClass) (kind : OpKind) (s : State) : State :=
  let t := promiseOf s c.gid
  let s := modBuf s c.gid (bits h 7 0) fun b => { b with st := if out then .draining else .filling, promise := t }
  putLres c f (c.out64 d fun _ => t) (addEngine c cls none kind [] s)

def copySem (d a : Nat) (f : Option Nat) (w : Nat) (out : Bool) : Sem :=
  { pipe := 2, leads := (List.range 8).map (a + ·), writes := [d, d + 1], flags := flagOf f, cls := some .copy,
    hold := fun s c => c.act != 0 && (recHold s c (c.v64 a c.lead) || copyBusy s c (c.v (a + 2) c.lead)),
    nudge := fun c s => recNudge c (c.v64 a c.lead) s,
    lane := leadCause fun s c => copyCause s c a w out,
    addrs := fun _ c => if c.act = 0 then [] else [(c.v64 a c.lead, 64, .read)],
    eff := fun c s =>
      if c.act = 0 then putLres c f [] s
      else
        let ra := c.v64 a c.lead
        let h := c.v (a + 2) c.lead
        let r := recOf s c ra
        startCopy c d f h out .copy (.copy
          { recAddr := ra, handle := h, off := c.v (a + 3) c.lead, scaleAt := r.scale, scb := r.scb, text := r.ext,
            box := { base := r.base, fmt := r.fmt, ndim := r.ndim, str := r.str, org := copyOrg c a, ext := r.box },
            word := w, wr := out }) (forgetSeen c s) }

def semCpy (d a : Nat) (f : Option Nat) (w : Nat) : Sem := copySem d a f w false
def semCpyo (d a : Nat) (f : Option Nat) (w : Nat) : Sem := copySem d a f w true

def qpOf (s : State) (gid qp : Nat) : QPair := mapGetD (ctxOf s gid).qps qp {}

/-- What CPYL checks (R201, R208). Of a cause that stands on no global address the spec gives no ADDR: ALIGN and PERM report the
remote offset here, the buffer-size and mailbox PERM of CPY and CPYO 0, BNEW's PERM the window offset (DESIGN CHOICE, log 97). -/
def linkCause (s : State) (c : Ctx) (a qp len : Nat) (wr : Bool) : Option Cause :=
  let h := c.v (a + 2) c.lead
  let off := c.v (a + 3) c.lead
  let ro := c.v64 a c.lead
  let q := qpOf s c.gid qp
  match copyHandle s c h wr with
  | some k => some k
  | none =>
    if off % 16 ≠ 0 then some { code := tLayout }
    else if q.st ≠ 1 ∧ q.st ≠ 2 then some { code := tResource }
    else if ro % 16 ≠ 0 ∨ (q.kind = 1 ∧ (ro % 64 ≠ 0 ∨ len % 64 ≠ 0)) then some { code := tAlign, addr := ro }
    else if q.wsize * 4096 < ro + len ∨ (bufOf s c.gid (bits h 7 0)).size < off + len then some { code := tPerm, addr := ro }
    else none

def linkSem (d a : Nat) (f : Option Nat) (qp len : Nat) (wr : Bool) : Sem :=
  { pipe := 2, leads := (List.range 4).map (a + ·), writes := [d, d + 1], flags := flagOf f, cls := some .link,
    hold := fun s c => c.act != 0 && copyBusy s c (c.v (a + 2) c.lead),
    lane := leadCause fun s c => linkCause s c a qp len wr,
    eff := fun c s =>
      if c.act = 0 then putLres c f [] s
      else startCopy c d f (c.v (a + 2) c.lead) wr .link
        (.link qp (c.v64 a c.lead) (c.v (a + 2) c.lead) (c.v (a + 3) c.lead) len s.fresh wr false) s }

def semCpylRead (d a : Nat) (f : Option Nat) (qp len : Nat) : Sem := linkSem d a f qp len false
def semCpylWrite (d a : Nat) (f : Option Nat) (qp len : Nat) : Sem := linkSem d a f qp len true

/-! ### The copy engine (R193, R202, R204, R205) -/

/-- A run of bytes of a copy: image offset, global address, number of bytes. -/
structure CRun where
  img : Nat
  va  : Nat
  n   : Nat
  deriving DecidableEq, Repr

/-- The rows of the box with their image index and coordinates. -/
def copyRows (d : CopyDesc) : List (Nat × List Int) :=
  (boxRowIdx d.box).map fun j =>
    ((j.2.2 * nthN d.box.ext 2 + j.2.1) * nthN d.box.ext 1 + j.1,
      [nthI d.box.org 0, nthI d.box.org 1 + j.1, nthI d.box.org 2 + j.2.1, nthI d.box.org 3 + j.2.2])

/-- The columns of a row that lie inside the tensor, as a range of box columns; none where the row lies outside. -/
def insideCols (d : CopyDesc) (o : List Int) : Option (Nat × Nat) :=
  let inside (k : Nat) : Bool := decide (0 ≤ nthI o k) && decide (nthI o k < (nthN d.text k : Nat))
  let lo := if nthI o 0 < 0 then (-(nthI o 0)).toNat else 0
  let hi := clampI ((nthN d.text 0 : Nat) - nthI o 0) 0 (nthN d.box.ext 0 : Nat)
  if inside 1 && inside 2 && inside 3 && decide ((lo : Int) < hi) then some (lo, hi.toNat) else none

/-- The runs of element bytes and scale bytes that a copy moves. -/
def copyRuns (d : CopyDesc) : List CRun :=
  let w := fmtWidth d.box.fmt
  let rb := imgRow d.box.fmt (nthN d.box.ext 0) d.scb
  let eb := ceilDiv (nthN d.box.ext 0 * w) 8
  (copyRows d).flatMap fun r => match insideCols d r.2 with
    | none => []
    | some (lo, hi) =>
      let c0 : Int := nthI r.2 0 + lo
      let va := wrapN ((d.box.base : Int) + c0 * w / 8 + nthI r.2 1 * nthN d.box.str 0 + nthI r.2 2 * nthN d.box.str 1 +
        nthI r.2 3 * nthN d.box.str 2) 64
      let elems : CRun := { img := r.1 * rb + lo * w / 8, va := va, n := (hi - lo) * w / 8 }
      if !d.scb then [elems]
      else
        let row := ((nthI r.2 3 * nthN d.text 2 + nthI r.2 2) * nthN d.text 1 + nthI r.2 1) * (ceilDiv (nthN d.text 0) 32 : Nat)
        let g0 := lo / 32
        let g1 := (hi + 31) / 32
        [elems, { img := r.1 * rb + eb + g0, va := wrapN ((d.scaleAt : Int) + row + (nthI r.2 0) / 32 + g0) 64, n := g1 - g0 }]

/-- The image of a box with nothing inside the tensor: zero elements, scale bytes 127 (R202). -/
def emptyImage (d : CopyDesc) : List Byte :=
  let eb := ceilDiv (nthN d.box.ext 0 * fmtWidth d.box.fmt) 8
  let rb := imgRow d.box.fmt (nthN d.box.ext 0) d.scb
  (boxRowIdx d.box).flatMap fun _ => List.replicate eb (0 : Byte) ++ List.replicate (rb - eb) 127

/-- Page pieces of the runs, with the failure of each. -/
def runPieces (s : State) (x : Context) (acc : Acc) (rs : List CRun) : List (CRun × Option XFail) :=
  rs.flatMap fun r =>
    ((pagePieces r.va r.n).foldl (fun (a : List (CRun × Option XFail) × Nat) p =>
      (a.1 ++ [({ img := a.2, va := p.1, n := p.2 }, match engXlate s x p.1 acc with
        | .error f => some f
        | .ok _ => none)], a.2 + p.2)) ([], r.img)).1

/-- The pieces once a reply has failed the given pages: they stay failed (R303). -/
def failPieces (failed : List Nat) (ps : List (CRun × Option XFail)) : List (CRun × Option XFail) :=
  ps.map fun p => if failed.contains (faultPage p.1.va) && p.2.isNone then (p.1, some {}) else p

/-- Report the first page of an engine operation that still waits for one; the operation waits for its reply (R301 to
R303). None where no page is missing, or where a reply has failed one: the operation then completes. -/
def engineFault (s : State) (gid id : Nat) (x : Context) (acc : Acc) (agent : Nat) (failed : List Nat)
    (ps : List (CRun × Option XFail)) : Option State :=
  match firstSome (fun p => p.2.bind fun f =>
      if waitsReply f && failed.isEmpty then some (p.1.va, f) else none) ps with
  | none => none
  | some (va, f) =>
    some (modGroup (raiseFault s x va f acc agent) gid fun g => g.modOp id fun o => { o with flt := some (faultPage va, f.cause) })

/-- The lowest status code met, 0 where none (R205). -/
def worstOf (l : List (Nat × Bool)) : Nat := ((l.filter (·.2)).map (·.1)).headD 0

/-- Write back the issuing core's dirty bytes of lines that the engine reads or writes (R207); the flag says all are done. -/
def wbLines (s : State) (core : Nat) (lines : List Nat) : State × Bool :=
  lines.foldl (fun r l => let q := wbThrough r.1 core l; (q.1, r.2 && q.2)) (s, true)

/-- Put a status in a buffer's entry and make it FULL (R196, R204). -/
def settleBuf (s : State) (gid h status : Nat) : State :=
  let s := modBuf s gid (bits h 7 0) fun b => if b.serial = bits h 11 8 then { b with status := status, st := .full, last := none } else b
  wakeBuffer s gid (bits h 7 0)

/-- The completion message of a copy (R206). -/
def copyMessage (s : State) (gid : Nat) (d : CopyDesc) (status : Nat) : List Byte :=
  leBytes 4 d.handle ++ leBytes 4 status ++ leBytes 8 (ctxTime s (ctxOf s gid)) ++ leBytes 8 d.recAddr ++
    d.box.org.flatMap (fun o => leBytes 4 (wrapN o 32)) ++ leBytes 4 (ctxWord (ctxOf s gid)) ++ List.replicate 20 0

/-- The steps of R204 once the data are performed. -/
def finishCopy (s : State) (gid id : Nat) (d : CopyDesc) (status : Nat) : State :=
  let win := (teamOf s gid).win
  let b := bits d.word 3 0
  let live := barLive ((getWin s win).bar b)
  let status := if status = 0 ∧ bit d.word 4 ∧ !live then 5 else status
  let s := modBuf (settleBuf s gid d.handle status) gid (bits d.handle 7 0) fun b => { b with last := some (gid, id) }
  let s := if bit d.word 4 ∧ live then arrive s win b none else s
  let s := if bit d.word 5 then
      (postMsg s (bits d.word 17 6) (copyMessage s gid d status) (.ctx (ctxNumOf s gid)) (.copy gid d.handle id)).1 else s
  finishOpS (acquired s gid ((Scope.ofCode (bits d.word 20 18)).getD .group)) gid id

/-- The bytes of a copy's runs whose pages are there: physical address and image offset. -/
def copyBytes (s : State) (x : Context) (acc : Acc) (ps : List (CRun × Option XFail)) : List (Nat × Nat) :=
  (ps.filter (·.2.isNone)).flatMap fun e => (engPas s x e.1.va e.1.n acc).zip ((List.range e.1.n).map fun i => e.1.img + i)

/-- Those of the bytes still to be moved that are moved now: each sector is a piece of its own, and as the engine starts, some of
several may be left for later (R202, R243), and are then moved together (DESIGN CHOICE, log 91). -/
def copyNow (s : State) (d : CopyDesc) (todo : List (Nat × Nat)) : List (Nat × Nat) :=
  let ks := sectorsOf (todo.map (·.1))
  if d.begun || decide (ks.length < 2) then todo else todo.filter fun e => !Config.pieceLater s.fresh (e.1 / 32)

/-- Move bytes of a copy out of a buffer into global memory (R202, R205). -/
def moveOut (s : State) (gid at_ : Nat) (now : List (Nat × Nat)) : State :=
  let w := winOf s gid
  let s := engPut s (now.map fun e => (e.1, winByte w (at_ + e.2)))
  let s := clearCovered s (now.map (·.1))
  let s := (now.filter fun e => winPoison w (at_ + e.2) 1).foldl (fun s e => setPoison s e.1 true) s
  (now.foldl (fun a e => setAdd a (e.1 / 128)) []).foldl (fun s l => dropCopies s (coreOf s gid) l (List.range 128)) s

/-- Move bytes of a copy from global memory into a buffer (R202, R205). -/
def moveIn (s : State) (gid at_ : Nat) (now : List (Nat × Nat)) : State :=
  let s := (now.foldl (fun a e => setAdd a (e.1 / 128)) []).foldl (fun s l => resolveLine s l false) s
  let s := winStore s (teamOf s gid).win
    (now.map fun e => (at_ + e.2, if poisoned s e.1 then Config.poisonByte e.1 else engByte s e.1))
  modWin s (teamOf s gid).win fun w => { w with poison := (now.filter fun e => poisoned s e.1).foldl (fun p e => setAdd p (at_ + e.2)) w.poison }

/-- The bytes of an image that no run of the tensor fills: zero elements, scale bytes 127 (R202). -/
def fillOut (s : State) (gid at_ : Nat) (d : CopyDesc) (ps : List (CRun × Option XFail)) : State :=
  let filled := ps.flatMap fun e => (List.range e.1.n).map fun i => e.1.img + i
  winStore s (teamOf s gid).win ((((List.range (emptyImage d).length).zip (emptyImage d)).filter fun e => !filled.contains e.1).map fun e =>
    (at_ + e.1, e.2))

/-- Move the bytes of a copy whose pages are settled, and complete it once all are moved and performed at its scope: one whose own
writes overfill a redo log waits for room (R204, R365). -/
def moveCopy (s : State) (gid id : Nat) (d : CopyDesc) (ps : List (CRun × Option XFail)) : State :=
  let x := ctxOf s gid
  let at_ := (bufOf s gid (bits d.handle 7 0)).off + d.off
  let acc : Acc := if d.wr then .engWrite else .engRead
  let fails (p : XFail → Bool) : Bool := ps.any fun e => (e.2.map p).getD false
  let todo := (copyBytes s x acc ps).filter fun e => !d.moved.contains (e.1 / 32)
  let now := copyNow s d todo
  let s := (ps.filter (·.2.isNone)).foldl (fun s e => engMark s x e.1.va e.1.n acc) s
  let bad := d.bad || if d.wr then now.any fun e => winPoison (winOf s gid) (at_ + e.2) 1 else now.any fun e => poisoned s e.1
  let lost := ps.flatMap fun e => if e.2.isSome then (List.range e.1.n).map fun i => e.1.img + i else []
  -- what the whole copy covers is no longer poisoned, but for what it moves from poisoned sectors
  let s := if d.wr || d.begun then s else modWin s (teamOf s gid).win fun w =>
    w.covered (((List.range (emptyImage d).length).filter fun i => !lost.contains i).map (at_ + ·))
  let s := if d.wr then moveOut s gid at_ now else moveIn s gid at_ now
  if now.length = todo.length ∧ (d.wr = false ∨ bits d.word 20 18 < 6 ∨ logsFit s = true) then
    finishCopy (if d.wr then s else fillOut s gid at_ d ps) gid id d
      (worstOf [(1, fails isPageFail), (2, fails fun f => !isPageFail f), (3, bad)])
  else
    let d := { d with begun := true, bad := bad, moved := (sectorsOf (now.map (·.1))).foldl setAdd d.moved }
    modGroup (bump s) gid fun g => g.modOp id fun o => { o with kind := .copy d }

/-- Advance a copy: its release, its translations, the write-backs of the issuing core, then its data (R202, R204, R207). -/
def copyStep (s : State) (gid id : Nat) (d : CopyDesc) (failed : List Nat) : State :=
  let sc := (Scope.ofCode (bits d.word 20 18)).getD .group
  let r := released s gid id ((((getGroup s gid).op? id).map (·.apart)).getD []) sc
  if !r.2 then r.1
  else
    let x := ctxOf s gid
    let acc : Acc := if d.wr then .engWrite else .engRead
    let ps := failPieces failed (runPieces r.1 x acc (copyRuns d))
    match engineFault r.1 gid id x acc (dieOf s gid) failed ps with
    | some s' => s'
    | none =>
      let lines := (ps.filter (·.2.isNone)).foldl (fun a e => (engPas s x e.1.va e.1.n acc).foldl (fun a pa => setAdd a (pa / 128)) a) []
      let q := wbLines r.1 (coreOf s gid) lines
      if !q.2 then q.1 else moveCopy q.1 gid id d ps

/-! ### Meanings -/

def execLrecBase (d a : Nat) (f : Option Nat) (s : State) : Host.Outcome State Fault Refusal := .next (issueOne (semLrecBase d a f) s)
def execLrecScale (d a : Nat) (f : Option Nat) (s : State) : Host.Outcome State Fault Refusal := .next (issueOne (semLrecScale d a f) s)
def execLrecSeed (d a : Nat) (f : Option Nat) (s : State) : Host.Outcome State Fault Refusal := .next (issueOne (semLrecSeed d a f) s)
def execLrecChk (d a : Nat) (f : Option Nat) (s : State) : Host.Outcome State Fault Refusal := .next (issueOne (semLrecChk d a f) s)
def execBnew (d a : Nat) (f : Option Nat) (full : Bool) (s : State) : Host.Outcome State Fault Refusal :=
  .next (issueOne (semBnew d a f full) s)
def execBfree (a : Nat) (s : State) : Host.Outcome State Fault Refusal := .next (issueOne (semBfree a) s)
def execBstat (d a : Nat) (f : Option Nat) (s : State) : Host.Outcome State Fault Refusal := .next (issueOne (semBstat d a f) s)
def execCpy (d a : Nat) (f : Option Nat) (w : Nat) (s : State) : Host.Outcome State Fault Refusal := .next (issueOne (semCpy d a f w) s)
def execCpyo (d a : Nat) (f : Option Nat) (w : Nat) (s : State) : Host.Outcome State Fault Refusal := .next (issueOne (semCpyo d a f w) s)
def execCpylRead (d a : Nat) (f : Option Nat) (qp len : Nat) (s : State) : Host.Outcome State Fault Refusal :=
  .next (issueOne (semCpylRead d a f qp len) s)
def execCpylWrite (d a : Nat) (f : Option Nat) (qp len : Nat) (s : State) : Host.Outcome State Fault Refusal :=
  .next (issueOne (semCpylWrite d a f qp len) s)

end Sys2Proof.Machine
end

