-- ==== Sys2Proof/Machine/Tile.lean ====
section
/-! DEFINITION. Tile handles, majors 0x74 to 0x76 (R39, R209 to R213, R278). -/
namespace Sys2Proof.Machine

open Sys2Proof

/-! ### Handles (R39) -/

def hEntry (s : State) (ctx i : Nat) : HEntry := mapGetD (getCtx s ctx).handles i {}

/-- The index that a tile handle names, unless it is stale. -/
def tileIdx? (s : State) (gid h : Nat) : Option Nat :=
  let i := bits h 11 0
  let e := hEntry s (ctxNumOf s gid) i
  if h < 2 ^ 16 ∧ e.alloc = true ∧ e.serial = bits h 15 12 then some i else none

def tileHandle (e : HEntry) (i : Nat) : Nat := i + e.serial * 2 ^ 12

def freeTile (s : State) (gid : Nat) : Option Nat := (List.range 4096).find? fun i => !(hEntry s (ctxNumOf s gid) i).alloc

/-- Place a new handle, IDLE unless `e` says otherwise, in entry i; its serial stands. -/
def putTile (s : State) (gid i : Nat) (e : HEntry) : State :=
  modCtx s (ctxNumOf s gid) fun x =>
    { x with handles := mapSet x.handles i { e with alloc := true, serial := (mapGetD x.handles i {}).serial } }

/-- HANDLE_STALE, then HANDLE_STATE in a state that the function does not list (R211). -/
def tileCause (s : State) (gid h : Nat) (sts : List Nat) : Option Cause :=
  match tileIdx? s gid h with
  | none => some { code := tHandleStale, detail := h }
  | some i => if sts.contains (hEntry s (ctxNumOf s gid) i).st then none else some { code := tHandleState, detail := h }

/-- The address of an element (R193). -/
def elemAddr (b : Box) (c : List Int) : Nat :=
  wrapN ((b.base : Int) + nthI c 0 * fmtWidth b.fmt / 8 + nthI c 1 * nthN b.str 0 + nthI c 2 * nthN b.str 1 + nthI c 3 * nthN b.str 2) 64

def boxLow (b : Box) : Nat := elemAddr b b.org

/-- The bytes from the lowest address of the box to its highest. -/
def boxReach (b : Box) : Nat :=
  ((nthI b.org 0 + nthN b.ext 0 - 1) * fmtWidth b.fmt / 8 - nthI b.org 0 * fmtWidth b.fmt / 8).toNat +
    (if fmtWidth b.fmt < 8 then 1 else fmtWidth b.fmt / 8) + (nthN b.ext 1 - 1) * nthN b.str 0 + (nthN b.ext 2 - 1) * nthN b.str 1 +
    (nthN b.ext 3 - 1) * nthN b.str 2

/-- The physical box of a handle whose lowest byte is at `pa`. -/
def physBox (b : Box) (pa : Nat) : Box := { b with base := wrapN ((b.base : Int) - boxLow b + pa) 48 }

/-- The handle is to be acquired again on this die before a chain that names it issues (R213). -/
def reacqHold (s : State) (gid h : Nat) : Bool := match tileIdx? s gid h with
  | none => false
  | some i => (hEntry s (ctxNumOf s gid) i).reacq

/-- Ask for the tenure of a handle again, in the mode it was held in (R213, R278). Where its page no longer translates,
the handle stays HELD with PART set (log 70). -/
def reacqNudge (gid h : Nat) (s : State) : State :=
  let ctx := ctxNumOf s gid
  match tileIdx? s gid h with
  | none => s
  | some i =>
    let e := hEntry s ctx i
    let why : Purpose := .reacq ctx i
    if !e.reacq || s.dies.any (fun d => d.2.mine.any fun m => m.why == why) then s
    else match engXlate s (ctxOf s gid) (boxLow e.box) (if e.st = 3 then .write else .read) with
      | .error _ => modHandle s ctx i fun e => { e with reacq := false, part := true, home := 5 }
      | .ok pa =>
        let box := physBox e.box pa
        match homeOf pa with
        | none => touch s pa
        | some home =>
          let s := modHandle s ctx i fun e => { e with pbox := box, home := home }
          if home = 4 ∨ home = 5 then modHandle s ctx i fun e => { e with reacq := false, die := dieOf s gid }
          else (sendReq s (dieOf s gid) home { wr := e.st == 3, box := box } why).1

/-! ### THNEW, THFREE, THQRY (R210, R211) -/

/-- The box of a group and its record. -/
def thBox (c : Ctx) (a : Nat) (r : LayRec) : Box :=
  { base := r.base, fmt := r.fmt, ndim := r.ndim, str := r.str, org := copyOrg c a, ext := r.box }

def thnewCause (s : State) (c : Ctx) (a : Nat) : Option Cause :=
  let ra := c.v64 a c.lead
  match recCause s c ra c.lead with
  | some k => some k
  | none =>
    let r := recOf s c ra
    let b := thBox c a r
    let outside := (List.range 4).any fun k => decide (nthI b.org k < 0) || decide ((nthN r.ext k : Int) < nthI b.org k + nthN r.box k)
    if recMask r ≠ 0 ∨ badOrigin r (nthI b.org 0) = true ∨ outside = true ∨ 131072 < boxLow b % 131072 + boxReach b then
      some { code := tLayout }
    else if (freeTile s c.gid).isNone then some { code := tResource } else none

def semThnew (d a : Nat) (f : Option Nat) : Sem :=
  { pipe := 2, leads := [a, a + 1, a + 4, a + 5, a + 6, a + 7], names := [a + 2, a + 3], writes := [d], flags := flagOf f,
    hold := fun s c => c.act != 0 && recHold s c (c.v64 a c.lead),
    nudge := fun c s => recNudge c (c.v64 a c.lead) s,
    lane := leadCause fun s c => thnewCause s c a,
    addrs := fun _ c => if c.act = 0 then [] else [(c.v64 a c.lead, 64, .read)],
    eff := fun c s => match (if c.act = 0 then none else freeTile s c.gid) with
      | none => putLres c f [] s
      | some i =>
        let s := forgetSeen c (putTile s c.gid i { box := thBox c a (recOf s c (c.v64 a c.lead)) })
        putLres c f (c.out32 d fun _ => tileHandle (hEntry s (ctxNumOf s c.gid) i) i) s }

def semThfree (a : Nat) (f : Option Nat) : Sem :=
  { pipe := 2, leads := [a], flags := flagOf f,
    hold := fun s c => c.act != 0 && reacqHold s c.gid (c.v a c.lead),
    nudge := fun c s => reacqNudge c.gid (c.v a c.lead) s,
    lane := leadCause fun s c => tileCause s c.gid (c.v a c.lead) [0],
    eff := fun c s =>
      let s := match (if c.act = 0 then none else tileIdx? s c.gid (c.v a c.lead)) with
        | none => s
        | some i => modCtx s (ctxNumOf s c.gid) fun x =>
          { x with handles := mapMod x.handles i fun e => { serial := nextSerial e.serial } }
      match f with
      | none => s
      | some _ => putL c f (.store false [] []) [] [] s }

/-- The handle state word. -/
def tileWord (e : HEntry) : Nat := e.st + b2n e.part * 8

def semThqry (d a : Nat) (f : Option Nat) : Sem :=
  { pipe := 2, reads := [a], writes := [d], flags := flagOf f,
    hold := fun s c => c.lanes.any fun L => reacqHold s c.gid (c.v a L),
    nudge := fun c s => c.lanes.foldl (fun s L => reacqNudge c.gid (c.v a L) s) s,
    eff := fun c s => putLres c f (c.out32 d fun L => match tileIdx? s c.gid (c.v a L) with
      | none => 0xFFFFFFFF
      | some i => tileWord (hEntry s (ctxNumOf s c.gid) i)) s }

/-! ### TACQ (R211, R257, R271, R273) -/

def acqWr : AcqMode → Bool
  | .wr => true
  | .wrTest => true
  | _ => false

def acqTest : AcqMode → Bool
  | .rdTest => true
  | .wrTest => true
  | _ => false

def acqAcc (m : AcqMode) : Acc := if acqWr m then .write else .read

/-- The tenure of a handle, with the home and the physical box its acquisition names. -/
def nameTenure (s : State) (ctx i pa die st : Nat) (box : Box) : State := modHandle s ctx i fun e =>
  { e with st := st, part := false, pbox := box, home := (homeOf pa).getD 5, die := die }

/-- Acquire a tenure from its home: a home across the links answers at once, a die's by messages. -/
def acquireTenure (s : State) (ctx i pa die gid id : Nat) (box : Box) (m : AcqMode) : Option Nat → State
  | none => nameTenure s ctx i pa die 0 box
  | some home =>
    if home = 4 ∨ home = 5 then setOpResult (nameTenure s ctx i pa die (if acqWr m then 3 else 2) box) gid id 1
    else (sendReq (nameTenure s ctx i pa die 1 box) die home { wr := acqWr m, test := acqTest m, box := box } (.handle ctx i gid id)).1

def semTacq (d a : Nat) (f : Option Nat) (m : AcqMode) : Sem :=
  let lowOf (s : State) (c : Ctx) : Option Nat :=
    (tileIdx? s c.gid (c.v a c.lead)).map fun i => boxLow (hEntry s (ctxNumOf s c.gid) i).box
  { pipe := 2, leads := [a], writes := [d], flags := flagOf f,
    hold := fun s c => c.act != 0 && reacqHold s c.gid (c.v a c.lead),
    nudge := fun c s => reacqNudge c.gid (c.v a c.lead) s,
    lane := leadCause fun s c => match tileCause s c.gid (c.v a c.lead) [0] with
      | some k => some k
      | none => (lowOf s c).bind fun va => globalCause s c va 1 (acqAcc m) c.lead,
    addrs := fun s c => match (if c.act = 0 then none else lowOf s c) with
      | none => []
      | some va => if (tileCause s c.gid (c.v a c.lead) [0]).isSome then [] else [(va, 1, acqAcc m)],
    eff := fun c s => match (if c.act = 0 then none else tileIdx? s c.gid (c.v a c.lead)) with
      | none => putLres c f [] s
      | some i =>
        let ctx := ctxNumOf s c.gid
        let die := dieOf s c.gid
        let e := hEntry s ctx i
        let pa := (lanePas s c (boxLow e.box) 1 (acqAcc m)).headD 0
        let id := (getGroup s c.gid).nextOp
        acquireTenure (putL c f (.tacq i m) (c.lanes.map fun L => vunit d L) [] (touch s pa)) ctx i pa die c.gid id
          (physBox e.box pa) m (homeOf pa) }

/-! ### TREL and TFLUSH (R211, R270) -/

/-- A TREL of the handle awaits its acknowledgement. -/
def tileReleasing (s : State) (ctx i : Nat) : Bool := s.dies.any fun d => d.2.mine.any fun m => match m.why with
  | .release (some (x, h, _, _)) true => x == ctx && h == i
  | _ => false

/-- What TREL, TFLUSH and TSPLIT check of a handle. One whose TREL awaits its acknowledgement has its tenure no more: though THQRY shows
it HELD still, a further one of these traps HANDLE_STATE, which R211 does not settle (DESIGN CHOICE, log 36). A TFLUSH that awaits
its acknowledgement leaves it HELD_W. -/
def relCause (s : State) (c : Ctx) (a : Nat) (sts : List Nat) : Option Cause :=
  let h := c.v a c.lead
  match tileCause s c.gid h sts with
  | some k => some k
  | none => (tileIdx? s c.gid h).bind fun i =>
    if tileReleasing s (ctxNumOf s c.gid) i then some { code := tHandleState, detail := h } else none

/-- The scope at which the end of a tenure releases: PAIR where its home lies across the pair link (R244, R251). -/
def relScope (s : State) (gid h : Nat) : Scope := match tileIdx? s gid h with
  | some i => if 8 ≤ (hEntry s (ctxNumOf s gid) i).home then .pair else .package
  | none => .package

def relSem (a : Nat) (f : Option Nat) (rel : Bool) : Sem :=
  let sc (s : State) (c : Ctx) : Scope := relScope s c.gid (c.v a c.lead)
  let sts := if rel then [2, 3] else [3]
  { pipe := 2, leads := [a], flags := flagOf f,
    hold := fun s c => c.act != 0 && (reacqHold s c.gid (c.v a c.lead) ||
      ((relCause s c a sts).isNone && !isReleased s c.gid c.sl (sc s c))),
    nudge := fun c s => flushFor (reacqNudge c.gid (c.v a c.lead) s) c.gid c.sl (sc s c),
    lane := leadCause fun s c => relCause s c a sts,
    eff := fun c s => match (if c.act = 0 then none else tileIdx? s c.gid (c.v a c.lead)) with
      | none => putLres c f [] s
      | some i =>
        let ctx := ctxNumOf s c.gid
        let e := hEntry s ctx i
        let s := flushFor s c.gid c.sl (sc s c)
        let id := (getGroup s c.gid).nextOp
        let s := putL c f (.trel i rel) [] [] s
        if e.home = 5 then
          setOpResult (if rel then modHandle s ctx i fun e => { e with st := 0, part := false } else s) c.gid id 0
        else releaseBox s e.die e.home e.pbox (.release (some (ctx, i, c.gid, id)) rel) rel }

def semTrel (a : Nat) (f : Option Nat) : Sem := relSem a f true
def semTflush (a : Nat) (f : Option Nat) : Sem := relSem a f false

/-! ### TSPLIT (R212) -/

/-- The parts of a box below and from position p along dimension k. -/
def boxLower (b : Box) (k p : Nat) : Box := { b with ext := setAt b.ext k p }
def boxUpper (b : Box) (k p : Nat) : Box :=
  { b with org := setAt b.org k (nthI b.org k + p), ext := setAt b.ext k (nthN b.ext k - p) }

def sameGeometry (x y : Box) : Bool := x.base == y.base && x.fmt == y.fmt && x.ndim == y.ndim && x.str == y.str

/-- Split what the directory and the holder's records keep of a held box at the edge of its lower part: the same die
holds both parts, so no message is sent. An entry stays whole where its set has no free way. -/
def splitTenure (s : State) (die home : Nat) (lower : Box) : State :=
  let cut (b : Box) : Option (Box × List Box) :=
    if !sameGeometry b lower then none
    else (interBox b lower).bind fun i => if (residuals b i).isEmpty then none else some (i, residuals b i)
  let s := modDie s die fun d => { d with recs := d.recs.flatMap fun r => match cut r.box with
    | none => [r]
    | some (i, rs) => (i :: rs).map fun b => { r with box := b } }
  if 4 ≤ home then s
  else
    let set := setKey ((boxSpans lower).headD (lower.base, 0)).1
    modDie s home fun d => (dirSet d set).foldl (fun d e =>
      if e.2.pend || !e.2.hold.contains die then d
      else match cut e.2.box with
        | none => d
        | some (i, rs) =>
          let ways := (freeWays d set).take rs.length
          if ways.length < rs.length then d
          else
            let dir := (rs.zip ways).foldl (fun m p => mapSet m p.2 { e.2 with box := p.1 }) d.dir
            { d with dir := mapSet dir e.1 { e.2 with box := i } }) d

def tsplitCause (s : State) (c : Ctx) (a dim p : Nat) : Option Cause :=
  match relCause s c a [2, 3] with
  | some k => some k
  | none => (tileIdx? s c.gid (c.v a c.lead)).bind fun i =>
    let b := (hEntry s (ctxNumOf s c.gid) i).box
    if b.ndim < dim ∨ p = 0 ∨ nthN b.ext dim ≤ p ∨ (dim = 0 ∧ fmtWidth b.fmt = 4 ∧ p % 2 = 1) then some { code := tLayout }
    else if (freeTile s c.gid).isNone then some { code := tResource } else none

/-- TSPLIT. R211 gives the new handle the state of the old one and says nothing of PART: it is copied to the new handle, and stands on
the old one (DESIGN CHOICE, log 112). -/
def semTsplit (d a : Nat) (f : Option Nat) (dim p : Nat) : Sem :=
  { pipe := 2, leads := [a], writes := [d], flags := flagOf f,
    hold := fun s c => c.act != 0 && reacqHold s c.gid (c.v a c.lead),
    nudge := fun c s => reacqNudge c.gid (c.v a c.lead) s,
    lane := leadCause fun s c => tsplitCause s c a dim p,
    eff := fun c s => match (if c.act = 0 then none else tileIdx? s c.gid (c.v a c.lead)), freeTile s c.gid with
      | some i, some j =>
        let ctx := ctxNumOf s c.gid
        let e := hEntry s ctx i
        let s := splitTenure s e.die e.home (boxLower e.pbox dim p)
        let s := modHandle s ctx i fun e => { e with box := boxLower e.box dim p, pbox := boxLower e.pbox dim p }
        let s := putTile s c.gid j { e with box := boxUpper e.box dim p, pbox := boxUpper e.pbox dim p }
        putLres c f (c.out32 d fun _ => tileHandle (hEntry s ctx j) j) s
      | _, _ => putLres c f [] s }

/-! ### Meanings -/

def execThnew (d a : Nat) (f : Option Nat) (s : State) : Host.Outcome State Fault Refusal := .next (issueOne (semThnew d a f) s)
def execThfree (a : Nat) (f : Option Nat) (s : State) : Host.Outcome State Fault Refusal := .next (issueOne (semThfree a f) s)
def execThqry (d a : Nat) (f : Option Nat) (s : State) : Host.Outcome State Fault Refusal := .next (issueOne (semThqry d a f) s)
def execTacq (d a : Nat) (f : Option Nat) (m : AcqMode) (s : State) : Host.Outcome State Fault Refusal :=
  .next (issueOne (semTacq d a f m) s)
def execTrel (a : Nat) (f : Option Nat) (s : State) : Host.Outcome State Fault Refusal := .next (issueOne (semTrel a f) s)
def execTflush (a : Nat) (f : Option Nat) (s : State) : Host.Outcome State Fault Refusal := .next (issueOne (semTflush a f) s)
def execTsplit (d a : Nat) (f : Option Nat) (dim p : Nat) (s : State) : Host.Outcome State Fault Refusal :=
  .next (issueOne (semTsplit d a f dim p) s)

end Sys2Proof.Machine
end

