-- ==== Sys2Proof/Machine/System.lean ====
section
/-! DEFINITION. System functions, major 0x7C, and trace control, major 0x7D, on the C pipe; the start of a checkpoint
(R214 to R220, R364, R396). -/
namespace Sys2Proof.Machine

open Sys2Proof

/-! ### FEAT, DFEAT, TRAPINFO (R215, R218) -/

/-- A SYS function that writes d in every lane of the slot. -/
def sysSem (d : Nat) (val : State → Ctx → Nat) : Sem :=
  { pipe := 4, writes := [d], eff := fun c s => putNow c (c.out32 d fun _ => val s c) s }

def semFeat (d : Nat) : Sem := sysSem d fun s c => (ctxOf s c.gid).floor

/-- The capability word of a compute die. -/
def dieWord (s : State) (die : Nat) : Nat := (getDie s die).level % 16 + (Config.dieRev die).toNat * 2 ^ 8

def semDfeat (d : Nat) : Sem := sysSem d fun s c => dieWord s (dieOf s c.gid)

def semTrapinfo (d k : Nat) : Sem :=
  { (sysSem d fun _ c => match c.g.trap with
      | none => 0
      | some t => bits (trapBits t) (32 * k + 31) (32 * k)) with
    pre := fun _ c => match c.g.trap with
      | none => some { code := tIllegalOp }
      | some t => if t.pslot ≠ c.sl then some { code := tIllegalOp } else none }

/-! ### CKPT (R216, R364) -/

def modMirror (s : State) (ctx : Nat) (f : Mirror → Mirror) : State := modCtx s ctx fun x => { x with mirror := f x.mirror }

/-- Teams of a context that have not ended. -/
def teamsOfCtx (s : State) (ctx : Nat) : List (Nat × Team) :=
  s.teams.filter fun t => (getLaunch s t.2.launch).ctx == ctx && !t.2.ended

/-- Start the next checkpoint of a context: every team is to be saved (R364). -/
def startCheckpoint (s : State) (ctx : Nat) : State :=
  let n := (getCtx s ctx).mirror.lastNo + 1
  let s := modMirror s ctx fun m => { m with inProgress := some n, lastNo := n, imgDone := false }
  (teamsOfCtx s ctx).foldl (fun s t => if t.2.saved then s else forcePreempt s t.1 (.checkpoint n)) s

def semCkpt (d : Nat) : Sem :=
  { pipe := 4, writes := [d],
    eff := fun c s =>
      let ctx := ctxNumOf s c.gid
      let m := (ctxOf s c.gid).mirror
      if !m.en then putNow c (c.out32 d fun _ => 0) s
      else
        let s := if m.inProgress.isNone then startCheckpoint s ctx else s
        let m := (ctxOf s c.gid).mirror
        waitOn s c.gid c.sl (.ckpt d c.pc (if m.imgDone then none else m.inProgress)) }

/-! ### MBPOST (R217) -/

def mbpostCause (s : State) (c : Ctx) (a : Nat) : Option Cause :=
  let va := c.v64 a c.lead
  let mb := c.v (a + 2) c.lead
  if va % 64 ≠ 0 then some { code := tAlign, addr := va }
  else match globalCause s c va 64 .read c.lead with
    | some k => some k
    | none => if 4096 ≤ mb ∨ mayPost s (ctxOf s c.gid) mb = false then some { code := tPerm } else none

def semMbpost (d a : Nat) : Sem :=
  { pipe := 4, leads := [a, a + 1, a + 2], names := [a + 3], writes := [d],
    hold := fun s c => (mbpostCause s c a).isNone && !isReleased s c.gid c.sl .package,
    nudge := fun c s => flushFor s c.gid c.sl .package,
    lane := leadCause fun s c => mbpostCause s c a,
    addrs := fun _ c => [(c.v64 a c.lead, 64, .read)],
    eff := fun c s =>
      let s := flushFor s c.gid c.sl .package
      let pas := lanePas s c (c.v64 a c.lead) 64 .read
      let s := resolveLine s (pas.headD 0 / 128) false
      if pas.any (poisoned s) then putNow c (c.out32 d fun _ => 2) s
      else
        let r := postMsg s (c.v (a + 2) c.lead) (pas.map (engByte s)) (.ctx (ctxNumOf s c.gid)) (.mbpost c.gid c.sl)
        waitOn r.1 c.gid c.sl (.post d r.2) }

/-! ### Trace control (R220, R396) -/

/-- A TRC function acts only where the group's context has a trace bank (R220); on a cluster where it records none, the group
emits nothing and sets L (R403). -/
def trcSem (act : Ctx → State → State) : Sem :=
  { pipe := 4, eff := fun c s => if hasTraceBank s (ctxNumOf s c.gid) then act c s else s }

def nextTid (n : Nat) : Nat := if n = 4095 then 1 else n + 1

def semTrcon : Sem := trcSem fun c s =>
  let s := if (getGroup s c.gid).trace.on then s
    else
      let ctx := ctxNumOf s c.gid
      let tid := (ctxOf s c.gid).tidNext
      modTrace (modCtx s ctx fun x => { x with tidNext := nextTid x.tidNext }) c.gid fun t =>
        { t with on := true, tid := tid, ns := 0, l := false }
  emitSync s c.gid 1 0 (some c.sl)

def semTrcoff : Sem := trcSem fun c s => modTrace (emitSync s c.gid 2 0 (some c.sl)) c.gid fun t => { t with on := false }

def semTrcmark (mark : Nat) : Sem := trcSem fun c s => emitSync s c.gid 3 mark (some c.sl)

/-! ### Meanings -/

def execFeat (d : Nat) (s : State) : Host.Outcome State Fault Refusal := .next (issueOne (semFeat d) s)
def execDfeat (d : Nat) (s : State) : Host.Outcome State Fault Refusal := .next (issueOne (semDfeat d) s)
def execCkpt (d : Nat) (s : State) : Host.Outcome State Fault Refusal := .next (issueOne (semCkpt d) s)
def execMbpost (d a : Nat) (s : State) : Host.Outcome State Fault Refusal := .next (issueOne (semMbpost d a) s)
def execTrapinfo (d k : Nat) (s : State) : Host.Outcome State Fault Refusal := .next (issueOne (semTrapinfo d k) s)
def execTrcon (s : State) : Host.Outcome State Fault Refusal := .next (issueOne semTrcon s)
def execTrcoff (s : State) : Host.Outcome State Fault Refusal := .next (issueOne semTrcoff s)
def execTrcmark (mark : Nat) (s : State) : Host.Outcome State Fault Refusal := .next (issueOne (semTrcmark mark) s)

end Sys2Proof.Machine
end

