-- ==== Sys2Proof/Machine/Accel.lean ====
section
/-! DEFINITION. Acceleration structures as traversal units and builders read them: headers, pool maps, nodes, blocks and
records, and exact geometry (R224, R233, R334 to R340). -/
namespace Sys2Proof.Machine

open Sys2Proof

/-! ### Reads -/

/-- Why a read of a structure stops: a page that system software may still supply, or a hit status code (R223). -/
inductive AStop where
  | page (va : Nat) (f : XFail)
  | status (code : Nat)
  | badUnit (unit : Nat)
  deriving DecidableEq, Repr

/-- The place of a stop in the table of R233: a page that may still be supplied stands before all. -/
def AStop.rank : AStop → Nat
  | .page _ _ => 0
  | .status c => if c = 5 then 1 else if c = 7 then 2 else if c = 6 then 3 else 4
  | .badUnit _ => 4

/-- The stop of two that comes first in the table of R233, the earlier of two equal ones. -/
def AStop.first (a b : AStop) : AStop := if b.rank < a.rank then b else a

/-- Two reads that both are made, and what both give. -/
def bothRead {α β γ : Type} (f : α → β → γ) : Except AStop α → Except AStop β → Except AStop γ
  | .ok a, .ok b => .ok (f a b)
  | .error e, .ok _ => .error e
  | .ok _, .error e => .error e
  | .error e, .error e' => .error (e.first e')

/-- What a reader of structures works with. -/
structure Reader where
  s : State
  x : Context
  failed : List Nat

/-- Why a piece of an access on one page stops: after a failed reply nothing waits any more, and the page that it named stays
failed (R303). -/
def Reader.pieceStop (r : Reader) (va : Nat) : Option AStop :=
  if r.failed.contains (faultPage va) then some (.status 5)
  else match engXlate r.s r.x va .engRead with
    | .error f => some (if !isPageFail f then .status 7 else if waitsReply f && r.failed.isEmpty then .page va f else .status 5)
    | .ok _ => none

/-- Read bytes as an engine of the context (R226, R233). -/
def Reader.read (r : Reader) (va n : Nat) : Except AStop (List Byte) :=
  match (pagePieces va n).filterMap fun p => r.pieceStop p.1 with
  | e :: es => .error (es.foldl AStop.first e)
  | [] =>
    let pas := engPas r.s r.x va n .engRead
    if pas.any (poisoned r.s) then .error (.status 6) else .ok (pas.map (engByte r.s))

/-! ### Headers (R334, R335) -/

/-- A generation entry of a header. -/
structure GenE where
  gen  : Nat
  rec_ : Nat
  pins : Nat
  deriving DecidableEq, Repr

structure AHdr where
  magic : Nat
  cur   : Nat
  pool  : Nat
  units : Nat
  free  : Nat
  staged : Nat
  stagerec : Nat
  live  : Nat
  rsv   : Nat
  gens  : List GenE
  deriving DecidableEq, Repr

def hdrOf (bs : List Byte) : AHdr :=
  { magic := fieldAt bs 0 4, cur := fieldAt bs 4 4, pool := fieldAt bs 8 8, units := fieldAt bs 16 4, free := fieldAt bs 20 4,
    staged := fieldAt bs 24 4, stagerec := fieldAt bs 28 4, live := fieldAt bs 32 4, rsv := fieldAt bs 36 28,
    gens := (List.range 16).map fun i =>
      { gen := fieldAt bs (64 + 12 * i) 4, rec_ := fieldAt bs (68 + 12 * i) 4, pins := fieldAt bs (72 + 12 * i) 4 } }

/-- MU: units of the pool map. -/
def AHdr.mu (h : AHdr) : Nat := ceilDiv h.units 16

/-- A header is valid (R335). -/
def AHdr.valid (h : AHdr) : Bool :=
  h.magic == 0x47524E4F && h.rsv == 0 && h.pool % 128 == 0 && decide (h.pool < 2 ^ 48) && decide (h.mu + 1 ≤ h.units) &&
  decide (h.units ≤ 2 ^ 26) && decide (h.free ≤ h.units - h.mu) && decide (h.live ≤ 16) &&
  (h.cur == 0 || h.gens.any fun e => e.gen == h.cur) && (h.staged == 0 || h.staged == h.cur + 1)

/-- The entry of a live generation. -/
def AHdr.entry? (h : AHdr) (g : Nat) : Option GenE := if g = 0 then none else h.gens.find? fun e => e.gen == g

/-- The address of a unit. -/
def AHdr.unitVa (h : AHdr) (u : Nat) : Nat := h.pool + 128 * u

/-- Read a header. -/
def Reader.hdr (r : Reader) (va : Nat) : Except AStop AHdr := match r.read va 256 with
  | .ok bs => .ok (hdrOf bs)
  | .error e => .error e

/-- Read a unit of the pool; a unit outside it breaks the structure. -/
def Reader.unit (r : Reader) (h : AHdr) (u : Nat) : Except AStop (List Byte) :=
  if h.units ≤ u then .error (.badUnit u) else r.read (h.unitVa u) 128

/-! ### Child words, nodes, blocks, records (R337, R339, R340) -/

def cwType (c : Nat) : Nat := bits c 31 30
def cwBlocks (c : Nat) : Nat := bits c 29 27 + 1
def cwOff (c : Nat) : Nat := bits c 26 0

/-- A child word is well formed. -/
def childOk (c : Nat) : Bool :=
  if cwType c = 0 then c == 0
  else if cwType c = 1 then bits c 29 27 == 0 && cwOff c % 2 == 0
  else cwType c == 2

/-- The first unit outside the pool that a child word names (R233). -/
def childOut (h : AHdr) (c : Nat) : Option Nat :=
  if cwType c = 1 then (if h.units ≤ cwOff c / 2 then some (cwOff c / 2) else none)
  else if cwType c = 2 ∧ 2 * h.units < cwOff c + cwBlocks c then some (max (cwOff c / 2) h.units)
  else none

/-- The unit that a child word names. -/
def childUnit (c : Nat) : Nat := cwOff c / 2

structure ANode where
  org   : List Nat
  exp   : List Int
  nch   : Nat
  child : List Nat
  lo    : List (List Nat)
  hi    : List (List Nat)
  prims : Nat
  deriving DecidableEq, Repr

def finite32 (x : Nat) : Bool := bits x 30 23 != 255

/-- An internal node from its bytes; none where it breaks R337. An ORG that is NaN or an infinity counts as such a break: R337 does not
name it, and it gives the node no box (DESIGN CHOICE, log 109). -/
def nodeOf (bs : List Byte) : Option ANode :=
  let plane (k : Nat) : List Nat := (List.range 8).map fun j => fieldAt bs (48 + 8 * k + j) 1
  let n : ANode :=
    { org := (List.range 3).map fun k => fieldAt bs (4 * k) 4, exp := (List.range 3).map fun k => sext (fieldAt bs (12 + k) 1) 8,
      nch := fieldAt bs 15 1, child := (List.range 8).map fun j => fieldAt bs (16 + 4 * j) 4,
      lo := (List.range 3).map plane, hi := (List.range 3).map fun k => plane (3 + k), prims := fieldAt bs 96 4 }
  let idle (j : Nat) : Bool := n.child.getD j 0 == 0 && (n.lo ++ n.hi).all fun p => p.getD j 0 == 0
  if n.nch ≤ 8 ∧ n.org.all finite32 = true ∧ n.child.all childOk = true ∧ fieldAt bs 100 28 = 0 ∧
      (List.range 8).all (fun j => (decide (j < n.nch) && n.child.getD j 0 != 0) || idle j) = true then some n else none

structure ABlock where
  v    : List Nat
  prim : Nat
  geom : Nat
  off  : Nat := 0
  deriving DecidableEq, Repr

/-- A triangle block from its 64 bytes at OFFSET `off`; none where it breaks R339. -/
def blockOf (bs : List Byte) (off : Nat) : Option ABlock :=
  if fieldAt bs 44 20 = 0 then
    some { v := (List.range 9).map fun i => fieldAt bs (4 * i) 4, prim := fieldAt bs 36 4, geom := fieldAt bs 40 4, off := off }
  else none

def blockBytes (b : ABlock) : List Byte := b.v.flatMap (leBytes 4) ++ leBytes 4 b.prim ++ leBytes 4 b.geom ++ List.replicate 20 0

structure ARec where
  root  : Nat
  prims : Nat
  count : Nat
  first : Nat
  qual  : List Nat
  deriving DecidableEq, Repr

/-- A record unit; none where it breaks R340. -/
def recordOf (bs : List Byte) : Option ARec :=
  let r : ARec := { root := fieldAt bs 0 4, prims := fieldAt bs 4 4, count := fieldAt bs 8 4, first := fieldAt bs 12 4,
                    qual := (List.range 8).map fun i => fieldAt bs (16 + 4 * i) 4 }
  if (r.root = 0 ∨ (cwType r.root = 1 ∧ childOk r.root = true)) ∧ fieldAt bs 48 80 = 0 then some r else none

def recordBytes (r : ARec) : List Byte :=
  leBytes 4 r.root ++ leBytes 4 r.prims ++ leBytes 4 r.count ++ leBytes 4 r.first ++ r.qual.flatMap (leBytes 4) ++ List.replicate 80 0

/-- Lift a check of a unit's contents. -/
def orBad {α : Type} (u : Nat) : Option α → Except AStop α
  | some a => .ok a
  | none => .error (.badUnit u)

/-- Child words name units of the pool only. -/
def inPool {α : Type} (h : AHdr) (cs : α → List Nat) : Except AStop α → Except AStop α
  | .ok a => match firstSome (childOut h) (cs a) with
    | some u => .error (.badUnit u)
    | none => .ok a
  | .error e => .error e

def Reader.node (r : Reader) (h : AHdr) (u : Nat) : Except AStop ANode := match r.unit h u with
  | .ok bs => inPool h ANode.child (orBad u (nodeOf bs))
  | .error e => .error e

def Reader.record (r : Reader) (h : AHdr) (u : Nat) : Except AStop ARec := match r.unit h u with
  | .ok bs => inPool h (fun a => [a.root]) (orBad u (recordOf bs))
  | .error e => .error e

def Reader.block (r : Reader) (h : AHdr) (off : Nat) : Except AStop ABlock := match r.read (h.pool + 64 * off) 64 with
  | .ok bs => orBad (off / 2) (blockOf bs off)
  | .error e => .error e

/-- The blocks of a leaf run. -/
def Reader.blocks (r : Reader) (h : AHdr) (off : Nat) : Nat → Except AStop (List ABlock)
  | 0 => .ok []
  | n + 1 => bothRead List.cons (r.block h off) (r.blocks h (off + 1) n)

/-! ### Exact geometry -/

/-- A finite F32 pattern in units of 2^-149. -/
def fixed32 (x : Nat) : Int := match decodeF .f32 x with
  | .fin s m q => (if s then -1 else 1) * (m * 2 ^ (q + 149).toNat : Nat)
  | _ => 0

/-- An F32 pattern of a rational n / d. -/
def ratF32 (n d : Int) : Nat :=
  if n = 0 ∨ d = 0 then 0 else roundF .f32 .rne false (decide (n < 0) != decide (d < 0)) n.natAbs d.natAbs 0

/-- Vectors of exact coordinates. -/
abbrev V3 := Int × Int × Int

def vsub (a b : V3) : V3 := (a.1 - b.1, a.2.1 - b.2.1, a.2.2 - b.2.2)
def vdot (a b : V3) : Int := a.1 * b.1 + a.2.1 * b.2.1 + a.2.2 * b.2.2
def vcross (a b : V3) : V3 := (a.2.1 * b.2.2 - a.2.2 * b.2.1, a.2.2 * b.1 - a.1 * b.2.2, a.1 * b.2.1 - a.2.1 * b.1)
def v3Of (l : List Nat) (i : Nat) : V3 := (fixed32 (nthN l i), fixed32 (nthN l (i + 1)), fixed32 (nthN l (i + 2)))

/-- A number n / d with d not negative; d = 0 stands for an infinity of the sign of n. -/
abbrev Ext := Int × Int

def extLe (a b : Ext) : Bool := if a.2 = 0 ∧ b.2 = 0 then decide (a.1 ≤ b.1) else decide (a.1 * b.2 ≤ b.1 * a.2)
def extOf (n d : Int) : Ext := if d < 0 then (-n, -d) else (n, d)
def extF32 (x : Nat) : Ext := match decodeF .f32 x with
  | .inf s => (if s then -1 else 1, 0)
  | _ => (fixed32 x, (2 ^ 149 : Nat))

/-- The dequantised bounds of slot j of a node on an axis (R338). -/
def slotBounds (n : ANode) (j a : Nat) : Int × Int :=
  let o := fixed32 (nthN n.org a)
  let u : Int := (2 ^ (nthI n.exp a + 149).toNat : Nat)
  (o + (nthN (n.lo.getD a []) j : Nat) * u, o + (nthN (n.hi.getD a []) j : Nat) * u)

end Sys2Proof.Machine
end

