-- ==== Sys2Proof/Machine/Ray.lean ====
section
/-! DEFINITION. Rays, pins and generations, majors 0x78 and 0x79, and the traversal unit (R221 to R230, R342). -/
namespace Sys2Proof.Machine

open Sys2Proof

/-! ### Traversal (R224, R225) -/

/-- An accepted triangle: t, u and v as exact ratios, whether the face is a front face, and its block. -/
structure Hit where
  t : Ext
  u : Ext
  v : Ext
  front : Bool
  b : ABlock
  deriving DecidableEq, Repr

/-- One ray as the traversal unit sees it. -/
structure RayV where
  o : V3
  d : V3
  tmin : Ext
  tmax : Ext
  cullb : Bool
  cullf : Bool
  deriving DecidableEq, Repr

def rayV (r : Ray) : RayV :=
  { o := v3Of r.o 0, d := v3Of r.dir 0, tmin := extF32 r.tmin, tmax := extF32 r.tmax, cullb := bit r.flags 0, cullf := bit r.flags 1 }

/-- BADRAY (R223). -/
def badRay (r : Ray) : Bool := !(r.o.all finite32 && r.dir.all finite32) || isNan32 r.tmin || isNan32 r.tmax

/-- Test one triangle exactly (R224). -/
def hitTriangle (r : RayV) (b : ABlock) : Option Hit :=
  if !b.v.all finite32 then none
  else
    let p0 := v3Of b.v 0
    let e1 := vsub (v3Of b.v 3) p0
    let e2 := vsub (v3Of b.v 6) p0
    let den := vdot (vcross e1 e2) r.d
    if den = 0 then none
    else
      let w := vsub r.o p0
      let t := extOf (-vdot w (vcross e1 e2)) den
      let u := extOf (vdot r.d (vcross w e2)) den
      let v := extOf (vdot r.d (vcross e1 w)) den
      let front := decide (den < 0)
      if u.1 < 0 ∨ v.1 < 0 ∨ u.2 < u.1 + v.1 then none
      else if !(extLe r.tmin t && extLe t r.tmax) then none
      else if (front ∧ r.cullf) ∨ (!front ∧ r.cullb) then none
      else some { t := t, u := u, v := v, front := front, b := b }

/-- The nearer of two hits; the lower primitive index on a tie (R224). -/
def nearer (x y : Hit) : Hit :=
  if extLe x.t y.t && extLe y.t x.t then (if y.b.prim < x.b.prim then y else x) else if extLe y.t x.t then y else x

/-- The ray's segment meets the box of a slot, axis by axis. -/
def meetsSlot (r : RayV) (n : ANode) (j : Nat) : Bool :=
  let axis (iv : Option (Ext × Ext)) (a : Nat) (o d : Int) : Option (Ext × Ext) :=
    let q := slotBounds n j a
    if d = 0 then (if q.1 ≤ o ∧ o ≤ q.2 then iv else none)
    else
      let lo := extOf ((if 0 < d then q.1 else q.2) - o) d
      let hi := extOf ((if 0 < d then q.2 else q.1) - o) d
      match iv with
      | none => none
      | some (x, y) =>
        let x := if extLe x lo then lo else x
        let y := if extLe hi y then hi else y
        if extLe x y then some (x, y) else none
  let iv := if extLe r.tmin r.tmax then some (r.tmin, r.tmax) else none
  (axis (axis (axis iv 0 r.o.1 r.d.1) 1 r.o.2.1 r.d.2.1) 2 r.o.2.2 r.d.2.2).isSome

/-- Every accepted triangle below the child words of a worklist. -/
def traverse (rd : Reader) (h : AHdr) (r : RayV) : Nat → List Nat → List Hit → Except AStop (List Hit)
  | _, [], acc => .ok acc
  | 0, c :: _, _ => .error (.badUnit (childUnit c))
  | n + 1, c :: cs, acc =>
    if cwType c = 1 then match rd.node h (childUnit c) with
      | .error e => .error e
      | .ok k =>
        let js := (List.range k.nch).filter fun j => k.child.getD j 0 != 0 && meetsSlot r k j
        traverse rd h r n (js.map (fun j => k.child.getD j 0) ++ cs) acc
    else if cwType c = 2 then match rd.blocks h (cwOff c) (cwBlocks c) with
      | .error e => .error e
      | .ok bs => traverse rd h r n cs (acc ++ bs.filterMap (hitTriangle r))
    else traverse rd h r n cs acc

/-- More steps than any structure of the pool needs: each unit is named once. -/
def walkFuel (h : AHdr) : Nat := 16 * h.units + 16

/-- The generation that a lane traces, and its header and entry, where it is live (R224, R229). -/
def liveEntry (rd : Reader) (hdr gen : Nat) : Except AStop (AHdr × Nat × Option GenE) :=
  match rd.hdr hdr with
  | .error e => .error e
  | .ok h => if !h.valid then .error (.status 4) else
      let g := if gen = 0 then h.cur else gen
      .ok (h, g, h.entry? g)

/-- A hit record: status, FRONT, t, primitive, geometry, u, v, leaf reference, generation (R223). -/
def hitWords (status gen : Nat) (k : Option Hit) : List Nat :=
  match k with
  | none => [status, 0, 0, 0, 0, 0, 0, gen]
  | some k => [status + b2n k.front * 256, ratF32 k.t.1 k.t.2, k.b.prim, k.b.geom, ratF32 k.u.1 k.u.2, ratF32 k.v.1 k.v.2, k.b.off, gen]

/-- What stops a lane, as a status, or the page that system software may still supply. -/
def stopStatus : AStop → Except (Nat × XFail) Nat
  | .page va f => .error (va, f)
  | .status c => .ok c
  | .badUnit _ => .ok 4

/-- The hit record of a lane that stops, or the page it waits for. -/
def stopRay (gen : Nat) (e : AStop) : Except (Nat × XFail) (List Nat) := match stopStatus e with
  | .error x => .error x
  | .ok c => .ok (hitWords c (if c = 4 then 0 else gen) none)

/-- Trace one ray below the root of generation `g` (R224, R225): its hit record, or the page it waits for. `k` numbers RANY's
choice. A fault, poison or bad node in any node that is visited gives its status, also where RANY has accepted a triangle
elsewhere: the spec does not say which wins (DESIGN CHOICE, log 99). -/
def traceRoot (rd : Reader) (h : AHdr) (g root : Nat) (any : Bool) (k : Nat) (r : Ray) : Except (Nat × XFail) (List Nat) :=
  match traverse rd h (rayV r) (walkFuel h) [root] [] with
  | .error e => stopRay g e
  | .ok [] => .ok (hitWords 1 g none)
  | .ok (x :: xs) =>
    if any then .ok (hitWords 0 g (some ((x :: xs).getD (Config.anyPick k % (xs.length + 1)) x)))
    else .ok (hitWords 0 g (some (xs.foldl nearer x)))

/-- Trace one ray through the generation that its record unit describes. -/
def traceGen (rd : Reader) (h : AHdr) (g rec_ : Nat) (any : Bool) (k : Nat) (r : Ray) : Except (Nat × XFail) (List Nat) :=
  match rd.record h rec_ with
  | .error e => stopRay g e
  | .ok rc => traceRoot rd h g rc.root any k r

/-- A ray from its liveness test onward (R224, R229). Where the header itself cannot be read, the generation of a ray that names 0 is
not known: V(d+7) is then 0, the number named (R223 gives no other; DESIGN CHOICE, log 106). -/
def traceRay (rd : Reader) (any : Bool) (k : Nat) (r : Ray) : Except (Nat × XFail) (List Nat) :=
  if badRay r then .ok (hitWords 3 0 none)
  else match liveEntry rd r.hdr r.gen with
    | .error e => stopRay r.gen e
    | .ok (_, g, none) => .ok (hitWords 2 g none)
    | .ok (h, g, some e) => traceGen rd h g e.rec_ any k r

/-- The traversal that a ray begins where its generation is live (R229). -/
def beginRay (rd : Reader) (r : Ray) : Option Begun :=
  if badRay r then none
  else match liveEntry rd r.hdr r.gen with
    | .ok (h, g, some e) => some { lane := r.lane, hdr := r.hdr, gen := g, rec_ := e.rec_, pool := h.pool, units := h.units }
    | _ => none

/-- The traversals of a chain's rays once each that can has begun: a traversal that has begun stays so (R229). -/
def beginRays (rd : Reader) (begun : List Begun) (rays : List Ray) : List Begun :=
  begun ++ (rays.filter fun r => !(begun.any fun b => b.lane == r.lane)).filterMap (beginRay rd)

/-- A ray whose traversal may have begun: a begun one goes on without a further liveness test (R229). -/
def traceLane (rd : Reader) (begun : List Begun) (any : Bool) (k : Nat) (r : Ray) : Except (Nat × XFail) (List Nat) :=
  match begun.find? fun b => b.lane == r.lane with
  | some b => traceGen rd { hdrOf [] with pool := b.pool, units := b.units } b.gen b.rec_ any k r
  | none => traceRay rd any k r

/-! ### What a traversal reads (R293) -/

/-- The address and length of what a child word names. -/
def childRange (h : AHdr) (c : Nat) : Nat × Nat :=
  if cwType c = 1 then (h.unitVa (childUnit c), 128) else (h.pool + 64 * cwOff c, 64 * cwBlocks c)

/-- The nodes and leaf runs that are read below the child words of a worklist, where `sel` picks the slots of a node. -/
def visits (rd : Reader) (h : AHdr) (sel : ANode → Nat → Bool) : Nat → List Nat → List (Nat × Nat)
  | _, [] => []
  | 0, _ => []
  | n + 1, c :: cs =>
    if cwType c = 1 then match rd.node h (childUnit c) with
      | .error _ => childRange h c :: visits rd h sel n cs
      | .ok k =>
        let js := (List.range k.nch).filter fun j => k.child.getD j 0 != 0 && sel k j
        childRange h c :: visits rd h sel n (js.map (fun j => k.child.getD j 0) ++ cs)
    else if cwType c = 2 then childRange h c :: visits rd h sel n cs
    else visits rd h sel n cs

/-- What an access of the traversal unit to a generation reads: its record unit, and what it visits below the root. -/
def genReads (rd : Reader) (h : AHdr) (rec_ : Nat) (sel : ANode → Nat → Bool) : List (Nat × Nat) :=
  (h.unitVa rec_, 128) :: (match rd.record h rec_ with
    | .ok rc => visits rd h sel (walkFuel h) [rc.root]
    | .error _ => [])

/-- What a lane's access to a structure reads, from its header on. -/
def laneReads (rd : Reader) (hdr gen : Nat) (sel : ANode → Nat → Bool) : List (Nat × Nat) :=
  (hdr, 256) :: (match liveEntry rd hdr gen with
    | .ok (h, _, some e) => genReads rd h e.rec_ sel
    | _ => [])

/-- Engine reads of a context set A in the leaves that map what they read (R293). -/
def markReads (s : State) (x : Context) (rs : List (Nat × Nat)) : State := rs.foldl (fun s r => engMark s x r.1 r.2 .engRead) s

/-! ### Shared by RTRACE, RANY, RHIT and RGENQ -/

def readerOf (s : State) (gid : Nat) (failed : List Nat) : Reader := { s := s, x := ctxOf s gid, failed := failed }

/-- Results of all lanes, or the first page that one waits for. -/
def allLanes {α : Type} (f : α → Except (Nat × XFail) (List (Nat × Word × Bool))) :
    List α → Except (Nat × XFail) (List (Nat × Word × Bool))
  | [] => .ok []
  | a :: r => match f a, allLanes f r with
    | .ok x, .ok y => .ok (x ++ y)
    | .error e, _ => .error e
    | _, .error e => .error e

/-- Words for registers d, d + 1, ... of a lane. -/
def laneWords (d L : Nat) (ws : List Nat) : List (Nat × Word × Bool) :=
  ((List.range ws.length).zip ws).map fun e => (vunit (d + e.1) L, BitVec.ofNat 32 e.2, false)

/-- Wait for the reply about a page of an engine operation (R226, R301 to R303). -/
def waitPage (s : State) (gid id : Nat) (va : Nat) (f : XFail) : State :=
  modGroup (raiseFault s (ctxOf s gid) va f .engRead (dieOf s gid)) gid fun g =>
    g.modOp id fun o => { o with flt := some (faultPage va, f.cause) }

/-! ### RTRACE and RANY (R221, R222, R226) -/

def rayOf (c : Ctx) (a L : Nat) : Ray :=
  { lane := L, hdr := c.v64 a L, gen := c.v (a + 2) L, flags := c.v (a + 3) L,
    o := [c.v (a + 4) L, c.v (a + 5) L, c.v (a + 6) L], tmin := c.v (a + 7) L,
    dir := [c.v (a + 8) L, c.v (a + 9) L, c.v (a + 10) L], tmax := c.v (a + 11) L }

def hdrAlign (va : Nat) : Option Cause := if va % 256 = 0 then none else some { code := tAlign, addr := va }

def groupN (d n : Nat) : List Nat := (List.range n).map (d + ·)
def unitsN (c : Ctx) (d n : Nat) : List Nat := c.lanes.flatMap fun L => (groupN d n).map fun r => vunit r L

def raySem (d a : Nat) (f : Option Nat) (any : Bool) : Sem :=
  { pipe := 2, reads := groupN a 12, writes := groupN d 8, flags := flagOf f, cls := some .ray,
    lane := fun _ c L => if 4 ≤ c.v (a + 3) L then some { code := tLayout } else hdrAlign (c.v64 a L),
    eff := fun c s =>
      if c.act = 0 then putLres c f [] s
      else
        let id := (getGroup s c.gid).nextOp
        let s := addEngine c .ray f (.ray any (c.lanes.map (rayOf c a))) (unitsN c d 8) s
        let s := withDst c d s
        if f.isNone then waitOn s c.gid c.sl (.op id) else s }

def semRtrace (d a : Nat) (f : Option Nat) : Sem := raySem d a f false
def semRany (d a : Nat) (f : Option Nat) : Sem := raySem d a f true

/-- The hit records of RTRACE or RANY, or the page that the traversal waits for. -/
def rayVals (s : State) (gid : Nat) (o : Op) (any : Bool) (rays : List Ray) : Except (Nat × XFail) (List (Nat × Word × Bool)) :=
  if !o.vals.isEmpty then .ok o.vals
  else
    let rd := readerOf s gid o.failed
    allLanes (fun r => match traceLane rd o.begun any (s.fresh + r.lane) r with
      | .ok ws => .ok (laneWords o.dst r.lane ws)
      | .error e => .error e) rays

/-- What a lane of RTRACE or RANY reads. -/
def rayReads (rd : Reader) (begun : List Begun) (r : Ray) : List (Nat × Nat) :=
  if badRay r then []
  else
    let sel (n : ANode) (j : Nat) : Bool := meetsSlot (rayV r) n j
    match begun.find? fun b => b.lane == r.lane with
    | some b => (r.hdr, 256) :: genReads rd { hdrOf [] with pool := b.pool, units := b.units } b.rec_ sel
    | none => laneReads rd r.hdr r.gen sel

/-- The traversal of RTRACE or RANY ends (R226): the records are written, or a page is waited for. A lane that has begun has read its
generation's number, with the acquire of R229. -/
def rayStep (s : State) (gid id : Nat) (o : Op) (any : Bool) (rays : List Ray) : State :=
  match rayVals s gid o any rays with
  | .error (va, f) =>
    let begun := beginRays (readerOf s gid o.failed) o.begun rays
    let s := if rays.any (fun r => r.gen == 0 && begun.any fun b => b.lane == r.lane) then acquired s gid .package else s
    modGroup (waitPage s gid id va f) gid fun g => g.modOp id fun p => { p with begun := begun }
  | .ok vals =>
    let s := markReads s (ctxOf s gid) (rays.flatMap (rayReads (readerOf s gid o.failed) o.begun))
    let s := if rays.any (·.gen == 0) then acquired s gid .package else s
    let s := modGroup s gid fun g => if g.retired then g else g.putVals s.fresh o vals
    finishOpS (bump s) gid id

/-! ### RPIN and RUNPIN (R227, R342) -/

/-- The header as RPIN's indivisible access finds it; poisoned data make no valid header. -/
def pinHdr (s : State) (c : Ctx) (a : Nat) : Option (AHdr × List Nat) :=
  let pas := lanePas s c a 256 .atomic
  let h := hdrOf (pas.map (engByte s))
  if h.valid && !(pas.any (poisoned s)) then some (h, pas) else none

/-- The causes of RPIN: ALIGN, a full pin table, then what the access to the header meets, PAGE and PERM before LAYOUT. R227's table
does not place PAGE and PERM among its rows (DESIGN CHOICE, log 39). -/
def rpinCause (s : State) (c : Ctx) (a : Nat) : Option Cause :=
  let va := c.v64 a c.lead
  match hdrAlign va with
  | some k => some k
  | none =>
    if 8 ≤ c.g.pins.length then some { code := tResource }
    else match globalCause s c va 256 .atomic c.lead with
      | some k => some k
      | none => layoutIf (pinHdr s c va).isNone

/-- Publish a new PINS count in entry i of a header at the given addresses. -/
def putPins (s : State) (pas : List Nat) (i v : Nat) : State := engPut s (((pas.drop (72 + 12 * i)).take 4).zip (leBytes 4 v))

def semRpin (d a : Nat) (f : Option Nat) : Sem :=
  { pipe := 2, leads := [a, a + 1], writes := [d], flags := flagOf f,
    lane := leadCause fun s c => rpinCause s c a,
    addrs := fun _ c => if c.act = 0 ∨ c.v64 a c.lead % 256 ≠ 0 then [] else [(c.v64 a c.lead, 256, .atomic)],
    eff := fun c s => match (if c.act = 0 then none else pinHdr s c (c.v64 a c.lead)) with
      | none => putLres c f [] s
      | some (h, pas) =>
        let s := acquired (pas.foldl touch s) c.gid .package
        let hit := (List.range 16).find? fun i => h.cur != 0 && ((h.gens[i]?).map (·.gen)) == some h.cur
        match hit with
        | none => putLres c f (c.out32 d fun _ => 0) s
        | some i =>
          let n := ((h.gens[i]?).map (·.pins)).getD 0
          if n = 2 ^ 32 - 1 then putLres c f (c.out32 d fun _ => 0) s
          else
            let s := putPins s pas i (n + 1)
            let s := modGroup s c.gid fun g => { g with pins := g.pins ++ [(c.v64 a c.lead, h.cur)] }
            putLres c f (c.out32 d fun _ => h.cur) s }

def semRunpin (a : Nat) (f : Option Nat) : Sem :=
  { pipe := 2, leads := [a, a + 1, a + 2], names := [a + 3], flags := flagOf f,
    lane := leadCause fun _ c =>
      if c.g.pins.contains (c.v64 a c.lead, c.v (a + 2) c.lead) then none else some { code := tHandleState },
    eff := fun c s =>
      let p := (c.v64 a c.lead, c.v (a + 2) c.lead)
      let s := if c.act = 0 then s
        else modGroup (headerPins s (ctxOf s c.gid) p.1 p.2 (dieOf s c.gid) (f.map fun _ => (c.gid, (getGroup s c.gid).nextOp))) c.gid
          fun g => { g with pins := g.pins.erase p }
      match f with
      | none => s
      | some _ => putL c f .runpin [] [] s }

/-! ### RHIT (R230) -/

/-- The block at OFFSET `off` lies in a leaf run below the child words of a worklist. Every node of the walk is read, and one that is
missing, poisoned or bad gives RHIT its status, wherever it stands: R230 does not say how the reference is checked (DESIGN CHOICE,
log 107). -/
def findBlock (rd : Reader) (h : AHdr) (off : Nat) : Nat → List Nat → Except AStop Bool
  | _, [] => .ok false
  | 0, c :: _ => .error (.badUnit (childUnit c))
  | n + 1, c :: cs =>
    if cwType c = 1 then match rd.node h (childUnit c) with
      | .error e => .error e
      | .ok k => findBlock rd h off n (k.child.filter (· != 0) ++ cs)
    else if cwType c = 2 && decide (cwOff c ≤ off) && decide (off < cwOff c + cwBlocks c) then .ok true
    else findBlock rd h off n cs

def rhitLane (rd : Reader) (l : Nat × Nat × Nat × Nat) : Except (Nat × XFail) (List Nat) :=
  let out (st : Nat) : List Nat := List.replicate 11 0 ++ [st]
  let stop (e : AStop) : Except (Nat × XFail) (List Nat) := match stopStatus e with
    | .error x => .error x
    | .ok c => .ok (out c)
  match liveEntry rd l.2.1 l.2.2.1 with
  | .error e => stop e
  | .ok (_, _, none) => .ok (out 2)
  | .ok (h, _, some e) => match rd.record h e.rec_ with
    | .error e => stop e
    | .ok rc => match findBlock rd h l.2.2.2 (walkFuel h) [rc.root] with
      | .error e => stop e
      | .ok false => .ok (out 4)
      | .ok true => match rd.block h l.2.2.2 with
        | .error e => stop e
        | .ok b => .ok (b.v ++ [b.prim, b.geom, 0])

def semRhit (d a : Nat) (f : Option Nat) : Sem :=
  { pipe := 2, reads := groupN a 4, writes := groupN d 12, flags := flagOf f,
    lane := fun _ c L => hdrAlign (c.v64 a L),
    eff := fun c s =>
      if c.act = 0 then putLres c f [] s
      else withDst c d <| putL c f (.rhit (c.lanes.map fun L => (L, c.v64 a L, c.v (a + 2) L, c.v (a + 3) L))) (unitsN c d 12) [] s }

/-! ### RGENQ (R228) -/

/-- The generation state word. -/
def genWord (h : AHdr) (pins : List (Nat × Nat)) (hdr g : Nat) : Nat :=
  let e := h.entry? g
  b2n e.isSome + 2 * b2n (g != 0 && h.cur == g) + 4 * b2n (g != 0 && h.staged == g) +
    8 * b2n ((e.map fun e => decide (e.pins ≠ 0)).getD false) + (pins.filter (· == (hdr, g))).length * 256

def rgenqLane (rd : Reader) (pins : List (Nat × Nat)) (l : Nat × Nat × Nat) : Except (Nat × XFail) (List Nat) :=
  match rd.hdr l.2.1 with
  | .error (.page va f) => .error (va, f)
  | .error _ => .ok [0, 0]
  | .ok h => .ok (if h.valid then [h.cur, genWord h pins l.2.1 l.2.2] else [0, 0])

def semRgenq (d a : Nat) (f : Option Nat) : Sem :=
  { pipe := 2, reads := [a, a + 1, a + 2], names := [a + 3], writes := [d, d + 1], flags := flagOf f,
    lane := fun _ c L => hdrAlign (c.v64 a L),
    eff := fun c s =>
      if c.act = 0 then putLres c f [] s
      else withDst c d <| putL c f (.rgenq (c.lanes.map fun L => (L, c.v64 a L, c.v (a + 2) L))) (unitsN c d 2) [] s }

/-- The words of one lane as register values. -/
def laneVals (d L : Nat) : Except (Nat × XFail) (List Nat) → Except (Nat × XFail) (List (Nat × Word × Bool))
  | .ok ws => .ok (laneWords d L ws)
  | .error e => .error e

/-- The results of RHIT or RGENQ, or the page that they wait for (R228, R230). -/
def structVals (s : State) (gid : Nat) (o : Op) : Except (Nat × XFail) (List (Nat × Word × Bool)) :=
  let rd := readerOf s gid o.failed
  match o.kind with
  | .rhit ls => allLanes (fun l => laneVals o.dst l.1 (rhitLane rd l)) ls
  | .rgenq ls => allLanes (fun l => laneVals o.dst l.1 (rgenqLane rd (getGroup s gid).pins l)) ls
  | _ => .ok o.vals

/-- RHIT of generation 0 reads the current number with acquire (R229). -/
def structAcq (s : State) (gid : Nat) (o : Op) : State := match o.kind with
  | .rhit ls => if ls.any fun l => l.2.2.1 == 0 then acquired s gid .package else s
  | _ => s

/-- What RHIT or RGENQ reads. -/
def structReads (rd : Reader) (o : Op) : List (Nat × Nat) := match o.kind with
  | .rhit ls => ls.flatMap fun l => laneReads rd l.2.1 l.2.2.1 fun _ _ => true
  | .rgenq ls => ls.map fun l => (l.2.1, 256)
  | _ => []

/-- Results of RHIT or RGENQ land, or wait for a page. An RHIT that has waited reads everything again, the liveness test included, so
reclamation does not wait for it: R229 lays that down for a traversal, and RHIT only tests as one does (R230; DESIGN CHOICE,
log 108). -/
def structStep (s : State) (gid id : Nat) (o : Op) : State := match structVals s gid o with
  | .error (va, f) => waitPage s gid id va f
  | .ok vals =>
    let s := markReads s (ctxOf s gid) (structReads (readerOf s gid o.failed) o)
    landOpS (structAcq s gid o) gid { o with vals := vals }

/-! ### Meanings -/

def execRtrace (d a : Nat) (f : Option Nat) (s : State) : Host.Outcome State Fault Refusal := .next (issueOne (semRtrace d a f) s)
def execRany (d a : Nat) (f : Option Nat) (s : State) : Host.Outcome State Fault Refusal := .next (issueOne (semRany d a f) s)
def execRpin (d a : Nat) (f : Option Nat) (s : State) : Host.Outcome State Fault Refusal := .next (issueOne (semRpin d a f) s)
def execRunpin (a : Nat) (f : Option Nat) (s : State) : Host.Outcome State Fault Refusal := .next (issueOne (semRunpin a f) s)
def execRhit (d a : Nat) (f : Option Nat) (s : State) : Host.Outcome State Fault Refusal := .next (issueOne (semRhit d a f) s)
def execRgenq (d a : Nat) (f : Option Nat) (s : State) : Host.Outcome State Fault Refusal := .next (issueOne (semRgenq d a f) s)

end Sys2Proof.Machine
end

