-- ==== Sys2Proof/Machine/Builder.lean ====
section
/-! DEFINITION. Orangery builders, major 0x7A: requests, staging, publication, reclamation, and the structures that the
functions produce (R231 to R235, R336 to R350). -/
namespace Sys2Proof.Machine

open Sys2Proof

/-! ### Requests (R231) -/

/-- Why a request stops: a page that system software may still supply, or a status with its DETAIL (R233). -/
inductive BStop where
  | page (va : Nat) (f : XFail) (a : Acc)
  | fail (status detail : Nat)
  deriving DecidableEq, Repr

def bstop : AStop → BStop
  | .page va f => .page va f .engRead
  | .status c => .fail (if c = 5 then 1 else if c = 7 then 2 else if c = 6 then 3 else 4) 0
  | .badUnit u => .fail 4 u

/-- The place of a stop in the table of R233: a page that may still be supplied stands before all. -/
def BStop.rank : BStop → Nat
  | .page _ _ _ => 0
  | .fail st _ => st

/-- The stop of two that comes first in the table of R233, the earlier of two equal ones. -/
def BStop.first (a b : BStop) : BStop := if b.rank < a.rank then b else a

/-- Two parts of a request that both are tried, and what both give: its status is the first code of the table (R233). -/
def both {α β γ : Type} (f : α → β → γ) : Except BStop α → Except BStop β → Except BStop γ
  | .ok a, .ok b => .ok (f a b)
  | .error e, .ok _ => .error e
  | .ok _, .error e => .error e
  | .error e, .error e' => .error (e.first e')

def liftB {α : Type} : Except AStop α → Except BStop α
  | .ok a => .ok a
  | .error e => .error (bstop e)

/-- A request as the builder copies it from its block. -/
def breqOf (bs : List Byte) (gid op ctx fn block : Nat) : BReq :=
  { gid := gid, op := op, ctx := ctx, fn := fn, block := block, hdr := fieldAt bs 0 8, src := fieldAt bs 8 8,
    aux := fieldAt bs 16 8, count := fieldAt bs 24 4, stride := fieldAt bs 28 4, first := fieldAt bs 32 4, gen := fieldAt bs 36 4,
    skip := bit (fieldAt bs 40 4) 0, publ := bit (fieldAt bs 40 4) 1 }

/-- The request block that a chain reads. Of one in a poisoned sector the spec gives no outcome: it is read with the free values of
the poisoned bytes, and no trap or status says so (DESIGN CHOICE, log 96). -/
def blockOf64 (s : State) (c : Ctx) (a : Nat) : List Byte := ((recBytes? s c (c.v64 a c.lead)).getD []).map (·.1)

/-- The result of a window failure of the header's page (R231). -/
def hdrPerm (s : State) (c : Ctx) (hdr : Nat) : Option Cause :=
  match engXlate s (ctxOf s c.gid) hdr .engRead with
  | .error f => if f.cause = 5 then some { code := tPerm, addr := hdr } else none
  | .ok _ => none

def bldCause (s : State) (c : Ctx) (fn a : Nat) : Option Cause :=
  match recCause s c (c.v64 a c.lead) c.lead with
  | some k => some k
  | none =>
    let bs := blockOf64 s c a
    let hdr := fieldAt bs 0 8
    if bits (fieldAt bs 40 4) 31 2 ≠ 0 ∨ fieldAt bs 60 4 ≠ 0 ∨ hdr % 256 ≠ 0 ∨ 2 ^ 48 ≤ hdr ∨
        ((fn = 5 ∨ fn = 6) ∧ fieldAt bs 16 8 % 32 ≠ 0) then some { code := tLayout }
    else hdrPerm s c hdr

/-- The die whose builders serve a header: its home, or die 0 (R234). -/
def builderDie (s : State) (x : Context) (hdr : Nat) : Nat := match engXlate s x hdr .engRead with
  | .ok pa => match homeOf pa with
    | some h => if h < 4 then h else 0
    | none => 0
  | .error _ => 0

/-- The die whose queue takes a request: the one whose builders serve its header (R234, R344). -/
def queueDie (s : State) (q : BReq) : Nat := builderDie s (getCtx s q.ctx) q.hdr

/-- Issue of a BLD function (R231, R234): a release, the copy of the block, and the request to its die's queue. -/
def bldSem (fn a : Nat) (f : Option Nat) : Sem :=
  { pipe := 2, leads := [a, a + 1], flags := flagOf f, cls := some .build, level2 := true,
    hold := fun s c => c.act != 0 && (recHold s c (c.v64 a c.lead) ||
      ((bldCause s c fn a).isNone && !isReleased s c.gid c.sl .package)),
    nudge := fun c s => flushFor (recNudge c (c.v64 a c.lead) s) c.gid c.sl .package,
    lane := leadCause fun s c => bldCause s c fn a,
    addrs := fun _ c => if c.act = 0 then [] else [(c.v64 a c.lead, 64, .read)],
    eff := fun c s =>
      if c.act = 0 then putLres c f [] s
      else
        let s := flushFor s c.gid c.sl .package
        let id := (getGroup s c.gid).nextOp
        let q := breqOf (blockOf64 s c a) c.gid id (ctxNumOf s c.gid) fn (c.v64 a c.lead)
        let s := addEngine c .build f .build [] (forgetSeen c s)
        modDie s (queueDie s q) fun d => { d with bq := d.bq ++ [q] } }

def semAsbuild (a : Nat) (f : Option Nat) : Sem := bldSem 0 a f
def semAsrefit (a : Nat) (f : Option Nat) : Sem := bldSem 1 a f
def semAsrebal (a : Nat) (f : Option Nat) : Sem := bldSem 2 a f
def semAsimport (a : Nat) (f : Option Nat) : Sem := bldSem 3 a f
def semAspubl (a : Nat) (f : Option Nat) : Sem := bldSem 4 a f
def semAsstat (a : Nat) (f : Option Nat) : Sem := bldSem 5 a f
def semAsqual (a : Nat) (f : Option Nat) : Sem := bldSem 6 a f
def semAsrecl (a : Nat) (f : Option Nat) : Sem := bldSem 7 a f

/-! ### The pool map (R336) -/

/-- What a request works on: the header, the units that are not free with BORN and RETIRED, the units it writes, and
the units of the generation that it stages. -/
structure Work where
  h  : AHdr
  mp : FMap (Nat × Nat) := []
  new : List (Nat × List Byte) := []
  mine : List Nat := []
  deriving DecidableEq, Repr

/-- Read a valid header and its pool map. -/
def openWork (rd : Reader) (hdr : Nat) : Except BStop Work :=
  match rd.hdr hdr with
  | .error e => .error (bstop e)
  | .ok h =>
    if !h.valid then .error (.fail 4 0xFFFFFFFF)
    else match rd.read h.pool (8 * h.units) with
      | .error e => .error (bstop e)
      | .ok bs => .ok { h := h, mp := (List.range h.units).filterMap fun u =>
          let e := (fieldAt bs (8 * u) 4, fieldAt bs (8 * u + 4) 4)
          if u < h.mu || e.1 == 0 then none else some (u, e) }

/-- A unit belongs to a generation. -/
def Work.inGen (w : Work) (u g : Nat) : Bool := match mapGet? w.mp u with
  | none => false
  | some (b, r) => decide (b ≤ g) && (r == 0 || decide (g < r))

/-- The lowest-addressed free run of n units. -/
def Work.alloc (w : Work) (n : Nat) : Except BStop Nat :=
  match (List.range (w.h.units + 1 - n)).find? fun u => decide (w.h.mu ≤ u) && (List.range n).all fun i => (mapGet? w.mp (u + i)).isNone with
  | some u => .ok u
  | none => .error (.fail 0x0A 0)

/-! ### Trees (R337, R347) -/

/-- A slot of an output node: nothing, an internal node by its index, or a leaf run with the OFFSET it had, if any. -/
inductive BSlot where
  | empty
  | inner (i : Nat)
  | run (off : Nat) (bs : List ABlock)
  deriving DecidableEq, Repr

/-- An internal node in breadth-first order, with the unit and bytes that it had, if any. -/
structure BNode where
  slots : List BSlot
  unit  : Option Nat := none
  raw   : List Byte := []
  deriving DecidableEq, Repr

/-- A binary tree over triangles. -/
inductive BTree where
  | tri (i : Nat)
  | node (l r : BTree)
  deriving DecidableEq, Repr

def BTree.prims : BTree → Nat
  | .tri _ => 1
  | .node l r => l.prims + r.prims

def BTree.tris : BTree → List Nat
  | .tri i => [i]
  | .node l r => l.tris ++ r.tris

/-- The position of the entry that Collapse opens next: the most primitives above 4, the lowest position on a tie. -/
def widest (cs : List BTree) : Option Nat :=
  let ok := (List.range cs.length).filter fun i => match (cs[i]? : Option BTree) with
    | some (BTree.node l r) => decide (4 < l.prims + r.prims)
    | _ => false
  let size (i : Nat) : Nat := ((cs[i]?).map (·.prims)).getD 0
  match ok with
  | [] => none
  | i :: r => some (r.foldl (fun a b => if size a < size b then b else a) i)

/-- Collapse of R347: at most seven openings reach eight entries. -/
def collapseN : Nat → List BTree → List BTree
  | 0, cs => cs
  | n + 1, cs => match widest cs with
    | none => cs
    | some i => match (cs[i]? : Option BTree) with
      | some (BTree.node l r) => collapseN n (cs.take i ++ l :: r :: cs.drop (i + 1))
      | _ => cs

def collapse : BTree → List BTree
  | .tri i => [.tri i]
  | .node l r => collapseN 6 [l, r]

/-- The output nodes in breadth-first order; `pick` gives a triangle's block unless it is skipped. -/
def layNodes (pick : Nat → Option ABlock) : Nat → List BTree → Nat → List BNode → List BNode
  | 0, _, _, acc => acc
  | _, [], _, acc => acc
  | n + 1, t :: ts, next, acc =>
    let r := (collapse t).foldl (fun (r : List BSlot × List BTree × Nat) c =>
      if 4 < c.prims then (r.1 ++ [.inner r.2.2], r.2.1 ++ [c], r.2.2 + 1)
      else match c.tris.filterMap pick with
        | [] => (r.1 ++ [.empty], r.2.1, r.2.2)
        | bs => (r.1 ++ [.run 0 bs], r.2.1, r.2.2)) ([], [], next)
    layNodes pick n (ts ++ r.2.1) r.2.2 (acc ++ [{ slots := r.1 }])

/-- A tree of free shape over n triangles from `lo` (R8, R345). -/
def freeTree (k : Nat) : Nat → Nat → Nat → BTree
  | 0, lo, _ => .tri lo
  | fuel + 1, lo, n =>
    if n ≤ 1 then .tri lo
    else
      let m := Config.treeSplit k lo n % (n - 1) + 1
      .node (freeTree k fuel lo m) (freeTree k fuel (lo + m) (n - m))

def runUnits (off n : Nat) : List Nat := dedupN ((List.range n).map fun i => (off + i) / 2)

/-- The units that a request reads of generation `g` belong to it; one of the pool map, or one whose BORN and RETIRED do not cover
`g`, breaks R336 (R233). -/
def Work.covers (w : Work) (g : Nat) (us : List Nat) : Except BStop Unit :=
  match us.find? fun u => !w.inGen u g with
  | some u => .error (.fail 4 u)
  | none => .ok ()

/-- A node unit of generation `g`, with its bytes. -/
def readNode (rd : Reader) (w : Work) (g u : Nat) : Except BStop (List Byte × ANode) :=
  match rd.unit w.h u with
  | .error e => .error (bstop e)
  | .ok raw => both (fun _ k => (raw, k)) (w.covers g [u]) (liftB (inPool w.h ANode.child (orBad u (nodeOf raw))))

/-- The leaf runs of a node's slots, by OFFSET. -/
def readRuns (rd : Reader) (w : Work) (g : Nat) : List Nat → Except BStop (FMap (List ABlock))
  | [] => .ok []
  | c :: cs =>
    if cwType c = 2 then
      both (fun bs m => mapSet m (cwOff c) bs)
        (both (fun _ bs => bs) (w.covers g (runUnits (cwOff c) (cwBlocks c))) (liftB (rd.blocks w.h (cwOff c) (cwBlocks c))))
        (readRuns rd w g cs)
    else readRuns rd w g cs

/-- A stop met before, and what a later part gives. -/
def stopFirst {α : Type} : Option BStop → Except BStop α → Except BStop α
  | none, r => r
  | some e, .ok _ => .error e
  | some e, .error e' => .error (e.first e')

/-- A stop met before, or the first of it and a new one. -/
def BStop.join : Option BStop → BStop → BStop
  | none, e => e
  | some e, e' => e.first e'

/-- The slots of a node whose first inner child takes index `next`, and the units of its inner children. -/
def slotsOf (runs : FMap (List ABlock)) (next : Nat) (cs : List Nat) : List BSlot × List Nat :=
  cs.foldl (fun r c =>
    if cwType c = 0 then (r.1 ++ [.empty], r.2)
    else if cwType c = 1 then (r.1 ++ [.inner (next + r.2.length)], r.2 ++ [childUnit c])
    else (r.1 ++ [.run (cwOff c) (mapGetD runs (cwOff c) [])], r.2)) ([], [])

/-- The nodes of existing generation `g` in breadth-first order; `e` is the first code met so far (R233). -/
def parseNodes (rd : Reader) (w : Work) (g : Nat) : Nat → List Nat → Nat → List BNode → Option BStop → Except BStop (List BNode)
  | _, [], _, acc, e => stopFirst e (.ok acc)
  | 0, u :: _, _, _, e => .error (BStop.join e (.fail 4 u))
  | n + 1, u :: us, next, acc, e => match readNode rd w g u with
    | .error x => parseNodes rd w g n us next acc (some (BStop.join e x))
    | .ok (raw, k) =>
      let cs := k.child.take k.nch
      match readRuns rd w g cs with
      | .error x =>
        let r := slotsOf [] next cs
        parseNodes rd w g n (us ++ r.2) (next + r.2.length) acc (some (BStop.join e x))
      | .ok runs =>
        let r := slotsOf runs next cs
        parseNodes rd w g n (us ++ r.2) (next + r.2.length) (acc ++ [{ slots := r.1, unit := some u, raw := raw }]) e

/-- The record of generation `g` in unit `u`. -/
def readRecord (rd : Reader) (w : Work) (g u : Nat) : Except BStop ARec :=
  both (fun _ r => r) (w.covers g [u]) (liftB (rd.record w.h u))

/-- The nodes of a generation by its record. -/
def parseGen (rd : Reader) (w : Work) (g : Nat) (rc : ARec) : Except BStop (List BNode) :=
  if rc.root = 0 then .ok [] else parseNodes rd w g (walkFuel w.h) [childUnit rc.root] 1 [] none

/-- The units of a parsed generation: record, nodes and leaf runs. -/
def genUnits (recUnit : Nat) (ns : List BNode) : List Nat :=
  recUnit :: ns.flatMap fun n => n.unit.toList ++ n.slots.flatMap fun sl => match sl with
    | .run off bs => runUnits off bs.length
    | _ => []

/-- Keys of the leaf runs, node * 8 + slot, from left to right. -/
def runKeys (ns : List BNode) : Nat → List Nat → List Nat
  | 0, _ => []
  | _, [] => []
  | n + 1, k :: ks => match (ns[k / 8]?).bind fun x => x.slots[k % 8]? with
    | some (.inner i) => runKeys ns n ((List.range ((ns[i]?).map (·.slots.length) |>.getD 0)).map (i * 8 + ·) ++ ks)
    | some (.run _ _) => k :: runKeys ns n ks
    | _ => runKeys ns n ks

def runsOf (ns : List BNode) : List Nat :=
  runKeys ns (9 * ns.length + 9) ((List.range ((ns[0]?).map (·.slots.length) |>.getD 0)))

def slotAt (ns : List BNode) (k : Nat) : BSlot := ((ns[k / 8]?).bind fun x => x.slots[k % 8]?).getD .empty

def runAt (ns : List BNode) (k : Nat) : Nat × List ABlock := match slotAt ns k with
  | .run off bs => (off, bs)
  | _ => (0, [])

/-! ### Boxes (R338, R350) -/

/-- An exact box: lower and upper bounds. -/
abbrev Box3 := V3 × V3

def minI (a b : Int) : Int := if b < a then b else a
def maxI (a b : Int) : Int := if a < b then b else a
def vmin (a b : V3) : V3 := (minI a.1 b.1, minI a.2.1 b.2.1, minI a.2.2 b.2.2)
def vmax (a b : V3) : V3 := (maxI a.1 b.1, maxI a.2.1 b.2.1, maxI a.2.2 b.2.2)

def joinBox : Option Box3 → Option Box3 → Option Box3
  | none, y => y
  | x, none => x
  | some x, some y => some (vmin x.1 y.1, vmax x.2 y.2)

def blockBox (b : ABlock) : Option Box3 :=
  let p := v3Of b.v 0
  let q := v3Of b.v 3
  let r := v3Of b.v 6
  some (vmin p (vmin q r), vmax p (vmax q r))

def blocksBox (bs : List ABlock) : Option Box3 := bs.foldl (fun a b => joinBox a (blockBox b)) none

/-- The exact box of a slot, from the boxes of the nodes. -/
def slotBox (boxes : FMap (Option Box3)) : BSlot → Option Box3
  | .empty => none
  | .inner i => mapGetD boxes i none
  | .run _ bs => blocksBox bs

/-- Indexes of a list with its elements, last first. -/
def backward {α : Type} (l : List α) : List (Nat × α) := ((List.range l.length).zip l).reverse

/-- The exact boxes of all nodes; children stand after their parents. -/
def nodeBoxes (ns : List BNode) : FMap (Option Box3) :=
  (backward ns).foldl (fun m e => mapSet m e.1 (e.2.slots.foldl (fun a sl => joinBox a (slotBox m sl)) none)) []

/-- Primitives below each node. -/
def nodePrims (ns : List BNode) : FMap Nat :=
  (backward ns).foldl (fun m e => mapSet m e.1 (e.2.slots.foldl (fun a sl => a + (match sl with
    | .inner i => mapGetD m i 0
    | .run _ bs => bs.length
    | .empty => 0)) 0)) []

def vcoord (v : V3) (a : Nat) : Int := if a = 0 then v.1 else if a = 1 then v.2.1 else v.2.2

/-- The least exponent from -128 at which an extent fits in 255 steps (R338). -/
def leastExp (d : Int) : Int :=
  ((List.range 256).find? fun i => decide (d ≤ 255 * ((2 ^ (i + 21) : Nat) : Int))).map (fun i => (i : Int) - 128) |>.getD 127

/-- An internal node's fields from its slots' exact boxes and child words (R338). -/
def quantise (bs : List (Option Box3)) (words : List Nat) (prims : Nat) : ANode :=
  let full := bs.filterMap id
  let org (a : Nat) : Int := match full with
    | [] => 0
    | x :: r => r.foldl (fun m b => minI m (vcoord b.1 a)) (vcoord x.1 a)
  let ext (a : Nat) : Int := full.foldl (fun m b => maxI m (vcoord b.2 a - org a)) 0
  let e (a : Nat) : Int := if full.isEmpty then -128 else leastExp (ext a)
  let u (a : Nat) : Int := (2 ^ (e a + 149).toNat : Nat)
  let plane (a : Nat) (up : Bool) : List Nat := (List.range 8).map fun j => match (bs[j]?).join with
    | none => 0
    | some b => if up then ((vcoord b.2 a - org a + u a - 1) / u a).toNat else ((vcoord b.1 a - org a) / u a).toNat
  { org := (List.range 3).map fun a => ratF32 (org a) (2 ^ 149 : Nat), exp := (List.range 3).map e, nch := bs.length,
    child := words ++ List.replicate (8 - words.length) 0,
    lo := (List.range 3).map (plane · false), hi := (List.range 3).map (plane · true), prims := prims }

def nodeBytes (n : ANode) : List Byte :=
  n.org.flatMap (leBytes 4) ++ n.exp.flatMap (fun e => leBytes 1 (wrapN e 8)) ++ leBytes 1 n.nch ++ n.child.flatMap (leBytes 4) ++
    (n.lo ++ n.hi).flatMap (fun p => p.flatMap (leBytes 1)) ++ leBytes 4 n.prims ++ List.replicate 28 0

def wordInner (u : Nat) : Nat := 2 ^ 30 + 2 * u
def wordRun (off n : Nat) : Nat := 2 ^ 31 + (n - 1) * 2 ^ 27 + off

/-- Twice the surface of a box, halved: dx dy + dy dz + dz dx. -/
def area3 (b : Box3) : Int :=
  let d := vsub b.2 b.1
  d.1 * d.2.1 + d.2.1 * d.2.2 + d.2.2 * d.1

def meet3 (x y : Box3) : Option Box3 :=
  let lo := vmax x.1 y.1
  let hi := vmin x.2 y.2
  if lo.1 ≤ hi.1 ∧ lo.2.1 ≤ hi.2.1 ∧ lo.2.2 ≤ hi.2.2 then some (lo, hi) else none

def dequant (n : ANode) (j : Nat) : Box3 :=
  let b (a : Nat) := slotBounds n j a
  (((b 0).1, (b 1).1, (b 2).1), ((b 0).2, (b 1).2, (b 2).2))

/-- A ratio in 16.16 fixed point, rounded RNE, saturating; 0 over a zero area (R350). -/
def fix16 (n d : Int) : Nat :=
  if d ≤ 0 ∨ n ≤ 0 then 0
  else let v := roundDiv .rne false (n.toNat * 65536) d.toNat; if 2 ^ 32 ≤ v then 2 ^ 32 - 1 else v

/-- Depth of each node, the root at 1. -/
def nodeDepths (ns : List BNode) : FMap Nat :=
  ((List.range ns.length).zip ns).foldl (fun m e => e.2.slots.foldl (fun m sl => match sl with
    | .inner i => mapSet m i (mapGetD m e.1 1 + 1)
    | _ => m) m) (if ns.isEmpty then [] else [(0, 1)])

/-- The quality record (R350). -/
def qualityOf (ns : List BNode) (qs : List ANode) (skipped ticks : Nat) : List Nat :=
  let at_ (i : Nat) : ANode := (qs[i]?).getD (quantise [] [] 0)
  let used (n : BNode) : List Nat := (List.range n.slots.length).filter fun j => (n.slots[j]?) != some .empty
  let root := ((used ((ns[0]?).getD { slots := [] })).map fun j => some (dequant (at_ 0) j)).foldl joinBox none
  let ar := (root.map area3).getD 0
  let each (f : Nat → BNode → Int) : Int := ((List.range ns.length).zip ns).foldl (fun a e => a + f e.1 e.2) 0
  let sah := ar + each fun i n => (used n).foldl (fun a j => a + area3 (dequant (at_ i) j) * (match n.slots[j]? with
    | some (.run _ bs) => bs.length
    | _ => 1)) 0
  let lap := each fun i n => (used n).foldl (fun a j => (used n).foldl (fun a k =>
    if j < k then a + ((meet3 (dequant (at_ i) j) (dequant (at_ i) k)).map area3).getD 0 else a) a) 0
  let leaves := ns.foldl (fun a n => n.slots.foldl (fun a sl => a + (match sl with
    | .run _ bs => bs.length
    | _ => 0)) a) 0
  [ns.length, leaves, (nodeDepths ns).foldl (fun a e => if a < e.2 then e.2 else a) 0, fix16 sah ar, fix16 lap ar, skipped,
    (if 2 ^ 32 ≤ ticks then 2 ^ 32 - 1 else ticks), 0]

/-! ### Writing a run (R336, R347, R348) -/

/-- Which leaf runs an ASREFIT shares: those of which no unit changes and every unit belongs to the current generation (R348). -/
def runKept (same us : List Nat) : Bool := us.all (same.contains ·)

/-- The new contents of the units of the leaf runs of a refitted generation, from left to right. -/
def refitUnits (rd : Reader) (h : AHdr) (ns : List BNode) : List Nat → FMap (List Byte) → List Nat → Except BStop (List Nat × FMap (List Byte))
  | [], m, order => .ok (order, m)
  | k :: ks, m, order =>
    let r := runAt ns k
    let us := runUnits r.1 r.2.length
    let m' := us.foldl (fun (m : Except BStop (FMap (List Byte))) u => match m with
      | .error e => .error e
      | .ok m => match mapGet? m u with
        | some _ => .ok m
        | none => match rd.unit h u with
          | .error e => .error (bstop e)
          | .ok bs => .ok (mapSet m u bs)) (.ok m)
    match m' with
    | .error e => .error e
    | .ok m =>
      let m := ((List.range r.2.length).zip r.2).foldl (fun m e =>
        let o := r.1 + e.1
        let old := mapGetD m (o / 2) []
        mapSet m (o / 2) (old.take (64 * (o % 2)) ++ blockBytes e.2 ++ old.drop (64 * (o % 2) + 64))) m
      refitUnits rd h ns ks m (order ++ us.filter fun u => !order.contains u)

/-- Stage a generation from its nodes (R336, R341, R347, R348): the work with the run written, and the record's unit. -/
def emitGen (rd : Reader) (w : Work) (ns : List BNode) (share : Bool) (count first skipped ticks : Nat) :
    Except BStop (Work × Nat) :=
  let h := w.h
  let keys := runsOf ns
  let boxes := nodeBoxes ns
  let prims := nodePrims ns
  match (if share then refitUnits rd h ns keys [] [] else .ok ([], [])) with
  | .error e => .error e
  | .ok (order, cont) =>
    match (order.foldl (fun (a : Except BStop (List Nat)) u => match a with
      | .error e => .error e
      | .ok a => match rd.unit h u with
        | .error e => .error (bstop e)
        | .ok bs => .ok (if mapGet? cont u == some bs && w.inGen u h.cur then a ++ [u] else a)) (.ok [])) with
    | .error e => .error e
    | .ok same =>
      let runUs := keys.map fun k => runUnits (runAt ns k).1 (runAt ns k).2.length
      let keep := if share then dedupN ((runUs.filter (runKept same)).flatMap id) else []
      let rewr := order.filter fun u => runUs.any fun us => !runKept same us && us.contains u
      let runShared (k : Nat) : Bool := share && runKept same (runUnits (runAt ns k).1 (runAt ns k).2.length)
      let bxs (n : BNode) : List (Option Box3) := n.slots.map (slotBox boxes)
      let node (i : Nat) (n : BNode) (word : Nat → BSlot → Nat) : ANode :=
        quantise (bxs n) (((List.range n.slots.length).zip n.slots).map fun e => word (i * 8 + e.1) e.2) (mapGetD prims i 0)
      -- sharing of internal nodes, from the leaves upward
      let oldWord (_ : Nat) : BSlot → Nat
        | .empty => 0
        | .inner i => wordInner (((ns[i]?).bind (·.unit)).getD 0)
        | .run off bs => wordRun off bs.length
      let shared : FMap Bool := (backward ns).foldl (fun m e => match e.2.unit with
        | none => m
        | some u =>
          let kids := ((List.range e.2.slots.length).zip e.2.slots).all fun x => match x.2 with
            | .empty => true
            | .inner i => mapGetD m i false
            | .run _ _ => runShared (e.1 * 8 + x.1)
          if share && kids && w.inGen u h.cur && nodeBytes (node e.1 e.2 oldWord) == e.2.raw then mapSet m e.1 true else m) []
      let fresh := (List.range ns.length).filter fun i => !mapGetD shared i false
      let nb := keys.foldl (fun a k => a + (runAt ns k).2.length) 0
      match w.alloc (1 + fresh.length + (if share then rewr.length else (nb + 1) / 2)) with
      | .error e => .error e
      | .ok base =>
        let pos (l : List Nat) (x : Nat) : Nat := (l.findIdx? (· == x)).getD 0
        let unitOf (i : Nat) : Nat := if mapGetD shared i false then ((ns[i]?).bind (·.unit)).getD 0 else base + 1 + pos fresh i
        let blk0 := base + 1 + fresh.length
        let offOf (k : Nat) : Nat :=
          if share then
            let o := (runAt ns k).1
            if runShared k then o else 2 * (blk0 + pos rewr (o / 2)) + o % 2
          else 2 * blk0 + (keys.takeWhile (· != k)).foldl (fun a x => a + (runAt ns x).2.length) 0
        let word (k : Nat) : BSlot → Nat
          | .empty => 0
          | .inner i => wordInner (unitOf i)
          | .run _ bs => wordRun (offOf k) bs.length
        let qs := ((List.range ns.length).zip ns).map fun e => node e.1 e.2 word
        let rc : ARec :=
          { root := if ns.isEmpty then 0 else wordInner (unitOf 0), prims := nb, count := count, first := first,
            qual := qualityOf ns qs skipped ticks }
        let blocks := keys.flatMap fun k => (runAt ns k).2.flatMap blockBytes
        let leafs := if share then ((List.range rewr.length).zip rewr).map fun e => (blk0 + e.1, mapGetD cont e.2 [])
          else (List.range ((nb + 1) / 2)).map fun i => (blk0 + i, sliceBytes blocks (128 * i) 128)
        let nodes := fresh.map fun i => (unitOf i, nodeBytes ((qs[i]?).getD (quantise [] [] 0)))
        .ok ({ w with new := (base, recordBytes rc) :: nodes ++ leafs,
                      mine := base :: nodes.map (·.1) ++ leafs.map (·.1) ++ keep ++
                        ((List.range ns.length).filter fun i => mapGetD shared i false).map unitOf }, base)

/-- Put a run in place of any staged generation (R341). -/
def stageRun (w : Work) (recUnit : Nat) : Work :=
  let s := w.h.cur + 1
  let old := w.mp.filter fun e => e.2 == (s, 0)
  let mp := w.new.foldl (fun m e => mapSet m e.1 (s, 0)) (w.mp.filter fun e => e.2 != (s, 0))
  { w with mp := mp, h := { w.h with free := (w.h.free + old.length + 2 ^ 32 - w.new.length) % 2 ^ 32, staged := s, stagerec := recUnit } }

/-- A further publication would make 17 generations live, or finds no unused entry. -/
def gensFull (h : AHdr) : Bool := decide (16 ≤ h.live) || !(h.gens.any fun e => e.gen == 0)

/-- Publish the staged generation, whose units are `w.mine` (R341). -/
def publishGen (w : Work) : Except BStop (Work × Nat) :=
  let h := w.h
  let s := h.staged
  if s = 0 then .error (.fail 8 0)
  else if gensFull h then .error (.fail 9 0)
  else
    let i := (h.gens.findIdx? (·.gen == 0)).getD 0
    let mp := w.mp.map fun e => (e.1, if h.cur != 0 && w.inGen e.1 h.cur && !w.mine.contains e.1 then (e.2.1, s) else e.2)
    .ok ({ w with mp := mp, h := { h with gens := setAt h.gens i { gen := s, rec_ := h.stagerec, pins := 0 }, staged := 0,
                                          stagerec := 0, live := h.live + 1, cur := s } }, s)

/-! ### The functions (R232) -/

/-- What a request leaves: the work to write, an output record for AUX, and its result fields. -/
structure BOut where
  w : Work
  aux : Option (List Byte) := none
  outgen : Nat := 0
  detail : Nat := 0
  skipped : Nat := 0
  /-- ASRECL waits for traversals of generations up to this one to end (R343). -/
  hold : Option Nat := none
  deriving DecidableEq, Repr

/-- Parameters of the triangle array (R231, R233). -/
def badParams (q : BReq) : Bool :=
  decide (q.count < 1) || decide (2 ^ 28 < q.count) || q.stride % 4 != 0 || decide (q.stride < 36) || decide (2 ^ 32 < q.first + q.count)

/-- Triangle i of the array at `base`. -/
def readTri (rd : Reader) (q : BReq) (base i : Nat) : Except BStop (List Nat) :=
  match rd.read ((base + i * q.stride) % 2 ^ 64) 36 with
  | .error e => .error (bstop e)
  | .ok bs => .ok ((List.range 9).map fun k => fieldAt bs (4 * k) 4)

def readTris (rd : Reader) (q : BReq) (base : Nat) : Nat → Nat → Except BStop (List (List Nat))
  | 0, _ => .ok []
  | n + 1, i => both List.cons (readTri rd q base i) (readTris rd q base n (i + 1))

/-- 1 non-finite, 2 zero-area, 0 usable (R349). -/
def triClass (v : List Nat) : Nat :=
  if !v.all finite32 then 1
  else
    let p := v3Of v 0
    if vcross (vsub (v3Of v 3) p) (vsub (v3Of v 6) p) = (0, 0, 0) then 2 else 0

/-- Stage nodes, and publish them at once where PUBL asks for it (R232, R233). -/
def stageOut (rd : Reader) (q : BReq) (w : Work) (ns : List BNode) (share : Bool) (count first skipped : Nat) : Except BStop BOut :=
  if q.publ ∧ gensFull w.h then .error (.fail 9 0)
  else match emitGen rd w ns share count first skipped (rd.s.tb - q.start) with
    | .error e => .error e
    | .ok (w, base) =>
      let n := w.h.cur + 1
      let w := stageRun w base
      if !q.publ then .ok { w := w, outgen := n, skipped := skipped }
      else match publishGen w with
        | .error e => .error e
        | .ok (w, g) => .ok { w := w, outgen := g, skipped := skipped }

/-- The position of the first triangle that fails the request (R233, R349). -/
def degenerate (q : BReq) (ts : List (List Nat)) : Option Nat := if q.skip then none else ts.findIdx? fun v => triClass v == 1

/-- The block of triangle i, none where it is skipped (R233, R349). -/
def pickTri (q : BReq) (geom : Nat) (ts : List (List Nat)) (i : Nat) : Option ABlock :=
  (ts[i]?).bind fun v => if triClass v = 0 then some { v := v, prim := q.first + i, geom := geom } else none

def skippedOf (ts : List (List Nat)) : Nat := (ts.filter fun v => triClass v != 0).length

/-- The nodes of a free-shaped tree over blocks (R8, R345). -/
def freeNodes (k : Nat) (bs : List ABlock) : List BNode :=
  if bs.isEmpty then [] else layNodes (fun i => bs[i]?) (bs.length + 1) [freeTree k bs.length 0 bs.length] 1 []

/-- The header and pool map, with the further reads of a request whose parameters are right (R233). -/
def openWith {α : Type} (rd : Reader) (q : BReq) (more : Except BStop α) : Except BStop (Work × α) :=
  let m : Except BStop α := if badParams q then .error (.fail 6 0xFFFFFFFF) else more
  both Prod.mk (openWork rd q.hdr) m

/-- ASBUILD (R232, R345). -/
def doBuild (rd : Reader) (q : BReq) : Except BStop BOut :=
  match openWith rd q (readTris rd q q.src q.count 0) with
  | .error e => .error e
  | .ok (w, ts) => match degenerate q ts with
    | some i => .error (.fail 7 (q.first + i))
    | none => stageOut rd q w (freeNodes rd.s.fresh ((List.range q.count).filterMap (pickTri q 0 ts))) false q.count q.first
        (skippedOf ts)

/-- The record and nodes of a live generation, with its entry. -/
def openGen (rd : Reader) (w : Work) (g : Nat) : Except BStop (Nat × ARec × List BNode) :=
  match w.h.entry? g with
  | none => .error (.fail 5 0)
  | some e => match readRecord rd w g e.rec_ with
    | .error x => .error x
    | .ok rc => match parseGen rd w g rc with
      | .error x => .error x
      | .ok ns => .ok (e.rec_, rc, ns)

/-- The primitive indices of the blocks of nodes, from left to right. -/
def blocksOf (ns : List BNode) : List ABlock := (runsOf ns).flatMap fun k => (runAt ns k).2

/-- The new vertices of every block (R348): block index, vertices, and whether it is skipped. -/
def refitTris (rd : Reader) (q : BReq) : List ABlock → Except BStop (List (Nat × List Nat))
  | [] => .ok []
  | b :: bs => both (fun t ts => (b.prim, t) :: ts) (readTri rd q q.src (b.prim - q.first)) (refitTris rd q bs)

def refitBlock (ts : FMap (List Nat)) (b : ABlock) : ABlock := match mapGet? ts b.prim with
  | some v => if triClass v = 0 then { b with v := v } else b
  | none => b

/-- The lowest of some numbers. -/
def lowest : List Nat → Option Nat
  | [] => none
  | n :: ns => some (ns.foldl (fun a b => if b < a then b else a) n)

/-- ASREFIT (R232, R348). -/
def doRefit (rd : Reader) (q : BReq) : Except BStop BOut :=
  match openWork rd q.hdr with
  | .error e => .error e
  | .ok w => match openGen rd w q.gen with
    | .error e => .error e
    | .ok (_, rc, ns) =>
      let bs := blocksOf ns
      if badParams q then .error (.fail 6 0xFFFFFFFF)
      else if q.count ≠ rc.count ∨ bs.any (fun b => decide (b.prim < q.first) || decide (q.first + q.count ≤ b.prim)) = true then
        .error (.fail 6 0)
      else match refitTris rd q bs with
        | .error e => .error e
        | .ok ts =>
          match lowest (if q.skip then [] else (ts.filter fun t => triClass t.2 == 1).map (·.1)) with
          | some p => .error (.fail 7 p)
          | none =>
            let m := ts.foldl (fun m t => mapSet m t.1 t.2) []
            let ns := ns.map fun n =>
              let slots := n.slots.map fun sl => match sl with
                | .run off bs => BSlot.run off (bs.map (refitBlock m))
                | sl => sl
              { n with slots := slots }
            stageOut rd q w ns true rc.count rc.first (skippedOf (ts.map (·.2)))

/-- ASREBAL (R232, R345): of the current generation's blocks, which a program store may have changed (R344), a non-finite one fails the
request or is skipped, and a zero-area one is skipped (R233, R349). -/
def doRebal (rd : Reader) (q : BReq) : Except BStop BOut :=
  match openWork rd q.hdr with
  | .error e => .error e
  | .ok w => match openGen rd w w.h.cur with
    | .error e => .error e
    | .ok (_, rc, ns) =>
      let bs := blocksOf ns
      match lowest (if q.skip then [] else (bs.filter fun b => triClass b.v == 1).map (·.prim)) with
      | some p => .error (.fail 7 p)
      | none => stageOut rd q w (freeNodes rd.s.fresh (bs.filter fun b => triClass b.v == 0)) false rc.count rc.first
          (skippedOf (bs.map (·.v)))

/-! ### The radix tree of ASIMPORT (R346) -/

/-- A tree node: its words and its box. -/
structure RNode where
  l  : Nat
  r  : Nat
  lo : List Nat
  hi : List Nat
  deriving DecidableEq, Repr

def readNodes (rd : Reader) (base : Nat) : Nat → Nat → Except BStop (List RNode)
  | 0, _ => .ok []
  | n + 1, i => both (fun bs ns => { l := fieldAt bs 0 4, r := fieldAt bs 4 4, lo := (List.range 3).map fun k => fieldAt bs (8 + 4 * k) 4,
                                     hi := (List.range 3).map fun k => fieldAt bs (20 + 4 * k) 4 } :: ns)
      (liftB (rd.read ((base + 32 + 32 * i) % 2 ^ 64) 32)) (readNodes rd base n (i + 1))

/-- An F32 pattern is not NaN. -/
def isNum (x : Nat) : Bool := match decodeF .f32 x with
  | .nan => false
  | _ => true

/-- Ordered comparison of F32 patterns. -/
def f32Le (x y : Nat) : Bool := isNum x && isNum y && (x == y || extLe (extF32 x) (extF32 y))

/-- A tree word names something in range. -/
def wordOk (n : Nat) (w : Nat) : Bool := bits w 30 28 == 0 && (if bit w 31 then decide (bits w 27 0 < n) else decide (bits w 27 0 + 1 < n))

/-- Names of a word in a list of words. -/
def named (ws : List Nat) (w : Nat) : Nat := (ws.filter (· == w)).length

/-- The box of a node contains what one of its words names. -/
def boxHolds (ns : List RNode) (ts : List (List Nat)) (k : RNode) (w : Nat) : Bool :=
  let inBox (lo hi : List Nat) : Bool := (List.range 3).all fun a => f32Le (nthN k.lo a) (nthN lo a) && f32Le (nthN hi a) (nthN k.hi a)
  if bit w 31 then
    let v := (ts[bits w 27 0]?).getD []
    (List.range 3).all fun p =>
      let x := (v.drop (3 * p)).take 3
      !x.all finite32 || inBox x x
  else match ns[bits w 27 0]? with
    | none => false
    | some c => inBox c.lo c.hi

/-- Tree node i fails (R346). -/
def nodeFails (root n : Nat) (ns : List RNode) (ts : List (List Nat)) (i : Nat) (k : RNode) : Bool :=
  let ws := root :: ns.flatMap fun x => [x.l, x.r]
  !(wordOk n k.l && wordOk n k.r && named ws i == 1 && k.l != i && k.r != i &&
    [k.l, k.r].all (fun w => !bit w 31 || named ws w == 1) && [k.l, k.r].all (boxHolds ns ts k))

/-- The binary tree below a word. -/
def treeOf (ns : List RNode) : Nat → Nat → BTree
  | 0, w => .tri (bits w 27 0)
  | fuel + 1, w => if bit w 31 then .tri (bits w 27 0) else match ns[bits w 27 0]? with
    | none => .tri 0
    | some k => .node (treeOf ns fuel k.l) (treeOf ns fuel k.r)

/-- ASIMPORT (R232, R346, R347). -/
def doImport (rd : Reader) (q : BReq) : Except BStop BOut :=
  match openWith rd q (both Prod.mk (liftB (rd.read q.src 32)) (both Prod.mk (readNodes rd q.src (q.count - 1) 0) (readTris rd q q.aux q.count 0))) with
  | .error e => .error e
  | .ok (w, hd, ns, ts) =>
        let root := fieldAt hd 0 4
        if fieldAt hd 8 24 ≠ 0 ∨ wordOk q.count root = false ∨ bit root 31 ≠ decide (q.count = 1) then .error (.fail 6 0xFFFFFFFF)
        else match ((List.range ns.length).zip ns).find? fun e => nodeFails root q.count ns ts e.1 e.2 with
          | some e => .error (.fail 6 e.1)
          | none => match degenerate q ts with
            | some i => .error (.fail 7 (q.first + i))
            | none => stageOut rd q w (layNodes (pickTri q (fieldAt hd 4 4) ts) q.count [treeOf ns q.count root] 1 [])
                false q.count q.first (skippedOf ts)

/-! ### Publication, state, quality, reclamation (R232, R341, R343) -/

/-- ASPUBL. -/
def doPubl (rd : Reader) (q : BReq) : Except BStop BOut :=
  match openWork rd q.hdr with
  | .error e => .error e
  | .ok w =>
    if w.h.staged = 0 then .error (.fail 8 0)
    else match readRecord rd w w.h.staged w.h.stagerec with
      | .error e => .error e
      | .ok rc => match parseGen rd w w.h.staged rc with
        | .error e => .error e
        | .ok ns => match publishGen { w with mine := genUnits w.h.stagerec ns } with
          | .error e => .error e
          | .ok (w, g) => .ok { w := w, outgen := g }

/-- ASSTAT: the header state record. -/
def doStat (rd : Reader) (q : BReq) : Except BStop BOut :=
  match openWork rd q.hdr with
  | .error e => .error e
  | .ok w =>
    let h := w.h
    let live := (h.gens.map (·.gen)).filter (· != 0)
    let oldest := match live with
      | [] => 0
      | g :: gs => gs.foldl (fun a b => if b < a then b else a) g
    .ok { w := w, aux := some ([h.cur, h.staged, h.live, oldest, h.free, h.units, 0, 0].flatMap (leBytes 4)) }

/-- ASQUAL: the quality record of a generation. -/
def doQual (rd : Reader) (q : BReq) : Except BStop BOut :=
  match openWork rd q.hdr with
  | .error e => .error e
  | .ok w => match w.h.entry? q.gen with
    | none => .error (.fail 5 0)
    | some e => match readRecord rd w q.gen e.rec_ with
      | .error x => .error x
      | .ok rc => .ok { w := w, aux := some (rc.qual.flatMap (leBytes 4)) }

/-- The bound h of ASRECL (R232). -/
def reclaimTo (h : AHdr) (g : Nat) : Nat :=
  let top := if g < h.cur - 1 then g else h.cur - 1
  match (h.gens.filter fun e => e.gen != 0 && decide (e.gen ≤ top) && e.pins != 0).map (·.gen) with
  | [] => top
  | p :: ps => ps.foldl (fun a b => if b < a then b else a) p - 1

/-- Two headers, each of a context, are one (R234). -/
def sameHeader (s : State) (x y : Context) (a b : Nat) : Bool :=
  (x.num == y.num && a == b) || (match engXlate s x a .engRead, engXlate s y b .engRead with
    | .ok p, .ok q => p == q
    | _, _ => false)

/-- A traversal that began on a generation of a header up to `top` has not ended (R229, R343). -/
def traversed (s : State) (x : Context) (hdr top : Nat) : Bool :=
  s.groups.any fun g => g.2.ops.any fun o => !o.done && o.vals.isEmpty && o.begun.any fun b =>
    decide (b.gen ≤ top) && sameHeader s x (ctxOf s g.1) hdr b.hdr

/-- ASRECL (R232, R343): the entries are cleared, and where a traversal goes on below them the units stay until it ends. -/
def doRecl (rd : Reader) (q : BReq) : Except BStop BOut :=
  match openWork rd q.hdr with
  | .error e => .error e
  | .ok w =>
    let h := w.h
    let top := q.cleared.getD (reclaimTo h q.gen)
    let dead (e : GenE) : Bool := e.gen != 0 && decide (e.gen ≤ top)
    let gone (r : Nat) : Bool := r != 0 && decide (r ≤ top + 1)
    let h1 := { h with gens := h.gens.map fun e => if dead e then { gen := 0, rec_ := 0, pins := 0 } else e,
                       live := h.live - (h.gens.filter dead).length }
    if traversed rd.s rd.x q.hdr top then .ok { w := { w with h := h1 }, hold := some top }
    else
      let n := (w.mp.filter fun e => gone e.2.2).length
      .ok { detail := n, w := { w with mp := w.mp.filter fun e => !gone e.2.2, h := { h1 with free := (h.free + n) % 2 ^ 32 } } }

/-- A request's function. -/
def doRequest (rd : Reader) (q : BReq) : Except BStop BOut := match q.fn with
  | 0 => doBuild rd q
  | 1 => doRefit rd q
  | 2 => doRebal rd q
  | 3 => doImport rd q
  | 4 => doPubl rd q
  | 5 => doStat rd q
  | 6 => doQual rd q
  | _ => doRecl rd q

/-! ### Completion (R231, R233, R234) -/

def hdrBytes (h : AHdr) : List Byte :=
  leBytes 4 h.magic ++ leBytes 4 h.cur ++ leBytes 8 h.pool ++ leBytes 4 h.units ++ leBytes 4 h.free ++ leBytes 4 h.staged ++
    leBytes 4 h.stagerec ++ leBytes 4 h.live ++ leBytes 28 h.rsv ++
    h.gens.flatMap fun e => leBytes 4 e.gen ++ leBytes 4 e.rec_ ++ leBytes 4 e.pins

/-- The writes of a request to its structure: new units, changed map entries, changed header words, CUR last. -/
def workWrites (w0 w : Work) (hdr : Nat) : List (Nat × List Byte) :=
  let entry (m : FMap (Nat × Nat)) (u : Nat) := mapGetD m u (0, 0)
  let keys := dedupN (w0.mp.map (·.1) ++ w.mp.map (·.1))
  let words (bs : List Byte) : List (List Byte) := (List.range 64).map fun i => sliceBytes bs (4 * i) 4
  let hd := ((List.range 64).zip ((words (hdrBytes w0.h)).zip (words (hdrBytes w.h)))).filter fun e => e.2.1 != e.2.2
  w.new.map (fun e => (w.h.unitVa e.1, e.2)) ++
    (keys.filter fun u => entry w0.mp u != entry w.mp u).map
      (fun u => (w.h.pool + 8 * u, leBytes 4 (entry w.mp u).1 ++ leBytes 4 (entry w.mp u).2)) ++
    ((hd.filter fun e => e.1 != 1) ++ hd.filter fun e => e.1 == 1).map fun e => (hdr + 4 * e.1, e.2.2)

/-- The pages of a list of writes that fail. -/
def writeFails (s : State) (x : Context) (ws : List (Nat × List Byte)) : List (Nat × XFail) :=
  ws.flatMap fun w => (pagePieces w.1 w.2.length).filterMap fun p => match engXlate s x p.1 .engWrite with
    | .error f => some (p.1, f)
    | .ok _ => none

/-- Why a write of a request to its structure stops it (R233, R303). -/
def writeStop (failed : List Nat) (e : Nat × XFail) : BStop :=
  if !isPageFail e.2 then .fail 2 0 else if waitsReply e.2 && failed.isEmpty then .page e.1 e.2 .engWrite else .fail 1 0

/-- The result of a request and the writes to its structure. -/
def requestOut (s : State) (q : BReq) (failed : List Nat) : Except BStop (BOut × List (Nat × List Byte)) :=
  let x := getCtx s q.ctx
  let rd : Reader := { s := s, x := x, failed := failed }
  match doRequest rd q, openWork rd q.hdr with
  | .error e, _ => .error e
  | _, .error e => .error e
  | .ok o, .ok w0 =>
    let ws := workWrites w0 o.w q.hdr
    match (writeFails s x ws).map (writeStop failed) with
    | [] => .ok (o, ws)
    | e :: es => .error (es.foldl BStop.first e)

/-- The sources that a request reads beside its structure (R231). -/
def sourceReads (rd : Reader) (q : BReq) : List (Nat × Nat) :=
  let tri (base i : Nat) : Nat × Nat := ((base + i * q.stride) % 2 ^ 64, 36)
  if badParams q then []
  else match q.fn with
    | 0 => (List.range q.count).map (tri q.src)
    | 1 => match openWork rd q.hdr with
      | .error _ => []
      | .ok w => match openGen rd w q.gen with
        | .error _ => []
        | .ok (_, _, ns) => (blocksOf ns).map fun b => tri q.src (b.prim - q.first)
    | 3 => (q.src, 32 * q.count) :: (List.range q.count).map (tri q.aux)
    | _ => []

/-- What a request reads: its header, the pool map, the units of the generation that it works on, and its sources. Each read sets A in
the leaf that maps it (R293). -/
def requestReads (rd : Reader) (q : BReq) : List (Nat × Nat) :=
  (q.hdr, 256) :: match openWork rd q.hdr with
    | .error _ => []
    | .ok w =>
      let gen (g : Nat) : List (Nat × Nat) := match w.h.entry? g with
        | some e => genReads rd w.h e.rec_ fun _ _ => true
        | none => []
      (w.h.pool, 8 * w.h.units) :: sourceReads rd q ++ match q.fn with
        | 1 => gen q.gen
        | 2 => gen w.h.cur
        | 4 => if w.h.staged = 0 then [] else genReads rd w.h w.h.stagerec fun _ _ => true
        | 6 => match w.h.entry? q.gen with
          | some e => [(w.h.unitVa e.rec_, 128)]
          | none => []
        | _ => []

/-- The reads of a request set A (R293). -/
def markRequest (s : State) (q : BReq) (failed : List Nat) : State :=
  let x := getCtx s q.ctx
  markReads s x (requestReads { s := s, x := x, failed := failed } q)

/-- A request waits for a page (R231, R303). -/
def builderWait (s : State) (q : BReq) (va : Nat) (f : XFail) (a : Acc) : State :=
  modGroup (raiseFault s (getCtx s q.ctx) va f a (dieOf s q.gid)) q.gid fun g =>
    g.modOp q.op fun o => { o with flt := some (faultPage va, f.cause) }

/-- The writes of a completed request, through the translation of its context. -/
def requestWrites (s : State) (x : Context) (ws : List (Nat × List Byte)) : State := ws.foldl (fun s w => engWrite s x w.1 w.2) s

/-- The operation of a completed request completes. -/
def endRequest (s : State) (q : BReq) : State := finishOpS (acquired s q.gid .package) q.gid q.op

/-- Record in the builder that serves a request how far it is; its pages that a reply failed are dealt with. -/
def keepRequest (s : State) (q : BReq) (f : BReq → BReq) : State :=
  modGroup { s with dies := s.dies.map fun d => (d.1, { d.2 with serving := d.2.serving.map fun e =>
      if e.2.gid == q.gid && e.2.op == q.op then (e.1, f e.2) else e }) } q.gid fun g => g.modOp q.op fun o => { o with failed := [] }

/-- The writes of a request's result: its block's result fields and its output record. An output record whose write is not permitted,
or on a page that is lost or not canonical, is left out, and that is the request's status (R231, R233). -/
def blockWrites (s : State) (q : BReq) (x : Context) (r : BRes) : List (Nat × List Byte) :=
  let stops := match r.aux with
    | some bs => ((writeFails s x [(q.aux, bs)]).filter fun e => !waitsReply e.2).map (writeStop [])
    | none => []
  let blk (st : Nat) : Nat × List Byte := (q.block + 44, leBytes 4 st ++ leBytes 4 r.outgen ++ leBytes 4 r.detail ++ leBytes 4 r.skipped)
  match stops with
  | e :: es => [blk (es.foldl BStop.first e).rank]
  | [] => blk r.status :: (match r.aux with
    | some bs => [(q.aux, bs)]
    | none => [])

/-- The result of a request is written, then BUILD: where a write fails it waits for its reply, and where the reply failed, or no
reply is awaited, the fields and the record are left undone (R231, R303). -/
def leaveBlock (s : State) (q : BReq) (x : Context) (failed : List Nat) (outs : List (Nat × List Byte)) : Except State State :=
  match writeFails s x outs with
  | [] => if failed.isEmpty then .ok (endRequest (requestWrites s x outs) q) else .ok (endRequest s q)
  | es => match es.find? fun e => waitsReply e.2 with
    | some (va, f) => if failed.isEmpty then .error (builderWait s q va f .engWrite) else .ok (endRequest s q)
    | none => .ok (endRequest s q)

/-- A request whose structure is written leaves its result; one that waits for it remembers it. -/
def leaveRequest (s : State) (q : BReq) (x : Context) (r : BRes) (ws : List (Nat × List Byte)) : Except State State :=
  let s := requestWrites s x ws
  match leaveBlock s q x [] (blockWrites s q x r) with
  | .ok t => .ok t
  | .error t => .error (keepRequest t q fun q => { q with res := some r })

/-- Complete a request: its structure, then its result fields and output record, then BUILD. An error holds the state where it
waits. -/
def finishRequest (s : State) (q : BReq) : Except State State :=
  let x := getCtx s q.ctx
  let o? := (getGroup s q.gid).op? q.op
  let failed := (o?.map (·.failed)).getD []
  if ((o?.bind (·.flt)).isSome) then .error s
  else match q.res with
    | some r => leaveBlock s q x failed (blockWrites s q x r)
    | none => match requestOut s q failed with
      | .error (.page va f a) => .error (builderWait s q va f a)
      | .error (.fail st dt) => leaveRequest (markRequest s q failed) q x { status := st, detail := dt } []
      | .ok (o, ws) =>
        let s := markRequest s q failed
        if o.hold.isSome then .error (keepRequest (requestWrites s x ws) q fun q => { q with cleared := o.hold })
        else leaveRequest s q x { status := if o.skipped = 0 then 0 else 0x0B, outgen := o.outgen, detail := o.detail, skipped := o.skipped, aux := o.aux } ws

/-- Two requests name one header. -/
def sameReq (s : State) (a b : BReq) : Bool := sameHeader s (getCtx s a.ctx) (getCtx s b.ctx) a.hdr b.hdr

/-- A request must wait for its header's page (R303, R344). -/
def headerMissing (s : State) (q : BReq) : Option XFail :=
  let o? := (getGroup s q.gid).op? q.op
  match engXlate s (getCtx s q.ctx) q.hdr .engRead with
  | .error f => if waitsReply f && ((o?.map (·.failed)).getD []).isEmpty then some f else none
  | .ok _ => none

/-- Another die now homes a request's header: its queue takes the request (R344). -/
def forwardDie (s : State) (d : Nat) (q : BReq) : Option Nat := match engXlate s (getCtx s q.ctx) q.hdr .engRead with
  | .ok _ => (let h := builderDie s (getCtx s q.ctx) q.hdr
    if h = d then none else some h)
  | .error _ => none

/-- A request is a group's earlier one on the header of another (R234). -/
def before (s : State) (a b : BReq) : Bool := a.gid == b.gid && decide (a.op < b.op) && sameReq s a b

/-- No builder serves a queued request's header, and no older request of the queue, nor an earlier one of its group on any die, names
it. -/
def mayServe (s : State) (d : Nat) (q : BReq) : Bool :=
  !(s.dies.any fun e => e.2.bq.any fun b => before s b q) &&
  !(s.dies.any fun e => e.2.serving.any fun b => sameReq s b.2 q) && !(((getDie s d).bq.takeWhile (· != q)).any fun b => sameReq s b q)

/-- The oldest queued request of a die whose header is there, is homed there, and is not served (R344). -/
def nextRequest (s : State) (d : Nat) : Option BReq :=
  ((getDie s d).bq.take 64).find? fun q => mayServe s d q && (headerMissing s q).isNone && (forwardDie s d q).isNone

/-- A request joins a queue, ahead of its group's later ones on the header (R234). -/
def joinQueue (s : State) (bq : List BReq) (q : BReq) : List BReq :=
  bq.takeWhile (fun b => !before s q b) ++ q :: bq.dropWhile fun b => !before s q b

/-- A queued request moves to the queue of the die that now homes its header, or reports its header's missing page (R301, R344). -/
def forwardRequest (s : State) (d : Nat) : State :=
  match ((getDie s d).bq.take 64).find? fun q => (forwardDie s d q).isSome with
  | some q => match forwardDie s d q with
    | some h => modDie (modDie s d fun x => { x with bq := x.bq.erase q }) h fun x => { x with bq := joinQueue s x.bq q }
    | none => s
  | none => match ((getDie s d).bq.take 64).find? fun q => mayServe s d q && (headerMissing s q).isSome && (((getGroup s q.gid).op? q.op).bind (·.flt)).isNone with
    | some q => match headerMissing s q with
      | some f => builderWait s q q.hdr f .engRead
      | none => s
    | none => s

/-- A builder of a die takes a request (R344). -/
def dispatchRequest (s : State) (d k : Nat) : Option State :=
  if (mapGet? (getDie s d).serving k).isSome then none
  else (nextRequest s d).map fun q =>
    modDie { s with fresh := s.fresh + 1 } d fun x => { x with bq := x.bq.erase q, serving := mapSet x.serving k { q with start := s.tb } }

/-- The request that a builder serves completes (R344). -/
def completeRequest (s : State) (d k : Nat) : Option State := (mapGet? (getDie s d).serving k).map fun q =>
  match finishRequest s q with
  | .error s => s
  | .ok s => modDie { s with fresh := s.fresh + 1 } d fun x => { x with serving := mapErase x.serving k }

/-! ### Meanings -/

def execAsbuild (a : Nat) (f : Option Nat) (s : State) : Host.Outcome State Fault Refusal := .next (issueOne (semAsbuild a f) s)
def execAsrefit (a : Nat) (f : Option Nat) (s : State) : Host.Outcome State Fault Refusal := .next (issueOne (semAsrefit a f) s)
def execAsrebal (a : Nat) (f : Option Nat) (s : State) : Host.Outcome State Fault Refusal := .next (issueOne (semAsrebal a f) s)
def execAsimport (a : Nat) (f : Option Nat) (s : State) : Host.Outcome State Fault Refusal := .next (issueOne (semAsimport a f) s)
def execAspubl (a : Nat) (f : Option Nat) (s : State) : Host.Outcome State Fault Refusal := .next (issueOne (semAspubl a f) s)
def execAsstat (a : Nat) (f : Option Nat) (s : State) : Host.Outcome State Fault Refusal := .next (issueOne (semAsstat a f) s)
def execAsqual (a : Nat) (f : Option Nat) (s : State) : Host.Outcome State Fault Refusal := .next (issueOne (semAsqual a f) s)
def execAsrecl (a : Nat) (f : Option Nat) (s : State) : Host.Outcome State Fault Refusal := .next (issueOne (semAsrecl a f) s)

end Sys2Proof.Machine
end

