-- ==== Sys2Proof/Machine/Control.lean ====
section
/-! DEFINITION. Control-flow instructions, majors 0x28 to 0x36, on the C pipe (R50, R51, R100 to R114). -/
namespace Sys2Proof.Machine

open Sys2Proof

/-- BlockTarget of R50: the block of the word at `p`, displaced by `o` blocks. -/
def blockTarget (p : Nat) (o : Int) : Nat := wrapN (((p - p % 64 : Nat) : Int) + o * 64) 64

/-- The divergence stack of the group is full (R25). -/
def stackFull (s : State) (c : Ctx) : Bool := decide ((lrecOf s c.gid).d ≤ c.g.stack.length)

/-- The other slot holds a path, so that a moved path spills (R102). -/
def spills (c : Ctx) : Bool := (c.g.slot (otherSlot c.sl)).st != .free

def setPc (c : Ctx) (pc : Nat) (s : State) : State := modSlot s c.gid c.sl fun v => { v with pc := pc }

/-- The cause of a push that finds the stack full, reported for the leader lane (R25, R102). -/
def fullCause (s : State) (c : Ctx) (pushes : Bool) (L : Nat) : Option Cause :=
  if leaderOf c.mask = some L ∧ pushes ∧ stackFull s c then some { code := tDivstack } else none

/-! ### BR (R103) -/

def brTaken (c : Ctx) (v : Src) : Mask := maskOf fun L => c.mask.getLsbD L && c.get32 v L != 0

/-- The branch splits the slot's lanes. -/
def brSplits (c : Ctx) (v : Src) : Bool := brTaken c v != 0 && brTaken c v != c.mask

/-- The outcome is not fixed by the encoding (R399). -/
def brTraced : Src → Bool
  | .reg _ => true
  | .lane => true
  | .grp => true
  | _ => false

def semBr (v : Src) (o : Int) : Sem :=
  { pipe := 4, reads := srcRegs v,
    lane := fun s c L => fullCause s c (brSplits c v && spills c) L,
    push := fun _ c => brSplits c v && spills c,
    eff := fun c s =>
      let t := brTaken c v
      let tgt := blockTarget c.wpc o + 4
      if brSplits c v then
        emitDiv c.g (diverge c (c.mask &&& ~~~t) c.next t tgt s) c.gid c.sl (spills c) false t none
      else
        let s := if t = 0 then s else setPc c tgt s
        if brTraced v then emitBr c.g s c.gid c.sl (t != 0) else s }

/-! ### BRV, CALLV, RET (R104) and CALL (R105) -/

/-- The address of the fetch block after the block of a word (R51). -/
def linkOf (c : Ctx) : Nat := c.wpc - c.wpc % 64 + 64

/-- The lanes whose target is the leader's. -/
def sameTarget (c : Ctx) (p : Nat) : Mask := maskOf fun L => c.mask.getLsbD L && c.v64 p L == c.v64 p c.lead

def indSplits (c : Ctx) (p : Nat) : Bool := sameTarget c p != c.mask

/-- A transfer to the targets in pair p, one at a time. -/
def semIndirect (p : Nat) (link : Bool) : Sem :=
  { pipe := 4, reads := [p, p + 1], writes := if link then [0, 1] else [], wl := fun c L => (sameTarget c p).getLsbD L,
    lane := fun s c L =>
      if c.v64 p L % 64 ≠ 0 then some { code := tTargetAlign, addr := c.v64 p L }
      else if c.lanes.any fun K => c.v64 p K % 64 != 0 then none
      else fullCause s c (indSplits c p && spills c) L,
    push := fun _ c => indSplits c p && spills c,
    eff := fun c s =>
      let g := sameTarget c p
      let tgt := c.v64 p c.lead + 4
      let s := if link then putNow { c with act := g } ({ c with act := g }.out64 0 fun _ => linkOf c) s else s
      if indSplits c p then
        let moved := c.mask &&& ~~~g
        emitDiv c.g (diverge c g tgt moved c.pc s) c.gid c.sl (spills c) false moved (some tgt)
      else emitBrX c.g (setPc c tgt s) c.gid c.sl tgt }

def semBrv (v : Nat) : Sem := semIndirect v false
def semCallv (a : Nat) : Sem := semIndirect a true
def semRet (a : Nat) : Sem := semIndirect a false

def semCall (o : Int) : Sem :=
  { pipe := 4, writes := [0, 1],
    eff := fun c s => setPc c (blockTarget c.wpc o + 4) (putNow c (c.out64 0 fun _ => linkOf c) s) }

/-! ### SPLIT and JOIN (R25, R26, R106) -/

def semSplit (o : Int) : Sem :=
  { pipe := 4,
    pre := fun s c => if stackFull s c || (c.g.slot c.sl).jd == 255 then some { code := tDivstack } else none,
    push := fun _ _ => true,
    eff := fun c s =>
      let v := c.g.slot c.sl
      modSlot (pushEntry s c.gid { mask := 0, pc := 0, ja := v.ja, jd := v.jd }) c.gid c.sl fun v =>
        { v with ja := blockTarget c.wpc o + 4, jd := v.jd + 1 } }

def semJoin : Sem :=
  { pipe := 4,
    pre := fun _ c => if c.pc ≠ (c.g.slot c.sl).ja ∨ (c.g.slot c.sl).jd = 0 then some { code := tDivstack } else none,
    eff := fun c s => modSlot s c.gid c.sl fun v => { v with st := .join, pc := c.pc, jnext := c.next } }

/-! ### EXIT, PSET, SLEEP, YIELD, WAITC (R107 to R111) -/

def semExit : Sem := { pipe := 4, eff := fun c s => exitSlot c.g s c.gid c.sl }

def semPset (a n : Nat) : Sem :=
  { pipe := 4, names := [a], eff := fun c s => modSlot s c.gid c.sl fun v => { v with pv := a, pn := n } }

/-- Park the issuing slot in SLEEP. -/
def sleepOn (c : Ctx) (w : Wait) (s : State) : State := modSlot s c.gid c.sl fun v => { v with st := .sleep, waits := v.waits ++ [w] }

def semSleep (a : Src) : Sem :=
  { pipe := 4, leads := srcRegs a,
    eff := fun c s => let k := c.get32 a c.lead; if k = 0 then s else sleepOn c (.cycle (c.cyc + 1 + k)) s }

def semSleepT (a : Src) : Sem :=
  { pipe := 4, leads := srcRegs64 a,
    eff := fun c s => let t := c.get64 a c.lead; if t ≤ ctxTime s (ctxOf s c.gid) then s else sleepOn c (.time t) s }

def semSleepB (a : Src) : Sem :=
  { pipe := 4, leads := srcRegs a,
    lane := fun s c L => if leaderOf c.mask = some L then bufCause s c.gid (c.get32 a L) else none,
    eff := fun c s =>
      let h := c.get32 a c.lead
      match bufIdx? s c.gid h with
      | none => s
      | some i => if (bufOf s c.gid i).st = .full then s else sleepOn c (.buffer h c.pc c.ps) s }

def semYield : Sem := { pipe := 4 }

def semWaitc (k : EngClass) (n : Nat) : Sem :=
  { pipe := 4, hold := fun s c => decide (n < counter (getGroup s c.gid) k) }

/-! ### TRAP, BKPT and RETT (R112, R114) -/

def semTrap (code : Nat) : Sem := { pipe := 4, last := fun _ _ => some { code := 0x80 + code } }

def semBkpt : Sem := { pipe := 4, last := fun _ _ => some { code := tBkpt } }

def semRett : Sem :=
  { pipe := 4,
    pre := fun _ c => match c.g.trap with
      | none => some { code := tIllegalOp }
      | some t =>
        if t.pslot ≠ c.sl then some { code := tIllegalOp }
        else if t.sc ≠ c.g.stack.length ∨ t.jd ≠ (c.g.slot c.sl).jd then some { code := tDivstack } else none,
    eff := fun c s => raiseMissed (returnFromTrap s c.gid c.sl) c.gid (otherSlot c.sl) }

/-! ### Meanings -/

def execBr (v : Src) (o : Int) (s : State) : Host.Outcome State Fault Refusal := .next (issueOne (semBr v o) s)
def execBrv (v : Nat) (s : State) : Host.Outcome State Fault Refusal := .next (issueOne (semBrv v) s)
def execSplit (o : Int) (s : State) : Host.Outcome State Fault Refusal := .next (issueOne (semSplit o) s)
def execJoin (s : State) : Host.Outcome State Fault Refusal := .next (issueOne semJoin s)
def execCall (o : Int) (s : State) : Host.Outcome State Fault Refusal := .next (issueOne (semCall o) s)
def execCallv (a : Nat) (s : State) : Host.Outcome State Fault Refusal := .next (issueOne (semCallv a) s)
def execRet (a : Nat) (s : State) : Host.Outcome State Fault Refusal := .next (issueOne (semRet a) s)
def execExit (s : State) : Host.Outcome State Fault Refusal := .next (issueOne semExit s)
def execPset (a n : Nat) (s : State) : Host.Outcome State Fault Refusal := .next (issueOne (semPset a n) s)
def execSleep (a : Src) (s : State) : Host.Outcome State Fault Refusal := .next (issueOne (semSleep a) s)
def execSleepT (a : Src) (s : State) : Host.Outcome State Fault Refusal := .next (issueOne (semSleepT a) s)
def execSleepB (a : Src) (s : State) : Host.Outcome State Fault Refusal := .next (issueOne (semSleepB a) s)
def execYield (s : State) : Host.Outcome State Fault Refusal := .next (issueOne semYield s)
def execTrap (code : Nat) (s : State) : Host.Outcome State Fault Refusal := .next (issueOne (semTrap code) s)
def execBkpt (s : State) : Host.Outcome State Fault Refusal := .next (issueOne semBkpt s)
def execRett (s : State) : Host.Outcome State Fault Refusal := .next (issueOne semRett s)
def execWaitc (c : EngClass) (n : Nat) (s : State) : Host.Outcome State Fault Refusal := .next (issueOne (semWaitc c n) s)

end Sys2Proof.Machine
end

