-- ==== Sys2Proof/Machine/Launch.lean ====
section
/-! DEFINITION. Mailbox arrivals, host delivery, and the start of launches: the launch record and its checks (R308 to
R318, R377). -/
namespace Sys2Proof.Machine

open Sys2Proof

/-! ### The launch record (R308) -/

/-- A level descriptor's 64 bits. -/
def levelOf (x : Nat) : Level := { ext := bits x 31 0, dom := bits x 34 32, scope := bits x 37 35, shift := bits x 41 38 }

/-- The level descriptors 1 to 7 of a record. -/
def levelWords (bs : List Byte) : List Nat := (List.range 7).map fun k => fieldAt bs (48 + 8 * k) 8

/-- A launch record from its 128 bytes. -/
def lrecOfBytes (bs : List Byte) : LRec :=
  let w (i : Nat) : Nat := fieldAt bs (8 * i) 8
  { entry := bits (w 0) 47 0, handler := bits (w 1) 47 0, dsbase := bits (w 2) 47 0, cmbox := bits (w 3) 11 0, cmen := bit (w 3) 12,
    regs := bits (w 3) 19 16, tiles := bits (w 3) 23 20, accs := bits (w 3) 26 24, d := bits (w 3) 38 28,
    scratch := bits (w 3) 54 40, bars := bits (w 3) 59 55, argoff := bits (w 4) 13 0, argen := bit (w 4) 14,
    scoreboard := bit (w 4) 16, loose := bit (w 4) 17, idem := bit (w 4) 18, rt := bit (w 4) 19, lext := bits (w 4) 63 32,
    est := bits (w 5) 31 0, levels := ((levelWords bs).takeWhile fun x => bit x 42).map levelOf }

/-- The bytes of a launch record. -/
def lrecBytes (r : LRec) : List Byte :=
  let w3 := r.cmbox + b2n r.cmen * 2 ^ 12 + r.regs * 2 ^ 16 + r.tiles * 2 ^ 20 + r.accs * 2 ^ 24 + r.d * 2 ^ 28 +
    r.scratch * 2 ^ 40 + r.bars * 2 ^ 55
  let w4 := r.argoff + b2n r.argen * 2 ^ 14 + b2n r.scoreboard * 2 ^ 16 + b2n r.loose * 2 ^ 17 + b2n r.idem * 2 ^ 18 +
    b2n r.rt * 2 ^ 19 + r.lext * 2 ^ 32
  let lv (l : Level) : Nat := l.ext + l.dom * 2 ^ 32 + l.scope * 2 ^ 35 + l.shift * 2 ^ 38 + 2 ^ 42
  leBytes 8 r.entry ++ leBytes 8 r.handler ++ leBytes 8 r.dsbase ++ leBytes 8 w3 ++ leBytes 8 w4 ++ leBytes 8 r.est ++
    (r.levels.map lv ++ List.replicate (7 - r.levels.length) 0).flatMap (leBytes 8) ++ List.replicate 24 0

/-- The reserved fields of a launch record are zero (R308). -/
def recordZeros (bs : List Byte) : Bool :=
  let w (i : Nat) : Nat := fieldAt bs (8 * i) 8
  bits (w 0) 63 48 == 0 && bits (w 1) 63 48 == 0 && bits (w 2) 63 48 == 0 && bits (w 3) 15 13 == 0 && !bit (w 3) 27 && !bit (w 3) 39 &&
  bits (w 3) 63 60 == 0 && !bit (w 4) 15 && bits (w 4) 31 20 == 0 && bits (w 5) 63 32 == 0 && fieldAt bs 104 24 == 0 &&
  (levelWords bs).all fun x => bits x 63 43 == 0

/-- The reserved fields of a record are zero, and its fields lie in their limits (R308). -/
def fieldsOk (bs : List Byte) (rt : Bool) : Bool :=
  let r := lrecOfBytes bs
  recordZeros bs && r.entry % 64 == 0 && r.handler % 64 == 0 && r.dsbase % 16 == 0 && decide (1 ≤ r.regs) && decide (r.tiles ≤ 8) &&
  decide (r.accs ≤ 4) && decide (r.d ≤ 1024) && decide (r.scratch ≤ 16384) && decide (r.bars ≤ 16) && r.rt == rt

/-- The levels obey R309 and R311. -/
def levelsOk (bs : List Byte) : Bool :=
  let ws := levelWords bs
  let r := lrecOfBytes bs
  let n := r.levels.length
  let lv (k : Nat) : Level := (r.levels[k - 1]?).getD {}
  (ws.drop n).all (· == 0) &&
  r.levels.all (fun l => decide (1 ≤ l.ext) && decide (l.ext ≤ 2 ^ 24)) &&
  (n == 0 || (decide ((lv 1).ext ≤ 32) && (lv 1).dom == 2 && (lv 1).scope == 1)) &&
  ((List.range (n + 1)).drop 2).all (fun k => decide (2 ≤ (lv k).dom) && decide ((lv (k - 1)).dom ≤ (lv k).dom) &&
    decide ((lv k).scope ≤ (lv k).dom)) &&
  decide (r.teams ≤ 2 ^ 24) &&
  match r.sharing with
  | none => true
  | some k => decide ((lv k).dom ≤ (lv k).scope)

/-- The argument block lies in the window and clear of the barrier words (R313). -/
def argOk (r : LRec) : Bool :=
  !r.argen || (decide (8 * r.bars ≤ 16 * r.argoff) && decide (16 * r.argoff + 64 ≤ 16 * r.scratch))

def formatOk (bs : List Byte) (rt : Bool) : Bool := fieldsOk bs rt && levelsOk bs && argOk (lrecOfBytes bs)

/-- The resources of R314, R40: a gang fits its domain, and the window holds the barrier words. -/
def resourceOk (r : LRec) : Bool :=
  let ids := r.gang 0
  decide (8 * r.bars ≤ 16 * r.scratch) && decide (16 * r.scratch ≤ 262144) && decide (ids.length ≤ 32) &&
  (placeGang State.reset r r.liveGroups 0 (ids.filter fun i => !(r.liveGroups i).isEmpty)).isSome

/-! ### Interrupts (R377) -/

/-- The function of a tenant: VF i + 1 is tenant i. -/
def fnOfTenant (x : Context) : Nat := if x.sys then 0 else x.ten + 1

def getFn (s : State) (f : Nat) : HostFn := mapGetD s.fns f {}
def modFn (s : State) (f : Nat) (g : HostFn → HostFn) : State := { s with fns := mapPut s.fns f {} (g (getFn s f)) }

/-- The function that owns a mailbox: PF0 for a system context's (R318, R377). -/
def boxFn (s : State) (mb : Nat) : Nat := if (getCtx s (getBox s mb).ctx).sys then 0 else (getBox s mb).ten + 1

/-- Raise the lowest enabled vector of a function whose IRQMAP names a mailbox. -/
def raiseFor (s : State) (fn mb : Nat) : State :=
  match (List.range 64).find? fun v => mapGetD (getFn s fn).irq v 0 == mb + 4096 with
  | none => s
  | some v => { s with irqs := s.irqs ++ [(fn, v)] }

/-! ### Judging a message (R316, R318, R378) -/

/-- The sender may post to a mailbox. -/
def senderOk (s : State) (from_ : Sender) (mb : Nat) : Bool :=
  let sysBox := (getCtx s (getBox s mb).ctx).sys
  match from_ with
  | .ctx c => mayPost s (getCtx s c) mb
  | .fn f => f == 0 || ((getBox s mb).ten + 1 == f && !sysBox)
  | .companion _ => !sysBox

/-- Lower the status of the copy that posted to the code of its refused or dropped message, while no later operation has taken
the buffer (R205). -/
def lowerStatus (s : State) (gid h op code : Nat) : State :=
  modBuf s gid (bits h 7 0) fun b =>
    if b.serial = bits h 11 8 ∧ b.last = some (gid, op) ∧ (b.status = 0 ∨ code < b.status) then { b with status := code } else b

/-- The status register of the MBPOST `id`, where a path waits for it. -/
def postReg (id : Nat) (ws : List Wait) : Option Nat := firstSome (fun w : Wait => match w with
  | .post d i => if i = id then some d else none
  | _ => none) ws

/-- The lanes of a group that wait for the MBPOST `id`. -/
def postLanes (g : Group) (id : Nat) : Mask :=
  let m (ws : List Wait) (x : Mask) : Mask := if (postReg id ws).isSome then x else 0
  g.stack.foldl (fun x e => x ||| m e.waits e.mask) (m g.a.waits g.a.mask ||| m g.b.waits g.b.mask)

/-- An MBPOST ends: d in every lane that waits, and the paths resume (R217). -/
def answerPost (s : State) (gid : Nat) (id v : Nat) : State :=
  let g := getGroup s gid
  match postReg id (g.a.waits ++ g.b.waits ++ g.stack.flatMap (·.waits)) with
  | none => s
  | some d => unblockGroup (modGroup s gid fun x => x.status s.fresh d (postLanes x id) v) gid (.post d id)

/-- The credits of a companion's writes to mailboxes whose messages have all been judged are returned, in write order on each queue
pair: one CREDIT for each, with its counts (R355, R367). -/
def returnWrites (s : State) (half : Nat) : State :=
  let r := (getHalf s half).writes.foldl (fun (r : State × List MsgWrite) w =>
    if w.whole && w.left == 0 && !(r.2.any fun o => o.ctx == w.ctx && o.qp == w.qp) then
      (pairSend r.1 half 0x12 w.ctx w.qp (leBytes 4 (ceilDiv (64 * w.n) 256) ++ leBytes 4 w.drops ++ leBytes 4 w.refused), r.2)
    else (r.1, r.2 ++ [w])) (s, [])
  modHalf r.1 half fun h => { h with writes := r.2 }

/-- A message of a companion's write is judged: 0 queued, 1 full, 2 refused. -/
def judgeWrite (s : State) (half no v : Nat) : State :=
  returnWrites (modHalf s half fun h => { h with writes := h.writes.map fun w => if w.no = no then
    { w with left := w.left - 1, drops := w.drops + b2n (v == 1), refused := w.refused + b2n (v == 2) } else w }) half

/-- An MBOX message of a companion is posted. It belongs to the write of its context and queue pair that is under way, else it
begins one; which message ends a write is free, since no field of an MBOX says so (log 46). -/
def takeMbox (half : Nat) (h : PairHdr) (mb : Nat) (msg : List Byte) (s : State) : State :=
  let x := getHalf s half
  let w := (x.writes.find? fun w => w.ctx == h.ctx && w.qp == h.qp && !w.whole).getD { no := x.wno, ctx := h.ctx, qp := h.qp }
  let w' := { w with n := w.n + 1, left := w.left + 1, whole := Config.writeEnds s.fresh }
  let ws := if w.n = 0 then x.writes ++ [w'] else x.writes.map fun o => if o.no = w.no then w' else o
  (postMsg (bump (modHalf s half fun x => { x with writes := ws, wno := if w.n = 0 then x.wno + 1 else x.wno })) mb msg
    (.companion half) (.pair half w.no)).1

/-- Tell the sender what became of its message: 0 queued, 1 full, 2 refused. A companion learns it from the CREDIT of its write
(R355), and of a refusal by a Nack(PERM) too (R316), whose TXN is 0, since an MBOX message names none (log 86). -/
def replyPost (s : State) (p : Post) (v : Nat) : State := match p.reply with
  | .none => s
  | .mbpost g _ => answerPost s g p.id v
  | .copy g h op => if v = 0 then s else lowerStatus s g h op (if v = 1 then 6 else 2)
  | .pair half no =>
    let s := judgeWrite s half no v
    if v = 2 then sendAck s 4 (getHalf s half).agent 10 { txn := 0, req := (getHalf s half).agent, code := 3 } else s

/-! ### The check of a template (R314) -/

/-- The place of a queue entry behind the oldest one. -/
def MBox.place (b : MBox) (q : Nat) : Nat := (q + (b.qdepth + 1) - b.head) % (b.qdepth + 1)

/-- The queue entries whose messages have not started a launch, oldest first. -/
def MBox.waiting (b : MBox) : List Nat :=
  (((List.range b.count).drop b.started).map fun k => (b.head + k) % (b.qdepth + 1)).filter fun q => !b.freed.contains q

/-- The oldest message whose template has not been checked. -/
def MBox.unchecked (b : MBox) : Option Nat := b.waiting.find? fun q => (mapGet? b.ready q).isNone

/-- The launch of the message in a queue entry, before its template is read. -/
def messageLaunch (s : State) (mb q : Nat) : Launch :=
  let b := getBox s mb
  { mb := mb, ctx := b.ctx, qidx := q, tmpl := b.tmpl, msg := engBytes s (b.qbase + 64 * q) 64, arrival := mapGetD b.arrivals q 0 }

/-- Reject a launch before it has a team (R314): its message leaves the queue. -/
def rejectLaunch (s : State) (l : Launch) (status : Nat) : State :=
  let i := freshId s
  endLaunch { i.1 with launches := mapSet i.1.launches i.2 l } i.2 status true

/-- A readable template is checked: the launch waits for its turn, or is rejected where its record fails a check or asks for too
much (R314). -/
def checkReadable (s : State) (mb : Nat) (l : Launch) (x : Context) (rt : Bool) : State :=
  let s := engMark s x l.tmpl 128 .engRead
  let pas := engPas s x l.tmpl 128 .engRead
  let raw := pas.map (engByte s)
  let l := { l with raw := raw, lr := lrecOfBytes raw }
  if pas.any (poisoned s) then rejectLaunch s { l with raw := [], lr := {} } 2
  else if !formatOk raw rt then rejectLaunch s l 2
  else if !resourceOk l.lr then rejectLaunch s l 1
  else modBox s mb fun b => { b with ready := mapSet b.ready l.qidx l }

/-- A template by the failure, if any, of its reads: the mailbox waits for the reply, or the launch is rejected (R314). -/
def checkAt (s : State) (mb : Nat) (l : Launch) (x : Context) (rt : Bool) : Option (Nat × XFail) → State
  | some (va, f) =>
    if waitsReply f then modBox (raiseFault s x va f .engRead 4) mb fun b => { b with blocked := some (f.cause, faultPage va) }
    else rejectLaunch s l 2
  | none => checkReadable s mb l x rt

/-- The template for the message in a queue entry is read and checked (R314). -/
def checkEntry (s : State) (mb q : Nat) : State :=
  let l := messageLaunch s mb q
  let x := getCtx s l.ctx
  checkAt s mb l x (getBox s mb).rt (engFail s x l.tmpl 128 .engRead)

/-- Check entries in arrival order, up to one that waits for a fault reply. -/
def checkEntries : Nat → State → Nat → State
  | 0, s, _ => s
  | n + 1, s, mb =>
    let b := getBox s mb
    if b.tmpl = 0 ∨ b.blocked.isSome ∨ (getCtx s b.ctx).st = 0 then s
    else match b.unchecked with
      | none => s
      | some q => checkEntries n (checkEntry s mb q) mb

/-- The messages of a mailbox that have not been checked are: at their arrival, after a fault reply, or when their context has
come to exist (R314). -/
def checkBox (s : State) (mb : Nat) : State := checkEntries (getBox s mb).count s mb

/-! ### Arrivals (R316, R377) -/

/-- A message arrives at the mailbox unit (R316, R377); one that is queued for a launch has its template checked (R314). -/
def arrivePost (s : State) (p : Post) : State :=
  let b := getBox s p.mb
  if b.en = false ∨ senderOk s p.from_ p.mb = false then replyPost s p 2
  else if b.count = b.qdepth + 1 then
    replyPost (modBox s p.mb fun b => { b with drops := if b.drops < 2 ^ 32 - 1 then b.drops + 1 else b.drops }) p 1
  else
    let q := (b.head + b.count) % (b.qdepth + 1)
    let s := engPut s (withAddrs (b.qbase + 64 * q) (sliceBytes p.msg 0 64))
    let s := clearCovered s ((List.range 64).map (b.qbase + 64 * q + ·))
    let s := modBox s p.mb fun b => { b with count := b.count + 1, arrivals := mapSet b.arrivals q s.tb }
    checkBox (replyPost (if b.tmpl = 0 then raiseFor s (boxFn s p.mb) p.mb else s) p 0) p.mb

/-- Post n arrives, where no earlier one of its sender to its mailbox is still on its way. -/
def arrivalOf (s : State) (n : Nat) : Option Post := (s.posts[n]?).bind fun p =>
  if (s.posts.take n).any fun o => o.from_ == p.from_ && o.mb == p.mb then none else some p

/-! ### The start of a launch (R316) -/

/-- The launch of the next message of a mailbox, where its template has been checked. -/
def nextLaunch (s : State) (mb : Nat) : Option Launch :=
  let b := getBox s mb
  b.waiting.head?.bind fun q => mapGet? b.ready q

/-- Put the bytes of a line that a mask names into memory. -/
def putMasked (m : List Host.Cell) (line mask : Nat) (data : FMap Byte) : List Host.Cell :=
  ((List.range 128).filter (bit mask)).foldl (fun m o => memPut m (line * 128 + o) (mapGetD data o 0)) m

/-- Memory as home-performed reads find it now: what the home dies' L2s, the redo logs and the holders of dirty bytes hold
goes over it (R45, R272). -/
def codeNow (s : State) : List Host.Cell :=
  let m := s.ctxs.foldl (fun m x => x.2.mirror.entries.foldl (fun m e => if e.marker.isSome then m else putMasked m e.line e.mask e.data) m) s.mem
  let m := s.dies.foldl (fun m d => d.2.l2.foldl (fun m l =>
    if homeOf (l.1 * 128) = some d.1 then putMasked m l.1 l.2.present l.2.data else m) m) m
  s.dies.foldl (fun m d => d.2.l2.foldl (fun m l =>
    if homeOf (l.1 * 128) = some d.1 then m else putMasked m l.1 l.2.dirty l.2.data) m) m

/-- Start a launch (R316): the arrival of a best-effort launch is a scheduling event (R325). -/
def beginLaunch (s : State) (l : Launch) : State :=
  let i := freshId s
  let s := { i.1 with launches := mapSet i.1.launches i.2 { l with order := i.2, code := some (codeNow s) } }
  schedule (if l.lr.rt then s else schedEvent s)

/-- A mailbox may start the launch of its next queued message (R316); whether it accepts further messages does not matter. -/
def canStart (s : State) (mb : Nat) : Bool :=
  let b := getBox s mb
  b.tmpl != 0 && (nextLaunch s mb).isSome && ctxRuns s b.ctx &&
    decide ((s.launches.filter fun l => l.2.mb == mb).length < b.conc + 1)

/-- The messages of a mailbox up to a queue entry have been taken. -/
def takeMessage (s : State) (mb q : Nat) : State :=
  modBox s mb fun b => { b with started := b.place q + 1, ready := mapErase b.ready q }

/-- The next queued message starts its launch (R316). -/
def startLaunch (s : State) (mb : Nat) : State := match nextLaunch s mb with
  | none => s
  | some l => beginLaunch (takeMessage s mb l.qidx) l

/-- A failed fault reply rejects the launch whose template is missing (R314). -/
def failTemplate (s : State) (mb : Nat) : State :=
  let s := modBox s mb fun b => { b with blocked := none }
  match (getBox s mb).unchecked with
  | none => s
  | some q => checkBox (rejectLaunch s (messageLaunch s mb q) 2) mb

/-- A reply with retry has the template read again, and those of the messages behind (R314). -/
def retryTemplate (s : State) (mb : Nat) : State := checkBox (modBox s mb fun b => { b with blocked := none }) mb

end Sys2Proof.Machine
end

