-- ==== Sys2Proof/Machine/Preempt.lean ====
section
/-! DEFINITION. Pre-emption: victims of real-time launches, slices, safe points and their treatments, restores
(R323, R324, R326 to R331). -/
namespace Sys2Proof.Machine

open Sys2Proof

/-! ### Victims of a real-time launch (R323, R324) -/

/-- A resident team that a real-time launch of a stream may pre-empt. -/
def isVictim (s : State) (stream : Nat) (t : Team) : Bool :=
  let l := getLaunch s t.launch
  !t.saved && !t.gone && !t.ended && (!l.lr.rt || decide (stream < (getBox s l.mb).stream))

/-- The teams that leave with the victims on some cores: their gangs whole (R311). -/
def leaving (s : State) (stream : Nat) (cores : List Nat) : List Nat :=
  dedupN ((s.teams.filter fun t => cores.contains t.2.core && isVictim s stream t.2).flatMap fun t =>
    (gangTeams s t.1).filter fun o => !(getTeam s o).gone)

/-- The state in which some teams no longer take room. -/
def without (s : State) (ts : List Nat) : State :=
  ts.foldl vacateWin { s with teams := s.teams.map fun t => if ts.contains t.1 then (t.1, { t.2 with saved := true }) else t }

/-- The subsets of a cluster's four cores. -/
def coreSubsets (cl : Nat) : List (List Nat) :=
  (List.range 16).drop 1 |>.map fun m => ((List.range 4).filter fun i => bit m i).map (cl * 4 + ·)

/-- The cores that the teams which leave stand on. -/
def coresLeft (s : State) (ts : List Nat) : List Nat := dedupN (ts.map fun t => (getTeam s t).core)

/-- How good a choice of victim cores is, least first: the fewest cores that the victims leave, then the fewest of them kept, no
real-time victim, the largest STREAM, the most recently dispatched. -/
def victimKey (s : State) (cores ts : List Nat) : List Nat :=
  let rts := ts.filter fun t => (getLaunch s (getTeam s t).launch).lr.rt
  let stream := rts.foldl (fun a t => let x := (getBox s (getLaunch s (getTeam s t).launch).mb).stream; if x < a then x else a) 63
  let newest := ts.foldl (fun a t => if a < (getTeam s t).disp then (getTeam s t).disp else a) 0
  [(coresLeft s ts).length, cores.length, b2n (!rts.isEmpty), 63 - stream, s.nextId - newest]

def keyLt : List Nat → List Nat → Bool
  | x :: xs, y :: ys => decide (x < y) || (x == y && keyLt xs ys)
  | _, _ => false

/-- The victims of the next gang of a real-time launch: the cluster whose cores it takes, the cores, and the teams that leave. -/
def chooseVictims (s : State) (lid : Nat) : Option (Nat × List Nat × List Nat) :=
  let l := getLaunch s lid
  match nextTeam l with
  | none => none
  | some i =>
    let stream := (getBox s l.mb).stream
    let cls := if l.next = 0 ∧ l.redo.isEmpty = true then List.range 32
      else candClusters l.lr i l.lr.loose (residentCores s lid)
    let under := dedupN ((s.teams.filter fun t => t.2.preempt == some .realtime).map (·.2.core))
    let all := cls.flatMap fun cl => (coreSubsets cl).filterMap fun cores =>
      let ts := leaving s stream cores
      if !ts.isEmpty && decide ((dedupN (under ++ coresLeft s ts)).length ≤ 16) && ts.all (fun t => isVictim s stream (getTeam s t)) &&
          (fitGang (without s ts) lid i l.lr.loose (some [cl])).isSome then some (victimKey s cores ts, cl, cores, ts) else none
    match all with
    | [] => none
    | x :: r => some (r.foldl (fun a b => if keyLt b.1 a.1 then b else a) x).2

/-- The real-time launch that waits with no room, of the smallest STREAM (R323). -/
def waitingRt (s : State) : Option Nat :=
  firstSome (fun b => match headLaunch s b with
    | none => none
    | some lid => if ctxRuns s (getLaunch s lid).ctx && !nextFits s b then some lid else none) (rtBoxes s)

/-- Request the pre-emption of whole gangs. -/
def requestGangs (s : State) (ts : List Nat) (why : SaveWhy) : State :=
  (dedupN (ts.flatMap (gangTeams s))).foldl (fun s t => requestPreempt s t why) s

/-- A member of the team's gang is to be saved, and the team is not. -/
def gangCalls (s : State) (tid : Nat) : Option SaveWhy :=
  if (getTeam s tid).preempt.isSome ∨ (getTeam s tid).saved = true then none
  else firstSome (fun t => (getTeam s t).preempt) (gangTeams s tid)

/-- The scheduler requests the pre-emption of a team (R326): as one of the victims of a waiting real-time launch, which it
chooses all at once, or with its gang. None where it has no reason to. -/
def preemptTeam (s : State) (tid : Nat) : Option State :=
  match gangCalls s tid with
  | some why => some (requestGangs s [tid] why)
  | none => match waitingRt s with
    | none => none
    | some lid =>
      let pending : Bool := match (getLaunch s lid).place with
        | none => false
        | some cl => s.teams.any fun t => t.2.preempt == some .realtime && clusterOf t.2.core == cl && !t.2.saved
      match (if pending then none else chooseVictims s lid) with
      | none => none
      | some (cl, cores, ts) =>
        if ts.contains tid then
          some (requestGangs (modLaunch s lid fun l => { l with place := some cl, hold := cores }) ts .realtime)
        else none

/-! ### Slices (R329) -/

/-- Work of a context other than `c` waits and cannot be placed. -/
def othersWait (s : State) (c : Nat) : Bool :=
  (s.mboxes.any fun b => match headLaunch s b.1 with
    | none => false
    | some lid => (getLaunch s lid).ctx != c && ctxRuns s (getLaunch s lid).ctx && !nextFits s b.1) ||
  (readyTeams s true ++ readyTeams s false).any fun t => (getLaunch s t.2.launch).ctx != c && (restoreSpots s t.1).isNone

/-- The slice of a best-effort team has run out (R329). -/
def sliceOver (s : State) (tid : Nat) : Bool :=
  let t := getTeam s tid
  let l := getLaunch s t.launch
  (mapGet? s.teams tid).isSome && !t.saved && !t.ended && !t.draining && t.preempt.isNone && !l.lr.rt && t.allow != 0 &&
    decide (t.allow ≤ elapsed s t.sinceTick) && othersWait s l.ctx

/-- The slice of a team has run out: the pre-emption of the team, with its gang, is requested, and its overrun runs from now
(R329). -/
def expireSlice (s : State) (tid : Nat) : State :=
  requestGangs (modTeam s tid fun t => { t with slice := true, reqTick := if t.slice then t.reqTick else s.tb }) [tid] .sched

/-! ### The safe point (R326, R327) -/

/-- Every group of the team is at its safe point. -/
def teamSafe (s : State) (tid : Nat) : Bool := (groupsOf s tid).all fun g => groupSafe g.2

/-- The treatments of R327. -/
inductive Treatment where | drain | flush | save
  deriving DecidableEq, Repr

/-- What is done with one team at its safe point (R327). A request other than the scheduler's own takes SAVE (R330,
R332, R361, R364, R383, R391). -/
def treatment (s : State) (tid : Nat) : Treatment :=
  let t := getTeam s tid
  let l := getLaunch s t.launch
  let e := 1024 * l.lr.est
  let r := residenceOf s t
  let drainmax := (getCtx s l.ctx).drainmax * Config.cyclesPerMicro (getDie s (dieOfCore t.core)).power
  let busy := (groupsOf s tid).any fun g => counter g.2 .build != 0 || counter g.2 .link != 0
  match t.preempt with
  | some .sched => own l e r drainmax busy true
  | some .realtime => own l e r drainmax busy false
  | _ => .save
where
  /-- DRAIN, FLUSH or SAVE. -/
  own (l : Launch) (e r drainmax : Nat) (busy mayDrain : Bool) : Treatment :=
    if mayDrain ∧ e ≠ 0 ∧ e ≤ r + drainmax then .drain
    else if l.lr.idem ∧ (e = 0 ∨ 2 * r ≤ e) ∧ !busy then .flush
    else .save

/-- The blocks of a team are lifted (R327 DRAIN). -/
def drainTeam (s : State) (tid : Nat) : State :=
  modTeam (schedEvent (payOverrun s tid)) tid fun t => { t with preempt := none, draining := true }

/-! ### Restores (R323, R331) -/

/-- The order of restores: real-time teams by STREAM, then best-effort teams, each in save order. -/
def restoreKey (s : State) (t : Nat × Team) : List Nat :=
  let l := getLaunch s t.2.launch
  if l.lr.rt then [0, (getBox s l.mb).stream, t.2.stamp] else [1, 0, t.2.stamp]

/-- A saved team that is ready is restored where it fits, unless an earlier one fits (R331); cores kept for a real-time launch
are none of its places (R324). -/
def restoreNext (s : State) (tid : Nat) : Option State :=
  let ready := readyTeams s true ++ readyTeams s false
  match ready.find? fun t => t.1 == tid with
  | none => none
  | some t =>
    if (ready.any fun o => keyLt (restoreKey s o) (restoreKey s t) && restoreFits s ready o.1) ∨ restoreFits s ready tid = false then none
    else some (schedule (restoreGang s tid))

end Sys2Proof.Machine
end

