-- ==== Sys2Proof/Machine/Image.lean ====
section
/-! DEFINITION. The portable context image: its bytes, the save area, the treatment at a safe point, and the context that a
restore makes of it (R42, R213, R216, R326, R327, R359, R360). -/
namespace Sys2Proof.Machine

open Sys2Proof

/-! ### Encoding -/

/-- Pad to a multiple of 16 bytes. -/
def pad16 (bs : List Byte) : List Byte := bs ++ List.replicate ((16 - bs.length % 16) % 16) 0

/-- The handle of a SLEEP.B with its packet slot and chain, in the wait field (log 60). -/
def missWord (pc word h : Nat) : Nat := h % 4096 + word % 4 * 2 ^ 12 + pc % 2 ^ 48 * 2 ^ 14

/-- The wait field holds a handle: of a SLEEP.B, or of a PROMISE_MISS kept pending. -/
def waitsHandle (v : Slot) : Bool := v.missed.isSome || v.waits.any fun w => match w with
  | .buffer _ _ _ => true
  | _ => false

/-- The barrier waits of a slot: barrier, phase, status register, lanes and acquire. -/
def barWaits (v : Slot) : List (Nat × Nat × Nat × Mask × Bool) := v.waits.filterMap fun w => match w with
  | .barrier b p d m acq => some (b, p, d, m, acq)
  | _ => none

/-- The 8 bytes of what a SLEEP or BARWAIT slot waits for, or of a pending PROMISE_MISS (R163, R360); a JOIN slot whose chain holds a
BAR.WAIT too waits at the barrier (R161). Of the waits of paths that merged, the field has room for one barrier and phase and for
two status registers, the second for the rest of the lanes: a wait at another barrier, or a third register, takes these, as R26
merges such paths and R360 gives a slot one barrier and phase (DESIGN CHOICE, log 60). -/
def waitWord (v : Slot) : Nat :=
  match v.missed with
  | some (pc, w, h) => missWord pc w h
  | none => match barWaits v with
    | (b, p, d, m, acq) :: r =>
      b % 16 + p % 256 * 2 ^ 4 + d % 128 * 2 ^ 12 + b2n acq * 2 ^ 19 + m.toNat * 2 ^ 20 + match r with
        | [] => 0
        | (_, _, d2, _, acq2) :: _ => d2 % 128 * 2 ^ 52 + b2n acq2 * 2 ^ 59 + 2 ^ 60
    | [] => (firstSome (fun w : Wait => match w with
        | .time t => some (t % 2 ^ 64)
        | .buffer h pc word => some (missWord pc word h)
        | _ => none) v.waits).getD 0

/-- A slot, 32 bytes (R360). The table gives no place to the state that a HELD slot had before the trap (R30) and to which
kind of value the wait field holds: the model puts the prior state into bits [6:4] of the PN byte, and into bit [7] of the PV
byte that the field holds a handle (DESIGN CHOICE, log 60). -/
def slotBytes (v : Slot) : List Byte :=
  leBytes 6 v.pc ++ leBytes 4 v.mask.toNat ++ leBytes 1 (slotCode v.st) ++ leBytes 1 v.jd ++ leBytes 6 v.ja ++
    leBytes 1 (v.pv % 128 + b2n (waitsHandle v) * 128) ++ leBytes 1 (v.pn % 16 + (if v.st = .held then slotCode v.prior * 16 else 0)) ++
    leBytes 4 v.tbh ++ leBytes 8 (waitWord v)

/-- A slot as the image of checkpoint n holds it, or any other image: one parked in CKPT stands ACTIVE, after its chain
where it waits for n, else at its chain (R216). The second result is the register that takes n | 0x8000_0000. -/
def imageSlot (n : Option Nat) (v : Slot) : Slot × Option Nat :=
  match firstSome (fun w : Wait => match w with
      | .ckpt d pc k => some (d, pc, k)
      | _ => none) v.waits with
  | none => (v, none)
  | some (d, pc, k) =>
    let act (v : Slot) : Slot := if v.st = .held then { v with prior := .active, waits := [] } else { v with st := .active, waits := [] }
    if n.isSome ∧ k = n then (act v, some d) else (act { v with pc := pc }, none)

/-- The registers with the number of checkpoint n in register d for the lanes of a slot. -/
def ckptRegs (v : Slot) (d : Option Nat) (n : Nat) (regs : FMap Word) : FMap Word := match d with
  | none => regs
  | some d => (lanesOf v.mask).foldl (fun m L => mapPut m (vunit d L) 0 (BitVec.ofNat 32 (n % 2 ^ 31 + 2 ^ 31))) regs

/-- The marks that the write of that number clears (R145). -/
def ckptMarks (v : Slot) (d : Option Nat) (marks : NSet) : NSet := match d with
  | none => marks
  | some d => (lanesOf v.mask).foldl (fun m L => setDel m (vunit d L)) marks

/-- One bit per entry of an accumulator, row-major. -/
def accBits (g : Group) (a : Nat) (p : AccE → Bool) : List Byte := (List.range 128).map fun i =>
  BitVec.ofNat 8 ((List.range 8).foldl (fun x j => if p (mapGetD g.acc (a * 1024 + i * 8 + j) {}) then x + 2 ^ j else x) 0)

/-- A group record (R360), padded. -/
def groupRecord (s : State) (gid : Nat) (n : Option Nat) : List Byte :=
  let g := getGroup s gid
  let r := lrecOf s gid
  let a := imageSlot n g.a
  let b := imageSlot n g.b
  let regs := ckptRegs g.b b.2 (n.getD 0) (ckptRegs g.a a.2 (n.getD 0) g.regs)
  let poisoned := ckptMarks g.b b.2 (ckptMarks g.a a.2 g.marks)
  let flags := (List.range 12).foldl (fun x i => x + flagCount g i % 8 * 2 ^ (3 * i)) 0
  let marks (p : Nat → Bool) : Nat := (List.range 32).foldl (fun x L => if p L then x + 2 ^ L else x) 0
  pad16 (slotBytes a.1 ++ slotBytes b.1 ++ leBytes 5 flags ++
    ([EngClass.copy, .matrix, .ray, .build, .link].flatMap fun c => leBytes 1 (counter g c)) ++ leBytes 2 g.stack.length ++
    leBytes 4 g.sticky.toNat ++
    ((List.range 8).flatMap fun i => match g.pins[i]? with
      | some p => leBytes 8 p.1 ++ leBytes 4 p.2 ++ leBytes 4 0
      | none => List.replicate 16 0) ++
    ((List.range 8).flatMap fun i => leBytes 4 (mapGetD g.tcfg i 0)) ++
    leBytes 32 ((g.trap.map trapBits).getD 0) ++ leBytes 1 (b2n g.trap.isSome) ++
    leBytes 1 ((List.range 8).foldl (fun x i => if g.tmarks.contains i then x + 2 ^ i else x) 0) ++
    leBytes 2 (g.trace.tid % 4096 + b2n g.trace.on * 2 ^ 12 + b2n g.trace.l * 2 ^ 13) ++ leBytes 1 g.trace.ns ++ leBytes 3 0 ++
    leBytes 8 g.trace.last ++ g.stack.reverse.flatMap dentryBytes ++
    ((List.range r.tiles).flatMap fun t => (List.range 2048).map fun o => mapGetD g.tiles (t * 2048 + o) 0) ++
    ((List.range r.accs).flatMap fun k =>
      leBytes 2 (wrapN (mapGetD g.accE k 0) 16) ++ leBytes 6 0 ++
      ((List.range 1024).flatMap fun e => let x := mapGetD g.acc (k * 1024 + e) {}; leBytes 2 x.r0 ++ leBytes 2 x.r1 ++ leBytes 2 x.r2) ++
      accBits g k (·.nf) ++ accBits g k (·.ps)) ++
    ((List.range (r.regs * 8 * 32)).flatMap fun u => leBytes 4 (mapGetD regs u 0).toNat) ++
    ((List.range (r.regs * 8)).flatMap fun v => leBytes 4 (marks fun L => poisoned.contains (vunit v L))))

/-- The length of a group record with a stack count. -/
def recordLen (r : LRec) (sc : Nat) : Nat := (288 + 16 * sc + 2048 * r.tiles + 6408 * r.accs + r.regs * 8 * 132 + 15) / 16 * 16

/-- The record of a group that has retired: both slots FREE (R28, R360). A group record names no group, so a team's records stand
for its groups in ascending order, and a retired group has one too (DEDUCED, log 88). -/
def retiredRecord (r : LRec) : List Byte := List.replicate (recordLen r 0) 0

/-- A buffer entry, 16 bytes. -/
def bufBytes (b : Buf) : List Byte :=
  let st : Nat := match b.st with
    | .free => 0
    | .filling => 1
    | .full => 2
    | .draining => 3
  leBytes 2 (b.off / 16) ++ leBytes 2 (if b.alloc then b.size / 16 - 1 else 0) ++ leBytes 1 (st + 4 * b2n b.alloc) ++
    leBytes 1 b.serial ++ leBytes 1 b.status ++ leBytes 1 0 ++ leBytes 8 b.promise

/-- The cluster of first placement: of its unit that is bound to a cluster or core, or its own (R331). -/
def firstPlace (l : Launch) (t : Team) : Nat := ((l.lr.boundUnit t.index).bind (mapGet? l.units)).getD t.first

/-- A team record. -/
def teamRecord (s : State) (tid : Nat) (n : Option Nat) (last : Bool) : List Byte :=
  let t := getTeam s tid
  let w := getWin s t.win
  let r := (getLaunch s t.launch).lr
  let gs := r.liveGroups t.index
  let mine := !(s.teams.any fun o => o.2.win == t.win && !o.2.ended && decide (o.2.index < t.index))
  let body := (if mine then winBytes w 0 w.size else []) ++ ((List.range 32).flatMap fun i => bufBytes (mapGetD t.bufs i {})) ++
    gs.flatMap fun i => match (groupsOf s tid).find? fun g => g.2.idx == i with
      | some g => groupRecord s g.1 n
      | none => retiredRecord r
  leBytes 4 t.index ++ leBytes 1 gs.length ++ leBytes 1 w.bars ++ leBytes 2 0 ++ leBytes 4 (if mine then w.size else 0) ++
    leBytes 4 (if last then 0 else 64 + body.length) ++ leBytes 8 t.residence ++
    leBytes 4 (t.hash % 32 + firstPlace (getLaunch s t.launch) t % 32 * 256) ++
    List.replicate 36 0 ++ body

/-- The record of a flushed team that waits to run again: a fresh team. -/
def freshTeam (s : State) (l : Launch) (i : Nat) : State × Nat :=
  let r := freshId s
  let w := freshId r.1
  let s := { w.1 with wins := mapSet w.1.wins w.2 (newWin l (l.lr.home i) []),
                      teams := mapSet w.1.teams r.2 { launch := l.order, index := i, win := w.2, saved := true,
                                                      hash := l.lr.hash i, first := l.lr.home i } }
  ((l.lr.liveGroups i).foldl (fun s g => let k := freshId s; setGroup k.1 k.2 (newGroup l.lr r.2 i g 0)) s, r.2)

/-- The team records of a launch. -/
def launchRecords (s : State) (lid : Nat) (n : Option Nat) : List Byte × Nat :=
  let l := getLaunch s lid
  let own := ((teamsOf s lid).filter fun t => !t.2.ended).map (·.1)
  let r := l.redo.foldl (fun (a : State × List Nat) i => let q := freshTeam a.1 { l with order := lid } i; (q.1, a.2 ++ [q.2])) (s, own)
  (((List.range r.2.length).zip r.2).flatMap fun e => teamRecord r.1 e.2 n (e.1 + 1 == r.2.length), r.2.length)

/-- A launch entry, with the offset of its first team record. -/
def launchEntry (s : State) (l : Launch) (off cnt : Nat) : List Byte :=
  l.raw ++ leBytes 2 l.mb ++ leBytes 2 l.qidx ++ leBytes 4 (l.lr.teams - l.next) ++ leBytes 8 l.charged ++
    leBytes 8 ((l.arrival + (getCtx s l.ctx).tboff) % 2 ^ 64) ++ leBytes 8 off ++ leBytes 4 cnt ++ List.replicate 92 0

/-- A handle-table entry. -/
def handleBytes (e : HEntry) : List Byte :=
  (if e.alloc then boxBytes e.box else List.replicate 48 0) ++ leBytes 1 ((if e.st = 1 then 0 else e.st) + 8 * b2n e.part + 16 * b2n e.alloc) ++
    leBytes 1 e.serial ++ List.replicate 14 0

/-- A queue-pair descriptor (R366). -/
def qpBytes (q : QPair) : List Byte :=
  leBytes 16 (q.st + q.kind * 4 + q.peer * 16 + q.err * 2 ^ 24 + q.cred * 2 ^ 32 + q.rbase * 2 ^ 64 + q.wsize * 2 ^ 108)

/-- An operation of an image that stands for a CPYL of which only the count travelled (R360, log 72). -/
def linkPlain (o : Op) : Bool := match o.kind with
  | .link _ _ _ _ len _ _ _ => len == 0
  | _ => false

/-- Give the CPYLs of which only the count travelled the queue pairs of a list, in order (R360, log 72). -/
def nameLinks : List Op → List Nat → List Op × List Nat
  | [], qs => ([], qs)
  | o :: os, [] => (o :: os, [])
  | o :: os, q :: qs =>
    if linkPlain o then
      let r := nameLinks os qs
      ({ o with kind := .link q 0 0 0 0 0 false true } :: r.1, r.2)
    else
      let r := nameLinks os (q :: qs)
      (o :: r.1, r.2)

/-- The CPYLs that travelled with a context stand on its queue pairs, as many on each as the image counts (R360). -/
def restoreLinks (s : State) (ctx : Nat) (counts : List Nat) : State :=
  let qs := ((List.range 4).zip counts).flatMap fun c => List.replicate c.2 c.1
  let r := s.groups.foldl (fun (a : FMap Group × List Nat) g =>
    if ctxNumOf s g.1 = ctx then
      let o := nameLinks g.2.ops a.2
      (a.1 ++ [(g.1, { g.2 with ops := o.1 })], o.2)
    else (a.1 ++ [g], a.2)) ([], qs)
  { s with groups := r.1 }

/-- CPYL operations outstanding on a queue pair of a context. -/
def linksOut (s : State) (ctx qp : Nat) : List (Nat × Op) :=
  (s.groups.filter fun g => ctxNumOf s g.1 == ctx).flatMap fun g => (g.2.ops.filter fun o => !o.done && match o.kind with
    | .link q _ _ _ _ _ _ _ => q == qp
    | _ => false).map fun o => (g.1, o)

def ckMagic : Nat := 0x474D4943

/-- The image of a context: for checkpoint n, or for a move. -/
def imageBytes (s : State) (ctx : Nat) (n : Option Nat) : List Byte :=
  let x := getCtx s ctx
  let ls := s.launches.filter fun l => l.2.ctx == ctx
  let hoff := 256 + 256 * ls.length
  let qoff := hoff + 4096 * 64
  let recs := ls.map fun l => (l.2, launchRecords s l.1 n)
  let r := recs.foldl (fun (a : List Byte × Nat) e => (a.1 ++ launchEntry s e.1 a.2 e.2.2, a.2 + e.2.1.length)) ([], qoff + 128)
  leBytes 4 ckMagic ++ leBytes 2 1 ++ leBytes 1 x.floor ++ leBytes 1 (b2n n.isSome) ++ leBytes 8 (n.getD 0) ++ leBytes 8 (ctxTime s x) ++
    leBytes 8 (if 8 ≤ x.origin then x.root - (x.origin - 8) * 0x4000000000 else x.root) ++ leBytes 4 x.origin ++ leBytes 4 ls.length ++
    leBytes 8 256 ++ leBytes 8 hoff ++ leBytes 8 qoff ++ List.replicate 192 0 ++ r.1 ++
    ((List.range 4096).flatMap fun i => handleBytes (mapGetD x.handles i {})) ++
    ((List.range 4).flatMap fun q => qpBytes (mapGetD x.qps q {}) ++ leBytes 4 (linksOut s ctx q).length ++ List.replicate 12 0) ++
    recs.flatMap fun e => e.2.1

/-! ### The save area (R327) -/

/-- The bytes that SAVE leaves in the save area of a context: the context's image with the records of its saved teams and of no other
(R359, R360, log 21). -/
def savedBytes (s : State) (ctx : Nat) : List Byte :=
  imageBytes { s with teams := s.teams.filter fun t => t.2.saved || (getLaunch s t.2.launch).ctx != ctx } ctx none

/-- The Pavilion writes a context's saved teams to its save area; where the area cannot be written nothing is (R327, log 21). -/
def writeSaved (s : State) (ctx : Nat) : State :=
  let x := getCtx s ctx
  match engXlate s x x.save .engWrite with
  | .error _ => s
  | .ok _ =>
    let img := savedBytes s ctx
    let pas := engPas s x x.save img.length .engWrite
    clearCovered (postPut (engMark s x x.save img.length .engWrite) (pas.zip img)) pas

/-- A gang at its safe point takes its treatment: SAVE if any of its teams would be saved; a team whose groups have all retired simply
ends (R326, R327). -/
def safePoint (s : State) (tid : Nat) : Option State :=
  let ts := (gangTeams s tid).filter fun t => !(getTeam s t).saved && !(getTeam s t).gone
  if (mapGet? s.teams tid).isNone ∨ ts.isEmpty = true ∨ ts.any (fun t => (getTeam s t).preempt.isNone || !teamSafe s t) = true then none
  else
    let ks := ts.map (treatment s)
    if ks.contains .save then
      some (schedule (writeSaved (ts.foldl vacateWin (ts.foldl saveTeam s)) (getLaunch s (getTeam s tid).launch).ctx))
    else if ks.contains .flush then some (schedule (ts.foldl flushTeam s))
    else some (schedule (ts.foldl drainTeam s))

/-! ### Decoding -/

/-- A slot state code; 3 in an image is ACTIVE (R42). -/
def slotStOf (c : Nat) : SlotSt := match c with
  | 0 => .free | 1 => .active | 2 => .join | 3 => .active | 4 => .sleep | 5 => .barwait | _ => .held

/-- The waits that the wait field of a BARWAIT slot with lanes `m` holds. -/
def barWaitsOf (m : Mask) (w : Nat) : List Wait :=
  let ls : Mask := BitVec.ofNat 32 (bits w 51 20)
  .barrier (bits w 3 0) (bits w 11 4) (bits w 18 12) ls (bit w 19) ::
    if bit w 60 then [.barrier (bits w 3 0) (bits w 11 4) (bits w 58 52) (m &&& ~~~ls) (bit w 59)] else []

/-- A slot from its 32 bytes. One with an empty MASK is FREE, whatever its state says (R100; DEDUCED, log 60). -/
def slotOfBytes (bs : List Byte) : Slot :=
  let free : Bool := fieldAt bs 6 4 == 0
  let st := if free && slotStOf (fieldAt bs 10 1) != .held then .free else slotStOf (fieldAt bs 10 1)
  let w := fieldAt bs 24 8
  let prior := if free then .free else slotStOf (fieldAt bs 19 1 / 16 % 8)
  let eff := if st = .held then prior else st
  let h := decide (128 ≤ fieldAt bs 18 1)
  { pc := fieldAt bs 0 6, mask := BitVec.ofNat 32 (fieldAt bs 6 4), st := st, jd := fieldAt bs 11 1, ja := fieldAt bs 12 6,
    pv := fieldAt bs 18 1 % 128, pn := fieldAt bs 19 1 % 16, tbh := fieldAt bs 20 4, prior := if st = .held then prior else .free,
    missed := if h ∧ eff ≠ .sleep ∧ eff ≠ .free then some (bits w 61 14, bits w 13 12, bits w 11 0) else none,
    waits :=
      if eff = .sleep then [if h then .buffer (bits w 11 0) (bits w 61 14) (bits w 13 12) else .time w]
      else if eff = .barwait ∨ (eff = .join ∧ w ≠ 0 ∧ h = false) then barWaitsOf (BitVec.ofNat 32 (fieldAt bs 6 4)) w
      else [] }

/-- A trap record from its 256 bits (R218). -/
def trapOfBits (x : Nat) : TrapRec :=
  { code := bits x 7 0, word := bits x 9 8, pslot := if bit x 10 then .b else .a, lane := if bit x 16 then some (bits x 15 11) else none,
    jd := bits x 31 24, pc := bits x 79 32, sc := bits x 90 80, res := bits x 143 96, pv := bits x 150 144, pn := bits x 154 151,
    addr := bits x 223 160, detail := bits x 255 224 }

/-- The length of a group record that starts with the given bytes. -/
def groupLen (r : LRec) (bs : List Byte) : Nat := recordLen r (fieldAt bs 74 2)

/-- Operations that stand for the BUILD and LINK counts of an image. -/
def countOps (n m : Nat) : List Op :=
  ((List.range n).map fun i => { id := i, pipe := 2, slot := .a, kind := .build, cls := some .build }) ++
    (List.range m).map fun i => { id := n + i, pipe := 2, slot := .a, kind := .link 0 0 0 0 0 0 false true, cls := some .link }

def groupOfBytes (r : LRec) (tid idx : Nat) (bs : List Byte) : Group :=
  let sc := fieldAt bs 74 2
  let t0 := 288 + 16 * sc
  let a0 := t0 + 2048 * r.tiles
  let r0 := a0 + 6408 * r.accs
  let m0 := r0 + r.regs * 8 * 128
  let tr := fieldAt bs 274 2
  let a := slotOfBytes (sliceBytes bs 0 32)
  let b := slotOfBytes (sliceBytes bs 32 32)
  let acc (k e : Nat) : AccE :=
    let o := a0 + 6408 * k
    let mk (p : Nat) : Bool := bit (fieldAt bs (p + e / 8) 1) (e % 8)
    { r0 := fieldAt bs (o + 8 + 6 * e) 2 % 65535, r1 := fieldAt bs (o + 10 + 6 * e) 2, r2 := fieldAt bs (o + 12 + 6 * e) 2 % 65521,
      nf := mk (o + 6152), ps := mk (o + 6280) }
  { team := tid, idx := idx, a := a, b := b, sticky := BitVec.ofNat 32 (fieldAt bs 76 4),
    retired := a.st == .free && b.st == .free && sc == 0,
    pins := ((List.range 8).map fun i => (fieldAt bs (80 + 16 * i) 8, fieldAt bs (88 + 16 * i) 4)).filter fun p => p != (0, 0),
    tcfg := (List.range 8).foldl (fun m i => mapPut m i 0 (fieldAt bs (208 + 4 * i) 4)) [],
    trap := if bit (fieldAt bs 272 1) 0 then some (trapOfBits (fieldAt bs 240 32)) else none,
    tmarks := (List.range 8).foldl (fun m i => if bit (fieldAt bs 273 1) i then setAdd m i else m) [],
    trace := { tid := bits tr 11 0, on := bit tr 12, l := bit tr 13, ns := fieldAt bs 276 1, last := fieldAt bs 280 8 },
    stack := ((List.range sc).map fun i => dentryOf (sliceBytes bs (288 + 16 * i) 16)).reverse,
    tiles := (List.range (2048 * r.tiles)).foldl (fun m o => mapPut m o 0 (BitVec.ofNat 8 (fieldAt bs (t0 + o) 1))) [],
    accE := (List.range r.accs).foldl (fun m k => mapPut m k 0 (sext (fieldAt bs (a0 + 6408 * k) 2) 16)) [],
    acc := (List.range (1024 * r.accs)).foldl (fun m e => mapPut m e {} (acc (e / 1024) (e % 1024))) [],
    regs := (List.range (r.regs * 8 * 32)).foldl (fun m u => mapPut m u 0 (BitVec.ofNat 32 (fieldAt bs (r0 + 4 * u) 4))) [],
    marks := (List.range (r.regs * 8 * 32)).foldl (fun m u => if bit (fieldAt bs (m0 + 4 * (u / 32)) 4) (u % 32) then setAdd m u else m) [],
    ops := countOps (fieldAt bs 72 1) (fieldAt bs 73 1), nextOp := fieldAt bs 72 1 + fieldAt bs 73 1 }

def bufOfBytes (bs : List Byte) : Buf :=
  let f := fieldAt bs 4 1
  { alloc := bit f 2, off := 16 * (fieldAt bs 0 2 % 2 ^ 14), size := if bit f 2 then 16 * (fieldAt bs 2 2 % 2 ^ 14 + 1) else 0,
    st := if f % 4 = 0 then .free else if f % 4 = 1 then .filling else if f % 4 = 2 then .full else .draining,
    serial := fieldAt bs 5 1 % 16, status := fieldAt bs 6 1, promise := fieldAt bs 8 8 }

/-- Restore the groups of a team record; a retired group with nothing outstanding is gone. -/
def restoreGroups (r : LRec) (tid : Nat) : Nat → List Nat → List Byte → State → State
  | 0, _, _, s => s
  | _, [], _, s => s
  | n + 1, i :: is, bs, s =>
    let k := freshId s
    let g := groupOfBytes r tid i bs
    restoreGroups r tid n is (bs.drop (groupLen r bs))
      (if g.retired && g.ops.isEmpty then s else setGroup k.1 k.2 g)

/-- Restore the team records of a launch: saved teams that are ready. -/
def restoreTeams (lid : Nat) : Nat → List Byte → State → State
  | 0, _, s => s
  | n + 1, bs, s =>
    let l := getLaunch s lid
    let idx := fieldAt bs 0 3
    let wb := fieldAt bs 8 4
    let k := freshId s
    let old := (s.teams.find? fun t => t.2.launch == lid && l.lr.winKey t.2.index == l.lr.winKey idx).map (·.2.win)
    let w := freshId k.1
    let win : Win := { newWin l 0 [] with data := (withAddrs 0 (sliceBytes bs 64 wb)).foldl (fun m e => mapPut m e.1 0 e.2) [] }
    let s := match old with
      | some o => if wb = 0 then w.1 else { w.1 with wins := mapMod w.1.wins o fun v => { v with data := win.data } }
      | none => { w.1 with wins := mapSet w.1.wins w.2 win }
    let bufs := (List.range 32).foldl (fun m i =>
      let b := bufOfBytes (sliceBytes bs (64 + wb + 16 * i) 16)
      if b = {} then m else mapSet m i b) []
    let cw := fieldAt bs 24 4
    let t : Team :=
      { launch := lid, index := idx, win := old.getD w.2, bufs := bufs, saved := true, ready := true, residence := fieldAt bs 16 8,
        hash := bits cw 4 0, first := l.lr.home idx, stamp := k.2, disp := k.2 }
    let s := { s with teams := mapSet s.teams k.2 t }
    let s := restoreGroups l.lr k.2 (fieldAt bs 4 1) (l.lr.liveGroups idx) (bs.drop (64 + wb + 512)) s
    let nx := fieldAt bs 12 4
    if nx = 0 then s else restoreTeams lid n (bs.drop nx) s

/-- The zero bytes of a group record are zero: of the pin entries, the trap record, TV, the trace state and the accumulators, and
the padding (R218, R360). -/
def groupZeros (r : LRec) (bs : List Byte) : Bool :=
  let a0 := 288 + 16 * fieldAt bs 74 2 + 2048 * r.tiles
  let last := a0 + 6408 * r.accs + r.regs * 8 * 132
  let t := fieldAt bs 240 32
  (List.range 8).all (fun i => fieldAt bs (92 + 16 * i) 4 == 0) && bits t 23 17 == 0 && bits t 95 91 == 0 && bits t 159 155 == 0 &&
    fieldAt bs 272 1 / 2 == 0 && bits (fieldAt bs 274 2) 15 14 == 0 && fieldAt bs 277 3 == 0 &&
    (List.range r.accs).all (fun k => fieldAt bs (a0 + 6408 * k + 2) 6 == 0) && fieldAt bs last (recordLen r (fieldAt bs 74 2) - last) == 0

/-- The group records of a team are legal: no slot state is 7, and the zero bytes are zero (R359). -/
def groupsLegal (r : LRec) : Nat → List Byte → Bool
  | 0, _ => true
  | n + 1, bs => fieldAt bs 10 1 != 7 && fieldAt bs 42 1 != 7 && groupZeros r bs && groupsLegal r n (bs.drop (groupLen r bs))

/-- The zero bits of 32 buffer entries are zero. -/
def bufsLegal (bs : List Byte) : Bool := (List.range 32).all fun i =>
  fieldAt bs (16 * i + 4) 1 / 8 == 0 && fieldAt bs (16 * i + 5) 1 / 16 == 0 && fieldAt bs (16 * i + 7) 1 == 0

/-- The team records of a launch are legal (R359, R360). -/
def teamsLegal (r : LRec) : Nat → List Byte → Bool
  | 0, _ => true
  | n + 1, bs => fieldAt bs 3 1 == 0 && fieldAt bs 5 1 / 32 == 0 && fieldAt bs 6 2 == 0 && bits (fieldAt bs 24 4) 7 5 == 0 &&
      bits (fieldAt bs 24 4) 31 13 == 0 && fieldAt bs 28 36 == 0 && bufsLegal (bs.drop (64 + fieldAt bs 8 4)) &&
      groupsLegal r (fieldAt bs 4 1) (bs.drop (64 + fieldAt bs 8 4 + 512)) &&
      (fieldAt bs 12 4 == 0 || teamsLegal r n (bs.drop (fieldAt bs 12 4)))

/-- The zero bits of some handle-table entries are zero (R360). -/
def handlesLegal : Nat → List Byte → Bool
  | 0, _ => true
  | n + 1, bs => bs.isEmpty ||
      (fieldAt bs 45 3 == 0 && fieldAt bs 48 1 / 32 == 0 && fieldAt bs 49 1 / 16 == 0 && fieldAt bs 50 14 == 0 && handlesLegal n (bs.drop 64))

/-- The zero bits of a queue-pair table are zero (R360, R366). -/
def qpsLegal (bs : List Byte) : Bool := (List.range 4).all fun q =>
  let v := fieldAt bs (32 * q) 16
  !bit v 3 && bits v 23 8 == 0 && fieldAt bs (32 * q + 20) 12 == 0

/-- A restore takes an image (R359). -/
def imageLegal (bs : List Byte) (level : Nat) : Bool :=
  let nl := fieldAt bs 36 4
  let loff := fieldAt bs 40 8
  fieldAt bs 0 4 == ckMagic && fieldAt bs 4 2 == 1 && fieldAt bs 7 1 / 2 == 0 && fieldAt bs 64 192 == 0 &&
  decide (1 ≤ fieldAt bs 6 1) && decide (fieldAt bs 6 1 ≤ level) && handlesLegal 4096 (bs.drop (fieldAt bs 48 8)) &&
  qpsLegal (bs.drop (fieldAt bs 56 8)) &&
  (List.range nl).all fun i =>
    let e := bs.drop (loff + 256 * i)
    recordZeros (sliceBytes e 0 128) && fieldAt e 164 92 == 0 && fieldAt e 129 1 / 16 == 0 && fieldAt e 131 1 == 0 && fieldAt e 135 1 == 0 &&
      teamsLegal (lrecOfBytes (sliceBytes e 0 128)) (fieldAt e 160 4) (bs.drop (fieldAt e 152 8))

def hentryOfBytes (bs : List Byte) : HEntry :=
  let f := fieldAt bs 48 1
  { box := boxOfBytes bs, st := f % 8, alloc := bit f 4, serial := fieldAt bs 49 1 % 16, reacq := decide (2 ≤ f % 8) && bit f 4 }

def qpOfBytes (bs : List Byte) : QPair :=
  let v := fieldAt bs 0 16
  { st := bits v 1 0, kind := bits v 2 2, peer := bits v 7 4, err := bits v 31 24, cred := bits v 63 32, rbase := bits v 107 64,
    wsize := bits v 127 108 }

/-- Restore the launches of an image. -/
def restoreLaunches (ctx : Nat) (img : List Byte) (tboff : Nat) : Nat → List Byte → State → State
  | 0, _, s => s
  | n + 1, bs, s =>
    let raw := sliceBytes bs 0 128
    let lr := lrecOfBytes raw
    let mb := fieldAt bs 128 2 % 4096
    let q := fieldAt bs 130 1
    let k := freshId s
    let l : Launch :=
      { mb := mb, ctx := ctx, qidx := q, tmpl := (getBox s mb).tmpl, lr := lr, raw := raw,
        msg := engBytes s ((getBox s mb).qbase + 64 * q) 64, arrival := wrapN ((fieldAt bs 144 8 : Nat) - (tboff : Nat)) 64,
        next := lr.teams - fieldAt bs 132 3, ended := lr.teams - fieldAt bs 132 3 - fieldAt bs 160 4, charged := fieldAt bs 136 8,
        order := k.2 }
    let s := restoreTeams k.2 (fieldAt bs 160 4) (img.drop (fieldAt bs 152 8)) { k.1 with launches := mapSet k.1.launches k.2 l }
    restoreLaunches ctx img tboff n (bs.drop 256) s

/-- Make a context of an image that a companion offers: TBOFF continues its timebase (R36, R361), its root takes the form
for the companion's agent number (R358, R359), and its teams are ready for restore. -/
def restoreContext (s : State) (ctx : Nat) (img : List Byte) (origin : Nat) : State :=
  let x := getCtx s ctx
  let tboff := wrapN ((fieldAt img 16 8 : Nat) - (s.tb : Nat)) 64
  let root := fieldAt img 24 8 + (origin - 8) * 0x4000000000
  let hs := (List.range 4096).foldl (fun m i =>
    let e := hentryOfBytes (sliceBytes img (fieldAt img 48 8 + 64 * i) 64)
    if e = {} then m else mapSet m i e) []
  let qs := (List.range 4).foldl (fun m i =>
    let q := qpOfBytes (sliceBytes img (fieldAt img 56 8 + 32 * i) 32)
    -- a pair that was READY and whose peer is no docked companion here enters ERROR (R366)
    let q := if q.st = 1 ∧ companionDocked s q.peer = false then { q with st := 2, err := 1 } else q
    if q = {} then m else mapSet m i q) []
  let y : Context :=
    { x with num := ctx, floor := fieldAt img 6 1, st := 1, root := root, tboff := tboff, origin := origin, handles := hs, qps := qs,
             moving := none }
  let s := { s with ctxs := mapSet s.ctxs ctx y }
  let s := restoreLaunches ctx img tboff (fieldAt img 36 4) (img.drop (fieldAt img 40 8)) s
  restoreLinks s ctx ((List.range 4).map fun q => fieldAt img (fieldAt img 56 8 + 32 * q + 16) 4)

end Sys2Proof.Machine
end

