-- ==== Sys2Proof/Machine/Checkpoint.lean ====
section
/-! DEFINITION. Checkpoints: the image, the mirrored pages, the commit (R216, R364, R365). -/
namespace Sys2Proof.Machine

open Sys2Proof

/-! ### Mirrored pages -/

/-- A leaf of a context's page tables. -/
structure LeafAt where
  va    : Nat
  pa    : Nat
  level : Nat
  pte   : Nat
  bitsOf : Nat
  deriving DecidableEq, Repr

/-- The valid leaves below a node of a level. -/
def leavesFrom (s : State) : Nat → Nat → Nat → List LeafAt
  | 0, node, va => (List.range 512).filterMap fun i =>
      let e := leValue (engBytes s (node + 8 * i) 8)
      if bit e 0 && bit e 1 then some { va := va + i * 2 ^ 17, pa := bits e 43 12 * 4096, level := 0, pte := node + 8 * i, bitsOf := e }
      else none
  | n + 1, node, va => (List.range (if n = 2 then 16 else 512)).flatMap fun i =>
      let e := leValue (engBytes s (node + 8 * i) 8)
      let v := va + i * leafSize (n + 1)
      let v := if n = 2 then va + i * 2 ^ 44 else v
      if !bit e 0 then []
      else if bit e 1 then [{ va := v, pa := bits e 43 12 * 4096, level := n + 1, pte := node + 8 * i, bitsOf := e }]
      else leavesFrom s n (bits e 43 12 * 4096) v

/-- Every valid leaf of a context. -/
def leavesOf (s : State) (x : Context) : List LeafAt := leavesFrom s 3 x.root 0

/-- A page of a die has been written: at its home, or in a cache whose bytes have yet to reach it (R364). -/
def pageWritten (s : State) (page : Nat) : Bool :=
  let dirty (m : FMap CLine) : Bool := m.any fun e => e.1 / 1024 == page && e.2.dirty != 0
  s.written.contains page || s.dies.any (fun d => dirty d.2.l2) || s.clusters.any (fun k => dirty k.2.cc) || s.cores.any fun c => dirty c.2.l1

/-- The physical 128 KiB pages that checkpoints of a context mirror: Afmor-homed, MIR = 1, and written by whatever agent, or already
holding a frame number (R364, log 61). -/
def mirrorPages (s : State) (x : Context) : List Nat :=
  dedupN ((leavesOf s x).flatMap fun l =>
    if !bit l.bitsOf 11 || decide (4 ≤ bits l.bitsOf 9 6) then []
    else
      let n := if l.level = 0 then 1 else if l.level = 1 then 512 else 262144
      ((List.range n).map (l.pa / 131072 + ·)).filter fun p => pageWritten s p || (mapGet? x.mirror.frameOf p).isSome)

/-- Give frame numbers, lowest free first; none when no frame is free. -/
def assignFrames (frames : Nat) : List Nat → FMap Nat → Option (FMap Nat)
  | [], m => some m
  | p :: ps, m =>
    if (mapGet? m p).isSome then assignFrames frames ps m
    else match (List.range frames).find? fun k => !(m.any fun e => e.2 == k) with
      | none => none
      | some k => assignFrames frames ps (mapSet m p k)

/-- Write bytes of companion memory directly, outside the log. -/
def directPut (s : State) (pa : Nat) (bs : List Byte) : State :=
  { s with mem := (withAddrs pa bs).foldl (fun m e => memPut m e.1 e.2) s.mem }

/-! ### The stages of a checkpoint -/

/-- Every team of the context is saved. -/
def allSaved (s : State) (ctx : Nat) : Bool := (teamsOfCtx s ctx).all fun t => t.2.saved

/-- The teams saved for a checkpoint are ready for restore. -/
def readyCheckpoint (s : State) (ctx n : Nat) : State :=
  (teamsOfCtx s ctx).foldl (fun s t => if t.2.why == .checkpoint n then modTeam s t.1 fun x => { x with ready := x.saved } else
    if t.2.preempt == some (.checkpoint n) then schedEvent (modTeam s t.1 fun x => { x with preempt := none }) else s) s

/-- CKPT slots that wait for checkpoint n end with a value in d, and become ACTIVE at the next chain (R216). -/
def endCkpts (s : State) (ctx n v : Nat) : State :=
  (s.groups.filter fun g => ctxNumOf s g.1 == ctx).foldl (fun s g =>
    [PSlot.a, .b].foldl (fun s sl => match firstSome (fun w : Wait => match w with
        | .ckpt d pc (some k) => if k = n then some (d, pc) else none
        | _ => none) ((getGroup s g.1).slot sl).waits with
      | none => s
      | some (d, pc) =>
        unblockGroup (modGroup s g.1 fun x => x.status s.fresh d (x.slot sl).mask v) g.1 (.ckpt d pc (some n))) s) s

/-- Slots that wait to start the next checkpoint start it, and wait for it (R216). -/
def nextCheckpoint (s : State) (ctx : Nat) : State :=
  let gs := s.groups.filter fun g => ctxNumOf s g.1 == ctx
  let waits (v : Slot) : Bool := v.waits.any fun w => match w with
    | .ckpt _ _ none => true
    | _ => false
  if gs.all fun g => !waits g.2.a && !waits g.2.b then s
  else
    let s := startCheckpoint s ctx
    let n := (getCtx s ctx).mirror.inProgress
    let next (v : Slot) : Slot := { v with waits := v.waits.map fun w => match w with
      | .ckpt d pc none => .ckpt d pc n
      | w => w }
    gs.foldl (fun s g => modGroup s g.1 fun x => { x with a := next x.a, b := next x.b }) s

/-- A checkpoint does not commit: its slots get 0, and its number is used again (R364, log 62). Its marker stands in the log; the last
marker of a number counts. -/
def failCheckpoint (s : State) (ctx : Nat) : State :=
  match (getCtx s ctx).mirror.inProgress with
  | none => s
  | some n =>
    let s := modMirror s ctx fun m => { m with inProgress := none, lastNo := n - 1, imgDone := false }
    schedule (nextCheckpoint (endCkpts (readyCheckpoint s ctx n) ctx n 0) ctx)

/-- Steps 1 to 4 of R364: the marker, the image, the frames, and the teams ready for restore. -/
def imageCheckpoint (s : State) (ctx n : Nat) : State :=
  let x := getCtx s ctx
  let m := x.mirror
  let slot := if n % 2 = 0 then m.slot0 else m.slot1
  let img := imageBytes s ctx (some n)
  let pages := mirrorPages s x
  match assignFrames m.frames pages m.frameOf with
  | none => failCheckpoint s ctx
  | some fs =>
    if m.imgu * 131072 < img.length then failCheckpoint s ctx
    else
      let s := directPut s slot img
      let s := pages.foldl (fun s p => directPut s (slot + (m.imgu + mapGetD fs p 0) * 131072) (engBytes s (p * 131072) 131072)) s
      let s := logPut (modMirror s ctx fun m => { m with imgDone := true, imgAt := s.fresh, frameOf := fs }) ctx { marker := some n }
      schedule (readyCheckpoint s ctx n)

/-- The companion whose memory holds the mirror slots. -/
def mirrorHalf (s : State) (x : Context) : Option Nat := halfOfAgent s ((homeOf x.mirror.slot0).getD 0)

/-- Step 5 of R364: the commit word, COMMIT, whose fields' places are the model's (DESIGN CHOICE, log 115), and the end of the slots that
wait. -/
def commitCheckpoint (s : State) (ctx n : Nat) : State :=
  let x := getCtx s ctx
  match mirrorHalf s x with
  | none => failCheckpoint s ctx
  | some half =>
    let s := directPut s x.mirror.commit (leBytes 8 n)
    let s := pairSend s half 0x20 ctx 0 (leBytes 4 ctx ++ leBytes 8 n)
    let s := modMirror s ctx fun m => { m with inProgress := none, committed := n, lastAt := s.tb, imgDone := false,
                                               stood := m.frameOf }
    nextCheckpoint (endCkpts s ctx n (n % 2 ^ 31)) ctx

/-- A CPYL.WRITE of the context that issued before the image was made has yet to be performed at the remote side: the commit waits
for it, since in every run of R416 the messages sent before a committed checkpoint stand (DEDUCED, log 110). -/
def linksToCome (s : State) (ctx : Nat) : Bool := s.groups.any fun g => ctxNumOf s g.1 == ctx && g.2.ops.any fun o => !o.done &&
  match o.kind with
  | .link qp _ _ _ len seq wr sent => wr && !sent && len != 0 && decide (seq < (getCtx s ctx).mirror.imgAt) &&
      (mapGetD (getCtx s ctx).qps qp {}).st == 1
  | _ => false

/-- A checkpoint in progress takes its next stage; none where its teams are not yet saved. -/
def stepCheckpoint (s : State) (ctx : Nat) : Option State :=
  let m := (getCtx s ctx).mirror
  match m.inProgress with
  | none => none
  | some n =>
    if m.imgDone then if linksToCome s ctx then none else some (commitCheckpoint s ctx n)
    else if allSaved s ctx then some (imageCheckpoint s ctx n)
    else none

/-- INTERVAL has passed since the last commit, or the log is full (R364, R365). -/
def checkpointDue (s : State) (ctx : Nat) : Bool :=
  let m := (getCtx s ctx).mirror
  m.en && m.inProgress.isNone && (getCtx s ctx).st == 1 &&
    ((m.interval != 0 && decide (1000 * m.interval ≤ elapsed s m.lastAt)) || (decide (0 < m.logsz) && decide (m.logsz ≤ m.entries.length)))

/-- The place of the last marker of checkpoint n in a log. -/
def lastMarker (es : List LogE) (n : Nat) : Option Nat :=
  ((List.range es.length).filter fun i => (es[i]?.bind (·.marker)) == some n).getLast?

/-- Apply the log entries before the last marker n, and free them: writes that the full log stalled are accepted into the room
(R365). -/
def applyLog (s : State) (ctx n : Nat) : State :=
  let m := (getCtx s ctx).mirror
  match lastMarker m.entries n with
  | none => s
  | some k =>
    let s := (m.entries.take k).foldl (fun s e => if e.marker.isSome then s else
      { s with mem := (List.range 128).foldl (fun mm i => if bit e.mask i then memPut mm (e.line * 128 + i) (mapGetD e.data i 0) else mm) s.mem }) s
    let m' : Mirror := { m with entries := m.entries.drop (k + 1), head := if m.logsz = 0 then 0 else (m.head + k + 1) % m.logsz }
    ((List.range m'.entries.length).filter fun i => decide (m.logsz ≤ i + k + 1)).foldl (fun s i => ringPut s m' i)
      (modMirror s ctx fun _ => m')

end Sys2Proof.Machine
end

