-- ==== Sys2Proof/Machine/Host.lean ====
section
/-! DEFINITION. The host interface: register pages, requests to the Pavilion, fault replies, invalidation, host mailbox
writes, resets and power (R297 to R303, R332, R373 to R380, R386 to R393). -/
namespace Sys2Proof.Machine

open Sys2Proof

/-! ### Functions (R373, R375) -/

/-- The fused minimum security version: as manufactured, or as firmware has raised it (R387). -/
def svnFuse (s : State) : Nat := max Config.svnMinimum.toNat s.svnRaised

/-- Firmware raises the fused minimum, and never lowers it (R387). -/
def raiseSvn (s : State) (v : Nat) : State := { s with svnRaised := max s.svnRaised (v % 2 ^ 16) }

/-- The firmware runs: its signature verifies and its version is not below the fused minimum (R387). -/
def bootOk (s : State) : Bool := Config.firmwareOk && decide (svnFuse s ≤ Config.svn.toNat)

/-- The work of the present phase succeeds (R392). -/
def phaseDone (s : State) : Bool := s.phase == 0 || (if s.phase = 1 then bootOk s else Config.phaseOk s.phase)

/-- The work of the present phase is done, and the next begins; a failure stops at its phase with FAIL set (R392). Phase 2 zeroes the
poison tables; what phase 4 initialises stands as at reset. -/
def advanceBoot (s : State) : State :=
  if !phaseDone s then
    { s with fail := if (Config.failCause s.phase).toNat = 0 then 1 else (Config.failCause s.phase).toNat }
  else { s with phase := s.phase + 1, poison := if s.phase = 2 then [] else s.poison }

/-- A function takes register accesses: PF0 from phase 5 and after a failed bring-up, every function from phase 6. -/
def fnLive (s : State) (f : Nat) : Bool := if f = 0 then decide (5 ≤ s.phase) || s.fail != 0 else decide (f ≤ 16) && s.phase == 6

/-- A refused write counts in REJ, saturating (R375). -/
def rej (s : State) (f : Nat) : State := modFn s f fun x => { x with rej := if x.rej < 65535 then x.rej + 1 else x.rej }

/-- A function may name a context: PF0 any, a VF its own tenant's. -/
def ownsCtx (s : State) (f c : Nat) : Bool := f == 0 || ((mapGet? s.ctxs c).isSome && !(getCtx s c).sys && (getCtx s c).ten + 1 == f)

/-- A function may name a mailbox. -/
def ownsBox (s : State) (f mb : Nat) : Bool := f == 0 || (!(getCtx s (getBox s mb).ctx).sys && (getBox s mb).ten + 1 == f)

/-- RASSTAT [15:0] of a die: CORES, SPC, SPS. -/
def rasLow (s : State) (d : Nat) : Nat := let x := getDie s d; x.cores + x.spc * 64 + x.sps * 256

/-- HSTAT, RASSTAT and PAIRSTAT as a read returns them (R354, R375). -/
def hstatWord (x : HostFn) : Nat := b2n x.busy + x.status * 2 ^ 8 + x.rej * 2 ^ 16
def rasstatWord (s : State) (d : Nat) : Nat := rasLow s d + (getDie s d).cecnt * 2 ^ 16 + ptUse s d % 2 ^ 16 * 2 ^ 32
def pairstatWord (h : Half) : Nat :=
  h.st + (if h.st = 4 ∨ h.st = 5 then h.ver else 0) * 2 ^ 3 + h.agent * 2 ^ 5 + h.refuse * 2 ^ 16 + h.drops * 2 ^ 24

/-- INVSTAT and BOOTSTAT as a read returns them (R299, R375). -/
def invstatWord (s : State) : Nat := b2n (!s.invq.isEmpty) + b2n s.ovf * 2
def bootstatWord (s : State) : Nat := s.phase + s.fail * 2 ^ 8 + Config.svn.toNat * 2 ^ 16

/-- The word that a host read of a function's register page returns: a register with no readable field reads as
zero (R375; DESIGN CHOICE, log 116). -/
def regWord (s : State) (f off : Nat) : Nat :=
  if off = 0x10 then invstatWord s
  else if off = 0x28 then hstatWord (getFn s f)
  else if 0x100 ≤ off ∧ off < 0x200 then (if off % 4 = 0 then mapGetD (getFn s f).irq ((off - 0x100) / 4) 0 else 0)
  else if f ≠ 0 then 0
  else if 0x200 ≤ off ∧ off < 0x220 ∧ off % 8 = 0 then rasstatWord s ((off - 0x200) / 8)
  else if off = 0x220 then bootstatWord s
  else 0

/-- What a host read of one of a function's BARs returns: BAR0 reads as zero, BAR2 is the register page (R373). -/
def hostRead (s : State) (f bar off : Nat) : Nat := if bar = 2 then regWord s f off else 0

/-- Reading HSTAT returns it and clears REJ. -/
def readHstat (s : State) (f : Nat) : State :=
  if fnLive s f then modFn { s with readback := hostRead s f 2 0x28 } f fun x => { x with rej := 0 } else s

/-- Reading RASSTAT through PF0 returns it and clears CECNT; through a VF its place reads as zero. -/
def readRasstat (s : State) (f d : Nat) : State :=
  if !fnLive s f || decide (4 ≤ d) then s
  else
    let s := { s with readback := hostRead s f 2 (0x200 + 8 * d) }
    if f = 0 then modDie s d fun x => { x with cecnt := 0 } else s

/-- Reading PAIRSTAT returns it and clears DROPS (R354). -/
def readPairstat (s : State) (half : Nat) : State :=
  if half < 8 then modHalf { s with readback := pairstatWord (getHalf s half) } half fun h => { h with drops := 0 } else s

/-! ### TLBINV (R299, R300) -/

/-- The command that word 0 and word 1 make. -/
def invOf (w0 w1 : Nat) : InvCmd :=
  { kind := bits w0 1 0, ctx := bits w0 15 4, ten := bits w0 19 16, count := bits w0 63 32, va := bits w1 47 17 * 131072 }

/-- A host function may give the command; function 17 stands for the Pavilion. -/
def invAllowed (s : State) (f : Nat) (c : InvCmd) : Bool :=
  f == 17 || (c.kind != 3 && (if c.kind = 2 then f == 0 || c.ten + 1 == f else ownsCtx s f c.ctx))

/-- A function writes word 1 of TLBINV, with a word 0 of the given KIND. -/
def writeInv (s : State) (f w1 kind : Nat) : State :=
  let c := invOf (getFn s f).tlbinv0 w1
  if (fnLive s f || f == 17) = false ∨ c.kind ≠ kind then s
  else if !invAllowed s f c then rej s f
  else if 16 ≤ s.invq.length then { s with ovf := true }
  else { s with invq := s.invq ++ [c] }

/-- A command drops a translation. -/
def invDrops (c : InvCmd) (e : TlbE) : Bool :=
  let base := e.va * 131072 / e.size * e.size
  if c.kind = 0 then e.ctx == c.ctx && decide (base < c.va + c.count * 131072) && decide (c.va < base + e.size)
  else if c.kind = 1 then e.ctx == c.ctx
  else if c.kind = 2 then e.ten == c.ten
  else true

/-- An operation that issued under its translations has accesses to be performed yet. -/
def opAbroad (o : Op) : Bool := !o.done && match o.kind with
  | .load _ _ _ ls => !ls.isEmpty
  | .store nc _ rest => nc || !rest.isEmpty
  | .atomic _ _ _ _ _ _ _ => true
  | .cacheOp _ _ _ => true
  | .prefetch _ _ => true
  | _ => false

/-- A group of a core has accesses on their way that issued under translations: of loads, stores, atomics, CACHE operations and
matrix words. The engines translate as they move their data. -/
def accessesOut (s : State) (core : Nat) : Bool := s.groups.any fun g => (getTeam s g.2.team).core == core && !(getTeam s g.2.team).saved &&
  (g.2.ops.any opAbroad || g.2.mq.any fun w => !w.pas.isEmpty)

/-- A command concerns a core: its TLB or its cluster's holds a translation that is to go, or it runs a group of a context that the
command names. -/
def invConcerns (s : State) (c : InvCmd) (core : Nat) : Bool :=
  (getCore s core).tlb.any (invDrops c) || (getCluster s (clusterOf core)).tlb.any (invDrops c) ||
  s.groups.any fun g => (getTeam s g.2.team).core == core && !(getTeam s g.2.team).saved &&
    (let x := ctxOf s g.1
     if c.kind < 2 then x.num == c.ctx else c.kind == 3 || tenantOf x == c.ten)

/-- A core, or its cluster, holds bytes that stores have left dirty. A cache does not say under which translation a byte was stored,
so every one of them may be of a translation that goes. -/
def holdsDirty (s : State) (core : Nat) : Bool :=
  (getCore s core).l1.any (fun e => e.2.dirty != 0) || (getCluster s (clusterOf core)).cc.any fun e => e.2.dirty != 0

/-- The effect of a command: the translations go, and what issued under them is performed, at PAIR scope for companion-homed pages;
a step that makes one waits for what is still out (R300). -/
def invalidate (s : State) (c : InvCmd) : State :=
  let cores := (s.cores.map (·.1)).filter (invConcerns s c)
  let s := if cores.any (accessesOut s) then { s with wants := s.wants ++ [.quiet] } else s
  let s := ((s.cores.map (·.1)).filter fun k => cores.contains k || holdsDirty s k).foldl (fun s k => pairRelease (releaseCore s k)) s
  { s with
    cores := s.cores.map fun k => (k.1, { k.2 with tlb := k.2.tlb.filter fun e => !invDrops c e })
    clusters := s.clusters.map fun k => (k.1, { k.2 with tlb := k.2.tlb.filter fun e => !invDrops c e }) }

/-- The docked companions, which may run the context of a command, have completed it too: when they do is theirs (R300, log 94). -/
def companionsDone (s : State) : Bool := !(s.halves.any fun h => h.2.st == 4 || h.2.st == 5) || Config.companionInv s.tb

/-- The oldest command completes, once what issued under its translations is performed and docked companions have completed it too
(R300). -/
def completeInv (s : State) : State := match s.invq with
  | [] => s
  | c :: r =>
    if ((s.cores.map (·.1)).filter (invConcerns s c)).any (accessesOut s) ∨ companionsDone s = false then s
    else { invalidate s c with invq := r }

/-! ### FLTREP (R303) -/

/-- Restart or fail the engine operations of a context that wait for a page. -/
def replyOps (s : State) (ctx page : Nat) (fail : Bool) : State :=
  { s with groups := s.groups.map fun g =>
      if ctxNumOf s g.1 = ctx then
        (g.1, { g.2 with ops := g.2.ops.map fun o => match o.flt with
          | some (p, _) => if p = page then { o with flt := none, failed := if fail then p :: o.failed else o.failed } else o
          | none => o })
      else g }

/-- The teams of a context that wait for a page wait for it no more: a saved one that waits for no other is ready for restore,
which is a scheduling event (R303, R325, R330). -/
def readyFault (s : State) (ctx page : Nat) : State :=
  (teamsOfCtx s ctx).foldl (fun s t =>
    if t.2.flts.contains page then
      let s := modTeam s t.1 fun x => { x with flts := setDel x.flts page }
      if t.2.saved && t.2.flts == [page] then schedEvent s else s
    else s) s

/-- The teams of a context that wait for a page whose reply is a fail stay saved (R303, R330). -/
def failFault (s : State) (ctx page : Nat) : State :=
  (teamsOfCtx s ctx).foldl (fun s t => if t.2.flts.contains page then modTeam s t.1 fun x => { x with lost := true } else s) s

/-- Drains of a context's trace banks that wait for a page: restarted, or ended by a failed reply (R395). -/
def replyDrains (s : State) (ctx page : Nat) (fail : Bool) : State :=
  s.clusters.foldl (fun s k =>
    if k.2.trace.ctx = ctx ∧ (k.2.trace.flt.map (·.1)) = some page then
      modCluster s k.1 fun x =>
        if fail then setBank { x with trace := { x.trace with en := false, flt := none } } x.trace.bank { getBank x x.trace.bank with fifo := [] }
        else { x with trace := { x.trace with flt := none } }
    else s) s

/-- Decrements of PINS whose header's page the reply is about: performed again on a retry, lost on a fail (R227, R303). -/
def replyPins (s : State) (ctx page : Nat) (fail : Bool) : State :=
  let due := s.unpins.filter fun p => p.ctx == ctx && faultPage p.hdr == page
  let s := { s with unpins := s.unpins.filter fun p => !(p.ctx == ctx && faultPage p.hdr == page) }
  if fail then s else due.foldl (fun s p => headerPins s (getCtx s ctx) p.hdr p.gen ((p.op.map fun o => dieOf s o.1).getD 4) p.op) s

/-- Mailboxes whose template waits for a page (R314). -/
def replyTemplates (s : State) (ctx page : Nat) (fail : Bool) : State :=
  (s.mboxes.filter fun b => b.2.ctx == ctx && (b.2.blocked.map (·.2)) == some page).foldl (fun s b =>
    if fail then failTemplate s b.1 else retryTemplate s b.1) s

/-- A reply to a fault: ACT 0 retry, 1 fail. -/
def replyFault (s : State) (f v : Nat) (fail : Bool) : State :=
  let c := bits v 11 0
  let page := bits v 47 17
  if fnLive s f = false ∨ bit v 12 ≠ fail then s
  else if !ownsCtx s f c then rej s f
  else if !(s.faults.any fun o => o.ctx == c && o.page == page) then s
  else
    let s := { s with faults := s.faults.filter fun o => !(o.ctx == c && o.page == page) }
    let s := replyTemplates (replyPins (replyDrains (replyOps s c page fail) c page fail) c page fail) c page fail
    if fail then failFault s c page else schedule (readyFault s c page)

/-! ### Register writes (R375, R377, R378) -/

/-- A write of `n` bytes to a register of a function's page that has no behaviour of its own: TLBINV word 0 and IRQMAP. A
write of part of a TLBINV word counts in REJ (R299); other offsets ignore writes. -/
def writeReg (s : State) (f off n v : Nat) : State :=
  if !fnLive s f then s
  else if off < 16 ∧ (n < 8 ∨ off % 8 ≠ 0) then rej s f
  else if off = 0 then
    if invAllowed s f (invOf v 0) then modFn s f fun x => { x with tlbinv0 := v % 2 ^ 64 } else rej s f
  else if 0x100 ≤ off ∧ off < 0x200 ∧ off % 4 = 0 then
    modFn s f fun x => { x with irq := mapPut x.irq ((off - 0x100) / 4) 0 (v % 8192) }
  else s

/-- Writing 1 to INVSTAT [1] clears OVF. -/
def writeInvstat (s : State) (f v : Nat) : State := if fnLive s f && bit v 1 then { s with ovf := false } else s

/-- MBACK frees the oldest entries of a host-delivery mailbox (R377). -/
def ackBox (s : State) (f v : Nat) : State :=
  let mb := bits v 11 0
  let n := bits v 20 12
  if !fnLive s f then s
  else if !ownsBox s f mb then rej s f
  else if (getBox s mb).tmpl ≠ 0 then s
  else modBox s mb fun b =>
    let k := if b.count < n then b.count else n
    { b with head := (b.head + k) % (b.qdepth + 1), count := b.count - k,
             arrivals := b.arrivals.filter fun e => !decide ((e.1 + (b.qdepth + 1) - b.head) % (b.qdepth + 1) < k) }

/-- A host write to BAR0 (R378). -/
def hostMailbox (s : State) (f off : Nat) (bs : List Byte) : State :=
  let mb := off / 64
  if !fnLive s f then s
  else if bs.length = 64 ∧ off % 64 = 0 ∧ mb < 4096 ∧ (getBox s mb).en = true ∧ senderOk s (.fn f) mb = true then
    arrivePost s { mb := mb, msg := bs, from_ := .fn f }
  else rej s f

/-! ### The end of a context (R213, R284, R332, R376, R380) -/

/-- The packet at the head of a FIFO: its length in words (R397). -/
def headLen (f : List Word) : Nat := match f with
  | [] => 0
  | w :: _ => pktLen w.toNat

/-- Write the next packet of a cluster's trace bank to its ring (R395): none when there is no room, no packet or no bank;
a page that fails is reported. -/
def drainStep (s : State) (k : Nat) : Option State :=
  let c := getCluster s k
  let d := c.trace
  let b := getBank c d.bank
  let x := getCtx s d.ctx
  let n := headLen b.fifo
  if !d.en ∨ d.flt.isSome ∨ b.fifo.isEmpty then none
  else match engFail s x d.ring 64 .engWrite with
    | some (va, f) => drainFault s k x va f
    | none =>
      let wp := leValue (engRead s x d.ring 8)
      let rp := leValue (engRead s x (d.ring + 8) 8)
      let size := d.rsize * 4096
      if (size : Int) < (wp : Int) + 4 * n - rp then none
      else
        let pkt := b.fifo.take n
        let at_ (i : Nat) : Nat := d.ring + 64 + (wp + 4 * i) % size
        let ws := ((List.range n).zip pkt).map fun e => (at_ e.1, leBytes 4 e.2.toNat)
        match firstSome (fun w => engFail s x w.1 4 .engWrite) ws with
        | some (va, f) => drainFault s k x va f
        | none =>
          let s := ws.foldl (fun s w => engWrite s x w.1 w.2) s
          let lost := if (pkt.headD 0).toNat % 8 = 5 then (pkt.getD 1 0).toNat else 0
          let s := if lost = 0 then s else engWrite s x (d.ring + 16) (leBytes 8 (leValue (engRead s x (d.ring + 16) 8) + lost))
          let s := engWrite s x d.ring (leBytes 8 (wp + 4 * n))
          let bad := ((List.range n).zip ws).filter fun e => b.bad.contains e.1
          let s := bad.foldl (fun s e => engPoison s x e.2.1) s
          some (modCluster s k fun c => traceFreed (setBank c d.bank (b.popped n)))
where
  /-- The drain waits for system software, or stops where the access is not permitted. -/
  drainFault (s : State) (k : Nat) (x : Context) (va : Nat) (f : XFail) : Option State :=
    if waitsReply f then
      some (modCluster (raiseFault s x va f .engWrite (k / 8)) k fun c => { c with trace := { c.trace with flt := some (faultPage va, f.cause) } })
    else some (modCluster s k fun c => setBank { c with trace := { c.trace with en := false } } c.trace.bank
      { getBank c c.trace.bank with fifo := [] })

/-- Drain a bank as far as it will go. -/
def drainAll : Nat → State → Nat → State
  | 0, s, _ => s
  | n + 1, s, k => match drainStep s k with
    | none => s
    | some s => drainAll n s k

/-- The banks of a context return to CACHE and to the system; packets in a trace bank are drained first (R284, R393,
R405). The freeing of a bank is a scheduling event (R325). -/
def returnBanks (s : State) (ctx : Nat) : State :=
  let s := if s.clusters.any fun k => k.2.banks.any fun b => b.2.owner == some ctx then schedEvent s else s
  let s := (s.clusters.filter fun k => k.2.trace.en && k.2.trace.ctx == ctx).foldl (fun s k =>
    modCluster (drainAll 16384 s k.1) k.1 fun c => { c with trace := {} }) s
  s.clusters.foldl (fun s k => modCluster s k.1 fun c =>
    { c with trace := if c.trace.ctx = ctx ∧ c.trace.held = true then {} else c.trace, banks := c.banks.filter fun b => b.2.owner != some ctx }) s

/-- Every held handle is released and every entry freed (R213). -/
def releaseHandles (s : State) (ctx : Nat) : State :=
  let hs := (getCtx s ctx).handles.filter fun h => h.2.alloc && (h.2.st == 2 || h.2.st == 3) && !h.2.reacq && h.2.home != 5
  modCtx (hs.foldl (fun s h => releaseBox s h.2.die h.2.home h.2.pbox (.release none true) true) s) ctx fun x => { x with handles := [] }

/-- The mirror binding of a context ends: its frames are no one's; what its log holds is applied, or discarded. -/
def endMirror (s : State) (ctx : Nat) (apply : Bool) : State :=
  let m := (getCtx s ctx).mirror
  let s := if apply then m.entries.foldl (fun s e => if e.marker.isSome then s else
    { s with mem := (List.range 128).foldl (fun mm i => if bit e.mask i then memPut mm (e.line * 128 + i) (mapGetD e.data i 0) else mm) s.mem }) s else s
  modCtx { s with frameOwner := s.frameOwner.filter fun e => e.2 != ctx } ctx fun x => { x with mirror := {} }

/-- Discard the teams, groups and engine operations of a context that ends; its pins are released, but where it has moved away
and takes them along (R227, R360). -/
def discardTeams (s : State) (ctx : Nat) (moved : Bool) : State :=
  let ts := (s.teams.filter fun t => (getLaunch s t.2.launch).ctx == ctx).map (·.1)
  let gs := (s.groups.filter fun g => ts.contains g.2.team).map (·.1)
  let s := if moved then s else gs.foldl releasePins s
  let s := ts.foldl (fun s t => if (getTeam s t).saved || (getTeam s t).ended then s else schedEvent s) s
  let ws := ts.map fun t => (getTeam s t).win
  { s with groups := s.groups.filter fun g => !gs.contains g.1, teams := s.teams.filter fun t => !ts.contains t.1
           wins := s.wins.filter fun w => !ws.contains w.1
           dies := s.dies.map fun d => (d.1, { d.2 with bq := d.2.bq.filter fun q => q.ctx != ctx, serving := d.2.serving.filter fun q => q.2.ctx != ctx }) }

/-- The peers of a context's queue pairs learn that it has ended: QPERR with PEER_END (R355, R368; the place of the
code in its body is the model's, log 115). -/
def quitPeers (s : State) (ctx : Nat) : State := (getCtx s ctx).qps.foldl (fun s q =>
  if q.2.st = 0 then s else match halfOfAgent s q.2.peer with
    | none => s
    | some half => pairSend s half 0x13 ctx q.1 (leBytes 4 4)) s

/-- Atomics of a context are on their way to their homes, which a discard would not call back. -/
def atomicsOut (s : State) (ctx : Nat) : Bool := s.dies.any fun d => d.2.mine.any fun m => match m.why with
  | .atom g _ _ _ => ctxNumOf s g == ctx
  | _ => false

/-- End a context: its launches end with the given status, and everything that it holds is freed. Its atomics that are on their way
are performed first, and its other accesses discarded (R380). -/
def endCtx (s : State) (ctx status : Nat) (applyLog : Bool) : State :=
  let s := if atomicsOut s ctx then { s with wants := s.wants ++ [.quiet] } else s
  let s := discardTeams s ctx false
  let s := ((s.launches.filter fun l => l.2.ctx == ctx).map (·.1)).foldl (fun s l => endLaunch s l status false) s
  let s := endMirror (returnBanks (releaseHandles s ctx) ctx) ctx applyLog
  let s := { s with faults := s.faults.filter fun o => o.ctx != ctx
                    unpins := s.unpins.filter fun p => p.ctx != ctx
                    mboxes := s.mboxes.map fun b => if b.2.ctx = ctx then (b.1, { b.2 with blocked := none, ready := [] }) else b }
  schedule (modCtx (invalidate (quitPeers s ctx) { kind := 1, ctx := ctx }) ctx fun x =>
    { x with st := 0, qps := [], debt := 0, moving := none, tidNext := 1 })

/-! ### Requests to the Pavilion (R376) -/

/-- A request block. -/
structure HBlock where
  code : Nat
  ten  : Nat
  b3   : Nat
  idx  : Nat
  raw  : List Byte
  deriving DecidableEq, Repr

def blockAt (s : State) (addr : Nat) : HBlock :=
  let bs := engBytes s (0x80000000000 + addr % 2 ^ 43) 64
  { code := fieldAt bs 0 2, ten := fieldAt bs 2 1, b3 := fieldAt bs 3 1, idx := fieldAt bs 4 4, raw := bs }

/-- The bytes of a block from an offset on are zero. -/
def zeroFrom (b : HBlock) (n : Nat) : Bool := fieldAt b.raw n (64 - n) == 0 && b.b3 == 0

def windowBytesOk (b : HBlock) : Bool :=
  let w0 := fieldAt b.raw 8 8
  let w1 := fieldAt b.raw 16 8
  zeroFrom b 24 && bits w0 16 3 == 0 && bits w0 63 44 == 0 && bits w1 63 27 == 0 && decide (bits w0 43 17 ≤ bits w1 26 0) &&
    decide (b.idx < 16) && decide (b.ten < 16)

/-- Code 1: write a window descriptor in the order of R298: translations, tenure on the withdrawn pages, the descriptor. -/
def doWindow (s : State) (b : HBlock) : State :=
  let w0 := fieldAt b.raw 8 8
  let old := mapGetD s.windows (b.ten * 16 + b.idx) {}
  let new : Window := { en := bit w0 0, wr := bit w0 1, ex := bit w0 2, first := bits w0 43 17, last := bits (fieldAt b.raw 16 8) 26 0 }
  let s := invalidate s { kind := 2, ten := b.ten }
  let held := dedupN (s.dies.flatMap fun d => d.2.dir.map fun e => ((boxSpans e.2.box).headD (0, 0)).1 / 131072)
  let gone := if old.en then held.filter fun p => decide (old.first ≤ p) && decide (p ≤ old.last) &&
    !(new.en && decide (new.first ≤ p) && decide (p ≤ new.last) && (new.wr || !old.wr)) else []
  { gone.foldl recallPage s with windows := mapPut s.windows (b.ten * 16 + b.idx) {} new }

/-- A mailbox entry from its 32 bytes, over the entry's own counters (R315). -/
def boxOf (bs : List Byte) (old : MBox) : MBox :=
  let w0 := fieldAt bs 8 8
  let v := fieldAt bs 8 32
  { old with en := bit w0 0, ten := bits w0 4 1, rt := bit w0 5, stream := bits w0 11 6, qdepth := bits w0 19 12, conc := bits w0 23 20,
             tmpl := bits v 79 32, qbase := bits v 127 80, ctx := bits v 139 128, quantum := bits v 175 144 }

def boxBytesOk (b : HBlock) : Bool :=
  let v := fieldAt b.raw 8 32
  zeroFrom b 40 && bits v 31 24 == 0 && bits v 38 32 == 0 && bits v 85 80 == 0 && bits v 127 124 == 0 && bits v 143 140 == 0 &&
    bits v 199 193 == 0 && bits v 255 232 == 0 && decide (b.idx < 4096)

/-- A VF may write a mailbox entry: it names its own tenant, the entry is its own tenant's, and no system context is concerned
(R315, R318, R376). An entry that still stands as at reset is no tenant's yet, and any VF may take it (DESIGN CHOICE, log 87). -/
def vfBox (s : State) (f : Nat) (b : HBlock) : Bool :=
  let new := boxOf b.raw {}
  new.ten + 1 == f && b.ten + 1 == f && ((mapGet? s.mboxes b.idx).isNone || ownsBox s f b.idx) &&
    !(getCtx s new.ctx).sys && ((getCtx s new.ctx).st == 0 || ownsCtx s f new.ctx)

/-- The context that a record makes of an entry (R318); the floor of a context that exists is fixed (R5). -/
def ctxRecord (b : HBlock) (old : Context) : Context :=
  let v := fieldAt b.raw 8 32
  { old with num := bits v 11 0, ten := bits v 15 12, floor := if old.st = 0 then bits v 17 16 else old.floor, st := bits v 19 18, fmbox := bits v 31 20, root := bits v 75 32,
             save := bits v 123 76, slice := bits v 143 128, drainmax := bits v 159 144, sys := bit v 192 }

def ctxBytesOk (b : HBlock) : Bool :=
  let v := fieldAt b.raw 8 32
  let x := ctxRecord b {}
  zeroFrom b 40 && (x.floor == 1 || x.floor == 2) && x.root % 4096 == 0 && bits v 127 124 == 0 && bits v 255 193 == 0 && (!x.sys || x.ten == 0)

/-- A VF may write a context record: its own tenant's, with ROOT and SAVE in its windows. -/
def vfCtx (s : State) (f : Nat) (b : HBlock) : Bool :=
  let x := ctxRecord b {}
  let old := getCtx s x.num
  !x.sys && x.ten + 1 == f && b.ten + 1 == f && ((mapGet? s.ctxs x.num).isNone || old.st == 0 || ownsCtx s f x.num) &&
    inWindow s x x.root (fun _ => true) && (match engXlate s x x.save .engRead with
      | .ok _ => true
      | .error _ => false)

/-- Code 3: write a context record; a context that becomes runnable again has its teams ready, one that stops has them
saved (R318, R332). -/
def doContext (s : State) (b : HBlock) : State :=
  let c := (ctxRecord b {}).num
  let old := getCtx s c
  let x := ctxRecord b (if old.st = 0 then {} else old)
  let s := { s with ctxs := mapSet s.ctxs c x }
  let s := if old.st = 1 ∧ x.st ≠ 1 then stopContext s c .ctxFault
    else if old.st ≠ 0 ∧ x.st = 1 then (teamsOfCtx s c).foldl (fun s t =>
      if t.2.saved ∧ t.2.why = .ctxFault then modTeam s t.1 fun x => { x with ready := true }
      else if t.2.preempt = some .ctxFault then schedEvent (modTeam s t.1 fun x => { x with preempt := none }) else s) s
    else s
  schedule s

/-- A bank request that cannot be met as the spec gives it (R284, R393): 2 BADREQ, 3 NOSPACE, 0 none. -/
def bankStatus (s : State) (b : HBlock) : Nat :=
  let k := getCluster s (b.idx / 32)
  let bank := getBank k (b.idx % 32)
  let c := fieldAt b.raw 8 2
  let tr := bit (fieldAt b.raw 10 1) 0
  let ring := fieldAt b.raw 16 8
  let rsize := fieldAt b.raw 24 4
  if 1024 ≤ b.idx ∨ 4096 ≤ c ∨ (getCtx s c).st = 0 ∨ bank.mode ≠ .cache ∨ fieldAt b.raw 10 1 / 2 ≠ 0 ∨ fieldAt b.raw 11 5 ≠ 0 ∨
      zeroFrom b 28 = false then 2
  else if tr = true ∧ (k.trace.held = true ∨ ring % 64 ≠ 0 ∨ 2 ^ 48 ≤ ring ∨ rsize = 0 ∨ 2 ^ 20 ≤ rsize) then 2
  else if bank.owner.isSome ∧ bank.owner ≠ some c then 3
  else 0

/-- Code 5: give a bank to a context, as its trace bank where TRACE is set. -/
def doBank (s : State) (b : HBlock) : State :=
  let kc := b.idx / 32
  let n := b.idx % 32
  let c := fieldAt b.raw 8 2
  if bit (fieldAt b.raw 10 1) 0 then
    modCluster (leaveCache s kc) kc fun k => setBank { k with trace :=
      { held := true, en := true, bank := n, ctx := c, ring := fieldAt b.raw 16 8, rsize := fieldAt b.raw 24 4 } } n
      { mode := .fifo, owner := some c }
  else modCluster s kc fun k => setBank k n { getBank k n with owner := some c }

/-- The first 128 bytes of an attestation report (R389). -/
def reportBytes (s : State) (b : HBlock) : List Byte :=
  leBytes 4 0x54415453 ++ sliceBytes b.raw 8 32 ++ leBytes 32 Config.firmwareHash.toNat ++ leBytes 4 Config.svn.toNat ++
    leBytes 8 Config.serialNumber.toNat ++ leBytes 4 s.leaf ++ ((List.range 4).flatMap fun d => leBytes 2 (rasLow s d)) ++
    List.replicate 36 0

/-- A signature of 2,820 bytes over a message with a leaf index (R386): the index that it uses, most significant byte first as RFC 8391
has it (PRESUMED, log 113), then 32 bytes of randomiser, 67 × 32 of WOTS+ signature and 20 × 32 of authentication path. -/
def signature (leaf : Nat) (msg : List Byte) : List Byte :=
  let part (at_ n : Nat) : List Byte := (List.range n).map fun i => Config.signatureByte (leValue msg) leaf (at_ + i)
  (leBytes 4 leaf).reverse ++ part 0 32 ++ part 32 (67 * 32) ++ part (68 * 32) (20 * 32)

/-- Code 6: the report (index 0) or the certificate (index 1) to the host address in bytes 40 to 47 (log 63). -/
def doAttest (s : State) (b : HBlock) : State :=
  let dst := 0x80000000000 + fieldAt b.raw 40 8 % 2 ^ 43
  if b.idx = 1 then engPut s (withAddrs dst ((List.range Config.certificateSize).map Config.certificateByte))
  else
    let r := reportBytes s b
    { engPut s (withAddrs dst (r ++ signature s.leaf r)) with leaf := s.leaf + 1 }

/-- The status of a request (R376): 0 OK, 1 PERM, 2 BADREQ, 3 NOSPACE. -/
def requestStatus (s : State) (f : Nat) (b : HBlock) : Nat :=
  let own := f == 0 || b.ten + 1 == f
  match b.code with
  | 1 => if f ≠ 0 then 1 else if windowBytesOk b then 0 else 2
  | 2 => if !boxBytesOk b then 2 else if f = 0 ∨ vfBox s f b = true then 0 else 1
  | 3 => if !ctxBytesOk b then 2 else if f = 0 ∨ vfCtx s f b = true then 0 else 1
  | 4 => if !zeroFrom b 8 then 2 else if !own || !ownsCtx s f b.idx then 1 else if (getCtx s b.idx).st = 0 then 2 else 0
  | 5 => if f ≠ 0 then 1 else bankStatus s b
  | 6 => if !zeroFrom b 48 || decide (1 < b.idx) then 2 else if 2 ^ 20 ≤ s.leaf then 3 else 0
  | 7 => if f ≠ 0 then 1 else if !zeroFrom b 12 then 2 else 0
  | _ => 2

/-- What a request does that is accepted. -/
def doHreq (s : State) (b : HBlock) : State := match b.code with
  | 1 => doWindow s b
  | 2 => schedule (modBox s b.idx fun o => boxOf b.raw o)
  | 3 => doContext s b
  | 4 => endCtx s b.idx (if (getCtx s b.idx).st = 2 then 3 else 4) true
  | 5 => schedule (doBank s b)
  | 6 => doAttest s b
  | 7 => { s with threshold := fieldAt b.raw 8 4 }
  | _ => s

/-- A write to HREQ whose block holds one of some codes starts a request; while BUSY it counts in REJ (R376). -/
def writeHreq (s : State) (f addr : Nat) (mine : Nat → Bool) : State :=
  let b := blockAt s addr
  let st := if addr % 64 ≠ 0 ∨ 2 ^ 43 ≤ addr then 2 else requestStatus s f b
  if fnLive s f = false ∨ s.phase ≠ 6 ∨ mine b.code = false then s
  else if (getFn s f).busy then rej s f
  else modFn (if st = 0 then doHreq s b else s) f fun x => { x with busy := true, pending := st }

/-- A request completes: STATUS, and vector 63 where IRQMAP 63 names 0xFFF with EN set. -/
def completeHreq (s : State) (f : Nat) : State :=
  let x := getFn s f
  if !x.busy then s
  else
    let s := modFn s f fun x => { x with busy := false, status := x.pending, pending := 0 }
    if mapGetD x.irq 63 0 = 0x1FFF then { s with irqs := s.irqs ++ [(f, 63)] } else s

/-! ### Resets and power (R380, R391, R392) -/

/-- A function-level reset of a VF. -/
def resetVf (s : State) (f : Nat) : State :=
  if f = 0 ∨ 16 < f then s
  else
    let cs := (s.ctxs.filter fun c => !c.2.sys && c.2.st != 0 && c.2.ten + 1 == f).map (·.1)
    let s := cs.foldl (fun s c => endCtx s c 4 true) s
    let mbs := (s.mboxes.filter fun b => ownsBox s f b.1 && b.2.en).map (·.1)
    modFn (mbs.foldl (fun s b => modBox s b fun x => { x with en := false }) s) f fun x => { x with irq := [] }

/-- Reset of the part: memory, the durable leaf index and the fuses stand, since a field with no reset value keeps what it held (R11, R392
zeroes the poison tables alone; log 54); the model's own fields go on. -/
def resetPart (s : State) : State :=
  { State.reset with agenda := s.agenda, fresh := s.fresh, nextId := s.nextId, leaf := s.leaf, svnRaised := s.svnRaised,
                     mem := s.mem }

/-- PF0 enters D3hot: every team is to be saved. -/
def enterD3 (s : State) : State :=
  (s.teams.filter fun t => !t.2.saved && !t.2.ended).foldl (fun s t => forcePreempt s t.1 .power) { s with d3 := true }

/-- PF0 returns to D0. -/
def exitD3 (s : State) : State :=
  let s := s.teams.foldl (fun s t => if t.2.preempt = some .power then schedEvent (modTeam s t.1 fun x => { x with preempt := none }) else s)
    { s with d3 := false }
  schedule s

end Sys2Proof.Machine
end

