-- ==== Sys2Proof/Machine/Ras.lean ====
section
/-! DEFINITION. Errors, retirement of cores, slices and pages, and power states (R288, R381 to R385, R391). -/
namespace Sys2Proof.Machine

open Sys2Proof

/-- A corrected error is counted on its die (R375). -/
def countCe (s : State) (die : Nat) : State := modDie s die fun d => { d with cecnt := if d.cecnt < 65535 then d.cecnt + 1 else d.cecnt }

/-! ### Slices (R384) -/

/-- The pages that the Belvedere entries of a slice lie in. -/
def slicePages (s : State) (die slice : Nat) : List Nat :=
  dedupN (((getDie s die).dir.filter fun e => e.1 / 16 / 128 == slice).map fun e => ((boxSpans e.2.box).headD (0, 0)).1 / 131072)

/-- The data slice of a line (R286). -/
def dataSlice (line : Nat) : Nat := bits (line * 128) 10 7 ^^^ bits (line * 128) 20 17

/-- Retire a slice: its entries back-invalidated, its dirty lines written back, of its own home to external memory and of another to
that home (R286), the spare mapped; with no spare the die is faulted and PF0 vector 0 is raised. -/
def retireSlice (s : State) (die slice : Nat) : State :=
  let s := (slicePages s die slice).foldl (recallPage · · true) s
  let ls := ((getDie s die).l2.filter fun e => dataSlice e.1 == slice).map (·.1)
  let s := ls.foldl (fun s l => match homeOf (l * 128) with
    | none => s
    | some h => if h = die then wbL2 s die l else keepLine s die h l) s
  let s := modDie s die fun d =>
    { d with l2 := d.l2.filter (fun e => !ls.contains e.1), sliceCe := mapErase d.sliceCe slice, tagErr := setDel d.tagErr slice }
  if 0 < (getDie s die).sps then modDie s die fun d => { d with sps := d.sps - 1 }
  else { modDie s die (fun d => { d with faulted := true }) with irqs := s.irqs ++ [(0, 0)] }

/-! ### Errors (R288, R382) -/

/-- The offsets of a line outside the sector of an offset. -/
def CLine.dropSector (c : CLine) (o : Nat) : CLine :=
  let keep (m : Nat) : Nat := (List.range 128).foldl (fun x i => if i / 32 = o / 32 ∨ bit m i = false then x else x + 2 ^ i) 0
  { present := keep c.present, dirty := keep c.dirty, data := c.data.filter fun e => e.1 / 32 != o / 32 }

/-- An uncorrectable error in a cache's copy of a sector: the copy is no good, and the sector is poisoned
(R288, log 100). -/
def strikeCopy (s : State) (level unit pa : Nat) : State :=
  let line := pa / 128
  let drop (m : FMap CLine) : FMap CLine := clPut m line ((clGet m line).dropSector (pa % 128))
  let has (m : FMap CLine) : Bool := bit (clGet m line).present (pa % 128) || bit (clGet m line).dirty (pa % 128)
  if level = 0 then
    if has (getCore s unit).l1 then setPoison (modCore s unit fun c => { c with l1 := drop c.l1 }) pa true else s
  else if level = 1 then
    if has (getCluster s unit).cc then setPoison (modCluster s unit fun k => { k with cc := drop k.cc }) pa true else s
  else if has (getDie s unit).l2 then setPoison (modDie s unit fun d => { d with l2 := drop d.l2 }) pa true else s

/-- The L2 of a sector's home holds the sector whole, newer than external memory: its write-back will end the entry of the poison
table (R288, log 100). -/
def overwritten (s : State) (pa : Nat) : Bool := match homeOf pa with
  | some h => decide (h < 4) && (clGet (getDie s h).l2 (pa / 128)).sectorDirty (pa % 128)
  | none => false

/-- An error strikes. -/
def strike (s : State) (e : ErrorSite) : State := match e with
  | .corrected core =>
    if 128 ≤ core then s else countCe (modCore s core fun c => { c with ce := c.ce + 1 }) (dieOfCore core)
  | .correctedSlice die slice =>
    if 4 ≤ die ∨ 16 ≤ slice then s
    else countCe (modDie s die fun d => { d with sliceCe := mapSet d.sliceCe slice (mapGetD d.sliceCe slice 0 + 1) }) die
  | .sector pa => if (homeOf pa).isNone || overwritten s pa then s else setPoison s pa true
  | .copy level unit pa => strikeCopy s level unit pa
  | .register g reg lane =>
    match mapGet? s.groups g with
    | none => s
    | some _ => if (lrecOf s g).regs * 8 ≤ reg ∨ 32 ≤ lane then s
      else modGroup s g fun x => { x with marks := setAdd x.marks (vunit reg lane) }
  | .control g =>
    match mapGet? s.groups g with
    | none => s
    | some _ => contextFault s (ctxNumOf s g) 0x12 []
  | .sliceTag die slice => if 4 ≤ die ∨ 16 ≤ slice then s else modDie s die fun d => { d with tagErr := setAdd d.tagErr slice }
  | .scratch team addr =>
    match mapGet? s.wins (getTeam s team).win with
    | none => s
    | some w => if w.size ≤ addr then s
      else modWin s (getTeam s team).win fun w => { w with poison := (List.range 32).foldl (fun m i => setAdd m (addr / 32 * 32 + i)) w.poison }
  | .tile g t =>
    match mapGet? s.groups g with
    | none => s
    | some _ => if 8 ≤ t then s else modGroup s g fun x => { x with tmarks := setAdd x.tmarks t }
  | .accumulator g a e =>
    match mapGet? s.groups g with
    | none => s
    | some _ => if (lrecOf s g).accs ≤ a ∨ 1024 ≤ e then s
      else modGroup s g fun x => { x with acc := mapPut x.acc (a * 1024 + e) {} { mapGetD x.acc (a * 1024 + e) {} with ps := true } }
  | .fifo k b i =>
    let bank := getBank (getCluster s k) b
    if i < bank.fifo.length then modCluster s k fun c => setBank c b { bank with bad := setAdd bank.bad i } else s

/-- A window of 2^30 ticks ends: the counts used for retirement restart, but of a core whose retirement is under way (R383). -/
def newWindow (s : State) : State :=
  if s.tb / 2 ^ 30 ≤ s.ceWindow then s
  else { s with ceWindow := s.tb / 2 ^ 30
                cores := s.cores.map fun c => (c.1, if c.2.stopped then c.2 else { c.2 with ce := 0 })
                dies := s.dies.map fun d => (d.1, { d.2 with sliceCe := [] }) }

/-! ### Cores (R383) -/

/-- A group of the team is parked in CKPT or EMULATE. -/
def teamParked (s : State) (tid : Nat) : Bool := (groupsOf s tid).any fun g => (g.2.a.waits ++ g.2.b.waits).any fun w => match w with
  | .ckpt _ _ _ => true
  | .emulate => true
  | _ => false

/-- The next stage of a core's retirement: nothing more is dispatched; its teams are saved once none is parked in CKPT or
EMULATE; then a spare is mapped in its place, or the core is absent. -/
def retireCore (s : State) (core : Nat) : Option State :=
  let c := getCore s core
  if c.absent ∨ c.ce < s.threshold ∨ 128 ≤ core then none
  else if !c.stopped then some (modCore s core fun c => { c with stopped := true })
  else
    let ts := (s.teams.filter fun t => t.2.core == core && !t.2.saved && !t.2.ended).map (·.1)
    if !ts.isEmpty then
      if ts.any (teamParked s) ∨ ts.all (fun t => (getTeam s t).preempt.isSome && (getTeam s t).preempt != some .sched &&
          (getTeam s t).preempt != some .realtime) = true then none
      else some ((ts.flatMap (gangTeams s)).foldl (fun s t => forcePreempt s t .retire) s)
    else
      let s := releaseCore s core
      let die := dieOfCore core
      if 0 < (getDie s die).spc then
        some (schedule (modDie (setCore (schedEvent s) core {}) die fun d => { d with spc := d.spc - 1 }))
      else some (schedule (modDie (setCore s core { stopped := true, absent := true }) die fun d => { d with cores := d.cores - 1 }))

/-! ### Pages (R385) -/

/-- Poisoned sectors of a page. -/
def pagePoison (s : State) (page : Nat) : List Nat := s.poison.filter fun k => k / 4096 == page

/-- A page is to be retired: the die's poison table is full, or the page has more than 16 poisoned sectors. -/
def pageDue (s : State) (page : Nat) : Bool := match homeOf (page * 131072) with
  | some h => decide (h < 4) && (decide (16 < (pagePoison s page).length) || (decide (16384 ≤ ptUse s h) && !(pagePoison s page).isEmpty))
  | none => false

/-- The leaves of every context that map a page. -/
def leavesAt (s : State) (page : Nat) : List LeafAt := s.ctxs.flatMap fun x => if x.2.st = 0 then [] else
  (leavesOf s x.2).filter fun l => decide (l.pa / 131072 ≤ page) && decide (page < l.pa / 131072 + leafSize l.level / 131072)

/-- Rewrite a leaf's HOME and ADDR in one 8-byte write. -/
def remap (s : State) (l : LeafAt) (page : Nat) : State :=
  let pa := page * 131072
  let e := l.bitsOf - bits l.bitsOf 9 6 * 2 ^ 6 - bits l.bitsOf 43 12 * 2 ^ 12 + (homeOf pa).getD 0 * 2 ^ 6 + pa / 4096 * 2 ^ 12
  engPut s (withAddrs l.pte (leBytes 8 e))

/-- Split a 64 MiB leaf at a node: 128 KiB leaves of the same bits map its range, but a retired page, which maps its new frame; then
one write makes the leaf an entry of that node. MOB stays clear and A, D and the rest are kept (R290, R291). -/
def splitLeaf (s : State) (l : LeafAt) (node page frame : Nat) : State :=
  let flags := l.bitsOf - bits l.bitsOf 9 6 * 2 ^ 6 - bits l.bitsOf 43 12 * 2 ^ 12
  let s := engPut s (withAddrs node ((List.range 512).flatMap fun i =>
    let p := if l.pa / 131072 + i = page then frame else l.pa / 131072 + i
    leBytes 8 (flags + (homeOf (p * 131072)).getD 0 * 2 ^ 6 + p * 32 * 2 ^ 12)))
  engPut s (withAddrs l.pte (leBytes 8 (1 + node / 4096 * 2 ^ 12 + bits l.bitsOf 62 56 * 2 ^ 56)))

/-- Set LOST in a leaf. -/
def loseLeaf (s : State) (l : LeafAt) : State := engPut s (withAddrs (l.pte + 7) [BitVec.ofNat 8 (bits l.bitsOf 62 56 + 128)])

/-- Rewrite the larger leaves that map a retired page: each is split at a node of one more frame of the pool, since a leaf maps one
run of frames; with no such frame LOST is set (R385; DESIGN CHOICE, log 95). -/
def splitLeaves (s : State) (home : Nat) (ls : List LeafAt) (page frame : Nat) : State :=
  match mapGetD s.pools home [] with
  | [] => ls.foldl loseLeaf s
  | n :: r =>
    if ls.isEmpty then s
    else ((List.range ls.length).zip ls).foldl (fun s e => if e.1 < 32 ∧ e.2.level = 1 then
        splitLeaf s e.2 (n * 131072 + 4096 * e.1) page frame else loseLeaf s e.2)
      { s with pools := mapSet s.pools home r }

/-- Write back and drop what the cores and clusters hold of a page. -/
def flushPage (s : State) (page : Nat) : State :=
  let s := s.cores.foldl (fun s c => if c.2.l1.any fun e => e.1 / 1024 == page then flushL1 s c.1 else s) s
  let s := s.clusters.foldl (fun s k => if k.2.cc.any fun e => e.1 / 1024 == page then flushCC s k.1 else s) s
  { s with cores := s.cores.map fun c => (c.1, { c.2 with l1 := c.2.l1.filter fun e => e.1 / 1024 != page })
           clusters := s.clusters.map fun k => (k.1, { k.2 with cc := k.2.cc.filter fun e => e.1 / 1024 != page }) }

/-- A page's bytes as a list of cells holds them, put at a frame too. -/
def cellsAt (m : List Host.Cell) (page frame : Nat) : List Host.Cell :=
  (m.filter fun e => e.1 / 131072 == page).foldl (fun m e => memPut m (frame * 131072 + e.1 % 131072) e.2)
    (m.filter fun e => e.1 / 131072 != frame)

/-- The code that launches started with stands at a page's new frame too (R45). -/
def moveCode (s : State) (page frame : Nat) : State :=
  { s with launches := s.launches.map fun l => (l.1, { l.2 with code := l.2.code.map fun m => cellsAt m page frame }) }

/-- Copy a page to a frame, poison and all; the code that launches started with moves with its page. -/
def copyPage (s : State) (page frame : Nat) : State :=
  let bs := engBytes s (page * 131072) 131072
  let s := moveCode (homePut s (withAddrs (frame * 131072) bs)) page frame
  (pagePoison s page).foldl (fun s k => setPoison s (frame * 131072 + k % 4096 * 32) true) s

/-- The home whose pool gives the frame of a retired page: its own, else the lowest die's that has one (R255; log 95). -/
def spareHome (s : State) (home : Nat) : Nat :=
  ((home :: [0, 1, 2, 3]).find? fun h => !(mapGetD s.pools h []).isEmpty).getD home

/-- Retire a page (R385). -/
def retirePage (s : State) (page : Nat) : State :=
  let home := spareHome s ((homeOf (page * 131072)).getD 0)
  let s := recallPage (flushPage s page) page
  let ls := leavesAt s page
  match mapGetD s.pools home [] with
  | [] => invalidate (ls.foldl loseLeaf s) { kind := 3 }
  | f :: r =>
    let s := copyPage { s with pools := mapSet s.pools home r, movedPages := mapSet (mapErase s.movedPages f) page f } page f
    let s := (ls.filter (·.level == 0)).foldl (fun s l => remap s l f) s
    let s := splitLeaves s home (ls.filter (·.level != 0)) page f
    let s := invalidate s { kind := 3 }
    { s with poison := s.poison.filter fun k => k / 4096 != page }

/-- Firmware moves a die between P0 and P1 to P3 (R391). -/
def setPower (s : State) (die p : Nat) : State := if die < 4 ∧ p < 4 then modDie s die fun d => { d with power := p } else s

end Sys2Proof.Machine
end

