-- ==== Sys2Proof/Machine/Pair.lean ====
section
/-! DEFINITION. Docking, the pair link, moves of contexts and pages, queue pairs and the loss of the link (R274, R279, R280,
R352 to R369, R420). -/
namespace Sys2Proof.Machine

open Sys2Proof

/-! ### Queue pairs (R366 to R368) -/

def getQp (s : State) (ctx qp : Nat) : QPair := mapGetD (getCtx s ctx).qps qp {}
def modQp (s : State) (ctx qp : Nat) (f : QPair → QPair) : State :=
  modCtx s ctx fun x => { x with qps := mapPut x.qps qp {} (f (mapGetD x.qps qp {})) }

/-- The order in which a CPYL issued among those of its context. -/
def linkSeq (o : Op) : Nat := match o.kind with
  | .link _ _ _ _ _ seq _ _ => seq
  | _ => 0

/-- The CPYLs outstanding on a queue pair, oldest first. -/
def linksOf (s : State) (ctx qp : Nat) : List (Nat × Op) :=
  (linksOut s ctx qp).foldr (fun e acc =>
    acc.takeWhile (fun x => decide (linkSeq x.2 < linkSeq e.2)) ++ e :: acc.dropWhile (fun x => decide (linkSeq x.2 < linkSeq e.2))) []

/-- A CPYL of which only the count travelled settles the lowest buffer of its team that fills or drains with no CPYL of its own; what
it has moved is not known (log 72). -/
def settlePlain (s : State) (gid status : Nat) : State :=
  let named := (groupsOf s (getGroup s gid).team).flatMap fun g => g.2.ops.filterMap fun o => match o.kind with
    | .link _ _ h _ len _ _ _ => if len = 0 ∨ o.done then none else some (bits h 7 0)
    | .copy c => if o.done then none else some (bits c.handle 7 0)
    | _ => none
  match (teamOf s gid).bufs.find? fun b => (b.2.st == .filling || b.2.st == .draining) && !named.contains b.1 with
  | none => s
  | some b =>
    let s' := if b.2.st = .draining then s else
      winStore (bump s) (teamOf s gid).win ((List.range b.2.size).map fun i => (b.2.off + i, Config.linkByte s.fresh i))
    settleBuf s' gid (bufHandle b.2 b.1) status

/-- A CPYL completes with a status (R204, R205); what observes it acquires at PAIR (R244, R250). -/
def finishLink (s : State) (gid : Nat) (o : Op) (status : Nat) : State :=
  let s := if linkPlain o then settlePlain s gid status else match o.kind with
    | .link _ _ h _ _ _ _ _ => settleBuf s gid h status
    | _ => s
  finishOpS (acquired s gid .pair) gid o.id

/-- A queue pair enters ERROR; its outstanding CPYLs complete with LINK_FLUSHED, or with POISON where the bytes that one sent were
poisoned, which is the lower code (R205, R368). -/
def errQp (s : State) (ctx qp err : Nat) : State :=
  let ls := linksOf s ctx qp
  ls.foldl (fun s e => finishLink s e.1 e.2 (if e.2.status = 0 then 4 else e.2.status)) (modQp s ctx qp fun q => { q with st := 2, err := err })

/-- Every queue pair with a peer that leaves enters ERROR with LINK (R366, R368, R369); one in ERROR keeps its ERR. -/
def errPeer (s : State) (agent : Nat) : State :=
  s.ctxs.foldl (fun s x => x.2.qps.foldl (fun s q => if q.2.st ≠ 2 ∧ q.2.peer = agent then errQp s x.1 q.1 1 else s) s) s

/-- A queue pair that has become READY serves only with a docked companion as its peer: the hub then grants it credits for the pair, by
one CREDIT with no counts; else the pair enters ERROR (R366, R367). How many the hub grants is free (log 46). -/
def readyQp (s : State) (ctx qp : Nat) : State := match halfOfAgent s (getQp s ctx qp).peer with
  | none => errQp s ctx qp 1
  | some half => pairSend (bump s) half 0x12 ctx qp (leBytes 4 (Config.readyCredits s.fresh % 1024 + 1) ++ leBytes 8 0)

/-- The Pavilion makes a queue pair READY with no credit: through RESET from ERROR, or at first (R366). -/
def resetQp (s : State) (ctx qp : Nat) : State :=
  let q := getQp s ctx qp
  if (mapGet? s.ctxs ctx).isNone ∨ 4 ≤ qp ∨ q.st = 1 ∨ q.st = 3 ∨ q.wsize = 0 then s
  else readyQp (modQp s ctx qp fun q => { q with st := 1, err := 0, cred := 0 }) ctx qp

/-- Credits of a write of some bytes (R367). -/
def creditsOf (len : Nat) : Nat := ceilDiv len 256

/-- Place the bytes of a CPYL.READ in its window. -/
def linkFill (s : State) (gid at_ : Nat) (bs : List (Byte × Bool)) : State :=
  modWin s (teamOf s gid).win fun w =>
    let w := (w.put at_ (bs.map (·.1))).covered ((List.range bs.length).map (at_ + ·))
    { w with poison := ((List.range bs.length).zip bs).foldl (fun p e => if e.2.2 then setAdd p (at_ + e.1) else p) w.poison }

/-- Deliver the bytes of a DATA write at the companion: its directory takes back what the dies hold of the lines, then the bytes stand in
its memory and never in a log (R242, R367). -/
def deliverData (s : State) (pa : Nat) (bs : List Byte) : State :=
  let s := (boxLines { base := pa, ext := [bs.length, 1, 1, 1] }).foldl (fun s l => takeLine s l true) s
  clearCovered (directPut s pa bs) ((List.range bs.length).map (pa + ·))

/-- Advance a CPYL (R204, R208, R367). -/
def linkStep (s : State) (gid : Nat) (o : Op) : State := match o.kind with
  | .link qp ro h off len seq wr sent =>
    let ctx := ctxNumOf s gid
    let q := getQp s ctx qp
    let at_ := (bufOf s gid (bits h 7 0)).off + off
    let w := winOf s gid
    if q.st = 2 then finishLink s gid o 4
    else if len = 0 then finishLink (bump s) gid o (Config.linkStatus s.fresh % 7)
    else if q.st = 1 ∧ companionDocked s q.peer = false then errQp s ctx qp 1
    else if sent ∨ q.st ≠ 1 ∨ (linksOf s ctx qp).any (fun e => decide (linkSeq e.2 < seq) && !(match e.2.kind with
        | .link _ _ _ _ _ _ _ t => t
        | _ => false)) = true then s
    else
      let r := released s gid o.id o.apart .pair
      if !r.2 then r.1
      else
        let s := r.1
        let poison := winPoison w at_ len
        if wr then
          if q.cred < creditsOf len then s
          else
            let s := modQp s ctx qp fun q => { q with cred := q.cred - creditsOf len }
            let bs := winBytes w at_ len
            if q.kind = 0 then
              let s := deliverData s (q.rbase + ro) bs
              let s := (List.range len).foldl (fun s i => if winPoison w (at_ + i) 1 then setPoison s (q.rbase + ro + i) true else s) s
              finishLink s gid o (if poison then 3 else 0)
            else match halfOfAgent s q.peer with
              | none => errQp s ctx qp 1
              | some half =>
                let s := (List.range (len / 64)).foldl (fun s i =>
                  pairSend s half 0x11 0 0 (leBytes 4 ((q.rbase + ro + 64 * i) / 64 % 4096) ++ sliceBytes bs (64 * i) 64)) s
                modGroup s gid fun g => g.modOp o.id fun o =>
                  { o with kind := .link qp ro h off len seq wr true, status := if poison then 3 else 0 }
        else
          let pas := (List.range len).map (q.rbase + ro + ·)
          let bs := if q.kind = 0 then pas.map fun pa => (engByte s pa, poisoned s pa) else pas.map fun _ => (0, false)
          finishLink (linkFill s gid at_ bs) gid o (if bs.any (·.2) then 3 else 0)
  | _ => s

/-- Credits arrive for a queue pair (R367). -/
def takeCredit (s : State) (half ctx qp n drops refused : Nat) : State :=
  let q := getQp s ctx qp
  if q.st ≠ 1 ∨ q.peer ≠ (getHalf s half).agent then s
  else if 1024 < q.cred + n then errQp s ctx qp 3
  else
    let s := modQp s ctx qp fun q => { q with cred := q.cred + n }
    if q.kind = 0 then s
    else match (linksOf s ctx qp).find? fun e => match e.2.kind with
        | .link _ _ _ _ _ _ wr sent => wr && sent
        | _ => false with
      | none => s
      -- the lowest code of R205; the operation's status says whether it has read poison
      | some e => finishLink s e.1 e.2 (if refused ≠ 0 then 2 else if e.2.status ≠ 0 then e.2.status else if drops ≠ 0 then 6 else 0)

/-- A memory request of the companion is performed in a queue pair's window (R355, R367); one that the window or the
context's tenant does not permit is answered by QPERR (R368). -/
def windowRequest (s : State) (half ctx qp off : Nat) (wr : Bool) (bs : List Byte) : State :=
  let x := getCtx s ctx
  let q := getQp s ctx qp
  let pa := q.rbase + off
  let n := bs.length
  let home := homeOf pa
  let inside := decide (off + n ≤ q.wsize * 4096) && decide (0 < n) && home.isSome && home == homeOf (pa + n - 1) &&
    ((List.range ((pa + n - 1) / 131072 + 1 - pa / 131072)).all fun i =>
      inWindow s x ((pa / 131072 + i) * 131072) fun w => if wr then w.wr else true)
  if !((getHalf s half).st == 4 || (getHalf s half).st == 5) ∨ q.st ≠ 1 ∨ q.kind ≠ 0 ∨ q.peer ≠ (getHalf s half).agent then s
  else if !inside then errQp (pairSend s half 0x13 ctx qp (leBytes 4 2)) ctx qp 2
  else if wr then
    let s := clearCovered (engPut s (withAddrs pa bs)) ((List.range n).map (pa + ·))
    pairSend s half 0x12 ctx qp (leBytes 4 (creditsOf n) ++ leBytes 8 0)
  else
    let s := (boxLines { base := pa, ext := [n, 1, 1, 1] }).foldl (fun s l => resolveLine s l false) s
    -- the completion carries no pair header and takes no SEQ
    modHalf s half fun h => { h with out := h.out ++ [{ ptype := 0, src := 4, ctx := ctx, qp := qp, body := engBytes s pa n }] }

/-! ### A companion leaves (R280, R362, R366, R369) -/

/-- A Belvedere forgets a companion: what it owed is answered, its requests are discarded, its tenure ends (R280). -/
def forgetHolder (s : State) (home agent : Nat) : State :=
  let s := modDie s home fun d =>
    let gone := d.txs.filter fun t => t.why == .serve && t.q.req == agent && !noEntry home t.q
    let txs := d.txs.map fun t => if t.why == .serve && t.q.req == agent then { t with why := .evict } else t
    { d with queue := d.queue.filter fun q => q.req != agent, txs := txs, rsv := gone.foldl (fun r t => setDel r t.way) d.rsv }
  let owed := (getDie s home).txs.flatMap fun t => (t.owed.filter (·.1 == agent)).map fun _ => (t.freq, t.ftxn)
  let s := owed.foldl (fun s k => onInvAck faddAtomic s home agent { txn := k.2, req := k.1, code := 128 }) s
  modDie s home fun d => { d with dir := (d.dir.map forget).filter fun e => e.2.pend || !e.2.hold.isEmpty }
where
  /-- An entry without the companion. -/
  forget (e : Nat × DirE) : Nat × DirE :=
    let own := !e.2.pend && e.2.owner == agent
    if e.2.hold.contains agent then
      (e.1, { e.2 with hold := e.2.hold.erase agent, dst := if own && decide (2 ≤ e.2.dst) then 1 else e.2.dst,
                       owner := if own then 0 else e.2.owner })
    else e

/-- The requests of a die that wait for a companion end (R369): loads and atomics take 0 with a poison mark, an acquire is
refused, a release is complete. -/
def endWaits (s : State) (die agent : Nat) : State :=
  ((getDie s die).mine.filter fun m => m.home == agent).foldl (fun s m =>
    let s' := modDie s die fun d => { d with mine := d.mine.filter fun x => x.r.txn != m.r.txn }
    match m.why with
    | .line => s'
    | .engine => s'
    | .handle _ _ _ _ => refuseReq s die m
    | .reacq ctx h => modHandle s' ctx h fun e => { e with reacq := false, part := true, home := 5 }
    | .atom _ _ _ _ => completeReq s die m 3 []
    | .release _ _ => completeReq s die m 2 []) s

/-- A line of a cache belongs to a companion. -/
def ofAgent (agent line : Nat) : Bool := homeOf (line * 128) == some agent

/-- Everything that the Afmor holds of a companion goes, dirty bytes included (R369). -/
def dropAgent (s : State) (agent : Nat) : State :=
  let keep (m : FMap CLine) : FMap CLine := m.filter fun e => !ofAgent agent e.1
  { s with
    cores := s.cores.map fun c => (c.1, { c.2 with l1 := keep c.2.l1, tlb := c.2.tlb.filter fun e => e.home != agent })
    clusters := s.clusters.map fun k => (k.1, { k.2 with cc := keep k.2.cc, tlb := k.2.tlb.filter fun e => e.home != agent })
    dies := s.dies.map fun d => (d.1, { d.2 with l2 := keep d.2.l2, recs := d.2.recs.filter fun r => r.home != agent })
    flits := s.flits.filter fun f => f.src != agent
    chans := s.chans.filter fun c => c.1 / 16 != agent }

/-- The parts of a companion's leaving that loss and undocking share, once the half no longer counts as docked. -/
def leave (s : State) (agent : Nat) : State :=
  let s := [0, 1, 2, 3].foldl (fun s d => endWaits (forgetHolder s d agent) d agent) (dropAgent s agent)
  errPeer s agent

/-- Write every dirty byte that the Afmor holds of a companion's pages to the companion. -/
def pushAgent (s : State) (agent : Nat) : State :=
  let s := s.cores.foldl (fun s c => if c.2.l1.any fun e => ofAgent agent e.1 then flushL1 s c.1 else s) s
  let s := s.clusters.foldl (fun s k => if k.2.cc.any fun e => ofAgent agent e.1 then flushCC s k.1 else s) s
  pushPairs s

/-- An undocked port half returns to DOWN (R355). -/
def goDown (s : State) (half : Nat) : State :=
  let agent := (getHalf s half).agent
  let s := pushAgent s agent
  leave (modHalf s half fun h => { refuse := h.refuse, drops := h.drops, out := h.out }) agent

/-- A leaf that names a die's page, as the restart from a commit rewrites it (R370 step 4): homed on the page's frame in the slot of
that commit where MIR is set and it has one, else LOST. The nodes of level-0 leaves that replace a larger leaf are the handler's to
place: such a leaf stands LOST here (log 78). -/
def restartLeaf (m : Mirror) (l : LeafAt) : Nat :=
  let e := l.bitsOf
  let lost := if bit e 63 then e else e + 2 ^ 63
  if l.level ≠ 0 ∨ !bit e 11 then lost
  else match mapGet? m.stood (l.pa / 131072) with
    | none => lost
    | some k =>
      let pa := (if m.committed % 2 = 0 then m.slot0 else m.slot1) + (m.imgu + k) * 131072
      e - bits e 9 6 * 2 ^ 6 - bits e 43 12 * 2 ^ 12 + (homeOf pa).getD 0 * 2 ^ 6 + pa / 4096 * 2 ^ 12

/-- At the loss of the link the companion finishes the last commit, discards the rest of the log, and rehomes or gives up the pages that
the Afmor homed, in the page tables of a context that restarts (R370 steps 1, 2 and 4). -/
def restartTables (s : State) (ctx : Nat) : State :=
  let m := (getCtx s ctx).mirror
  let s := modMirror (applyLog s ctx m.committed) ctx fun m => { m with entries := [] }
  if m.committed = 0 then s
  else ((leavesOf s (getCtx s ctx)).filter fun l => decide (bits l.bitsOf 9 6 < 4)).foldl (fun s l =>
    directPut s l.pte (leBytes 8 (restartLeaf m l))) s

/-- The link is lost (R369): the contexts of the companion end with ABORTED, and their Afmor-homed frames are reported. Of a
mirror's log the companion applies what stands before its last commit and discards the rest (R370). What the hub has sent over the
link stands (R371). -/
def loseLink (s : State) (half : Nat) : State :=
  let h := getHalf s half
  if h.st = 0 ∨ h.st = 6 then s
  else if h.st < 4 then setHalf s half { st := 6, refuse := h.refuse, drops := h.drops, out := h.out }
  else
    let s := modHalf s half fun h => { st := 6, agent := h.agent, refuse := h.refuse, drops := h.drops, out := h.out }
    let cs := (s.ctxs.filter fun x => x.2.origin == h.agent && x.2.st != 0).map (·.1)
    let s := cs.foldl (fun s c => match (getCtx s c).mirror.inProgress with
      | some n => endCkpts s c n 0
      | none => s) s
    let s := leave s h.agent
    let s := cs.foldl (fun s c =>
      let x := getCtx s c
      let s := endCtx (restartTables s c) c 4 false
      (postMsg s x.fmbox (faultBytes s x 0 0x11 0 0 255 0 []) (.ctx c) .none).1) s
    modHalf s half fun h => { h with agent := 0 }

/-! ### Messages (R355) -/

/-- A port half that is there: half 0, or half 1 of a port configured as two (R352, R353). -/
def halfThere (s : State) (half : Nat) : Bool := decide (half < 8) && (half % 2 == 0 || s.split.contains (half / 2))

/-- The header of a message that arrives, as it must be: the next SEQ, a PTYPE of the table and the version in force. A message that
is not is dropped and counted. A half that is not there receives none. -/
def takeHdr (s : State) (half : Nat) (h : PairHdr) : State × Bool :=
  let x := getHalf s half
  let drop (s : State) : State := modHalf s half fun x => { x with drops := if x.drops < 255 then x.drops + 1 else 255 }
  if halfThere s half = false ∨ x.st = 0 ∨ x.st = 6 then (s, false)
  else if h.seq ≠ x.seqIn then (drop s, false)
  else
    let s := modHalf s half fun x => { x with seqIn := x.seqIn + 1 }
    if h.rsv = true ∨ h.ver ≠ x.ver then (drop s, false) else (s, true)

/-- A message in a state of the half that takes it. -/
def onMsg (s : State) (half : Nat) (h : PairHdr) (sts : List Nat) (f : State → State) : State :=
  let r := takeHdr s half h
  if r.2 && sts.contains (getHalf s half).st then f r.1 else r.1

/-- An unsupported TLP is dropped, counted and reported to the Pavilion (R352). -/
def dropTlp (s : State) (half : Nat) : State :=
  if 8 ≤ half ∨ (getHalf s half).st = 0 then s
  else modHalf { s with tlpReports := s.tlpReports + 1 } half fun x => { x with drops := if x.drops < 255 then x.drops + 1 else 255 }

/-! ### Docking (R356 to R358) -/

/-- The dock is refused: the half is DOWN, with the reason. -/
def refuseDock (s : State) (half code : Nat) : State := modHalf s half fun h => { refuse := code, drops := h.drops, out := h.out }

/-- The versions that the hub offers: bits 1 to 3. -/
def ownVersions : Nat := 0x0E

/-- Step 1 begins: the link trains (R356). -/
def startTraining (s : State) (half : Nat) : State :=
  let h := getHalf s half
  if halfThere s half ∧ (h.st = 0 ∨ h.st = 6) then setHalf s half { st := 1, refuse := h.refuse, drops := h.drops } else s

/-- Step 1: training ends, then HELLO. A link that comes up from DOWN or LOST has trained unseen. -/
def trainLink (s : State) (half : Nat) (ok : Bool) : State :=
  let h := getHalf s half
  if halfThere s half = false ∨ (h.st ≠ 0 ∧ h.st ≠ 1 ∧ h.st ≠ 6) then s
  else if !ok then refuseDock s half 1
  else
    let n := (Config.nonce s.fresh).toNat
    let s := setHalf (bump s) half { st := 2, refuse := h.refuse, drops := h.drops, sentNonce := n }
    pairSend s half 0x01 0 0 (leBytes 32 n ++ leBytes 1 ownVersions)

/-- Step 2: the peer's HELLO is answered with the hub's ATTEST, unless its key is spent. -/
def takeHello (half nonce versions : Nat) (s : State) : State :=
  if (getHalf s half).heard then s
  else if 2 ^ 20 ≤ s.leaf then refuseDock s half 3
  else
    let s := modHalf s half fun h => { h with heard := true, peerNonce := nonce % 2 ^ 256, peerVers := versions % 256 }
    let tb := leBytes 8 (s.tb % 2 ^ 64)
    let msg := leBytes 32 (nonce % 2 ^ 256) ++ leBytes 1 ownVersions ++ tb
    pairSend { s with leaf := s.leaf + 1 } half 0x02 0 0
      (tb ++ signature s.leaf msg ++ (List.range Config.certificateSize).map Config.certificateByte)

/-- Steps 2 and 3: the peer's signature and chain, then the highest common version. -/
def takeAttest (half tb sig : Nat) (s : State) : State :=
  let h := getHalf s half
  if !h.heard then s
  else if !Config.peerVerifies h.sentNonce h.peerVers tb sig then refuseDock s half 2
  else match [3, 2, 1].find? fun v => bit ownVersions v && bit h.peerVers v with
    | none => refuseDock s half 4
    | some v =>
      let s := modHalf s half fun h => { h with st := 3, ver := v, agent := 8 + half }
      -- the hub has no contexts to offer
      pairSend (bump s) half 0x03 0 0 (leBytes 4 (8 + half) ++ leBytes 8 (Config.ptmOffset s.fresh) ++ leBytes 4 0)

/-- Step 4: the timebase offset and the contexts offered. REFUSE keeps the reason of the latest dock that was refused. -/
def takeAlign (half ofs : Nat) (nodesOk : Bool) (ctxs : List Nat) (s : State) : State :=
  if !nodesOk then refuseDock s half 5 else modHalf s half fun h => { h with st := 4, ofs := ofs % 2 ^ 64, offered := dedupN ctxs }

/-- Step 5: an announced image is restored, or rejected (R359, R361). The places of the fields of the RESUME that answers it are the
model's (DESIGN CHOICE, log 115). -/
def takeImage (half ctx addr size : Nat) (s : State) : State :=
  let h := getHalf s half
  let img := homeBytes s addr size
  let level := (List.range 4).foldl (fun m d => if (getDie s d).level < m then (getDie s d).level else m) 2
  let ok := h.offered.contains ctx && decide (ctx < 4096) && homeOf addr == some h.agent && homeOf (addr + size - 1) == some h.agent &&
    ((getCtx s ctx).st == 0 || (getCtx s ctx).st == 3) && (getCtx s ctx).moving.isNone && imageLegal img level
  let s := modHalf s half fun h => { h with offered := h.offered.erase ctx }
  let s := if ok then schedule (restoreContext s ctx img h.agent) else s
  pairSend s half 0x05 ctx 0 (leBytes 4 ctx ++ leBytes 1 (if ok then 0 else 1))

/-! ### Homes of pages (R255, R277, R363, R420) -/

/-- The dies give up what they hold of a companion's page, dirty bytes to the companion. -/
def recallCompanion (s : State) (page : Nat) : State :=
  let b : Box := { base := page * 131072, ext := [131072, 1, 1, 1] }
  [0, 1, 2, 3].foldl (fun s d =>
    let a := holderAct s d b false
    a.1.foldl (fun s x => homePut s x.bytes) a.2.2.2) s

/-- The contexts that map a page at a level-0 leaf, with the leaf. -/
def mappers (s : State) (page : Nat) : List (Nat × LeafAt) := s.ctxs.flatMap fun x => if x.2.st = 0 then [] else
  ((leavesOf s x.2).filter fun l => l.level == 0 && l.pa / 131072 == page).map fun l => (x.1, l)

/-- A companion frame becomes owned by the lowest-numbered mirrored context that maps it, unless a binding still owns it (R420). -/
def ownFrame (s : State) (frame : Nat) : State :=
  if (mapGet? s.frameOwner frame).isSome then s else match (mappers s frame).find? fun m => (getCtx s m.1).mirror.en && homeOf (getCtx s m.1).mirror.slot0 == homeOf (frame * 131072) with
  | none => s
  | some m => { s with frameOwner := mapSet s.frameOwner frame m.1 }

/-- Take a frame from the pool of a home. -/
def takeFrame (s : State) (home : Nat) : Option (Nat × State) := match mapGetD s.pools home [] with
  | [] => none
  | f :: r => some (f, { s with pools := mapPut s.pools home [] r, movedPages := mapErase s.movedPages f })

/-- A page stands at its new frame: its count of requests and its poison end there. -/
def markMoved (s : State) (page frame : Nat) : State :=
  let s := dropCount s page
  { s with movedPages := mapSet s.movedPages page frame, poison := s.poison.filter fun k => k / 4096 != page }

/-- A page that moves is called in from every cache that holds lines of it. -/
def pullPage (s : State) (page : Nat) : State :=
  if (homeOf (page * 131072)).getD 0 < 4 then recallPage s page else recallCompanion s page

/-- The frame a die's page leaves joins the die's free frames. -/
def freeMoved (s : State) (page frame home : Nat) : State :=
  if home < 4 then ownFrame { s with pools := mapSet s.pools home (mapGetD s.pools home [] ++ [page]) } frame else s

/-- Move a page to a frame of another home (R363): recall, copy, the leaves, the translations. -/
def movePage (s : State) (page frame : Nat) : State :=
  let s := copyPage (pullPage (flushPage s page) page) page frame
  let ms := mappers s page
  let s := ms.foldl (fun s m => remap s m.2 frame) s
  let s := ms.foldl (fun s m => invalidate s { kind := 0, ctx := m.1, count := 1, va := m.2.va }) s
  freeMoved (markMoved s page frame) page frame ((homeOf (page * 131072)).getD 0)

/-- The destination of a page's move: the side whose requests were counted. A die's page goes to the companion that asked last; a
companion's page to the die that asked last, else to the lowest die with a free frame (R363, log 73). -/
def moveDest (s : State) (page home : Nat) : Option Nat :=
  let by_ := (mapGet? s.moveBy page).filter fun a => decide (a < 4) != decide (home < 4)
  if home < 4 then by_ else (by_.toList ++ [0, 1, 2, 3]).find? fun d => !(mapGetD s.pools d []).isEmpty

/-- A page moves home after four consecutive requests from across the pair link; with no free frame its count restarts. -/
def homeMove (s : State) (ctx va : Nat) : State :=
  let x := getCtx s ctx
  match walk s x va with
  | .error _ => s
  | .ok l =>
    let page := l.pa / 131072
    if l.level ≠ 0 ∨ l.mob = false ∨ mapGetD s.moves page 0 < 4 ∨ l.home = 5 then s
    else match moveDest s page l.home with
      | none => dropCount s page
      | some d =>
        let agent := if 8 ≤ d then d else l.home
        if !(s.halves.any fun h => h.2.agent == agent && h.2.st == 4 && decide (2 ≤ h.2.ver)) then s
        else match takeFrame s d with
          | none => dropCount s page
          | some (f, s) => movePage s page f

/-! ### Moves of contexts back to their companion (R213, R361, R362) -/

/-- A context is being moved back through a half. -/
def movingTo (half : Nat) (x : Context) : Bool := x.moving == some half

/-- The undock is complete when no context still has to leave and no RESUME is awaited: the companion is told and the half
returns to DOWN. -/
def settleUndock (s : State) (half : Nat) : State :=
  let h := getHalf s half
  if h.st ≠ 5 ∨ (h.offered ++ h.back).any (fun c => movingTo half (getCtx s c)) = true then s
  else goDown (pairSend s half 0x22 0 0 []) half

/-- A context that does not move runs on. -/
def keepContext (s : State) (ctx : Nat) : State :=
  let s := modCtx s ctx fun x => { x with moving := none, st := if x.st = 3 then 1 else x.st }
  schedule ((teamsOfCtx s ctx).foldl (fun s t =>
    if t.2.why = .migrate then modTeam s t.1 fun t => { t with ready := t.saved }
    else if t.2.preempt = some .migrate then schedEvent (modTeam s t.1 fun t => { t with preempt := none }) else s) s)

/-- The undock stops: the companion has no frames for the pages; the pair stays docked (R362). -/
def stopUndock (s : State) (half : Nat) : State :=
  let cs := (getHalf s half).offered.filter fun c => movingTo half (getCtx s c)
  cs.foldl keepContext (modHalf s half fun h => { h with st := 4, refuse := 6, offered := [] })

/-- A companion asks to undock: its contexts are saved, but those of floor F2, which never move (R6, R362). -/
def startUndock (half : Nat) (s : State) : State :=
  let agent := (getHalf s half).agent
  let cs := (s.ctxs.filter fun x => x.2.st != 0 && x.2.origin == agent && x.2.floor != 2).map (·.1)
  let s := modHalf s half fun h => { h with st := 5, offered := cs }
  let s := cs.foldl (fun s c =>
    let s := modCtx s c fun x => { x with moving := some half, st := 3 }
    (teamsOfCtx s c).foldl (fun s t => if t.2.saved then s else forcePreempt s t.1 .migrate) s) s
  settleUndock s half

/-- Move the Afmor-homed pages that a context maps home to a companion; none where its pool runs out. -/
def pagesHome (agent : Nat) : List Nat → State → Option State
  | [], s => some s
  | p :: ps, s => match takeFrame s agent with
    | none => none
    | some (f, s) => pagesHome agent ps (movePage s p f)

/-- Move what a larger leaf maps to a run of free frames that are placed alike, part by part, and rewrite the leaf (R362, R363); none
where the pool holds no such run. -/
def moveRun (s : State) (agent : Nat) (l : LeafAt) : Option State :=
  let n := leafSize l.level / 131072
  let pool := mapGetD s.pools agent []
  match pool.find? fun f => decide (f % n = 0) && (List.range n).all fun i => pool.contains (f + i) with
  | none => none
  | some f0 =>
    let s := { s with pools := mapPut s.pools agent [] (pool.filter fun f => !(decide (f0 ≤ f) && decide (f < f0 + n)))
                      movedPages := s.movedPages.filter fun e => !(decide (f0 ≤ e.1) && decide (e.1 < f0 + n)) }
    let s := (List.range n).foldl (fun s i =>
      let p := l.pa / 131072 + i
      let ls := leavesAt s p
      let s := copyPage (pullPage (flushPage s p) p) p (f0 + i)
      let s := (ls.filter fun x => x.level == 0 || (x.level == l.level && x.pa / 131072 == p)).foldl (fun s x => remap s x (f0 + i)) s
      freeMoved (markMoved s p (f0 + i)) p (f0 + i) ((homeOf (p * 131072)).getD 0)) s
    some (invalidate s { kind := 3 })

/-- Move what larger leaves of a context map home to a companion; none where its pool holds no run for one. -/
def runsHome (agent : Nat) : List LeafAt → State → Option State
  | [], s => some s
  | l :: ls, s => match moveRun s agent l with
    | none => none
    | some s => runsHome agent ls s

/-- Write bytes of a context's memory over the pair link, as memory writes of the hub (R355). -/
def postCtx (s : State) (x : Context) (va : Nat) (bs : List Byte) : State :=
  let pas := engPas s x va bs.length .engWrite
  clearCovered (postPut (engMark s x va bs.length .engWrite) (pas.zip bs)) pas

/-- What has completed since a context's image was announced applies to the image, where it stands (R204, R361). -/
def refreshImage (s : State) (ctx : Nat) : State :=
  let x := getCtx s ctx
  match x.moving with
  | none => s
  | some half =>
    let img := imageBytes s ctx none
    if !(getHalf s half).back.contains ctx ∨ engRead s x x.save img.length = img then s else postCtx s x x.save img

def refreshImages (s : State) : State := (s.ctxs.filter fun x => x.2.moving.isSome).foldl (fun s x => refreshImage s x.1) s

/-- Release a context's tenures; its handles are to be acquired again (R213, R278). -/
def yieldHandles (s : State) (ctx : Nat) : State :=
  let hs := (getCtx s ctx).handles.filter fun h => h.2.alloc && (h.2.st == 2 || h.2.st == 3) && !h.2.reacq
  hs.foldl (fun s h =>
    let s := modHandle s ctx h.1 fun e => { e with reacq := true, part := false }
    if h.2.home = 5 then s else releaseBox s h.2.die h.2.home h.2.pbox (.release none true) true) s

/-- A saved context moves on: its tenures, its pages, its image and the announcement (R361, R362). -/
def advanceMove (s : State) (ctx : Nat) : State :=
  let x := getCtx s ctx
  match x.moving with
  | none => s
  | some half =>
    let h := getHalf s half
    let builds := s.groups.any fun g => ctxNumOf s g.1 == ctx && counter g.2 .build != 0
    if h.st ≠ 5 ∨ h.offered.contains ctx = false ∨ allSaved s ctx = false ∨ x.mirror.inProgress.isSome = true ∨ (h.ver < 3 ∧ builds = true) then s
    else
      -- what its teams have written, earlier ones and those that ran on other dies too, is performed at PAIR scope (R253)
      let s := pairRelease (yieldHandles s ctx)
      let ls := (leavesOf s x).filter fun l => decide (bits l.bitsOf 9 6 < 4)
      let pages := dedupN ((ls.filter (·.level == 0)).map (·.pa / 131072))
      match (runsHome h.agent (ls.filter (·.level != 0)) s).bind (pagesHome h.agent pages) with
      | none => stopUndock s half
      | some s =>
        let img := imageBytes s ctx none
        match engXlate s x x.save .engWrite with
        | .error _ => stopUndock s half
        | .ok pa =>
          let s := postCtx s x x.save img
          let s := modHalf s half fun h => { h with offered := h.offered.erase ctx, back := setAdd h.back ctx }
          pairSend s half 0x04 ctx 0 (leBytes 4 ctx ++ leBytes 8 pa ++ leBytes 8 img.length)

/-- Every context that is being moved moves on as far as it can. -/
def advanceMoves (s : State) : State := (s.ctxs.filter fun x => x.2.moving.isSome).foldl (fun s x => advanceMove s x.1) s

/-- A context has moved away: what the Afmor holds of it goes, but for builder requests that it has accepted (R361). -/
def dropContext (s : State) (ctx : Nat) : State :=
  let ds := s.dies
  let builds := ds.any fun d => (d.2.bq.any fun q => q.ctx == ctx) || d.2.serving.any fun q => q.2.ctx == ctx
  let s := discardTeams s ctx true
  let keep (d : Nat × Die) : Nat × Die := match mapGet? ds d.1 with
    | some o => (d.1, { d.2 with bq := o.bq, serving := o.serving })
    | none => d
  let s := { s with dies := s.dies.map keep }
  let s := (s.launches.filter fun l => l.2.ctx == ctx).foldl (fun s l => freeEntry { s with launches := mapErase s.launches l.1 } l.2.mb l.2.qidx) s
  let s := endMirror (returnBanks (modCtx s ctx fun x => { x with handles := [] }) ctx) ctx true
  let s := { s with faults := s.faults.filter fun o => o.ctx != ctx
                    unpins := s.unpins.filter fun p => p.ctx != ctx
                    mboxes := s.mboxes.map fun b => if b.2.ctx = ctx then (b.1, { b.2 with blocked := none, ready := [] }) else b }
  modCtx (invalidate s { kind := 1, ctx := ctx }) ctx fun x =>
    { x with st := if builds then 3 else 0, qps := [], debt := 0, moving := if builds then x.moving else none, tidNext := 1 }

/-- A context that has moved away and whose builder requests are all complete leaves its entry. -/
def sweepMoved (s : State) : State := { s with ctxs := s.ctxs.map fun x =>
  if x.2.st = 3 ∧ x.2.moving.isSome ∧ (teamsOfCtx s x.1).isEmpty = true ∧ !((getHalf s (x.2.moving.getD 0)).back.contains x.1) ∧
      !(s.dies.any fun d => (d.2.bq.any fun q => q.ctx == x.1) || d.2.serving.any fun q => q.2.ctx == x.1)
  then (x.1, { x.2 with st := 0, moving := none }) else x }

/-- The companion accepted a context, or rejected it (R361). -/
def takeResume (half ctx status : Nat) (s : State) : State :=
  if !((getHalf s half).back.contains ctx) then s
  else
    let s := modHalf s half fun h => { h with back := setDel h.back ctx }
    settleUndock (if status = 0 then dropContext s ctx else keepContext s ctx) half

/-! ### Tenure over the pair link (R274, R279) -/

/-- A message of a type and transaction is on its way from an agent to a die. -/
def onItsWay (s : State) (agent die type : Nat) (q : Req) : Bool :=
  let same (t : Nat) (body : List Byte) : Bool := t == type && (reqOfBody body).req == q.req && (reqOfBody body).txn == q.txn
  let c := getChan s agent die
  c.whole.any (fun m => same m.2.type m.2.body) || c.held.any (fun m => same m.type m.body) ||
    (s.flits.filter (fun f => f.src == agent && f.dst == die) ++ c.part).any fun f => f.fidx == 0 && same f.type f.body

/-- The die that a companion's Fwd, Inv, Recall or BackInv is for: the lowest whose records the action fits, an owner of the bytes for a
Fwd, a sharer for an Inv, and to which the same action is not on its way (R264, R279). -/
def holderDie (s : State) (agent type : Nat) (q : Req) : Nat :=
  let fits (st : HSt) : Bool := if type = 3 then st != .s else if type = 5 then st == .s else true
  ([0, 1, 2, 3].find? fun d => ((getDie s d).recs.any fun r => fits r.st && boxMeets r.box q.box) && !onItsWay s agent d type q).getD 0

/-- The die that a companion's tenure message is for: the home of a request or of written data, the die that answers or is
answered, a holder (R279; log 86). -/
def tenureDie (s : State) (agent type : Nat) (body : List Byte) : Option Nat :=
  let a := ackOfBody body
  let d := dataOfBody body
  let home (pa : Nat) : Option Nat := (homeOf pa).filter (· < 4)
  match type with
  | 0 | 1 => home ((reqOfBody body).page * 131072)
  | 2 | 10 => if a.req < 4 then some a.req else none
  | 3 | 5 | 7 | 9 => some (holderDie s agent type (reqOfBody body))
  | 4 => if d.req < 4 then some d.req else none
  | 6 => [0, 1, 2, 3].find? fun k => (getDie s k).txs.any fun t => t.freq == a.req && t.ftxn == a.txn && t.owed.any (·.1 == agent)
  | 8 => home (if d.kind < 3 then d.line else ((boxSpans (boxOfBytes d.data)).headD (0, 0)).1)
  | _ => none

/-- A tenure message of a companion: the hub forms its flits again, toward the die that it is for, and puts a request under the
companion's agent number and its STAMP on the Afmor's timebase (R274, R279). -/
def pairTenure (half type : Nat) (body : List Byte) (s : State) : State :=
  let agent := (getHalf s half).agent
  if 11 ≤ type then { s with flitReports := s.flitReports + 1 }
  else match tenureDie s agent type body with
  | none => s
  | some die =>
    let q := reqOfBody body
    sendFlits s agent die
      { type := type, body := if type < 2 then
          reqBody { q with req := agent, wr := type == 1, stamp := (q.stamp + (getHalf s half).ofs) % 2 ^ 64 } else body }

/-! ### Commits (R363, R365) -/

/-- The companion applies the log to a marker; frames vacated on it that the context mapped return to their pool. -/
def commitLog (s : State) (half ctx n : Nat) : State :=
  let h := getHalf s half
  let m := (getCtx s ctx).mirror
  if (h.st ≠ 4 ∧ h.st ≠ 5) ∨ m.committed < n ∨ !(m.entries.any fun e => e.marker == some n) then s
  else
    let s := applyLog s ctx n
    let free := s.movedPages.filter fun e => homeOf (e.1 * 131072) == some h.agent && !((mapGetD s.pools h.agent []).contains e.1) &&
      (mappers s e.2).any (·.1 == ctx)
    { s with pools := mapPut s.pools h.agent [] (mapGetD s.pools h.agent [] ++ free.map (·.1)) }

/-! ### What the Pavilion writes in the hub (R363, R364, R366, R420; log 74) -/

/-- A mirror descriptor (R364). -/
def mirrorOf (v : Nat) (old : Mirror) (tb : Nat) : Mirror :=
  { old with en := bit v 0, imgu := bits v 15 1, interval := bits v 31 16, slot0 := bits v 75 32, slot1 := bits v 119 76,
             commit := bits v 171 128, frames := bits v 191 172, log := bits v 235 192, logsz := bits v 255 236, lastAt := tb }

/-- A mirror binding is written: the companion frames that the context maps and that no lower-numbered one owns become its
own; one that is cleared ends. -/
def writeMirror (s : State) (ctx v : Nat) : State :=
  if (mapGet? s.ctxs ctx).isNone then s
  else if !bit v 0 then endMirror s ctx true
  else
    let s := modCtx s ctx fun x => { x with mirror := mirrorOf v x.mirror s.tb }
    let x := getCtx s ctx
    let agent := homeOf x.mirror.slot0
    let fs := (leavesOf s x).flatMap fun l => if homeOf l.pa != agent then [] else
      (List.range (leafSize l.level / 131072)).map (l.pa / 131072 + ·)
    fs.foldl (fun s f => match mapGet? s.frameOwner f with
      | none => { s with frameOwner := mapSet s.frameOwner f ctx }
      | some o => if ctx < o ∧ (getCtx s o).mirror.lastNo = 0 ∧ (getCtx s o).mirror.entries.isEmpty = true then
          { s with frameOwner := mapSet s.frameOwner f ctx } else s) s

/-- A queue-pair descriptor is written; CRED and ERR stay. -/
def writeQp (s : State) (ctx qp v : Nat) : State :=
  if (mapGet? s.ctxs ctx).isNone then s
  else
    let n := qpOfBytes (leBytes 16 v)
    let s := modQp s ctx qp fun q => { n with cred := if n.st = 0 then 0 else q.cred, err := if n.st = 2 then q.err else 0 }
    if n.st = 1 then readyQp s ctx qp else s

/-- The configuration of a port, which stands while one of its halves is docked (R352). A half that trains, attests or aligns while it
changes goes DOWN: its link is no more (DESIGN CHOICE, log 78). -/
def splitPort (s : State) (port : Nat) (two : Bool) : State :=
  if [4, 5].contains (getHalf s (2 * port)).st ∨ [4, 5].contains (getHalf s (2 * port + 1)).st ∨ s.split.contains port = two then s
  else [2 * port, 2 * port + 1].foldl (fun s h =>
    if [1, 2, 3].contains (getHalf s h).st then modHalf s h fun h => { refuse := h.refuse, drops := h.drops, out := h.out } else s)
    { s with split := setPut s.split port two }

/-- The Afmor asks to undock a companion: UNDOCK goes to it, and its contexts are moved back (R355, R362). -/
def askUndock (s : State) (half : Nat) : State :=
  if (getHalf s half).st = 4 then advanceMoves (startUndock half (pairSend s half 0x21 0 0 [])) else s

/-- A register write of the Pavilion, function 17. -/
def pavilionWrite (s : State) (off v : Nat) : State :=
  if off = 0 then modFn s 17 fun x => { x with tlbinv0 := v % 2 ^ 64 }
  else if 2 ^ 23 ≤ off ∧ off < 2 ^ 23 + 4 then splitPort s (off - 2 ^ 23) (bit v 0)
  else if 2 ^ 24 ≤ off ∧ off < 2 ^ 24 + 8 then askUndock s (off - 2 ^ 24)
  else if 2 ^ 20 ≤ off ∧ off < 2 ^ 20 + 4096 then writeMirror s (off - 2 ^ 20) (v % 2 ^ 256)
  else if 2 ^ 21 ≤ off ∧ off < 2 ^ 21 + 16384 then writeQp s ((off - 2 ^ 21) / 4) (off % 4) (v % 2 ^ 128)
  else if 2 ^ 22 ≤ off ∧ off < 2 ^ 22 + 16 then
    if homeOf (v * 131072) = some (off - 2 ^ 22) then
      { s with pools := mapSet s.pools (off - 2 ^ 22) (mapGetD s.pools (off - 2 ^ 22) [] ++ [v]) } else s
  else s

end Sys2Proof.Machine
end

