-- ==== Sys2Proof/Machine/Events.lean ====
section
/-! DEFINITION. The whole-device steps of the opcode table, each at a moment that its rule permits; one that is not
enabled changes nothing (log 6). -/
namespace Sys2Proof.Machine

open Sys2Proof

/-! ### Pipe results (R59, R147, R153) -/

/-- The V-pipe results that are due are written (R59). -/
def vWrite (s : State) (gid : Nat) : State :=
  let g := getGroup s gid
  if (mapGet? s.groups gid).isNone ∨ !(g.ops.any fun o => o.pipe == 0 && decide (o.due < cycOf s gid)) then s
  else modGroup (bump s) gid fun g => g.landV s.fresh (cycOf s gid)

/-- An S-pipe result is written (R59). -/
def sWrite (s : State) (gid id : Nat) : State := match (getGroup s gid).op? id with
  | none => s
  | some o => if o.pipe = 1 ∧ !o.done then landOpS s gid o else s

/-- The register values of one lane of a completed atomic (R145, R152, R369): `old` is empty where its page is lost, and
longer than the n bytes where its sector was poisoned when it was performed. -/
def atomVals (n d L pa : Nat) (old : List Byte) : List (Nat × Word × Bool) :=
  if old.isEmpty then loadVals n false d L (List.replicate n (0, true))
  else if old.length ≠ n then loadVals n false d L ((List.range n).map fun i => (Config.poisonByte (pa + i), true))
  else loadVals n false d L (old.map fun b => (b, false))

/-- An atomic operation completes when every lane has its old value (R152, R153). -/
def atomWrite (s : State) (gid id : Nat) : State :=
  let s := pushAtomic s gid id
  match (getGroup s gid).op? id with
  | none => s
  | some o => match o.kind with
    | .atomic _ n sc k lanes _ back =>
      if !(lanes.all fun l => (mapGet? back l.1).isSome) then s
      else
        let vals := if o.units.isEmpty && o.clash.isEmpty then [] else
          lanes.flatMap fun l => atomVals n o.dst l.1 l.2.1 (mapGetD back l.1 [])
        let s := if kindAcquires k then acquired s gid ((Scope.ofCode sc).getD .group) else s
        landOpS s gid { o with vals := vals }
    | _ => s

/-- The data of a load that have arrived are taken (R147): the operation with what it knows now. -/
def takeLoad (s : State) (gid : Nat) (o : Op) (n : Nat) (sx nc : Bool) (ls : List LaneAcc) : State × Op :=
  let r := loadParts s (coreOf s gid) nc n sx o.dst false ls
  (r.1, { o with vals := o.vals ++ r.2.1, kind := if r.2.2.isEmpty then .result else .load n sx nc r.2.2 })

/-- The data of a load that have arrived are taken; the load completes with the last (R147). -/
def loadWrite (s : State) (gid : Nat) (o : Op) (n : Nat) (sx nc : Bool) (ls : List LaneAcc) : State :=
  let r := takeLoad s gid o n sx nc ls
  if r.2.kind = .result then landOpS r.1 gid r.2 else modGroup r.1 gid fun g => g.modOp o.id fun _ => r.2

/-- An L-pipe operation completes where its data are there (R59, R147, R211, R228, R230, R270). -/
def lWrite (s : State) (gid id : Nat) : State := match (getGroup s gid).op? id with
  | none => s
  | some o =>
    if o.pipe ≠ 2 ∨ o.done = true ∨ o.flt.isSome = true ∨ o.cls.isSome = true then s
    else match o.kind with
      | .result => landOpS s gid o
      | .load n sx nc ls => loadWrite s gid o n sx nc ls
      | .atomic _ _ _ _ _ _ _ => atomWrite s gid id
      | .tacq _ _ =>
        if o.status = 0 then s
        else landOpS (if o.vals.any (·.2.1 != 0) then acquired s gid .package else s) gid o
      | .wload n sx ls => landOpS s gid { o with vals := windowRest (winOf s gid) o.dst n sx ls }
      | .rhit _ => structStep s gid id o
      | .rgenq _ => structStep s gid id o
      | .runpin => if s.unpins.any fun p => p.op == some (gid, id) then s else landOpS s gid o
      | _ => s

/-- The results of an operation arrive: a read of a register that they are to be written to may return them from now on
(R63). -/
def arriveOp (s : State) (gid id : Nat) : State := match (getGroup s gid).op? id with
  | none => s
  | some o =>
    let set (s : State) (kind : OpKind) (vals : List (Nat × Word × Bool)) : State :=
      modGroup s gid fun g => g.modOp id fun o => { o with kind := kind, vals := vals }
    if o.done = true ∨ o.flt.isSome = true ∨ o.units.isEmpty = true then s
    else match o.kind with
      | .load n sx nc ls => let r := takeLoad s gid o n sx nc ls; set r.1 r.2.kind r.2.vals
      | .atomic _ n _ _ lanes _ back =>
        if lanes.all fun l => (mapGet? back l.1).isSome then
          set s o.kind (lanes.flatMap fun l => atomVals n o.dst l.1 l.2.1 (mapGetD back l.1 []))
        else s
      | .wload n sx ls => set s .result (windowRest (winOf s gid) o.dst n sx ls)
      | .rhit _ => (match structVals s gid o with
        | .ok vals => set (structAcq s gid o) .result vals
        | .error _ => s)
      | .rgenq _ => (match structVals s gid o with
        | .ok vals => set s .result vals
        | .error _ => s)
      | .ray any rays => (match rayVals s gid o any rays with
        | .ok vals => set s o.kind vals
        | .error _ => s)
      | .tile => (match (getGroup s gid).mq with
        | w :: _ => (match w.i with
          | .tmovv p v j false => if w.op = some id then set s .tile (movOutVals (getGroup s gid) p v j w.lanes w.cfgs) else s
          | _ => s)
        | [] => s)
      | _ => s

/-- A store that names a flag is performed (R147, R148), and so is a CACHE operation (R158). -/
def storeDone (s : State) (gid id : Nat) : State := match (getGroup s gid).op? id with
  | none => s
  | some o => match o.kind with
    | .store nc lines rest =>
      let q := if rest.isEmpty then (s, []) else storeBytes (coreOf s gid) nc rest s
      let r := if nc then wbAll (fun s l => wbThrough s (coreOf s gid) l) lines q.1 else (q.1, true)
      if r.2 && q.2.isEmpty then landOpS r.1 gid o
      else if rest.isEmpty then r.1
      else modGroup r.1 gid fun g => g.modOp id fun o => { o with kind := .store nc lines q.2 }
    | .wstore rest => landOpS (winStore s (teamOf s gid).win rest) gid o
    | .prefetch lv lines =>
      let r := prefetchAll s (coreOf s gid) lv lines
      if r.2.isEmpty then landOpS r.1 gid o else modGroup r.1 gid fun g => g.modOp id fun o => { o with kind := .prefetch lv r.2 }
    | .cacheOp inv lv lines =>
      let r := cacheTry s (coreOf s gid) inv lv lines
      if r.2.isEmpty then landOpS r.1 gid o else modGroup r.1 gid fun g => g.modOp id fun o => { o with kind := .cacheOp inv lv r.2 }
    | _ => s

/-- A fence completes, and its slot issues again (R156). -/
def fenceDone (s : State) (gid : Nat) (sl : PSlot) : State :=
  match firstSome (fun w : Wait => match w with
      | .fence sc k id => some (sc, k, id)
      | _ => none) ((getGroup s gid).slot sl).waits with
  | none => s
  | some (sc, k, id) =>
    let r := fenceTry s gid sl sc k id
    if r.2 then applyRules (modGroup r.1 gid fun x => x.modSlot sl fun v => v.unblock (.fence sc k id)) gid else r.1

/-! ### Engines (R204, R226, R231, R344) -/

def copyDone (s : State) (gid id : Nat) : State := match (getGroup s gid).op? id with
  | none => s
  | some o =>
    if o.done = true ∨ o.flt.isSome = true then s
    else match o.kind with
      | .copy d => copyStep s gid id d o.failed
      | .link _ _ _ _ _ _ _ _ => refreshImages (linkStep s gid o)
      | _ => s

def rayDone (s : State) (gid id : Nat) : State := match (getGroup s gid).op? id with
  | none => s
  | some o =>
    if o.done = true ∨ o.flt.isSome = true then s
    else match o.kind with
      | .ray any rays => rayStep s gid id o any rays
      | _ => s

/-- The lowest free builder of a die takes a request; where none can, one whose header another die homes is forwarded (R344). -/
def dispatchBuild (s : State) (die : Nat) : State :=
  match firstSome (dispatchRequest s die) [0, 1] with
  | some s => s
  | none => forwardRequest s die

/-- The oldest BUILD operation of a group that came with an image and of which only the count travelled completes
(R361, log 72). -/
def plainBuild (s : State) (gid : Nat) : State :=
  let known (id : Nat) : Bool := s.dies.any fun d =>
    (d.2.bq.any fun q => q.gid == gid && q.op == id) || d.2.serving.any fun q => q.2.gid == gid && q.2.op == id
  match (getGroup s gid).ops.find? fun o => !o.done && (match o.kind with
      | .build => true
      | _ => false) && !known o.id with
  | none => s
  | some o => finishOpS s gid o.id

/-- A builder request completes: of builder n of a die for n below 2, else one of group n - 2 that travelled in an image. -/
def buildDone (s : State) (die n : Nat) : State :=
  advanceMoves (sweepMoved (refreshImages (if n < 2 then (completeRequest s die n).getD s else plainBuild s (n - 2))))

/-! ### Wakes (R30, R109) -/

/-- A slot sleeps, or did before its group entered a handler. -/
def sleeping (v : Slot) : Bool := v.st == .sleep || (v.st == .held && v.prior == .sleep)

/-- The team of a group neither is saved nor is to stop: where it is, its parked slots stop where they stand (R326). -/
def runs (s : State) (gid : Nat) : Bool := !(teamOf s gid).saved && (teamOf s gid).preempt.isNone

/-- A cycle count or a deadline has passed: the slot wakes. -/
def sleepWake (s : State) (gid : Nat) (sl : PSlot) : State :=
  let v := (getGroup s gid).slot sl
  let due := v.waits.any fun w => match w with
    | .cycle c => decide (c ≤ cycOf s gid)
    | .time t => decide (t ≤ ctxTime s (ctxOf s gid))
    | _ => false
  if sleeping v && due && runs s gid then applyRules (modSlot s gid sl (Slot.wake Wait.sleeps)) gid else s

/-- A SLEEP.B wakes at its promise with its buffer not FULL, and traps; while the slot is HELD the trap is kept, and while its
group is parked in EMULATE it comes after that (R7). -/
def promiseMiss (s : State) (gid : Nat) (sl : PSlot) : State :=
  let v := (getGroup s gid).slot sl
  match firstSome (fun w : Wait => match w with
      | .buffer h pc word => some (h, pc, word)
      | _ => none) v.waits with
  | none => s
  | some (h, pc, word) =>
    let b := bufOf s gid (bits h 7 0)
    if !sleeping v || !runs s gid || (getGroup s gid).emulates || decide (ctxTime s (ctxOf s gid) < b.promise) then s
    else if b.st = .full then applyRules (modSlot s gid sl (Slot.wake Wait.sleeps)) gid
    else if v.st = .held then modSlot s gid sl fun v => { v.wake Wait.sleeps with missed := some (pc, word, h) }
    else takeTrap (bump (modSlot s gid sl (Slot.wake Wait.sleeps))) gid sl word pc v.pc { code := tPromiseMiss, detail := h }

/-! ### Tenure messages (R261, R266 to R276) -/

/-- A flit arrives: gathered into its message, or discarded and reported. -/
def takeFlit (s : State) (n : Nat) : State := match s.flits[n]? with
  | none => s
  | some f =>
    let s := { s with flits := dropAt s.flits n }
    let c := getChan s f.src f.dst
    let mine := c.part.filter (·.msgno == f.msgno)
    if 11 ≤ f.type ∨ f.fcnt < f.fidx ∨ mine.any (fun o => o.fidx == f.fidx || o.fcnt != f.fcnt) = true ∨
        (mapGet? c.whole f.msgno).isSome = true then { s with flitReports := s.flitReports + 1 }
    else if mine.length = f.fcnt then
      let all := f :: mine
      let body := (List.range (f.fcnt + 1)).flatMap fun i => ((all.find? (·.fidx == i)).map (·.body)).getD []
      setChan s f.src f.dst { c with part := c.part.filter (·.msgno != f.msgno), whole := mapSet c.whole f.msgno { type := f.type, body := body } }
    else setChan s f.src f.dst { c with part := c.part ++ [f] }

/-- A Fwd, Inv, Recall or BackInv reaches a die for bytes whose Grant it has, and whose Data are still on their way from another
agent: its answer waits, as its access has yet to be performed (R268, R269). -/
def dataAwaited (s : State) (home die : Nat) (m : Msg) : Bool :=
  [3, 5, 7, 9].contains m.type && (getDie s die).mine.any fun x =>
    x.home == home && x.grant.isSome && boxMeets x.r.box (reqOfBody m.body).box

/-- The next message of a pair of agents is delivered, where it is of the given type; one that its sender kept for want of room
leaves in its place (R261). -/
def deliver (s : State) (src dst type : Nat) (act : State → List Byte → State) : State :=
  let c := getChan s src dst
  match mapGet? c.whole c.recvNo with
  | none => s
  | some m =>
    if m.type = type ∧ dst < 5 ∧ dataAwaited s src dst m = false then
      act (pumpChan (setChan s src dst { c with recvNo := (c.recvNo + 1) % 65536, whole := mapErase c.whole c.recvNo }) src dst) m.body
    else s

/-! ### What the end of a request lets be performed (R268, R275) -/

/-- The loads of a group that wait for a line are performed on what has come of it. -/
def performLoads (s : State) (gid line : Nat) : State := (getGroup s gid).ops.foldl (fun s o => match o.kind with
  | .load n sx nc ls =>
    if !o.done && ls.any fun l => l.pas.any fun pa => lineOf pa == line then
      let r := takeLoad s gid o n sx nc ls
      modGroup r.1 gid fun g => g.modOp o.id fun o => { o with kind := r.2.kind, vals := r.2.vals }
    else s
  | _ => s) s

/-- A TLD under way is performed on what has come of a line. -/
def performTld (s : State) (gid line : Nat) : State := match (getGroup s gid).mq with
  | [] => s
  | w :: _ => match w.i with
    | .tld _ _ .global _ =>
      if w.begun && (tldLeft w).any fun pa => lineOf pa == line then
        let r := tldGo s gid w .global
        modHead r.1 gid fun _ => r.2
      else s
    | _ => s

/-- The data of a load, of a TLD's rows and of a record that its die now has are taken; a line that its die may now write takes the
bytes that wait for it. -/
def performLine (s : State) (die line : Nat) (wr : Bool) : State :=
  let s := s.groups.foldl (fun s g => if dieOf s g.1 ≠ die then s
    else seeSlot (seeSlot (performTld (performLoads s g.1 line) g.1 line) g.1 .a line) g.1 .b line) { s with granted := some (die, line) }
  let s := { s with granted := none }
  if !wr then s
  else
    let s := ((s.clusters.map (·.1)).filter fun k => k / 8 == die).foldl (fun s k => (wbCC s k line).1) s
    ((s.cores.map (·.1)).filter fun c => dieOfCore c == die).foldl (fun s c => (wbL1 s c line).1) s

/-- The accesses whose requests a step has completed are performed at that point (R268). -/
def performLines (s s' : State) (die : Nat) : State :=
  ((getDie s die).mine.filter fun m => m.why == .line && !((getDie s' die).mine.any fun x => x.r.txn == m.r.txn)).foldl
    (fun t m => performLine t die (m.r.box.base / 128) m.r.wr) s'

/-- A write or atomic of the Afmor at a companion's home is performed as its answer comes: the bytes it leaves stand in the home's
memory, or in the redo log of the binding that owns the frame (R252, R365). -/
def homeAtomic (s : State) (die : Nat) (a : AckB) : State :=
  match (getDie s die).mine.find? (·.r.txn == a.txn) with
  | none => s
  | some m =>
    if a.code = 3 ∧ 8 ≤ m.home then
      let n := nthN m.r.box.ext 0
      homePut s (withAddrs m.r.box.base (atomBytes faddAtomic (m.r.atomOp s) n (sliceBytes a.atom 0 n) m.r.ops))
    else s

/-- A Grant reaches a die: what it ends is performed. -/
def takeGrant (s : State) (die : Nat) (a : AckB) : State :=
  let s := homeAtomic s die a
  performLines s (onGrant s die a) die

/-- A path takes the PERM trap of an access that a companion's home refused, before its next chain (R275, log 93). -/
def refusePath (s : State) (gid : Nat) (sl : PSlot) (pa : Nat) : State :=
  let sl := if ((getGroup s gid).slot sl).st = .free then otherSlot sl else sl
  let v := (getGroup s gid).slot sl
  if (getGroup s gid).retired ∨ v.st = .free then s
  else takeTrap (bump s) gid sl 0 v.pc v.pc { code := tPerm, addr := Config.refusedAddr pa }

/-- An access of a group that has issued is refused as PERM by a companion's home: its operation ends with no result, and its path
traps (R275, log 93). -/
def refuseOp (s : State) (gid id pa : Nat) : State :=
  match (getGroup s gid).op? id with
  | none => s
  | some o => refusePath (unblockGroup (modGroup s gid fun g => g.dropOp id) gid (.op id)) gid o.slot pa

/-- The oldest matrix word of a group, a TLD or TST of global memory under way, is refused: it ends with no further effect, and a path
of its group traps (R275, log 93). -/
def refuseWord (s : State) (gid : Nat) (b : Box) : State := match (getGroup s gid).mq with
  | [] => s
  | w :: ws =>
    let drop : State := refusePath (afterOp (applyRules (modGroup s gid fun g => { g with mq := ws }) gid) gid) gid .a b.base
    match w.i with
    | .tld _ _ .global _ => if w.begun && (tldLeft w).any (boxHas b) then drop else s
    | .tst _ _ .global _ _ => if (w.pas.any fun as => as.any (boxHas b)) && (w.begun || w.stored) then drop else s
    | _ => s

/-- The record read of a slot's chain is refused: the chain traps. -/
def refuseRecord (s : State) (gid : Nat) (sl : PSlot) (b : Box) : State :=
  let v := (getGroup s gid).slot sl
  if v.st == .active && v.seen.1 == v.pc && v.seen.2.any fun e => e.2.isNone && boxHas b e.1 then
    refusePath (modSlot s gid sl fun v => { v with seen := (0, []) }) gid sl b.base else s

/-- The groups whose teams run on a core that `on` accepts. -/
def groupsOn (s : State) (on : Nat → Bool) : List Nat :=
  (s.groups.filter fun g => !g.2.retired && !(getTeam s g.2.team).saved && on (getTeam s g.2.team).core).map (·.1)

/-- The dirty bytes of a box leave the lines of a cache. -/
def dropDirty (m : FMap CLine) (b : Box) : FMap CLine := (storedLines m b).foldl (fun m e =>
  clPut m e.1 ((e.2.dirtyOffs.filter fun o => boxHas b (e.1 * 128 + o)).foldl CLine.drop e.2)) m

/-- Bytes that wait in the caches of a die's cores for a line whose write is refused leave them, and a group there traps (R275,
log 93). -/
def refuseStores (s : State) (die : Nat) (b : Box) : State :=
  let trapOn (s : State) (on : Nat → Bool) : State := match groupsOn s on with
    | g :: _ => refusePath s g .a b.base
    | [] => s
  let s := ((s.cores.filter fun c => dieOfCore c.1 == die && !(storedLines c.2.l1 b).isEmpty).map (·.1)).foldl (fun s c =>
    trapOn (modCore s c fun c => { c with l1 := dropDirty c.l1 b }) (· == c)) s
  ((s.clusters.filter fun k => k.1 / 8 == die && !(storedLines k.2.cc b).isEmpty).map (·.1)).foldl (fun s k =>
    trapOn (modCluster s k fun k => { k with cc := dropDirty k.cc b }) (clusterOf · == k)) s

/-- A Nack(PERM) reaches a die: the accesses that it refuses trap, and an engine's has the status PERM; of a release or an acquire made again, the tenure is not held. -/
def permNack (s : State) (die : Nat) (m : MyReq) : State :=
  let s := modDie s die fun d => { d with mine := d.mine.filter fun x => x.r.txn != m.r.txn }
  match m.why with
  | .line =>
    let s := s.groups.foldl (fun s g => if dieOf s g.1 ≠ die then s
      else
        let s := g.2.ops.foldl (fun s o => match o.kind with
          | .load _ _ _ ls => if ls.any fun l => l.pas.any fun pa => boxHas m.r.box pa then refuseOp s g.1 o.id m.r.box.base else s
          | .store _ _ rest => if rest.any fun b => boxHas m.r.box b.1 then refuseOp s g.1 o.id m.r.box.base else s
          | _ => s) s
        refuseRecord (refuseRecord (refuseWord s g.1 m.r.box) g.1 .a m.r.box) g.1 .b m.r.box) s
    if m.r.wr then refuseStores s die m.r.box else s
  | .engine => { s with served := mapSet s.served (m.r.box.base / 128 * 2 + b2n m.r.wr) 2 }
  | .handle ctx h g op => refuseOp (modHandle s ctx h fun e => { e with st := 0 }) g op m.r.box.base
  | .reacq ctx h => modHandle s ctx h fun e => { e with st := 0, part := false, reacq := false }
  | .atom g op _ _ => refuseOp s g op m.r.box.base
  | .release _ _ => completeReq s die m 2 []

/-- A Nack reaches a die (R275). -/
def takeNack (s : State) (die : Nat) (a : AckB) : State :=
  match (getDie s die).mine.find? (·.r.txn == a.txn) with
  | none => s
  | some m => if a.code = 3 then permNack s die m else onNack s die a

/-- A request refused as BUSY is sent again after at least 256 ticks, with the same STAMP (R275). -/
def busyResend (s : State) (die txn : Nat) : State :=
  match (getDie s die).mine.find? fun m => m.r.txn == txn with
  | none => s
  | some m => match m.busyAt with
    | none => s
    | some t =>
      if elapsed s t < 256 then s
      else
        let s := modDie s die fun d => { d with mine := d.mine.map fun x => if x.r.txn == txn then { x with busyAt := none } else x }
        sendMsg s die m.home (if m.r.wr then 1 else 0) (reqBody m.r)

/-! ### Translations (R293) -/

/-- A walk for a context on a core completes: it fills the translation, or reports the fault. -/
def walkDone (s : State) (core ctx va : Nat) (wr : Bool) : State :=
  let x := getCtx s ctx
  if x.st = 0 ∨ 128 ≤ core then s
  else match walk s x va with
    | .error f => if waitsReply f then raiseFault (if f.pte = 0 then s else touch s f.pte) x va f .walk (dieOfCore core) else s
    | .ok _ => fillTlb s core x va (if wr then .write else .read)

/-! ### Meanings -/

def execVPipeResultWrite (g : Nat) (s : State) : Host.Outcome State Fault Refusal := .next (vWrite s g)
def execSPipeResultWrite (g op : Nat) (s : State) : Host.Outcome State Fault Refusal := .next (sWrite s g op)
def execLPipeResultWrite (g op : Nat) (s : State) : Host.Outcome State Fault Refusal := .next (lWrite s g op)
def execStorePerformed (g op : Nat) (s : State) : Host.Outcome State Fault Refusal := .next (storeDone s g op)
def execFenceComplete (g : Nat) (sl : PSlot) (s : State) : Host.Outcome State Fault Refusal := .next (fenceDone s g sl)
def execMatrixExecute (g : Nat) (s : State) : Host.Outcome State Fault Refusal := .next (matrixStep s g)
def execCopyComplete (g op : Nat) (s : State) : Host.Outcome State Fault Refusal := .next (copyDone s g op)
def execRayRecordWrite (g op : Nat) (s : State) : Host.Outcome State Fault Refusal := .next (rayDone s g op)
def execBuilderDispatch (die : Nat) (s : State) : Host.Outcome State Fault Refusal := .next (dispatchBuild s die)
def execBuildRequestComplete (die n : Nat) (s : State) : Host.Outcome State Fault Refusal := .next (buildDone s die n)
def execSleepWake (g : Nat) (sl : PSlot) (s : State) : Host.Outcome State Fault Refusal := .next (sleepWake s g sl)
def execPromiseMiss (g : Nat) (sl : PSlot) (s : State) : Host.Outcome State Fault Refusal := .next (promiseMiss s g sl)
def execCheckpointCommit (ctx : Nat) (s : State) : Host.Outcome State Fault Refusal :=
  .next (advanceMoves ((stepCheckpoint s ctx).getD s))
def execCheckpointTimer (ctx : Nat) (s : State) : Host.Outcome State Fault Refusal :=
  .next (if checkpointDue s ctx then startCheckpoint s ctx else s)
def execTranslationWalk (core ctx va : Nat) (wr : Bool) (s : State) : Host.Outcome State Fault Refusal := .next (walkDone s core ctx va wr)
def execReqrd (src dst : Nat) (s : State) : Host.Outcome State Fault Refusal :=
  .next (deliver s src dst 0 fun s b => arriveReq s dst (reqOfBody b))
def execReqwr (src dst : Nat) (s : State) : Host.Outcome State Fault Refusal :=
  .next (deliver s src dst 1 fun s b => arriveReq s dst (reqOfBody b))
def execRequestStart (die set : Nat) (s : State) : Host.Outcome State Fault Refusal :=
  .next (performLines s (startSet faddAtomic s die set) die)
def execGrant (src dst : Nat) (s : State) : Host.Outcome State Fault Refusal :=
  .next (deliver s src dst 2 fun s b => takeGrant s dst (ackOfBody b))
def execFwd (src dst : Nat) (s : State) : Host.Outcome State Fault Refusal :=
  .next (deliver s src dst 3 fun s b => onFwd s src dst (reqOfBody b))
def execData (src dst : Nat) (s : State) : Host.Outcome State Fault Refusal :=
  .next (deliver s src dst 4 fun s b => performLines s (onData s dst (dataOfBody b)) dst)
def execInv (src dst : Nat) (s : State) : Host.Outcome State Fault Refusal :=
  .next (deliver s src dst 5 fun s b => onInv s src dst (reqOfBody b))
def execInvack (src dst : Nat) (s : State) : Host.Outcome State Fault Refusal :=
  .next (deliver s src dst 6 fun s b => performLines s (onInvAck faddAtomic s dst src (ackOfBody b)) dst)
def execRecall (src dst : Nat) (s : State) : Host.Outcome State Fault Refusal :=
  .next (deliver s src dst 7 fun s b => onRecall s src dst 1 (reqOfBody b))
def execWbdata (src dst : Nat) (s : State) : Host.Outcome State Fault Refusal :=
  .next (deliver s src dst 8 fun s b => onWbData s dst src (dataOfBody b))
def execBackinv (src dst : Nat) (s : State) : Host.Outcome State Fault Refusal :=
  .next (deliver s src dst 9 fun s b => onRecall s src dst 2 (reqOfBody b))
def execNack (src dst : Nat) (s : State) : Host.Outcome State Fault Refusal :=
  .next (deliver s src dst 10 fun s b => takeNack s dst (ackOfBody b))
def execBusyResend (die txn : Nat) (s : State) : Host.Outcome State Fault Refusal := .next (busyResend s die txn)
def execPageHomeMove (ctx va : Nat) (s : State) : Host.Outcome State Fault Refusal := .next (homeMove s ctx va)
def execMailboxArrival (n : Nat) (s : State) : Host.Outcome State Fault Refusal := .next (match arrivalOf s n with
  | some p => arrivePost { s with posts := dropAt s.posts n } p
  | none => s)
def execLaunchStart (mb : Nat) (s : State) : Host.Outcome State Fault Refusal := .next (if canStart s mb then startLaunch s mb else checkBox s mb)
def execPreemptRequest (team : Nat) (s : State) : Host.Outcome State Fault Refusal := .next ((preemptTeam s team).getD s)
def execSafePoint (team : Nat) (s : State) : Host.Outcome State Fault Refusal := .next (advanceMoves ((safePoint s team).getD s))
def execTeamRestore (team : Nat) (s : State) : Host.Outcome State Fault Refusal := .next ((restoreNext s team).getD s)
def execSliceExpiry (team : Nat) (s : State) : Host.Outcome State Fault Refusal :=
  .next (if sliceOver s team then expireSlice s team else s)
def execCoreRetirement (core : Nat) (s : State) : Host.Outcome State Fault Refusal := .next ((retireCore s core).getD s)
def execSliceRetirement (die slice : Nat) (s : State) : Host.Outcome State Fault Refusal :=
  .next (if sliceDue s die slice then retireSlice s die slice else s)
def execPageRetirement (page : Nat) (s : State) : Host.Outcome State Fault Refusal := .next (if pageDue s page then retirePage s page else s)
def execMemoryError (e : ErrorSite) (s : State) : Host.Outcome State Fault Refusal := .next (strike s e)
def execTlbinvPageRange (fn w1 : Nat) (s : State) : Host.Outcome State Fault Refusal := .next (writeInv s fn w1 0)
def execTlbinvContext (fn w1 : Nat) (s : State) : Host.Outcome State Fault Refusal := .next (writeInv s fn w1 1)
def execTlbinvTenant (fn w1 : Nat) (s : State) : Host.Outcome State Fault Refusal := .next (writeInv s fn w1 2)
def execTlbinvAll (fn w1 : Nat) (s : State) : Host.Outcome State Fault Refusal := .next (writeInv s fn w1 3)
def execTlbinvComplete (s : State) : Host.Outcome State Fault Refusal := .next (completeInv s)
def execInvstatWrite (fn v : Nat) (s : State) : Host.Outcome State Fault Refusal := .next (writeInvstat s fn v)
def execFltrepRetry (fn v : Nat) (s : State) : Host.Outcome State Fault Refusal := .next (replyFault s fn v false)
def execFltrepFail (fn v : Nat) (s : State) : Host.Outcome State Fault Refusal := .next (replyFault s fn v true)
def execWriteWindowDescriptor (fn addr : Nat) (s : State) : Host.Outcome State Fault Refusal := .next (writeHreq s fn addr (· == 1))
def execWriteMailboxEntry (fn addr : Nat) (s : State) : Host.Outcome State Fault Refusal := .next (writeHreq s fn addr (· == 2))
def execWriteContextRecord (fn addr : Nat) (s : State) : Host.Outcome State Fault Refusal := .next (writeHreq s fn addr (· == 3))
def execEndContext (fn addr : Nat) (s : State) : Host.Outcome State Fault Refusal := .next (writeHreq s fn addr (· == 4))
def execGiveClusterBank (fn addr : Nat) (s : State) : Host.Outcome State Fault Refusal := .next (writeHreq s fn addr (· == 5))
def execAttestationReport (fn addr : Nat) (s : State) : Host.Outcome State Fault Refusal := .next (writeHreq s fn addr (· == 6))
def execSetRetirementThreshold (fn addr : Nat) (s : State) : Host.Outcome State Fault Refusal := .next (writeHreq s fn addr (· == 7))
def execRequestComplete (fn : Nat) (s : State) : Host.Outcome State Fault Refusal := .next (completeHreq s fn)
def execMback (fn v : Nat) (s : State) : Host.Outcome State Fault Refusal := .next (ackBox s fn v)
def execHstatRead (fn : Nat) (s : State) : Host.Outcome State Fault Refusal := .next (readHstat s fn)
def execRasstatRead (fn die : Nat) (s : State) : Host.Outcome State Fault Refusal := .next (readRasstat s fn die)
def execPairstatRead (half : Nat) (s : State) : Host.Outcome State Fault Refusal := .next (readPairstat s half)
def execRegisterWrite (fn off : Nat) (v : RegWrite) (s : State) : Host.Outcome State Fault Refusal :=
  .next (if fn = 17 then pavilionWrite s off v.v else writeReg s fn off v.n v.v)
def execHostMailboxWrite (fn off : Nat) (bytes : List Byte) (s : State) : Host.Outcome State Fault Refusal := .next (hostMailbox s fn off bytes)
def execFunctionLevelReset (vf : Nat) (s : State) : Host.Outcome State Fault Refusal := .next (resetVf s vf)
def execPartReset (s : State) : Host.Outcome State Fault Refusal := .next (resetPart s)
def execD3hotEntry (s : State) : Host.Outcome State Fault Refusal := .next (enterD3 s)
def execD0Exit (s : State) : Host.Outcome State Fault Refusal := .next (exitD3 s)
def execLinkUp (half : Nat) (ok : Bool) (s : State) : Host.Outcome State Fault Refusal := .next (trainLink s half ok)
def execHello (half : Nat) (h : PairHdr) (nonce versions : Nat) (s : State) : Host.Outcome State Fault Refusal :=
  .next (onMsg s half h [2] (takeHello half nonce versions))
def execAttest (half : Nat) (h : PairHdr) (tb sig : Nat) (s : State) : Host.Outcome State Fault Refusal :=
  .next (onMsg s half h [2] (takeAttest half tb sig))
def execAlign (half : Nat) (h : PairHdr) (ofs : Nat) (nodesOk : Bool) (ctxs : List Nat) (s : State) : Host.Outcome State Fault Refusal :=
  .next (onMsg s half h [3] (takeAlign half ofs nodesOk ctxs))
def execImage (half : Nat) (h : PairHdr) (ctx addr size : Nat) (s : State) : Host.Outcome State Fault Refusal :=
  .next (onMsg s half h [4] (takeImage half ctx addr size))
def execResume (half : Nat) (h : PairHdr) (ctx status : Nat) (s : State) : Host.Outcome State Fault Refusal :=
  .next (onMsg s half h [4, 5] (takeResume half ctx status))
def execTenure (half : Nat) (h : PairHdr) (type : Nat) (body : List Byte) (s : State) : Host.Outcome State Fault Refusal :=
  .next (let r := takeHdr s half h
    if !r.2 then if h.rsv then r.1 else loseLink r.1 half
    else if (getHalf r.1 half).st = 4 ∨ (getHalf r.1 half).st = 5 then pairTenure half type body r.1 else r.1)
def execMbox (half : Nat) (h : PairHdr) (mb : Nat) (msg : List Byte) (s : State) : Host.Outcome State Fault Refusal :=
  .next (onMsg s half h [4, 5] (takeMbox half h mb msg))
def execCredit (half : Nat) (h : PairHdr) (n drops refused : Nat) (s : State) : Host.Outcome State Fault Refusal :=
  .next (onMsg s half h [4, 5] fun s => takeCredit s half h.ctx h.qp n drops refused)
def execQperr (half : Nat) (h : PairHdr) (err : Nat) (s : State) : Host.Outcome State Fault Refusal :=
  .next (onMsg s half h [4, 5] fun s =>
    if (getQp s h.ctx h.qp).peer = (getHalf s half).agent ∧ (getQp s h.ctx h.qp).st = 1 then errQp s h.ctx h.qp (err % 256) else s)
def execCommit (half ctx n : Nat) (s : State) : Host.Outcome State Fault Refusal := .next (commitLog s half ctx n)
def execUndock (half : Nat) (h : PairHdr) (s : State) : Host.Outcome State Fault Refusal :=
  .next (onMsg s half h [4] fun s => advanceMoves (startUndock half s))
def execUndone (half : Nat) (h : PairHdr) (s : State) : Host.Outcome State Fault Refusal :=
  .next (onMsg s half h [4, 5] fun s => goDown s half)
def execLinkLoss (half : Nat) (s : State) : Host.Outcome State Fault Refusal := .next (loseLink s half)
def execTraceDrain (cluster : Nat) (s : State) : Host.Outcome State Fault Refusal := .next ((drainStep s cluster).getD s)
def execFlit (n : Nat) (s : State) : Host.Outcome State Fault Refusal := .next (takeFlit s n)
def execUnsupportedTlp (half : Nat) (s : State) : Host.Outcome State Fault Refusal := .next (dropTlp s half)
def execQueuePairMemoryRequest (half ctx qp off : Nat) (wr : Bool) (bytes : List Byte) (s : State) :
    Host.Outcome State Fault Refusal := .next (windowRequest s half ctx qp off wr bytes)
def execQueuePairReset (ctx qp : Nat) (s : State) : Host.Outcome State Fault Refusal := .next (resetQp s ctx qp)
def execPowerStateChange (die p : Nat) (s : State) : Host.Outcome State Fault Refusal := .next (setPower s die p)
def execCorrectedErrorWindow (s : State) : Host.Outcome State Fault Refusal := .next (newWindow s)
def execBadreq (fn addr : Nat) (s : State) : Host.Outcome State Fault Refusal :=
  .next (writeHreq s fn addr fun _ => (getFn s fn).busy || addr % 64 != 0 || decide (2 ^ 43 ≤ addr) ||
    requestStatus s fn (blockAt s addr) == 2)

end Sys2Proof.Machine
end

