-- ==== Sys2Proof/Machine/IntOps.lean ====
section
/-! DEFINITION. Integer and bit instructions, majors 0x00 to 0x1E, on the V pipe (R49, R82 to R92). -/
namespace Sys2Proof.Machine

open Sys2Proof

/-! ### Shapes -/

/-- V-pipe words with a 32-bit result from two 32-bit sources (R82). -/
def alu2 (d : Nat) (a b : Src) (f : Nat → Nat → Nat) : Sem :=
  { pipe := 0, reads := srcRegs a ++ srcRegs b, writes := [d],
    eff := fun c => putV c (c.out32 d fun L => f (c.get32 a L) (c.get32 b L)) }

/-- V-pipe words that also read the destination. -/
def alu3 (d : Nat) (a b : Src) (f : Nat → Nat → Nat → Nat) : Sem :=
  { pipe := 0, reads := srcRegs a ++ srcRegs b ++ [d], writes := [d],
    eff := fun c => putV c (c.out32 d fun L => f (c.get32 a L) (c.get32 b L) (c.v d L)) }

/-- V-pipe words with a 32-bit result from one source, 32 or 64 bits wide. -/
def alu1 (d : Nat) (a : Src) (b64 : Bool) (f : Nat → Nat) : Sem :=
  { pipe := 0, reads := if b64 then srcRegs64 a else srcRegs a, writes := [d],
    eff := fun c => putV c (c.out32 d fun L => f (if b64 then c.get64 a L else c.get32 a L)) }

def M32 : Nat := 2 ^ 32
def s32 (x : Nat) : Int := sext x 32

/-! ### Arithmetic and logic (R84) -/

def addSat (m : SatMode) (x y : Nat) : Nat :=
  match m with
  | .wrap => (x + y) % M32
  | .s32 => wrapN (clampI (s32 x + s32 y) (-2147483648) 2147483647) 32
  | .n32 => if x + y < M32 then x + y else M32 - 1

def subSat (m : SatMode) (x y : Nat) : Nat :=
  match m with
  | .wrap => (x + M32 - y) % M32
  | .s32 => wrapN (clampI (s32 x - s32 y) (-2147483648) 2147483647) 32
  | .n32 => x - y

def mulHigh (m : SN) (x y : Nat) : Nat :=
  match m with
  | .s => wrapN (s32 x * s32 y / (M32 : Int)) 32
  | .n => x * y / M32

def minOp (m : SN) (x y : Nat) : Nat :=
  match m with
  | .s => if s32 x ≤ s32 y then x else y
  | .n => if x ≤ y then x else y

def maxOp (m : SN) (x y : Nat) : Nat :=
  match m with
  | .s => if s32 x ≤ s32 y then y else x
  | .n => if x ≤ y then y else x

def absDiff (m : SN) (x y : Nat) : Nat :=
  match m with
  | .s => (s32 x - s32 y).natAbs
  | .n => if x ≤ y then y - x else x - y

/-- The complement of a 32-bit pattern. -/
def not32 (x : Nat) : Nat := M32 - 1 - x % M32

def semNop : Sem := {}

/-- MOV: the whole source, a pair for B64 (R84). -/
def semMov (d : Nat) (a : Src) (b64 : Bool) : Sem :=
  if b64 then { pipe := 0, reads := srcRegs64 a, writes := [d, d + 1], eff := fun c => putV c (c.out64 d (c.get64 a)) }
  else { pipe := 0, reads := srcRegs a, writes := [d], eff := fun c => putV c (c.out32 d (c.get32 a)) }

def semIadd (d : Nat) (a b : Src) (m : SatMode) : Sem := alu2 d a b (addSat m)
def semIsub (d : Nat) (a b : Src) (m : SatMode) : Sem := alu2 d a b (subSat m)
def semImul (d : Nat) (a b : Src) : Sem := alu2 d a b fun x y => x * y % M32
def semImulh (d : Nat) (a b : Src) (m : SN) : Sem := alu2 d a b (mulHigh m)
def semImad (d : Nat) (a b : Src) : Sem := alu3 d a b fun x y z => (x * y + z) % M32
def semImin (d : Nat) (a b : Src) (m : SN) : Sem := alu2 d a b (minOp m)
def semImax (d : Nat) (a b : Src) (m : SN) : Sem := alu2 d a b (maxOp m)
def semIabsd (d : Nat) (a b : Src) (m : SN) : Sem := alu2 d a b (absDiff m)
def semLand (d : Nat) (a b : Src) : Sem := alu2 d a b fun x y => x &&& y
def semLor (d : Nat) (a b : Src) : Sem := alu2 d a b fun x y => x ||| y
def semLxor (d : Nat) (a b : Src) : Sem := alu2 d a b fun x y => x ^^^ y
def semLandn (d : Nat) (a b : Src) : Sem := alu2 d a b fun x y => x &&& not32 y

/-- The second operand of IADD64 (R85). -/
def add64B (c : Ctx) (m : Add64Mode) (b : Src) (L : Nat) : Nat :=
  match m with
  | .b64 => c.get64 b L
  | .s32 => wrapN (s32 (c.get32 b L)) 64
  | .n32 => c.get32 b L

def semIadd64 (d : Nat) (a b : Src) (m : Add64Mode) : Sem :=
  { pipe := 0, reads := srcRegs64 a ++ (if m = .b64 then srcRegs64 b else srcRegs b), writes := [d, d + 1],
    eff := fun c => putV c (c.out64 d fun L => (c.get64 a L + add64B c m b L) % 2 ^ 64) }

/-- The product of IMAD64, signed or unsigned (R85). -/
def mad64 (m : SN) (x y z : Nat) : Nat :=
  match m with
  | .n => (x * y + z) % 2 ^ 64
  | .s => wrapN (s32 x * s32 y + (z : Int)) 64

def semImad64 (d : Nat) (a b : Src) (m : SN) : Sem :=
  { pipe := 0, reads := srcRegs a ++ srcRegs b ++ [d, d + 1], writes := [d, d + 1],
    eff := fun c => putV c (c.out64 d fun L => mad64 m (c.get32 a L) (c.get32 b L) (c.v64 d L)) }

/-! ### Shifts and fields (R86, R87) -/

def shlOp (x n : Nat) : Nat := if 32 ≤ n then 0 else x * 2 ^ n % M32

def shrOp (m : SN) (x n : Nat) : Nat :=
  match m with
  | .n => if 32 ≤ n then 0 else x / 2 ^ n
  | .s => if 32 ≤ n then (if s32 x < 0 then M32 - 1 else 0) else wrapN (s32 x / (2 ^ n : Nat)) 32

def shfOp (m : ShfDir) (p n : Nat) : Nat :=
  match m with
  | .r => p / 2 ^ (n % 64) % M32
  | .l => p * 2 ^ (n % 64) % 2 ^ 64 / M32

def fieldPos (y : Nat) : Nat := bits y 4 0
def fieldWidth (y : Nat) : Nat := if bits y 13 8 < 32 then bits y 13 8 else 32

def bfxOp (m : SN) (x y : Nat) : Nat :=
  let pos := fieldPos y
  let w := fieldWidth y
  match m with
  | .n => x / 2 ^ pos % 2 ^ w
  | .s => if w = 0 then 0 else wrapN (sext (wrapN (s32 x / (2 ^ pos : Nat)) w) w) 32

def bfiOp (x y z : Nat) : Nat :=
  let pos := fieldPos y
  let mk := (2 ^ fieldWidth y - 1) * 2 ^ pos % M32
  (z &&& not32 mk) ||| (x * 2 ^ pos % M32 &&& mk)

def semShl (d : Nat) (a b : Src) : Sem := alu2 d a b shlOp
def semShr (d : Nat) (a b : Src) (m : SN) : Sem := alu2 d a b (shrOp m)
def semShf (d : Nat) (a b : Src) (m : ShfDir) : Sem :=
  { pipe := 0, reads := srcRegs64 a ++ srcRegs b, writes := [d],
    eff := fun c => putV c (c.out32 d fun L => shfOp m (c.get64 a L) (c.get32 b L)) }
def semBfx (d : Nat) (a b : Src) (m : SN) : Sem := alu2 d a b (bfxOp m)
def semBfi (d : Nat) (a b : Src) : Sem := alu3 d a b bfiOp

/-! ### Counts and interleaving (R88, R89) -/

def semClz (d : Nat) (a : Src) (b64 : Bool) : Sem := alu1 d a b64 fun x => (if b64 then 64 else 32) - bitLen x
def semPopc (d : Nat) (a : Src) (b64 : Bool) : Sem := alu1 d a b64 (popN (if b64 then 64 else 32))
def semBrev (d : Nat) (a : Src) : Sem := alu1 d a false (revBits 32)

def bitilOp (m : IlMode) (x y z : Nat) : Nat :=
  match m with
  | .x2 => spread 2 16 x ||| spread 2 16 y * 2
  | .x3 => spread 3 10 x ||| spread 3 10 y * 2 ||| spread 3 10 z * 4

def bitdlOp (m : IlMode) (x : Nat) : Nat :=
  match m with
  | .x2 => gather 2 16 x + gather 2 16 (x / 2) * 2 ^ 16
  | .x3 => gather 3 10 x + gather 3 10 (x / 2) * 2 ^ 10 + gather 3 10 (x / 4) * 2 ^ 20

/-- BITIL reads the destination in its three-way form only (R83). -/
def semBitil (d : Nat) (a b : Src) (m : IlMode) : Sem :=
  match m with
  | .x2 => alu2 d a b fun x y => bitilOp .x2 x y 0
  | .x3 => alu3 d a b (bitilOp .x3)
def semBitdl (d : Nat) (a : Src) (m : IlMode) : Sem := alu1 d a false (bitdlOp m)

/-! ### Compare, select, permute (R90 to R92) -/

def icond (m : ICond) (x y : Nat) : Bool :=
  match m with
  | .eq => decide (x = y)
  | .ne => decide (x ≠ y)
  | .ltS => decide (s32 x < s32 y)
  | .leS => decide (s32 x ≤ s32 y)
  | .ltN => decide (x < y)
  | .leN => decide (x ≤ y)

def semIcmps (d : Nat) (a b : Src) (m : ICond) : Sem := alu2 d a b fun x y => if icond m x y then M32 - 1 else 0
def semIcmpn (d : Nat) (a b : Src) (m : ICond) : Sem := alu2 d a b fun x y => b2n (icond m x y)

def semSel (d : Nat) (a b : Src) (bitwise : Bool) : Sem :=
  alu3 d a b fun x y z => if bitwise then (x &&& z) ||| (y &&& not32 z) else if z ≠ 0 then x else y

/-- One result byte of BYTSEL from the 64-bit source and its selector byte (R92). -/
def bytselByte (B c : Nat) : Nat :=
  let s := B / 2 ^ (8 * (c % 8)) % 256
  match bits c 4 3 with
  | 0 => s
  | 1 => 0
  | 2 => 0xFF
  | _ => if 128 ≤ s then 0xFF else 0

def bytselOp (sw : Bool) (x y z : Nat) : Nat :=
  let B := if sw then x * M32 + y else y * M32 + x
  bytselByte B (bits z 7 0) + bytselByte B (bits z 15 8) * 2 ^ 8 + bytselByte B (bits z 23 16) * 2 ^ 16 +
    bytselByte B (bits z 31 24) * 2 ^ 24

def semBytsel (d : Nat) (a b : Src) (sw : Bool) : Sem := alu3 d a b (bytselOp sw)

/-! ### Meanings -/

def execNop (s : State) : Host.Outcome State Fault Refusal := .next (issueOne semNop s)
def execMov (d : Nat) (a : Src) (b64 : Bool) (s : State) : Host.Outcome State Fault Refusal := .next (issueOne (semMov d a b64) s)
def execIadd (d : Nat) (a b : Src) (m : SatMode) (s : State) : Host.Outcome State Fault Refusal := .next (issueOne (semIadd d a b m) s)
def execIsub (d : Nat) (a b : Src) (m : SatMode) (s : State) : Host.Outcome State Fault Refusal := .next (issueOne (semIsub d a b m) s)
def execImul (d : Nat) (a b : Src) (s : State) : Host.Outcome State Fault Refusal := .next (issueOne (semImul d a b) s)
def execImulh (d : Nat) (a b : Src) (m : SN) (s : State) : Host.Outcome State Fault Refusal := .next (issueOne (semImulh d a b m) s)
def execImad (d : Nat) (a b : Src) (s : State) : Host.Outcome State Fault Refusal := .next (issueOne (semImad d a b) s)
def execIadd64 (d : Nat) (a b : Src) (m : Add64Mode) (s : State) : Host.Outcome State Fault Refusal :=
  .next (issueOne (semIadd64 d a b m) s)
def execImad64 (d : Nat) (a b : Src) (m : SN) (s : State) : Host.Outcome State Fault Refusal := .next (issueOne (semImad64 d a b m) s)
def execImin (d : Nat) (a b : Src) (m : SN) (s : State) : Host.Outcome State Fault Refusal := .next (issueOne (semImin d a b m) s)
def execImax (d : Nat) (a b : Src) (m : SN) (s : State) : Host.Outcome State Fault Refusal := .next (issueOne (semImax d a b m) s)
def execIabsd (d : Nat) (a b : Src) (m : SN) (s : State) : Host.Outcome State Fault Refusal := .next (issueOne (semIabsd d a b m) s)
def execLand (d : Nat) (a b : Src) (s : State) : Host.Outcome State Fault Refusal := .next (issueOne (semLand d a b) s)
def execLor (d : Nat) (a b : Src) (s : State) : Host.Outcome State Fault Refusal := .next (issueOne (semLor d a b) s)
def execLxor (d : Nat) (a b : Src) (s : State) : Host.Outcome State Fault Refusal := .next (issueOne (semLxor d a b) s)
def execLandn (d : Nat) (a b : Src) (s : State) : Host.Outcome State Fault Refusal := .next (issueOne (semLandn d a b) s)
def execShl (d : Nat) (a b : Src) (s : State) : Host.Outcome State Fault Refusal := .next (issueOne (semShl d a b) s)
def execShr (d : Nat) (a b : Src) (m : SN) (s : State) : Host.Outcome State Fault Refusal := .next (issueOne (semShr d a b m) s)
def execShf (d : Nat) (a b : Src) (m : ShfDir) (s : State) : Host.Outcome State Fault Refusal := .next (issueOne (semShf d a b m) s)
def execBfx (d : Nat) (a b : Src) (m : SN) (s : State) : Host.Outcome State Fault Refusal := .next (issueOne (semBfx d a b m) s)
def execBfi (d : Nat) (a b : Src) (s : State) : Host.Outcome State Fault Refusal := .next (issueOne (semBfi d a b) s)
def execClz (d : Nat) (a : Src) (b64 : Bool) (s : State) : Host.Outcome State Fault Refusal := .next (issueOne (semClz d a b64) s)
def execPopc (d : Nat) (a : Src) (b64 : Bool) (s : State) : Host.Outcome State Fault Refusal := .next (issueOne (semPopc d a b64) s)
def execBrev (d : Nat) (a : Src) (s : State) : Host.Outcome State Fault Refusal := .next (issueOne (semBrev d a) s)
def execBitil (d : Nat) (a b : Src) (m : IlMode) (s : State) : Host.Outcome State Fault Refusal := .next (issueOne (semBitil d a b m) s)
def execBitdl (d : Nat) (a : Src) (m : IlMode) (s : State) : Host.Outcome State Fault Refusal := .next (issueOne (semBitdl d a m) s)
def execIcmps (d : Nat) (a b : Src) (m : ICond) (s : State) : Host.Outcome State Fault Refusal := .next (issueOne (semIcmps d a b m) s)
def execIcmpn (d : Nat) (a b : Src) (m : ICond) (s : State) : Host.Outcome State Fault Refusal := .next (issueOne (semIcmpn d a b m) s)
def execSel (d : Nat) (a b : Src) (bitwise : Bool) (s : State) : Host.Outcome State Fault Refusal := .next (issueOne (semSel d a b bitwise) s)
def execBytsel (d : Nat) (a b : Src) (sw : Bool) (s : State) : Host.Outcome State Fault Refusal := .next (issueOne (semBytsel d a b sw) s)

end Sys2Proof.Machine
end

