-- ==== Sys2Proof/Machine/FloatOps.lean ====
section
/-! DEFINITION. Floating-point and conversion instructions, majors 0x38 to 0x4F (R125 to R139). -/
namespace Sys2Proof.Machine

open Sys2Proof

/-- S-pipe words with a 32-bit result from one source (R126). -/
def sfu1 (d : Nat) (a : Src) (f : Nat → Nat) : Sem :=
  { pipe := 1, reads := srcRegs a, writes := [d], flags := [11], eff := fun c => putS c (c.out32 d fun L => f (c.get32 a L)) }

def semFadd (d : Nat) (a b : Src) (r : Rnd) : Sem := alu2 d a b (fadd .f32 r)
def semFmul (d : Nat) (a b : Src) (r : Rnd) : Sem := alu2 d a b (fmul .f32 r)
def semFfma (d : Nat) (a b : Src) (r : Rnd) : Sem := alu3 d a b (ffma .f32 r)
def semFmin (d : Nat) (a b : Src) : Sem := alu2 d a b fminOp
def semFmax (d : Nat) (a b : Src) : Sem := alu2 d a b fmaxOp
def semFcmp (d : Nat) (a b : Src) (m : FCond) : Sem := alu2 d a b fun x y => if fcond m x y then M32 - 1 else 0
def semFrnd (d : Nat) (a : Src) (r : Rnd) : Sem := alu1 d a false (frndOp r)
def semFclass (d : Nat) (a : Src) (m : ClsFmt) : Sem := alu1 d a false (fclassOp m)
def semPadd2 (d : Nat) (a b : Src) (bf : Bool) (r : Rnd) : Sem :=
  alu2 d a b fun x y => pack2 (fun x y _ => fadd (pkFmt bf) r x y) x y 0
def semPmul2 (d : Nat) (a b : Src) (bf : Bool) (r : Rnd) : Sem :=
  alu2 d a b fun x y => pack2 (fun x y _ => fmul (pkFmt bf) r x y) x y 0
def semPfma2 (d : Nat) (a b : Src) (bf : Bool) (r : Rnd) : Sem := alu3 d a b (pack2 (ffma (pkFmt bf) r))
def semPdot2 (d : Nat) (a b : Src) (bf : Bool) (r : Rnd) : Sem := alu3 d a b (pdot2 bf r)
def semFdiv (d : Nat) (a b : Src) (r : Rnd) : Sem :=
  { pipe := 1, reads := srcRegs a ++ srcRegs b, writes := [d], flags := [11],
    eff := fun c => putS c (c.out32 d fun L => fdiv r (c.get32 a L) (c.get32 b L)) }
def semFrcp (d : Nat) (a : Src) (r : Rnd) : Sem := sfu1 d a (fdiv r one32)
def semFrsq (d : Nat) (a : Src) (r : Rnd) : Sem := sfu1 d a (frsq r)
def semFsqrt (d : Nat) (a : Src) (r : Rnd) : Sem := sfu1 d a (fsqrt r)
def semFexp2 (d : Nat) (a : Src) (r : Rnd) : Sem := sfu1 d a (fexp2 r)
def semFlog2 (d : Nat) (a : Src) (r : Rnd) : Sem := sfu1 d a (flog2 r)
def semFsinpi (d : Nat) (a : Src) (r : Rnd) : Sem := sfu1 d a (fsinpi r)
def semFcospi (d : Nat) (a : Src) (r : Rnd) : Sem := sfu1 d a (fcospi r)

/-- CVTF (R136): a source narrower than 32 bits stands in the low bits. -/
def semCvtf (d : Nat) (a : Src) (df sf : FFmt) (sat : Bool) (r : Rnd) : Sem :=
  sfu1 d a fun x => convertF df r sat (decodeF sf (x % 2 ^ (fmtOf sf).w))

/-- The 32-bit register value of an integer result: sign-extended for S types, zero-extended for N types (R115). -/
def intReg (n : Int) : Nat := wrapN n 32

def semCvti (d : Nat) (a : Src) (df : FFmt) (sf : IFmt) (r : Rnd) : Sem :=
  let val (c : Ctx) (L : Nat) : Int := cvtiInt sf r (decodeF df (c.get32 a L % 2 ^ (fmtOf df).w))
  if ifmtBits sf = 64 then
    { pipe := 1, reads := srcRegs a, writes := [d, d + 1], flags := [11],
      eff := fun c => putS c (c.out64 d fun L => wrapN (val c L) 64) }
  else
    { pipe := 1, reads := srcRegs a, writes := [d], flags := [11], eff := fun c => putS c (c.out32 d fun L => intReg (val c L)) }

def semCvtif (d : Nat) (a : Src) (df : FFmt) (sf : IFmt) (sat : Bool) (r : Rnd) : Sem :=
  let w := ifmtBits sf = 64
  { pipe := 1, reads := if w then srcRegs64 a else srcRegs a, writes := [d], flags := [11],
    eff := fun c => putS c (c.out32 d fun L => cvtifInt df r sat (cvtifSrc sf (if w then c.get64 a L else c.get32 a L))) }

/-- CVTPK reads the destination in its 8-bit and 4-bit forms (R125). -/
def semCvtpk (d : Nat) (a b : Src) (m : PkForm) : Sem :=
  let rd := if m = .f16 ∨ m = .bf16 then [] else [d]
  { pipe := 1, reads := srcRegs a ++ srcRegs b ++ rd, writes := [d], flags := [11],
    eff := fun c => putS c (c.out32 d fun L => cvtpkOp m (c.get32 a L) (c.get32 b L) (if rd.isEmpty then 0 else c.v d L)) }

/-! ### Meanings -/

def execFadd (d : Nat) (a b : Src) (r : Rnd) (s : State) : Host.Outcome State Fault Refusal := .next (issueOne (semFadd d a b r) s)
def execFmul (d : Nat) (a b : Src) (r : Rnd) (s : State) : Host.Outcome State Fault Refusal := .next (issueOne (semFmul d a b r) s)
def execFfma (d : Nat) (a b : Src) (r : Rnd) (s : State) : Host.Outcome State Fault Refusal := .next (issueOne (semFfma d a b r) s)
def execFmin (d : Nat) (a b : Src) (s : State) : Host.Outcome State Fault Refusal := .next (issueOne (semFmin d a b) s)
def execFmax (d : Nat) (a b : Src) (s : State) : Host.Outcome State Fault Refusal := .next (issueOne (semFmax d a b) s)
def execFcmp (d : Nat) (a b : Src) (m : FCond) (s : State) : Host.Outcome State Fault Refusal := .next (issueOne (semFcmp d a b m) s)
def execFrnd (d : Nat) (a : Src) (r : Rnd) (s : State) : Host.Outcome State Fault Refusal := .next (issueOne (semFrnd d a r) s)
def execFclass (d : Nat) (a : Src) (m : ClsFmt) (s : State) : Host.Outcome State Fault Refusal := .next (issueOne (semFclass d a m) s)
def execPadd2 (d : Nat) (a b : Src) (bf : Bool) (r : Rnd) (s : State) : Host.Outcome State Fault Refusal :=
  .next (issueOne (semPadd2 d a b bf r) s)
def execPmul2 (d : Nat) (a b : Src) (bf : Bool) (r : Rnd) (s : State) : Host.Outcome State Fault Refusal :=
  .next (issueOne (semPmul2 d a b bf r) s)
def execPfma2 (d : Nat) (a b : Src) (bf : Bool) (r : Rnd) (s : State) : Host.Outcome State Fault Refusal :=
  .next (issueOne (semPfma2 d a b bf r) s)
def execPdot2 (d : Nat) (a b : Src) (bf : Bool) (r : Rnd) (s : State) : Host.Outcome State Fault Refusal :=
  .next (issueOne (semPdot2 d a b bf r) s)
def execFdiv (d : Nat) (a b : Src) (r : Rnd) (s : State) : Host.Outcome State Fault Refusal := .next (issueOne (semFdiv d a b r) s)
def execFrcp (d : Nat) (a : Src) (r : Rnd) (s : State) : Host.Outcome State Fault Refusal := .next (issueOne (semFrcp d a r) s)
def execFrsq (d : Nat) (a : Src) (r : Rnd) (s : State) : Host.Outcome State Fault Refusal := .next (issueOne (semFrsq d a r) s)
def execFsqrt (d : Nat) (a : Src) (r : Rnd) (s : State) : Host.Outcome State Fault Refusal := .next (issueOne (semFsqrt d a r) s)
def execFexp2 (d : Nat) (a : Src) (r : Rnd) (s : State) : Host.Outcome State Fault Refusal := .next (issueOne (semFexp2 d a r) s)
def execFlog2 (d : Nat) (a : Src) (r : Rnd) (s : State) : Host.Outcome State Fault Refusal := .next (issueOne (semFlog2 d a r) s)
def execFsinpi (d : Nat) (a : Src) (r : Rnd) (s : State) : Host.Outcome State Fault Refusal := .next (issueOne (semFsinpi d a r) s)
def execFcospi (d : Nat) (a : Src) (r : Rnd) (s : State) : Host.Outcome State Fault Refusal := .next (issueOne (semFcospi d a r) s)
def execCvtf (d : Nat) (a : Src) (df sf : FFmt) (sat : Bool) (r : Rnd) (s : State) : Host.Outcome State Fault Refusal :=
  .next (issueOne (semCvtf d a df sf sat r) s)
def execCvti (d : Nat) (a : Src) (df : FFmt) (sf : IFmt) (r : Rnd) (s : State) : Host.Outcome State Fault Refusal :=
  .next (issueOne (semCvti d a df sf r) s)
def execCvtif (d : Nat) (a : Src) (df : FFmt) (sf : IFmt) (sat : Bool) (r : Rnd) (s : State) : Host.Outcome State Fault Refusal :=
  .next (issueOne (semCvtif d a df sf sat r) s)
def execCvtpk (d : Nat) (a b : Src) (m : PkForm) (s : State) : Host.Outcome State Fault Refusal := .next (issueOne (semCvtpk d a b m) s)

end Sys2Proof.Machine
end

