-- ==== Sys2Proof/Machine/LaneOps.lean ====
section
/-! DEFINITION. Special registers and lane operations, on the S pipe (R36 to R38, R93 to R99). -/
namespace Sys2Proof.Machine

open Sys2Proof

/-! ### Special registers -/

/-- PLACE (R38). -/
def placeWord (core quad : Nat) : Nat := quad % 4 + core % 4 * 4 + core / 4 % 8 * 16 + dieOfCore core % 16 * 256

/-- LVLk: the index of the enclosing level-k unit within its level-(k+1) unit; 0 at the top level (R310), and 0 too at a level that
is not declared, of which R37 speaks for EXTk alone (DESIGN CHOICE, log 98). -/
def lvlReg (r : LRec) (k idx : Nat) : Nat := if k < r.levels.length then r.coord (k + 1) idx else 0

/-- EXTk: the declared extent, 0 for an undeclared level (R37). -/
def extReg (r : LRec) (k : Nat) : Nat := ((r.levels[k - 1]?).map (·.ext)).getD 0

/-- The value of a special register in a lane, as a chain reads it (R37). -/
def sregVal (s : State) (c : Ctx) (code L : Nat) : Nat :=
  let t := teamOf s c.gid
  let x := ctxOf s c.gid
  let o := c.g.slot (otherSlot c.sl)
  match code with
  | 0x00 => L
  | 0x01 => c.g.idx
  | 0x02 => t.index
  | 0x03 => slotBit c.sl
  | 0x04 => c.mask.toNat
  | 0x05 => if o.st = .free then 0 else o.mask.toNat
  | 0x06 => bits (ctxTime s x) 31 0
  | 0x07 => (c.g.slot c.sl).tbh
  | 0x08 => placeWord t.core c.g.quad
  | 0x09 => c.g.stack.length
  | 0x0A => flgLo c.g
  | 0x0B => flgHi c.g
  | 0x0C => engCounters c.g
  | 0x0D => ctxWord x
  | 0x0E => c.g.sticky.toNat
  | code => if code < 0x20 then lvlReg (lrecOf s c.gid) (code - 0x10) t.index else extReg (lrecOf s c.gid) (code - 0x20)

/-- The side effect of a read: the latch of TBH, the clearing of STICKY (R93). -/
def sregSide (c : Ctx) (code : Nat) (s : State) : State :=
  if c.act = 0 then s
  else if code = 0x06 then
    let t := bits (ctxTime s (ctxOf s c.gid)) 63 32
    modSlot s c.gid c.sl fun v => { v with tbh := t }
  else if code = 0x0E then modGroup s c.gid fun g => { g with sticky := 0 }
  else s

def semSreg (d code : Nat) : Sem :=
  { pipe := 1, writes := [d], flags := [11], eff := fun c s => putS c (c.out32 d (sregVal s c code)) (sregSide c code s) }

/-! ### Lane operations -/

/-- The source lane of SHFL, if it lies in range (R95). -/
def shflLane (m : ShflMode) (L k : Nat) : Option Nat :=
  match m with
  | .idx => some (k % 32)
  | .up => if k ≤ L then some (L - k) else none
  | .down => if L + k ≤ 31 then some (L + k) else none
  | .xor => some (L ^^^ (k % 32))

def shflVal (c : Ctx) (a b : Src) (m : ShflMode) (L : Nat) : Nat :=
  match shflLane m L (c.get32 b L) with
  | some t => if c.act.getLsbD t then c.get32 a t else c.get32 a L
  | none => c.get32 a L

def semShfl (d : Nat) (a b : Src) (m : ShflMode) : Sem :=
  { pipe := 1, reads := srcRegs a ++ srcRegs b, writes := [d], flags := [11],
    eff := fun c => putS c (c.out32 d (shflVal c a b m)) }

/-- S-pipe words whose result in a lane depends on the sources of all active lanes (R94). -/
def laneWord (d : Nat) (reads : List Nat) (f : Ctx → Nat → Nat) : Sem :=
  { pipe := 1, reads := reads, writes := [d], flags := [11], eff := fun c => putS c (c.out32 d (f c)) }

/-- The active lanes whose source is not zero (R96). -/
def ballotMask (c : Ctx) (a : Src) : Mask := maskOf fun L => c.act.getLsbD L && c.get32 a L != 0

def semBallot (d : Nat) (a : Src) (cnt : Bool) : Sem :=
  laneWord d (srcRegs a) fun c _ => if cnt then (lanesOf (ballotMask c a)).length else (ballotMask c a).toNat

/-- The operators of LRED and LSCAN (R97). -/
def redOp (m : RedOp) (p q : Nat) : Nat :=
  match m with
  | .add => (p + q) % M32
  | .minS => minOp .s p q
  | .maxS => maxOp .s p q
  | .minN => minOp .n p q
  | .maxN => maxOp .n p q
  | .and => p &&& q
  | .or => p ||| q
  | .xor => p ^^^ q

/-- The reduction of a non-empty list. -/
def reduce (f : Nat → Nat → Nat) : List Nat → Nat
  | [] => 0
  | x :: r => r.foldl f x

def semLred (d : Nat) (a : Src) (m : RedOp) : Sem :=
  laneWord d (srcRegs a) fun c _ => reduce (redOp m) (c.lanes.map (c.get32 a))

def semLscan (d : Nat) (a : Src) (m : RedOp) : Sem :=
  laneWord d (srcRegs a) fun c L => reduce (redOp m) ((c.lanes.filter (· ≤ L)).map (c.get32 a))

def semLfirst (d : Nat) (a : Src) (idx : Bool) : Sem :=
  laneWord d (srcRegs a) fun c _ =>
    if idx then (c.lanes.find? fun L => c.get32 a L != 0).getD 32 else c.get32 a c.lead

def semLmatch (d : Nat) (a : Src) (b64 : Bool) : Sem :=
  laneWord d (if b64 then srcRegs64 a else srcRegs a) fun c L =>
    let v (i : Nat) : Nat := if b64 then c.get64 a i else c.get32 a i
    (maskOf fun i => c.act.getLsbD i && v i == v L).toNat

/-- The operator of FLRED on present values (R99). -/
def fredOp (m : FredOp) (p q : Nat) : Nat :=
  match m with
  | .add => fadd .f32 .rne p q
  | .min => fminOp p q
  | .max => fmaxOp p q

def fredComb (m : FredOp) : Option Nat → Option Nat → Option Nat
  | none, q => q
  | p, none => p
  | some p, some q => some (fredOp m p q)

/-- One level of the pairwise tree (R99). -/
def fredLevel (m : FredOp) : List (Option Nat) → List (Option Nat)
  | p :: q :: r => fredComb m p q :: fredLevel m r
  | r => r

/-- The tree over 32 lane positions (R99). -/
def fredTree (m : FredOp) (xs : List (Option Nat)) : Option Nat :=
  ((fredLevel m (fredLevel m (fredLevel m (fredLevel m (fredLevel m xs))))).head?).getD none

def semFlred (d : Nat) (a : Src) (m : FredOp) : Sem :=
  laneWord d (srcRegs a) fun c _ =>
    (fredTree m ((List.range 32).map fun i => if c.act.getLsbD i then some (c.get32 a i) else none)).getD 0

/-! ### Meanings -/

def execSreg (d code : Nat) (s : State) : Host.Outcome State Fault Refusal := .next (issueOne (semSreg d code) s)
def execShfl (d : Nat) (a b : Src) (m : ShflMode) (s : State) : Host.Outcome State Fault Refusal := .next (issueOne (semShfl d a b m) s)
def execBallot (d : Nat) (a : Src) (cnt : Bool) (s : State) : Host.Outcome State Fault Refusal := .next (issueOne (semBallot d a cnt) s)
def execLred (d : Nat) (a : Src) (m : RedOp) (s : State) : Host.Outcome State Fault Refusal := .next (issueOne (semLred d a m) s)
def execLscan (d : Nat) (a : Src) (m : RedOp) (s : State) : Host.Outcome State Fault Refusal := .next (issueOne (semLscan d a m) s)
def execLfirst (d : Nat) (a : Src) (idx : Bool) (s : State) : Host.Outcome State Fault Refusal := .next (issueOne (semLfirst d a idx) s)
def execLmatch (d : Nat) (a : Src) (b64 : Bool) (s : State) : Host.Outcome State Fault Refusal := .next (issueOne (semLmatch d a b64) s)
def execFlred (d : Nat) (a : Src) (m : FredOp) (s : State) : Host.Outcome State Fault Refusal := .next (issueOne (semFlred d a m) s)

end Sys2Proof.Machine
end

