-- ==== Sys2Proof/Machine/Sems.lean ====
section
/-! DEFINITION. What each instruction word is to the issue of a chain; a whole-device step is no word. -/
namespace Sys2Proof.Machine

open Sys2Proof

/-- The semantics of an instruction word within its chain (R55, R56). -/
def semOf : Instr → Option Sem
  | .nop => some semNop
  | .mov d a b64 => some (semMov d a b64)
  | .sreg d code => some (semSreg d code)
  | .iadd d a b m => some (semIadd d a b m)
  | .isub d a b m => some (semIsub d a b m)
  | .imul d a b => some (semImul d a b)
  | .imulh d a b m => some (semImulh d a b m)
  | .imad d a b => some (semImad d a b)
  | .iadd64 d a b m => some (semIadd64 d a b m)
  | .imad64 d a b m => some (semImad64 d a b m)
  | .imin d a b m => some (semImin d a b m)
  | .imax d a b m => some (semImax d a b m)
  | .iabsd d a b m => some (semIabsd d a b m)
  | .land d a b => some (semLand d a b)
  | .lor d a b => some (semLor d a b)
  | .lxor d a b => some (semLxor d a b)
  | .landn d a b => some (semLandn d a b)
  | .shl d a b => some (semShl d a b)
  | .shr d a b m => some (semShr d a b m)
  | .shf d a b m => some (semShf d a b m)
  | .bfx d a b m => some (semBfx d a b m)
  | .bfi d a b => some (semBfi d a b)
  | .clz d a b64 => some (semClz d a b64)
  | .popc d a b64 => some (semPopc d a b64)
  | .brev d a => some (semBrev d a)
  | .bitil d a b m => some (semBitil d a b m)
  | .bitdl d a m => some (semBitdl d a m)
  | .icmps d a b m => some (semIcmps d a b m)
  | .icmpn d a b m => some (semIcmpn d a b m)
  | .sel d a b bitwise => some (semSel d a b bitwise)
  | .bytsel d a b sw => some (semBytsel d a b sw)
  | .shfl d a b m => some (semShfl d a b m)
  | .ballot d a cnt => some (semBallot d a cnt)
  | .lred d a m => some (semLred d a m)
  | .lscan d a m => some (semLscan d a m)
  | .lfirst d a idx => some (semLfirst d a idx)
  | .lmatch d a b64 => some (semLmatch d a b64)
  | .flred d a m => some (semFlred d a m)
  | .br v o => some (semBr v o)
  | .brv v => some (semBrv v)
  | .split o => some (semSplit o)
  | .join => some semJoin
  | .call o => some (semCall o)
  | .callv a => some (semCallv a)
  | .ret a => some (semRet a)
  | .exit => some semExit
  | .pset a n => some (semPset a n)
  | .sleep a => some (semSleep a)
  | .sleepT a => some (semSleepT a)
  | .sleepB a => some (semSleepB a)
  | .yield => some semYield
  | .trap code => some (semTrap code)
  | .bkpt => some semBkpt
  | .rett => some semRett
  | .waitc c n => some (semWaitc c n)
  | .fadd d a b r => some (semFadd d a b r)
  | .fmul d a b r => some (semFmul d a b r)
  | .ffma d a b r => some (semFfma d a b r)
  | .fmin d a b => some (semFmin d a b)
  | .fmax d a b => some (semFmax d a b)
  | .fcmp d a b m => some (semFcmp d a b m)
  | .frnd d a r => some (semFrnd d a r)
  | .fclass d a m => some (semFclass d a m)
  | .padd2 d a b bf r => some (semPadd2 d a b bf r)
  | .pmul2 d a b bf r => some (semPmul2 d a b bf r)
  | .pfma2 d a b bf r => some (semPfma2 d a b bf r)
  | .pdot2 d a b bf r => some (semPdot2 d a b bf r)
  | .fdiv d a b r => some (semFdiv d a b r)
  | .frcp d a r => some (semFrcp d a r)
  | .frsq d a r => some (semFrsq d a r)
  | .fsqrt d a r => some (semFsqrt d a r)
  | .fexp2 d a r => some (semFexp2 d a r)
  | .flog2 d a r => some (semFlog2 d a r)
  | .fsinpi d a r => some (semFsinpi d a r)
  | .fcospi d a r => some (semFcospi d a r)
  | .cvtf d a df sf sat r => some (semCvtf d a df sf sat r)
  | .cvti d a df sf r => some (semCvti d a df sf r)
  | .cvtif d a df sf sat r => some (semCvtif d a df sf sat r)
  | .cvtpk d a b m => some (semCvtpk d a b m)
  | .ld d a f z off sx nc => some (semLd d a f z off sx nc)
  | .st d a f z off nc => some (semSt d a f z off nc)
  | .lds d a f z off sx => some (semLds d a f z off sx)
  | .sts d a f z off => some (semSts d a f z off)
  | .ldb d a f z off sx => some (semLdb d a f z off sx)
  | .stb d a f z off => some (semStb d a f z off)
  | .atom d a f z off nr => some (semAtom d a f z off nr)
  | .atoms d a f z off nr => some (semAtoms d a f z off nr)
  | .cas d a f z off => some (semCas d a f z off)
  | .cas128 d a f off => some (semCas128 d a f off)
  | .aminv d a f off nr => some (semAminv d a f off nr)
  | .fence sc k => some (semFence sc k)
  | .cachePref a f lv => some (semCachePref a f lv)
  | .cacheFlush a f lv => some (semCacheFlush a f lv)
  | .cacheInv a f lv => some (semCacheInv a f lv)
  | .barInit b rlx target => some (semBarInit b rlx target)
  | .barArrive d b rlx => some (semBarArrive d b rlx)
  | .barWait d b rlx => some (semBarWait d b rlx)
  | .barArrivewait d b rlx => some (semBarArrivewait d b rlx)
  | .barInv b rlx => some (semBarInv b rlx)
  | .barQuery d b rlx => some (semBarQuery d b rlx)
  | .qpush a f cl bank => some (semQpush a f cl bank)
  | .qpop d f cl bank => some (semQpop d f cl bank)
  | .bkcfg d a f m => some (semBkcfg d a f m)
  | .tcfg p cfg => some (semTcfg p cfg)
  | .tld p v sp pitch => some (semTld p v sp pitch)
  | .tst p v sp sc pitch => some (semTst p v sp sc pitch)
  | .tmovv p v j toTile => some (semTmovv p v j toTile)
  | .mma a p q => some (semMma a p q)
  | .mzero a e => some (semMzero a e)
  | .mdrain a t v c0 clr => some (semMdrain a t v c0 clr)
  | .mhad p q v n sgn => some (semMhad p q v n sgn)
  | .msign p q v n => some (semMsign p q v n)
  | .mquant p q => some (semMquant p q)
  | .mbatch => some semMbatch
  | .ttrans p q => some (semTtrans p q)
  | .bnew d a f full => some (semBnew d a f full)
  | .bfree a => some (semBfree a)
  | .bstat d a f => some (semBstat d a f)
  | .cpy d a f w => some (semCpy d a f w)
  | .cpyo d a f w => some (semCpyo d a f w)
  | .cpylRead d a f qp len => some (semCpylRead d a f qp len)
  | .cpylWrite d a f qp len => some (semCpylWrite d a f qp len)
  | .lrecBase d a f => some (semLrecBase d a f)
  | .lrecScale d a f => some (semLrecScale d a f)
  | .lrecSeed d a f => some (semLrecSeed d a f)
  | .lrecChk d a f => some (semLrecChk d a f)
  | .thnew d a f => some (semThnew d a f)
  | .thfree a f => some (semThfree a f)
  | .thqry d a f => some (semThqry d a f)
  | .tacq d a f m => some (semTacq d a f m)
  | .trel a f => some (semTrel a f)
  | .tflush a f => some (semTflush a f)
  | .tsplit d a f dim p => some (semTsplit d a f dim p)
  | .rtrace d a f => some (semRtrace d a f)
  | .rany d a f => some (semRany d a f)
  | .rpin d a f => some (semRpin d a f)
  | .runpin a f => some (semRunpin a f)
  | .rhit d a f => some (semRhit d a f)
  | .rgenq d a f => some (semRgenq d a f)
  | .asbuild a f => some (semAsbuild a f)
  | .asrefit a f => some (semAsrefit a f)
  | .asrebal a f => some (semAsrebal a f)
  | .asimport a f => some (semAsimport a f)
  | .aspubl a f => some (semAspubl a f)
  | .asstat a f => some (semAsstat a f)
  | .asqual a f => some (semAsqual a f)
  | .asrecl a f => some (semAsrecl a f)
  | .feat d => some (semFeat d)
  | .dfeat d => some (semDfeat d)
  | .ckpt d => some (semCkpt d)
  | .mbpost d a => some (semMbpost d a)
  | .trapinfo d k => some (semTrapinfo d k)
  | .trcon => some semTrcon
  | .trcoff => some semTrcoff
  | .trcmark mark => some (semTrcmark mark)
  | .vPipeResultWrite _ => none
  | .sPipeResultWrite _ _ => none
  | .lPipeResultWrite _ _ => none
  | .storePerformed _ _ => none
  | .fenceComplete _ _ => none
  | .matrixExecute _ => none
  | .copyComplete _ _ => none
  | .rayRecordWrite _ _ => none
  | .builderDispatch _ => none
  | .buildRequestComplete _ _ => none
  | .sleepWake _ _ => none
  | .promiseMiss _ _ => none
  | .checkpointCommit _ => none
  | .checkpointTimer _ => none
  | .emulateComplete _ _ => none
  | .translationWalk _ _ _ _ => none
  | .reqrd _ _ => none
  | .reqwr _ _ => none
  | .requestStart _ _ => none
  | .grant _ _ => none
  | .fwd _ _ => none
  | .data _ _ => none
  | .inv _ _ => none
  | .invack _ _ => none
  | .recallMsg _ _ => none
  | .wbdata _ _ => none
  | .backinv _ _ => none
  | .nack _ _ => none
  | .busyResend _ _ => none
  | .pageHomeMove _ _ => none
  | .mailboxArrival _ => none
  | .launchStart _ => none
  | .preemptRequest _ => none
  | .safePoint _ => none
  | .teamRestore _ => none
  | .sliceExpiry _ => none
  | .coreRetirement _ => none
  | .sliceRetirement _ _ => none
  | .pageRetirement _ => none
  | .memoryError _ => none
  | .tlbinvPageRange _ _ => none
  | .tlbinvContext _ _ => none
  | .tlbinvTenant _ _ => none
  | .tlbinvAll _ _ => none
  | .tlbinvComplete => none
  | .invstatWrite _ _ => none
  | .fltrepRetry _ _ => none
  | .fltrepFail _ _ => none
  | .writeWindowDescriptor _ _ => none
  | .writeMailboxEntry _ _ => none
  | .writeContextRecord _ _ => none
  | .endContext _ _ => none
  | .giveClusterBank _ _ => none
  | .attestationReport _ _ => none
  | .setRetirementThreshold _ _ => none
  | .requestComplete _ => none
  | .mback _ _ => none
  | .hstatRead _ => none
  | .rasstatRead _ _ => none
  | .pairstatRead _ => none
  | .registerWrite _ _ _ => none
  | .hostMailboxWrite _ _ _ => none
  | .functionLevelReset _ => none
  | .partReset => none
  | .d3hotEntry => none
  | .d0Exit => none
  | .linkUp _ _ => none
  | .hello _ _ _ _ => none
  | .attest _ _ _ _ => none
  | .align _ _ _ _ _ => none
  | .image _ _ _ _ _ => none
  | .resume _ _ _ _ => none
  | .tenure _ _ _ _ => none
  | .mbox _ _ _ _ => none
  | .credit _ _ _ _ _ => none
  | .qperr _ _ _ => none
  | .commit _ _ _ => none
  | .undock _ _ => none
  | .undone _ _ => none
  | .linkLoss _ => none
  | .traceDrain _ => none
  | .undefinedEncoding => none
  | .controlWordIssue => none
  | .flit _ => none
  | .unsupportedTlp _ => none
  | .queuePairMemoryRequest _ _ _ _ _ _ => none
  | .queuePairReset _ _ => none
  | .powerStateChange _ _ => none
  | .correctedErrorWindow => none
  | .badreq _ _ => none

end Sys2Proof.Machine
end

