-- ==== Sys2Proof/Machine/Fetch.lean ====
section
/-! DEFINITION. The fetch of a packet and the checks of steps 1 to 5, the issue of what it holds, and the emulation of an
instruction that a die lacks (R7, R25, R43 to R55, R64, R65). -/
namespace Sys2Proof.Machine

open Sys2Proof

/-! ### A packet (R43, R46, R47, R52 to R55) -/

/-- The slot after which an instruction word stands: the last instruction word before slot k. -/
def prevWord (cw k : Nat) : Option Nat := if k = 2 then some 1 else if k = 3 then (if cwLit cw 2 then some 1 else some 2) else none

/-- The instruction word in slot k starts a chain: no instruction word before it in the packet has its chain bit set. -/
def startsChain (cw : Nat) (ws : Nat → Nat) (k : Nat) : Bool := match prevWord cw k with
  | none => true
  | some j => !bit (ws j) 31

/-- Slot k breaks a rule of control words or literals (R46, R47, R53). -/
def slotBreach (cw : Nat) (ws : Nat → Nat) (k : Nat) : Bool :=
  let marked := cwStall cw k != 0 || cwMark cw k
  (k == 1 && bit cw 5) ||
  if cwLit cw k then marked || (k == 3 && cwLit cw 2) || !consumesLit (ws (k - 1))
  else (marked && !startsChain cw ws k) || (consumesLit (ws k) && (k == 3 || !cwLit cw (k + 1)))

/-- Step 3: the slot that a breach of the packet is reported for (R65). -/
def packetBreach (cw : Nat) (ws : Nat → Nat) : Option Nat := match [1, 2, 3].find? (slotBreach cw ws) with
  | some k => some k
  | none => if bits cw 4 0 ≠ 0 then some 0 else none

/-- Step 4: the words of a chain decoded, or the first that does not decode (R64, R70). -/
def decodeChain (ws : Nat → Nat) : List Nat → Except (Nat × DecErr) (List (Nat × Instr))
  | [] => .ok []
  | k :: ks => match decodeInstr (ws k % 2 ^ 31) (if k < 3 then ws (k + 1) else 0) with
    | .error e => .error (k, e)
    | .ok i => match decodeChain ws ks with
      | .error e => .error e
      | .ok is => .ok ((k, i) :: is)

/-- The semantics of the words of a chain. -/
def chainOf (is : List (Nat × Instr)) : Chain := is.filterMap fun e => (semOf e.2).map fun m => (e.1, m)

/-- Step 5: the first word of a chain that repeats a pipe, a register, a tile or an accumulator of an earlier one, or that
follows a C-pipe word (R55). -/
def chainBreach : Chain → Chain → Option Nat
  | _, [] => none
  | before, e :: r =>
    let m := e.2
    if before.any (fun o => (o.2.pipe == m.pipe && m.pipe != 5) || (o.2.writes.any (m.writes.contains ·)) ||
        (o.2.wtiles.any (m.wtiles.contains ·)) || (o.2.waccs.any (m.waccs.contains ·))) || (m.pipe == 4 && !r.isEmpty) then some e.1
    else chainBreach (before ++ [e]) r

/-- The last word of a chain has its chain bit set, with no instruction word after it (R54). -/
def dangling (cw : Nat) (ws : Nat → Nat) (ks : List Nat) : Option Nat := match ks.getLast? with
  | none => none
  | some k => if bit (ws k) 31 && (followWord cw k).isNone then some k else none

/-- What the packet at a PC holds for the chain that starts there. -/
inductive Fetched where
  /-- a cause of step 1 or 2, with the slot reported -/
  | early (word : Nat) (c : Cause)
  /-- a cause of steps 3 to 5 -/
  | bad (cw word : Nat) (c : Cause)
  /-- the control word and the words of the chain with their slots -/
  | chain (cw : Nat) (is : List (Nat × Instr))
  deriving DecidableEq, Repr

/-- Steps 2 to 5 for a chain at slot k of a packet. -/
def readPacket (cw : Nat) (ws : Nat → Nat) (k : Nat) : Fetched :=
  if cwLit cw k || !startsChain cw ws k then .early k { code := tIllegalEnc }
  else match packetBreach cw ws with
    | some j => .bad cw j { code := tIllegalEnc }
    | none =>
      let ks := chainSlots cw ws 3 k
      match decodeChain ws ks with
      | .error e => .bad cw e.1 { code := if e.2 = .illegalOp then tIllegalOp else tIllegalEnc }
      | .ok is => match (chainBreach [] (chainOf is)).orElse fun _ => dangling cw ws ks with
        | some j => .bad cw j { code := tIllegalEnc }
        | none => .chain cw is

/-! ### The fetch (R25, R45, R64) -/

/-- The packet at a physical address as the homes hold it: one 16-byte read (R45). -/
def packetNow (s : State) (pa : Nat) : List Byte := engBytes s pa 16

/-- The packet at launch start, where it has been stored into since and the fetch returns that value (R45). -/
def packetOld (s : State) (l : Launch) (pa : Nat) : Option (List Byte) := match l.code with
  | none => none
  | some m =>
    let old := (List.range 16).map fun i => memGet m (pa + i)
    if old != packetNow s pa && Config.fetchOld s.fresh pa then some old else none

/-- The words of the packet that a fetch for a group of a launch returns (R45; of the values from later stores the model shows
the latest, log 82). -/
def packetAt (s : State) (l : Launch) (pa : Nat) (k : Nat) : Nat :=
  leValue (sliceBytes ((packetOld s l pa).getD (packetNow s pa)) (4 * k) 4)

/-- Fetch for a slot: the translation made, and what the packet holds. -/
def fetch (s : State) (gid : Nat) (sl : PSlot) : State × Fetched :=
  let pc := ((getGroup s gid).slot sl).pc
  let k := pcSlot pc
  let base := pc - pc % 16
  let x := ctxOf s gid
  if k = 0 then (s, .early 0 { code := tDivstack })
  else
    let s := fillTlb s (coreOf s gid) x base .fetch
    match xlate s (coreOf s gid) x base .fetch with
    | .error f => (s, .early k { xfCause 0 base f .fetch with lane := none })
    | .ok pa =>
      if (List.range 16).any fun i => poisoned s (pa + i) then (touch s pa, .early k { code := tPoison, addr := base })
      else let w := packetAt s (launchOf s gid) pa; (touch s pa, readPacket (w 0) w k)

/-! ### Issue -/

/-- A chain issues or traps now: the slot is ready, and it has a cause of step 6 or 7 or no reason to wait. -/
def chainGoes (s : State) (gid : Nat) (sl : PSlot) (ch : Chain) : Bool :=
  let s' := modGroup s gid fun g => g.landV s.fresh (cycOf s gid)
  let v := (getGroup s' gid).slot sl
  let next := nextChain s'.word v.pc ((ch.getLast?.map (·.1)).getD 1)
  slotReady s gid sl && ((earlyCause s' gid ch).isSome ||
    (canIssue s' gid sl ch && !(chainCtxs s' gid sl ch next).any fun e => e.2.hold s' e.1))

/-- A slot issues or traps when it is next tried. -/
def slotGoes (s : State) (gid : Nat) (sl : PSlot) : Bool :=
  slotReady s gid sl && match fetch s gid sl with
    | (_, .early _ _) => true
    | (_, .bad _ _ _) => true
    | (s', .chain cw is) => chainGoes { s' with word := cw } gid sl (chainOf is)

/-- Set going what the wait of a slot's chain needs. -/
def nudgeSlot (s : State) (gid : Nat) (sl : PSlot) : State :=
  if !slotReady s gid sl then s
  else match fetch s gid sl with
    | (s', .chain cw is) => nudgeChain { s' with word := cw } gid sl (chainOf is)
    | _ => s

/-- The current slot's PC or its fetch has a cause of step 1 or 2: it traps (R25, R44, R45, R64). -/
def trapEarly (s : State) : State := match s.cur with
  | none => s
  | some (gid, sl) =>
    let pc := ((getGroup s gid).slot sl).pc
    if !slotReady s gid sl then s
    else match fetch s gid sl with
      | (s', .early k c) => chainTrap s' gid sl k pc pc c
      | _ => s

/-- The current slot's packet or chain has a cause of steps 3 to 5: it traps (R64, R70). -/
def trapBad (s : State) : State := match s.cur with
  | none => s
  | some (gid, sl) =>
    let pc := ((getGroup s gid).slot sl).pc
    if !slotReady s gid sl then s
    else match fetch s gid sl with
      | (s', .bad cw k c) => chainTrap { s' with word := cw } gid sl k pc pc c
      | _ => s

/-! ### Emulation (R7) -/

/-- The Pavilion executes the parked chain of a slot as a die with every instruction would; one that would have to wait
stays parked. -/
def emulate (s : State) (gid : Nat) (sl : PSlot) : State :=
  let v := (getGroup s gid).slot sl
  let t := getTeam s (getGroup s gid).team
  let die := dieOf s gid
  let level := (getDie s die).level
  if !v.waits.contains .emulate then s
  else
    let s0 := modSlot s gid sl fun v => { v with waits := v.waits.filter (· != .emulate) }
    let s0 := modDie (modTeam s0 (getGroup s gid).team fun t => { t with preempt := none }) die fun d => { d with level := 2 }
    match fetch s0 gid sl with
    | (s1, .chain cw is) => match issueChain { s1 with word := cw } gid sl (chainOf is) with
      | none => s
      | some s2 => modDie (modTeam s2 (getGroup s gid).team fun x =>
          if x.preempt.isNone then { x with preempt := t.preempt } else x) die fun d => { d with level := level }
    | _ => s

/-! ### Meanings -/

def execEmulateComplete (g : Nat) (sl : PSlot) (s : State) : Host.Outcome State Fault Refusal := .next (emulate s g sl)
def execUndefinedEncoding (s : State) : Host.Outcome State Fault Refusal := .next (trapBad s)
def execControlWordIssue (s : State) : Host.Outcome State Fault Refusal := .next (trapEarly s)

end Sys2Proof.Machine
end

