-- ==== Sys2Proof/Machine/Dispatch.lean ====
section
/-! DEFINITION. What each instruction of the opcode table does: one arm per constructor, in the table's order. -/
namespace Sys2Proof.Machine

open Sys2Proof

/-- The meaning of an instruction. -/
def exec (i : Instr) (s : State) : Host.Outcome State Fault Refusal :=
  match i with
  | .nop => Sys2Proof.Machine.execNop s
  | .mov d a b64 => Sys2Proof.Machine.execMov d a b64 s
  | .sreg d code => Sys2Proof.Machine.execSreg d code s
  | .iadd d a b m => Sys2Proof.Machine.execIadd d a b m s
  | .isub d a b m => Sys2Proof.Machine.execIsub d a b m s
  | .imul d a b => Sys2Proof.Machine.execImul d a b s
  | .imulh d a b m => Sys2Proof.Machine.execImulh d a b m s
  | .imad d a b => Sys2Proof.Machine.execImad d a b s
  | .iadd64 d a b m => Sys2Proof.Machine.execIadd64 d a b m s
  | .imad64 d a b m => Sys2Proof.Machine.execImad64 d a b m s
  | .imin d a b m => Sys2Proof.Machine.execImin d a b m s
  | .imax d a b m => Sys2Proof.Machine.execImax d a b m s
  | .iabsd d a b m => Sys2Proof.Machine.execIabsd d a b m s
  | .land d a b => Sys2Proof.Machine.execLand d a b s
  | .lor d a b => Sys2Proof.Machine.execLor d a b s
  | .lxor d a b => Sys2Proof.Machine.execLxor d a b s
  | .landn d a b => Sys2Proof.Machine.execLandn d a b s
  | .shl d a b => Sys2Proof.Machine.execShl d a b s
  | .shr d a b m => Sys2Proof.Machine.execShr d a b m s
  | .shf d a b m => Sys2Proof.Machine.execShf d a b m s
  | .bfx d a b m => Sys2Proof.Machine.execBfx d a b m s
  | .bfi d a b => Sys2Proof.Machine.execBfi d a b s
  | .clz d a b64 => Sys2Proof.Machine.execClz d a b64 s
  | .popc d a b64 => Sys2Proof.Machine.execPopc d a b64 s
  | .brev d a => Sys2Proof.Machine.execBrev d a s
  | .bitil d a b m => Sys2Proof.Machine.execBitil d a b m s
  | .bitdl d a m => Sys2Proof.Machine.execBitdl d a m s
  | .icmps d a b m => Sys2Proof.Machine.execIcmps d a b m s
  | .icmpn d a b m => Sys2Proof.Machine.execIcmpn d a b m s
  | .sel d a b bitwise => Sys2Proof.Machine.execSel d a b bitwise s
  | .bytsel d a b sw => Sys2Proof.Machine.execBytsel d a b sw s
  | .shfl d a b m => Sys2Proof.Machine.execShfl d a b m s
  | .ballot d a cnt => Sys2Proof.Machine.execBallot d a cnt s
  | .lred d a m => Sys2Proof.Machine.execLred d a m s
  | .lscan d a m => Sys2Proof.Machine.execLscan d a m s
  | .lfirst d a idx => Sys2Proof.Machine.execLfirst d a idx s
  | .lmatch d a b64 => Sys2Proof.Machine.execLmatch d a b64 s
  | .flred d a m => Sys2Proof.Machine.execFlred d a m s
  | .br v o => Sys2Proof.Machine.execBr v o s
  | .brv v => Sys2Proof.Machine.execBrv v s
  | .split o => Sys2Proof.Machine.execSplit o s
  | .join => Sys2Proof.Machine.execJoin s
  | .call o => Sys2Proof.Machine.execCall o s
  | .callv a => Sys2Proof.Machine.execCallv a s
  | .ret a => Sys2Proof.Machine.execRet a s
  | .exit => Sys2Proof.Machine.execExit s
  | .pset a n => Sys2Proof.Machine.execPset a n s
  | .sleep a => Sys2Proof.Machine.execSleep a s
  | .sleepT a => Sys2Proof.Machine.execSleepT a s
  | .sleepB a => Sys2Proof.Machine.execSleepB a s
  | .yield => Sys2Proof.Machine.execYield s
  | .trap code => Sys2Proof.Machine.execTrap code s
  | .bkpt => Sys2Proof.Machine.execBkpt s
  | .rett => Sys2Proof.Machine.execRett s
  | .waitc c n => Sys2Proof.Machine.execWaitc c n s
  | .fadd d a b r => Sys2Proof.Machine.execFadd d a b r s
  | .fmul d a b r => Sys2Proof.Machine.execFmul d a b r s
  | .ffma d a b r => Sys2Proof.Machine.execFfma d a b r s
  | .fmin d a b => Sys2Proof.Machine.execFmin d a b s
  | .fmax d a b => Sys2Proof.Machine.execFmax d a b s
  | .fcmp d a b m => Sys2Proof.Machine.execFcmp d a b m s
  | .frnd d a r => Sys2Proof.Machine.execFrnd d a r s
  | .fclass d a m => Sys2Proof.Machine.execFclass d a m s
  | .padd2 d a b bf r => Sys2Proof.Machine.execPadd2 d a b bf r s
  | .pmul2 d a b bf r => Sys2Proof.Machine.execPmul2 d a b bf r s
  | .pfma2 d a b bf r => Sys2Proof.Machine.execPfma2 d a b bf r s
  | .pdot2 d a b bf r => Sys2Proof.Machine.execPdot2 d a b bf r s
  | .fdiv d a b r => Sys2Proof.Machine.execFdiv d a b r s
  | .frcp d a r => Sys2Proof.Machine.execFrcp d a r s
  | .frsq d a r => Sys2Proof.Machine.execFrsq d a r s
  | .fsqrt d a r => Sys2Proof.Machine.execFsqrt d a r s
  | .fexp2 d a r => Sys2Proof.Machine.execFexp2 d a r s
  | .flog2 d a r => Sys2Proof.Machine.execFlog2 d a r s
  | .fsinpi d a r => Sys2Proof.Machine.execFsinpi d a r s
  | .fcospi d a r => Sys2Proof.Machine.execFcospi d a r s
  | .cvtf d a df sf sat r => Sys2Proof.Machine.execCvtf d a df sf sat r s
  | .cvti d a df sf r => Sys2Proof.Machine.execCvti d a df sf r s
  | .cvtif d a df sf sat r => Sys2Proof.Machine.execCvtif d a df sf sat r s
  | .cvtpk d a b m => Sys2Proof.Machine.execCvtpk d a b m s
  | .ld d a f z off sx nc => Sys2Proof.Machine.execLd d a f z off sx nc s
  | .st d a f z off nc => Sys2Proof.Machine.execSt d a f z off nc s
  | .lds d a f z off sx => Sys2Proof.Machine.execLds d a f z off sx s
  | .sts d a f z off => Sys2Proof.Machine.execSts d a f z off s
  | .ldb d a f z off sx => Sys2Proof.Machine.execLdb d a f z off sx s
  | .stb d a f z off => Sys2Proof.Machine.execStb d a f z off s
  | .atom d a f z off nr => Sys2Proof.Machine.execAtom d a f z off nr s
  | .atoms d a f z off nr => Sys2Proof.Machine.execAtoms d a f z off nr s
  | .cas d a f z off => Sys2Proof.Machine.execCas d a f z off s
  | .cas128 d a f off => Sys2Proof.Machine.execCas128 d a f off s
  | .aminv d a f off nr => Sys2Proof.Machine.execAminv d a f off nr s
  | .fence sc k => Sys2Proof.Machine.execFence sc k s
  | .cachePref a f lv => Sys2Proof.Machine.execCachePref a f lv s
  | .cacheFlush a f lv => Sys2Proof.Machine.execCacheFlush a f lv s
  | .cacheInv a f lv => Sys2Proof.Machine.execCacheInv a f lv s
  | .barInit b rlx target => Sys2Proof.Machine.execBarInit b rlx target s
  | .barArrive d b rlx => Sys2Proof.Machine.execBarArrive d b rlx s
  | .barWait d b rlx => Sys2Proof.Machine.execBarWait d b rlx s
  | .barArrivewait d b rlx => Sys2Proof.Machine.execBarArrivewait d b rlx s
  | .barInv b rlx => Sys2Proof.Machine.execBarInv b rlx s
  | .barQuery d b rlx => Sys2Proof.Machine.execBarQuery d b rlx s
  | .qpush a f cl bank => Sys2Proof.Machine.execQpush a f cl bank s
  | .qpop d f cl bank => Sys2Proof.Machine.execQpop d f cl bank s
  | .bkcfg d a f m => Sys2Proof.Machine.execBkcfg d a f m s
  | .tcfg p cfg => Sys2Proof.Machine.execTcfg p cfg s
  | .tld p v sp pitch => Sys2Proof.Machine.execTld p v sp pitch s
  | .tst p v sp sc pitch => Sys2Proof.Machine.execTst p v sp sc pitch s
  | .tmovv p v j toTile => Sys2Proof.Machine.execTmovv p v j toTile s
  | .mma a p q => Sys2Proof.Machine.execMma a p q s
  | .mzero a e => Sys2Proof.Machine.execMzero a e s
  | .mdrain a t v c0 clr => Sys2Proof.Machine.execMdrain a t v c0 clr s
  | .mhad p q v n sgn => Sys2Proof.Machine.execMhad p q v n sgn s
  | .msign p q v n => Sys2Proof.Machine.execMsign p q v n s
  | .mquant p q => Sys2Proof.Machine.execMquant p q s
  | .mbatch => Sys2Proof.Machine.execMbatch s
  | .ttrans p q => Sys2Proof.Machine.execTtrans p q s
  | .bnew d a f full => Sys2Proof.Machine.execBnew d a f full s
  | .bfree a => Sys2Proof.Machine.execBfree a s
  | .bstat d a f => Sys2Proof.Machine.execBstat d a f s
  | .cpy d a f w => Sys2Proof.Machine.execCpy d a f w s
  | .cpyo d a f w => Sys2Proof.Machine.execCpyo d a f w s
  | .cpylRead d a f qp len => Sys2Proof.Machine.execCpylRead d a f qp len s
  | .cpylWrite d a f qp len => Sys2Proof.Machine.execCpylWrite d a f qp len s
  | .lrecBase d a f => Sys2Proof.Machine.execLrecBase d a f s
  | .lrecScale d a f => Sys2Proof.Machine.execLrecScale d a f s
  | .lrecSeed d a f => Sys2Proof.Machine.execLrecSeed d a f s
  | .lrecChk d a f => Sys2Proof.Machine.execLrecChk d a f s
  | .thnew d a f => Sys2Proof.Machine.execThnew d a f s
  | .thfree a f => Sys2Proof.Machine.execThfree a f s
  | .thqry d a f => Sys2Proof.Machine.execThqry d a f s
  | .tacq d a f m => Sys2Proof.Machine.execTacq d a f m s
  | .trel a f => Sys2Proof.Machine.execTrel a f s
  | .tflush a f => Sys2Proof.Machine.execTflush a f s
  | .tsplit d a f dim p => Sys2Proof.Machine.execTsplit d a f dim p s
  | .rtrace d a f => Sys2Proof.Machine.execRtrace d a f s
  | .rany d a f => Sys2Proof.Machine.execRany d a f s
  | .rpin d a f => Sys2Proof.Machine.execRpin d a f s
  | .runpin a f => Sys2Proof.Machine.execRunpin a f s
  | .rhit d a f => Sys2Proof.Machine.execRhit d a f s
  | .rgenq d a f => Sys2Proof.Machine.execRgenq d a f s
  | .asbuild a f => Sys2Proof.Machine.execAsbuild a f s
  | .asrefit a f => Sys2Proof.Machine.execAsrefit a f s
  | .asrebal a f => Sys2Proof.Machine.execAsrebal a f s
  | .asimport a f => Sys2Proof.Machine.execAsimport a f s
  | .aspubl a f => Sys2Proof.Machine.execAspubl a f s
  | .asstat a f => Sys2Proof.Machine.execAsstat a f s
  | .asqual a f => Sys2Proof.Machine.execAsqual a f s
  | .asrecl a f => Sys2Proof.Machine.execAsrecl a f s
  | .feat d => Sys2Proof.Machine.execFeat d s
  | .dfeat d => Sys2Proof.Machine.execDfeat d s
  | .ckpt d => Sys2Proof.Machine.execCkpt d s
  | .mbpost d a => Sys2Proof.Machine.execMbpost d a s
  | .trapinfo d k => Sys2Proof.Machine.execTrapinfo d k s
  | .trcon => Sys2Proof.Machine.execTrcon s
  | .trcoff => Sys2Proof.Machine.execTrcoff s
  | .trcmark mark => Sys2Proof.Machine.execTrcmark mark s
  | .vPipeResultWrite g => Sys2Proof.Machine.execVPipeResultWrite g s
  | .sPipeResultWrite g op => Sys2Proof.Machine.execSPipeResultWrite g op s
  | .lPipeResultWrite g op => Sys2Proof.Machine.execLPipeResultWrite g op s
  | .storePerformed g op => Sys2Proof.Machine.execStorePerformed g op s
  | .fenceComplete g sl => Sys2Proof.Machine.execFenceComplete g sl s
  | .matrixExecute g => Sys2Proof.Machine.execMatrixExecute g s
  | .copyComplete g op => Sys2Proof.Machine.execCopyComplete g op s
  | .rayRecordWrite g op => Sys2Proof.Machine.execRayRecordWrite g op s
  | .builderDispatch die => Sys2Proof.Machine.execBuilderDispatch die s
  | .buildRequestComplete die n => Sys2Proof.Machine.execBuildRequestComplete die n s
  | .sleepWake g sl => Sys2Proof.Machine.execSleepWake g sl s
  | .promiseMiss g sl => Sys2Proof.Machine.execPromiseMiss g sl s
  | .checkpointCommit ctx => Sys2Proof.Machine.execCheckpointCommit ctx s
  | .checkpointTimer ctx => Sys2Proof.Machine.execCheckpointTimer ctx s
  | .emulateComplete g sl => Sys2Proof.Machine.execEmulateComplete g sl s
  | .translationWalk core ctx va wr => Sys2Proof.Machine.execTranslationWalk core ctx va wr s
  | .reqrd src dst => Sys2Proof.Machine.execReqrd src dst s
  | .reqwr src dst => Sys2Proof.Machine.execReqwr src dst s
  | .requestStart die set => Sys2Proof.Machine.execRequestStart die set s
  | .grant src dst => Sys2Proof.Machine.execGrant src dst s
  | .fwd src dst => Sys2Proof.Machine.execFwd src dst s
  | .data src dst => Sys2Proof.Machine.execData src dst s
  | .inv src dst => Sys2Proof.Machine.execInv src dst s
  | .invack src dst => Sys2Proof.Machine.execInvack src dst s
  | .recallMsg src dst => Sys2Proof.Machine.execRecall src dst s
  | .wbdata src dst => Sys2Proof.Machine.execWbdata src dst s
  | .backinv src dst => Sys2Proof.Machine.execBackinv src dst s
  | .nack src dst => Sys2Proof.Machine.execNack src dst s
  | .busyResend die txn => Sys2Proof.Machine.execBusyResend die txn s
  | .pageHomeMove ctx va => Sys2Proof.Machine.execPageHomeMove ctx va s
  | .mailboxArrival n => Sys2Proof.Machine.execMailboxArrival n s
  | .launchStart mb => Sys2Proof.Machine.execLaunchStart mb s
  | .preemptRequest team => Sys2Proof.Machine.execPreemptRequest team s
  | .safePoint team => Sys2Proof.Machine.execSafePoint team s
  | .teamRestore team => Sys2Proof.Machine.execTeamRestore team s
  | .sliceExpiry team => Sys2Proof.Machine.execSliceExpiry team s
  | .coreRetirement core => Sys2Proof.Machine.execCoreRetirement core s
  | .sliceRetirement die slice => Sys2Proof.Machine.execSliceRetirement die slice s
  | .pageRetirement page => Sys2Proof.Machine.execPageRetirement page s
  | .memoryError e => Sys2Proof.Machine.execMemoryError e s
  | .tlbinvPageRange fn w1 => Sys2Proof.Machine.execTlbinvPageRange fn w1 s
  | .tlbinvContext fn w1 => Sys2Proof.Machine.execTlbinvContext fn w1 s
  | .tlbinvTenant fn w1 => Sys2Proof.Machine.execTlbinvTenant fn w1 s
  | .tlbinvAll fn w1 => Sys2Proof.Machine.execTlbinvAll fn w1 s
  | .tlbinvComplete => Sys2Proof.Machine.execTlbinvComplete s
  | .invstatWrite fn v => Sys2Proof.Machine.execInvstatWrite fn v s
  | .fltrepRetry fn v => Sys2Proof.Machine.execFltrepRetry fn v s
  | .fltrepFail fn v => Sys2Proof.Machine.execFltrepFail fn v s
  | .writeWindowDescriptor fn addr => Sys2Proof.Machine.execWriteWindowDescriptor fn addr s
  | .writeMailboxEntry fn addr => Sys2Proof.Machine.execWriteMailboxEntry fn addr s
  | .writeContextRecord fn addr => Sys2Proof.Machine.execWriteContextRecord fn addr s
  | .endContext fn addr => Sys2Proof.Machine.execEndContext fn addr s
  | .giveClusterBank fn addr => Sys2Proof.Machine.execGiveClusterBank fn addr s
  | .attestationReport fn addr => Sys2Proof.Machine.execAttestationReport fn addr s
  | .setRetirementThreshold fn addr => Sys2Proof.Machine.execSetRetirementThreshold fn addr s
  | .requestComplete fn => Sys2Proof.Machine.execRequestComplete fn s
  | .mback fn v => Sys2Proof.Machine.execMback fn v s
  | .hstatRead fn => Sys2Proof.Machine.execHstatRead fn s
  | .rasstatRead fn die => Sys2Proof.Machine.execRasstatRead fn die s
  | .pairstatRead half => Sys2Proof.Machine.execPairstatRead half s
  | .registerWrite fn off v => Sys2Proof.Machine.execRegisterWrite fn off v s
  | .hostMailboxWrite fn off bytes => Sys2Proof.Machine.execHostMailboxWrite fn off bytes s
  | .functionLevelReset vf => Sys2Proof.Machine.execFunctionLevelReset vf s
  | .partReset => Sys2Proof.Machine.execPartReset s
  | .d3hotEntry => Sys2Proof.Machine.execD3hotEntry s
  | .d0Exit => Sys2Proof.Machine.execD0Exit s
  | .linkUp half ok => Sys2Proof.Machine.execLinkUp half ok s
  | .hello half h nonce versions => Sys2Proof.Machine.execHello half h nonce versions s
  | .attest half h tb sig => Sys2Proof.Machine.execAttest half h tb sig s
  | .align half h ofs nodesOk ctxs => Sys2Proof.Machine.execAlign half h ofs nodesOk ctxs s
  | .image half h ctx addr size => Sys2Proof.Machine.execImage half h ctx addr size s
  | .resume half h ctx status => Sys2Proof.Machine.execResume half h ctx status s
  | .tenure half h type body => Sys2Proof.Machine.execTenure half h type body s
  | .mbox half h mb msg => Sys2Proof.Machine.execMbox half h mb msg s
  | .credit half h n drops refused => Sys2Proof.Machine.execCredit half h n drops refused s
  | .qperr half h err => Sys2Proof.Machine.execQperr half h err s
  | .commit half ctx n => Sys2Proof.Machine.execCommit half ctx n s
  | .undock half h => Sys2Proof.Machine.execUndock half h s
  | .undone half h => Sys2Proof.Machine.execUndone half h s
  | .linkLoss half => Sys2Proof.Machine.execLinkLoss half s
  | .traceDrain cluster => Sys2Proof.Machine.execTraceDrain cluster s
  | .undefinedEncoding => Sys2Proof.Machine.execUndefinedEncoding s
  | .controlWordIssue => Sys2Proof.Machine.execControlWordIssue s
  | .flit n => Sys2Proof.Machine.execFlit n s
  | .unsupportedTlp half => Sys2Proof.Machine.execUnsupportedTlp half s
  | .queuePairMemoryRequest half ctx qp off wr bytes => Sys2Proof.Machine.execQueuePairMemoryRequest half ctx qp off wr bytes s
  | .queuePairReset ctx qp => Sys2Proof.Machine.execQueuePairReset ctx qp s
  | .powerStateChange die p => Sys2Proof.Machine.execPowerStateChange die p s
  | .correctedErrorWindow => Sys2Proof.Machine.execCorrectedErrorWindow s
  | .badreq fn addr => Sys2Proof.Machine.execBadreq fn addr s

end Sys2Proof.Machine
end

