-- ==== Sys2Proof/WellFormed.lean ====
section
/-! DEFINITION. Well-formed instructions: every field within the range that its encoding admits (R15 to R17, R31, R48,
R52, R140, R168, R200, R221). A whole-device step has no encoded field; its arguments name agents, and one that names
nothing leaves the machine as it is (log 6). -/
namespace Sys2Proof

open Sys2Proof.Machine

namespace Wf

/-- A register number that is a multiple of `k`. -/
def rk (k r : Nat) : Bool := decide (r < 120) && decide (r % k = 0)
def r1 (r : Nat) : Bool := decide (r < 120)
def r2 (r : Nat) : Bool := rk 2 r
def rIf (w : Bool) (r : Nat) : Bool := if w then r2 r else r1 r
/-- A literal word. -/
def lw (v : Nat) : Bool := decide (v < 2 ^ 32)
def s32 : Src → Bool
  | .reg n => r1 n
  | .lit v => lw v
  | _ => true
def s64 : Src → Bool
  | .reg n => r2 n
  | .lit v => lw v
  | _ => true
def sIf (w : Bool) (s : Src) : Bool := if w then s64 s else s32 s
/-- Two literals of one word are the same literal (R52). -/
def litSame (a b : Src) : Bool := match a.litOf, b.litOf with
  | some x, some y => x == y
  | _, _ => true
def fl : Option Nat → Bool
  | some f => decide (f < 12)
  | none => true
def lo : Option Nat → Bool
  | some v => lw v
  | none => true
def sxOk (z : Sz) (sx : Bool) : Bool := !sx || z == .b8 || z == .b16
def off17 (o : Int) : Bool := decide (-65536 ≤ o) && decide (o ≤ 65535)
def t8 (t : Nat) : Bool := decide (t < 8)
def cpylLen (n : Nat) : Bool := decide (n ≠ 0 ∧ n % 16 = 0 ∧ n ≤ 262144)

end Wf

open Wf

/-- The instruction is one that an encoding, or a whole-device step, admits. -/
def Instr.wf : Instr → Bool
  | .nop => true
  | .mov d a b64 => rIf b64 d && sIf b64 a
  | .sreg d code => r1 d && sregAssigned code
  | .iadd d a b _ => r1 d && s32 a && s32 b && litSame a b
  | .isub d a b _ => r1 d && s32 a && s32 b && litSame a b
  | .imul d a b => r1 d && s32 a && s32 b && litSame a b
  | .imulh d a b _ => r1 d && s32 a && s32 b && litSame a b
  | .imad d a b => r1 d && s32 a && s32 b && litSame a b
  | .iadd64 d a b m => r2 d && s64 a && (if m = .b64 then s64 b else s32 b) && litSame a b
  | .imad64 d a b _ => r2 d && s32 a && s32 b && litSame a b
  | .imin d a b _ => r1 d && s32 a && s32 b && litSame a b
  | .imax d a b _ => r1 d && s32 a && s32 b && litSame a b
  | .iabsd d a b _ => r1 d && s32 a && s32 b && litSame a b
  | .land d a b => r1 d && s32 a && s32 b && litSame a b
  | .lor d a b => r1 d && s32 a && s32 b && litSame a b
  | .lxor d a b => r1 d && s32 a && s32 b && litSame a b
  | .landn d a b => r1 d && s32 a && s32 b && litSame a b
  | .shl d a b => r1 d && s32 a && s32 b && litSame a b
  | .shr d a b _ => r1 d && s32 a && s32 b && litSame a b
  | .shf d a b _ => r1 d && s64 a && s32 b && litSame a b
  | .bfx d a b _ => r1 d && s32 a && s32 b && litSame a b
  | .bfi d a b => r1 d && s32 a && s32 b && litSame a b
  | .clz d a b64 => r1 d && sIf b64 a
  | .popc d a b64 => r1 d && sIf b64 a
  | .brev d a => r1 d && s32 a
  | .bitil d a b _ => r1 d && s32 a && s32 b && litSame a b
  | .bitdl d a _ => r1 d && s32 a
  | .icmps d a b _ => r1 d && s32 a && s32 b && litSame a b
  | .icmpn d a b _ => r1 d && s32 a && s32 b && litSame a b
  | .sel d a b _ => r1 d && s32 a && s32 b && litSame a b
  | .bytsel d a b _ => r1 d && s32 a && s32 b && litSame a b
  | .shfl d a b _ => r1 d && s32 a && s32 b && litSame a b
  | .ballot d a _ => r1 d && s32 a
  | .lred d a _ => r1 d && s32 a
  | .lscan d a _ => r1 d && s32 a
  | .lfirst d a _ => r1 d && s32 a
  | .lmatch d a b64 => r1 d && sIf b64 a
  | .flred d a _ => r1 d && s32 a
  | .br v o => s32 v && v.litOf.isNone && off17 o
  | .brv v => r2 v
  | .split o => off17 o
  | .join => true
  | .call o => off17 o
  | .callv a => r2 a
  | .ret a => r2 a
  | .exit => true
  | .pset a n => r1 a && decide (1 ≤ n ∧ n ≤ 15)
  | .sleep a => s32 a
  | .sleepT a => s64 a
  | .sleepB a => s32 a
  | .yield => true
  | .trap code => decide (code < 128)
  | .bkpt => true
  | .rett => true
  | .waitc _ n => decide (n < 64)
  | .fadd d a b _ => r1 d && s32 a && s32 b && litSame a b
  | .fmul d a b _ => r1 d && s32 a && s32 b && litSame a b
  | .ffma d a b _ => r1 d && s32 a && s32 b && litSame a b
  | .fmin d a b => r1 d && s32 a && s32 b && litSame a b
  | .fmax d a b => r1 d && s32 a && s32 b && litSame a b
  | .fcmp d a b _ => r1 d && s32 a && s32 b && litSame a b
  | .frnd d a _ => r1 d && s32 a
  | .fclass d a _ => r1 d && s32 a
  | .padd2 d a b _ _ => r1 d && s32 a && s32 b && litSame a b
  | .pmul2 d a b _ _ => r1 d && s32 a && s32 b && litSame a b
  | .pfma2 d a b _ _ => r1 d && s32 a && s32 b && litSame a b
  | .pdot2 d a b _ _ => r1 d && s32 a && s32 b && litSame a b
  | .fdiv d a b _ => r1 d && s32 a && s32 b && litSame a b
  | .frcp d a _ => r1 d && s32 a
  | .frsq d a _ => r1 d && s32 a
  | .fsqrt d a _ => r1 d && s32 a
  | .fexp2 d a _ => r1 d && s32 a
  | .flog2 d a _ => r1 d && s32 a
  | .fsinpi d a _ => r1 d && s32 a
  | .fcospi d a _ => r1 d && s32 a
  | .cvtf d a _ _ _ _ => r1 d && s32 a
  | .cvti d a df sf _ => rIf sf.is64 d && s32 a && df != .e8m0
  | .cvtif d a df sf _ _ => r1 d && sIf sf.is64 a && df != .e8m0
  | .cvtpk d a b _ => r1 d && s32 a && s32 b && litSame a b
  | .ld d a f z off sx _ => rk z.align d && r2 a && fl f && lo off && sxOk z sx
  | .st d a f z off _ => rk z.align d && r2 a && fl f && lo off
  | .lds d a f z off sx => rk z.align d && r1 a && fl f && lo off && sxOk z sx
  | .sts d a f z off => rk z.align d && r1 a && fl f && lo off
  | .ldb d a f z off sx => rk z.align d && r2 a && fl f && lo off && sxOk z sx
  | .stb d a f z off => rk z.align d && r2 a && fl f && lo off
  | .atom d a f z off _ => rIf (z == .b64) d && r2 a && fl f && lo off
  | .atoms d a f z off _ => rIf (z == .b64) d && r1 a && fl f && lo off
  | .cas d a f z off => rk (if z = .b64 then 4 else 2) d && r2 a && fl f && lo off
  | .cas128 d a f off => rk 8 d && r2 a && fl f && lo off
  | .aminv d a f off _ => r2 d && r2 a && fl f && lo off
  | .fence _ _ => true
  | .cachePref a f _ => r2 a && fl f
  | .cacheFlush a f _ => r2 a && fl f
  | .cacheInv a f _ => r2 a && fl f
  | .barInit b _ target => decide (b < 16 ∧ 1 ≤ target ∧ target ≤ 255)
  | .barArrive d b _ => r1 d && decide (b < 16)
  | .barWait d b _ => r1 d && decide (b < 16)
  | .barArrivewait d b _ => r1 d && decide (b < 16)
  | .barInv b _ => decide (b < 16)
  | .barQuery d b _ => r1 d && decide (b < 16)
  | .qpush a f _ bank => r1 a && fl f && decide (bank < 32)
  | .qpop d f _ bank => r1 d && fl f && decide (bank < 32)
  | .bkcfg d a f _ => r1 d && r1 a && fl f
  | .tcfg p cfg => t8 p && tcfgLegal cfg && decide (cfg < 2 ^ 17)
  | .tld p v sp pitch => t8 p && rIf (sp != .scratch) v && lw pitch
  | .tst p v sp _ pitch => t8 p && rIf (sp != .scratch) v && lw pitch
  | .tmovv p v j _ => t8 p && r1 v && decide (j < 128)
  | .mma a p q => decide (a < 4) && t8 p && t8 q
  | .mzero a e => decide (a < 4 ∧ -2048 ≤ e ∧ e ≤ 2047)
  | .mdrain a t v c0 _ => decide (a < 4) && t8 t && r1 v && decide (c0 < 32)
  | .mhad p q v _ sgn => t8 p && t8 q && (if sgn then rk 4 v else decide (v = 0))
  | .msign p q v _ => t8 p && t8 q && rk 4 v
  | .mquant p q => t8 p && t8 q
  | .mbatch => true
  | .ttrans p q => t8 p && t8 q
  | .bnew d a f _ => r1 d && r2 a && fl f
  | .bfree a => r1 a
  | .bstat d a f => r1 d && r1 a && fl f
  | .cpy d a f w => r2 d && rk 8 a && fl f && decide (w < 2 ^ 21)
  | .cpyo d a f w => r2 d && rk 8 a && fl f && decide (w < 2 ^ 21)
  | .cpylRead d a f qp len => r2 d && rk 4 a && fl f && decide (qp < 4) && cpylLen len
  | .cpylWrite d a f qp len => r2 d && rk 4 a && fl f && decide (qp < 4) && cpylLen len
  | .lrecBase d a f => r2 d && r2 a && fl f
  | .lrecScale d a f => r2 d && r2 a && fl f
  | .lrecSeed d a f => r2 d && r2 a && fl f
  | .lrecChk d a f => r1 d && r2 a && fl f
  | .thnew d a f => r1 d && rk 8 a && fl f
  | .thfree a f => r1 a && fl f
  | .thqry d a f => r1 d && r1 a && fl f
  | .tacq d a f _ => r1 d && r1 a && fl f
  | .trel a f => r1 a && fl f
  | .tflush a f => r1 a && fl f
  | .tsplit d a f dim p => r1 d && r1 a && fl f && decide (dim < 4 ∧ p < 65536)
  | .rtrace d a f => rk 8 d && rk 4 a && fl f
  | .rany d a f => rk 8 d && rk 4 a && fl f
  | .rpin d a f => r1 d && r2 a && fl f
  | .runpin a f => rk 4 a && fl f
  | .rhit d a f => rk 4 d && rk 4 a && fl f
  | .rgenq d a f => r2 d && rk 4 a && fl f
  | .asbuild a f => r2 a && fl f
  | .asrefit a f => r2 a && fl f
  | .asrebal a f => r2 a && fl f
  | .asimport a f => r2 a && fl f
  | .aspubl a f => r2 a && fl f
  | .asstat a f => r2 a && fl f
  | .asqual a f => r2 a && fl f
  | .asrecl a f => r2 a && fl f
  | .feat d => r1 d
  | .dfeat d => r1 d
  | .ckpt d => r1 d
  | .mbpost d a => r1 d && rk 4 a
  | .trapinfo d k => r1 d && decide (k < 8)
  | .trcon => true
  | .trcoff => true
  | .trcmark mark => decide (mark < 65536)
  | .vPipeResultWrite _ => true
  | .sPipeResultWrite _ _ => true
  | .lPipeResultWrite _ _ => true
  | .storePerformed _ _ => true
  | .fenceComplete _ _ => true
  | .matrixExecute _ => true
  | .copyComplete _ _ => true
  | .rayRecordWrite _ _ => true
  | .builderDispatch _ => true
  | .buildRequestComplete _ _ => true
  | .sleepWake _ _ => true
  | .promiseMiss _ _ => true
  | .checkpointCommit _ => true
  | .checkpointTimer _ => true
  | .emulateComplete _ _ => true
  | .translationWalk _ _ _ _ => true
  | .reqrd _ _ => true
  | .reqwr _ _ => true
  | .requestStart _ _ => true
  | .grant _ _ => true
  | .fwd _ _ => true
  | .data _ _ => true
  | .inv _ _ => true
  | .invack _ _ => true
  | .recallMsg _ _ => true
  | .wbdata _ _ => true
  | .backinv _ _ => true
  | .nack _ _ => true
  | .busyResend _ _ => true
  | .pageHomeMove _ _ => true
  | .mailboxArrival _ => true
  | .launchStart _ => true
  | .preemptRequest _ => true
  | .safePoint _ => true
  | .teamRestore _ => true
  | .sliceExpiry _ => true
  | .coreRetirement _ => true
  | .sliceRetirement _ _ => true
  | .pageRetirement _ => true
  | .memoryError _ => true
  | .tlbinvPageRange _ _ => true
  | .tlbinvContext _ _ => true
  | .tlbinvTenant _ _ => true
  | .tlbinvAll _ _ => true
  | .tlbinvComplete => true
  | .invstatWrite _ _ => true
  | .fltrepRetry _ _ => true
  | .fltrepFail _ _ => true
  | .writeWindowDescriptor _ _ => true
  | .writeMailboxEntry _ _ => true
  | .writeContextRecord _ _ => true
  | .endContext _ _ => true
  | .giveClusterBank _ _ => true
  | .attestationReport _ _ => true
  | .setRetirementThreshold _ _ => true
  | .requestComplete _ => true
  | .mback _ _ => true
  | .hstatRead _ => true
  | .rasstatRead _ _ => true
  | .pairstatRead _ => true
  | .registerWrite _ _ _ => true
  | .hostMailboxWrite _ _ _ => true
  | .functionLevelReset _ => true
  | .partReset => true
  | .d3hotEntry => true
  | .d0Exit => true
  | .linkUp _ _ => true
  | .hello _ _ _ _ => true
  | .attest _ _ _ _ => true
  | .align _ _ _ _ _ => true
  | .image _ _ _ _ _ => true
  | .resume _ _ _ _ => true
  | .tenure _ _ _ _ => true
  | .mbox _ _ _ _ => true
  | .credit _ _ _ _ _ => true
  | .qperr _ _ _ => true
  | .commit _ _ _ => true
  | .undock _ _ => true
  | .undone _ _ => true
  | .linkLoss _ => true
  | .traceDrain _ => true
  | .undefinedEncoding => true
  | .controlWordIssue => true
  | .flit _ => true
  | .unsupportedTlp _ => true
  | .queuePairMemoryRequest _ _ _ _ _ _ => true
  | .queuePairReset _ _ => true
  | .powerStateChange _ _ => true
  | .correctedErrorWindow => true
  | .badreq _ _ => true

/-- The instruction has an encoding as an instruction word. -/
def Instr.isWord (i : Instr) : Bool := !(encode i).isEmpty

end Sys2Proof
end

