-- ==== Sys2Proof/Machine/Turn.lean ====
section
/-! DEFINITION. Whose turn it is: the issue of a slot, the whole-device steps that are due, the passing of time and the
evictions of the caches (R21, R36, R148, R283, R286; log 4, log 5). -/
namespace Sys2Proof.Machine

open Sys2Proof

/-- The state that an outcome leaves, or the state before it. -/
def after (s : State) : Host.Outcome State Fault Refusal → State
  | .next s' => s'
  | .fault _ => s
  | .refused _ => s

/-! ### Issue -/

/-- The chain of a slot issues or traps; a chain of one word is one instruction. -/
def issueAt (s : State) (gid : Nat) (sl : PSlot) : Host.Outcome State Fault Refusal :=
  if !slotReady s gid sl then .next s
  else
    let s := { s with cur := some (gid, sl), idling := false }
    match fetch s gid sl with
    | (_, .early _ _) => exec .controlWordIssue s
    | (_, .bad _ _ _) => exec .undefinedEncoding s
    | (s', .chain cw [(_, i)]) => exec i { s' with word := cw }
    | (s', .chain cw is) => .next (issueOrWait { s' with word := cw } gid sl (chainOf is)).1

/-! ### Whole-device steps that are due -/

/-- The step that completes an operation of a group. -/
def opEvent (g : Nat) (o : Op) : Option Instr :=
  if o.done then none
  else match o.kind with
    | .store _ _ _ => some (.storePerformed g o.id)
    | .cacheOp _ _ _ => some (.storePerformed g o.id)
    | .wstore _ => some (.storePerformed g o.id)
    | .prefetch _ _ => some (.storePerformed g o.id)
    | .copy _ => some (.copyComplete g o.id)
    | .link _ _ _ _ _ _ _ _ => some (.copyComplete g o.id)
    | .ray _ _ => some (.rayRecordWrite g o.id)
    | .build => some (.buildRequestComplete 0 (g + 2))
    | .bank => none
    | .tile => none
    | _ => if o.pipe = 0 then none else if o.pipe = 1 then some (.sPipeResultWrite g o.id) else some (.lPipeResultWrite g o.id)

/-- The steps that may be due for a group. -/
def groupEvents (g : Nat × Group) : List Instr :=
  List.flatten [if g.2.ops.any (·.pipe == 0) then [.vPipeResultWrite g.1] else [], g.2.ops.filterMap (opEvent g.1),
    if g.2.mq.isEmpty then [] else [.matrixExecute g.1],
    [PSlot.a, .b].flatMap fun sl => if (g.2.slot sl).waits.isEmpty then [] else
      [.fenceComplete g.1 sl, .sleepWake g.1 sl, .promiseMiss g.1 sl, .emulateComplete g.1 sl]]

/-- The delivery of a channel's next message. -/
def chanEvent (c : Nat × Chan) : Option Instr :=
  (mapGet? c.2.whole c.2.recvNo).bind fun m =>
    let a := c.1 / 16
    let b := c.1 % 16
    match m.type with
    | 0 => some (.reqrd a b) | 1 => some (.reqwr a b) | 2 => some (.grant a b) | 3 => some (.fwd a b) | 4 => some (.data a b)
    | 5 => some (.inv a b) | 6 => some (.invack a b) | 7 => some (.recallMsg a b) | 8 => some (.wbdata a b)
    | 9 => some (.backinv a b) | 10 => some (.nack a b) | _ => none

/-- The steps that may be due for a die. -/
def dieEvents (d : Nat × Die) : List Instr :=
  List.flatten [(dedupN (d.2.queue.map Req.set)).map (.requestStart d.1),
    (d.2.mine.filter (·.busyAt.isSome)).map (fun m => .busyResend d.1 m.r.txn),
    if d.2.bq.isEmpty then [] else [.builderDispatch d.1], d.2.serving.map (fun q => .buildRequestComplete d.1 q.1),
    (dedupN (d.2.sliceCe.map (·.1) ++ d.2.tagErr)).map (.sliceRetirement d.1)]

/-- The home moves of pages that have been asked for four times in a row from across the pair link (R363). -/
def moveEvents (s : State) : List Instr := (s.moves.filter fun e => decide (4 ≤ e.2)).flatMap fun e =>
  ((mappers s e.1).take 1).map fun m => .pageHomeMove m.1 m.2.va

/-- The steps that may be due, in the order in which they are tried. -/
def dueEvents (s : State) : List Instr :=
  List.flatten [s.groups.flatMap groupEvents, if s.flits.isEmpty then [] else [.flit 0], s.chans.filterMap chanEvent,
    s.dies.flatMap dieEvents, moveEvents s, (List.range s.posts.length).map .mailboxArrival, s.mboxes.map (fun b => .launchStart b.1),
    s.teams.flatMap (fun t => [.safePoint t.1, .preemptRequest t.1, .sliceExpiry t.1, .teamRestore t.1]),
    s.ctxs.flatMap (fun x => if x.2.mirror.en then [.checkpointCommit x.1, .checkpointTimer x.1] else []),
    if s.invq.isEmpty then [] else [.tlbinvComplete], (s.clusters.filter (·.2.trace.en)).map (fun k => .traceDrain k.1),
    (s.cores.filter fun c => decide (s.threshold ≤ c.2.ce)).map (fun c => .coreRetirement c.1),
    (dedupN (s.poison.map (· / 4096))).map .pageRetirement, [.correctedErrorWindow],
    (s.fns.filter (·.2.busy)).map fun f => .requestComplete f.1]

/-- The agent that makes a step: the die of the group or the builder concerned, else the hub (R257). -/
def agentOf (s : State) (i : Instr) : Nat := match i with
  | .copyComplete g _ => dieOf s g
  | .builderDispatch d => d
  | .buildRequestComplete d _ => d
  | _ => if i.isWord then (s.cur.map fun c => dieOf s c.1).getD 4 else 4

/-- Ask for everything that a step wants (log 13). -/
def askAll (s : State) (agent : Nat) (ws : List Want) : State := ws.foldl (askWant agent) s

/-- A step is made: what companions' homes have resolved for it is used up. -/
def spendServed (s : State) : State := if s.served.isEmpty then s else { s with served := s.served.filter fun e => e.2 % 2 == 0 }

/-- The first step that is due and changes something. One that wants something first is not made; what it wants is asked for,
where that is not done yet (log 13). -/
def nextEvent (s : State) : Option State := firstSome (fun e =>
  let s' := after s (exec e s)
  let s' := if s'.wants.isEmpty then spendServed s' else askAll s (agentOf s e) s'.wants
  if { s' with fresh := s.fresh } = s then none else some s') (dueEvents s)

/-! ### Time and the caches -/

/-- A tick passes, and a core cycle in every quadrant that holds a group. -/
def passTime (s : State) : State :=
  let qs := dedupN ((s.groups.filter fun g => !(getTeam s g.2.team).saved).map fun g => quadKey (getTeam s g.2.team).core g.2.quad)
  { s with tb := (s.tb + 1) % 2 ^ 64, cyc := qs.foldl (fun m k => mapPut m k 0 (mapGetD m k 0 + 1)) s.cyc }

/-- The L1 of a core evicts a line: its dirty bytes go to the next level (R283). -/
def evictL1 (s : State) (core line : Nat) : State :=
  let r := wbL1 s core line
  if r.2 then modCore r.1 core fun c => { c with l1 := mapErase c.l1 line } else r.1

/-- A cluster cache evicts a line (R285). -/
def evictCluster (s : State) (cluster line : Nat) : State :=
  let r := wbCC s cluster line
  if r.2 then modCluster r.1 cluster fun k => { k with cc := mapErase k.cc line } else r.1

/-- The L2 of a die evicts a line: of its own home to external memory. Of another home, the implicit tenure of each part of the
line is released; under handle tenure, which stays, the dirty bytes go home, and once they are there the line leaves (R271,
R286). -/
def evictL2 (s : State) (die line : Nat) : State :=
  let drop (s : State) : State := modDie s die fun d => { d with l2 := mapErase d.l2 line }
  match homeOf (line * 128) with
  | none => s
  | some h =>
    let d := getDie s die
    let parts := d.recs.filter fun r => r.impl && r.home == h && boxWithin r.box (lineBox line)
    let c := getChan s die h
    if h = die ∨ 4 ≤ h ∧ h < 8 then drop (wbL2 s die line)
    else if releasing d line ∨ (d.mine.any fun m => boxMeets m.r.box (lineBox line)) = true then s
    else if !parts.isEmpty then parts.foldl (fun s r => releaseBox s die h r.box (.release none true) true) s
    else if (clGet d.l2 line).dirty ≠ 0 then keepLine s die h line
    else if c.undelivered = 0 ∧ c.held = [] then drop s
    else s

/-- A core's TLB, or a cluster's, replaces what it holds of a page of virtual addresses (R294). -/
def dropTlb (s : State) (cluster : Bool) (k page : Nat) : State :=
  if cluster then modCluster s k fun x => { x with tlb := x.tlb.filter fun e => e.va != page }
  else modCore s k fun x => { x with tlb := x.tlb.filter fun e => e.va != page }

/-! ### Capacities (R283, R285, R286) -/

/-- The set of a line in an L1: 64 sets, by the lowest bits of the line number. R283 does not give the index (DESIGN CHOICE,
log 25). -/
def l1Set (line : Nat) : Nat := line % 64

/-- The slice and set of a line in a die's L2: the slice by R286, the 512 sets by the bits above those four; R286 does not give the
index (DESIGN CHOICE, log 25). -/
def l2Set (line : Nat) : Nat := dataSlice line * 512 + line / 16 % 512

/-- A line of a set that holds more lines than the cache has ways; which of its lines is free (R8, log 25). -/
def victim (fresh ways : Nat) (set : Nat → Nat) (m : FMap CLine) : Option Nat :=
  if m.length ≤ ways then none
  else
    let ls := m.map (·.1)
    let mates (l : Nat) : List Nat := ls.filter fun x => set x == set l
    (ls.find? fun l => decide (ways < (mates l).length)).map fun l => (mates l).getD (Config.victim fresh % (mates l).length) l

/-- Evict lines from one cache until every set fits, or a line waits for tenure at the level below. -/
def trimBy (evict : State → Nat → State) (lines : State → FMap CLine) (ways : Nat) (set : Nat → Nat) : Nat → State → State
  | 0, s => s
  | n + 1, s => match victim s.fresh ways set (lines s) with
    | none => s
    | some l =>
      let s := bump (evict s l)
      if (mapGet? (lines s) l).isSome then s else trimBy evict lines ways set n s

/-- Every cache evicts what its sets do not hold: an L1 in 64 sets of 8 ways, a cluster cache in 512 sets of a way for each bank in
CACHE mode, a slice of the L2 in 512 sets of 14 ways (R283, R285, R286). -/
def trim (s : State) : State :=
  let s := s.cores.foldl (fun s c => trimBy (evictL1 · c.1) (fun s => (getCore s c.1).l1) 8 l1Set c.2.l1.length s) s
  let s := s.clusters.foldl (fun s k =>
    trimBy (evictCluster · k.1) (fun s => (getCluster s k.1).cc) (cacheWays k.2) ccSet k.2.cc.length s) s
  s.dies.foldl (fun s d => trimBy (evictL2 · d.1) (fun s => (getDie s d.1).l2) 14 l2Set d.2.l2.length s) s

/-! ### Turns -/

/-- A step that wants nothing first is made. In place of one that does, what it wants is asked for; once that is done, the
steps that are due go on, or time passes, until it can be made (log 13). -/
def orAsk (s : State) (agent : Nat) : Host.Outcome State Fault Refusal → Host.Outcome State Fault Refusal
  | .next r =>
    if r.wants.isEmpty then .next (spendServed r)
    else
      let a := askAll s agent r.wants
      .next (if a = s then (nextEvent s).getD (passTime s) else a)
  | o => o

/-- A slot that issues or traps now, the first after the current one in turn. -/
def nextSlot (s : State) : Option (Nat × PSlot) :=
  (match s.cur with
    | none => allSlots s
    | some c => slotsAfter s c).find? fun g => slotGoes s g.1 g.2

/-- What the held chains of all slots wait for is set going, and launches whose end a full redo log delayed end. -/
def nudgeAll (s : State) : State := (allSlots s).foldl (fun s g => nudgeSlot s g.1 g.2) (settleLaunches s)

/-- Between two chains: a step that is due, or else a tick passes; then the slot in turn issues. So neither a slot that can
always issue nor the steps that are due keep the others waiting (R21, R249). -/
def between (s : State) : Host.Outcome State Fault Refusal :=
  let s := { nudgeAll s with idling := false }
  .next ((nextEvent s).getD (passTime s))

/-- What happens when the slot in turn cannot issue: a step that is due, else the chain of the next slot that can, else
time passes. -/
def idle (s : State) : Host.Outcome State Fault Refusal :=
  let s := nudgeAll s
  match nextEvent s with
  | some s' => .next s'
  | none => match nextSlot s with
    | some (g, sl) => orAsk s (dieOf s g) (issueAt s g sl)
    | none => .next (passTime s)

/-- The slot of a group that issues where a move names one: where both can issue, the one that did not issue last (R21). -/
def fairSlot (s : State) (g : Nat) (sl : PSlot) : PSlot :=
  if (getGroup s g).turn = sl ∧ slotGoes s g (otherSlot sl) = true then otherSlot sl else sl

/-- Perform a move. -/
def performMove (s : State) : Move → Host.Outcome State Fault Refusal
  | .issue g sl => issueAt s g (fairSlot s g sl)
  | .event i => if i.isWord then .next s else exec i s
  | .arrive g op => .next (arriveOp s g op)
  | .cycles quad n => .next { s with cyc := mapPut s.cyc quad 0 (mapGetD s.cyc quad 0 + n) }
  | .ticks n => .next { s with tb := (s.tb + n) % 2 ^ 64 }
  | .evictL1 core line => .next (evictL1 s core line)
  | .evictCluster cluster line => .next (evictCluster s cluster line)
  | .evictL2 die line => .next (evictL2 s die line)
  | .train half => .next (startTraining s half)
  | .dropTlb cluster k page => .next (dropTlb s cluster k page)
  | .raiseSvn v => .next (raiseSvn s v)

/-- The agent that makes a move. -/
def moveAgent (s : State) : Move → Nat
  | .issue g _ => dieOf s g
  | .event i => agentOf s i
  | _ => 4

/-- A turn once the caches fit: the first move of the agenda; else bring-up; else, after a chain, what is due or a tick; else
the slot in turn, if it can issue. -/
def turnFit (s : State) : Host.Outcome State Fault Refusal :=
  match s.agenda with
  | m :: r => orAsk s (moveAgent s m) (performMove { s with agenda := r } m)
  | [] =>
    if s.phase < 6 ∧ s.fail = 0 then .next (advanceBoot s)
    else match s.cur with
      | some (g, sl) => if s.idling then between s else if slotGoes s g sl then orAsk s (dieOf s g) (issueAt s g sl) else idle s
      | none => idle s

/-- The turn of a state: what the caches do not hold leaves them first. -/
def turn (s : State) : Host.Outcome State Fault Refusal := turnFit (trim s)

end Sys2Proof.Machine
end

