-- ==== Sys2Proof/Machine/Boot.lean ====
section
/-! DEFINITION. A program loaded from outside: one context with one group that runs one packet (log 1). -/
namespace Sys2Proof.Machine

open Sys2Proof

/-- Where the packet stands. -/
def bootCode : Nat := 0x8000

/-- The page tables: one 128 KiB page at virtual and physical address 0, readable, writable and executable (R290, R291). -/
def bootTables : List (Nat × Nat) := [(0x1000, 0x2001), (0x2000, 0x3001), (0x3000, 0x4001), (0x4000, 0x3F)]

/-- The launch record: one team of one group, with one work item. -/
def bootRec : LRec :=
  { entry := bootCode, handler := 0x9000, dsbase := 0x10000, lext := 1, regs := 15, tiles := 8, accs := 4, d := 64, scratch := 256, bars := 8,
    levels := [{}] }

/-- The words of a packet that holds one instruction: a literal after it where it consumes one, and NOPs. -/
def bootPacket (w : Nat) : List Nat := [if consumesLit (w % 2 ^ 32) then 0x40 else 0, w % 2 ^ 32, w / 2 ^ 32 % 2 ^ 32, 0]

/-- Put 8-byte words in memory. -/
def putWords (n : Nat) (m : List Host.Cell) (ws : List (Nat × Nat)) : List Host.Cell :=
  ws.foldl (fun m w => (withAddrs w.1 (leBytes n w.2)).foldl (fun m e => memPut m e.1 e.2) m) m

/-- The machine with its bring-up done, a system context, its launch and its group placed, and a packet to run. -/
def bootWith (s : State) (w : Nat) : State :=
  let m := putWords 8 s.mem bootTables
  let m := putWords 4 m (((List.range 4).map fun i => bootCode + 4 * i).zip (bootPacket w))
  let g := newGroup bootRec 0 0 0 0
  let e : TlbE :=
    { va := 0, size := 2 ^ 17, pa := 0, home := 0, ctx := 0, ten := 0, w := true, x := true, dset := true, winR := true, winW := true,
      winX := true }
  { s with
    agenda := []
    cur := some (0, .a)
    stuck := none
    phase := 6
    d3 := false
    mem := m
    ctxs := mapSet s.ctxs 0 { num := 0, floor := 2, st := 1, root := 0x1000, sys := true }
    launches := mapSet s.launches 0 { lr := bootRec }
    teams := mapSet s.teams 0 {}
    wins := mapSet s.wins 0 { size := 4096, bars := 8 }
    groups := mapSet s.groups 0 g
    cores := mapSet s.cores 0 { tlb := [e] } }

end Sys2Proof.Machine
end

