-- ==== Sys2Proof/Machine/Step.lean ====
section
/-! DEFINITION. One step of the machine, and the host's view of the next instruction. -/
namespace Sys2Proof.Machine

open Sys2Proof

/-- A turn that met an address at which nothing is placed is a fault (log 9). -/
def settle : Host.Outcome State Fault Refusal → Host.Outcome State Fault Refusal
  | .next s => match s.stuck with
    | some f => .fault f
    | none => .next s
  | .fault f => .fault f
  | .refused r => .refused r

/-- One step: the turn of the state. -/
def step (s : State) : Host.Outcome State Fault Refusal := settle (turn s)

/-- The state with an instruction placed where the next step fetches (log 1). -/
def State.withFetchWord (s : State) (_nbits w : Nat) : State := bootWith s w

end Sys2Proof.Machine
end

