-- ==== Sys2Proof/Safety.lean ====
section
/-! DEFINITION. The terms in which claims about the machine are made: when an instruction alone in its chain issues,
the state that it leaves, the canonical forms that a state keeps, and what a run without a stop is. -/
namespace Sys2Proof.Machine

open Sys2Proof

/-! ### One instruction as a chain -/

/-- The state in which a chain of a group issues: the V-pipe results that are due are written (R59). -/
def landed (s : State) (gid : Nat) : State := modGroup s gid fun g => g.landV s.fresh (cycOf s gid)

/-- The slot of a group as its chain finds it. -/
def slotNow (s : State) (gid : Nat) (sl : PSlot) : Slot := (getGroup (landed s gid) gid).slot sl

/-- The chain of a slot that holds one instruction. -/
def soleCh (s : State) (gid : Nat) (sl : PSlot) (m : Sem) : Chain := [(pcSlot ((getGroup s gid).slot sl).pc, m)]

/-- The address of the chain that follows (R44). -/
def soleNext (s : State) (gid : Nat) (sl : PSlot) : Nat :=
  nextChain s.word (slotNow s gid sl).pc (pcSlot ((getGroup s gid).slot sl).pc)

/-- What the instruction knows at issue (R56). -/
def soleCtx (s : State) (gid : Nat) (sl : PSlot) (m : Sem) : Ctx :=
  { wordCtx (landed s gid) gid sl (chainPn (slotNow s gid sl) (soleCh s gid sl m)) (soleNext s gid sl) 0
      (pcSlot ((getGroup s gid).slot sl).pc) with ctl := m.pipe == 4 }

/-- The state with the translations of the instruction's accesses made (R294). -/
def soleFilled (s : State) (gid : Nat) (sl : PSlot) (m : Sem) : State :=
  fillAll (landed s gid) gid (m.addrs (landed s gid) (soleCtx s gid sl m))

/-- The divergence-stack entry that the instruction pushes. -/
def solePush (s : State) (gid : Nat) (sl : PSlot) (m : Sem) : List (Nat × Bool) :=
  if m.push (soleFilled s gid sl m) (soleCtx s gid sl m) then [((getGroup (soleFilled s gid sl m) gid).stack.length, true)] else []

/-- The state in which the instruction's causes of steps 8 and 9 are found, with the stack access translated. -/
def soleReady (s : State) (gid : Nat) (sl : PSlot) (m : Sem) : State := stackFill (soleFilled s gid sl m) gid (solePush s gid sl m)

/-- The state in which the effect starts: the slot stands at the next chain, and the issue cycle is past (R22, R58). -/
def soleStart (s : State) (gid : Nat) (sl : PSlot) (m : Sem) : State :=
  chainStart (bump (soleReady s gid sl m)) gid sl (soleCh s gid sl m) (soleNext s gid sl)

/-- The state that the effect leaves. -/
def soleEff (s : State) (gid : Nat) (sl : PSlot) (m : Sem) : State := m.eff (soleCtx s gid sl m) (soleStart s gid sl m)

/-- The stack entries that the rules of R26 reload or exchange after the effect. -/
def soleTouch (s : State) (gid : Nat) (sl : PSlot) (m : Sem) : List (Nat × Bool) :=
  let s' := soleEff s gid sl m
  rulesTouch (stackLook s' gid) (ruleFuel (getGroup s' gid)) (getGroup s' gid)

/-- The state after an instruction alone in its chain: its effect, then the rules of R26 and the retirement of R28, then
the other slot's turn (R21). -/
def soleRan (s : State) (gid : Nat) (sl : PSlot) (m : Sem) : State := nextCur (afterChain (soleEff s gid sl m) gid sl) gid sl

/-- The instruction `m`, alone in the chain of the current slot, issues and has its effect: the slot is ready, the
registers that it names are allocated, the die implements it, nothing holds it, no lane has a cause of step 8 and the
instruction none of step 9, and the stack entries concerned are translated (R15, R60, R64, R312, R421). -/
abbrev Issues (s : State) (gid : Nat) (sl : PSlot) (m : Sem) : Prop :=
  s.cur = some (gid, sl) ∧ slotReady s gid sl = true ∧
  boundCause (lrecOf (landed s gid) gid) m = none ∧ emulCause (landed s gid) m (dieOf (landed s gid) gid) = none ∧
  canIssue (landed s gid) gid sl (soleCh s gid sl m) = true ∧ m.hold (landed s gid) (soleCtx s gid sl m) = false ∧
  lateCause (soleFilled s gid sl m) gid (chainPn (slotNow s gid sl) (soleCh s gid sl m)) [(soleCtx s gid sl m, m)] = none ∧
  stackCause (soleReady s gid sl m) gid (slotNow s gid sl).mask (solePush s gid sl m) = none ∧
  stackCause (stackFill (soleReady s gid sl m) gid (soleTouch s gid sl m)) gid (slotNow s gid sl).mask (soleTouch s gid sl m) = none

/-- An instruction behaves as the word `m`: where `m` issues, the instruction leaves the state that `m` leaves. -/
def Runs (i : Instr) (m : Sem) : Prop := ∀ s gid sl, Issues s gid sl m → exec i s = .next (soleRan s gid sl m)

/-- An instruction behaves as the word `m`, whose effect leaves what `P` says of its context, the state in which the effect
starts and the state that it leaves. -/
def Acts (i : Instr) (m : Sem) (P : Ctx → State → State → Prop) : Prop :=
  ∀ s gid sl, Issues s gid sl m →
    exec i s = .next (soleRan s gid sl m) ∧ P (soleCtx s gid sl m) (soleStart s gid sl m) (soleEff s gid sl m)

/-! ### What an effect leaves -/

/-- Nothing but one group differs. -/
def onlyGroup (s t : State) (gid : Nat) : Prop :=
  { t with groups := s.groups } = s ∧ ∀ g, g ≠ gid → getGroup t g = getGroup s g

/-- Nothing but one slot of one group differs, and that slot is now `v`. -/
def onlySlot (s t : State) (gid : Nat) (sl : PSlot) (v : Slot) : Prop :=
  onlyGroup s t gid ∧ getGroup t gid = (getGroup s gid).setSlot sl v

/-- The byte that the last of a list of stores to an address leaves there, if one of them stores there. -/
def lastByte (stores : List (Nat × Byte)) (pa : Nat) : Option Byte := (stores.reverse.find? fun e => e.1 == pa).map (·.2)

/-- Lanes perform an atomic on a window one after another: the window after them, and each lane's old bytes (R143, R152). -/
def atomTurns (op n : Nat) (o : Nat → Nat) (x : Nat → List Byte) : List Nat → Win → Win × List (Nat × List Byte)
  | [], w => (w, [])
  | L :: r, w =>
    let old := winBytes w (o L) n
    let q := atomTurns op n o x r (w.put (o L) (atomBytes faddAtomic op n old (x L)))
    (q.1, (L, old) :: q.2)

/-- Register units were written within the step, and no other register changed. -/
def wroteNow (s t : State) (gid : Nat) (vals : List (Nat × Word × Bool)) : Prop :=
  (∀ e ∈ vals, mapGetD (getGroup t gid).regs e.1 0 = e.2.1) ∧
  ∀ u, (∀ e ∈ vals, e.1 ≠ u) → mapGetD (getGroup t gid).regs u 0 = mapGetD (getGroup s gid).regs u 0

/-- One operation was added to a group, and nothing else differs but what the path waits for. -/
def addedOp (s t : State) (gid : Nat) (sl : PSlot) (o : Op) (wait : Bool) : Prop :=
  onlyGroup s t gid ∧
  getGroup t gid =
    { ((getGroup s gid).modSlot sl fun v => if wait then { v with waits := v.waits ++ [.op (getGroup s gid).nextOp] } else v) with
      ops := (getGroup s gid).ops ++ [(getGroup s gid).newOp o], nextOp := (getGroup s gid).nextOp + 1 }

/-- The lanes `keep` of the slot stay and stand at `keepPc`, the lanes `move` take a path of their own at `movePc`: the other
slot where it is FREE, else an entry pushed on the divergence stack (R102). -/
def splitPath (s t : State) (c : Ctx) (keep : Mask) (keepPc : Nat) (move : Mask) (movePc : Nat) : Prop :=
  let v := (getGroup s c.gid).slot c.sl
  let o := (getGroup s c.gid).slot (otherSlot c.sl)
  let g := getGroup t c.gid
  g.slot c.sl = { v with mask := keep, pc := keepPc } ∧
  (o.st = .free → g.slot (otherSlot c.sl) = { pc := movePc, mask := move, st := .active, ja := v.ja, jd := v.jd } ∧
    g.stack = (getGroup s c.gid).stack) ∧
  (o.st ≠ .free → g.slot (otherSlot c.sl) = o ∧
    g.stack = { mask := move, pc := movePc, ja := v.ja, jd := v.jd } :: (getGroup s c.gid).stack)

/-- One matrix word joined the end of its group's queue, and nothing else differs (R169). -/
def joinsQueue (w : MWord) (c : Ctx) (s t : State) : Prop :=
  onlyGroup s t c.gid ∧
  getGroup t c.gid = { getGroup s c.gid with mq := (getGroup s c.gid).mq ++ [w], nextOp := (getGroup s c.gid).nextOp + 1 }

/-- No slot and no divergence-stack entry of a group is deeper than 255 joins: JD is 8 bits wide (R24, R106). -/
def joinDepths (g : Group) : Prop := g.a.jd ≤ 255 ∧ g.b.jd ≤ 255 ∧ ∀ e ∈ g.stack, e.jd ≤ 255

/-- A group that has not retired, with an empty divergence stack, whose slots do not merge: no rule of R26 applies to it. -/
def calm (g : Group) : Prop := g.retired = false ∧ g.stack = [] ∧ ruleMerge g = none

/-- Where a group is traced and its trace bank has lost nothing and has room, a SYNC of the state `s` stands at the bank's end in
`t` (R397, R398). -/
def syncWritten (s t : State) (gid reason mark : Nat) (sl : PSlot) : Prop := ∀ k, traceCluster s gid = some k →
  (getGroup s gid).trace.on = true → (getCluster s k).trace.loss = 0 →
  let b := (getCluster s k).trace.bank
  (getBank (getCluster s k) b).fifo.length + 12 ≤ fifoCap → (getBank (getCluster t k) b).fifo =
    (getBank (getCluster s k) b).fifo ++ (syncWords s gid (getGroup s gid) reason mark (some sl)).map (BitVec.ofNat 32)

/-! ### Shapes of instruction words -/

/-- The 32-bit word that a source operand gives a lane (R82). -/
def Ctx.w (c : Ctx) (a : Src) (L : Nat) : Word := BitVec.ofNat 32 (c.get32 a L)

/-- The 64-bit word that a source operand gives a lane (R82). -/
def Ctx.w64 (c : Ctx) (a : Src) (L : Nat) : BitVec 64 := BitVec.ofNat 64 (c.get64 a L)

/-- A register of a lane as the chain reads it. -/
def Ctx.rw (c : Ctx) (r L : Nat) : Word := readUnit c.g c.k (vunit r L)

/-- One result register: each active lane's unit with its value, unmarked. -/
def Ctx.outW (c : Ctx) (d : Nat) (f : Nat → Word) : List (Nat × Word × Bool) := c.lanes.map fun L => (vunit d L, f L, false)

/-- A result pair: the low word in register d, the high word in register d + 1. -/
def Ctx.outP (c : Ctx) (d : Nat) (f : Nat → BitVec 64) : List (Nat × Word × Bool) :=
  c.lanes.flatMap fun L => [(vunit d L, (f L).setWidth 32, false), (vunit (d + 1) L, (f L >>> 32).setWidth 32, false)]

/-- A V-pipe word with one result register (R59, R82). -/
def vWord (d : Nat) (reads : List Nat) (f : Ctx → Nat → Word) : Sem :=
  { pipe := 0, reads := reads, writes := [d], eff := fun c => putV c (c.outW d (f c)) }

/-- A V-pipe word with a result pair. -/
def vPair (d : Nat) (reads : List Nat) (f : Ctx → Nat → BitVec 64) : Sem :=
  { pipe := 0, reads := reads, writes := [d, d + 1], eff := fun c => putV c (c.outP d (f c)) }

/-- An S-pipe word with one result register: it counts on f11 until it is written (R59). -/
def sWord (d : Nat) (reads : List Nat) (f : Ctx → Nat → Word) : Sem :=
  { pipe := 1, reads := reads, writes := [d], flags := [11], eff := fun c => putS c (c.outW d (f c)) }

/-- V-pipe words of one, two and three 32-bit sources, the third being the destination (R82, R83). -/
def vWord1 (d : Nat) (a : Src) (f : Word → Word) : Sem := vWord d (srcRegs a) fun c L => f (c.w a L)
def vWord2 (d : Nat) (a b : Src) (f : Word → Word → Word) : Sem := vWord d (srcRegs a ++ srcRegs b) fun c L => f (c.w a L) (c.w b L)
def vWord3 (d : Nat) (a b : Src) (f : Word → Word → Word → Word) : Sem :=
  vWord d (srcRegs a ++ srcRegs b ++ [d]) fun c L => f (c.w a L) (c.w b L) (c.rw d L)

/-- The 32-bit word whose bit i is p i. -/
def wordOf (p : Nat → Bool) : Word := maskOf p

/-- S-pipe words of one and two 32-bit sources (R126). -/
def sWord1 (d : Nat) (a : Src) (f : Word → Word) : Sem := sWord d (srcRegs a) fun c L => f (c.w a L)
def sWord2 (d : Nat) (a b : Src) (f : Word → Word → Word) : Sem := sWord d (srcRegs a ++ srcRegs b) fun c L => f (c.w a L) (c.w b L)

/-- An S-pipe word with a result pair. -/
def sPair (d : Nat) (reads : List Nat) (f : Ctx → Nat → BitVec 64) : Sem :=
  { pipe := 1, reads := reads, writes := [d, d + 1], flags := [11], eff := fun c => putS c (c.outP d (f c)) }

/-- The result of a function over patterns, as a word. -/
def natFn1 (f : Nat → Nat) (x : Word) : Word := BitVec.ofNat 32 (f x.toNat)
def natFn2 (f : Nat → Nat → Nat) (x y : Word) : Word := BitVec.ofNat 32 (f x.toNat y.toNat)
def natFn3 (f : Nat → Nat → Nat → Nat) (x y z : Word) : Word := BitVec.ofNat 32 (f x.toNat y.toNat z.toNat)

/-! ### Exact values -/

/-- The exact value of a number, in units of 2^b (R117). -/
def FVal.units (b : Int) : FVal → Int
  | .fin s m q => (if s then -1 else 1) * ((m * 2 ^ (q - b).toNat : Nat) : Int)
  | _ => 0

/-- The value is a number, a zero included. -/
def FVal.number : FVal → Prop
  | .nan => False
  | .inf _ => False
  | _ => True

/-- The exponent of the least positive number of a format that has zeros (R117). -/
def tinyExp (f : FFmt) : Int := 1 - ((fmtOf f).bias : Int) - (fmtOf f).k

/-- The place of an F32 pattern that is no NaN among the real numbers, in units of 2^-149; an infinity lies beyond every number. -/
def order32 (x : Nat) : Int := match decodeF .f32 x with
  | .inf s => (if s then -1 else 1) * 2 ^ 300
  | v => v.units (-149)

/-- How the dyadic number n * 2^e compares with N / D * 2^q, D not 0. -/
def againstRatio (N D : Nat) (q : Int) (n : Nat) (e : Int) : Ordering := compare (n * D * 2 ^ (e - q).toNat) (N * 2 ^ (q - e).toNat)

/-- How n * 2^e, not negative, compares with the square root of N / D * 2^q. -/
def againstRoot (N D : Nat) (q : Int) (n : Nat) (e : Int) : Ordering := againstRatio N D q (n * n) (2 * e)

/-- RoundInt of R120: the mode rounds a positive real number, taken with a sign, to n units of 2^e; `at_` says how dyadic numbers
compare with it. -/
def roundsInt (r : Rnd) (s : Bool) (at_ : Nat → Int → Ordering) (n : Nat) (e : Int) : Prop :=
  let down := at_ n e ≠ .gt ∧ at_ (n + 1) e = .gt
  let up := at_ n e ≠ .lt ∧ (n = 0 ∨ at_ (n - 1) e = .lt)
  match r with
  | .rne => at_ (2 * n + 1) (e - 1) ≠ .lt ∧ (n = 0 ∨ at_ (2 * n - 1) (e - 1) ≠ .gt) ∧
      (at_ (2 * n + 1) (e - 1) = .eq ∨ (n ≠ 0 ∧ at_ (2 * n - 1) (e - 1) = .eq) → n % 2 = 0)
  | .rtz => down
  | .rdn => if s then up else down
  | .rup => if s then down else up

/-- RoundTo of R120: a positive real number, taken with a sign, rounds to a pattern of the format: in its binade, which is no lower
than that of the least normal number, to a zero, to n units in the last place, or, beyond the largest number, to what the overflow
gives. -/
def roundsTo (f : FFmt) (r : Rnd) (sat s : Bool) (at_ : Nat → Int → Ordering) (p : Nat) : Prop :=
  let t := fmtOf f
  ∃ (e : Int) (n : Nat), t.emin ≤ e ∧ at_ 1 (e + 1) = .gt ∧ (e = t.emin ∨ at_ 1 e ≠ .gt) ∧ roundsInt r s at_ n (e - t.k) ∧
    (n = 0 → p = signBit t s) ∧
    (n ≠ 0 → t.top * 2 ^ (t.emax - e).toNat < n * 2 ^ (e - t.emax).toNat → p = overflowPat f s r sat) ∧
    (n ≠ 0 → n * 2 ^ (e - t.emax).toNat ≤ t.top * 2 ^ (t.emax - e).toNat → p < 2 ^ t.w ∧ ∃ m q, decodeF f p = .fin s m q ∧
      m * 2 ^ (q - (e - t.k)).toNat = n * 2 ^ (e - t.k - q).toNat)

/-- The condition of an integer compare (R90). -/
def wordCond (m : ICond) (x y : Word) : Bool := match m with
  | .eq => x == y
  | .ne => x != y
  | .ltS => decide (x.toInt < y.toInt)
  | .leS => decide (x.toInt ≤ y.toInt)
  | .ltN => decide (x.toNat < y.toNat)
  | .leN => decide (x.toNat ≤ y.toNat)

/-- A lane operation's reduction operator (R97). -/
def wordRed (m : RedOp) (x y : Word) : Word := match m with
  | .add => x + y
  | .minS => if x.toInt ≤ y.toInt then x else y
  | .maxS => if x.toInt ≤ y.toInt then y else x
  | .minN => if x.toNat ≤ y.toNat then x else y
  | .maxN => if x.toNat ≤ y.toNat then y else x
  | .and => x &&& y
  | .or => x ||| y
  | .xor => x ^^^ y

/-- The reduction of a list of words, 0 where it is empty. -/
def wordFold (m : RedOp) : List Word → Word
  | [] => 0
  | x :: r => r.foldl (wordRed m) x

/-- The source of another lane where that lane is active, else the lane's own (R95). -/
def Ctx.pick (c : Ctx) (a : Src) (L t : Nat) : Word := if c.act.getLsbD t then c.w a t else c.w a L

/-- The selected byte of BYTSEL: bits 2 to 0 of the selector name a byte of the 64-bit value, bits 4 and 3 what is done with
it (R92). -/
def pickByte (B : BitVec 64) (sel : BitVec 8) : BitVec 8 :=
  let x : BitVec 8 := (B >>> (8 * (sel.toNat % 8))).setWidth 8
  if sel.toNat / 8 % 4 = 0 then x
  else if sel.toNat / 8 % 4 = 1 then 0
  else if sel.toNat / 8 % 4 = 2 then 0xFF
  else if x.msb then 0xFF else 0

/-- No rule of R26 applies to the group. -/
def settled (s : State) (gid : Nat) : Prop := ruleStep (stackLook s gid) (getGroup s gid) = none

/-! ### Causes -/

/-- The trap that the instruction `m`, alone in the chain of the current slot, takes for a cause of steps 6 to 9: the state
in which it is taken, the packet slot reported, the address at which the path resumes after the handler, and the cause
(R64, R114). -/
def soleCause (s : State) (gid : Nat) (sl : PSlot) (m : Sem) : Option (State × Nat × Nat × Cause) :=
  let pc := (slotNow s gid sl).pc
  if s.cur ≠ some (gid, sl) ∨ slotReady s gid sl = false then none
  else match earlyCause (landed s gid) gid (soleCh s gid sl m) with
    | some (w, c) => some (landed s gid, w, pc, c)
    | none =>
      if !canIssue (landed s gid) gid sl (soleCh s gid sl m) || m.hold (landed s gid) (soleCtx s gid sl m) then none
      else (lateCause (soleFilled s gid sl m) gid (chainPn (slotNow s gid sl) (soleCh s gid sl m)) [(soleCtx s gid sl m, m)]).map
        fun r => (soleFilled s gid sl m, r.1, resumeOf r.2 pc (soleNext s gid sl), r.2)

/-! ### Operations and messages that come to their end -/

/-- An operation whose results no other operation contends for: it writes the units of its values, each once (R63). -/
def Op.plain (o : Op) : Prop := o.units = o.vals.map (·.1) ∧ (o.vals.map (·.1)).Nodup ∧ o.drop = [] ∧ o.clash = []

/-- A group that has not retired, with an empty divergence stack, whose slots do not merge when a wait of theirs is over. -/
def quietFor (g : Group) (w : Wait) : Prop :=
  g.retired = false ∧ g.stack = [] ∧ ruleMerge { g with a := g.a.unblock w, b := g.b.unblock w } = none

/-- An operation of a group is over: the values are in the registers, no path waits for it, and every other register, every
other group and external memory are as before. -/
def opLanded (s t : State) (gid id : Nat) (vals : List (Nat × Word × Bool)) : Prop :=
  wroteNow s t gid vals ∧ (getGroup t gid).op? id = none ∧
  (∀ sl, (getGroup t gid).slot sl = ((getGroup s gid).slot sl).unblock (.op id)) ∧ t.mem = s.mem ∧
  ∀ h, h ≠ gid → getGroup t h = getGroup s h

/-- The message that a channel delivers next, of a type, where its sender keeps none back. -/
def dueMsg (s : State) (src dst type : Nat) (body : List Byte) : Prop :=
  mapGet? (getChan s src dst).whole (getChan s src dst).recvNo = some { type := type, body := body } ∧ (getChan s src dst).held = []

/-- A sender may send a message to an agent now: fewer than 32,768 are on their way (R261). -/
def hasRoom (s : State) (src dst : Nat) : Prop := (getChan s src dst).undelivered < 32768 ∧ (getChan s src dst).held = []

/-- One more flit is on its way, the first of a message of a type to an agent. -/
def sentFlit (s t : State) (dst type : Nat) (f : Flit) : Prop :=
  t.flits = s.flits ++ [f] ∧ f.dst = dst ∧ f.type = type ∧ f.fidx = 0

/-- A die holds one line of another home under one record in a state, and nothing of it waits in the caches above its L2. -/
def holdsLine (s : State) (die line : Nat) (st : HSt) : Prop :=
  (∃ r, (getDie s die).recs = [r] ∧ r.box = lineBox line ∧ r.st = st) ∧ storing s die = [] ∧
  (∀ c ∈ s.cores, dieOfCore c.1 ≠ die) ∧ ∀ k ∈ s.clusters, k.1 / 8 ≠ die

/-- Flits that carry the dirty bytes of a cached line to an agent, in one Data or WbData message of a KIND that answers a request; no
flit where no byte is dirty (R263, R269). -/
def carriesDirty (c : CLine) (line dst type kind : Nat) (q : Req) (fs : List Flit) : Prop :=
  let d := dataOfBody (fs.flatMap (·.body))
  (c.dirtyOffs = [] → fs = []) ∧
  (c.dirtyOffs ≠ [] → fs.length = 3 ∧ (∀ f ∈ fs, f.dst = dst ∧ f.type = type) ∧ d.line = line * 128 ∧ d.txn = q.txn ∧ d.req = q.req ∧
    d.kind = kind ∧ ∀ i, i < 128 → bit d.mask i = bit c.dirty i ∧ (bit c.dirty i = true → d.data.getD i 0 = mapGetD c.data i 0))

/-- A message of the pair protocol at a half that is there, with the next SEQ, a PTYPE of the table and the version in force, in one
of some states (R355). -/
def hdrOk (s : State) (half : Nat) (h : PairHdr) (sts : List Nat) : Prop :=
  halfThere s half = true ∧ h.rsv = false ∧ h.seq = (getHalf s half).seqIn ∧ h.ver = (getHalf s half).ver ∧
  sts.contains (getHalf s half).st = true ∧ (getHalf s half).st ≠ 0 ∧ (getHalf s half).st ≠ 6

/-- The last message that a half sent. -/
def lastOut (s : State) (half : Nat) : Option PairOut := (getHalf s half).out.getLast?

/-- The machine holds nothing that a companion could share: no context, no cached line, no tenure. -/
def idlePart (s : State) : Prop := s.ctxs = [] ∧ s.cores = [] ∧ s.clusters = [] ∧ s.dies = []

/-- A request block at a host address that a function may give now, with its status (R376). -/
def hreqReady (s : State) (fn addr st : Nat) : Prop :=
  fnLive s fn = true ∧ s.phase = 6 ∧ (getFn s fn).busy = false ∧ addr % 64 = 0 ∧ addr < 2 ^ 43 ∧
  requestStatus s fn (blockAt s addr) = st

/-- The state in which the Pavilion executes a parked chain: the wait is lifted, the die has every instruction (R7). -/
def emulReady (s : State) (gid : Nat) (sl : PSlot) : State :=
  modDie (modTeam (modSlot s gid sl fun v => { v with waits := v.waits.filter (· != .emulate) }) (getGroup s gid).team
    fun t => { t with preempt := none }) (dieOf s gid) fun d => { d with level := 2 }

/-! ### Forms that a state keeps -/

/-- The sparse tables of a state are in canonical form: memory by `Memory.wf`, the others with strictly rising keys. -/
def State.wf (s : State) : Bool :=
  Memory.wf s.mem && mapWf s.groups && mapWf s.teams && mapWf s.wins && mapWf s.launches && mapWf s.ctxs

/-! ### Safe runs -/

/-- A run of n steps that meets no fault and no refusal, from one state to another. -/
inductive RunsTo : Nat → State → State → Prop where
  | zero (s : State) : RunsTo 0 s s
  | more {n : Nat} {s t u : State} : step s = .next t → RunsTo n t u → RunsTo (n + 1) s u

/-- The next n steps from a state meet no fault and no refusal. -/
def safeFor : Nat → State → Bool
  | 0, _ => true
  | n + 1, s => match step s with
    | .next t => safeFor n t
    | .fault _ => false
    | .refused _ => false

end Sys2Proof.Machine
end

