-- ==== Sys2Proof/Certificates/Slice0/Obligations.lean ====
section
/-! DEFINITION. The statements about this machine that its proofs are to establish. -/

open Sys2Proof Sys2Proof.Machine

/-! ### Integer and bit instructions -/

/-- R84 and R85: MOV and the arithmetic and logic forms give each active lane the result of the table, from x = a, y = b and
z = the old destination; IADD64 adds its second operand as a pair, sign-extended or zero-extended, and IMAD64 adds the product
to the pair. The chain completes with exactly that V-pipe result pending. -/
def Obligations.IntegerResults : Prop := ∀ (d : Nat) (a b : Src),
  Runs (.mov d a false) (vWord1 d a fun x => x) ∧
  Runs (.mov d a true) (vPair d (srcRegs64 a) fun c L => c.w64 a L) ∧
  Runs (.iadd d a b .wrap) (vWord2 d a b fun x y => x + y) ∧
  Runs (.iadd d a b .s32) (vWord2 d a b fun x y => BitVec.ofInt 32 (clampI (x.toInt + y.toInt) (-2 ^ 31) (2 ^ 31 - 1))) ∧
  Runs (.iadd d a b .n32) (vWord2 d a b fun x y => BitVec.ofNat 32 (min (x.toNat + y.toNat) (2 ^ 32 - 1))) ∧
  Runs (.isub d a b .wrap) (vWord2 d a b fun x y => x - y) ∧
  Runs (.isub d a b .s32) (vWord2 d a b fun x y => BitVec.ofInt 32 (clampI (x.toInt - y.toInt) (-2 ^ 31) (2 ^ 31 - 1))) ∧
  Runs (.isub d a b .n32) (vWord2 d a b fun x y => BitVec.ofNat 32 (x.toNat - y.toNat)) ∧
  Runs (.imul d a b) (vWord2 d a b fun x y => x * y) ∧
  Runs (.imulh d a b .s) (vWord2 d a b fun x y => ((x.signExtend 64 * y.signExtend 64) >>> 32).setWidth 32) ∧
  Runs (.imulh d a b .n) (vWord2 d a b fun x y => ((x.setWidth 64 * y.setWidth 64) >>> 32).setWidth 32) ∧
  Runs (.imad d a b) (vWord3 d a b fun x y z => x * y + z) ∧
  Runs (.imin d a b .s) (vWord2 d a b fun x y => if x.toInt ≤ y.toInt then x else y) ∧
  Runs (.imin d a b .n) (vWord2 d a b fun x y => if x.toNat ≤ y.toNat then x else y) ∧
  Runs (.imax d a b .s) (vWord2 d a b fun x y => if x.toInt ≤ y.toInt then y else x) ∧
  Runs (.imax d a b .n) (vWord2 d a b fun x y => if x.toNat ≤ y.toNat then y else x) ∧
  Runs (.iabsd d a b .s) (vWord2 d a b fun x y => BitVec.ofNat 32 (x.toInt - y.toInt).natAbs) ∧
  Runs (.iabsd d a b .n) (vWord2 d a b fun x y => BitVec.ofNat 32 ((x.toNat : Int) - y.toNat).natAbs) ∧
  Runs (.land d a b) (vWord2 d a b fun x y => x &&& y) ∧
  Runs (.lor d a b) (vWord2 d a b fun x y => x ||| y) ∧
  Runs (.lxor d a b) (vWord2 d a b fun x y => x ^^^ y) ∧
  Runs (.landn d a b) (vWord2 d a b fun x y => x &&& ~~~y) ∧
  Runs (.iadd64 d a b .b64) (vPair d (srcRegs64 a ++ srcRegs64 b) fun c L => c.w64 a L + c.w64 b L) ∧
  Runs (.iadd64 d a b .s32) (vPair d (srcRegs64 a ++ srcRegs b) fun c L => c.w64 a L + (c.w b L).signExtend 64) ∧
  Runs (.iadd64 d a b .n32) (vPair d (srcRegs64 a ++ srcRegs b) fun c L => c.w64 a L + (c.w b L).setWidth 64) ∧
  Runs (.imad64 d a b .n) (vPair d (srcRegs a ++ srcRegs b ++ [d, d + 1]) fun c L =>
    (c.w a L).setWidth 64 * (c.w b L).setWidth 64 + (c.rw (d + 1) L ++ c.rw d L)) ∧
  Runs (.imad64 d a b .s) (vPair d (srcRegs a ++ srcRegs b ++ [d, d + 1]) fun c L =>
    (c.w a L).signExtend 64 * (c.w b L).signExtend 64 + (c.rw (d + 1) L ++ c.rw d L))

/-- R86 to R89: shifts take the whole amount, a funnel shift its amount modulo 64; fields are taken at [4:0] with the width
[13:8], at most 32; counts, the reverse of the bits, and the interleaving of two or three coordinates and its inverse, bit by
bit. -/
def Obligations.ShiftFieldAndBitResults : Prop := ∀ (d : Nat) (a b : Src),
  Runs (.shl d a b) (vWord2 d a b fun x y => if 32 ≤ y.toNat then 0 else x <<< y.toNat) ∧
  Runs (.shr d a b .n) (vWord2 d a b fun x y => if 32 ≤ y.toNat then 0 else x >>> y.toNat) ∧
  Runs (.shr d a b .s) (vWord2 d a b fun x y =>
    if 32 ≤ y.toNat then (if x.toInt < 0 then 0xFFFFFFFF#32 else 0) else x.sshiftRight y.toNat) ∧
  Runs (.shf d a b .r) (vWord d (srcRegs64 a ++ srcRegs b) fun c L => (c.w64 a L >>> ((c.w b L).toNat % 64)).setWidth 32) ∧
  Runs (.shf d a b .l) (vWord d (srcRegs64 a ++ srcRegs b) fun c L => ((c.w64 a L <<< ((c.w b L).toNat % 64)) >>> 32).setWidth 32) ∧
  Runs (.bfx d a b .n) (vWord2 d a b fun x y =>
    BitVec.ofNat 32 (x.toNat / 2 ^ (y.extractLsb' 0 5).toNat % 2 ^ min (y.extractLsb' 8 6).toNat 32)) ∧
  Runs (.bfx d a b .s) (vWord2 d a b fun x y =>
    BitVec.ofInt 32 ((x.toInt / 2 ^ (y.extractLsb' 0 5).toNat).bmod (2 ^ min (y.extractLsb' 8 6).toNat 32))) ∧
  Runs (.bfi d a b) (vWord3 d a b fun x y z =>
    let mk : Word := BitVec.ofNat 32 (2 ^ min (y.extractLsb' 8 6).toNat 32 - 1) <<< (y.extractLsb' 0 5).toNat
    (z &&& ~~~mk) ||| ((x <<< (y.extractLsb' 0 5).toNat) &&& mk)) ∧
  Runs (.clz d a false) (vWord1 d a fun x => x.clz) ∧
  Runs (.clz d a true) (vWord d (srcRegs64 a) fun c L => (c.w64 a L).clz.setWidth 32) ∧
  Runs (.popc d a false) (vWord1 d a fun x => x.cpop) ∧
  Runs (.popc d a true) (vWord d (srcRegs64 a) fun c L => (c.w64 a L).cpop.setWidth 32) ∧
  Runs (.brev d a) (vWord1 d a fun x => wordOf fun i => x.getLsbD (31 - i)) ∧
  Runs (.bitil d a b .x2) (vWord2 d a b fun x y => wordOf fun i => if i % 2 = 0 then x.getLsbD (i / 2) else y.getLsbD (i / 2)) ∧
  Runs (.bitil d a b .x3) (vWord3 d a b fun x y z => wordOf fun i =>
    decide (i < 30) && (if i % 3 = 0 then x.getLsbD (i / 3) else if i % 3 = 1 then y.getLsbD (i / 3) else z.getLsbD (i / 3))) ∧
  Runs (.bitdl d a .x2) (vWord1 d a fun x => wordOf fun i => if i < 16 then x.getLsbD (2 * i) else x.getLsbD (2 * (i - 16) + 1)) ∧
  Runs (.bitdl d a .x3) (vWord1 d a fun x => wordOf fun i => decide (i < 30) && x.getLsbD (3 * (i % 10) + i / 10))

/-- R90 to R92: a compare gives all ones or 1 where the condition holds, and 0 where it does not; SEL selects by the old
destination, as a whole or bit by bit; BYTSEL builds each byte as its selector byte says. -/
def Obligations.CompareSelectResults : Prop := ∀ (d : Nat) (a b : Src) (m : ICond),
  Runs (.icmps d a b m) (vWord2 d a b fun x y => if wordCond m x y then 0xFFFFFFFF#32 else 0) ∧
  Runs (.icmpn d a b m) (vWord2 d a b fun x y => if wordCond m x y then 1 else 0) ∧
  Runs (.sel d a b false) (vWord3 d a b fun x y z => if z = 0 then y else x) ∧
  Runs (.sel d a b true) (vWord3 d a b fun x y z => (x &&& z) ||| (y &&& ~~~z)) ∧
  (∀ sw, Runs (.bytsel d a b sw) (vWord3 d a b fun x y z =>
    let B : BitVec 64 := if sw then x ++ y else y ++ x
    pickByte B (z.extractLsb' 24 8) ++ pickByte B (z.extractLsb' 16 8) ++ pickByte B (z.extractLsb' 8 8) ++ pickByte B (z.extractLsb' 0 8)))

/-! ### Floating point -/

/-- The V-pipe float words complete with the rounded result of their operation on the patterns of their sources. -/
def Obligations.FloatVectorResults : Prop := ∀ (d : Nat) (a b : Src) (r : Rnd) (bf : Bool) (m : FCond) (k : ClsFmt),
  Runs (.fadd d a b r) (vWord2 d a b (natFn2 (fadd .f32 r))) ∧
  Runs (.fmul d a b r) (vWord2 d a b (natFn2 (fmul .f32 r))) ∧
  Runs (.ffma d a b r) (vWord3 d a b (natFn3 (ffma .f32 r))) ∧
  Runs (.fmin d a b) (vWord2 d a b (natFn2 fminOp)) ∧
  Runs (.fmax d a b) (vWord2 d a b (natFn2 fmaxOp)) ∧
  Runs (.fcmp d a b m) (vWord2 d a b fun x y => if fcond m x.toNat y.toNat then 0xFFFFFFFF#32 else 0) ∧
  Runs (.frnd d a r) (vWord1 d a (natFn1 (frndOp r))) ∧
  Runs (.fclass d a k) (vWord1 d a (natFn1 (fclassOp k))) ∧
  Runs (.padd2 d a b bf r) (vWord2 d a b (natFn2 fun x y => pack2 (fun x y _ => fadd (pkFmt bf) r x y) x y 0)) ∧
  Runs (.pmul2 d a b bf r) (vWord2 d a b (natFn2 fun x y => pack2 (fun x y _ => fmul (pkFmt bf) r x y) x y 0)) ∧
  Runs (.pfma2 d a b bf r) (vWord3 d a b (natFn3 (pack2 (ffma (pkFmt bf) r)))) ∧
  Runs (.pdot2 d a b bf r) (vWord3 d a b (natFn3 (pdot2 bf r)))

/-- The S-pipe float words and conversions complete with the result of their operation pending on f11; a conversion to a 64-bit
integer writes a pair. -/
def Obligations.FloatSpecialResults : Prop := ∀ (d : Nat) (a b : Src) (r : Rnd) (df sf : FFmt) (i : IFmt) (sat : Bool) (p : PkForm),
  Runs (.fdiv d a b r) (sWord2 d a b (natFn2 (fdiv r))) ∧
  Runs (.frcp d a r) (sWord1 d a (natFn1 (fdiv r 0x3F800000))) ∧
  Runs (.frsq d a r) (sWord1 d a (natFn1 (frsq r))) ∧
  Runs (.fsqrt d a r) (sWord1 d a (natFn1 (fsqrt r))) ∧
  Runs (.fexp2 d a r) (sWord1 d a (natFn1 (fexp2 r))) ∧
  Runs (.flog2 d a r) (sWord1 d a (natFn1 (flog2 r))) ∧
  Runs (.fsinpi d a r) (sWord1 d a (natFn1 (fsinpi r))) ∧
  Runs (.fcospi d a r) (sWord1 d a (natFn1 (fcospi r))) ∧
  Runs (.cvtf d a df sf sat r) (sWord1 d a (natFn1 fun x => convertF df r sat (decodeF sf (x % 2 ^ (fmtOf sf).w)))) ∧
  (ifmtBits i ≠ 64 → Runs (.cvti d a df i r) (sWord1 d a fun x => BitVec.ofInt 32 (cvtiInt i r (decodeF df (x.toNat % 2 ^ (fmtOf df).w))))) ∧
  (ifmtBits i = 64 → Runs (.cvti d a df i r) (sPair d (srcRegs a) fun c L =>
    BitVec.ofInt 64 (cvtiInt i r (decodeF df ((c.w a L).toNat % 2 ^ (fmtOf df).w))))) ∧
  (ifmtBits i ≠ 64 → Runs (.cvtif d a df i sat r) (sWord1 d a (natFn1 fun x => cvtifInt df r sat (cvtifSrc i x)))) ∧
  (ifmtBits i = 64 → Runs (.cvtif d a df i sat r) (sWord d (srcRegs64 a) fun c L =>
    BitVec.ofNat 32 (cvtifInt df r sat (cvtifSrc i (c.w64 a L).toNat)))) ∧
  (p = .f16 ∨ p = .bf16 → Runs (.cvtpk d a b p) (sWord2 d a b (natFn2 fun x y => cvtpkOp p x y 0))) ∧
  (p ≠ .f16 → p ≠ .bf16 → Runs (.cvtpk d a b p) (sWord d (srcRegs a ++ srcRegs b ++ [d]) fun c L =>
    natFn3 (cvtpkOp p) (c.w a L) (c.w b L) (c.rw d L)))

/-- R120, R121, R127, R130, R133, R134 and R136 to R138: every pattern of a format that is not a NaN is the rounding of its own
value, in every rounding mode. FADD, FMUL and FFMA of numbers, in a format of 32 or 16 bits, are the exact sum, product and
product plus sum rounded once, and PDOT2 the exact sum of its three terms; a sum that is zero is -0 only in RDN, or where all its
terms are -0. FDIV, FSQRT and FRSQ are the exact quotient, root and reciprocal root rounded once; FEXP2 of an integer and FLOG2 of
a power of two are rounded from the exact power and the exact logarithm. CVTF, CVTI, CVTIF and FRND round the exact value of their
source once. A NaN operand of the sums, products and S-pipe functions gives the canonical NaN. -/
def Obligations.FloatEncodeDecode : Prop :=
  (∀ (f : FFmt) (r : Rnd) (sat : Bool) (x : Nat), x < 2 ^ (fmtOf f).w → decodeF f x ≠ .nan → encodeF f r sat (decodeF f x) = x) ∧
  (∀ (f : FFmt) (r : Rnd) (x y z : Nat), f = .f32 ∨ f = .f16 ∨ f = .bf16 →
    let b := tinyExp f
    let X := (decodeF f x).units b
    let Y := (decodeF f y).units b
    let Z := (decodeF f z).units b
    let rounds (v q : Int) (p : Nat) : Prop := v ≠ 0 → roundsTo f r false (decide (v < 0)) (againstRatio v.natAbs 1 q) p
    let zeroSum (s s' : Bool) : Nat := signBit (fmtOf f) (if s = s' then s else r == .rdn)
    (decodeF f x = .nan ∨ decodeF f y = .nan →
      fadd f r x y = (fmtOf f).cnan ∧ fmul f r x y = (fmtOf f).cnan ∧ ffma f r x y z = (fmtOf f).cnan) ∧
    (decodeF f z = .nan → ffma f r x y z = (fmtOf f).cnan) ∧
    (∀ s s', decodeF f x = .inf s → decodeF f y = .inf s' → fadd f r x y = if s = s' then infPat (fmtOf f) s else (fmtOf f).cnan) ∧
    (∀ s s', decodeF f x = .inf s → decodeF f y = .zero s' → fmul f r x y = (fmtOf f).cnan) ∧
    ((decodeF f x).number → (decodeF f y).number →
      rounds (X + Y) b (fadd f r x y) ∧ rounds (X * Y) (2 * b) (fmul f r x y) ∧
      (X + Y = 0 → fadd f r x y = if X = 0 then zeroSum (decodeF f x).sign (decodeF f y).sign else signBit (fmtOf f) (r == .rdn)) ∧
      (X * Y = 0 → fmul f r x y = signBit (fmtOf f) ((decodeF f x).sign != (decodeF f y).sign)) ∧
      ((decodeF f z).number → rounds (X * Y + Z * 2 ^ (-b).toNat) (2 * b) (ffma f r x y z) ∧
        (X * Y ≠ 0 → X * Y + Z * 2 ^ (-b).toNat = 0 → ffma f r x y z = signBit (fmtOf f) (r == .rdn)) ∧
        (X * Y = 0 → Z = 0 → ffma f r x y z = zeroSum ((decodeF f x).sign != (decodeF f y).sign) (decodeF f z).sign)))) ∧
  (∀ (bf : Bool) (r : Rnd) (x y z : Nat),
    let b := tinyExp (pkFmt bf)
    let d (v : Nat) : FVal := decodeF (pkFmt bf) v
    (d (lo16 x)).number → (d (lo16 y)).number → (d (hi16 x)).number → (d (hi16 y)).number → (decodeF .f32 z).number →
    let v := ((d (lo16 x)).units b * (d (lo16 y)).units b + (d (hi16 x)).units b * (d (hi16 y)).units b) * 2 ^ (298 + 2 * b).toNat +
      (decodeF .f32 z).units (-149) * 2 ^ 149
    v ≠ 0 → roundsTo .f32 r false (decide (v < 0)) (againstRatio v.natAbs 1 (-298)) (pdot2 bf r x y z)) ∧
  (∀ (r : Rnd) (x y : Nat),
    let X := (decodeF .f32 x).units (-149)
    let Y := (decodeF .f32 y).units (-149)
    (decodeF .f32 x = .nan → ∀ g ∈ [frsq r, fsqrt r, fexp2 r, flog2 r, fsinpi r, fcospi r, fun x => fdiv r x y, fun x => fdiv r y x],
      g x = 0x7FC00000) ∧
    (X ≠ 0 → Y ≠ 0 → roundsTo .f32 r false (decide (X < 0) != decide (Y < 0)) (againstRatio X.natAbs Y.natAbs 0) (fdiv r x y)) ∧
    (0 < X → roundsTo .f32 r false false (againstRoot X.natAbs 1 (-149)) (fsqrt r x) ∧
      roundsTo .f32 r false false (againstRoot 1 X.natAbs 149) (frsq r x)) ∧
    (∀ s m q, decodeF .f32 x = .fin s m q → 0 ≤ q → roundsTo .f32 r false false
      (againstRatio 1 1 ((if s then -1 else 1) * ((m * 2 ^ q.toNat : Nat) : Int))) (fexp2 r x)) ∧
    (∀ (j : Nat) (q : Int), decodeF .f32 x = .fin false (2 ^ j) q → q + j ≠ 0 →
      roundsTo .f32 r false (decide (q + j < 0)) (againstRatio (q + j).natAbs 1 0) (flog2 r x))) ∧
  (∀ (df sf : FFmt) (r : Rnd) (sat : Bool) (x m : Nat) (s : Bool) (q : Int), decodeF sf x = .fin s m q →
    (df ≠ .e8m0 → roundsTo df r sat s (againstRatio m 1 q) (convertF df r sat (decodeF sf x))) ∧
    (∀ i, ∃ n : Nat, roundsInt r s (againstRatio m 1 q) n 0 ∧
      cvtiInt i r (decodeF sf x) = clampI (if s then -(n : Int) else n) (ifmtMin i) (ifmtMax i)) ∧
    (sf = .f32 → ∃ n : Nat, roundsInt r s (againstRatio m 1 q) n 0 ∧
      (n = 0 → frndOp r x = signBit (fmtOf .f32) s) ∧ (n ≠ 0 → (decodeF .f32 (frndOp r x)).units (-149) = (if s then -(n : Int) else n) * 2 ^ 149))) ∧
  ∀ (f : FFmt) (r : Rnd) (sat : Bool) (n : Int), f ≠ .e8m0 → n ≠ 0 →
    roundsTo f r sat (decide (n < 0)) (againstRatio n.natAbs 1 0) (cvtifInt f r sat n)

/-- R128 and R129: FMIN and FMAX ignore one NaN, and give the canonical NaN of two; of two numbers they give the one of less or of
greater value, and order -0 below +0. FCMP is unordered with a NaN; each of its other conditions holds of the exact values of
numbers and infinities, with the zeros equal. -/
def Obligations.FloatOrderRules : Prop := ∀ x y : Nat, x < 2 ^ 32 → y < 2 ^ 32 →
  (decodeF .f32 x = .nan → decodeF .f32 y = .nan → fminOp x y = 0x7FC00000 ∧ fmaxOp x y = 0x7FC00000) ∧
  (decodeF .f32 x = .nan → decodeF .f32 y ≠ .nan → fminOp x y = y ∧ fmaxOp x y = y) ∧
  (decodeF .f32 x ≠ .nan → decodeF .f32 y = .nan → fminOp x y = x ∧ fmaxOp x y = x) ∧
  (decodeF .f32 x ≠ .nan → decodeF .f32 y ≠ .nan → order32 x < order32 y → fminOp x y = x ∧ fmaxOp x y = y) ∧
  (decodeF .f32 x ≠ .nan → decodeF .f32 y ≠ .nan → order32 y < order32 x → fminOp x y = y ∧ fmaxOp x y = x) ∧
  (fminOp 0x80000000 0 = 0x80000000 ∧ fminOp 0 0x80000000 = 0x80000000 ∧ fmaxOp 0x80000000 0 = 0 ∧ fmaxOp 0 0x80000000 = 0) ∧
  (fcond .un x y = true ↔ decodeF .f32 x = .nan ∨ decodeF .f32 y = .nan) ∧
  (fcond .ord x y = true ↔ fcond .un x y = false) ∧
  (fcond .lt x y = true ↔ fcond .un x y = false ∧ order32 x < order32 y) ∧
  (fcond .le x y = true ↔ fcond .un x y = false ∧ order32 x ≤ order32 y) ∧
  (fcond .eq x y = true ↔ fcond .un x y = false ∧ order32 x = order32 y) ∧
  (fcond .ne x y = true ↔ fcond .un x y = true ∨ order32 x ≠ order32 y) ∧
  order32 0x80000000 = order32 0 ∧
  (∀ s m q, decodeF .f32 x = .fin s m q → -149 ≤ q ∧ m * 2 ^ (q + 149).toNat < 2 ^ 300)

/-! ### Lane operations and special registers -/

/-- R94 to R99: the lane operations give each active lane a result of the sources of the active lanes, pending on f11. -/
def Obligations.LaneOperationResults : Prop := ∀ (d : Nat) (a b : Src) (m : RedOp) (q : FredOp),
  Runs (.shfl d a b .idx) (sWord d (srcRegs a ++ srcRegs b) fun c L => c.pick a L ((c.w b L).toNat % 32)) ∧
  Runs (.shfl d a b .up) (sWord d (srcRegs a ++ srcRegs b) fun c L =>
    if (c.w b L).toNat ≤ L then c.pick a L (L - (c.w b L).toNat) else c.w a L) ∧
  Runs (.shfl d a b .down) (sWord d (srcRegs a ++ srcRegs b) fun c L =>
    if L + (c.w b L).toNat ≤ 31 then c.pick a L (L + (c.w b L).toNat) else c.w a L) ∧
  Runs (.shfl d a b .xor) (sWord d (srcRegs a ++ srcRegs b) fun c L => c.pick a L (L ^^^ ((c.w b L).toNat % 32))) ∧
  Runs (.ballot d a false) (sWord d (srcRegs a) fun c _ => wordOf fun i => c.act.getLsbD i && c.w a i != 0) ∧
  Runs (.ballot d a true) (sWord d (srcRegs a) fun c _ => BitVec.ofNat 32 (c.lanes.filter fun i => c.w a i != 0).length) ∧
  Runs (.lred d a m) (sWord d (srcRegs a) fun c _ => wordFold m (c.lanes.map (c.w a))) ∧
  Runs (.lscan d a m) (sWord d (srcRegs a) fun c L => wordFold m ((c.lanes.filter (· ≤ L)).map (c.w a))) ∧
  Runs (.lfirst d a false) (sWord d (srcRegs a) fun c _ => c.w a c.lead) ∧
  Runs (.lfirst d a true) (sWord d (srcRegs a) fun c _ => BitVec.ofNat 32 ((c.lanes.find? fun i => c.w a i != 0).getD 32)) ∧
  Runs (.lmatch d a false) (sWord d (srcRegs a) fun c L => wordOf fun i => c.act.getLsbD i && c.w a i == c.w a L) ∧
  Runs (.lmatch d a true) (sWord d (srcRegs64 a) fun c L => wordOf fun i => c.act.getLsbD i && c.w64 a i == c.w64 a L) ∧
  Runs (.flred d a q) (sWord d (srcRegs a) fun c _ =>
    BitVec.ofNat 32 ((fredTree q ((List.range 32).map fun i => if c.act.getLsbD i then some (c.w a i).toNat else none)).getD 0))

/-- R37, R38 and R93: what SREG reads. A read of TBL latches TBH, and a read of STICKY clears it; no other read has a side
effect. -/
def Obligations.SpecialRegisterReads : Prop := ∀ d : Nat,
  Runs (.sreg d 0x00) (sWord d [] fun _ L => BitVec.ofNat 32 L) ∧
  Runs (.sreg d 0x01) (sWord d [] fun c _ => BitVec.ofNat 32 c.g.idx) ∧
  Acts (.sreg d 0x02) (semSreg d 0x02) (fun c s t => t = putS c (c.outW d fun _ => BitVec.ofNat 32 (teamOf s c.gid).index) s) ∧
  Runs (.sreg d 0x03) (sWord d [] fun c _ => if c.sl = .b then 1 else 0) ∧
  Runs (.sreg d 0x04) (sWord d [] fun c _ => c.mask) ∧
  Runs (.sreg d 0x05) (sWord d [] fun c _ =>
    let o := c.g.slot (otherSlot c.sl)
    if o.st = .free then 0 else o.mask) ∧
  Acts (.sreg d 0x06) (semSreg d 0x06) (fun c s t =>
    let x := ctxTime s (ctxOf s c.gid)
    c.act ≠ 0 → t = putS c (c.outW d fun _ => BitVec.ofNat 32 x) (modSlot s c.gid c.sl fun v => { v with tbh := x / 2 ^ 32 % 2 ^ 32 })) ∧
  Runs (.sreg d 0x07) (sWord d [] fun c _ => BitVec.ofNat 32 (c.g.slot c.sl).tbh) ∧
  Acts (.sreg d 0x08) (semSreg d 0x08) (fun c s t =>
    let k := coreOf s c.gid
    t = putS c (c.outW d fun _ => BitVec.ofNat 32 (c.g.quad % 4 + k % 4 * 4 + k / 4 % 8 * 16 + k / 32 % 16 * 256)) s) ∧
  Runs (.sreg d 0x09) (sWord d [] fun c _ => BitVec.ofNat 32 c.g.stack.length) ∧
  Runs (.sreg d 0x0A) (sWord d [] fun c _ => BitVec.ofNat 32 (flgLo c.g)) ∧
  Runs (.sreg d 0x0B) (sWord d [] fun c _ => BitVec.ofNat 32 (flgHi c.g)) ∧
  Runs (.sreg d 0x0C) (sWord d [] fun c _ => BitVec.ofNat 32 (engCounters c.g)) ∧
  Acts (.sreg d 0x0D) (semSreg d 0x0D) (fun c s t => t = putS c (c.outW d fun _ => BitVec.ofNat 32 (ctxWord (ctxOf s c.gid))) s) ∧
  Acts (.sreg d 0x0E) (semSreg d 0x0E) (fun c s t =>
    c.act ≠ 0 → t = putS c (c.outW d fun _ => c.g.sticky) (modGroup s c.gid fun g => { g with sticky := 0 })) ∧
  (∀ k, 1 ≤ k → k ≤ 7 → Acts (.sreg d (0x10 + k)) (semSreg d (0x10 + k)) (fun c s t =>
    t = putS c (c.outW d fun _ => BitVec.ofNat 32 (lvlReg (lrecOf s c.gid) k (teamOf s c.gid).index)) s)) ∧
  (∀ k, 1 ≤ k → k ≤ 7 → Acts (.sreg d (0x20 + k)) (semSreg d (0x20 + k)) (fun c s t =>
    t = putS c (c.outW d fun _ => BitVec.ofNat 32 (extReg (lrecOf s c.gid) k)) s))

/-! ### Control flow -/

/-- R103: BR leaves the lanes whose source is 0 at the next chain and sends the others to the fetch block named by the offset
plus 4; where both kinds are there, the taken lanes take a path of their own. -/
def Obligations.BranchMovesLanes : Prop := ∀ (v : Src) (o : Int), Acts (.br v o) (semBr v o) fun c s t =>
  let tk : Mask := wordOf fun L => c.mask.getLsbD L && c.w v L != 0
  let tgt := wrapN (((c.wpc / 64 * 64 : Nat) : Int) + o * 64) 64 + 4
  (tk = 0 → (getGroup t c.gid).slot c.sl = (getGroup s c.gid).slot c.sl) ∧
  (tk ≠ 0 → tk = c.mask → (getGroup t c.gid).slot c.sl = { (getGroup s c.gid).slot c.sl with pc := tgt }) ∧
  (tk ≠ 0 → tk ≠ c.mask → splitPath s t c (c.mask &&& ~~~tk) c.next tk tgt)

/-- R104 and R105: BRV, CALLV and RET send the lanes whose target is the leader's to that target plus 4; the other lanes keep
the chain's own address as a path of their own. CALLV writes the link, the address of the fetch block after its own, to v0:1 of
the lanes that transfer. CALL writes it to v0:1 of every active lane and transfers to its target plus 4. A target of BRV, CALLV or RET
that is not 64-byte aligned traps TARGET_ALIGN for the lowest such lane, with the target as its address. -/
def Obligations.TransfersAndLinks : Prop := (∀ (v : Nat) (o : Int),
  let moves (c : Ctx) (s t : State) : Prop :=
    let same : Mask := wordOf fun L => c.mask.getLsbD L && c.v64 v L == c.v64 v c.lead
    (same = c.mask → (getGroup t c.gid).slot c.sl = { (getGroup s c.gid).slot c.sl with pc := c.v64 v c.lead + 4 }) ∧
    (same ≠ c.mask → splitPath s t c same (c.v64 v c.lead + 4) (c.mask &&& ~~~same) c.pc)
  Acts (.brv v) (semBrv v) moves ∧ Acts (.ret v) (semRet v) moves ∧
  Acts (.callv v) (semCallv v) (fun c s t => moves c s t ∧
    wroteNow s t c.gid ((c.lanes.filter fun L => c.v64 v L == c.v64 v c.lead).flatMap fun L =>
      [(vunit 0 L, BitVec.ofNat 32 (c.wpc / 64 * 64 + 64), false), (vunit 1 L, BitVec.ofNat 32 ((c.wpc / 64 * 64 + 64) / 2 ^ 32), false)])) ∧
  Acts (.call o) (semCall o) fun c s t =>
  onlyGroup s t c.gid ∧
  (getGroup t c.gid).slot c.sl =
    { (getGroup s c.gid).slot c.sl with pc := wrapN (((c.wpc / 64 * 64 : Nat) : Int) + o * 64) 64 + 4 } ∧
  wroteNow s t c.gid (c.outP 0 fun _ => BitVec.ofNat 64 (c.wpc / 64 * 64 + 64))) ∧
  ∀ (s : State) (gid v L : Nat) (sl : PSlot) (link : Bool) (i : Instr),
    (link = true ∧ i = .callv v) ∨ (link = false ∧ (i = .brv v ∨ i = .ret v)) →
    s.cur = some (gid, sl) → slotReady s gid sl = true → (lrecOf (landed s gid) gid).scoreboard = false →
    v + 1 < (lrecOf (landed s gid) gid).regs * 8 → (link = true → 1 < (lrecOf (landed s gid) gid).regs * 8) →
    canIssue (landed s gid) gid sl (soleCh s gid sl (semIndirect v link)) = true → (getGroup (landed s gid) gid).marks = [] →
    L < 32 → (slotNow s gid sl).mask.getLsbD L = true →
    (soleCtx s gid sl (semIndirect v link)).v64 v L % 64 ≠ 0 →
    (∀ K, K < L → (slotNow s gid sl).mask.getLsbD K = true → (soleCtx s gid sl (semIndirect v link)).v64 v K % 64 = 0) →
    exec i s = .next (chainTrap (landed s gid) gid sl (pcSlot ((getGroup s gid).slot sl).pc)
      (slotNow s gid sl).pc (slotNow s gid sl).pc
      { code := 0x05, lane := some L, addr := (soleCtx s gid sl (semIndirect v link)).v64 v L })

/-- R106 and R26: SPLIT, wherever it issues, which it does only at a depth other than 255, pushes a join record with the slot's JA
and JD, and the slot takes the join address and a depth of one more; where no depth of the group was above 255, none is. JOIN,
which issues only at the slot's join address with a join open, leaves the slot in state JOIN, with its address. Both complete from
every state in which they issue. -/
def Obligations.SplitAndJoin : Prop :=
  (∀ o : Int, Acts (.split o) (semSplit o) fun c s t =>
    let v := (getGroup s c.gid).slot c.sl
    (getGroup t c.gid).stack = { mask := 0, pc := 0, ja := v.ja, jd := v.jd } :: (getGroup s c.gid).stack ∧
    (getGroup t c.gid).slot c.sl = { v with ja := wrapN (((c.wpc / 64 * 64 : Nat) : Int) + o * 64) 64 + 4, jd := v.jd + 1 } ∧
    (getGroup t c.gid).slot (otherSlot c.sl) = (getGroup s c.gid).slot (otherSlot c.sl) ∧ v.jd ≠ 255 ∧
    (joinDepths (getGroup s c.gid) → v.jd < 255 ∧ joinDepths (getGroup t c.gid))) ∧
  Acts .join semJoin fun c s t =>
    let v := (getGroup s c.gid).slot c.sl
    onlySlot s t c.gid c.sl { v with st := .join, pc := c.pc, jnext := c.next } ∧ c.pc = v.ja ∧ 0 < v.jd

/-- R107 to R111: NOP and YIELD only advance the slot; PSET sets its predicate window; WAITC completes once the counter of its
class is at most n; SLEEP and SLEEP.T park the slot until their time, and complete at once where it has passed; SLEEP.B parks
it until the buffer is FULL. None of them changes anything else. -/
def Obligations.SlotWordsComplete : Prop :=
  Acts .nop semNop (fun _ s t => t = s) ∧
  Acts .yield semYield (fun _ s t => t = s) ∧
  (∀ a n : Nat, Acts (.pset a n) (semPset a n) fun c s t =>
    onlySlot s t c.gid c.sl { (getGroup s c.gid).slot c.sl with pv := a, pn := n }) ∧
  (∀ (k : EngClass) (n : Nat), Acts (.waitc k n) (semWaitc k n) fun c s t => t = s ∧ counter c.g k ≤ n) ∧
  (∀ a : Src, Acts (.sleep a) (semSleep a) fun c s t =>
    let v := (getGroup s c.gid).slot c.sl
    ((c.w a c.lead).toNat = 0 → t = s) ∧
    ((c.w a c.lead).toNat ≠ 0 → onlySlot s t c.gid c.sl
      { v with st := .sleep, waits := v.waits ++ [.cycle (c.cyc + 1 + (c.w a c.lead).toNat)] })) ∧
  (∀ a : Src, Acts (.sleepT a) (semSleepT a) fun c s t =>
    let v := (getGroup s c.gid).slot c.sl
    ((c.w64 a c.lead).toNat ≤ ctxTime s (ctxOf s c.gid) → t = s) ∧
    (ctxTime s (ctxOf s c.gid) < (c.w64 a c.lead).toNat → onlySlot s t c.gid c.sl
      { v with st := .sleep, waits := v.waits ++ [.time (c.w64 a c.lead).toNat] })) ∧
  (∀ a : Src, Acts (.sleepB a) (semSleepB a) fun c s t => ∀ i, bufIdx? s c.gid (c.w a c.lead).toNat = some i →
    let v := (getGroup s c.gid).slot c.sl
    ((bufOf s c.gid i).st = .full → t = s) ∧
    ((bufOf s c.gid i).st ≠ .full → onlySlot s t c.gid c.sl
      { v with st := .sleep, waits := v.waits ++ [.buffer (c.w a c.lead).toNat c.pc c.ps] }))

/-- R28 and R107: EXIT frees its slot and leaves the stack and the registers as they are. Outside a handler the other slot stays as
it is; in a handler the handler ends: the trap record is gone, and the HELD slot returns to its state before the trap. -/
def Obligations.ExitFreesSlot : Prop := Acts .exit semExit fun c s t =>
  let o := (getGroup s c.gid).slot (otherSlot c.sl)
  let left : Prop := (getGroup t c.gid).slot c.sl = {} ∧ (getGroup t c.gid).stack = (getGroup s c.gid).stack ∧
    (getGroup t c.gid).regs = (getGroup s c.gid).regs ∧ (getGroup t c.gid).trap = none ∧ t.mem = s.mem
  ((getGroup s c.gid).trap = none → left ∧ (getGroup t c.gid).slot (otherSlot c.sl) = o) ∧
  ((getGroup s c.gid).trap.isSome = true → o.missed = none →
    left ∧ (getGroup t c.gid).slot (otherSlot c.sl) = if o.st = .held then { o with st := o.prior, prior := .free } else o)

/-! ### Traps -/

/-- R113, R218: a trap that enters a handler writes the trap record, sends the faulting slot to the handler plus 4 with no
window, and holds the other slot; the registers, the stack, memory and every other group stay as they are. -/
def Obligations.TrapEntersHandler : Prop := ∀ (i : Instr) (m : Sem) (s s' : State) (gid w res : Nat) (sl : PSlot) (k : Cause),
  semOf i = some m → soleCause s gid sl m = some (s', w, res, k) → (getGroup s' gid).trap = none → (lrecOf s' gid).handler ≠ 0 →
  k.code ≠ tPage → k.code ≠ tPageLost → k.code ≠ tEmulate → ∃ t, exec i s = .next t ∧
    let g := getGroup s' gid
    let v := g.slot sl
    let o := g.slot (otherSlot sl)
    (getGroup t gid).trap = some { code := k.code, word := w, pslot := sl, lane := k.lane, jd := v.jd, pc := v.pc, sc := g.stack.length,
                                   res := res, pv := v.pv, pn := v.pn, addr := k.addr, detail := k.detail } ∧
    (getGroup t gid).slot sl = { v with pc := (lrecOf s' gid).handler + 4, pv := 0, pn := 0, st := .active, waits := [], seen := (0, []) } ∧
    (getGroup t gid).slot (otherSlot sl) = { o with st := .held, prior := o.st } ∧
    (getGroup t gid).regs = g.regs ∧ (getGroup t gid).stack = g.stack ∧ t.mem = s'.mem ∧
    ∀ h, h ≠ gid → getGroup t h = getGroup s' h

/-- R112: TRAP and BKPT raise their code after the word's other checks, and the path resumes at the next chain; they trap
wherever they can issue. -/
def Obligations.TrapAndBkptTrap : Prop := ∀ (s : State) (gid : Nat) (sl : PSlot) (code : Nat),
  s.cur = some (gid, sl) → slotReady s gid sl = true →
  (canIssue (landed s gid) gid sl (soleCh s gid sl (semTrap code)) = true →
    exec (.trap code) s = .next (chainTrap (landed s gid) gid sl (pcSlot ((getGroup s gid).slot sl).pc) (slotNow s gid sl).pc
      (soleNext s gid sl) { code := 0x80 + code })) ∧
  (canIssue (landed s gid) gid sl (soleCh s gid sl semBkpt) = true →
    exec .bkpt s = .next (chainTrap (landed s gid) gid sl (pcSlot ((getGroup s gid).slot sl).pc) (slotNow s gid sl).pc
      (soleNext s gid sl) { code := 0x12 }))

/-- R114: RETT returns to the resume address of the record with the window of the record, drops the record, and the other slot
returns to its state before the trap. -/
def Obligations.RettReturns : Prop := Acts .rett semRett fun c s t => ∀ r, (getGroup s c.gid).trap = some r →
  ((getGroup s c.gid).slot (otherSlot c.sl)).missed = none →
  let v := (getGroup s c.gid).slot c.sl
  let o := (getGroup s c.gid).slot (otherSlot c.sl)
  (getGroup t c.gid).trap = none ∧ (getGroup t c.gid).slot c.sl = { v with pc := r.res, pv := r.pv, pn := r.pn } ∧
  (getGroup t c.gid).slot (otherSlot c.sl) = (if o.st = .held then { o with st := o.prior, prior := .free } else o) ∧
  (getGroup t c.gid).regs = (getGroup s c.gid).regs ∧ (getGroup t c.gid).stack = (getGroup s c.gid).stack ∧ t.mem = s.mem

/-- R113 and R332: a trap with no handler, or inside a handler, faults the context, with a fault message of cause 0x10 to its
fault mailbox. -/
def Obligations.TrapWithoutHandlerFaults : Prop := ∀ (i : Instr) (m : Sem) (s s' : State) (gid w res : Nat) (sl : PSlot) (k : Cause),
  semOf i = some m → soleCause s gid sl m = some (s', w, res, k) →
  (getGroup s' gid).trap.isSome = true ∨ (lrecOf s' gid).handler = 0 → (mapGet? s'.ctxs (ctxNumOf s' gid)).isSome = true →
  k.code ≠ tPage → k.code ≠ tPageLost → k.code ≠ tEmulate → ∃ t, exec i s = .next t ∧
    (getCtx t (ctxNumOf s' gid)).st = 2 ∧ (getGroup t gid).trap = (getGroup s' gid).trap ∧ t.mem = s'.mem ∧
    ∃ p, t.posts = s'.posts ++ [p] ∧ p.mb = (ctxOf s' gid).fmbox ∧ p.msg.getD 8 0 = 0x10

/-- R15, R33 and R35: a word that names a register, tile or accumulator at or beyond its group's allocation traps REG_BOUND,
with no effect. That it does so as soon as the slot is ready, before the waits and stalls of R60, is the model's reading of R60
and R64 (DEDUCED, log 16). -/
def Obligations.RegBoundTraps : Prop := ∀ (i : Instr) (m : Sem) (s : State) (gid : Nat) (sl : PSlot),
  semOf i = some m → s.cur = some (gid, sl) → slotReady s gid sl = true →
  ((∃ r ∈ m.reads ++ m.leads ++ m.writes ++ m.names, (lrecOf (landed s gid) gid).regs * 8 ≤ r) ∨
    (∃ t ∈ m.tiles, (lrecOf (landed s gid) gid).tiles ≤ t) ∨ ∃ a ∈ m.accs, (lrecOf (landed s gid) gid).accs ≤ a) →
  exec i s = .next (chainTrap (landed s gid) gid sl (pcSlot ((getGroup s gid).slot sl).pc) (slotNow s gid sl).pc
    (slotNow s gid sl).pc { code := 0x03 })

/-! ### Loads, stores and atomics -/

/-- R142, R143, R148: ST stores each active lane's register group at the lane's address, lanes in ascending order: at issue, or
in the sector pieces that its operation then still holds, which are pieces of accesses that cross a sector or of a group with
another live path; which of them are left is free (log 91). Where nothing is left and no flag is named, no operation is added.
Without NC the core then reads the stored bytes there, every other byte reads as before, and nothing changes but the core, the
group and the record of an address that names nothing. With NC the last byte stored at an address is held by the operation, or is
what the die reads, or is at its home, and every byte at another address is as before in every cache of a core or cluster, in what
each die reads, and at its home. No register changes. -/
def Obligations.StoreWritesLanesBytes : Prop := ∀ (d a : Nat) (f : Option Nat) (z : Sz) (off : Option Nat) (nc : Bool),
  Acts (.st d a f z off nc) (semSt d a f z off nc) fun c s t =>
    let n := 2 ^ z.code
    let core := coreOf s c.gid
    let g := getGroup s c.gid
    let stores := c.lanes.flatMap fun L =>
      (lanePas s c (wrapN ((c.v64 a L : Int) + sext (off.getD 0) 32) 64) n .write).zip (groupBytes c d n L)
    let later (pa : Nat) : Bool := storeLater s c a off n (pa / 32)
    ∃ rest : List (Nat × Byte),
      getGroup t c.gid = (if f = none ∧ rest = [] then g else g.addOp
        { id := 0, pipe := 2, slot := c.sl, kind := .store nc (stores.foldl (fun a b => setAdd a (b.1 / 128)) []) rest, flag := f }) ∧
      (∀ h, h ≠ c.gid → getGroup t h = getGroup s h) ∧ (getGroup t c.gid).regs = g.regs ∧
      (nc = false → rest = (stores.filter fun b => later b.1) ∧
        { t with cores := s.cores, groups := s.groups, stuck := s.stuck } = s ∧ (∀ k, k ≠ core → getCore t k = getCore s k) ∧
        ∀ pa, coreByte? t core pa = match lastByte (stores.filter fun b => !later b.1) pa with
          | some b => some b
          | none => coreByte? s core pa) ∧
      (nc = true → core < 128 → ∀ pa b h, lastByte stores pa = some b → homeOf pa = some h → h ≠ 4 →
        (h < 8 ∨ companionDocked s h = true) →
        lastByte rest pa = some b ∨ (lastByte rest pa = none ∧ (dieByte t (dieOfCore core) pa = b ∨ homeByte t pa = b))) ∧
      (nc = true → ∀ pa, lastByte stores pa = none → lastByte rest pa = none ∧
        (∀ k, (clGet (getCore t k).l1 (pa / 128)).get? (pa % 128) = (clGet (getCore s k).l1 (pa / 128)).get? (pa % 128)) ∧
        (∀ k, (clGet (getCluster t k).cc (pa / 128)).get? (pa % 128) = (clGet (getCluster s k).cc (pa / 128)).get? (pa % 128)) ∧
        (∀ die, dieByte t die pa = dieByte s die pa) ∧ homeByte t pa = homeByte s pa)

/-- R27, R142, R146 to R148: LD leaves one operation on its flag that is to write every active lane's register group, with the
values of the lanes already read or with the accesses that are still to be read, and changes no register before; without a flag,
and unless some lanes hit and some miss, the path waits for that one operation. Where the bytes of one lane, whose access
crosses no sector, can be read at once, the operation holds their value. Where some lanes hit and some miss, no flag is named
and the other slot is free, the missing lanes take that slot in state MISS. -/
def Obligations.LoadReadsLanesBytes : Prop := ∀ (d a : Nat) (f : Option Nat) (z : Sz) (off : Option Nat) (sx nc : Bool),
  Acts (.ld d a f z off sx nc) (semLd d a f z off sx nc) fun c s t =>
    let core := coreOf s c.gid
    let pas (L : Nat) : List Nat := lanePas s c (wrapN ((c.v64 a L : Int) + sext (off.getD 0) 32) 64) (2 ^ z.code) .read
    let miss := c.lanes.filter fun L => !hitsCache s core (pas L)
    let splits := f = none ∧ nc = false ∧ miss ≠ [] ∧ miss ≠ c.lanes ∧ (c.g.slot (otherSlot c.sl)).st = .free ∧ (c.g.slot c.sl).pn = 0
    (getGroup t c.gid).regs = (getGroup s c.gid).regs ∧
    (c.act ≠ 0 → ¬ splits → ∃ o, (getGroup t c.gid).ops = (getGroup s c.gid).ops ++ [o] ∧
      o.flag = f ∧ o.pipe = 2 ∧ o.dst = d ∧ o.units = groupUnits c d (2 ^ z.code) ∧
      (o.kind = .result ∨ ∃ ls, o.kind = .load (2 ^ z.code) sx nc ls ∧ ∀ l ∈ ls, l.lane ∈ c.lanes ∧ l.pas = pas l.lane) ∧
      (f = none → ((getGroup t c.gid).slot c.sl).waits = ((getGroup s c.gid).slot c.sl).waits ++ [.op o.id]) ∧
      (nc = false → ∀ L bs, c.lanes = [L] → crosses (pas L) = false → loadBytes? s core false (pas L) = some bs →
        o.kind = .result ∧ o.vals = loadVals (2 ^ z.code) sx d L bs) ∧
      (nc = true → ∀ L bs, c.lanes = [L] → crosses (pas L) = false → (ncReady s core (pas L)).2 = true →
        loadBytes? (ncReady s core (pas L)).1 core true (pas L) = some bs →
        o.kind = .result ∧ o.vals = loadVals (2 ^ z.code) sx d L bs)) ∧
    (c.act ≠ 0 → splits → ((getGroup t c.gid).slot (otherSlot c.sl)).st = .miss ∧
      ((getGroup t c.gid).slot (otherSlot c.sl)).pc = c.next ∧
      ((getGroup t c.gid).slot (otherSlot c.sl)).mask = wordOf miss.contains ∧
      ((getGroup t c.gid).slot c.sl).mask = ((getGroup s c.gid).slot c.sl).mask &&& ~~~(wordOf miss.contains))

/-- R142, R146 and R148: LDS and LDB take each active lane's bytes from the window, at the lane's offset or at its buffer's
offset plus the lane's, and hold them for the lane's register group; nothing else changes. Where an access crosses a sector, pieces
of it may be left for later, and the operation then holds what it has read so far; which are left is free (log 91). -/
def Obligations.WindowLoadsRead : Prop := ∀ (d a : Nat) (f : Option Nat) (z : Sz) (off : Option Nat) (sx : Bool),
  let n := 2 ^ z.code
  let loads (at_ : Nat → Nat) (c : Ctx) (s t : State) : Prop :=
    let byte (o : Nat) : Byte × Bool := (winByte (winOf s c.gid) o, winPoison (winOf s c.gid) o 1)
    let vals := c.lanes.flatMap fun L => loadVals n sx d L ((List.range n).map fun i => byte (at_ L + i))
    let later (o : Nat) : Bool := winLater s c n at_ (o / 32)
    ((∀ L ∈ c.lanes, ∀ i, i < n → later (at_ L + i) = false) →
      addedOp s t c.gid c.sl { id := 0, pipe := 2, slot := c.sl, kind := .result, flag := f, units := vals.map (·.1), vals := vals }
        (f.isNone && !(vals.map (·.1)).isEmpty)) ∧
    (∀ L i, L ∈ c.lanes → i < n → later (at_ L + i) = true → onlyGroup s t c.gid ∧ (getGroup t c.gid).regs = (getGroup s c.gid).regs ∧
      (getGroup t c.gid).ops.length = (getGroup s c.gid).ops.length + 1 ∧ ∃ o ls, (getGroup t c.gid).ops.getLast? = some o ∧
        o.flag = f ∧ o.dst = d ∧ o.units = groupUnits c d n ∧ o.kind = .wload n sx ls ∧ ls.map (·.lane) = c.lanes ∧
        (f = none → ((getGroup t c.gid).slot c.sl).waits = ((getGroup s c.gid).slot c.sl).waits ++ [.op o.id]) ∧
        ∀ l ∈ ls, l.pas = (List.range n).map (at_ l.lane + ·) ∧
          ∀ o ∈ l.pas, mapGet? l.got o = if later o then none else some (byte o))
  Acts (.lds d a f z off sx) (semLds d a f z off sx) (fun c s t =>
    loads (fun L => ((c.rw a L).toNat + off.getD 0) % 2 ^ 32) c s t) ∧
  Acts (.ldb d a f z off sx) (semLdb d a f z off sx) fun c s t =>
    loads (fun L => (bufOf s c.gid ((c.rw a L).toNat % 256)).off + ((c.rw (a + 1) L).toNat + off.getD 0) % 2 ^ 32) c s t

/-- R142, R143 and R148: STS and STB store each active lane's register group in the window, lanes in ascending order: at issue, or,
of an access that crosses a sector, in pieces that its operation still holds; which are left is free (log 91). Every other byte of
the window, every other window, and everything outside the windows and the group stay as they are. -/
def Obligations.WindowStoresWrite : Prop := ∀ (d a : Nat) (f : Option Nat) (z : Sz) (off : Option Nat),
  let stores (at_ : Nat → Nat) (c : Ctx) (s t : State) : Prop :=
    let win := (teamOf s c.gid).win
    let bytes := c.lanes.flatMap fun L => withAddrs (at_ L) (groupBytes c d (2 ^ z.code) L)
    let rest := bytes.filter fun b => winLater s c (2 ^ z.code) at_ (b.1 / 32)
    (∀ o, winByte (getWin t win) o = if winLater s c (2 ^ z.code) at_ (o / 32) then winByte (getWin s win) o
      else (lastByte bytes o).getD (winByte (getWin s win) o)) ∧
    (rest ≠ [] → getGroup t c.gid = (getGroup s c.gid).addOp { id := 0, pipe := 2, slot := c.sl, kind := .wstore rest, flag := f }) ∧
    (∀ w, w ≠ win → getWin t w = getWin s w) ∧
    (getWin t win).size = (getWin s win).size ∧ (getWin t win).bars = (getWin s win).bars ∧
    { t with wins := s.wins, groups := s.groups } = s ∧ (∀ h, h ≠ c.gid → getGroup t h = getGroup s h) ∧
    (f = none → rest = [] → t.groups = s.groups) ∧ (getGroup t c.gid).regs = (getGroup s c.gid).regs
  Acts (.sts d a f z off) (semSts d a f z off) (fun c s t =>
    stores (fun L => ((c.rw a L).toNat + off.getD 0) % 2 ^ 32) c s t) ∧
  Acts (.stb d a f z off) (semStb d a f z off) fun c s t =>
    stores (fun L => (bufOf s c.gid ((c.rw a L).toNat % 256)).off + ((c.rw (a + 1) L).toNat + off.getD 0) % 2 ^ 32) c s t

/-- R143, R150 to R154: ATOM, CAS, CAS128 and AMINV leave one operation on their flag that performs the operation and scope of
the control word at each active lane's address with the lane's operand, and is to write each lane's register group unless NR is
given; without a flag the path waits for the registers, and no register changes before. AMINV is the relaxed unsigned 64-bit
minimum at scope GROUP, and CAS compares and swaps. Where the kind has no release, one lane's atomic on a host page in which
nothing is cached dirty is performed at once and its old bytes are recorded; one on a page of a die or a companion is asked of
its home with its opcode, scope and kind. ATOMS performs the lanes' operations on the window one after another, in some order,
and holds their old bytes for the lanes' register groups unless NR is given. -/
def Obligations.AtomicWords : Prop := ∀ (d a : Nat) (f : Option Nat) (z : ASz) (off : Option Nat) (nr : Bool),
  let starts (op n sc kind : Nat) (units : List Nat) (x : Nat → List Byte) (c : Ctx) (s t : State) : Prop :=
    let core := coreOf s c.gid
    let at_ (L : Nat) : Nat := (lanePas s c (wrapN ((c.v64 a L : Int) + sext (off.getD 0) 32) 64) n .atomic).headD 0
    let g := getGroup s c.gid
    c.act ≠ 0 → (getGroup t c.gid).regs = g.regs ∧ (getGroup t c.gid).ops.length = g.ops.length + 1 ∧ ∃ o lanes sent back,
      (getGroup t c.gid).ops.getLast? = some o ∧ o.flag = f ∧ o.dst = d ∧ o.units = units ∧
      o.kind = .atomic op n sc kind lanes sent back ∧
      ((getGroup t c.gid).slot c.sl).waits = (g.slot c.sl).waits ++ (if f = none ∧ units ≠ [] then [.op o.id] else []) ∧
      (∀ L pa y, (L, pa, y) ∈ lanes ↔ L < 32 ∧ c.act.getLsbD L = true ∧ pa = at_ L ∧ y = x L) ∧
      ∀ L h, c.lanes = [L] → kind < 2 → g.op? g.nextOp = none → homeOf (at_ L) = some h →
        (clGet (getCore s core).l1 (at_ L / 128)).dirty = 0 → (clGet (getCluster s (clusterOf core)).cc (at_ L / 128)).dirty = 0 →
        (h = 5 → (∀ i, i < n → homeOf (at_ L + i) = some 5) → poisoned s (at_ L) = false →
          (∀ e ∈ s.dies, ∀ i, i < n → (clGet e.2.l2 ((at_ L + i) / 128)).dirty = 0) →
          let old := (List.range n).map fun i => memGet s.mem (at_ L + i)
          back = [(L, old)] ∧ ∀ i, i < n → memGet t.mem (at_ L + i) = (atomBytes faddAtomic op n old (x L)).getD i 0) ∧
        (h ≠ 4 → h ≠ 5 → lostByte s (at_ L) = false → core < 128 → s.movedPages = [] →
          ∃ m ∈ (getDie t (dieOfCore core)).mine, m.why = .atom c.gid o.id L (op == 10) ∧ m.home = h ∧ m.r.at_ = true ∧ m.r.wr = true ∧
            m.r.ctl = (if op = 10 then 0 else op) + sc * 16 + kind * 128 ∧ m.r.ops = sliceBytes (x L) 0 32 ∧
            m.r.box = { base := at_ L, ext := [n, 1, 1, 1] })
  Acts (.atom d a f z off nr) (semAtom d a f z off nr) (fun c s t =>
    let w := (c.rw (a + 2) c.lead).toNat
    starts (w % 16) (2 ^ z.code) (cwScope w).code (w / 128 % 8) (if nr then [] else groupUnits c d (2 ^ z.code))
      (groupBytes c d (2 ^ z.code)) c s t) ∧
  Acts (.cas d a f z off) (semCas d a f z off) (fun c s t =>
    let w := (c.rw (a + 2) c.lead).toNat
    starts 10 (2 ^ z.code) (cwScope w).code (w / 128 % 8) (groupUnits c d (2 ^ z.code)) (groupBytes c d (2 * 2 ^ z.code)) c s t) ∧
  Acts (.cas128 d a f off) (semCas128 d a f off) (fun c s t =>
    let w := (c.rw (a + 2) c.lead).toNat
    starts 10 16 (cwScope w).code (w / 128 % 8) (groupUnits c d 16) (groupBytes c d 32) c s t) ∧
  Acts (.aminv d a f off nr) (semAminv d a f off nr)
    (fun c s t => starts 4 8 0 0 (if nr then [] else groupUnits c d 8) (groupBytes c d 8) c s t) ∧
  Acts (.atoms d a f z off nr) (semAtoms d a f z off nr) fun c s t => c.act ≠ 0 →
    let n := 2 ^ z.code
    let o (L : Nat) : Nat := ((c.rw a L).toNat + off.getD 0) % 2 ^ 32
    let win := (teamOf s c.gid).win
    let turns (ord : List Nat) := atomTurns ((c.rw (a + 1) c.lead).toNat % 16) n o (groupBytes c d n) ord (getWin s win)
    (∀ L ∈ c.lanes, winPoison (getWin s win) (o L / 32 * 32) 32 = false) → ∃ ord q, ord.Perm c.lanes ∧
      getWin t win = (turns ord).1 ∧ (getGroup t c.gid).regs = (getGroup s c.gid).regs ∧
      (getGroup t c.gid).ops = (getGroup s c.gid).ops ++ [q] ∧ q.flag = f ∧
      (nr = false → q.vals = c.lanes.flatMap fun L => loadVals n false d L
        ((((turns ord).2.find? fun e => e.1 == L).map (·.2)).getD [] |>.map fun b => (b, false)))

/-! ### Fences, caches, barriers, FIFOs and banks -/

/-- R155 to R158: FENCE makes the path wait, at its scope, for the operations before it, and is over as soon as they allow it.
CACHE.PREF changes no value that a core or external memory holds: it asks for the lines that the die may not read, and leaves
an operation for them; a line that the die may read is then in the caches from its level down. CACHE.FLUSH and CACHE.INV leave
an operation on their flag for the lines that cannot be done at once; of every other line no dirty byte is left in the L1, nor,
from level CL down, in the cluster cache, nor, at level L2, in the L2 of the core's die or of the line's home; and INV leaves
no copy of it in the L1 and the cluster cache. No register changes. -/
def Obligations.FenceAndCacheIssue : Prop :=
  (∀ (sc : Scope) (k : FenceKind), Acts (.fence sc k) (semFence sc k) (fun c s t =>
    let v := (getGroup s c.gid).slot c.sl
    (c.act = 0 → t = s) ∧
    (c.act ≠ 0 → onlySlot s t c.gid c.sl { v with waits := v.waits ++ [.fence sc k (getGroup s c.gid).nextOp] })) ∧
    ∀ s gid sl, Issues s gid sl (semFence sc k) → let t := soleRan s gid sl (semFence sc k)
      let v := (getGroup t gid).slot sl
      ∀ id, v.waits = [.fence sc k id] → v.st = .active → ((getGroup t gid).slot (otherSlot sl)).waits = [] →
        quietFor (getGroup t gid) (.fence sc k id) → (fenceTry t gid sl sc k id).2 = true →
        ∃ u, exec (.fenceComplete gid sl) t = .next u ∧ (getGroup u gid).slot sl = { v with waits := [] } ∧
          (getGroup u gid).regs = (getGroup t gid).regs) ∧
  ∀ (a : Nat) (f : Option Nat) (lv : CacheLevel),
    let leaves (kind : List Nat → OpKind) (rest : List Nat) (c : Ctx) (s t : State) : Prop :=
      getGroup t c.gid = (if f = none ∧ rest = [] then getGroup s c.gid else (getGroup s c.gid).addOp
        { id := 0, pipe := 2, slot := c.sl, kind := kind rest, flag := f }) ∧ ∀ h, h ≠ c.gid → getGroup t h = getGroup s h
    Acts (.cachePref a f lv) (semCachePref a f lv) (fun c s t =>
      let core := coreOf s c.gid
      let rest := (cacheLines s c a).filter fun l =>
        !lostByte s (l * 128) && homeOf (l * 128) != some 4 && !canRead s (dieOfCore core) (l * 128)
      leaves (.prefetch lv) rest c s t ∧ t.mem = s.mem ∧
      (∀ k pa b, coreByte? s k pa = some b → coreByte? t k pa = some b) ∧
      (lv = .l1 → ∀ l ∈ cacheLines s c a, l ∉ rest → lostByte s (l * 128) = false → homeOf (l * 128) ≠ some 4 → ∀ i, i < 128 →
        canRead s (dieOfCore core) (l * 128 + i) = true → poisoned s (l * 128 + i) = false →
        ((clGet (getCore t core).l1 l).get? i).isSome = true)) ∧
    (∀ inv : Bool, Acts (if inv then .cacheInv a f lv else .cacheFlush a f lv) (cacheSem a f lv inv) fun c s t =>
      let core := coreOf s c.gid
      ∃ rest, leaves (.cacheOp inv lv) rest c s t ∧ ∀ l ∈ cacheLines s c a, l ∉ rest →
        (clGet (getCore t core).l1 l).dirtyOffs = [] ∧ (inv = true → mapGet? (getCore t core).l1 l = none) ∧
        (lv ≠ .l1 → (clGet (getCluster t (clusterOf core)).cc l).dirtyOffs = [] ∧
          (inv = true → mapGet? (getCluster t (clusterOf core)).cc l = none)) ∧
        (lv = .l2 → inv = false → ∀ h, homeOf (l * 128) = some h → h < 4 →
          (clGet (getDie t (dieOfCore core)).l2 l).dirty = 0 ∧ (clGet (getDie t h).l2 l).dirty = 0))

/-- R159 to R162: BAR.INIT makes a live word of its target with count 0 and phase 0; BAR.QUERY reads the word; BAR.INV leaves a
gone word, once. -/
def Obligations.BarrierInitQueryInv : Prop := ∀ (b d target : Nat) (rlx : Bool),
  (target < 256 → Acts (.barInit b rlx target) (semBarInit b rlx target) (fun c s t => c.act ≠ 0 →
    (getWin t (teamOf s c.gid).win).bar b = target + 2 ^ 24 ∧ { t with wins := s.wins } = s)) ∧
  Acts (.barQuery d b rlx) (semBarQuery d b rlx) (fun c s t =>
    wroteNow s t c.gid (c.outW d fun _ => BitVec.ofNat 32 ((winOf s c.gid).bar b)) ∧ onlyGroup s t c.gid) ∧
  Acts (.barInv b rlx) (semBarInv b rlx) fun c s t =>
    let x := (winOf s c.gid).bar b
    (barGone x = true → t = s) ∧
    (c.act ≠ 0 → barGone x = false → (getWin t (teamOf s c.gid).win).bar b = x % 2 ^ 24 + 2 ^ 25)

/-- R161: an arrival counts one, or, as the last of its target, starts the next phase with count 0; a gone word stays. BAR.ARRIVE
reports the phase that it arrived in; BAR.ARRIVEWAIT waits for the phase to end, and reports 1 on a gone word. BAR.WAIT reports
1 on a gone word and 0 where the phase has ended, and else parks the slot until it ends. -/
def Obligations.BarrierArriveAndWait : Prop := ∀ (d b : Nat) (rlx : Bool),
  let arrived (x : Nat) : Nat := if barGone x then x
    else if barCount x + 1 = barTarget x then barTarget x + (barPhase x + 1) % 256 * 2 ^ 16 + b2n (barLive x) * 2 ^ 24
    else barTarget x + (barCount x + 1) * 2 ^ 8 + barPhase x * 2 ^ 16 + b2n (barLive x) * 2 ^ 24
  Acts (.barArrive d b rlx) (semBarArrive d b rlx) (fun c s t => c.act ≠ 0 →
    let x := (winOf s c.gid).bar b
    (getWin t (teamOf s c.gid).win).bar b = arrived x ∧
    (barGone x = true ∨ barCount x + 1 ≠ barTarget x → wroteNow s t c.gid (c.outW d fun _ => BitVec.ofNat 32 (barPhase x)))) ∧
  Acts (.barArrivewait d b rlx) (semBarArrivewait d b rlx) (fun c s t => c.act ≠ 0 →
    let x := (winOf s c.gid).bar b
    let v := (getGroup s c.gid).slot c.sl
    (getWin t (teamOf s c.gid).win).bar b = arrived x ∧
    (barGone x = true → wroteNow s t c.gid (c.outW d fun _ => 1)) ∧
    (barGone x = false → barCount x + 1 ≠ barTarget x →
      (getGroup t c.gid).slot c.sl = { v with st := .barwait, waits := v.waits ++ [.barrier b (barPhase x) d c.act (!rlx)] })) ∧
  Acts (.barWait d b rlx) (semBarWait d b rlx) fun c s t =>
  c.act ≠ 0 →
    let x := (winOf s c.gid).bar b
    let p := (c.rw d c.lead).toNat % 256
    let v := (getGroup s c.gid).slot c.sl
    (barGone x = true → wroteNow s t c.gid (c.outW d fun _ => 1)) ∧
    (barGone x = false → barPhase x ≠ p → wroteNow s t c.gid (c.outW d fun _ => 0)) ∧
    (barGone x = false → barPhase x = p → onlySlot s t c.gid c.sl { v with st := .barwait, waits := v.waits ++ [.barrier b p d c.act (!rlx)] })

/-- R164 and R165: QPUSH appends the active lanes' words to the bank's FIFO in ascending order, QPOP takes as many from its
front for the active lanes, each with the poison mark of its entry. BKCFG leaves the bank that its leader lane names in the given
mode, with the old mode's number pending for the active lanes; a bank that leaves FIFO mode holds no entries. -/
def Obligations.FifoAndBankWords : Prop := ∀ (d a : Nat) (f : Option Nat) (cl : Bool) (bank : Nat) (m : BankMode),
  Acts (.qpush a f cl bank) (semQpush a f cl bank) (fun c s t =>
    (bankOf t c.gid bank).fifo = (bankOf s c.gid bank).fifo ++ c.lanes.map (c.rw a) ∧
    (getGroup t c.gid).regs = (getGroup s c.gid).regs ∧ (cl = false → t.mem = s.mem)) ∧
  Acts (.qpop d f cl bank) (semQpop d f cl bank) (fun c s t =>
    let k := bankOf s c.gid bank
    (bankOf t c.gid bank).fifo = k.fifo.drop c.lanes.length ∧
    (getGroup t c.gid).regs = (getGroup s c.gid).regs ∧ ∃ o, (getGroup t c.gid).ops = (getGroup s c.gid).ops ++ [o] ∧ o.flag = f ∧
      o.vals = (c.lanes.zip ((List.range c.lanes.length).zip k.fifo)).map fun e => (vunit d e.1, e.2.2, k.bad.contains e.2.1)) ∧
  Acts (.bkcfg d a f m) (semBkcfg d a f m) fun c s t => c.act ≠ 0 →
    let b := (c.rw a c.lead).toNat
    let old := (bankOf s c.gid b).mode
    (bankOf t c.gid b).mode = m ∧ (old ≠ m → (bankOf t c.gid b).fifo = []) ∧
    ∃ o, (getGroup t c.gid).ops = (getGroup s c.gid).ops ++ [o] ∧ o.flag = f ∧
      o.vals = c.outW d fun _ => BitVec.ofNat 32 (match old with
        | .cache => 0
        | .scratch => 1
        | .fifo => 2)

/-! ### Matrix words -/

/-- R169 to R190: every matrix word joins the end of its group's queue, as a unit of its own, with its active lanes, the values,
addresses and tile configurations that it names, and nothing else changes at issue but that TCFG sets the configuration that
later words see, and TMOVV into registers adds the operation that is to write them; MBATCH closes the open units into one. The
oldest word of a queue then executes: it leaves the queue, and MMA, MDRAIN, MHAD, MSIGN, MQUANT, TTRANS and TMOVV leave the
tiles and accumulators of their operation, TCFG an unmarked tile, TMOVV into registers the tile's bytes in them. TLD and TST move
their rows sector by sector; when the execution of one begins, some of several sectors may be left, and which is free (log 91).
Where it has begun or has one sector, TLD takes the rows' bytes that it has not yet read into its tile, and TST puts the tile's rows
that are left in the rows' places: in global memory in the core's L1 and, from scope CORE on, then beyond it. That a row's offset in a
buffer is taken modulo 2^32 is the model's choice (log 90). -/
def Obligations.MatrixWordsQueue : Prop := ∀ (p q a v j n c0 : Nat) (e : Int) (sp : TSpace) (sc : Scope) (b : Bool) (h : HOrder),
  let word (i : Instr) (vals : FMap Nat) (base aux : Nat) (pas : List (List Nat)) (c : Ctx) (s : State) : MWord :=
    { i := i, unit := (getGroup s c.gid).nextOp, lanes := c.act, vals := vals, base := base, aux := aux, pas := pas,
      cfgs := (getGroup s c.gid).tcfg }
  let plain (i : Instr) (c : Ctx) (s t : State) : Prop := joinsQueue (word i [] 0 0 [] c s) c s t
  let rows (acc : Acc) (c : Ctx) (s : State) : List (List Nat) := if c.act = 0 then []
    else if sp = .global then (rowAddrs c v n (c.cfg p).rows).map fun x => lanePas s c x (c.cfg p).rb acc
    else (rowOffs s c sp v n (c.cfg p).rows).map fun x => (List.range (c.cfg p).rb).map (x + ·)
  let whole (w : MWord) : Prop := w.begun = true ∨ (sectorsOf w.pas.flatten).length < 2
  let left (g : Group) (w : MWord) : List (Nat × Byte) := if w.begun then w.rest else tstBytes g p (cfgIn w.cfgs p) w.pas
  let runs (i : Instr) (P : State → Nat → MWord → List MWord → State → Prop) : Prop := ∀ s gid w r,
    (mapGet? s.groups gid).isSome = true → (getGroup s gid).mq = w :: r → w.i = i → w.lanes ≠ 0 → calm (getGroup s gid) →
    ∃ t, exec (.matrixExecute gid) s = .next t ∧ P s gid w r t
  let leaves (run : Group → MWord → Group) (s : State) (gid : Nat) (w : MWord) (r : List MWord) (t : State) : Prop :=
    onlyGroup (bump s) t gid ∧ getGroup t gid = { run (getGroup s gid) w with mq := r }
  (Acts (.tcfg p n) (semTcfg p n) (fun c s t => onlyGroup s t c.gid ∧ getGroup t c.gid =
      { getGroup s c.gid with
        mq := (getGroup s c.gid).mq ++ [word (.tcfg p n) [] 0 0 [] c s], nextOp := (getGroup s c.gid).nextOp + 1,
        tcfg := if c.act = 0 then (getGroup s c.gid).tcfg else mapPut (getGroup s c.gid).tcfg p 0 n }) ∧
    runs (.tcfg p n) (leaves fun g _ => { g with tmarks := setDel g.tmarks p })) ∧
  (Acts (.tld p v sp n) (semTld p v sp n) (fun c s t => joinsQueue (word (.tld p v sp n) [] 0 0 (rows .read c s) c s) c s t) ∧
    runs (.tld p v sp n) fun s gid w r t => let k := cfgIn w.cfgs p
      (sp ≠ .global → whole w → (∀ x ∈ w.pas.flatten, winPending (getGroup s gid) [] x = false) →
        (getGroup t gid).mq = r ∧ t.mem = s.mem ∧ t.wins = s.wins ∧ ∀ i y xs x, w.pas[i]? = some xs → xs[y]? = some x → y < k.rb →
          tbyte (getGroup t gid) p k i y = ((mapGet? w.got x).map (·.1)).getD (winByte (winOf s gid) x)) ∧
      (sp = .global → whole w → anyPending (getGroup s gid) = false →
        (∀ pa ∈ w.pas.flatten, lostByte s pa = false ∧ poisoned s pa = false ∧ (coreByte? s (coreOf s gid) pa).isSome = true) →
        (getGroup t gid).mq = r ∧ t.mem = s.mem ∧ ∀ i y ps pa, w.pas[i]? = some ps → ps[y]? = some pa → y < k.rb →
          some (tbyte (getGroup t gid) p k i y) = ((mapGet? w.got pa).map fun b => some b.1).getD (coreByte? s (coreOf s gid) pa))) ∧
  (Acts (.tst p v sp sc n) (semTst p v sp sc n)
      (fun c s t => joinsQueue (word (.tst p v sp sc n) [] 0 0 (rows .write c s) c s) c s t) ∧
    runs (.tst p v sp sc n) fun s gid w r t =>
      let g := getGroup s gid
      let core := coreOf s gid
      (getGroup t gid).tiles = g.tiles ∧ (getGroup t gid).regs = g.regs ∧
      (sp ≠ .global → whole w → (mapGet? s.wins (teamOf s gid).win).isSome = true →
        (∀ b ∈ left g w, winPending g [] b.1 = false) → (getGroup t gid).mq = r ∧ t.mem = s.mem ∧ ∀ o,
        winByte (getWin t (teamOf s gid).win) o = (lastByte (left g w) o).getD (winByte (winOf s gid) o)) ∧
      (sp = .global → (runWord (bump s) gid w).2 = true → (getGroup t gid).mq = r ∧ (3 ≤ sc.code → g.tmarks.contains p = false →
        ∀ pa ∈ w.pas.flatten, (clGet (getCore t core).l1 (pa / 128)).dirtyOffs = [])) ∧
      (sp = .global → whole w → sc.code < 3 → w.stored = false → g.tmarks.contains p = false → anyPending g = false →
        (getGroup t gid).mq = r ∧ t.mem = s.mem ∧ ∀ pa, coreByte? t core pa = match lastByte (left g w) pa with
          | some x => some x
          | none => coreByte? s core pa)) ∧
  (Acts (.tmovv p v j b) (semTmovv p v j b) (fun c s t =>
      let g := getGroup s c.gid
      (b = true → joinsQueue (word (.tmovv p v j b) (c.lanes.map fun L => (L, c.v v L)) 0 0 [] c s) c s t) ∧
      (b = false → c.act = 0 → plain (.tmovv p v j b) c s t) ∧
      (b = false → c.act ≠ 0 → onlyGroup s t c.gid ∧ getGroup t c.gid =
        { g with
          ops := g.ops ++ [g.newOp { id := 0, pipe := 3, slot := c.sl, kind := .tile,
                                     units := (c.lanes.filter fun L => decide (L < (c.cfg p).rows)).map (vunit v) }]
          mq := g.mq ++ [{ word (.tmovv p v j b) [] 0 0 [] c s with unit := g.nextOp + 1, op := some g.nextOp }]
          nextOp := g.nextOp + 2 })) ∧
    runs (.tmovv p v j b) fun s gid w r t =>
      (b = true → leaves (fun g w => runMovIn g p j w.lanes w.vals w.cfgs) s gid w r t) ∧
      (b = false → ∀ o id, w.op = some id → (getGroup s gid).op? id = some o →
        ({ o with vals := movOutVals (getGroup s gid) p v j w.lanes w.cfgs } : Op).plain →
        (getGroup t gid).mq = r ∧ wroteNow s t gid (movOutVals (getGroup s gid) p v j w.lanes w.cfgs) ∧
        (getGroup t gid).op? o.id = none ∧ onlyGroup (bump s) t gid)) ∧
  (Acts (.mma a p q) (semMma a p q) (plain (.mma a p q)) ∧
    runs (.mma a p q) (leaves fun g w => runMma g a p q w.lanes w.cfgs)) ∧
  Acts (.mzero a e) (semMzero a e) (plain (.mzero a e)) ∧
  (Acts (.mdrain a p v c0 b) (semMdrain a p v c0 b)
      (fun c s t => joinsQueue (word (.mdrain a p v c0 b) (c.lanes.map fun L => (L, c.v v L)) 0 0 [] c s) c s t) ∧
    runs (.mdrain a p v c0 b) (leaves fun g w => runMdrain g a p c0 b w.lanes w.vals w.cfgs)) ∧
  (Acts (.mhad p q v h b) (semMhad p q v h b) (fun c s t => joinsQueue (word (.mhad p q v h b)
      (if b then c.lanes.map fun L => (L, c.v (v + 2) L) else []) (if b then c.v64 v c.lead else 0)
      (if b then c.v (v + 3) c.lead else 0) [] c s) c s t) ∧
    runs (.mhad p q v h b) (leaves fun g w => runMhad g p q h b w.lanes w.base w.aux w.vals w.cfgs)) ∧
  (Acts (.msign p q v h) (semMsign p q v h) (fun c s t => joinsQueue (word (.msign p q v h)
      (c.lanes.map fun L => (L, c.v (v + 2) L)) (c.v64 v c.lead) (c.v (v + 3) c.lead) [] c s) c s t) ∧
    runs (.msign p q v h) (leaves fun g w => runMsign g p q h w.lanes w.base w.aux w.vals w.cfgs)) ∧
  (Acts (.mquant p q) (semMquant p q) (plain (.mquant p q)) ∧
    runs (.mquant p q) (leaves fun g w => runMquant g p q w.lanes w.cfgs)) ∧
  (Acts (.ttrans p q) (semTtrans p q) (plain (.ttrans p q)) ∧ runs (.ttrans p q) (leaves fun g w => runTtrans g p q w.cfgs)) ∧
  Acts .mbatch semMbatch fun c s t => onlyGroup s t c.gid ∧ (getGroup t c.gid).mq.length = (getGroup s c.gid).mq.length ∧
    (∀ w ∈ (getGroup t c.gid).mq, w.open? = false) ∧
    ∀ w w', w ∈ (getGroup s c.gid).mq → w' ∈ (getGroup s c.gid).mq → w.open? = true → w'.open? = true →
      ∃ u, { w with unit := u, open? := false } ∈ (getGroup t c.gid).mq ∧ { w' with unit := u, open? := false } ∈ (getGroup t c.gid).mq

/-- R184: the execution of MZERO makes every entry of its accumulator 0 and unmarked and sets its base exponent; every other
accumulator stays. The word leaves the queue. -/
def Obligations.MzeroClears : Prop := ∀ (s : State) (gid a : Nat) (e : Int) (w : MWord) (r : List MWord),
  (mapGet? s.groups gid).isSome = true → (getGroup s gid).retired = false → (getGroup s gid).mq = w :: r → w.i = .mzero a e →
  w.lanes ≠ 0 → ∃ t, exec (.matrixExecute gid) s = .next t ∧ (getGroup t gid).mq = r ∧
    (∀ i j, i < 32 → j < 32 → mapGetD (getGroup t gid).acc (a * 1024 + i * 32 + j) {} = {}) ∧
    (∀ b i j, b ≠ a → i < 32 → j < 32 → mapGetD (getGroup t gid).acc (b * 1024 + i * 32 + j) {} =
      mapGetD (getGroup s gid).acc (b * 1024 + i * 32 + j) {}) ∧
    mapGetD (getGroup t gid).accE a 0 = e ∧ (∀ b, b ≠ a → mapGetD (getGroup t gid).accE b 0 = mapGetD (getGroup s gid).accE b 0) ∧
    (getGroup t gid).regs = (getGroup s gid).regs ∧ (getGroup t gid).tiles = (getGroup s gid).tiles

/-- R35 and R185: an entry's three residues give back the integer that it holds, over the whole range of an entry. -/
def Obligations.ResiduesHoldInteger : Prop := ∀ x : Int, -140703129108480 ≤ x → x ≤ 140703129108479 →
  reconstruct { r0 := (x % 65535).toNat, r1 := (x % 65536).toNat, r2 := (x % 65521).toNat } = x

/-! ### Buffers, copies and layout records -/

/-- R197 to R199: BNEW allocates the lowest free buffer with its offset and size and gives its handle; BFREE frees a buffer and
advances its serial, 1 after 15, so that its handle is stale; BSTAT gives each active lane the state word of its handle, or all
ones for a stale one. -/
def Obligations.BufferWords : Prop := ∀ (d a : Nat) (f : Option Nat) (full : Bool),
  Acts (.bnew d a f full) (semBnew d a f full) (fun c s t => c.act ≠ 0 → ∃ i o,
    freeBuf s c.gid = some i ∧
    bufOf t c.gid i = { alloc := true, off := (c.rw a c.lead).toNat, size := (c.rw (a + 1) c.lead).toNat,
                        st := if full then .full else .free, serial := (bufOf s c.gid i).serial, last := (bufOf s c.gid i).last } ∧
    (∀ j, j ≠ i → bufOf t c.gid j = bufOf s c.gid j) ∧
    (getGroup t c.gid).ops = (getGroup s c.gid).ops ++ [o] ∧ o.flag = f ∧
    o.vals = c.outW d fun _ => BitVec.ofNat 32 (i + (bufOf s c.gid i).serial * 256)) ∧
  Acts (.bfree a) (semBfree a) (fun c s t => c.act ≠ 0 → ∀ i, bufIdx? s c.gid (c.rw a c.lead).toNat = some i →
    bufOf t c.gid i = { serial := if (bufOf s c.gid i).serial = 15 then 1 else (bufOf s c.gid i).serial + 1 } ∧
    bufIdx? t c.gid (c.rw a c.lead).toNat = none ∧ ∀ j, j ≠ i → bufOf t c.gid j = bufOf s c.gid j) ∧
  Acts (.bstat d a f) (semBstat d a f) fun c s t => ∃ o, (getGroup t c.gid).ops = (getGroup s c.gid).ops ++ [o] ∧ o.flag = f ∧
    o.vals = c.outW d fun L => match bufIdx? s c.gid (c.rw a L).toNat with
      | none => 0xFFFFFFFF
      | some i => BitVec.ofNat 32 (bufWord (bufOf s c.gid i))

/-- R200 to R203 and R208: a copy issues with its buffer FILLING or DRAINING and with a promised completion time, which goes to
the result pair; the engine's operation counts in its class and holds what it is to copy: the record and the box of CPY and
CPYO, or the queue pair, remote offset, buffer and length of CPYL. No register and no byte of memory changes at issue. -/
def Obligations.CopiesStart : Prop := ∀ (d a w qp len : Nat) (f : Option Nat),
  let starts (cls : EngClass) (out : Bool) (kind : Ctx → State → OpKind) (c : Ctx) (s t : State) : Prop := c.act ≠ 0 → ∃ q o,
    (getGroup t c.gid).ops = (getGroup s c.gid).ops ++ [q, o] ∧ q.cls = some cls ∧ q.flag = none ∧ q.kind = kind c s ∧ o.flag = f ∧
    o.vals = c.outP d (fun _ => BitVec.ofNat 64 (bufOf t c.gid ((c.rw (a + 2) c.lead).toNat % 256)).promise) ∧
    (bufOf t c.gid ((c.rw (a + 2) c.lead).toNat % 256)).st = (if out then .draining else .filling) ∧
    (getGroup t c.gid).regs = (getGroup s c.gid).regs ∧ t.mem = s.mem ∧ t.wins = s.wins
  let copy (wr : Bool) (c : Ctx) (s : State) : OpKind :=
    let r := recOf s c (c.v64 a c.lead)
    .copy { recAddr := c.v64 a c.lead, handle := (c.rw (a + 2) c.lead).toNat, off := (c.rw (a + 3) c.lead).toNat, scaleAt := r.scale,
            scb := r.scb, text := r.ext, word := w, wr := wr,
            box := { base := r.base, fmt := r.fmt, ndim := r.ndim, str := r.str, org := copyOrg c a, ext := r.box } }
  let link (wr : Bool) (c : Ctx) (s : State) : OpKind :=
    .link qp (c.v64 a c.lead) (c.rw (a + 2) c.lead).toNat (c.rw (a + 3) c.lead).toNat len s.fresh wr false
  Acts (.cpy d a f w) (semCpy d a f w) (starts .copy false (copy false)) ∧
  Acts (.cpyo d a f w) (semCpyo d a f w) (starts .copy true (copy true)) ∧
  Acts (.cpylRead d a f qp len) (semCpylRead d a f qp len) (starts .link false (link false)) ∧
  Acts (.cpylWrite d a f qp len) (semCpylWrite d a f qp len) (starts .link true (link true))

/-- R195: LREC gives each active lane a field of the record at its address, or the mask of the record's faults. -/
def Obligations.LayoutRecordReads : Prop := ∀ (d a : Nat) (f : Option Nat),
  let record (s : State) (c : Ctx) (L : Nat) : List Byte := ((recBytes? s c (c.v64 a L)).getD []).map (·.1)
  let wide (at_ : Nat) (c : Ctx) (s t : State) : Prop := ∃ o, (getGroup t c.gid).ops = (getGroup s c.gid).ops ++ [o] ∧
    o.flag = f ∧ (o.vals.map fun v => (v.1, v.2.1)) =
      (c.outP d fun L => BitVec.ofNat 64 (fieldAt (record s c L) at_ 8)).map fun v => (v.1, v.2.1)
  Acts (.lrecBase d a f) (semLrecBase d a f) (wide 0) ∧
  Acts (.lrecScale d a f) (semLrecScale d a f) (wide 8) ∧
  Acts (.lrecSeed d a f) (semLrecSeed d a f) (wide 16) ∧
  Acts (.lrecChk d a f) (semLrecChk d a f) fun c s t => ∃ o, (getGroup t c.gid).ops = (getGroup s c.gid).ops ++ [o] ∧ o.flag = f ∧
    (o.vals.map fun v => (v.1, v.2.1)) = c.lanes.map fun L => (vunit d L, BitVec.ofNat 32 (recMask (layRecOf (record s c L))))

/-! ### Tile handles -/

/-- R210 and R211: THNEW places an IDLE handle in the lowest free entry; THFREE frees an IDLE handle and advances its serial;
THQRY gives each active lane the state word of its handle, or all ones for a stale one. -/
def Obligations.TileHandleWords : Prop := ∀ (d a : Nat) (f : Option Nat),
  Acts (.thnew d a f) (semThnew d a f) (fun c s t => c.act ≠ 0 → ∃ i o,
    let e := hEntry s (ctxNumOf s c.gid) i
    freeTile s c.gid = some i ∧
    hEntry t (ctxNumOf s c.gid) i =
      { box := thBox c a (recOf s c (c.v64 a c.lead)), st := 0, alloc := true, serial := e.serial } ∧
    (∀ j, j ≠ i → hEntry t (ctxNumOf s c.gid) j = hEntry s (ctxNumOf s c.gid) j) ∧
    (getGroup t c.gid).ops = (getGroup s c.gid).ops ++ [o] ∧ o.flag = f ∧
    o.vals = c.outW d fun _ => BitVec.ofNat 32 (i + e.serial * 4096)) ∧
  Acts (.thfree a f) (semThfree a f) (fun c s t => c.act ≠ 0 → ∀ i, tileIdx? s c.gid (c.rw a c.lead).toNat = some i →
    (hEntry s (ctxNumOf s c.gid) i).st = 0 ∧ (hEntry t (ctxNumOf s c.gid) i).alloc = false ∧
    tileIdx? t c.gid (c.rw a c.lead).toNat = none) ∧
  Acts (.thqry d a f) (semThqry d a f) fun c s t => ∃ o, (getGroup t c.gid).ops = (getGroup s c.gid).ops ++ [o] ∧ o.flag = f ∧
    o.vals = c.outW d fun L => match tileIdx? s c.gid (c.rw a L).toNat with
      | none => 0xFFFFFFFF
      | some i => BitVec.ofNat 32 ((hEntry s (ctxNumOf s c.gid) i).st + b2n (hEntry s (ctxNumOf s c.gid) i).part * 8)

/-- R211, R212 and R270: TACQ names its tile's home, its physical box and its die in the entry: a host or hub tile is answered at
once with 1, and another one is PEND, with a request to its home and an operation that is to write the answer. TREL and TFLUSH
of a host tile and of one whose home is the holding die complete at once, and TREL leaves the handle IDLE; another one sends its
release or flush, and its operation waits for the acknowledgement. TSPLIT leaves the lower part in its entry and the upper part,
in the same state, in a new one, whose handle it gives. That a handle whose release another die's home has still to acknowledge stays in
its state until then, where the table of R211 names IDLE, is the model's reading (DEDUCED, log 36); that a split divides the holder's
record and the home's entry in place is its choice (log 37). -/
def Obligations.TileTenureWords : Prop := ∀ (d a dim p : Nat) (f : Option Nat) (m : AcqMode),
  Acts (.tacq d a f m) (semTacq d a f m) (fun c s t => c.act ≠ 0 → ∀ i, tileIdx? s c.gid (c.rw a c.lead).toNat = some i →
    let x := ctxNumOf s c.gid
    let e := hEntry s x i
    let pa := (lanePas s c (boxLow e.box) 1 (acqAcc m)).headD 0
    let die := dieOf s c.gid
    let named (st : Nat) : HEntry :=
      { e with st := st, part := false, pbox := physBox e.box pa, home := (homeOf pa).getD 5, die := die }
    (getGroup t c.gid).regs = (getGroup s c.gid).regs ∧
    (getGroup t c.gid).ops.length = (getGroup s c.gid).ops.length + 1 ∧ ∃ o, (getGroup t c.gid).ops.getLast? = some o ∧
      o.flag = f ∧ o.kind = .tacq i m ∧ o.units = c.lanes.map (vunit d) ∧
      (homeOf pa = some 4 ∨ homeOf pa = some 5 →
        hEntry t x i = named (if acqWr m then 3 else 2) ∧ o.status = 1 ∧ o.vals = c.outW d fun _ => 1) ∧
      (∀ h, homeOf pa = some h → h ≠ 4 → h ≠ 5 → die < 4 → s.movedPages = [] → hEntry t x i = named 1 ∧
        ∃ q ∈ (getDie t die).mine, q.why = .handle x i c.gid o.id ∧ q.home = h ∧ q.r.wr = acqWr m ∧ q.r.test = acqTest m ∧
          q.r.box = physBox e.box pa)) ∧
  (∀ rel : Bool, Acts (if rel then .trel a f else .tflush a f) (relSem a f rel) fun c s t => c.act ≠ 0 →
    ∀ i, tileIdx? s c.gid (c.rw a c.lead).toNat = some i →
      let x := ctxNumOf s c.gid
      let e := hEntry s x i
      (getGroup t c.gid).regs = (getGroup s c.gid).regs ∧
      (getGroup t c.gid).ops.length = (getGroup s c.gid).ops.length + 1 ∧ ∃ o, (getGroup t c.gid).ops.getLast? = some o ∧
        o.flag = f ∧ o.units = [] ∧
        (e.home = 5 ∨ e.home = e.die → (hEntry t x i).st = (if rel then 0 else e.st) ∧ o.kind = .result ∧ o.vals = []) ∧
        (e.home ≠ 5 → e.home ≠ e.die → (hEntry t x i).st = e.st ∧ o.kind = .trel i rel ∧
          ∃ q ∈ (getDie t e.die).mine, q.why = .release (some (x, i, c.gid, o.id)) rel ∧ q.home = e.home ∧ q.r.box = e.pbox)) ∧
  Acts (.tsplit d a f dim p) (semTsplit d a f dim p) fun c s t => c.act ≠ 0 →
    ∀ i, tileIdx? s c.gid (c.rw a c.lead).toNat = some i →
      let e := hEntry s (ctxNumOf s c.gid) i
      ∃ j o, freeTile s c.gid = some j ∧
        (hEntry t (ctxNumOf s c.gid) i).box = boxLower e.box dim p ∧ (hEntry t (ctxNumOf s c.gid) i).st = e.st ∧
        (hEntry t (ctxNumOf s c.gid) j).box = boxUpper e.box dim p ∧ (hEntry t (ctxNumOf s c.gid) j).st = e.st ∧
        (getGroup t c.gid).ops = (getGroup s c.gid).ops ++ [o] ∧ o.flag = f ∧
        o.vals = c.outW d fun _ => BitVec.ofNat 32 (j + (hEntry s (ctxNumOf s c.gid) j).serial * 4096)

/-! ### Ray and builder words -/

/-- R221 to R230: RTRACE and RANY start one operation of class RAY with the rays of their active lanes, RHIT and RGENQ one
operation that is to write their groups; no register changes at issue. RPIN pins the published generation: it records the pin,
counts it in PINS of the generation's entry, and gives the generation's number, or gives 0 where none is published or PINS is at
its maximum; RUNPIN drops a pin. -/
def Obligations.RayWordsStart : Prop := ∀ (d a : Nat) (f : Option Nat),
  let starts (cls : Option EngClass) (n : Nat) (kind : Ctx → OpKind) (c : Ctx) (s t : State) : Prop := c.act ≠ 0 →
    (getGroup t c.gid).regs = (getGroup s c.gid).regs ∧ ∃ o, (getGroup t c.gid).ops = (getGroup s c.gid).ops ++ [o] ∧
      o.flag = f ∧ o.cls = cls ∧ o.dst = d ∧ o.kind = kind c ∧ o.vals = [] ∧
      o.units = c.lanes.flatMap fun L => (List.range n).map fun r => vunit (d + r) L
  Acts (.rtrace d a f) (semRtrace d a f) (starts (some .ray) 8 fun c => .ray false (c.lanes.map (rayOf c a))) ∧
  Acts (.rany d a f) (semRany d a f) (starts (some .ray) 8 fun c => .ray true (c.lanes.map (rayOf c a))) ∧
  Acts (.rhit d a f) (semRhit d a f)
    (starts none 12 fun c => .rhit (c.lanes.map fun L => (L, c.v64 a L, c.v (a + 2) L, c.v (a + 3) L))) ∧
  Acts (.rgenq d a f) (semRgenq d a f) (starts none 2 fun c => .rgenq (c.lanes.map fun L => (L, c.v64 a L, c.v (a + 2) L))) ∧
  Acts (.rpin d a f) (semRpin d a f) (fun c s t => c.act ≠ 0 → ∃ o h pas, pinHdr s c (c.v64 a c.lead) = some (h, pas) ∧
    (getGroup t c.gid).ops = (getGroup s c.gid).ops ++ [o] ∧ o.flag = f ∧
    match (List.range 16).find? fun i => h.cur != 0 && ((h.gens[i]?).map (·.gen)) == some h.cur with
    | none => o.vals = (c.outW d fun _ => 0) ∧ (getGroup t c.gid).pins = (getGroup s c.gid).pins
    | some i =>
      let n := ((h.gens[i]?).map (·.pins)).getD 0
      (n = 2 ^ 32 - 1 → o.vals = (c.outW d fun _ => 0) ∧ (getGroup t c.gid).pins = (getGroup s c.gid).pins) ∧
      (n ≠ 2 ^ 32 - 1 → o.vals = (c.outW d fun _ => BitVec.ofNat 32 h.cur) ∧
        (getGroup t c.gid).pins = (getGroup s c.gid).pins ++ [(c.v64 a c.lead, h.cur)] ∧
        (pas.Nodup → s.served = [] → ∀ k pa, k < 4 → (pas.drop (72 + 12 * i))[k]? = some pa → homeOf pa = some 5 →
          memGet t.mem pa = (leBytes 4 (n + 1)).getD k 0))) ∧
  Acts (.runpin a f) (semRunpin a f) fun c s t => c.act ≠ 0 →
    (getGroup t c.gid).pins = (getGroup s c.gid).pins.erase (c.v64 a c.lead, c.v (a + 2) c.lead) ∧
    (getGroup t c.gid).regs = (getGroup s c.gid).regs

/-- R231 and R234: a BLD function copies its parameter block, as it stands after the release that it makes, into the queue of a
die's builders: those of the header's home, or of die 0 where that is no die. Its operation of class
BUILD counts on its flag; no register changes at issue. -/
def Obligations.BuilderWordsQueue : Prop := ∀ (fn a : Nat) (f : Option Nat) (i : Instr),
  [(0, Instr.asbuild a f), (1, .asrefit a f), (2, .asrebal a f), (3, .asimport a f), (4, .aspubl a f), (5, .asstat a f),
    (6, .asqual a f), (7, .asrecl a f)].contains (fn, i) = true →
  Acts i (bldSem fn a f) fun c s t => c.act ≠ 0 →
    let u := flushFor s c.gid c.sl .package
    let q := breqOf (blockOf64 u c a) c.gid (getGroup s c.gid).nextOp (ctxNumOf s c.gid) fn (c.v64 a c.lead)
    (getGroup t c.gid).regs = (getGroup s c.gid).regs ∧
    (∃ o, (getGroup t c.gid).ops = (getGroup s c.gid).ops ++ [o] ∧ o.flag = f ∧ o.cls = some .build ∧ o.kind = .build) ∧
    (getDie t (queueDie u q)).bq = (getDie s (queueDie u q)).bq ++ [q]

/-! ### System words -/

/-- R214 to R218: FEAT, DFEAT and TRAPINFO write their word to every lane of the slot within the step. CKPT of a context with
no mirror gives 0 at once, and else parks the path. MBPOST makes a release and posts the 64 bytes at its leader's address to
the mailbox, and parks the path until the outcome; where a byte is poisoned it gives 2 and posts nothing. -/
def Obligations.SystemWords : Prop := ∀ d a : Nat,
  Acts (.feat d) (semFeat d) (fun c s t => onlyGroup s t c.gid ∧
    wroteNow s t c.gid (c.outW d fun _ => BitVec.ofNat 32 (ctxOf s c.gid).floor)) ∧
  Acts (.dfeat d) (semDfeat d) (fun c s t => onlyGroup s t c.gid ∧
    wroteNow s t c.gid (c.outW d fun _ =>
      BitVec.ofNat 32 ((getDie s (dieOf s c.gid)).level % 16 + (Config.dieRev (dieOf s c.gid)).toNat * 256))) ∧
  (∀ k, k < 8 → Acts (.trapinfo d k) (semTrapinfo d k) fun c s t => onlyGroup s t c.gid ∧ ∀ r, c.g.trap = some r →
    wroteNow s t c.gid (c.outW d fun _ => BitVec.ofNat 32 (trapBits r / 2 ^ (32 * k) % 2 ^ 32))) ∧
  Acts (.ckpt d) (semCkpt d) (fun c s t =>
    ((ctxOf s c.gid).mirror.en = false → onlyGroup s t c.gid ∧ wroteNow s t c.gid (c.outW d fun _ => 0)) ∧
    ((ctxOf s c.gid).mirror.en = true → (getGroup t c.gid).regs = (getGroup s c.gid).regs ∧
      ∃ n, ((getGroup t c.gid).slot c.sl).waits = ((getGroup s c.gid).slot c.sl).waits ++ [.ckpt d c.pc n])) ∧
  Acts (.mbpost d a) (semMbpost d a) fun c s t =>
    let u := flushFor s c.gid c.sl .package
    let pas := lanePas u c (c.v64 a c.lead) 64 .read
    let v := resolveLine u (pas.headD 0 / 128) false
    (pas.any (poisoned v) = false → (getGroup t c.gid).regs = (getGroup s c.gid).regs ∧
      ∃ p, t.posts = s.posts ++ [p] ∧ p.mb = (c.rw (a + 2) c.lead).toNat ∧ p.msg = sliceBytes (pas.map (engByte v)) 0 64 ∧
        p.from_ = .ctx (ctxNumOf s c.gid) ∧ p.reply = .mbpost c.gid c.sl ∧
        ((getGroup t c.gid).slot c.sl).waits = ((getGroup s c.gid).slot c.sl).waits ++ [.post d p.id]) ∧
    (pas.any (poisoned v) = true → t.posts = s.posts ∧ wroteNow s t c.gid (c.outW d fun _ => 2))

/-- R220, R396 and R398: the TRC functions change nothing where the context has no trace bank; where it has one, TRC.ON turns the
group's trace on under the context's next TID, TRC.OFF turns it off, and each of TRC.ON, TRC.OFF and TRC.MARK of a group that is
traced in its cluster writes a SYNC with its reason. -/
def Obligations.TraceWords : Prop := ∀ mark : Nat,
  let banked (c : Ctx) (s : State) : Bool := hasTraceBank s (ctxNumOf s c.gid)
  Acts .trcon semTrcon (fun c s t =>
    (banked c s = false → t = s) ∧
    (banked c s = true → (getGroup t c.gid).trace.on = true ∧ (getGroup t c.gid).regs = (getGroup s c.gid).regs ∧
      ((getGroup s c.gid).trace.on = false → (getGroup t c.gid).trace.tid = (ctxOf s c.gid).tidNext)) ∧
    (banked c s = true → syncWritten s t c.gid 1 0 c.sl)) ∧
  Acts .trcoff semTrcoff (fun c s t =>
    (banked c s = false → t = s) ∧
    (banked c s = true → (getGroup t c.gid).trace.on = false ∧ (getGroup t c.gid).regs = (getGroup s c.gid).regs) ∧
    (banked c s = true → syncWritten s t c.gid 2 0 c.sl)) ∧
  Acts (.trcmark mark) (semTrcmark mark) fun c s t =>
    (banked c s = false → t = s) ∧ (getGroup t c.gid).regs = (getGroup s c.gid).regs ∧
    (getGroup t c.gid).trace.on = (getGroup s c.gid).trace.on ∧
    (banked c s = true → syncWritten s t c.gid 3 mark c.sl)

/-! ### Encodings, steps and reset -/

/-- R48, R49, R66 to R70: words written out from the spec's formats decode to the instructions they stand for; a reserved major
is ILLEGAL_OP, and a non-zero word of major 0 ILLEGAL_ENC. -/
def Obligations.DecodesListedWords : Prop :=
  decodeWords [0x00000000] = .ok .nop ∧
  decodeWords [0x030A1839] = .ok (.iadd 5 (.reg 6) (.reg 7) .s32) ∧
  decodeWords [0x030A1BC0, 0xDEADBEEF] = .ok (.iadd 5 (.reg 6) (.lit 0xDEADBEEF) .wrap) ∧
  decodeWords [0x19121839] = .ok (.bitil 9 (.reg 6) (.reg 7) .x3) ∧
  decodeWords [0x02061400] = .ok (.sreg 3 5) ∧
  decodeWords [0x20020819] = .ok (.shfl 1 (.reg 2) (.reg 3) .up) ∧
  decodeWords [0x2807FFFE] = .ok (.br (.reg 3) (-2)) ∧
  decodeWords [0x30001418] = .ok (.pset 5 3) ∧
  decodeWords [0x33000028] = .ok (.trap 5) ∧
  decodeWords [0x36000010] = .ok (.waitc .copy 2) ∧
  decodeWords [0x3802081B] = .ok (.fadd 1 (.reg 2) (.reg 3) .rup) ∧
  decodeWords [0x44020818] = .ok (.fdiv 1 (.reg 2) (.reg 3) .rne) ∧
  decodeWords [0x50082098] = .ok (.ld 4 8 (some 2) .b64 none false false) ∧
  decodeWords [0x500823D4, 0xFFFFFFF0] = .ok (.ld 4 8 none .b32 (some 0xFFFFFFF0) false false) ∧
  decodeWords [0x530823D0] = .ok (.sts 4 8 none .b32 none) ∧
  decodeWords [0x5B400001] = .ok (.fence .die .rel) ∧
  decodeWords [0x5C1001BD] = .ok (.cacheFlush 6 none .cl) ∧
  decodeWords [0x5D1120C0] = .ok (.barArrive 9 3 false) ∧
  decodeWords [0x642A8000] = .ok (.mma 1 2 5) ∧
  decodeWords [0x6C00623D] = .ok (.bnew 3 8 none true) ∧
  decodeWords [0x721081BC] = .ok (.lrecScale 4 6 none) ∧
  decodeWords [0x7500208D] = .ok (.tacq 1 2 (some 3) .wr) ∧
  decodeWords [0x79008184] = .ok (.rpin 4 6 (some 1)) ∧
  decodeWords [0x7A000190] = .ok (.asbuild 6 (some 4)) ∧
  decodeWords [0x7C40E140] = .ok (.trapinfo 7 5) ∧
  decodeWords [0x7D200000, 0x1234] = .ok (.trcmark 0x1234) ∧
  (∀ maj r l, [0x1F, 0x27, 0x37, 0x73, 0x77, 0x7B, 0x7E, 0x7F].contains maj = true → r < 2 ^ 24 →
    decodeInstr (maj * 2 ^ 24 + r) l = .error .illegalOp) ∧
  ∀ r l, 0 < r → r < 2 ^ 24 → decodeInstr r l = .error .illegalEnc

/-- For every well-formed instruction that has words, its words decode to it, with every operand at every value that the
encoding admits. -/
def Obligations.RoundTrip : Prop := ∀ i : Instr, i.wf = true → i.isWord = true → decodeWords (encode i) = .ok i

/-- With no move prescribed, bring-up done or failed and every cache within its ways, a step at a slot that can go makes `exec` of
the one instruction that the packet at its PC holds for it: its next state where that wants nothing first, and else it asks for
what the instruction wants. A packet holds in slot 1, alone, the instruction that its words decode to. -/
def Obligations.StepRunsDecoded : Prop :=
  (∀ (s s' : State) (gid cw k : Nat) (sl : PSlot) (i : Instr), trim s = s → s.agenda = [] → (6 ≤ s.phase ∨ s.fail ≠ 0) →
    s.cur = some (gid, sl) → s.idling = false → slotGoes s gid sl = true → fetch s gid sl = (s', .chain cw [(k, i)]) →
    step s = settle (orAsk s (dieOf s gid) (exec i { s' with word := cw })) ∧
    ∀ r, exec i { s' with word := cw } = .next r → r.wants = [] → step s = settle (.next (spendServed r))) ∧
  ∀ (w l : Nat) (i : Instr), decodeWords [w, l] = .ok i → w < 2 ^ 31 → (consumesLit w = false → l = 0) →
    readPacket (if consumesLit w then 0x40 else 0) (fun k => [0, w, l, 0].getD k 0) 1 = .chain (if consumesLit w then 0x40 else 0) [(1, i)]

/-- R25, R44, R64 and R65: a chain whose PC names slot 0 has the cause DIVSTACK. A cause of steps 1 and 2 is taken by
CONTROL_WORD_ISSUE, one of steps 3 to 5 by UNDEFINED_ENCODING, each as a trap of the chain with no effect, and a step at the
slot takes it. That the trap comes as soon as the slot is ready, before the waits and stalls of R60, is the model's reading (DEDUCED,
log 16), and so are the packet slot and the absent lane that it reports (DEDUCED, log 24). -/
def Obligations.FetchCausesTrap : Prop := ∀ (s s' : State) (gid cw w : Nat) (sl : PSlot) (c : Cause),
  let pc := ((getGroup s gid).slot sl).pc
  (pc / 4 % 4 = 0 → fetch s gid sl = (s, .early 0 { code := 0x0B })) ∧
  (s.cur = some (gid, sl) → slotReady s gid sl = true →
    (fetch s gid sl = (s', .early w c) → exec .controlWordIssue s = .next (chainTrap s' gid sl w pc pc c) ∧
      (trim s = s → s.agenda = [] → 6 ≤ s.phase → s.idling = false →
        step s = settle (orAsk s (dieOf s gid) (exec .controlWordIssue s)))) ∧
    (fetch s gid sl = (s', .bad cw w c) → exec .undefinedEncoding s = .next (chainTrap { s' with word := cw } gid sl w pc pc c) ∧
      (trim s = s → s.agenda = [] → 6 ≤ s.phase → s.idling = false →
        step s = settle (orAsk s (dieOf s gid) (exec .undefinedEncoding s)))))

/-- Reset leaves the values that the spec gives: bring-up phase 0 with no failure, 32 cores, 2 spares and a spare slice on each
die, no corrected error, the threshold 64, every bank in CACHE and the system's, no vector bound, every port half DOWN, every
mailbox and window disabled; it holds no group, and its tables are in canonical form (R284, R297, R315, R354, R375, R383, R392). -/
def Obligations.ResetValues : Prop :=
  State.reset.wf = true ∧ State.reset.groups = [] ∧ State.reset.phase = 0 ∧ State.reset.fail = 0 ∧ State.reset.threshold = 64 ∧
  (∀ d, (getDie State.reset d).cores = 32 ∧ (getDie State.reset d).spc = 2 ∧ (getDie State.reset d).sps = 1 ∧
    (getDie State.reset d).cecnt = 0) ∧
  (∀ k b, (getBank (getCluster State.reset k) b).mode = .cache ∧ (getBank (getCluster State.reset k) b).owner = none) ∧
  (∀ f, (getFn State.reset f).busy = false ∧ (getFn State.reset f).status = 0 ∧ (getFn State.reset f).rej = 0 ∧
    ∀ v, mapGetD (getFn State.reset f).irq v 0 = 0) ∧
  (∀ h, (getHalf State.reset h).st = 0) ∧ (∀ b, (getBox State.reset b).en = false) ∧
  (∀ i, (mapGetD State.reset.windows i {}).en = false) ∧ ∀ pa, memGet State.reset.mem pa = 0

/-- Every step that answers a next state keeps memory in its canonical form: addresses strictly rising, and no entry equal to
what an unlisted address reads as. -/
def Obligations.StepKeepsMemoryForm : Prop := ∀ s s' : State, Memory.wf s.mem = true → step s = .next s' → Memory.wf s'.mem = true

/-- R24 and R106: JD is 8 bits wide. Every step that answers a next state keeps every slot and every divergence-stack entry at a depth of
at most 255: SPLIT, which alone deepens a path, does not issue at depth 255. -/
def Obligations.StepKeepsJoinDepth : Prop := ∀ s s' : State, (∀ g ∈ s.groups, joinDepths g.2) → step s = .next s' →
  ∀ g ∈ s'.groups, joinDepths g.2

/-- The frame of the V-pipe and S-pipe words other than SREG: where one issues and no rule of R26 applies after it, its slot
stands at the next chain, one operation is added that is to write the word's destination registers of its active lanes, and
nothing else changes: no register, flag register, tile, accumulator, special register, slot, stack entry, trap record or byte of
memory, and no other group. -/
def Obligations.RegisterWordFrame : Prop := ∀ (i : Instr) (m : Sem) (s : State) (gid : Nat) (sl : PSlot),
  semOf i = some m → m.pipe < 2 → (∀ d c, i ≠ .sreg d c) → Issues s gid sl m → settled (soleEff s gid sl m) gid →
  groupDone (getGroup (soleEff s gid sl m) gid) = false → ∃ t o, exec i s = .next t ∧
    let g := getGroup (landed s gid) gid
    let v := g.slot sl
    getGroup t gid =
      { (g.setSlot sl { v with pc := soleNext s gid sl, n := cycOf s gid + 1 + cwStall s.word (pcSlot ((getGroup s gid).slot sl).pc),
                               pn := v.pn - 1 }) with ops := g.ops ++ [o], nextOp := g.nextOp + 1, turn := sl } ∧
    o.pipe = m.pipe ∧ o.units = o.vals.map (·.1) ∧
    (∀ u ∈ o.units, ∃ d ∈ m.writes, ∃ L, L < 32 ∧ (soleCtx s gid sl m).act.getLsbD L = true ∧ u = vunit d L) ∧
    (∀ h, h ≠ gid → getGroup t h = getGroup s h) ∧
    { t with groups := s.groups, cur := s.cur, cyc := s.cyc, fresh := s.fresh, idling := s.idling } = s

/-! ### Whole-device steps: operations and paths -/

/-- R59, R142, R146 to R148, R152, R156, R158, R211, R227, R228 and R230: a result step writes an operation's values into the
registers and ends what waited for it: a due V-pipe result, an S-pipe or L-pipe result, a load whose bytes can be read, atomics
whose old bytes have come, an answered TACQ, RHIT and RGENQ whose structure can be read, RUNPIN once its pin is dropped, and the
pieces of a load from the window that were left. A store that names a flag, or whose pieces are still to be performed, is
performed, to the window, to the core's cache or, with NC, to the die's where the die may write the bytes; so are the CACHE
functions whose lines can be done. A fence that its accesses allow lets its path go on. Every other register and every other group
keep their contents. -/
def Obligations.OperationsComplete : Prop := ∀ (s : State) (gid : Nat),
  (∀ o, (mapGet? s.groups gid).isSome = true → ((getGroup s gid).ops.filter fun o => o.pipe == 0 && decide (o.due < cycOf s gid)) = [o] →
    (getGroup s gid).op? o.id = some o → o.plain → ∃ t, exec (.vPipeResultWrite gid) s = .next t ∧
      wroteNow s t gid o.vals ∧ (getGroup t gid).op? o.id = none ∧ onlyGroup (bump s) t gid ∧
      ∀ sl, (getGroup t gid).slot sl = (getGroup s gid).slot sl) ∧
  (∀ o, (getGroup s gid).op? o.id = some o → o.done = false → o.plain → quietFor (getGroup s gid) (.op o.id) →
    (o.pipe = 1 → ∃ t, exec (.sPipeResultWrite gid o.id) s = .next t ∧ opLanded s t gid o.id o.vals) ∧
    (o.pipe = 2 → o.flt = none → o.cls = none →
      o.kind = .result ∨ (o.kind = .runpin ∧ ∀ p ∈ s.unpins, p.op ≠ some (gid, o.id)) ∨ (∃ h m, o.kind = .tacq h m ∧ o.status = 1) →
      ∃ t, exec (.lPipeResultWrite gid o.id) s = .next t ∧ opLanded s t gid o.id o.vals) ∧
    (∀ lines, o.kind = .store true lines [] → o.vals = [] →
      (∀ l ∈ lines, (clGet (getCore s (coreOf s gid)).l1 l).dirtyOffs = [] ∧
        (clGet (getCluster s (clusterOf (coreOf s gid))).cc l).dirtyOffs = []) →
      ∃ t, exec (.storePerformed gid o.id) s = .next t ∧ opLanded s t gid o.id []) ∧
    (∀ lines rest, let core := coreOf s gid
      let die := dieOfCore core
      o.kind = .store true lines rest → o.vals = [] →
      (∀ e ∈ rest, canWrite s die e.1 = true ∧ lostByte s e.1 = false ∧ releasing (getDie s die) (e.1 / 128) = false) →
      (∀ l ∈ lines, (clGet (getCore s core).l1 l).dirtyOffs = [] ∧ (clGet (getCluster s (clusterOf core)).cc l).dirtyOffs = []) →
      ∃ t, exec (.storePerformed gid o.id) s = .next t ∧ wroteNow s t gid [] ∧ (getGroup t gid).op? o.id = none ∧
        (∀ sl, (getGroup t gid).slot sl = ((getGroup s gid).slot sl).unblock (.op o.id)) ∧
        ∀ pa b h, lastByte rest pa = some b → homeOf pa = some h → h ≠ 4 → dieByte t die pa = b ∨ homeByte t pa = b) ∧
    (∀ rest, o.kind = .wstore rest → o.vals = [] → ∃ t, exec (.storePerformed gid o.id) s = .next t ∧ opLanded s t gid o.id [] ∧
      ∀ x, winByte (getWin t (teamOf s gid).win) x = (lastByte rest x).getD (winByte (winOf s gid) x)) ∧
    (∀ lines rest, o.kind = .store false lines rest → o.vals = [] →
      ∃ t, exec (.storePerformed gid o.id) s = .next t ∧ opLanded s t gid o.id [] ∧
        ∀ pa, coreByte? t (coreOf s gid) pa = match lastByte rest pa with
          | some b => some b
          | none => coreByte? s (coreOf s gid) pa) ∧
    (∀ lv lines, o.kind = .prefetch lv lines → o.vals = [] →
      (∀ l ∈ lines, lostByte s (l * 128) = true ∨ homeOf (l * 128) = some 4 ∨ canRead s (dieOfCore (coreOf s gid)) (l * 128) = true) →
      ∃ t, exec (.storePerformed gid o.id) s = .next t ∧ opLanded s t gid o.id []) ∧
    (∀ inv lv lines, o.kind = .cacheOp inv lv lines → o.vals = [] → (cacheTry s (coreOf s gid) inv lv lines).2 = [] →
      ∃ t, exec (.storePerformed gid o.id) s = .next t ∧ wroteNow s t gid [] ∧ (getGroup t gid).op? o.id = none ∧
        ∀ sl, (getGroup t gid).slot sl = ((getGroup s gid).slot sl).unblock (.op o.id))) ∧
  (∀ o vals, (getGroup s gid).op? o.id = some o → o.done = false → o.pipe = 2 → o.flt = none → o.cls = none → o.vals = [] →
    ({ o with vals := vals } : Op).plain → quietFor (getGroup s gid) (.op o.id) →
    (∀ n sx l bs, o.kind = .load n sx false [l] → l.got = [] → loadBytes? s (coreOf s gid) false l.pas = some bs →
      vals = loadVals n sx o.dst l.lane bs → ∃ t, exec (.lPipeResultWrite gid o.id) s = .next t ∧ opLanded s t gid o.id vals) ∧
    (∀ n sx ls, o.kind = .load n sx false ls → (takeLoad s gid o n sx false ls).2.kind = .result →
      vals = (takeLoad s gid o n sx false ls).2.vals →
      ∃ t, exec (.lPipeResultWrite gid o.id) s = .next t ∧ opLanded s t gid o.id vals) ∧
    (∀ n sx ls, o.kind = .wload n sx ls → vals = (ls.flatMap fun l => loadVals n sx o.dst l.lane
        (l.pas.map fun x => (mapGet? l.got x).getD (winByte (winOf s gid) x, winPoison (winOf s gid) x 1))) →
      ∃ t, exec (.lPipeResultWrite gid o.id) s = .next t ∧ opLanded s t gid o.id vals) ∧
    (∀ op n sc k lanes sent back, o.kind = .atomic op n sc k lanes sent back → 0 < n →
      (∀ l ∈ lanes, (mapGetD back l.1 []).length = n) →
      vals = (if o.units = [] then [] else
        lanes.flatMap fun l => loadVals n false o.dst l.1 ((mapGetD back l.1 []).map fun b => (b, false))) →
      ∃ t, exec (.lPipeResultWrite gid o.id) s = .next t ∧ opLanded s t gid o.id vals) ∧
    ((∃ ls, o.kind = .rhit ls) ∨ (∃ ls, o.kind = .rgenq ls) → structVals s gid o = .ok vals →
      ∃ t, exec (.lPipeResultWrite gid o.id) s = .next t ∧
        opLanded (markReads s (ctxOf s gid) (structReads (readerOf s gid o.failed) o)) t gid o.id vals)) ∧
  ∀ sl sc k id, let v := (getGroup s gid).slot sl
    v.waits = [.fence sc k id] → v.st = .active → quietFor (getGroup s gid) (.fence sc k id) → (fenceTry s gid sl sc k id).2 = true →
    ((getGroup s gid).slot (otherSlot sl)).waits = [] →
    ∃ t, exec (.fenceComplete gid sl) s = .next t ∧ (getGroup t gid).slot sl = { v with waits := [] } ∧
      (getGroup t gid).slot (otherSlot sl) = (getGroup s gid).slot (otherSlot sl) ∧ (getGroup t gid).regs = (getGroup s gid).regs

/-- R7, R30, R109 and R326: while its team runs, a sleeping path whose cycle count or deadline has passed wakes; a SLEEP.B at its promise with its buffer
not FULL traps PROMISE_MISS with its handle; a parked chain is executed as a die with every instruction would execute it. -/
def Obligations.PathsWake : Prop := ∀ (s : State) (gid : Nat) (sl : PSlot),
  let g := getGroup s gid
  let v := g.slot sl
  (∀ w, v.st = .sleep → v.waits = [w] → ((∃ n, w = .cycle n ∧ n ≤ cycOf s gid) ∨ ∃ n, w = .time n ∧ n ≤ ctxTime s (ctxOf s gid)) →
    (teamOf s gid).saved = false → (teamOf s gid).preempt = none → g.stack = [] → (g.slot (otherSlot sl)).st = .free →
    ∃ t, exec (.sleepWake gid sl) s = .next t ∧ onlySlot s t gid sl { v with st := .active, waits := [] }) ∧
  (∀ h pc w, v.st = .sleep → v.waits = [.buffer h pc w] → (teamOf s gid).saved = false → (teamOf s gid).preempt = none →
    g.emulates = false →
    (bufOf s gid (h % 256)).promise ≤ ctxTime s (ctxOf s gid) → (bufOf s gid (h % 256)).st ≠ .full → g.trap = none →
    (lrecOf s gid).handler ≠ 0 → ∃ t, exec (.promiseMiss gid sl) s = .next t ∧
      (getGroup t gid).trap = some { code := 0x09, word := w, pslot := sl, jd := v.jd, pc := pc, sc := g.stack.length, res := v.pc,
                                     pv := v.pv, pn := v.pn, detail := h } ∧
      ((getGroup t gid).slot sl).pc = (lrecOf s gid).handler + 4 ∧ ((getGroup t gid).slot sl).st = .active) ∧
  (∀ s1 s2 cw is, v.waits.contains .emulate = true → fetch (emulReady s gid sl) gid sl = (s1, .chain cw is) →
    issueChain { s1 with word := cw } gid sl (chainOf is) = some s2 → ∃ t, exec (.emulateComplete gid sl) s = .next t ∧
      { t with teams := s2.teams, dies := s2.dies } = s2 ∧ (getDie t (dieOf s gid)).level = (getDie s (dieOf s gid)).level)

/-- R202, R204, R208, R226, R231, R344 and R367: a copy with no byte inside its tensor moves no byte of memory, and a CPY puts its
empty image in the window; a copy of one run of bytes in one host page, once its engine has begun or where the run lies in one
sector, moves them between the page and the window (which sectors a beginning engine leaves is free, log 91). A CPYL.READ of a
memory queue pair takes the bytes of the pair's window, a CPYL.WRITE with credit puts the window's bytes there and takes the
credit, and one to a mailbox is sent. The buffer is then FULL with status 0 and the operation is over. A traversal whose pages
are there writes its records; the lowest free builder takes the next request; a request that a builder has served leaves it. -/
def Obligations.EnginesComplete : Prop := ∀ (s : State) (gid : Nat),
  let core := coreOf s gid
  let win := (teamOf s gid).win
  let outstanding (o : Op) : Prop := (getGroup s gid).op? o.id = some o ∧ o.done = false ∧ o.flt = none ∧
    (∀ e ∈ s.groups, e.2.a.waits = [] ∧ e.2.b.waits = []) ∧ (∀ x ∈ s.ctxs, x.2.moving = none) ∧ quietFor (getGroup s gid) (.op o.id) ∧
    (mapGet? s.wins win).isSome = true ∧ (mapGet? s.teams (getGroup s gid).team).isSome = true
  let ended (t : State) (o : Op) (h : Nat) : Prop := (bufOf t gid (h % 256)).st = .full ∧ (bufOf t gid (h % 256)).status = 0 ∧
    (∀ p ∈ (getGroup t gid).ops, p.id = o.id → p.done = true) ∧ (getGroup t gid).regs = (getGroup s gid).regs
  (∀ o d, outstanding o → o.kind = .copy d → bits d.word 5 4 = 0 → bits d.word 20 18 = 0 →
    (∀ p ∈ (getGroup s gid).ops, accessOp p = false) → (bufOf s gid (d.handle % 256)).serial = bits d.handle 11 8 →
    let at_ := (bufOf s gid (d.handle % 256)).off + d.off
    let acc : Acc := if d.wr then .engWrite else .engRead
    let x := ctxOf s gid
    d.bad = false →
    (copyRuns d = [] → ∃ t, exec (.copyComplete gid o.id) s = .next t ∧ ended t o d.handle ∧ t.mem = s.mem ∧
      (d.wr = true → t.wins = s.wins) ∧
      (d.wr = false → winBytes (getWin t win) at_ (emptyImage d).length = emptyImage d)) ∧
    (∀ r, o.failed = [] → d.moved = [] → runPieces s x acc (copyRuns d) = [(r, none)] →
      let pas := engPas s x r.va r.n acc
      d.begun = true ∨ (sectorsOf pas).length < 2 →
      let u := engMark s x r.va r.n acc
      (∀ pa ∈ pas, homeOf pa = some 5 ∧ poisoned u pa = false ∧ (clGet (getCore s core).l1 (pa / 128)).dirty = 0 ∧
        (clGet (getCluster s (clusterOf core)).cc (pa / 128)).dirty = 0) →
      (d.wr = false → ∃ t, exec (.copyComplete gid o.id) s = .next t ∧ ended t o d.handle ∧ ∀ j, j < (emptyImage d).length →
        winByte (getWin t win) (at_ + j) = match (if j < r.img then none else (pas.take r.n)[j - r.img]?) with
          | some pa => engByte u pa
          | none => (emptyImage d).getD j 0) ∧
      (d.wr = true → pas.Nodup → s.served = [] → (getWin s win).poison = [] → ∃ t, exec (.copyComplete gid o.id) s = .next t ∧ ended t o d.handle ∧
        t.wins = s.wins ∧ ∀ i pa, pas[i]? = some pa → i < r.n → memGet t.mem pa = winByte (getWin s win) (at_ + r.img + i)))) ∧
  (∀ o qp ro h off len seq wr, outstanding o → o.kind = .link qp ro h off len seq wr false → 0 < len →
    released s gid o.id o.apart .pair = (s, true) → (∀ e ∈ linksOf s (ctxNumOf s gid) qp, seq ≤ linkSeq e.2) →
    let q := getQp s (ctxNumOf s gid) qp
    let at_ := (bufOf s gid (h % 256)).off + off
    q.st = 1 → companionDocked s q.peer = true → (bufOf s gid (h % 256)).serial = bits h 11 8 → winPoison (getWin s win) at_ len = false →
    (q.kind = 0 → wr = false → (∀ i, i < len → poisoned s (q.rbase + ro + i) = false) →
      ∃ t, exec (.copyComplete gid o.id) s = .next t ∧ ended t o h ∧ t.mem = s.mem ∧
        ∀ i, i < len → winByte (getWin t win) (at_ + i) = engByte s (q.rbase + ro + i)) ∧
    (q.kind = 0 → wr = true → creditsOf len ≤ q.cred → ∃ t, exec (.copyComplete gid o.id) s = .next t ∧ ended t o h ∧ t.wins = s.wins ∧
      getQp t (ctxNumOf s gid) qp = { q with cred := q.cred - creditsOf len } ∧
      ∀ i, i < len → memGet t.mem (q.rbase + ro + i) = winByte (getWin s win) (at_ + i)) ∧
    (q.kind ≠ 0 → wr = true → creditsOf len ≤ q.cred → 64 ≤ len → ∀ half, halfOfAgent s q.peer = some half →
      ∃ t m, exec (.copyComplete gid o.id) s = .next t ∧ lastOut t half = some m ∧ m.ptype = 0x11 ∧
        getQp t (ctxNumOf s gid) qp = { q with cred := q.cred - creditsOf len } ∧
        (getGroup t gid).op? o.id = some { o with kind := .link qp ro h off len seq wr true, status := 0 })) ∧
  (∀ o any rays vals, (getGroup s gid).op? o.id = some o → o.done = false → o.flt = none → o.kind = .ray any rays →
    rayVals s gid o any rays = .ok vals →
    (∀ v ∈ vals, o.wanted v.1 = true) → (vals.map (·.1)).Nodup → quietFor (getGroup s gid) (.op o.id) →
    ∃ t, exec (.rayRecordWrite gid o.id) s = .next t ∧ wroteNow s t gid vals ∧ ∀ p ∈ (getGroup t gid).ops, p.id = o.id → p.done = true) ∧
  (∀ die q, mapGet? (getDie s die).serving 0 = none → nextRequest s die = some q →
    ∃ t, exec (.builderDispatch die) s = .next t ∧ mapGet? (getDie t die).serving 0 = some { q with start := s.tb } ∧
      (getDie t die).bq = (getDie s die).bq.erase q ∧ t.mem = s.mem) ∧
  ∀ die n q u, n < 2 → mapGet? (getDie s die).serving n = some q → finishRequest s q = .ok u → (∀ x ∈ u.ctxs, x.2.moving = none) →
    ∃ t, exec (.buildRequestComplete die n) s = .next t ∧ mapGet? (getDie t die).serving n = none ∧ t.mem = u.mem ∧ t.groups = u.groups

/-- R293, R294 and R301: a walk that finds a permitted leaf, where the cluster's TLB holds no translation, fills the core's TLB with
the leaf's page, home and rights; one whose entry is not valid or reserved leaves a fault of its context, cause and page
outstanding. -/
def Obligations.WalkFillsOrReports : Prop := ∀ (s : State) (core ctx va : Nat) (wr : Bool),
  let x := getCtx s ctx
  x.st ≠ 0 → core < 128 →
  (∀ l, tlbFind s core x va = none → tlbLook (getCluster s (clusterOf core)).tlb x va = none → walk s x va = .ok l →
    ∃ t e, exec (.translationWalk core ctx va wr) s = .next t ∧
      e ∈ (getCore t core).tlb ∧ e.va = va / 131072 ∧ e.size = l.size ∧ e.pa = l.pa / 131072 ∧ e.home = l.home ∧ e.ctx = x.num ∧
      e.ten = tenantOf x ∧ e.w = l.w ∧ e.x = l.x ∧ e.dset = wr) ∧
  ∀ f, walk s x va = .error f → f.cause < 2 → ∃ t, exec (.translationWalk core ctx va wr) s = .next t ∧
    ∃ o ∈ t.faults, o.ctx = x.num ∧ o.cause = f.cause ∧ o.page = va / 131072 % 2 ^ 31

/-! ### Whole-device steps: tenure -/

/-- R261 to R275: what the delivery of each tenure message does, and the steps around it. A request whose page has not moved
joins its home's queue, which has room, and one whose page has moved is refused as MOVED; a holder of nothing answers Fwd, Inv,
Recall and BackInv with InvAck, unless it awaits data of that box; a holder of a line sends its dirty bytes, in Data for Fwd and in WbData
for Recall and BackInv, and answers InvAck, and keeps the line, as a sharer or as its owner, after a Fwd of a read alone; Grant and Data are recorded with the request, InvAck with the
transaction, WbData at the home; a request refused as BUSY is sent again after 256 ticks; a message of one flit is complete when
it arrives; and a request that no entry meets makes its own entry and is granted. -/
def Obligations.TenureMessagesTaken : Prop := ∀ (s : State) (src dst : Nat) (body : List Byte), dst < 4 →
  let q := reqOfBody body
  let d := dataOfBody body
  let a := ackOfBody body
  (∀ wr, dueMsg s src dst (b2n wr) body → ∃ t, exec (if wr then .reqwr src dst else .reqrd src dst) s = .next t ∧
    (mapGet? s.movedPages q.page = none → outside s q = false →
      (q.req = dst ∨ ((getDie s dst).queue.filter fun r => r.set / 128 == q.set / 128).length < 64 ∧ sliceDue s dst (q.set / 128) = false) →
      (getDie t dst).queue = (getDie s dst).queue ++ [q]) ∧
    ((mapGet? s.movedPages q.page).isSome = true → q.req ≠ dst → q.req < 8 → hasRoom s dst q.req →
      (getDie t dst).queue = (getDie s dst).queue ∧ ∃ f, sentFlit s t q.req 10 f ∧ f.body.getD 3 0 = 1)) ∧
  (∀ i k, [(3, Instr.fwd src dst), (5, .inv src dst), (7, .recallMsg src dst), (9, .backinv src dst)].contains (k, i) = true →
    dueMsg s src dst k body → dataAwaited s src dst { type := k, body := body } = false → src < 8 → src ≠ dst → hasRoom s dst src →
    heldStates s dst q.box = [] → ∃ t f, exec i s = .next t ∧ sentFlit s t src 6 f ∧
      f.body.getD 3 0 = 128 ∧ t.dies = s.dies ∧ t.mem = s.mem) ∧
  (∀ i k l st, [(3, Instr.fwd src dst), (5, .inv src dst), (7, .recallMsg src dst), (9, .backinv src dst)].contains (k, i) = true →
    dueMsg s src dst k body → dataAwaited s src dst { type := k, body := body } = false → src < 4 → src ≠ dst → q.box = lineBox l →
    homeOf (l * 128) = some src → holdsLine s dst l st → st ≠ .i → (k = 5 → st = .s) →
    (getChan s dst src).held = [] → (getChan s dst src).undelivered < 32767 →
    (k = 3 → q.req < 8 ∧ q.req ≠ dst ∧ (getChan s dst q.req).held = [] ∧ (getChan s dst q.req).undelivered < 32767) →
    ∃ t f fs, exec i s = .next t ∧ t.flits = s.flits ++ fs ++ [f] ∧ f.dst = src ∧ f.type = 6 ∧
      let c := clGet (getDie s dst).l2 l
      (k = 3 → carriesDirty c l q.req 4 1 q fs ∧ f.body.getD 4 0 = if c.dirtyOffs = [] then 0 else 1) ∧ (k = 5 → fs = []) ∧
      (7 ≤ k → carriesDirty c l src 8 (if k = 7 then 1 else 2) q fs) ∧
      (k = 3 → q.wr = false → f.body.getD 3 0 = (if st = .m ∨ st = .o then 2 else 1) ∧
        (∃ r, (getDie t dst).recs = [r] ∧ r.st = afterFwdRead st) ∧ (getDie t dst).l2 = (getDie s dst).l2) ∧
      (k ≠ 3 ∨ q.wr = true → f.body.getD 3 0 = 0 ∧ (getDie t dst).recs = [] ∧
        ∀ o, o < 128 → bit (clGet (getDie t dst).l2 l).present o = false)) ∧
  (∀ m, dueMsg s src dst 2 body → (getDie s dst).mine = [m] → m.r.txn = a.txn → a.code < 2 → m.recv < a.ndata →
    ∃ t, exec (.grant src dst) s = .next t ∧ (getDie t dst).mine = [{ m with grant := some (a.code, a.ndata) }]) ∧
  (∀ m, dueMsg s src dst 4 body → (getDie s dst).mine = [m] → m.r.txn = d.txn → m.home ≠ dst → m.grant = none → m.why ≠ .engine →
    d.kind = 0 → ∃ t, exec (.data src dst) s = .next t ∧
      (getDie t dst).mine = [{ m with recv := m.recv + 1, hdata := d.bytes.foldl (fun f e => mapSet f e.1 e.2) m.hdata }]) ∧
  (∀ x key k r, dueMsg s src dst 6 body → (getDie s dst).mine = [] → (getDie s dst).txs = [x] → x.freq = a.req → x.ftxn = a.txn →
    x.owed = (src, key) :: (k, r) :: [] → ∃ t, exec (.invack src dst) s = .next t ∧
      (getDie t dst).txs = [{ x with owed := [(k, r)], nd := x.nd + a.ndata, outs := x.outs ++ [(key, src, a.code % 4)] }]) ∧
  (dueMsg s src dst 8 body → d.kind < 3 → d.line % 128 = 0 → homeOf d.line = some dst → ∃ t, exec (.wbdata src dst) s = .next t ∧
    ∀ i, i < 128 → bit d.mask i = true → homeByte t (d.line + i) = d.data.getD i 0) ∧
  (∀ m, dueMsg s src dst 10 body → (getDie s dst).mine = [m] → m.r.txn = a.txn → a.code = 2 → ∃ t, exec (.nack src dst) s = .next t ∧
    (getDie t dst).mine = [{ m with busyAt := some s.tb }]) ∧
  (∀ m at_, (getDie s dst).mine = [m] → m.busyAt = some at_ → at_ + 256 ≤ s.tb → m.home < 8 → hasRoom s dst m.home →
    ∃ t, exec (.busyResend dst m.r.txn) s = .next t ∧ (getDie t dst).mine = [{ m with busyAt := none }] ∧
      t.flits.length = s.flits.length + 2 ∧ ∃ f, t.flits[s.flits.length]? = some f ∧ f.dst = m.home ∧ f.type = b2n m.r.wr) ∧
  (∀ n f, s.flits[n]? = some f → f.type < 11 → f.fidx = 0 → f.fcnt = 0 → (∀ p ∈ (getChan s f.src f.dst).part, p.msgno ≠ f.msgno) →
    mapGet? (getChan s f.src f.dst).whole f.msgno = none → f.dst < 16 → ∃ t, exec (.flit n) s = .next t ∧ t.flits = dropAt s.flits n ∧
      mapGet? (getChan t f.src f.dst).whole f.msgno = some { type := f.type, body := f.body }) ∧
  (∀ r, (getDie s dst).queue = [r] → (getDie s dst).dir = [] → (getDie s dst).rsv = [] → (getDie s dst).txs = [] → (getDie s dst).mine = [] →
    r.req ≠ dst → r.req < 8 → r.at_ = false → ∃ t, exec (.requestStart dst r.set) s = .next t ∧ (getDie t dst).queue = [] ∧
      mapGet? (getDie t dst).dir (r.set * 16) = some { dst := if r.wr then 2 else 1, impl := r.impl, hold := [r.req],
                                                       owner := if r.wr then r.req else 0, gstamp := gstampOf s.tb, box := r.box })

/-! ### Whole-device steps: launches, teams, checkpoints, trace -/

/-- R217, R314, R316, R326 to R331: a message that its mailbox takes is queued, and an MBPOST that sent it ends with 0; the
template of a queued message is read and checked, and a sound one waits for its turn; a launch whose turn has come starts with
the record read from it and the code as it stands; a team of a gang that is called on, or whose slice is over, is to be saved; a
team saved at its safe point is saved, and a restored one runs again. -/
def Obligations.LaunchesAndTeams : Prop := ∀ (s : State),
  (∀ n p, s.posts[n]? = some p → (∀ o ∈ s.posts.take n, ¬ (o.from_ = p.from_ ∧ o.mb = p.mb)) → (getBox s p.mb).en = true →
    senderOk s p.from_ p.mb = true → (getBox s p.mb).count ≠ (getBox s p.mb).qdepth + 1 → (getBox s p.mb).tmpl ≠ 0 →
    ∃ w, exec (.mailboxArrival n) s = .next (checkBox (replyPost w p 0) p.mb) ∧ (getBox w p.mb).count = (getBox s p.mb).count + 1 ∧
      w.posts = dropAt s.posts n ∧ ∀ gid x d sl, p.reply = .mbpost gid x → let v := (getGroup s gid).slot sl
        v.waits = [.post d p.id] → v.st = .active → ((getGroup s gid).slot (otherSlot sl)).waits = [] →
        quietFor (getGroup s gid) (.post d p.id) → let g := getGroup (replyPost w p 0) gid
        g.slot sl = { v with waits := [] } ∧ ∀ L, v.mask.getLsbD L = true → mapGetD g.regs (vunit d L) 0 = 0) ∧
  (∀ mb q, let b := getBox s mb
    let x := getCtx s b.ctx
    let u := engMark s x b.tmpl 128 .engRead
    let pas := engPas u x b.tmpl 128 .engRead
    let raw := pas.map (engByte u)
    canStart s mb = false → b.count = 1 → b.tmpl ≠ 0 → b.blocked = none → x.st ≠ 0 → b.unchecked = some q →
    engFail s x b.tmpl 128 .engRead = none → pas.any (poisoned u) = false → formatOk raw b.rt = true → resourceOk (lrecOfBytes raw) = true →
    ∃ t, exec (.launchStart mb) s = .next t ∧
      mapGet? (getBox t mb).ready q = some { messageLaunch s mb q with raw := raw, lr := lrecOfBytes raw }) ∧
  (∀ mb l, canStart s mb = true → nextLaunch s mb = some l → ∃ w, exec (.launchStart mb) s = .next (schedule w) ∧
    mapGet? w.launches s.nextId = some { l with order := s.nextId, code := some (codeNow s) } ∧
    (getBox w mb).started = (getBox s mb).place l.qidx + 1) ∧
  (∀ tid, (gangTeams s tid).contains tid = true →
    ((gangCalls s tid).isSome = true → ∃ t, exec (.preemptRequest tid) s = .next t ∧ (getTeam t tid).preempt.isSome = true ∧ t.groups = s.groups) ∧
    (sliceOver s tid = true → ∃ t, exec (.sliceExpiry tid) s = .next t ∧ (getTeam t tid).preempt.isSome = true ∧ t.groups = s.groups)) ∧
  (∀ tid, gangTeams s tid = [tid] → (getTeam s tid).saved = false → (getTeam s tid).gone = false → (getTeam s tid).preempt.isSome = true → teamSafe s tid = true →
    treatment s tid = .save → ∃ w, exec (.safePoint tid) s = .next (advanceMoves (schedule w)) ∧ (getTeam w tid).saved = true ∧
      (getTeam w tid).preempt = none) ∧
  ∀ tid p o, (restoreNext s tid).isSome = true → restoreSpots s tid = some [p] →
    (s.teams.find? fun o => o.2.launch == (getTeam s tid).launch && o.2.index == p.idx && !o.2.ended) = some (tid, o) →
    ∃ w, exec (.teamRestore tid) s = .next (schedule w) ∧ (getTeam w tid).saved = false ∧ (getTeam w tid).core = p.core

/-- R216, R363 to R365 and R395: INTERVAL starts the next checkpoint; one whose image is written commits, with its number at the
commit address and a COMMIT to the companion, and a slot parked in CKPT for it runs on with the number in d; a trace bank's oldest
packet goes to the ring where it fits, and a LOSS that is due takes the room; a page asked for across the pair four times moves to a
free frame, and stays, with its count restarted, where there is none. The pool that a page moves to is the model's choice (DESIGN
CHOICE, log 73), and so are the places of the fields in the body of COMMIT (DESIGN CHOICE, log 115). -/
def Obligations.CheckpointsTraceAndMoves : Prop := ∀ s : State,
  (∀ ctx, checkpointDue s ctx = true → ∃ t, exec (.checkpointTimer ctx) s = .next t ∧
    (getCtx t ctx).mirror.inProgress = some ((getCtx s ctx).mirror.lastNo + 1) ∧
    (getCtx t ctx).mirror.lastNo = (getCtx s ctx).mirror.lastNo + 1) ∧
  (∀ ctx n half, (getCtx s ctx).mirror.inProgress = some n → (getCtx s ctx).mirror.imgDone = true →
    mirrorHalf s (getCtx s ctx) = some half → s.groups = [] → (∀ x ∈ s.ctxs, x.2.moving = none) → ∃ t o,
      exec (.checkpointCommit ctx) s = .next t ∧ (getCtx t ctx).mirror.inProgress = none ∧ (getCtx t ctx).mirror.committed = n ∧
      (∀ i, i < 8 → memGet t.mem ((getCtx s ctx).mirror.commit + i) = BitVec.ofNat 8 (n / 256 ^ i)) ∧
      lastOut t half = some o ∧ o.ptype = 0x20 ∧ o.ctx = ctx ∧ o.body = leBytes 4 ctx ++ leBytes 8 n) ∧
  (∀ ctx n half gid g sl d pc, (getCtx s ctx).mirror.inProgress = some n → (getCtx s ctx).mirror.imgDone = true →
    mirrorHalf s (getCtx s ctx) = some half → s.groups = [(gid, g)] → ctxNumOf s gid = ctx → (∀ x ∈ s.ctxs, x.2.moving = none) →
    linksToCome s ctx = false → (g.slot sl).waits = [.ckpt d pc (some n)] → (g.slot sl).st = .active → (g.slot (otherSlot sl)).waits = [] →
    quietFor g (.ckpt d pc (some n)) → ∃ t, exec (.checkpointCommit ctx) s = .next t ∧
      (getGroup t gid).slot sl = { g.slot sl with waits := [] } ∧
      ∀ L, (g.slot sl).mask.getLsbD L = true → mapGetD (getGroup t gid).regs (vunit d L) 0 = BitVec.ofNat 32 (n % 2 ^ 31)) ∧
  (∀ k, let c := getCluster s k
    let fifo := (getBank c c.trace.bank).fifo
    c.trace.en = true → c.trace.flt = none → fifo ≠ [] →
    let x := getCtx s c.trace.ctx
    let wp := leValue (engRead s x c.trace.ring 8)
    engFail s x c.trace.ring 64 .engWrite = none →
    (∀ i, i < headLen fifo → engFail s x (c.trace.ring + 64 + (wp + 4 * i) % (c.trace.rsize * 4096)) 4 .engWrite = none) →
    (wp : Int) + 4 * headLen fifo - leValue (engRead s x (c.trace.ring + 8) 8) ≤ (c.trace.rsize * 4096 : Nat) →
    ∃ t, exec (.traceDrain k) s = .next t ∧ (getBank (getCluster t k) c.trace.bank).fifo = fifo.drop (headLen fifo) ++
      (if c.trace.loss = 0 ∨ fifoCap < (fifo.drop (headLen fifo)).length + 2 then [] else [5, BitVec.ofNat 32 c.trace.loss])) ∧
  ∀ ctx va l d, walk s (getCtx s ctx) va = .ok l → l.level = 0 → l.mob = true → l.home ≠ 5 → 4 ≤ mapGetD s.moves (l.pa / 131072) 0 →
    moveDest s (l.pa / 131072) l.home = some d →
    (s.halves.any fun h => h.2.agent == (if 8 ≤ d then d else l.home) && h.2.st == 4 && decide (2 ≤ h.2.ver)) = true →
    ∃ t, exec (.pageHomeMove ctx va) s = .next t ∧ mapGet? t.moves (l.pa / 131072) = none ∧
      (mapGetD s.pools d [] = [] → t.mem = s.mem ∧ t.movedPages = s.movedPages) ∧
      ∀ f r, mapGetD s.pools d [] = f :: r → mapGet? t.movedPages (l.pa / 131072) = some f

/-! ### Whole-device steps: errors and power -/

/-- R145, R288, R381 to R385 and R391: what an error does where it strikes, in a cache, a sector, a register, a tile, an accumulator, a
FIFO, a scratch window, control state or a slice's tags, which sends the slice into retirement; a core at the threshold stops taking teams and, with
none on it, gives way to a spare; a slice or a page that is to be retired gives way to a spare or moves to a frame; a window of
corrected errors that ends clears the counts used for retirement, but of a core that is being retired; a power state is entered. The
places at which an error strikes are forms of one event (DEDUCED, log 100); the marks of a window's bytes (log 33) and the pool that
gives the frame of a retired page (log 95) are the model's choices (DESIGN CHOICE). -/
def Obligations.ErrorsAndRetirement : Prop := ∀ s : State,
  (∀ core, core < 128 → ∃ t, exec (.memoryError (.corrected core)) s = .next t ∧ (getCore t core).ce = (getCore s core).ce + 1 ∧
    (getDie t (core / 32)).cecnt = min ((getDie s (core / 32)).cecnt + 1) (max (getDie s (core / 32)).cecnt 65535)) ∧
  (∀ die slice, die < 4 → slice < 16 → ∃ t, exec (.memoryError (.correctedSlice die slice)) s = .next t ∧
    mapGetD (getDie t die).sliceCe slice 0 = mapGetD (getDie s die).sliceCe slice 0 + 1) ∧
  (∀ pa, (homeOf pa).isSome = true → overwritten s pa = false →
    ∃ t, exec (.memoryError (.sector pa)) s = .next t ∧ poisoned t pa = true) ∧
  (∀ core pa, bit (clGet (getCore s core).l1 (pa / 128)).present (pa % 128) = true → ∃ t,
    exec (.memoryError (.copy 0 core pa)) s = .next t ∧ poisoned t pa = true ∧
      bit (clGet (getCore t core).l1 (pa / 128)).present (pa % 128) = false ∧ t.mem = s.mem) ∧
  (∀ g reg lane, (mapGet? s.groups g).isSome = true → reg < (lrecOf s g).regs * 8 → lane < 32 →
    ∃ t, exec (.memoryError (.register g reg lane)) s = .next t ∧ (getGroup t g).marks.contains (vunit reg lane) = true ∧
      (getGroup t g).regs = (getGroup s g).regs) ∧
  (∀ g t, (mapGet? s.groups g).isSome = true → t < 8 → ∃ u, exec (.memoryError (.tile g t)) s = .next u ∧
    (getGroup u g).tmarks.contains t = true ∧ (getGroup u g).tiles = (getGroup s g).tiles) ∧
  (∀ g a e, (mapGet? s.groups g).isSome = true → a < (lrecOf s g).accs → e < 1024 →
    ∃ t, exec (.memoryError (.accumulator g a e)) s = .next t ∧
      mapGetD (getGroup t g).acc (a * 1024 + e) {} = { mapGetD (getGroup s g).acc (a * 1024 + e) {} with ps := true }) ∧
  (∀ team addr, (mapGet? s.wins (getTeam s team).win).isSome = true → addr < (getWin s (getTeam s team).win).size →
    ∃ t, exec (.memoryError (.scratch team addr)) s = .next t ∧ (getWin t (getTeam s team).win).poison.contains addr = true ∧
      (getWin t (getTeam s team).win).data = (getWin s (getTeam s team).win).data) ∧
  (∀ k b i, i < (getBank (getCluster s k) b).fifo.length →
    ∃ t, exec (.memoryError (.fifo k b i)) s = .next t ∧ (getBank (getCluster t k) b).bad.contains i = true ∧
      (getBank (getCluster t k) b).fifo = (getBank (getCluster s k) b).fifo) ∧
  (∀ g, (mapGet? s.groups g).isSome = true → (mapGet? s.ctxs (ctxNumOf s g)).isSome = true →
    ∃ t p, exec (.memoryError (.control g)) s = .next t ∧ (getCtx t (ctxNumOf s g)).st = 2 ∧ t.posts = s.posts ++ [p] ∧
      p.mb = (ctxOf s g).fmbox ∧ p.msg.getD 8 0 = 0x12) ∧
  (∀ die slice, die < 4 → slice < 16 → ∃ t, exec (.memoryError (.sliceTag die slice)) s = .next t ∧ sliceDue t die slice = true ∧
    (getDie t die).l2 = (getDie s die).l2 ∧ t.mem = s.mem) ∧
  (∀ die slice, die < 4 → slice < 16 → (getDie s die).dir = [] → (getDie s die).l2 = [] → sliceDue s die slice = true →
    ∃ t, exec (.sliceRetirement die slice) s = .next t ∧ sliceDue t die slice = false ∧
      (0 < (getDie s die).sps → (getDie t die).sps = (getDie s die).sps - 1 ∧ t.irqs = s.irqs) ∧
      ((getDie s die).sps = 0 → (getDie t die).faulted = true ∧ t.irqs = s.irqs ++ [(0, 0)])) ∧
  (∀ core, core < 128 → (getCore s core).absent = false → s.threshold ≤ (getCore s core).ce →
    ((getCore s core).stopped = false → ∃ t, exec (.coreRetirement core) s = .next t ∧ (getCore t core).stopped = true) ∧
    ((getCore s core).stopped = true → (∀ e ∈ s.teams, e.2.core ≠ core) → (getCore s core).l1 = [] →
      (getCluster s (clusterOf core)).cc = [] → ∃ u, exec (.coreRetirement core) s = .next (schedule u) ∧
        (0 < (getDie s (core / 32)).spc → getCore u core = {} ∧ (getDie u (core / 32)).spc = (getDie s (core / 32)).spc - 1) ∧
        ((getDie s (core / 32)).spc = 0 → (getCore u core).absent = true ∧ (getDie u (core / 32)).cores = (getDie s (core / 32)).cores - 1))) ∧
  (∀ page h f r, pageDue s page = true → homeOf (page * 131072) = some h → mapGetD s.pools h [] = f :: r →
    ∃ t, exec (.pageRetirement page) s = .next t ∧ mapGet? t.movedPages page = some f ∧ ∀ k ∈ t.poison, k / 4096 ≠ page) ∧
  (s.ceWindow < s.tb / 2 ^ 30 → ∃ t, exec .correctedErrorWindow s = .next t ∧ t.ceWindow = s.tb / 2 ^ 30 ∧
    (∀ c, (getCore t c).ce = if (getCore s c).stopped then (getCore s c).ce else 0) ∧ ∀ d, (getDie t d).sliceCe = []) ∧
  ∀ die p, die < 4 → p < 4 → ∃ t, exec (.powerStateChange die p) s = .next t ∧ (getDie t die).power = p ∧ t.mem = s.mem ∧ t.groups = s.groups

/-! ### Whole-device steps: the host -/

/-- R299, R300, R303, R354, R375, R377 and R378: what the register accesses of a function do that may make them. A TLBINV command
is queued, and refused with REJ where the function may not give it; the oldest command completes, once the accesses made under
what it names are performed, with no such translation left; INVSTAT clears OVF; a reply ends its outstanding fault and restarts or
fails the operations that wait for it; MBACK frees the oldest entries; HSTAT, RASSTAT and PAIRSTAT return their values and clear
what their reads clear, and RASSTAT's place reads as zero through a VF; TLBINV word 0 and IRQMAP take what is written, and part of a TLBINV word counts in REJ; a message of 64
bytes to a mailbox with room is queued. Function 17 stands for
the Pavilion (DESIGN CHOICE, logs 67 and 74), and when docked companions have completed a TLBINV command is free (DESIGN CHOICE,
log 94). -/
def Obligations.HostRegisters : Prop := ∀ (s : State) (fn : Nat),
  (∀ i k w1, [(0, Instr.tlbinvPageRange fn w1), (1, .tlbinvContext fn w1), (2, .tlbinvTenant fn w1), (3, .tlbinvAll fn w1)].contains (k, i) = true →
    let c := invOf (getFn s fn).tlbinv0 w1
    c.kind = k → (fnLive s fn = true ∨ fn = 17) →
    (invAllowed s fn c = true → s.invq.length < 16 → exec i s = .next { s with invq := s.invq ++ [c] }) ∧
    (invAllowed s fn c = true → 16 ≤ s.invq.length → exec i s = .next { s with ovf := true }) ∧
    (invAllowed s fn c = false → ∃ t, exec i s = .next t ∧ t.invq = s.invq ∧ (getFn t fn).rej = min ((getFn s fn).rej + 1) (max (getFn s fn).rej 65535))) ∧
  (∀ c r, s.invq = c :: r → (∀ k ∈ s.cores, invConcerns s c k.1 = true → accessesOut s k.1 = false) → companionsDone s = true →
    ∃ t, exec .tlbinvComplete s = .next t ∧ t.invq = r ∧ (∀ k, ∀ e ∈ (getCore t k).tlb, invDrops c e = false) ∧
      ∀ k, ∀ e ∈ (getCluster t k).tlb, invDrops c e = false) ∧
  (fnLive s fn = true → ∀ v off n,
    (bit v 1 = true → exec (.invstatWrite fn v) s = .next { s with ovf := false }) ∧
    (ownsCtx s fn (v % 4096) = true → (s.faults.any fun o => o.ctx == v % 4096 && o.page == bits v 47 17) = true →
      (∀ b ∈ s.mboxes, b.2.blocked = none) →
      (bit v 12 = false → (s.unpins.any fun p => p.ctx == v % 4096 && faultPage p.hdr == bits v 47 17) = false →
        ∃ u, exec (.fltrepRetry fn v) s = .next (schedule u) ∧
        (u.faults.any fun o => o.ctx == v % 4096 && o.page == bits v 47 17) = false ∧
        ∀ g o, ctxNumOf s g = v % 4096 → o ∈ (getGroup u g).ops → ∀ k, o.flt ≠ some (bits v 47 17, k)) ∧
      (bit v 12 = true → ∃ t, exec (.fltrepFail fn v) s = .next t ∧
        (t.faults.any fun o => o.ctx == v % 4096 && o.page == bits v 47 17) = false ∧
        ∀ g o, ctxNumOf s g = v % 4096 → o ∈ (getGroup t g).ops → ∀ k, o.flt ≠ some (bits v 47 17, k))) ∧
    (ownsBox s fn (v % 4096) = true → (getBox s (v % 4096)).tmpl = 0 → ∃ t, exec (.mback fn v) s = .next t ∧
      (getBox t (v % 4096)).count = (getBox s (v % 4096)).count - bits v 20 12 ∧
      (getBox t (v % 4096)).head = ((getBox s (v % 4096)).head + min (getBox s (v % 4096)).count (bits v 20 12)) %
        ((getBox s (v % 4096)).qdepth + 1)) ∧
    (∃ t, exec (.hstatRead fn) s = .next t ∧ t.readback = hstatWord (getFn s fn) ∧ (getFn t fn).rej = 0 ∧ (getFn t fn).busy = (getFn s fn).busy ∧
      (getFn t fn).status = (getFn s fn).status) ∧
    (∀ d, fn = 0 → d < 4 → ∃ t, exec (.rasstatRead fn d) s = .next t ∧ t.readback = rasstatWord s d ∧ (getDie t d).cecnt = 0 ∧ (getDie t d).cores = (getDie s d).cores) ∧
    (∀ d, fn ≠ 0 → d < 4 → exec (.rasstatRead fn d) s = .next { s with readback := 0 }) ∧
    (invAllowed s fn (invOf v 0) = true → ∃ t, exec (.registerWrite fn 0 ⟨8, v⟩) s = .next t ∧ (getFn t fn).tlbinv0 = v % 2 ^ 64) ∧
    (off < 16 → n < 8 ∨ off % 8 ≠ 0 → ∃ t, exec (.registerWrite fn off ⟨n, v⟩) s = .next t ∧ (getFn t fn).tlbinv0 = (getFn s fn).tlbinv0 ∧
      (getFn t fn).rej = min ((getFn s fn).rej + 1) (max (getFn s fn).rej 65535)) ∧
    (off < 64 → ∃ t, exec (.registerWrite fn (0x100 + 4 * off) ⟨4, v⟩) s = .next t ∧ mapGetD (getFn t fn).irq off 0 = v % 8192) ∧
    (∀ bs mb, bs.length = 64 → mb < 4096 → (getBox s mb).en = true → senderOk s (.fn fn) mb = true →
      (getBox s mb).count ≠ (getBox s mb).qdepth + 1 → ∃ w, exec (.hostMailboxWrite fn (64 * mb) bs) s = .next (checkBox w mb) ∧
        (getBox w mb).count = (getBox s mb).count + 1)) ∧
  (∀ v, ∃ t, exec (.registerWrite 17 0 ⟨8, v⟩) s = .next t ∧ (getFn t 17).tlbinv0 = v % 2 ^ 64) ∧
  ∀ half, half < 8 → ∃ t, exec (.pairstatRead half) s = .next t ∧ t.readback = pairstatWord (getHalf s half) ∧
    (getHalf t half).drops = 0 ∧ (getHalf t half).st = (getHalf s half).st

/-- R376, R380 and R391 to R393: a request that its function may give is in progress with the status it will report, and has its
effect where that status is OK; one that is not well formed reports BADREQ, and one while another is in progress counts in REJ.
A request completes with its status. A function-level reset, a reset of the part and the power states leave what they say. Where a
request block holds the destination of a report and the threshold is the model's reading (DEDUCED, log 63), and so is what a reset of
the part keeps (DEDUCED, log 54). -/
def Obligations.HostRequests : Prop := ∀ (s : State) (fn addr : Nat),
  let b := blockAt s addr
  let under (u : State) : State := modFn u fn fun x => { x with busy := true, pending := 0 }
  (hreqReady s fn addr 0 →
    (b.code = 1 → ∃ u, exec (.writeWindowDescriptor fn addr) s = .next (under u) ∧
      let w0 := fieldAt b.raw 8 8
      mapGetD u.windows (b.ten * 16 + b.idx) {} = { en := bit w0 0, wr := bit w0 1, ex := bit w0 2, first := bits w0 43 17,
                                                    last := bits (fieldAt b.raw 16 8) 26 0 }) ∧
    (b.code = 2 → ∃ u, exec (.writeMailboxEntry fn addr) s = .next (under (schedule u)) ∧ getBox u b.idx = boxOf b.raw (getBox s b.idx)) ∧
    (b.code = 3 → ∃ u, exec (.writeContextRecord fn addr) s = .next (under (schedule u)) ∧
      getCtx u (fieldAt b.raw 8 4 % 4096) =
        ctxRecord b (if (getCtx s (fieldAt b.raw 8 4 % 4096)).st = 0 then {} else getCtx s (fieldAt b.raw 8 4 % 4096))) ∧
    (b.code = 4 → ∃ u, exec (.endContext fn addr) s = .next (under (schedule u)) ∧ (getCtx u b.idx).st = 0) ∧
    (b.code = 5 → ∃ u, exec (.giveClusterBank fn addr) s = .next (under (schedule u)) ∧
      (getBank (getCluster u (b.idx / 32)) (b.idx % 32)).owner = some (fieldAt b.raw 8 2)) ∧
    (b.code = 6 → b.idx = 0 → ∃ u, exec (.attestationReport fn addr) s = .next (under u) ∧ u.leaf = s.leaf + 1) ∧
    (b.code = 7 → exec (.setRetirementThreshold fn addr) s = .next (under { s with threshold := fieldAt b.raw 8 4 }))) ∧
  (fnLive s fn = true → s.phase = 6 →
    ((getFn s fn).busy = false → addr % 64 ≠ 0 → ∃ t, exec (.badreq fn addr) s = .next t ∧ (getFn t fn).busy = true ∧
      (getFn t fn).pending = 2 ∧ t.mem = s.mem ∧ t.groups = s.groups) ∧
    ((getFn s fn).busy = true → ∃ t, exec (.badreq fn addr) s = .next t ∧
      (getFn t fn).rej = min ((getFn s fn).rej + 1) (max (getFn s fn).rej 65535) ∧ (getFn t fn).pending = (getFn s fn).pending)) ∧
  ((getFn s fn).busy = true → ∃ t, exec (.requestComplete fn) s = .next t ∧ (getFn t fn).busy = false ∧
    (getFn t fn).status = (getFn s fn).pending ∧
    t.irqs = s.irqs ++ (if mapGetD (getFn s fn).irq 63 0 = 0x1FFF then [(fn, 63)] else [])) ∧
  (1 ≤ fn → fn ≤ 16 → ∃ t, exec (.functionLevelReset fn) s = .next t ∧ (getFn t fn).irq = [] ∧
    ((∀ c ∈ s.ctxs, c.2.st = 0 ∨ c.2.sys = true ∨ c.2.ten + 1 ≠ fn) → t.windows = s.windows ∧ t.groups = s.groups ∧
      ∀ mb, ownsBox s fn mb = true → (getBox t mb).en = false)) ∧
  (∃ t, exec .partReset s = .next t ∧ t.phase = 0 ∧ t.groups = [] ∧ t.ctxs = [] ∧ t.tb = 0 ∧ t.leaf = s.leaf ∧
    t.mem = s.mem ∧ t.poison = []) ∧
  (∃ t, exec .d3hotEntry s = .next t ∧ t.d3 = true ∧ t.mem = s.mem ∧ t.groups = s.groups) ∧
  ∃ u, exec .d0Exit s = .next (schedule u) ∧ u.d3 = false ∧ u.mem = s.mem ∧ u.groups = s.groups

/-! ### Whole-device steps: the pair -/

/-- R352 to R362 and R369: a link that trains is greeted, and one that does not is refused; HELLO is answered by ATTEST, a
verified ATTEST with a common version by ALIGN, an agreed ALIGN docks; an image that may be restored is, and is answered by RESUME
with status 0; a context that its companion resumes leaves; UNDOCK and UNDONE leave a half DOWN where nothing is shared, and a lost
link leaves it LOST; an unsupported TLP counts in DROPS and is reported. What becomes of a message out of sequence and who numbers a
context that moves are the model's readings (DEDUCED, logs 75 and 76), and the places of the fields in the body of RESUME are its choice
(DESIGN CHOICE, log 115). -/
def Obligations.DockingSteps : Prop := ∀ (s : State) (half : Nat) (h : PairHdr),
  let x := getHalf s half
  (halfThere s half = true → x.st = 0 ∨ x.st = 1 ∨ x.st = 6 →
    (∃ t, exec (.linkUp half false) s = .next t ∧ (getHalf t half).st = 0 ∧ (getHalf t half).refuse = 1) ∧
    (∃ t o, exec (.linkUp half true) s = .next t ∧ (getHalf t half).st = 2 ∧ lastOut t half = some o ∧ o.ptype = 0x01)) ∧
  (∀ nonce vers, hdrOk s half h [2] → x.heard = false → s.leaf < 2 ^ 20 → ∃ t o, exec (.hello half h nonce vers) s = .next t ∧
    (getHalf t half).heard = true ∧ (getHalf t half).peerNonce = nonce % 2 ^ 256 ∧ t.leaf = s.leaf + 1 ∧ lastOut t half = some o ∧
    o.ptype = 0x02) ∧
  (∀ tb sig v, hdrOk s half h [2] → x.heard = true → 1 ≤ v → v ≤ 3 →
    bit x.peerVers v = true → (∀ w, v < w → w ≤ 3 → bit x.peerVers w = false) → ∃ t, exec (.attest half h tb sig) s = .next t ∧
      if Config.peerVerifies x.sentNonce x.peerVers tb sig = true then
        (getHalf t half).st = 3 ∧ (getHalf t half).ver = v ∧ (getHalf t half).agent = 8 + half ∧
          (lastOut t half).map (·.ptype) = some 0x03
      else (getHalf t half).st = 0 ∧ (getHalf t half).refuse = 2) ∧
  (∀ ofs ctxs, hdrOk s half h [3] →
    (∃ t, exec (.align half h ofs true ctxs) s = .next t ∧ (getHalf t half).st = 4 ∧ (getHalf t half).ofs = ofs % 2 ^ 64 ∧
      (getHalf t half).offered = dedupN ctxs) ∧
    (∃ t, exec (.align half h ofs false ctxs) s = .next t ∧ (getHalf t half).st = 0 ∧ (getHalf t half).refuse = 5)) ∧
  (∀ ctx addr size, hdrOk s half h [4] → x.offered.contains ctx = true → ctx < 4096 → homeOf addr = some x.agent →
    homeOf (addr + size - 1) = some x.agent → (getCtx s ctx).st = 0 ∨ (getCtx s ctx).st = 3 → (getCtx s ctx).moving = none →
    imageLegal (homeBytes s addr size) ((List.range 4).foldl (fun m d => if (getDie s d).level < m then (getDie s d).level else m) 2) = true →
    let img := homeBytes s addr size
    ∃ u, exec (.image half h ctx addr size) s = .next (pairSend (schedule u) half 0x05 ctx 0 (leBytes 4 ctx ++ leBytes 1 0)) ∧
      (getCtx u ctx).st = 1 ∧ (getCtx u ctx).origin = x.agent ∧ (getCtx u ctx).floor = fieldAt img 6 1 ∧
      (getCtx u ctx).root = fieldAt img 24 8 + (x.agent - 8) * 0x4000000000 ∧ ctxTime s (getCtx u ctx) = (fieldAt img 16 8 : Nat) % 2 ^ 64) ∧
  (∀ ctx, hdrOk s half h [4] → x.back = [ctx] → (∀ d ∈ s.dies, d.2.bq = [] ∧ d.2.serving = []) →
    ∃ t, exec (.resume half h ctx 0) s = .next t ∧ (getHalf t half).back = [] ∧ (getCtx t ctx).st = 0 ∧
      ∀ e ∈ t.launches, e.2.ctx ≠ ctx) ∧
  (idlePart s →
    (hdrOk s half h [4] → x.back = [] → ∃ t o, exec (.undock half h) s = .next t ∧ (getHalf t half).st = 0 ∧ lastOut t half = some o ∧
      o.ptype = 0x22) ∧
    (hdrOk s half h [4, 5] → ∃ t, exec (.undone half h) s = .next t ∧ (getHalf t half).st = 0) ∧
    (x.st ≠ 0 → x.st ≠ 6 → ∃ t, exec (.linkLoss half) s = .next t ∧ (getHalf t half).st = 6 ∧ (getHalf t half).agent = 0 ∧ t.mem = s.mem)) ∧
  (half < 8 → x.st ≠ 0 → ∃ t, exec (.unsupportedTlp half) s = .next t ∧ (getHalf t half).drops = min (x.drops + 1) 255 ∧
    (getHalf t half).st = x.st ∧ t.tlpReports = s.tlpReports + 1)

/-- R274, R279, R316, R355, R363 to R368: over a docked half a tenure request goes on to its home as flits, under the companion's
agent number and its STAMP on the Afmor's timebase, and a message is posted; credits add to a READY queue pair; QPERR leaves it in ERROR; COMMIT applies the log to its marker;
memory requests are performed inside the pair's window and answered by QPERR outside it; a queue pair is made READY with no
credit, and the hub grants the companion some. A companion's action on a holder goes to the lowest die that it fits. The form of a memory
request is the model's reading (DEDUCED, log 77); the die that an action goes to (log 86), the number of credits granted (log 46) and the
places of the fields in the body of QPERR (log 115) are its choices. -/
def Obligations.PairTraffic : Prop := ∀ (s : State) (half : Nat) (h : PairHdr),
  let x := getHalf s half
  (∀ wr body home, hdrOk s half h [4, 5] → let q := reqOfBody body
    homeOf (q.page * 131072) = some home → home < 4 → hasRoom s x.agent home → ∃ t, exec (.tenure half h (b2n wr) body) s = .next t ∧
      t.flits = s.flits ++ flitList x.agent home (getChan s x.agent home).sendNo
        { type := b2n wr, body := reqBody { q with req := x.agent, wr := wr, stamp := (q.stamp + x.ofs) % 2 ^ 64 } }) ∧
  (∀ k body d, [3, 5, 7, 9].contains k = true → hdrOk s half h [4, 5] → d < 4 → hasRoom s x.agent d →
    let fits (die : Nat) : Bool := (getDie s die).recs.any fun r =>
      (if k = 3 then r.st != .s else if k = 5 then r.st == .s else true) && boxMeets r.box (reqOfBody body).box
    fits d = true → (∀ e, e < d → fits e = false) → onItsWay s x.agent d k (reqOfBody body) = false →
    ∃ t, exec (.tenure half h k body) s = .next t ∧
      t.flits = s.flits ++ flitList x.agent d (getChan s x.agent d).sendNo { type := k, body := body }) ∧
  (∀ mb msg, hdrOk s half h [4, 5] → ∃ t p, exec (.mbox half h mb msg) s = .next t ∧ t.posts = s.posts ++ [p] ∧ p.mb = mb ∧
    p.msg = sliceBytes msg 0 64 ∧ p.from_ = .companion half) ∧
  (∀ n drops refused, hdrOk s half h [4, 5] → (getQp s h.ctx h.qp).st = 1 → (getQp s h.ctx h.qp).peer = x.agent →
    (getQp s h.ctx h.qp).kind = 0 → (getQp s h.ctx h.qp).cred + n ≤ 1024 → ∃ t, exec (.credit half h n drops refused) s = .next t ∧
      getQp t h.ctx h.qp = { getQp s h.ctx h.qp with cred := (getQp s h.ctx h.qp).cred + n }) ∧
  (∀ err, hdrOk s half h [4, 5] → (getQp s h.ctx h.qp).st = 1 → (getQp s h.ctx h.qp).peer = x.agent → s.groups = [] →
    ∃ t, exec (.qperr half h err) s = .next t ∧ (getQp t h.ctx h.qp).st = 2 ∧ (getQp t h.ctx h.qp).err = err % 256) ∧
  (∀ ctx n e r, x.st = 4 ∨ x.st = 5 → (getCtx s ctx).mirror.entries = e :: { marker := some n } :: r → e.marker = none →
    (∀ x ∈ r, x.marker ≠ some n) → r.length + 2 ≤ (getCtx s ctx).mirror.logsz →
    n ≤ (getCtx s ctx).mirror.committed → ∃ t, exec (.commit half ctx n) s = .next t ∧ (getCtx t ctx).mirror.entries = r ∧
      ∀ i, i < 128 → memGet t.mem (e.line * 128 + i) = if bit e.mask i then mapGetD e.data i 0 else memGet s.mem (e.line * 128 + i)) ∧
  (∀ ctx qp off wr bytes, x.st = 4 ∨ x.st = 5 → (getQp s ctx qp).st = 1 → (getQp s ctx qp).kind = 0 → (getQp s ctx qp).peer = x.agent →
    let q := getQp s ctx qp
    let pa := q.rbase + off
    let n := bytes.length
    (off + n ≤ q.wsize * 4096 → 0 < n → (getCtx s ctx).sys = true → (homeOf pa).isSome = true → homeOf pa = homeOf (pa + n - 1) →
      ∃ t o, exec (.queuePairMemoryRequest half ctx qp off wr bytes) s = .next t ∧ lastOut t half = some o ∧ o.ctx = ctx ∧ o.qp = qp ∧
        (wr = true → o.ptype = 0x12 ∧ o.body = leBytes 4 (creditsOf n) ++ leBytes 8 0) ∧ (wr = false → o.ptype = 0 ∧ o.body.length = n)) ∧
    (q.wsize * 4096 < off + n → s.groups = [] → ∃ t o, exec (.queuePairMemoryRequest half ctx qp off wr bytes) s = .next t ∧
      lastOut t half = some o ∧ o.ptype = 0x13 ∧ o.body = leBytes 4 2 ∧ (getQp t ctx qp).st = 2 ∧ (getQp t ctx qp).err = 2)) ∧
  ∀ ctx qp, (mapGet? s.ctxs ctx).isSome = true → qp < 4 → (getQp s ctx qp).st = 0 ∨ (getQp s ctx qp).st = 2 → (getQp s ctx qp).wsize ≠ 0 →
    ∀ half, halfOfAgent s (getQp s ctx qp).peer = some half → ∃ t o, exec (.queuePairReset ctx qp) s = .next t ∧
      getQp t ctx qp = { getQp s ctx qp with st := 1, err := 0, cred := 0 } ∧ lastOut t half = some o ∧ o.ptype = 0x12 ∧ o.ctx = ctx ∧
      o.qp = qp
end

