-- ==== Sys2Proof/Laws/Map.lean ====
section
/-! SUPPORT. Sparse tables: read after write, and the canonical form that every operation keeps. -/
namespace Sys2Proof.Machine

/-- Every key of a table lies above a bound. -/
def above {α : Type} (k : Nat) (m : FMap α) : Prop := ∀ e ∈ m, k < e.1

theorem above_nil {α : Type} (k : Nat) : above k ([] : FMap α) := fun _ h => absurd h (List.not_mem_nil)

theorem above_cons {α : Type} {k i : Nat} {v : α} {r : FMap α} : above k ((i, v) :: r) ↔ k < i ∧ above k r :=
  ⟨fun h => ⟨h (i, v) List.mem_cons_self, fun e he => h e (List.mem_cons_of_mem _ he)⟩,
   fun h e he => by
    rcases List.mem_cons.mp he with rfl | he
    · exact h.1
    · exact h.2 e he⟩

theorem above_mono {α : Type} {j k : Nat} {m : FMap α} (h : above k m) (hj : j ≤ k) : above j m :=
  fun e he => Nat.lt_of_le_of_lt hj (h e he)

/-- The form of a table, one entry at a time. -/
theorem mapWf_cons {α : Type} {i : Nat} {v : α} {r : FMap α} : mapWf ((i, v) :: r) = true ↔ above i r ∧ mapWf r = true := by
  induction r generalizing i v with
  | nil => simp [mapWf, above]
  | cons e r ih =>
    obtain ⟨j, w⟩ := e
    have h : mapWf ((i, v) :: (j, w) :: r) = true ↔ i < j ∧ mapWf ((j, w) :: r) = true := by simp [mapWf]
    rw [h, above_cons]
    refine ⟨fun ⟨hi, hr⟩ => ⟨⟨hi, above_mono (ih.mp hr).1 (Nat.le_of_lt hi)⟩, hr⟩, fun h => ⟨h.1.1, h.2⟩⟩

/-! ### Reads -/

theorem mapGet?_of_above {α : Type} {k : Nat} {m : FMap α} (h : above k m) : mapGet? m k = none := by
  induction m with
  | nil => rfl
  | cons e r ih =>
    obtain ⟨i, v⟩ := e
    obtain ⟨hi, hr⟩ := above_cons.mp h
    simp [mapGet?, Nat.ne_of_gt hi, ih hr]

@[simp] theorem mapGet?_mapSet_self {α : Type} (m : FMap α) (k : Nat) (v : α) : mapGet? (mapSet m k v) k = some v := by
  induction m with
  | nil => simp [mapSet, mapGet?]
  | cons e r ih =>
    obtain ⟨i, w⟩ := e
    rcases Nat.lt_trichotomy k i with h | h | h
    · simp [mapSet, mapGet?, h]
    · subst h; simp [mapSet, mapGet?]
    · simp [mapSet, mapGet?, Nat.not_lt.mpr (Nat.le_of_lt h), Nat.ne_of_lt h, ih]

theorem mapGet?_mapSet_ne {α : Type} (m : FMap α) {j k : Nat} (v : α) (h : j ≠ k) : mapGet? (mapSet m k v) j = mapGet? m j := by
  induction m with
  | nil => simp [mapSet, mapGet?, Ne.symm h]
  | cons e r ih =>
    obtain ⟨i, w⟩ := e
    rcases Nat.lt_trichotomy k i with hk | hk | hk
    · simp [mapSet, hk, mapGet?, Ne.symm h]
    · subst hk; simp [mapSet, mapGet?, Ne.symm h]
    · simp [mapSet, mapGet?, Nat.not_lt.mpr (Nat.le_of_lt hk), Nat.ne_of_lt hk, ih]

theorem mapGet?_mapErase_ne {α : Type} (m : FMap α) {j k : Nat} (h : j ≠ k) : mapGet? (mapErase m k) j = mapGet? m j := by
  induction m with
  | nil => rfl
  | cons e r ih =>
    obtain ⟨i, w⟩ := e
    by_cases hk : i = k
    · subst hk; simp [mapErase, mapGet?, Ne.symm h, ih]
    · simp [mapErase, hk, mapGet?, ih]

theorem mapGet?_mapErase_self {α : Type} (m : FMap α) (k : Nat) : mapGet? (mapErase m k) k = none := by
  induction m with
  | nil => rfl
  | cons e r ih =>
    obtain ⟨i, w⟩ := e
    by_cases hk : i = k
    · subst hk; simpa [mapErase] using ih
    · simp [mapErase, hk, mapGet?, ih]

/-- A write is read back. -/
theorem mapGetD_mapPut_self {α : Type} [DecidableEq α] (m : FMap α) (k : Nat) (d v : α) : mapGetD (mapPut m k d v) k d = v := by
  unfold mapGetD mapPut
  split
  · subst v; simp [mapGet?_mapErase_self]
  · simp

/-- A write leaves every other key alone. -/
theorem mapGetD_mapPut_ne {α : Type} [DecidableEq α] (m : FMap α) {j k : Nat} (d d' v : α) (h : j ≠ k) :
    mapGetD (mapPut m k d v) j d' = mapGetD m j d' := by
  unfold mapGetD mapPut
  split
  · rw [mapGet?_mapErase_ne m h]
  · rw [mapGet?_mapSet_ne m v h]

theorem mapGet?_mapMod_self {α : Type} (m : FMap α) (k : Nat) (f : α → α) : mapGet? (mapMod m k f) k = (mapGet? m k).map f := by
  unfold mapMod
  cases h : mapGet? m k with
  | none => simpa using h
  | some v => simp

theorem mapGet?_mapMod_ne {α : Type} (m : FMap α) {j k : Nat} (f : α → α) (h : j ≠ k) : mapGet? (mapMod m k f) j = mapGet? m j := by
  unfold mapMod
  cases mapGet? m k with
  | none => rfl
  | some v => simp [mapGet?_mapSet_ne m (f v) h]

/-! ### The canonical form -/

theorem above_mapSet {α : Type} {i k : Nat} {m : FMap α} (v : α) (h : above i m) (hk : i < k) : above i (mapSet m k v) := by
  induction m with
  | nil => exact above_cons.mpr ⟨hk, above_nil i⟩
  | cons e r ih =>
    obtain ⟨j, w⟩ := e
    obtain ⟨hj, hr⟩ := above_cons.mp h
    unfold mapSet
    split
    · exact above_cons.mpr ⟨hk, h⟩
    · split
      · exact above_cons.mpr ⟨hk, hr⟩
      · exact above_cons.mpr ⟨hj, ih hr⟩

theorem above_mapErase {α : Type} {i k : Nat} {m : FMap α} (h : above i m) : above i (mapErase m k) := by
  induction m with
  | nil => exact h
  | cons e r ih =>
    obtain ⟨j, w⟩ := e
    obtain ⟨hj, hr⟩ := above_cons.mp h
    unfold mapErase
    split
    · exact ih hr
    · exact above_cons.mpr ⟨hj, ih hr⟩

theorem mapWf_mapSet {α : Type} (m : FMap α) (k : Nat) (v : α) (h : mapWf m = true) : mapWf (mapSet m k v) = true := by
  induction m with
  | nil => rfl
  | cons e r ih =>
    obtain ⟨i, w⟩ := e
    obtain ⟨ha, hr⟩ := mapWf_cons.mp h
    rcases Nat.lt_trichotomy k i with hk | hk | hk
    · simp only [mapSet, hk, if_true]
      exact mapWf_cons.mpr ⟨above_cons.mpr ⟨hk, above_mono ha (Nat.le_of_lt hk)⟩, h⟩
    · subst hk
      simp only [mapSet, Nat.lt_irrefl, if_false, if_true]
      exact mapWf_cons.mpr ⟨ha, hr⟩
    · simp only [mapSet, Nat.not_lt.mpr (Nat.le_of_lt hk), Nat.ne_of_lt hk, if_false]
      exact mapWf_cons.mpr ⟨above_mapSet v ha hk, ih hr⟩

theorem mapWf_mapErase {α : Type} (m : FMap α) (k : Nat) (h : mapWf m = true) : mapWf (mapErase m k) = true := by
  induction m with
  | nil => rfl
  | cons e r ih =>
    obtain ⟨i, w⟩ := e
    obtain ⟨ha, hr⟩ := mapWf_cons.mp h
    unfold mapErase
    split
    · exact ih hr
    · exact mapWf_cons.mpr ⟨above_mapErase ha, ih hr⟩

theorem mapWf_mapPut {α : Type} [DecidableEq α] (m : FMap α) (k : Nat) (d v : α) (h : mapWf m = true) :
    mapWf (mapPut m k d v) = true := by
  unfold mapPut
  split
  · exact mapWf_mapErase m k h
  · exact mapWf_mapSet m k v h

theorem mapWf_mapMod {α : Type} (m : FMap α) (k : Nat) (f : α → α) (h : mapWf m = true) : mapWf (mapMod m k f) = true := by
  unfold mapMod
  split
  · exact mapWf_mapSet m k _ h
  · exact h

theorem above_filter {α : Type} {i : Nat} {m : FMap α} (p : Nat × α → Bool) (h : above i m) : above i (m.filter p) :=
  fun e he => h e (List.mem_filter.mp he).1

theorem mapWf_filter {α : Type} (m : FMap α) (p : Nat × α → Bool) (h : mapWf m = true) : mapWf (m.filter p) = true := by
  induction m with
  | nil => rfl
  | cons e r ih =>
    obtain ⟨i, w⟩ := e
    obtain ⟨ha, hr⟩ := mapWf_cons.mp h
    by_cases hp : p (i, w)
    · rw [List.filter_cons_of_pos hp]
      exact mapWf_cons.mpr ⟨above_filter p ha, ih hr⟩
    · rw [List.filter_cons_of_neg hp]
      exact ih hr

/-! ### No entry equal to the default -/

theorem all_mapSet {α : Type} (p : Nat × α → Bool) (m : FMap α) (k : Nat) (v : α) (h : m.all p = true) (hv : p (k, v) = true) :
    (mapSet m k v).all p = true := by
  induction m with
  | nil => simpa [mapSet] using hv
  | cons e r ih =>
    obtain ⟨i, w⟩ := e
    simp only [List.all_cons, Bool.and_eq_true] at h
    unfold mapSet
    split
    · simp [hv, h.1, h.2]
    · split
      · simp [hv, h.2]
      · simp [h.1, ih h.2]

theorem all_mapErase {α : Type} (p : Nat × α → Bool) (m : FMap α) (k : Nat) (h : m.all p = true) : (mapErase m k).all p = true := by
  induction m with
  | nil => rfl
  | cons e r ih =>
    obtain ⟨i, w⟩ := e
    simp only [List.all_cons, Bool.and_eq_true] at h
    unfold mapErase
    split
    · exact ih h.2
    · simp [h.1, ih h.2]

theorem mem_mapPut_ne_default {α : Type} [DecidableEq α] (m : FMap α) (k : Nat) (d v : α)
    (h : (m.all fun e => decide (e.2 ≠ d)) = true) : ((mapPut m k d v).all fun e => decide (e.2 ≠ d)) = true := by
  unfold mapPut
  split
  · exact all_mapErase _ m k h
  · rename_i hv
    exact all_mapSet _ m k v h (by simpa using hv)

/-- Canonical tables with equal reads are equal. -/
theorem map_ext {α : Type} {m n : FMap α} (hm : mapWf m = true) (hn : mapWf n = true) (h : ∀ k, mapGet? m k = mapGet? n k) : m = n := by
  induction m generalizing n with
  | nil =>
    cases n with
    | nil => rfl
    | cons e r => have := h e.1; simp [mapGet?] at this
  | cons e r ih =>
    obtain ⟨i, v⟩ := e
    cases n with
    | nil => have := h i; simp [mapGet?] at this
    | cons e' r' =>
      obtain ⟨j, w⟩ := e'
      obtain ⟨ha, hr⟩ := mapWf_cons.mp hm
      obtain ⟨ha', hr'⟩ := mapWf_cons.mp hn
      have hij : i = j := by
        rcases Nat.lt_trichotomy i j with hl | hl | hl
        · have := h i; simp [mapGet?, Nat.ne_of_gt hl, mapGet?_of_above (above_mono ha' (Nat.le_of_lt hl))] at this
        · exact hl
        · have := h j; simp [mapGet?, Nat.ne_of_gt hl, mapGet?_of_above (above_mono ha (Nat.le_of_lt hl))] at this
      subst hij
      have hv : v = w := by have := h i; simpa [mapGet?] using this
      subst hv
      have hrest : ∀ k, mapGet? r k = mapGet? r' k := by
        intro k
        by_cases hk : k ≤ i
        · rw [mapGet?_of_above (above_mono ha hk), mapGet?_of_above (above_mono ha' hk)]
        · have := h k
          simpa [mapGet?, Nat.ne_of_lt (Nat.not_le.mp hk)] using this
      rw [ih hr hr' hrest]

end Sys2Proof.Machine
end

