-- ==== Sys2Proof/Laws/State.lean ====
section
/-! SUPPORT. One lemma per field of the state per update: what each update leaves as it was, and what it changes. -/
namespace Sys2Proof.Machine

open Sys2Proof

/-! ### setGroup -/

@[simp] theorem setGroup_agenda (s : State) (g : Nat) (v : Group) : (setGroup s g v).agenda = s.agenda := rfl
@[simp] theorem setGroup_cur (s : State) (g : Nat) (v : Group) : (setGroup s g v).cur = s.cur := rfl
@[simp] theorem setGroup_idling (s : State) (g : Nat) (v : Group) : (setGroup s g v).idling = s.idling := rfl
@[simp] theorem setGroup_word (s : State) (g : Nat) (v : Group) : (setGroup s g v).word = s.word := rfl
@[simp] theorem setGroup_fresh (s : State) (g : Nat) (v : Group) : (setGroup s g v).fresh = s.fresh := rfl
@[simp] theorem setGroup_stuck (s : State) (g : Nat) (v : Group) : (setGroup s g v).stuck = s.stuck := rfl
@[simp] theorem setGroup_tb (s : State) (g : Nat) (v : Group) : (setGroup s g v).tb = s.tb := rfl
@[simp] theorem setGroup_cyc (s : State) (g : Nat) (v : Group) : (setGroup s g v).cyc = s.cyc := rfl
@[simp] theorem setGroup_mem (s : State) (g : Nat) (v : Group) : (setGroup s g v).mem = s.mem := rfl
@[simp] theorem setGroup_poison (s : State) (g : Nat) (v : Group) : (setGroup s g v).poison = s.poison := rfl
@[simp] theorem setGroup_teams (s : State) (g : Nat) (v : Group) : (setGroup s g v).teams = s.teams := rfl
@[simp] theorem setGroup_wins (s : State) (g : Nat) (v : Group) : (setGroup s g v).wins = s.wins := rfl
@[simp] theorem setGroup_launches (s : State) (g : Nat) (v : Group) : (setGroup s g v).launches = s.launches := rfl
@[simp] theorem setGroup_nextId (s : State) (g : Nat) (v : Group) : (setGroup s g v).nextId = s.nextId := rfl
@[simp] theorem setGroup_ctxs (s : State) (g : Nat) (v : Group) : (setGroup s g v).ctxs = s.ctxs := rfl
@[simp] theorem setGroup_cores (s : State) (g : Nat) (v : Group) : (setGroup s g v).cores = s.cores := rfl
@[simp] theorem setGroup_clusters (s : State) (g : Nat) (v : Group) : (setGroup s g v).clusters = s.clusters := rfl
@[simp] theorem setGroup_dies (s : State) (g : Nat) (v : Group) : (setGroup s g v).dies = s.dies := rfl
@[simp] theorem setGroup_flits (s : State) (g : Nat) (v : Group) : (setGroup s g v).flits = s.flits := rfl
@[simp] theorem setGroup_chans (s : State) (g : Nat) (v : Group) : (setGroup s g v).chans = s.chans := rfl
@[simp] theorem setGroup_flitReports (s : State) (g : Nat) (v : Group) : (setGroup s g v).flitReports = s.flitReports := rfl
@[simp] theorem setGroup_moves (s : State) (g : Nat) (v : Group) : (setGroup s g v).moves = s.moves := rfl
@[simp] theorem setGroup_moveOrder (s : State) (g : Nat) (v : Group) : (setGroup s g v).moveOrder = s.moveOrder := rfl
@[simp] theorem setGroup_movedPages (s : State) (g : Nat) (v : Group) : (setGroup s g v).movedPages = s.movedPages := rfl
@[simp] theorem setGroup_pools (s : State) (g : Nat) (v : Group) : (setGroup s g v).pools = s.pools := rfl
@[simp] theorem setGroup_frameOwner (s : State) (g : Nat) (v : Group) : (setGroup s g v).frameOwner = s.frameOwner := rfl
@[simp] theorem setGroup_mboxes (s : State) (g : Nat) (v : Group) : (setGroup s g v).mboxes = s.mboxes := rfl
@[simp] theorem setGroup_posts (s : State) (g : Nat) (v : Group) : (setGroup s g v).posts = s.posts := rfl
@[simp] theorem setGroup_windows (s : State) (g : Nat) (v : Group) : (setGroup s g v).windows = s.windows := rfl
@[simp] theorem setGroup_fns (s : State) (g : Nat) (v : Group) : (setGroup s g v).fns = s.fns := rfl
@[simp] theorem setGroup_invq (s : State) (g : Nat) (v : Group) : (setGroup s g v).invq = s.invq := rfl
@[simp] theorem setGroup_ovf (s : State) (g : Nat) (v : Group) : (setGroup s g v).ovf = s.ovf := rfl
@[simp] theorem setGroup_faults (s : State) (g : Nat) (v : Group) : (setGroup s g v).faults = s.faults := rfl
@[simp] theorem setGroup_irqs (s : State) (g : Nat) (v : Group) : (setGroup s g v).irqs = s.irqs := rfl
@[simp] theorem setGroup_halves (s : State) (g : Nat) (v : Group) : (setGroup s g v).halves = s.halves := rfl
@[simp] theorem setGroup_phase (s : State) (g : Nat) (v : Group) : (setGroup s g v).phase = s.phase := rfl
@[simp] theorem setGroup_fail (s : State) (g : Nat) (v : Group) : (setGroup s g v).fail = s.fail := rfl
@[simp] theorem setGroup_threshold (s : State) (g : Nat) (v : Group) : (setGroup s g v).threshold = s.threshold := rfl
@[simp] theorem setGroup_ceWindow (s : State) (g : Nat) (v : Group) : (setGroup s g v).ceWindow = s.ceWindow := rfl
@[simp] theorem setGroup_leaf (s : State) (g : Nat) (v : Group) : (setGroup s g v).leaf = s.leaf := rfl
@[simp] theorem setGroup_wants (s : State) (g : Nat) (v : Group) : (setGroup s g v).wants = s.wants := rfl
@[simp] theorem setGroup_served (s : State) (g : Nat) (v : Group) : (setGroup s g v).served = s.served := rfl
@[simp] theorem setGroup_granted (s : State) (g : Nat) (v : Group) : (setGroup s g v).granted = s.granted := rfl
@[simp] theorem setGroup_tlpReports (s : State) (g : Nat) (v : Group) : (setGroup s g v).tlpReports = s.tlpReports := rfl
@[simp] theorem setGroup_moveBy (s : State) (g : Nat) (v : Group) : (setGroup s g v).moveBy = s.moveBy := rfl
@[simp] theorem setGroup_written (s : State) (g : Nat) (v : Group) : (setGroup s g v).written = s.written := rfl
@[simp] theorem setGroup_split (s : State) (g : Nat) (v : Group) : (setGroup s g v).split = s.split := rfl
@[simp] theorem setGroup_readback (s : State) (g : Nat) (v : Group) : (setGroup s g v).readback = s.readback := rfl
@[simp] theorem setGroup_events (s : State) (g : Nat) (v : Group) : (setGroup s g v).events = s.events := rfl
@[simp] theorem setGroup_svnRaised (s : State) (g : Nat) (v : Group) : (setGroup s g v).svnRaised = s.svnRaised := rfl
@[simp] theorem setGroup_unpins (s : State) (g : Nat) (v : Group) : (setGroup s g v).unpins = s.unpins := rfl
@[simp] theorem setGroup_d3 (s : State) (g : Nat) (v : Group) : (setGroup s g v).d3 = s.d3 := rfl

/-! ### modGroup -/

@[simp] theorem modGroup_agenda (s : State) (g : Nat) (f : Group → Group) : (modGroup s g f).agenda = s.agenda := rfl
@[simp] theorem modGroup_cur (s : State) (g : Nat) (f : Group → Group) : (modGroup s g f).cur = s.cur := rfl
@[simp] theorem modGroup_idling (s : State) (g : Nat) (f : Group → Group) : (modGroup s g f).idling = s.idling := rfl
@[simp] theorem modGroup_word (s : State) (g : Nat) (f : Group → Group) : (modGroup s g f).word = s.word := rfl
@[simp] theorem modGroup_fresh (s : State) (g : Nat) (f : Group → Group) : (modGroup s g f).fresh = s.fresh := rfl
@[simp] theorem modGroup_stuck (s : State) (g : Nat) (f : Group → Group) : (modGroup s g f).stuck = s.stuck := rfl
@[simp] theorem modGroup_tb (s : State) (g : Nat) (f : Group → Group) : (modGroup s g f).tb = s.tb := rfl
@[simp] theorem modGroup_cyc (s : State) (g : Nat) (f : Group → Group) : (modGroup s g f).cyc = s.cyc := rfl
@[simp] theorem modGroup_mem (s : State) (g : Nat) (f : Group → Group) : (modGroup s g f).mem = s.mem := rfl
@[simp] theorem modGroup_poison (s : State) (g : Nat) (f : Group → Group) : (modGroup s g f).poison = s.poison := rfl
@[simp] theorem modGroup_teams (s : State) (g : Nat) (f : Group → Group) : (modGroup s g f).teams = s.teams := rfl
@[simp] theorem modGroup_wins (s : State) (g : Nat) (f : Group → Group) : (modGroup s g f).wins = s.wins := rfl
@[simp] theorem modGroup_launches (s : State) (g : Nat) (f : Group → Group) : (modGroup s g f).launches = s.launches := rfl
@[simp] theorem modGroup_nextId (s : State) (g : Nat) (f : Group → Group) : (modGroup s g f).nextId = s.nextId := rfl
@[simp] theorem modGroup_ctxs (s : State) (g : Nat) (f : Group → Group) : (modGroup s g f).ctxs = s.ctxs := rfl
@[simp] theorem modGroup_cores (s : State) (g : Nat) (f : Group → Group) : (modGroup s g f).cores = s.cores := rfl
@[simp] theorem modGroup_clusters (s : State) (g : Nat) (f : Group → Group) : (modGroup s g f).clusters = s.clusters := rfl
@[simp] theorem modGroup_dies (s : State) (g : Nat) (f : Group → Group) : (modGroup s g f).dies = s.dies := rfl
@[simp] theorem modGroup_flits (s : State) (g : Nat) (f : Group → Group) : (modGroup s g f).flits = s.flits := rfl
@[simp] theorem modGroup_chans (s : State) (g : Nat) (f : Group → Group) : (modGroup s g f).chans = s.chans := rfl
@[simp] theorem modGroup_flitReports (s : State) (g : Nat) (f : Group → Group) : (modGroup s g f).flitReports = s.flitReports := rfl
@[simp] theorem modGroup_moves (s : State) (g : Nat) (f : Group → Group) : (modGroup s g f).moves = s.moves := rfl
@[simp] theorem modGroup_moveOrder (s : State) (g : Nat) (f : Group → Group) : (modGroup s g f).moveOrder = s.moveOrder := rfl
@[simp] theorem modGroup_movedPages (s : State) (g : Nat) (f : Group → Group) : (modGroup s g f).movedPages = s.movedPages := rfl
@[simp] theorem modGroup_pools (s : State) (g : Nat) (f : Group → Group) : (modGroup s g f).pools = s.pools := rfl
@[simp] theorem modGroup_frameOwner (s : State) (g : Nat) (f : Group → Group) : (modGroup s g f).frameOwner = s.frameOwner := rfl
@[simp] theorem modGroup_mboxes (s : State) (g : Nat) (f : Group → Group) : (modGroup s g f).mboxes = s.mboxes := rfl
@[simp] theorem modGroup_posts (s : State) (g : Nat) (f : Group → Group) : (modGroup s g f).posts = s.posts := rfl
@[simp] theorem modGroup_windows (s : State) (g : Nat) (f : Group → Group) : (modGroup s g f).windows = s.windows := rfl
@[simp] theorem modGroup_fns (s : State) (g : Nat) (f : Group → Group) : (modGroup s g f).fns = s.fns := rfl
@[simp] theorem modGroup_invq (s : State) (g : Nat) (f : Group → Group) : (modGroup s g f).invq = s.invq := rfl
@[simp] theorem modGroup_ovf (s : State) (g : Nat) (f : Group → Group) : (modGroup s g f).ovf = s.ovf := rfl
@[simp] theorem modGroup_faults (s : State) (g : Nat) (f : Group → Group) : (modGroup s g f).faults = s.faults := rfl
@[simp] theorem modGroup_irqs (s : State) (g : Nat) (f : Group → Group) : (modGroup s g f).irqs = s.irqs := rfl
@[simp] theorem modGroup_halves (s : State) (g : Nat) (f : Group → Group) : (modGroup s g f).halves = s.halves := rfl
@[simp] theorem modGroup_phase (s : State) (g : Nat) (f : Group → Group) : (modGroup s g f).phase = s.phase := rfl
@[simp] theorem modGroup_fail (s : State) (g : Nat) (f : Group → Group) : (modGroup s g f).fail = s.fail := rfl
@[simp] theorem modGroup_threshold (s : State) (g : Nat) (f : Group → Group) : (modGroup s g f).threshold = s.threshold := rfl
@[simp] theorem modGroup_ceWindow (s : State) (g : Nat) (f : Group → Group) : (modGroup s g f).ceWindow = s.ceWindow := rfl
@[simp] theorem modGroup_leaf (s : State) (g : Nat) (f : Group → Group) : (modGroup s g f).leaf = s.leaf := rfl
@[simp] theorem modGroup_wants (s : State) (g : Nat) (f : Group → Group) : (modGroup s g f).wants = s.wants := rfl
@[simp] theorem modGroup_served (s : State) (g : Nat) (f : Group → Group) : (modGroup s g f).served = s.served := rfl
@[simp] theorem modGroup_granted (s : State) (g : Nat) (f : Group → Group) : (modGroup s g f).granted = s.granted := rfl
@[simp] theorem modGroup_tlpReports (s : State) (g : Nat) (f : Group → Group) : (modGroup s g f).tlpReports = s.tlpReports := rfl
@[simp] theorem modGroup_moveBy (s : State) (g : Nat) (f : Group → Group) : (modGroup s g f).moveBy = s.moveBy := rfl
@[simp] theorem modGroup_written (s : State) (g : Nat) (f : Group → Group) : (modGroup s g f).written = s.written := rfl
@[simp] theorem modGroup_split (s : State) (g : Nat) (f : Group → Group) : (modGroup s g f).split = s.split := rfl
@[simp] theorem modGroup_readback (s : State) (g : Nat) (f : Group → Group) : (modGroup s g f).readback = s.readback := rfl
@[simp] theorem modGroup_events (s : State) (g : Nat) (f : Group → Group) : (modGroup s g f).events = s.events := rfl
@[simp] theorem modGroup_svnRaised (s : State) (g : Nat) (f : Group → Group) : (modGroup s g f).svnRaised = s.svnRaised := rfl
@[simp] theorem modGroup_unpins (s : State) (g : Nat) (f : Group → Group) : (modGroup s g f).unpins = s.unpins := rfl
@[simp] theorem modGroup_d3 (s : State) (g : Nat) (f : Group → Group) : (modGroup s g f).d3 = s.d3 := rfl

/-! ### modSlot -/

@[simp] theorem modSlot_agenda (s : State) (g : Nat) (sl : PSlot) (f : Slot → Slot) : (modSlot s g sl f).agenda = s.agenda := rfl
@[simp] theorem modSlot_cur (s : State) (g : Nat) (sl : PSlot) (f : Slot → Slot) : (modSlot s g sl f).cur = s.cur := rfl
@[simp] theorem modSlot_idling (s : State) (g : Nat) (sl : PSlot) (f : Slot → Slot) : (modSlot s g sl f).idling = s.idling := rfl
@[simp] theorem modSlot_word (s : State) (g : Nat) (sl : PSlot) (f : Slot → Slot) : (modSlot s g sl f).word = s.word := rfl
@[simp] theorem modSlot_fresh (s : State) (g : Nat) (sl : PSlot) (f : Slot → Slot) : (modSlot s g sl f).fresh = s.fresh := rfl
@[simp] theorem modSlot_stuck (s : State) (g : Nat) (sl : PSlot) (f : Slot → Slot) : (modSlot s g sl f).stuck = s.stuck := rfl
@[simp] theorem modSlot_tb (s : State) (g : Nat) (sl : PSlot) (f : Slot → Slot) : (modSlot s g sl f).tb = s.tb := rfl
@[simp] theorem modSlot_cyc (s : State) (g : Nat) (sl : PSlot) (f : Slot → Slot) : (modSlot s g sl f).cyc = s.cyc := rfl
@[simp] theorem modSlot_mem (s : State) (g : Nat) (sl : PSlot) (f : Slot → Slot) : (modSlot s g sl f).mem = s.mem := rfl
@[simp] theorem modSlot_poison (s : State) (g : Nat) (sl : PSlot) (f : Slot → Slot) : (modSlot s g sl f).poison = s.poison := rfl
@[simp] theorem modSlot_teams (s : State) (g : Nat) (sl : PSlot) (f : Slot → Slot) : (modSlot s g sl f).teams = s.teams := rfl
@[simp] theorem modSlot_wins (s : State) (g : Nat) (sl : PSlot) (f : Slot → Slot) : (modSlot s g sl f).wins = s.wins := rfl
@[simp] theorem modSlot_launches (s : State) (g : Nat) (sl : PSlot) (f : Slot → Slot) : (modSlot s g sl f).launches = s.launches := rfl
@[simp] theorem modSlot_nextId (s : State) (g : Nat) (sl : PSlot) (f : Slot → Slot) : (modSlot s g sl f).nextId = s.nextId := rfl
@[simp] theorem modSlot_ctxs (s : State) (g : Nat) (sl : PSlot) (f : Slot → Slot) : (modSlot s g sl f).ctxs = s.ctxs := rfl
@[simp] theorem modSlot_cores (s : State) (g : Nat) (sl : PSlot) (f : Slot → Slot) : (modSlot s g sl f).cores = s.cores := rfl
@[simp] theorem modSlot_clusters (s : State) (g : Nat) (sl : PSlot) (f : Slot → Slot) : (modSlot s g sl f).clusters = s.clusters := rfl
@[simp] theorem modSlot_dies (s : State) (g : Nat) (sl : PSlot) (f : Slot → Slot) : (modSlot s g sl f).dies = s.dies := rfl
@[simp] theorem modSlot_flits (s : State) (g : Nat) (sl : PSlot) (f : Slot → Slot) : (modSlot s g sl f).flits = s.flits := rfl
@[simp] theorem modSlot_chans (s : State) (g : Nat) (sl : PSlot) (f : Slot → Slot) : (modSlot s g sl f).chans = s.chans := rfl
@[simp] theorem modSlot_flitReports (s : State) (g : Nat) (sl : PSlot) (f : Slot → Slot) : (modSlot s g sl f).flitReports = s.flitReports := rfl
@[simp] theorem modSlot_moves (s : State) (g : Nat) (sl : PSlot) (f : Slot → Slot) : (modSlot s g sl f).moves = s.moves := rfl
@[simp] theorem modSlot_moveOrder (s : State) (g : Nat) (sl : PSlot) (f : Slot → Slot) : (modSlot s g sl f).moveOrder = s.moveOrder := rfl
@[simp] theorem modSlot_movedPages (s : State) (g : Nat) (sl : PSlot) (f : Slot → Slot) : (modSlot s g sl f).movedPages = s.movedPages := rfl
@[simp] theorem modSlot_pools (s : State) (g : Nat) (sl : PSlot) (f : Slot → Slot) : (modSlot s g sl f).pools = s.pools := rfl
@[simp] theorem modSlot_frameOwner (s : State) (g : Nat) (sl : PSlot) (f : Slot → Slot) : (modSlot s g sl f).frameOwner = s.frameOwner := rfl
@[simp] theorem modSlot_mboxes (s : State) (g : Nat) (sl : PSlot) (f : Slot → Slot) : (modSlot s g sl f).mboxes = s.mboxes := rfl
@[simp] theorem modSlot_posts (s : State) (g : Nat) (sl : PSlot) (f : Slot → Slot) : (modSlot s g sl f).posts = s.posts := rfl
@[simp] theorem modSlot_windows (s : State) (g : Nat) (sl : PSlot) (f : Slot → Slot) : (modSlot s g sl f).windows = s.windows := rfl
@[simp] theorem modSlot_fns (s : State) (g : Nat) (sl : PSlot) (f : Slot → Slot) : (modSlot s g sl f).fns = s.fns := rfl
@[simp] theorem modSlot_invq (s : State) (g : Nat) (sl : PSlot) (f : Slot → Slot) : (modSlot s g sl f).invq = s.invq := rfl
@[simp] theorem modSlot_ovf (s : State) (g : Nat) (sl : PSlot) (f : Slot → Slot) : (modSlot s g sl f).ovf = s.ovf := rfl
@[simp] theorem modSlot_faults (s : State) (g : Nat) (sl : PSlot) (f : Slot → Slot) : (modSlot s g sl f).faults = s.faults := rfl
@[simp] theorem modSlot_irqs (s : State) (g : Nat) (sl : PSlot) (f : Slot → Slot) : (modSlot s g sl f).irqs = s.irqs := rfl
@[simp] theorem modSlot_halves (s : State) (g : Nat) (sl : PSlot) (f : Slot → Slot) : (modSlot s g sl f).halves = s.halves := rfl
@[simp] theorem modSlot_phase (s : State) (g : Nat) (sl : PSlot) (f : Slot → Slot) : (modSlot s g sl f).phase = s.phase := rfl
@[simp] theorem modSlot_fail (s : State) (g : Nat) (sl : PSlot) (f : Slot → Slot) : (modSlot s g sl f).fail = s.fail := rfl
@[simp] theorem modSlot_threshold (s : State) (g : Nat) (sl : PSlot) (f : Slot → Slot) : (modSlot s g sl f).threshold = s.threshold := rfl
@[simp] theorem modSlot_ceWindow (s : State) (g : Nat) (sl : PSlot) (f : Slot → Slot) : (modSlot s g sl f).ceWindow = s.ceWindow := rfl
@[simp] theorem modSlot_leaf (s : State) (g : Nat) (sl : PSlot) (f : Slot → Slot) : (modSlot s g sl f).leaf = s.leaf := rfl
@[simp] theorem modSlot_wants (s : State) (g : Nat) (sl : PSlot) (f : Slot → Slot) : (modSlot s g sl f).wants = s.wants := rfl
@[simp] theorem modSlot_served (s : State) (g : Nat) (sl : PSlot) (f : Slot → Slot) : (modSlot s g sl f).served = s.served := rfl
@[simp] theorem modSlot_granted (s : State) (g : Nat) (sl : PSlot) (f : Slot → Slot) : (modSlot s g sl f).granted = s.granted := rfl
@[simp] theorem modSlot_tlpReports (s : State) (g : Nat) (sl : PSlot) (f : Slot → Slot) : (modSlot s g sl f).tlpReports = s.tlpReports := rfl
@[simp] theorem modSlot_moveBy (s : State) (g : Nat) (sl : PSlot) (f : Slot → Slot) : (modSlot s g sl f).moveBy = s.moveBy := rfl
@[simp] theorem modSlot_written (s : State) (g : Nat) (sl : PSlot) (f : Slot → Slot) : (modSlot s g sl f).written = s.written := rfl
@[simp] theorem modSlot_split (s : State) (g : Nat) (sl : PSlot) (f : Slot → Slot) : (modSlot s g sl f).split = s.split := rfl
@[simp] theorem modSlot_readback (s : State) (g : Nat) (sl : PSlot) (f : Slot → Slot) : (modSlot s g sl f).readback = s.readback := rfl
@[simp] theorem modSlot_events (s : State) (g : Nat) (sl : PSlot) (f : Slot → Slot) : (modSlot s g sl f).events = s.events := rfl
@[simp] theorem modSlot_svnRaised (s : State) (g : Nat) (sl : PSlot) (f : Slot → Slot) : (modSlot s g sl f).svnRaised = s.svnRaised := rfl
@[simp] theorem modSlot_unpins (s : State) (g : Nat) (sl : PSlot) (f : Slot → Slot) : (modSlot s g sl f).unpins = s.unpins := rfl
@[simp] theorem modSlot_d3 (s : State) (g : Nat) (sl : PSlot) (f : Slot → Slot) : (modSlot s g sl f).d3 = s.d3 := rfl

/-! ### modTeam -/

@[simp] theorem modTeam_agenda (s : State) (t : Nat) (f : Team → Team) : (modTeam s t f).agenda = s.agenda := rfl
@[simp] theorem modTeam_cur (s : State) (t : Nat) (f : Team → Team) : (modTeam s t f).cur = s.cur := rfl
@[simp] theorem modTeam_idling (s : State) (t : Nat) (f : Team → Team) : (modTeam s t f).idling = s.idling := rfl
@[simp] theorem modTeam_word (s : State) (t : Nat) (f : Team → Team) : (modTeam s t f).word = s.word := rfl
@[simp] theorem modTeam_fresh (s : State) (t : Nat) (f : Team → Team) : (modTeam s t f).fresh = s.fresh := rfl
@[simp] theorem modTeam_stuck (s : State) (t : Nat) (f : Team → Team) : (modTeam s t f).stuck = s.stuck := rfl
@[simp] theorem modTeam_tb (s : State) (t : Nat) (f : Team → Team) : (modTeam s t f).tb = s.tb := rfl
@[simp] theorem modTeam_cyc (s : State) (t : Nat) (f : Team → Team) : (modTeam s t f).cyc = s.cyc := rfl
@[simp] theorem modTeam_mem (s : State) (t : Nat) (f : Team → Team) : (modTeam s t f).mem = s.mem := rfl
@[simp] theorem modTeam_poison (s : State) (t : Nat) (f : Team → Team) : (modTeam s t f).poison = s.poison := rfl
@[simp] theorem modTeam_groups (s : State) (t : Nat) (f : Team → Team) : (modTeam s t f).groups = s.groups := rfl
@[simp] theorem modTeam_wins (s : State) (t : Nat) (f : Team → Team) : (modTeam s t f).wins = s.wins := rfl
@[simp] theorem modTeam_launches (s : State) (t : Nat) (f : Team → Team) : (modTeam s t f).launches = s.launches := rfl
@[simp] theorem modTeam_nextId (s : State) (t : Nat) (f : Team → Team) : (modTeam s t f).nextId = s.nextId := rfl
@[simp] theorem modTeam_ctxs (s : State) (t : Nat) (f : Team → Team) : (modTeam s t f).ctxs = s.ctxs := rfl
@[simp] theorem modTeam_cores (s : State) (t : Nat) (f : Team → Team) : (modTeam s t f).cores = s.cores := rfl
@[simp] theorem modTeam_clusters (s : State) (t : Nat) (f : Team → Team) : (modTeam s t f).clusters = s.clusters := rfl
@[simp] theorem modTeam_dies (s : State) (t : Nat) (f : Team → Team) : (modTeam s t f).dies = s.dies := rfl
@[simp] theorem modTeam_flits (s : State) (t : Nat) (f : Team → Team) : (modTeam s t f).flits = s.flits := rfl
@[simp] theorem modTeam_chans (s : State) (t : Nat) (f : Team → Team) : (modTeam s t f).chans = s.chans := rfl
@[simp] theorem modTeam_flitReports (s : State) (t : Nat) (f : Team → Team) : (modTeam s t f).flitReports = s.flitReports := rfl
@[simp] theorem modTeam_moves (s : State) (t : Nat) (f : Team → Team) : (modTeam s t f).moves = s.moves := rfl
@[simp] theorem modTeam_moveOrder (s : State) (t : Nat) (f : Team → Team) : (modTeam s t f).moveOrder = s.moveOrder := rfl
@[simp] theorem modTeam_movedPages (s : State) (t : Nat) (f : Team → Team) : (modTeam s t f).movedPages = s.movedPages := rfl
@[simp] theorem modTeam_pools (s : State) (t : Nat) (f : Team → Team) : (modTeam s t f).pools = s.pools := rfl
@[simp] theorem modTeam_frameOwner (s : State) (t : Nat) (f : Team → Team) : (modTeam s t f).frameOwner = s.frameOwner := rfl
@[simp] theorem modTeam_mboxes (s : State) (t : Nat) (f : Team → Team) : (modTeam s t f).mboxes = s.mboxes := rfl
@[simp] theorem modTeam_posts (s : State) (t : Nat) (f : Team → Team) : (modTeam s t f).posts = s.posts := rfl
@[simp] theorem modTeam_windows (s : State) (t : Nat) (f : Team → Team) : (modTeam s t f).windows = s.windows := rfl
@[simp] theorem modTeam_fns (s : State) (t : Nat) (f : Team → Team) : (modTeam s t f).fns = s.fns := rfl
@[simp] theorem modTeam_invq (s : State) (t : Nat) (f : Team → Team) : (modTeam s t f).invq = s.invq := rfl
@[simp] theorem modTeam_ovf (s : State) (t : Nat) (f : Team → Team) : (modTeam s t f).ovf = s.ovf := rfl
@[simp] theorem modTeam_faults (s : State) (t : Nat) (f : Team → Team) : (modTeam s t f).faults = s.faults := rfl
@[simp] theorem modTeam_irqs (s : State) (t : Nat) (f : Team → Team) : (modTeam s t f).irqs = s.irqs := rfl
@[simp] theorem modTeam_halves (s : State) (t : Nat) (f : Team → Team) : (modTeam s t f).halves = s.halves := rfl
@[simp] theorem modTeam_phase (s : State) (t : Nat) (f : Team → Team) : (modTeam s t f).phase = s.phase := rfl
@[simp] theorem modTeam_fail (s : State) (t : Nat) (f : Team → Team) : (modTeam s t f).fail = s.fail := rfl
@[simp] theorem modTeam_threshold (s : State) (t : Nat) (f : Team → Team) : (modTeam s t f).threshold = s.threshold := rfl
@[simp] theorem modTeam_ceWindow (s : State) (t : Nat) (f : Team → Team) : (modTeam s t f).ceWindow = s.ceWindow := rfl
@[simp] theorem modTeam_leaf (s : State) (t : Nat) (f : Team → Team) : (modTeam s t f).leaf = s.leaf := rfl
@[simp] theorem modTeam_wants (s : State) (t : Nat) (f : Team → Team) : (modTeam s t f).wants = s.wants := rfl
@[simp] theorem modTeam_served (s : State) (t : Nat) (f : Team → Team) : (modTeam s t f).served = s.served := rfl
@[simp] theorem modTeam_granted (s : State) (t : Nat) (f : Team → Team) : (modTeam s t f).granted = s.granted := rfl
@[simp] theorem modTeam_tlpReports (s : State) (t : Nat) (f : Team → Team) : (modTeam s t f).tlpReports = s.tlpReports := rfl
@[simp] theorem modTeam_moveBy (s : State) (t : Nat) (f : Team → Team) : (modTeam s t f).moveBy = s.moveBy := rfl
@[simp] theorem modTeam_written (s : State) (t : Nat) (f : Team → Team) : (modTeam s t f).written = s.written := rfl
@[simp] theorem modTeam_split (s : State) (t : Nat) (f : Team → Team) : (modTeam s t f).split = s.split := rfl
@[simp] theorem modTeam_readback (s : State) (t : Nat) (f : Team → Team) : (modTeam s t f).readback = s.readback := rfl
@[simp] theorem modTeam_events (s : State) (t : Nat) (f : Team → Team) : (modTeam s t f).events = s.events := rfl
@[simp] theorem modTeam_svnRaised (s : State) (t : Nat) (f : Team → Team) : (modTeam s t f).svnRaised = s.svnRaised := rfl
@[simp] theorem modTeam_unpins (s : State) (t : Nat) (f : Team → Team) : (modTeam s t f).unpins = s.unpins := rfl
@[simp] theorem modTeam_d3 (s : State) (t : Nat) (f : Team → Team) : (modTeam s t f).d3 = s.d3 := rfl

/-! ### modLaunch -/

@[simp] theorem modLaunch_agenda (s : State) (l : Nat) (f : Launch → Launch) : (modLaunch s l f).agenda = s.agenda := rfl
@[simp] theorem modLaunch_cur (s : State) (l : Nat) (f : Launch → Launch) : (modLaunch s l f).cur = s.cur := rfl
@[simp] theorem modLaunch_idling (s : State) (l : Nat) (f : Launch → Launch) : (modLaunch s l f).idling = s.idling := rfl
@[simp] theorem modLaunch_word (s : State) (l : Nat) (f : Launch → Launch) : (modLaunch s l f).word = s.word := rfl
@[simp] theorem modLaunch_fresh (s : State) (l : Nat) (f : Launch → Launch) : (modLaunch s l f).fresh = s.fresh := rfl
@[simp] theorem modLaunch_stuck (s : State) (l : Nat) (f : Launch → Launch) : (modLaunch s l f).stuck = s.stuck := rfl
@[simp] theorem modLaunch_tb (s : State) (l : Nat) (f : Launch → Launch) : (modLaunch s l f).tb = s.tb := rfl
@[simp] theorem modLaunch_cyc (s : State) (l : Nat) (f : Launch → Launch) : (modLaunch s l f).cyc = s.cyc := rfl
@[simp] theorem modLaunch_mem (s : State) (l : Nat) (f : Launch → Launch) : (modLaunch s l f).mem = s.mem := rfl
@[simp] theorem modLaunch_poison (s : State) (l : Nat) (f : Launch → Launch) : (modLaunch s l f).poison = s.poison := rfl
@[simp] theorem modLaunch_groups (s : State) (l : Nat) (f : Launch → Launch) : (modLaunch s l f).groups = s.groups := rfl
@[simp] theorem modLaunch_teams (s : State) (l : Nat) (f : Launch → Launch) : (modLaunch s l f).teams = s.teams := rfl
@[simp] theorem modLaunch_wins (s : State) (l : Nat) (f : Launch → Launch) : (modLaunch s l f).wins = s.wins := rfl
@[simp] theorem modLaunch_nextId (s : State) (l : Nat) (f : Launch → Launch) : (modLaunch s l f).nextId = s.nextId := rfl
@[simp] theorem modLaunch_ctxs (s : State) (l : Nat) (f : Launch → Launch) : (modLaunch s l f).ctxs = s.ctxs := rfl
@[simp] theorem modLaunch_cores (s : State) (l : Nat) (f : Launch → Launch) : (modLaunch s l f).cores = s.cores := rfl
@[simp] theorem modLaunch_clusters (s : State) (l : Nat) (f : Launch → Launch) : (modLaunch s l f).clusters = s.clusters := rfl
@[simp] theorem modLaunch_dies (s : State) (l : Nat) (f : Launch → Launch) : (modLaunch s l f).dies = s.dies := rfl
@[simp] theorem modLaunch_flits (s : State) (l : Nat) (f : Launch → Launch) : (modLaunch s l f).flits = s.flits := rfl
@[simp] theorem modLaunch_chans (s : State) (l : Nat) (f : Launch → Launch) : (modLaunch s l f).chans = s.chans := rfl
@[simp] theorem modLaunch_flitReports (s : State) (l : Nat) (f : Launch → Launch) : (modLaunch s l f).flitReports = s.flitReports := rfl
@[simp] theorem modLaunch_moves (s : State) (l : Nat) (f : Launch → Launch) : (modLaunch s l f).moves = s.moves := rfl
@[simp] theorem modLaunch_moveOrder (s : State) (l : Nat) (f : Launch → Launch) : (modLaunch s l f).moveOrder = s.moveOrder := rfl
@[simp] theorem modLaunch_movedPages (s : State) (l : Nat) (f : Launch → Launch) : (modLaunch s l f).movedPages = s.movedPages := rfl
@[simp] theorem modLaunch_pools (s : State) (l : Nat) (f : Launch → Launch) : (modLaunch s l f).pools = s.pools := rfl
@[simp] theorem modLaunch_frameOwner (s : State) (l : Nat) (f : Launch → Launch) : (modLaunch s l f).frameOwner = s.frameOwner := rfl
@[simp] theorem modLaunch_mboxes (s : State) (l : Nat) (f : Launch → Launch) : (modLaunch s l f).mboxes = s.mboxes := rfl
@[simp] theorem modLaunch_posts (s : State) (l : Nat) (f : Launch → Launch) : (modLaunch s l f).posts = s.posts := rfl
@[simp] theorem modLaunch_windows (s : State) (l : Nat) (f : Launch → Launch) : (modLaunch s l f).windows = s.windows := rfl
@[simp] theorem modLaunch_fns (s : State) (l : Nat) (f : Launch → Launch) : (modLaunch s l f).fns = s.fns := rfl
@[simp] theorem modLaunch_invq (s : State) (l : Nat) (f : Launch → Launch) : (modLaunch s l f).invq = s.invq := rfl
@[simp] theorem modLaunch_ovf (s : State) (l : Nat) (f : Launch → Launch) : (modLaunch s l f).ovf = s.ovf := rfl
@[simp] theorem modLaunch_faults (s : State) (l : Nat) (f : Launch → Launch) : (modLaunch s l f).faults = s.faults := rfl
@[simp] theorem modLaunch_irqs (s : State) (l : Nat) (f : Launch → Launch) : (modLaunch s l f).irqs = s.irqs := rfl
@[simp] theorem modLaunch_halves (s : State) (l : Nat) (f : Launch → Launch) : (modLaunch s l f).halves = s.halves := rfl
@[simp] theorem modLaunch_phase (s : State) (l : Nat) (f : Launch → Launch) : (modLaunch s l f).phase = s.phase := rfl
@[simp] theorem modLaunch_fail (s : State) (l : Nat) (f : Launch → Launch) : (modLaunch s l f).fail = s.fail := rfl
@[simp] theorem modLaunch_threshold (s : State) (l : Nat) (f : Launch → Launch) : (modLaunch s l f).threshold = s.threshold := rfl
@[simp] theorem modLaunch_ceWindow (s : State) (l : Nat) (f : Launch → Launch) : (modLaunch s l f).ceWindow = s.ceWindow := rfl
@[simp] theorem modLaunch_leaf (s : State) (l : Nat) (f : Launch → Launch) : (modLaunch s l f).leaf = s.leaf := rfl
@[simp] theorem modLaunch_wants (s : State) (l : Nat) (f : Launch → Launch) : (modLaunch s l f).wants = s.wants := rfl
@[simp] theorem modLaunch_served (s : State) (l : Nat) (f : Launch → Launch) : (modLaunch s l f).served = s.served := rfl
@[simp] theorem modLaunch_granted (s : State) (l : Nat) (f : Launch → Launch) : (modLaunch s l f).granted = s.granted := rfl
@[simp] theorem modLaunch_tlpReports (s : State) (l : Nat) (f : Launch → Launch) : (modLaunch s l f).tlpReports = s.tlpReports := rfl
@[simp] theorem modLaunch_moveBy (s : State) (l : Nat) (f : Launch → Launch) : (modLaunch s l f).moveBy = s.moveBy := rfl
@[simp] theorem modLaunch_written (s : State) (l : Nat) (f : Launch → Launch) : (modLaunch s l f).written = s.written := rfl
@[simp] theorem modLaunch_split (s : State) (l : Nat) (f : Launch → Launch) : (modLaunch s l f).split = s.split := rfl
@[simp] theorem modLaunch_readback (s : State) (l : Nat) (f : Launch → Launch) : (modLaunch s l f).readback = s.readback := rfl
@[simp] theorem modLaunch_events (s : State) (l : Nat) (f : Launch → Launch) : (modLaunch s l f).events = s.events := rfl
@[simp] theorem modLaunch_svnRaised (s : State) (l : Nat) (f : Launch → Launch) : (modLaunch s l f).svnRaised = s.svnRaised := rfl
@[simp] theorem modLaunch_unpins (s : State) (l : Nat) (f : Launch → Launch) : (modLaunch s l f).unpins = s.unpins := rfl
@[simp] theorem modLaunch_d3 (s : State) (l : Nat) (f : Launch → Launch) : (modLaunch s l f).d3 = s.d3 := rfl

/-! ### modCtx -/

@[simp] theorem modCtx_agenda (s : State) (c : Nat) (f : Context → Context) : (modCtx s c f).agenda = s.agenda := rfl
@[simp] theorem modCtx_cur (s : State) (c : Nat) (f : Context → Context) : (modCtx s c f).cur = s.cur := rfl
@[simp] theorem modCtx_idling (s : State) (c : Nat) (f : Context → Context) : (modCtx s c f).idling = s.idling := rfl
@[simp] theorem modCtx_word (s : State) (c : Nat) (f : Context → Context) : (modCtx s c f).word = s.word := rfl
@[simp] theorem modCtx_fresh (s : State) (c : Nat) (f : Context → Context) : (modCtx s c f).fresh = s.fresh := rfl
@[simp] theorem modCtx_stuck (s : State) (c : Nat) (f : Context → Context) : (modCtx s c f).stuck = s.stuck := rfl
@[simp] theorem modCtx_tb (s : State) (c : Nat) (f : Context → Context) : (modCtx s c f).tb = s.tb := rfl
@[simp] theorem modCtx_cyc (s : State) (c : Nat) (f : Context → Context) : (modCtx s c f).cyc = s.cyc := rfl
@[simp] theorem modCtx_mem (s : State) (c : Nat) (f : Context → Context) : (modCtx s c f).mem = s.mem := rfl
@[simp] theorem modCtx_poison (s : State) (c : Nat) (f : Context → Context) : (modCtx s c f).poison = s.poison := rfl
@[simp] theorem modCtx_groups (s : State) (c : Nat) (f : Context → Context) : (modCtx s c f).groups = s.groups := rfl
@[simp] theorem modCtx_teams (s : State) (c : Nat) (f : Context → Context) : (modCtx s c f).teams = s.teams := rfl
@[simp] theorem modCtx_wins (s : State) (c : Nat) (f : Context → Context) : (modCtx s c f).wins = s.wins := rfl
@[simp] theorem modCtx_launches (s : State) (c : Nat) (f : Context → Context) : (modCtx s c f).launches = s.launches := rfl
@[simp] theorem modCtx_nextId (s : State) (c : Nat) (f : Context → Context) : (modCtx s c f).nextId = s.nextId := rfl
@[simp] theorem modCtx_cores (s : State) (c : Nat) (f : Context → Context) : (modCtx s c f).cores = s.cores := rfl
@[simp] theorem modCtx_clusters (s : State) (c : Nat) (f : Context → Context) : (modCtx s c f).clusters = s.clusters := rfl
@[simp] theorem modCtx_dies (s : State) (c : Nat) (f : Context → Context) : (modCtx s c f).dies = s.dies := rfl
@[simp] theorem modCtx_flits (s : State) (c : Nat) (f : Context → Context) : (modCtx s c f).flits = s.flits := rfl
@[simp] theorem modCtx_chans (s : State) (c : Nat) (f : Context → Context) : (modCtx s c f).chans = s.chans := rfl
@[simp] theorem modCtx_flitReports (s : State) (c : Nat) (f : Context → Context) : (modCtx s c f).flitReports = s.flitReports := rfl
@[simp] theorem modCtx_moves (s : State) (c : Nat) (f : Context → Context) : (modCtx s c f).moves = s.moves := rfl
@[simp] theorem modCtx_moveOrder (s : State) (c : Nat) (f : Context → Context) : (modCtx s c f).moveOrder = s.moveOrder := rfl
@[simp] theorem modCtx_movedPages (s : State) (c : Nat) (f : Context → Context) : (modCtx s c f).movedPages = s.movedPages := rfl
@[simp] theorem modCtx_pools (s : State) (c : Nat) (f : Context → Context) : (modCtx s c f).pools = s.pools := rfl
@[simp] theorem modCtx_frameOwner (s : State) (c : Nat) (f : Context → Context) : (modCtx s c f).frameOwner = s.frameOwner := rfl
@[simp] theorem modCtx_mboxes (s : State) (c : Nat) (f : Context → Context) : (modCtx s c f).mboxes = s.mboxes := rfl
@[simp] theorem modCtx_posts (s : State) (c : Nat) (f : Context → Context) : (modCtx s c f).posts = s.posts := rfl
@[simp] theorem modCtx_windows (s : State) (c : Nat) (f : Context → Context) : (modCtx s c f).windows = s.windows := rfl
@[simp] theorem modCtx_fns (s : State) (c : Nat) (f : Context → Context) : (modCtx s c f).fns = s.fns := rfl
@[simp] theorem modCtx_invq (s : State) (c : Nat) (f : Context → Context) : (modCtx s c f).invq = s.invq := rfl
@[simp] theorem modCtx_ovf (s : State) (c : Nat) (f : Context → Context) : (modCtx s c f).ovf = s.ovf := rfl
@[simp] theorem modCtx_faults (s : State) (c : Nat) (f : Context → Context) : (modCtx s c f).faults = s.faults := rfl
@[simp] theorem modCtx_irqs (s : State) (c : Nat) (f : Context → Context) : (modCtx s c f).irqs = s.irqs := rfl
@[simp] theorem modCtx_halves (s : State) (c : Nat) (f : Context → Context) : (modCtx s c f).halves = s.halves := rfl
@[simp] theorem modCtx_phase (s : State) (c : Nat) (f : Context → Context) : (modCtx s c f).phase = s.phase := rfl
@[simp] theorem modCtx_fail (s : State) (c : Nat) (f : Context → Context) : (modCtx s c f).fail = s.fail := rfl
@[simp] theorem modCtx_threshold (s : State) (c : Nat) (f : Context → Context) : (modCtx s c f).threshold = s.threshold := rfl
@[simp] theorem modCtx_ceWindow (s : State) (c : Nat) (f : Context → Context) : (modCtx s c f).ceWindow = s.ceWindow := rfl
@[simp] theorem modCtx_leaf (s : State) (c : Nat) (f : Context → Context) : (modCtx s c f).leaf = s.leaf := rfl
@[simp] theorem modCtx_wants (s : State) (c : Nat) (f : Context → Context) : (modCtx s c f).wants = s.wants := rfl
@[simp] theorem modCtx_served (s : State) (c : Nat) (f : Context → Context) : (modCtx s c f).served = s.served := rfl
@[simp] theorem modCtx_granted (s : State) (c : Nat) (f : Context → Context) : (modCtx s c f).granted = s.granted := rfl
@[simp] theorem modCtx_tlpReports (s : State) (c : Nat) (f : Context → Context) : (modCtx s c f).tlpReports = s.tlpReports := rfl
@[simp] theorem modCtx_moveBy (s : State) (c : Nat) (f : Context → Context) : (modCtx s c f).moveBy = s.moveBy := rfl
@[simp] theorem modCtx_written (s : State) (c : Nat) (f : Context → Context) : (modCtx s c f).written = s.written := rfl
@[simp] theorem modCtx_split (s : State) (c : Nat) (f : Context → Context) : (modCtx s c f).split = s.split := rfl
@[simp] theorem modCtx_readback (s : State) (c : Nat) (f : Context → Context) : (modCtx s c f).readback = s.readback := rfl
@[simp] theorem modCtx_events (s : State) (c : Nat) (f : Context → Context) : (modCtx s c f).events = s.events := rfl
@[simp] theorem modCtx_svnRaised (s : State) (c : Nat) (f : Context → Context) : (modCtx s c f).svnRaised = s.svnRaised := rfl
@[simp] theorem modCtx_unpins (s : State) (c : Nat) (f : Context → Context) : (modCtx s c f).unpins = s.unpins := rfl
@[simp] theorem modCtx_d3 (s : State) (c : Nat) (f : Context → Context) : (modCtx s c f).d3 = s.d3 := rfl

/-! ### setCyc -/

@[simp] theorem setCyc_agenda (s : State) (core quad c : Nat) : (setCyc s core quad c).agenda = s.agenda := rfl
@[simp] theorem setCyc_cur (s : State) (core quad c : Nat) : (setCyc s core quad c).cur = s.cur := rfl
@[simp] theorem setCyc_idling (s : State) (core quad c : Nat) : (setCyc s core quad c).idling = s.idling := rfl
@[simp] theorem setCyc_word (s : State) (core quad c : Nat) : (setCyc s core quad c).word = s.word := rfl
@[simp] theorem setCyc_fresh (s : State) (core quad c : Nat) : (setCyc s core quad c).fresh = s.fresh := rfl
@[simp] theorem setCyc_stuck (s : State) (core quad c : Nat) : (setCyc s core quad c).stuck = s.stuck := rfl
@[simp] theorem setCyc_tb (s : State) (core quad c : Nat) : (setCyc s core quad c).tb = s.tb := rfl
@[simp] theorem setCyc_mem (s : State) (core quad c : Nat) : (setCyc s core quad c).mem = s.mem := rfl
@[simp] theorem setCyc_poison (s : State) (core quad c : Nat) : (setCyc s core quad c).poison = s.poison := rfl
@[simp] theorem setCyc_groups (s : State) (core quad c : Nat) : (setCyc s core quad c).groups = s.groups := rfl
@[simp] theorem setCyc_teams (s : State) (core quad c : Nat) : (setCyc s core quad c).teams = s.teams := rfl
@[simp] theorem setCyc_wins (s : State) (core quad c : Nat) : (setCyc s core quad c).wins = s.wins := rfl
@[simp] theorem setCyc_launches (s : State) (core quad c : Nat) : (setCyc s core quad c).launches = s.launches := rfl
@[simp] theorem setCyc_nextId (s : State) (core quad c : Nat) : (setCyc s core quad c).nextId = s.nextId := rfl
@[simp] theorem setCyc_ctxs (s : State) (core quad c : Nat) : (setCyc s core quad c).ctxs = s.ctxs := rfl
@[simp] theorem setCyc_cores (s : State) (core quad c : Nat) : (setCyc s core quad c).cores = s.cores := rfl
@[simp] theorem setCyc_clusters (s : State) (core quad c : Nat) : (setCyc s core quad c).clusters = s.clusters := rfl
@[simp] theorem setCyc_dies (s : State) (core quad c : Nat) : (setCyc s core quad c).dies = s.dies := rfl
@[simp] theorem setCyc_flits (s : State) (core quad c : Nat) : (setCyc s core quad c).flits = s.flits := rfl
@[simp] theorem setCyc_chans (s : State) (core quad c : Nat) : (setCyc s core quad c).chans = s.chans := rfl
@[simp] theorem setCyc_flitReports (s : State) (core quad c : Nat) : (setCyc s core quad c).flitReports = s.flitReports := rfl
@[simp] theorem setCyc_moves (s : State) (core quad c : Nat) : (setCyc s core quad c).moves = s.moves := rfl
@[simp] theorem setCyc_moveOrder (s : State) (core quad c : Nat) : (setCyc s core quad c).moveOrder = s.moveOrder := rfl
@[simp] theorem setCyc_movedPages (s : State) (core quad c : Nat) : (setCyc s core quad c).movedPages = s.movedPages := rfl
@[simp] theorem setCyc_pools (s : State) (core quad c : Nat) : (setCyc s core quad c).pools = s.pools := rfl
@[simp] theorem setCyc_frameOwner (s : State) (core quad c : Nat) : (setCyc s core quad c).frameOwner = s.frameOwner := rfl
@[simp] theorem setCyc_mboxes (s : State) (core quad c : Nat) : (setCyc s core quad c).mboxes = s.mboxes := rfl
@[simp] theorem setCyc_posts (s : State) (core quad c : Nat) : (setCyc s core quad c).posts = s.posts := rfl
@[simp] theorem setCyc_windows (s : State) (core quad c : Nat) : (setCyc s core quad c).windows = s.windows := rfl
@[simp] theorem setCyc_fns (s : State) (core quad c : Nat) : (setCyc s core quad c).fns = s.fns := rfl
@[simp] theorem setCyc_invq (s : State) (core quad c : Nat) : (setCyc s core quad c).invq = s.invq := rfl
@[simp] theorem setCyc_ovf (s : State) (core quad c : Nat) : (setCyc s core quad c).ovf = s.ovf := rfl
@[simp] theorem setCyc_faults (s : State) (core quad c : Nat) : (setCyc s core quad c).faults = s.faults := rfl
@[simp] theorem setCyc_irqs (s : State) (core quad c : Nat) : (setCyc s core quad c).irqs = s.irqs := rfl
@[simp] theorem setCyc_halves (s : State) (core quad c : Nat) : (setCyc s core quad c).halves = s.halves := rfl
@[simp] theorem setCyc_phase (s : State) (core quad c : Nat) : (setCyc s core quad c).phase = s.phase := rfl
@[simp] theorem setCyc_fail (s : State) (core quad c : Nat) : (setCyc s core quad c).fail = s.fail := rfl
@[simp] theorem setCyc_threshold (s : State) (core quad c : Nat) : (setCyc s core quad c).threshold = s.threshold := rfl
@[simp] theorem setCyc_ceWindow (s : State) (core quad c : Nat) : (setCyc s core quad c).ceWindow = s.ceWindow := rfl
@[simp] theorem setCyc_leaf (s : State) (core quad c : Nat) : (setCyc s core quad c).leaf = s.leaf := rfl
@[simp] theorem setCyc_wants (s : State) (core quad c : Nat) : (setCyc s core quad c).wants = s.wants := rfl
@[simp] theorem setCyc_served (s : State) (core quad c : Nat) : (setCyc s core quad c).served = s.served := rfl
@[simp] theorem setCyc_granted (s : State) (core quad c : Nat) : (setCyc s core quad c).granted = s.granted := rfl
@[simp] theorem setCyc_tlpReports (s : State) (core quad c : Nat) : (setCyc s core quad c).tlpReports = s.tlpReports := rfl
@[simp] theorem setCyc_moveBy (s : State) (core quad c : Nat) : (setCyc s core quad c).moveBy = s.moveBy := rfl
@[simp] theorem setCyc_written (s : State) (core quad c : Nat) : (setCyc s core quad c).written = s.written := rfl
@[simp] theorem setCyc_split (s : State) (core quad c : Nat) : (setCyc s core quad c).split = s.split := rfl
@[simp] theorem setCyc_readback (s : State) (core quad c : Nat) : (setCyc s core quad c).readback = s.readback := rfl
@[simp] theorem setCyc_events (s : State) (core quad c : Nat) : (setCyc s core quad c).events = s.events := rfl
@[simp] theorem setCyc_svnRaised (s : State) (core quad c : Nat) : (setCyc s core quad c).svnRaised = s.svnRaised := rfl
@[simp] theorem setCyc_unpins (s : State) (core quad c : Nat) : (setCyc s core quad c).unpins = s.unpins := rfl
@[simp] theorem setCyc_d3 (s : State) (core quad c : Nat) : (setCyc s core quad c).d3 = s.d3 := rfl

/-! ### modDie -/

@[simp] theorem modDie_agenda (s : State) (d : Nat) (f : Die → Die) : (modDie s d f).agenda = s.agenda := rfl
@[simp] theorem modDie_cur (s : State) (d : Nat) (f : Die → Die) : (modDie s d f).cur = s.cur := rfl
@[simp] theorem modDie_idling (s : State) (d : Nat) (f : Die → Die) : (modDie s d f).idling = s.idling := rfl
@[simp] theorem modDie_word (s : State) (d : Nat) (f : Die → Die) : (modDie s d f).word = s.word := rfl
@[simp] theorem modDie_fresh (s : State) (d : Nat) (f : Die → Die) : (modDie s d f).fresh = s.fresh := rfl
@[simp] theorem modDie_stuck (s : State) (d : Nat) (f : Die → Die) : (modDie s d f).stuck = s.stuck := rfl
@[simp] theorem modDie_tb (s : State) (d : Nat) (f : Die → Die) : (modDie s d f).tb = s.tb := rfl
@[simp] theorem modDie_cyc (s : State) (d : Nat) (f : Die → Die) : (modDie s d f).cyc = s.cyc := rfl
@[simp] theorem modDie_mem (s : State) (d : Nat) (f : Die → Die) : (modDie s d f).mem = s.mem := rfl
@[simp] theorem modDie_poison (s : State) (d : Nat) (f : Die → Die) : (modDie s d f).poison = s.poison := rfl
@[simp] theorem modDie_groups (s : State) (d : Nat) (f : Die → Die) : (modDie s d f).groups = s.groups := rfl
@[simp] theorem modDie_teams (s : State) (d : Nat) (f : Die → Die) : (modDie s d f).teams = s.teams := rfl
@[simp] theorem modDie_wins (s : State) (d : Nat) (f : Die → Die) : (modDie s d f).wins = s.wins := rfl
@[simp] theorem modDie_launches (s : State) (d : Nat) (f : Die → Die) : (modDie s d f).launches = s.launches := rfl
@[simp] theorem modDie_nextId (s : State) (d : Nat) (f : Die → Die) : (modDie s d f).nextId = s.nextId := rfl
@[simp] theorem modDie_ctxs (s : State) (d : Nat) (f : Die → Die) : (modDie s d f).ctxs = s.ctxs := rfl
@[simp] theorem modDie_cores (s : State) (d : Nat) (f : Die → Die) : (modDie s d f).cores = s.cores := rfl
@[simp] theorem modDie_clusters (s : State) (d : Nat) (f : Die → Die) : (modDie s d f).clusters = s.clusters := rfl
@[simp] theorem modDie_flits (s : State) (d : Nat) (f : Die → Die) : (modDie s d f).flits = s.flits := rfl
@[simp] theorem modDie_chans (s : State) (d : Nat) (f : Die → Die) : (modDie s d f).chans = s.chans := rfl
@[simp] theorem modDie_flitReports (s : State) (d : Nat) (f : Die → Die) : (modDie s d f).flitReports = s.flitReports := rfl
@[simp] theorem modDie_moves (s : State) (d : Nat) (f : Die → Die) : (modDie s d f).moves = s.moves := rfl
@[simp] theorem modDie_moveOrder (s : State) (d : Nat) (f : Die → Die) : (modDie s d f).moveOrder = s.moveOrder := rfl
@[simp] theorem modDie_movedPages (s : State) (d : Nat) (f : Die → Die) : (modDie s d f).movedPages = s.movedPages := rfl
@[simp] theorem modDie_pools (s : State) (d : Nat) (f : Die → Die) : (modDie s d f).pools = s.pools := rfl
@[simp] theorem modDie_frameOwner (s : State) (d : Nat) (f : Die → Die) : (modDie s d f).frameOwner = s.frameOwner := rfl
@[simp] theorem modDie_mboxes (s : State) (d : Nat) (f : Die → Die) : (modDie s d f).mboxes = s.mboxes := rfl
@[simp] theorem modDie_posts (s : State) (d : Nat) (f : Die → Die) : (modDie s d f).posts = s.posts := rfl
@[simp] theorem modDie_windows (s : State) (d : Nat) (f : Die → Die) : (modDie s d f).windows = s.windows := rfl
@[simp] theorem modDie_fns (s : State) (d : Nat) (f : Die → Die) : (modDie s d f).fns = s.fns := rfl
@[simp] theorem modDie_invq (s : State) (d : Nat) (f : Die → Die) : (modDie s d f).invq = s.invq := rfl
@[simp] theorem modDie_ovf (s : State) (d : Nat) (f : Die → Die) : (modDie s d f).ovf = s.ovf := rfl
@[simp] theorem modDie_faults (s : State) (d : Nat) (f : Die → Die) : (modDie s d f).faults = s.faults := rfl
@[simp] theorem modDie_irqs (s : State) (d : Nat) (f : Die → Die) : (modDie s d f).irqs = s.irqs := rfl
@[simp] theorem modDie_halves (s : State) (d : Nat) (f : Die → Die) : (modDie s d f).halves = s.halves := rfl
@[simp] theorem modDie_phase (s : State) (d : Nat) (f : Die → Die) : (modDie s d f).phase = s.phase := rfl
@[simp] theorem modDie_fail (s : State) (d : Nat) (f : Die → Die) : (modDie s d f).fail = s.fail := rfl
@[simp] theorem modDie_threshold (s : State) (d : Nat) (f : Die → Die) : (modDie s d f).threshold = s.threshold := rfl
@[simp] theorem modDie_ceWindow (s : State) (d : Nat) (f : Die → Die) : (modDie s d f).ceWindow = s.ceWindow := rfl
@[simp] theorem modDie_leaf (s : State) (d : Nat) (f : Die → Die) : (modDie s d f).leaf = s.leaf := rfl
@[simp] theorem modDie_wants (s : State) (d : Nat) (f : Die → Die) : (modDie s d f).wants = s.wants := rfl
@[simp] theorem modDie_served (s : State) (d : Nat) (f : Die → Die) : (modDie s d f).served = s.served := rfl
@[simp] theorem modDie_granted (s : State) (d : Nat) (f : Die → Die) : (modDie s d f).granted = s.granted := rfl
@[simp] theorem modDie_tlpReports (s : State) (d : Nat) (f : Die → Die) : (modDie s d f).tlpReports = s.tlpReports := rfl
@[simp] theorem modDie_moveBy (s : State) (d : Nat) (f : Die → Die) : (modDie s d f).moveBy = s.moveBy := rfl
@[simp] theorem modDie_written (s : State) (d : Nat) (f : Die → Die) : (modDie s d f).written = s.written := rfl
@[simp] theorem modDie_split (s : State) (d : Nat) (f : Die → Die) : (modDie s d f).split = s.split := rfl
@[simp] theorem modDie_readback (s : State) (d : Nat) (f : Die → Die) : (modDie s d f).readback = s.readback := rfl
@[simp] theorem modDie_events (s : State) (d : Nat) (f : Die → Die) : (modDie s d f).events = s.events := rfl
@[simp] theorem modDie_svnRaised (s : State) (d : Nat) (f : Die → Die) : (modDie s d f).svnRaised = s.svnRaised := rfl
@[simp] theorem modDie_unpins (s : State) (d : Nat) (f : Die → Die) : (modDie s d f).unpins = s.unpins := rfl
@[simp] theorem modDie_d3 (s : State) (d : Nat) (f : Die → Die) : (modDie s d f).d3 = s.d3 := rfl

/-! ### modCore -/

@[simp] theorem modCore_agenda (s : State) (c : Nat) (f : Core → Core) : (modCore s c f).agenda = s.agenda := rfl
@[simp] theorem modCore_cur (s : State) (c : Nat) (f : Core → Core) : (modCore s c f).cur = s.cur := rfl
@[simp] theorem modCore_idling (s : State) (c : Nat) (f : Core → Core) : (modCore s c f).idling = s.idling := rfl
@[simp] theorem modCore_word (s : State) (c : Nat) (f : Core → Core) : (modCore s c f).word = s.word := rfl
@[simp] theorem modCore_fresh (s : State) (c : Nat) (f : Core → Core) : (modCore s c f).fresh = s.fresh := rfl
@[simp] theorem modCore_stuck (s : State) (c : Nat) (f : Core → Core) : (modCore s c f).stuck = s.stuck := rfl
@[simp] theorem modCore_tb (s : State) (c : Nat) (f : Core → Core) : (modCore s c f).tb = s.tb := rfl
@[simp] theorem modCore_cyc (s : State) (c : Nat) (f : Core → Core) : (modCore s c f).cyc = s.cyc := rfl
@[simp] theorem modCore_mem (s : State) (c : Nat) (f : Core → Core) : (modCore s c f).mem = s.mem := rfl
@[simp] theorem modCore_poison (s : State) (c : Nat) (f : Core → Core) : (modCore s c f).poison = s.poison := rfl
@[simp] theorem modCore_groups (s : State) (c : Nat) (f : Core → Core) : (modCore s c f).groups = s.groups := rfl
@[simp] theorem modCore_teams (s : State) (c : Nat) (f : Core → Core) : (modCore s c f).teams = s.teams := rfl
@[simp] theorem modCore_wins (s : State) (c : Nat) (f : Core → Core) : (modCore s c f).wins = s.wins := rfl
@[simp] theorem modCore_launches (s : State) (c : Nat) (f : Core → Core) : (modCore s c f).launches = s.launches := rfl
@[simp] theorem modCore_nextId (s : State) (c : Nat) (f : Core → Core) : (modCore s c f).nextId = s.nextId := rfl
@[simp] theorem modCore_ctxs (s : State) (c : Nat) (f : Core → Core) : (modCore s c f).ctxs = s.ctxs := rfl
@[simp] theorem modCore_clusters (s : State) (c : Nat) (f : Core → Core) : (modCore s c f).clusters = s.clusters := rfl
@[simp] theorem modCore_dies (s : State) (c : Nat) (f : Core → Core) : (modCore s c f).dies = s.dies := rfl
@[simp] theorem modCore_flits (s : State) (c : Nat) (f : Core → Core) : (modCore s c f).flits = s.flits := rfl
@[simp] theorem modCore_chans (s : State) (c : Nat) (f : Core → Core) : (modCore s c f).chans = s.chans := rfl
@[simp] theorem modCore_flitReports (s : State) (c : Nat) (f : Core → Core) : (modCore s c f).flitReports = s.flitReports := rfl
@[simp] theorem modCore_moves (s : State) (c : Nat) (f : Core → Core) : (modCore s c f).moves = s.moves := rfl
@[simp] theorem modCore_moveOrder (s : State) (c : Nat) (f : Core → Core) : (modCore s c f).moveOrder = s.moveOrder := rfl
@[simp] theorem modCore_movedPages (s : State) (c : Nat) (f : Core → Core) : (modCore s c f).movedPages = s.movedPages := rfl
@[simp] theorem modCore_pools (s : State) (c : Nat) (f : Core → Core) : (modCore s c f).pools = s.pools := rfl
@[simp] theorem modCore_frameOwner (s : State) (c : Nat) (f : Core → Core) : (modCore s c f).frameOwner = s.frameOwner := rfl
@[simp] theorem modCore_mboxes (s : State) (c : Nat) (f : Core → Core) : (modCore s c f).mboxes = s.mboxes := rfl
@[simp] theorem modCore_posts (s : State) (c : Nat) (f : Core → Core) : (modCore s c f).posts = s.posts := rfl
@[simp] theorem modCore_windows (s : State) (c : Nat) (f : Core → Core) : (modCore s c f).windows = s.windows := rfl
@[simp] theorem modCore_fns (s : State) (c : Nat) (f : Core → Core) : (modCore s c f).fns = s.fns := rfl
@[simp] theorem modCore_invq (s : State) (c : Nat) (f : Core → Core) : (modCore s c f).invq = s.invq := rfl
@[simp] theorem modCore_ovf (s : State) (c : Nat) (f : Core → Core) : (modCore s c f).ovf = s.ovf := rfl
@[simp] theorem modCore_faults (s : State) (c : Nat) (f : Core → Core) : (modCore s c f).faults = s.faults := rfl
@[simp] theorem modCore_irqs (s : State) (c : Nat) (f : Core → Core) : (modCore s c f).irqs = s.irqs := rfl
@[simp] theorem modCore_halves (s : State) (c : Nat) (f : Core → Core) : (modCore s c f).halves = s.halves := rfl
@[simp] theorem modCore_phase (s : State) (c : Nat) (f : Core → Core) : (modCore s c f).phase = s.phase := rfl
@[simp] theorem modCore_fail (s : State) (c : Nat) (f : Core → Core) : (modCore s c f).fail = s.fail := rfl
@[simp] theorem modCore_threshold (s : State) (c : Nat) (f : Core → Core) : (modCore s c f).threshold = s.threshold := rfl
@[simp] theorem modCore_ceWindow (s : State) (c : Nat) (f : Core → Core) : (modCore s c f).ceWindow = s.ceWindow := rfl
@[simp] theorem modCore_leaf (s : State) (c : Nat) (f : Core → Core) : (modCore s c f).leaf = s.leaf := rfl
@[simp] theorem modCore_wants (s : State) (c : Nat) (f : Core → Core) : (modCore s c f).wants = s.wants := rfl
@[simp] theorem modCore_served (s : State) (c : Nat) (f : Core → Core) : (modCore s c f).served = s.served := rfl
@[simp] theorem modCore_granted (s : State) (c : Nat) (f : Core → Core) : (modCore s c f).granted = s.granted := rfl
@[simp] theorem modCore_tlpReports (s : State) (c : Nat) (f : Core → Core) : (modCore s c f).tlpReports = s.tlpReports := rfl
@[simp] theorem modCore_moveBy (s : State) (c : Nat) (f : Core → Core) : (modCore s c f).moveBy = s.moveBy := rfl
@[simp] theorem modCore_written (s : State) (c : Nat) (f : Core → Core) : (modCore s c f).written = s.written := rfl
@[simp] theorem modCore_split (s : State) (c : Nat) (f : Core → Core) : (modCore s c f).split = s.split := rfl
@[simp] theorem modCore_readback (s : State) (c : Nat) (f : Core → Core) : (modCore s c f).readback = s.readback := rfl
@[simp] theorem modCore_events (s : State) (c : Nat) (f : Core → Core) : (modCore s c f).events = s.events := rfl
@[simp] theorem modCore_svnRaised (s : State) (c : Nat) (f : Core → Core) : (modCore s c f).svnRaised = s.svnRaised := rfl
@[simp] theorem modCore_unpins (s : State) (c : Nat) (f : Core → Core) : (modCore s c f).unpins = s.unpins := rfl
@[simp] theorem modCore_d3 (s : State) (c : Nat) (f : Core → Core) : (modCore s c f).d3 = s.d3 := rfl

/-! ### modCluster -/

@[simp] theorem modCluster_agenda (s : State) (c : Nat) (f : Cluster → Cluster) : (modCluster s c f).agenda = s.agenda := rfl
@[simp] theorem modCluster_cur (s : State) (c : Nat) (f : Cluster → Cluster) : (modCluster s c f).cur = s.cur := rfl
@[simp] theorem modCluster_idling (s : State) (c : Nat) (f : Cluster → Cluster) : (modCluster s c f).idling = s.idling := rfl
@[simp] theorem modCluster_word (s : State) (c : Nat) (f : Cluster → Cluster) : (modCluster s c f).word = s.word := rfl
@[simp] theorem modCluster_fresh (s : State) (c : Nat) (f : Cluster → Cluster) : (modCluster s c f).fresh = s.fresh := rfl
@[simp] theorem modCluster_stuck (s : State) (c : Nat) (f : Cluster → Cluster) : (modCluster s c f).stuck = s.stuck := rfl
@[simp] theorem modCluster_tb (s : State) (c : Nat) (f : Cluster → Cluster) : (modCluster s c f).tb = s.tb := rfl
@[simp] theorem modCluster_cyc (s : State) (c : Nat) (f : Cluster → Cluster) : (modCluster s c f).cyc = s.cyc := rfl
@[simp] theorem modCluster_mem (s : State) (c : Nat) (f : Cluster → Cluster) : (modCluster s c f).mem = s.mem := rfl
@[simp] theorem modCluster_poison (s : State) (c : Nat) (f : Cluster → Cluster) : (modCluster s c f).poison = s.poison := rfl
@[simp] theorem modCluster_groups (s : State) (c : Nat) (f : Cluster → Cluster) : (modCluster s c f).groups = s.groups := rfl
@[simp] theorem modCluster_teams (s : State) (c : Nat) (f : Cluster → Cluster) : (modCluster s c f).teams = s.teams := rfl
@[simp] theorem modCluster_wins (s : State) (c : Nat) (f : Cluster → Cluster) : (modCluster s c f).wins = s.wins := rfl
@[simp] theorem modCluster_launches (s : State) (c : Nat) (f : Cluster → Cluster) : (modCluster s c f).launches = s.launches := rfl
@[simp] theorem modCluster_nextId (s : State) (c : Nat) (f : Cluster → Cluster) : (modCluster s c f).nextId = s.nextId := rfl
@[simp] theorem modCluster_ctxs (s : State) (c : Nat) (f : Cluster → Cluster) : (modCluster s c f).ctxs = s.ctxs := rfl
@[simp] theorem modCluster_cores (s : State) (c : Nat) (f : Cluster → Cluster) : (modCluster s c f).cores = s.cores := rfl
@[simp] theorem modCluster_dies (s : State) (c : Nat) (f : Cluster → Cluster) : (modCluster s c f).dies = s.dies := rfl
@[simp] theorem modCluster_flits (s : State) (c : Nat) (f : Cluster → Cluster) : (modCluster s c f).flits = s.flits := rfl
@[simp] theorem modCluster_chans (s : State) (c : Nat) (f : Cluster → Cluster) : (modCluster s c f).chans = s.chans := rfl
@[simp] theorem modCluster_flitReports (s : State) (c : Nat) (f : Cluster → Cluster) : (modCluster s c f).flitReports = s.flitReports := rfl
@[simp] theorem modCluster_moves (s : State) (c : Nat) (f : Cluster → Cluster) : (modCluster s c f).moves = s.moves := rfl
@[simp] theorem modCluster_moveOrder (s : State) (c : Nat) (f : Cluster → Cluster) : (modCluster s c f).moveOrder = s.moveOrder := rfl
@[simp] theorem modCluster_movedPages (s : State) (c : Nat) (f : Cluster → Cluster) : (modCluster s c f).movedPages = s.movedPages := rfl
@[simp] theorem modCluster_pools (s : State) (c : Nat) (f : Cluster → Cluster) : (modCluster s c f).pools = s.pools := rfl
@[simp] theorem modCluster_frameOwner (s : State) (c : Nat) (f : Cluster → Cluster) : (modCluster s c f).frameOwner = s.frameOwner := rfl
@[simp] theorem modCluster_mboxes (s : State) (c : Nat) (f : Cluster → Cluster) : (modCluster s c f).mboxes = s.mboxes := rfl
@[simp] theorem modCluster_posts (s : State) (c : Nat) (f : Cluster → Cluster) : (modCluster s c f).posts = s.posts := rfl
@[simp] theorem modCluster_windows (s : State) (c : Nat) (f : Cluster → Cluster) : (modCluster s c f).windows = s.windows := rfl
@[simp] theorem modCluster_fns (s : State) (c : Nat) (f : Cluster → Cluster) : (modCluster s c f).fns = s.fns := rfl
@[simp] theorem modCluster_invq (s : State) (c : Nat) (f : Cluster → Cluster) : (modCluster s c f).invq = s.invq := rfl
@[simp] theorem modCluster_ovf (s : State) (c : Nat) (f : Cluster → Cluster) : (modCluster s c f).ovf = s.ovf := rfl
@[simp] theorem modCluster_faults (s : State) (c : Nat) (f : Cluster → Cluster) : (modCluster s c f).faults = s.faults := rfl
@[simp] theorem modCluster_irqs (s : State) (c : Nat) (f : Cluster → Cluster) : (modCluster s c f).irqs = s.irqs := rfl
@[simp] theorem modCluster_halves (s : State) (c : Nat) (f : Cluster → Cluster) : (modCluster s c f).halves = s.halves := rfl
@[simp] theorem modCluster_phase (s : State) (c : Nat) (f : Cluster → Cluster) : (modCluster s c f).phase = s.phase := rfl
@[simp] theorem modCluster_fail (s : State) (c : Nat) (f : Cluster → Cluster) : (modCluster s c f).fail = s.fail := rfl
@[simp] theorem modCluster_threshold (s : State) (c : Nat) (f : Cluster → Cluster) : (modCluster s c f).threshold = s.threshold := rfl
@[simp] theorem modCluster_ceWindow (s : State) (c : Nat) (f : Cluster → Cluster) : (modCluster s c f).ceWindow = s.ceWindow := rfl
@[simp] theorem modCluster_leaf (s : State) (c : Nat) (f : Cluster → Cluster) : (modCluster s c f).leaf = s.leaf := rfl
@[simp] theorem modCluster_wants (s : State) (c : Nat) (f : Cluster → Cluster) : (modCluster s c f).wants = s.wants := rfl
@[simp] theorem modCluster_served (s : State) (c : Nat) (f : Cluster → Cluster) : (modCluster s c f).served = s.served := rfl
@[simp] theorem modCluster_granted (s : State) (c : Nat) (f : Cluster → Cluster) : (modCluster s c f).granted = s.granted := rfl
@[simp] theorem modCluster_tlpReports (s : State) (c : Nat) (f : Cluster → Cluster) : (modCluster s c f).tlpReports = s.tlpReports := rfl
@[simp] theorem modCluster_moveBy (s : State) (c : Nat) (f : Cluster → Cluster) : (modCluster s c f).moveBy = s.moveBy := rfl
@[simp] theorem modCluster_written (s : State) (c : Nat) (f : Cluster → Cluster) : (modCluster s c f).written = s.written := rfl
@[simp] theorem modCluster_split (s : State) (c : Nat) (f : Cluster → Cluster) : (modCluster s c f).split = s.split := rfl
@[simp] theorem modCluster_readback (s : State) (c : Nat) (f : Cluster → Cluster) : (modCluster s c f).readback = s.readback := rfl
@[simp] theorem modCluster_events (s : State) (c : Nat) (f : Cluster → Cluster) : (modCluster s c f).events = s.events := rfl
@[simp] theorem modCluster_svnRaised (s : State) (c : Nat) (f : Cluster → Cluster) : (modCluster s c f).svnRaised = s.svnRaised := rfl
@[simp] theorem modCluster_unpins (s : State) (c : Nat) (f : Cluster → Cluster) : (modCluster s c f).unpins = s.unpins := rfl
@[simp] theorem modCluster_d3 (s : State) (c : Nat) (f : Cluster → Cluster) : (modCluster s c f).d3 = s.d3 := rfl

/-! ### setPoison -/

@[simp] theorem setPoison_agenda (s : State) (pa : Nat) (b : Bool) : (setPoison s pa b).agenda = s.agenda := rfl
@[simp] theorem setPoison_cur (s : State) (pa : Nat) (b : Bool) : (setPoison s pa b).cur = s.cur := rfl
@[simp] theorem setPoison_idling (s : State) (pa : Nat) (b : Bool) : (setPoison s pa b).idling = s.idling := rfl
@[simp] theorem setPoison_word (s : State) (pa : Nat) (b : Bool) : (setPoison s pa b).word = s.word := rfl
@[simp] theorem setPoison_fresh (s : State) (pa : Nat) (b : Bool) : (setPoison s pa b).fresh = s.fresh := rfl
@[simp] theorem setPoison_stuck (s : State) (pa : Nat) (b : Bool) : (setPoison s pa b).stuck = s.stuck := rfl
@[simp] theorem setPoison_tb (s : State) (pa : Nat) (b : Bool) : (setPoison s pa b).tb = s.tb := rfl
@[simp] theorem setPoison_cyc (s : State) (pa : Nat) (b : Bool) : (setPoison s pa b).cyc = s.cyc := rfl
@[simp] theorem setPoison_mem (s : State) (pa : Nat) (b : Bool) : (setPoison s pa b).mem = s.mem := rfl
@[simp] theorem setPoison_groups (s : State) (pa : Nat) (b : Bool) : (setPoison s pa b).groups = s.groups := rfl
@[simp] theorem setPoison_teams (s : State) (pa : Nat) (b : Bool) : (setPoison s pa b).teams = s.teams := rfl
@[simp] theorem setPoison_wins (s : State) (pa : Nat) (b : Bool) : (setPoison s pa b).wins = s.wins := rfl
@[simp] theorem setPoison_launches (s : State) (pa : Nat) (b : Bool) : (setPoison s pa b).launches = s.launches := rfl
@[simp] theorem setPoison_nextId (s : State) (pa : Nat) (b : Bool) : (setPoison s pa b).nextId = s.nextId := rfl
@[simp] theorem setPoison_ctxs (s : State) (pa : Nat) (b : Bool) : (setPoison s pa b).ctxs = s.ctxs := rfl
@[simp] theorem setPoison_cores (s : State) (pa : Nat) (b : Bool) : (setPoison s pa b).cores = s.cores := rfl
@[simp] theorem setPoison_clusters (s : State) (pa : Nat) (b : Bool) : (setPoison s pa b).clusters = s.clusters := rfl
@[simp] theorem setPoison_dies (s : State) (pa : Nat) (b : Bool) : (setPoison s pa b).dies = s.dies := rfl
@[simp] theorem setPoison_flits (s : State) (pa : Nat) (b : Bool) : (setPoison s pa b).flits = s.flits := rfl
@[simp] theorem setPoison_chans (s : State) (pa : Nat) (b : Bool) : (setPoison s pa b).chans = s.chans := rfl
@[simp] theorem setPoison_flitReports (s : State) (pa : Nat) (b : Bool) : (setPoison s pa b).flitReports = s.flitReports := rfl
@[simp] theorem setPoison_moves (s : State) (pa : Nat) (b : Bool) : (setPoison s pa b).moves = s.moves := rfl
@[simp] theorem setPoison_moveOrder (s : State) (pa : Nat) (b : Bool) : (setPoison s pa b).moveOrder = s.moveOrder := rfl
@[simp] theorem setPoison_movedPages (s : State) (pa : Nat) (b : Bool) : (setPoison s pa b).movedPages = s.movedPages := rfl
@[simp] theorem setPoison_pools (s : State) (pa : Nat) (b : Bool) : (setPoison s pa b).pools = s.pools := rfl
@[simp] theorem setPoison_frameOwner (s : State) (pa : Nat) (b : Bool) : (setPoison s pa b).frameOwner = s.frameOwner := rfl
@[simp] theorem setPoison_mboxes (s : State) (pa : Nat) (b : Bool) : (setPoison s pa b).mboxes = s.mboxes := rfl
@[simp] theorem setPoison_posts (s : State) (pa : Nat) (b : Bool) : (setPoison s pa b).posts = s.posts := rfl
@[simp] theorem setPoison_windows (s : State) (pa : Nat) (b : Bool) : (setPoison s pa b).windows = s.windows := rfl
@[simp] theorem setPoison_fns (s : State) (pa : Nat) (b : Bool) : (setPoison s pa b).fns = s.fns := rfl
@[simp] theorem setPoison_invq (s : State) (pa : Nat) (b : Bool) : (setPoison s pa b).invq = s.invq := rfl
@[simp] theorem setPoison_ovf (s : State) (pa : Nat) (b : Bool) : (setPoison s pa b).ovf = s.ovf := rfl
@[simp] theorem setPoison_faults (s : State) (pa : Nat) (b : Bool) : (setPoison s pa b).faults = s.faults := rfl
@[simp] theorem setPoison_irqs (s : State) (pa : Nat) (b : Bool) : (setPoison s pa b).irqs = s.irqs := rfl
@[simp] theorem setPoison_halves (s : State) (pa : Nat) (b : Bool) : (setPoison s pa b).halves = s.halves := rfl
@[simp] theorem setPoison_phase (s : State) (pa : Nat) (b : Bool) : (setPoison s pa b).phase = s.phase := rfl
@[simp] theorem setPoison_fail (s : State) (pa : Nat) (b : Bool) : (setPoison s pa b).fail = s.fail := rfl
@[simp] theorem setPoison_threshold (s : State) (pa : Nat) (b : Bool) : (setPoison s pa b).threshold = s.threshold := rfl
@[simp] theorem setPoison_ceWindow (s : State) (pa : Nat) (b : Bool) : (setPoison s pa b).ceWindow = s.ceWindow := rfl
@[simp] theorem setPoison_leaf (s : State) (pa : Nat) (b : Bool) : (setPoison s pa b).leaf = s.leaf := rfl
@[simp] theorem setPoison_wants (s : State) (pa : Nat) (b : Bool) : (setPoison s pa b).wants = s.wants := rfl
@[simp] theorem setPoison_served (s : State) (pa : Nat) (b : Bool) : (setPoison s pa b).served = s.served := rfl
@[simp] theorem setPoison_granted (s : State) (pa : Nat) (b : Bool) : (setPoison s pa b).granted = s.granted := rfl
@[simp] theorem setPoison_tlpReports (s : State) (pa : Nat) (b : Bool) : (setPoison s pa b).tlpReports = s.tlpReports := rfl
@[simp] theorem setPoison_moveBy (s : State) (pa : Nat) (b : Bool) : (setPoison s pa b).moveBy = s.moveBy := rfl
@[simp] theorem setPoison_written (s : State) (pa : Nat) (b : Bool) : (setPoison s pa b).written = s.written := rfl
@[simp] theorem setPoison_split (s : State) (pa : Nat) (b : Bool) : (setPoison s pa b).split = s.split := rfl
@[simp] theorem setPoison_readback (s : State) (pa : Nat) (b : Bool) : (setPoison s pa b).readback = s.readback := rfl
@[simp] theorem setPoison_events (s : State) (pa : Nat) (b : Bool) : (setPoison s pa b).events = s.events := rfl
@[simp] theorem setPoison_svnRaised (s : State) (pa : Nat) (b : Bool) : (setPoison s pa b).svnRaised = s.svnRaised := rfl
@[simp] theorem setPoison_unpins (s : State) (pa : Nat) (b : Bool) : (setPoison s pa b).unpins = s.unpins := rfl
@[simp] theorem setPoison_d3 (s : State) (pa : Nat) (b : Bool) : (setPoison s pa b).d3 = s.d3 := rfl

/-! ### modBox -/

@[simp] theorem modBox_agenda (s : State) (b : Nat) (f : MBox → MBox) : (modBox s b f).agenda = s.agenda := rfl
@[simp] theorem modBox_cur (s : State) (b : Nat) (f : MBox → MBox) : (modBox s b f).cur = s.cur := rfl
@[simp] theorem modBox_idling (s : State) (b : Nat) (f : MBox → MBox) : (modBox s b f).idling = s.idling := rfl
@[simp] theorem modBox_word (s : State) (b : Nat) (f : MBox → MBox) : (modBox s b f).word = s.word := rfl
@[simp] theorem modBox_fresh (s : State) (b : Nat) (f : MBox → MBox) : (modBox s b f).fresh = s.fresh := rfl
@[simp] theorem modBox_stuck (s : State) (b : Nat) (f : MBox → MBox) : (modBox s b f).stuck = s.stuck := rfl
@[simp] theorem modBox_tb (s : State) (b : Nat) (f : MBox → MBox) : (modBox s b f).tb = s.tb := rfl
@[simp] theorem modBox_cyc (s : State) (b : Nat) (f : MBox → MBox) : (modBox s b f).cyc = s.cyc := rfl
@[simp] theorem modBox_mem (s : State) (b : Nat) (f : MBox → MBox) : (modBox s b f).mem = s.mem := rfl
@[simp] theorem modBox_poison (s : State) (b : Nat) (f : MBox → MBox) : (modBox s b f).poison = s.poison := rfl
@[simp] theorem modBox_groups (s : State) (b : Nat) (f : MBox → MBox) : (modBox s b f).groups = s.groups := rfl
@[simp] theorem modBox_teams (s : State) (b : Nat) (f : MBox → MBox) : (modBox s b f).teams = s.teams := rfl
@[simp] theorem modBox_wins (s : State) (b : Nat) (f : MBox → MBox) : (modBox s b f).wins = s.wins := rfl
@[simp] theorem modBox_launches (s : State) (b : Nat) (f : MBox → MBox) : (modBox s b f).launches = s.launches := rfl
@[simp] theorem modBox_nextId (s : State) (b : Nat) (f : MBox → MBox) : (modBox s b f).nextId = s.nextId := rfl
@[simp] theorem modBox_ctxs (s : State) (b : Nat) (f : MBox → MBox) : (modBox s b f).ctxs = s.ctxs := rfl
@[simp] theorem modBox_cores (s : State) (b : Nat) (f : MBox → MBox) : (modBox s b f).cores = s.cores := rfl
@[simp] theorem modBox_clusters (s : State) (b : Nat) (f : MBox → MBox) : (modBox s b f).clusters = s.clusters := rfl
@[simp] theorem modBox_dies (s : State) (b : Nat) (f : MBox → MBox) : (modBox s b f).dies = s.dies := rfl
@[simp] theorem modBox_flits (s : State) (b : Nat) (f : MBox → MBox) : (modBox s b f).flits = s.flits := rfl
@[simp] theorem modBox_chans (s : State) (b : Nat) (f : MBox → MBox) : (modBox s b f).chans = s.chans := rfl
@[simp] theorem modBox_flitReports (s : State) (b : Nat) (f : MBox → MBox) : (modBox s b f).flitReports = s.flitReports := rfl
@[simp] theorem modBox_moves (s : State) (b : Nat) (f : MBox → MBox) : (modBox s b f).moves = s.moves := rfl
@[simp] theorem modBox_moveOrder (s : State) (b : Nat) (f : MBox → MBox) : (modBox s b f).moveOrder = s.moveOrder := rfl
@[simp] theorem modBox_movedPages (s : State) (b : Nat) (f : MBox → MBox) : (modBox s b f).movedPages = s.movedPages := rfl
@[simp] theorem modBox_pools (s : State) (b : Nat) (f : MBox → MBox) : (modBox s b f).pools = s.pools := rfl
@[simp] theorem modBox_frameOwner (s : State) (b : Nat) (f : MBox → MBox) : (modBox s b f).frameOwner = s.frameOwner := rfl
@[simp] theorem modBox_posts (s : State) (b : Nat) (f : MBox → MBox) : (modBox s b f).posts = s.posts := rfl
@[simp] theorem modBox_windows (s : State) (b : Nat) (f : MBox → MBox) : (modBox s b f).windows = s.windows := rfl
@[simp] theorem modBox_fns (s : State) (b : Nat) (f : MBox → MBox) : (modBox s b f).fns = s.fns := rfl
@[simp] theorem modBox_invq (s : State) (b : Nat) (f : MBox → MBox) : (modBox s b f).invq = s.invq := rfl
@[simp] theorem modBox_ovf (s : State) (b : Nat) (f : MBox → MBox) : (modBox s b f).ovf = s.ovf := rfl
@[simp] theorem modBox_faults (s : State) (b : Nat) (f : MBox → MBox) : (modBox s b f).faults = s.faults := rfl
@[simp] theorem modBox_irqs (s : State) (b : Nat) (f : MBox → MBox) : (modBox s b f).irqs = s.irqs := rfl
@[simp] theorem modBox_halves (s : State) (b : Nat) (f : MBox → MBox) : (modBox s b f).halves = s.halves := rfl
@[simp] theorem modBox_phase (s : State) (b : Nat) (f : MBox → MBox) : (modBox s b f).phase = s.phase := rfl
@[simp] theorem modBox_fail (s : State) (b : Nat) (f : MBox → MBox) : (modBox s b f).fail = s.fail := rfl
@[simp] theorem modBox_threshold (s : State) (b : Nat) (f : MBox → MBox) : (modBox s b f).threshold = s.threshold := rfl
@[simp] theorem modBox_ceWindow (s : State) (b : Nat) (f : MBox → MBox) : (modBox s b f).ceWindow = s.ceWindow := rfl
@[simp] theorem modBox_leaf (s : State) (b : Nat) (f : MBox → MBox) : (modBox s b f).leaf = s.leaf := rfl
@[simp] theorem modBox_wants (s : State) (b : Nat) (f : MBox → MBox) : (modBox s b f).wants = s.wants := rfl
@[simp] theorem modBox_served (s : State) (b : Nat) (f : MBox → MBox) : (modBox s b f).served = s.served := rfl
@[simp] theorem modBox_granted (s : State) (b : Nat) (f : MBox → MBox) : (modBox s b f).granted = s.granted := rfl
@[simp] theorem modBox_tlpReports (s : State) (b : Nat) (f : MBox → MBox) : (modBox s b f).tlpReports = s.tlpReports := rfl
@[simp] theorem modBox_moveBy (s : State) (b : Nat) (f : MBox → MBox) : (modBox s b f).moveBy = s.moveBy := rfl
@[simp] theorem modBox_written (s : State) (b : Nat) (f : MBox → MBox) : (modBox s b f).written = s.written := rfl
@[simp] theorem modBox_split (s : State) (b : Nat) (f : MBox → MBox) : (modBox s b f).split = s.split := rfl
@[simp] theorem modBox_readback (s : State) (b : Nat) (f : MBox → MBox) : (modBox s b f).readback = s.readback := rfl
@[simp] theorem modBox_events (s : State) (b : Nat) (f : MBox → MBox) : (modBox s b f).events = s.events := rfl
@[simp] theorem modBox_svnRaised (s : State) (b : Nat) (f : MBox → MBox) : (modBox s b f).svnRaised = s.svnRaised := rfl
@[simp] theorem modBox_unpins (s : State) (b : Nat) (f : MBox → MBox) : (modBox s b f).unpins = s.unpins := rfl
@[simp] theorem modBox_d3 (s : State) (b : Nat) (f : MBox → MBox) : (modBox s b f).d3 = s.d3 := rfl

/-! ### modWin -/

@[simp] theorem modWin_agenda (s : State) (w : Nat) (f : Win → Win) : (modWin s w f).agenda = s.agenda := rfl
@[simp] theorem modWin_cur (s : State) (w : Nat) (f : Win → Win) : (modWin s w f).cur = s.cur := rfl
@[simp] theorem modWin_idling (s : State) (w : Nat) (f : Win → Win) : (modWin s w f).idling = s.idling := rfl
@[simp] theorem modWin_word (s : State) (w : Nat) (f : Win → Win) : (modWin s w f).word = s.word := rfl
@[simp] theorem modWin_fresh (s : State) (w : Nat) (f : Win → Win) : (modWin s w f).fresh = s.fresh := rfl
@[simp] theorem modWin_stuck (s : State) (w : Nat) (f : Win → Win) : (modWin s w f).stuck = s.stuck := rfl
@[simp] theorem modWin_tb (s : State) (w : Nat) (f : Win → Win) : (modWin s w f).tb = s.tb := rfl
@[simp] theorem modWin_cyc (s : State) (w : Nat) (f : Win → Win) : (modWin s w f).cyc = s.cyc := rfl
@[simp] theorem modWin_mem (s : State) (w : Nat) (f : Win → Win) : (modWin s w f).mem = s.mem := rfl
@[simp] theorem modWin_poison (s : State) (w : Nat) (f : Win → Win) : (modWin s w f).poison = s.poison := rfl
@[simp] theorem modWin_groups (s : State) (w : Nat) (f : Win → Win) : (modWin s w f).groups = s.groups := rfl
@[simp] theorem modWin_teams (s : State) (w : Nat) (f : Win → Win) : (modWin s w f).teams = s.teams := rfl
@[simp] theorem modWin_launches (s : State) (w : Nat) (f : Win → Win) : (modWin s w f).launches = s.launches := rfl
@[simp] theorem modWin_nextId (s : State) (w : Nat) (f : Win → Win) : (modWin s w f).nextId = s.nextId := rfl
@[simp] theorem modWin_ctxs (s : State) (w : Nat) (f : Win → Win) : (modWin s w f).ctxs = s.ctxs := rfl
@[simp] theorem modWin_cores (s : State) (w : Nat) (f : Win → Win) : (modWin s w f).cores = s.cores := rfl
@[simp] theorem modWin_clusters (s : State) (w : Nat) (f : Win → Win) : (modWin s w f).clusters = s.clusters := rfl
@[simp] theorem modWin_dies (s : State) (w : Nat) (f : Win → Win) : (modWin s w f).dies = s.dies := rfl
@[simp] theorem modWin_flits (s : State) (w : Nat) (f : Win → Win) : (modWin s w f).flits = s.flits := rfl
@[simp] theorem modWin_chans (s : State) (w : Nat) (f : Win → Win) : (modWin s w f).chans = s.chans := rfl
@[simp] theorem modWin_flitReports (s : State) (w : Nat) (f : Win → Win) : (modWin s w f).flitReports = s.flitReports := rfl
@[simp] theorem modWin_moves (s : State) (w : Nat) (f : Win → Win) : (modWin s w f).moves = s.moves := rfl
@[simp] theorem modWin_moveOrder (s : State) (w : Nat) (f : Win → Win) : (modWin s w f).moveOrder = s.moveOrder := rfl
@[simp] theorem modWin_movedPages (s : State) (w : Nat) (f : Win → Win) : (modWin s w f).movedPages = s.movedPages := rfl
@[simp] theorem modWin_pools (s : State) (w : Nat) (f : Win → Win) : (modWin s w f).pools = s.pools := rfl
@[simp] theorem modWin_frameOwner (s : State) (w : Nat) (f : Win → Win) : (modWin s w f).frameOwner = s.frameOwner := rfl
@[simp] theorem modWin_mboxes (s : State) (w : Nat) (f : Win → Win) : (modWin s w f).mboxes = s.mboxes := rfl
@[simp] theorem modWin_posts (s : State) (w : Nat) (f : Win → Win) : (modWin s w f).posts = s.posts := rfl
@[simp] theorem modWin_windows (s : State) (w : Nat) (f : Win → Win) : (modWin s w f).windows = s.windows := rfl
@[simp] theorem modWin_fns (s : State) (w : Nat) (f : Win → Win) : (modWin s w f).fns = s.fns := rfl
@[simp] theorem modWin_invq (s : State) (w : Nat) (f : Win → Win) : (modWin s w f).invq = s.invq := rfl
@[simp] theorem modWin_ovf (s : State) (w : Nat) (f : Win → Win) : (modWin s w f).ovf = s.ovf := rfl
@[simp] theorem modWin_faults (s : State) (w : Nat) (f : Win → Win) : (modWin s w f).faults = s.faults := rfl
@[simp] theorem modWin_irqs (s : State) (w : Nat) (f : Win → Win) : (modWin s w f).irqs = s.irqs := rfl
@[simp] theorem modWin_halves (s : State) (w : Nat) (f : Win → Win) : (modWin s w f).halves = s.halves := rfl
@[simp] theorem modWin_phase (s : State) (w : Nat) (f : Win → Win) : (modWin s w f).phase = s.phase := rfl
@[simp] theorem modWin_fail (s : State) (w : Nat) (f : Win → Win) : (modWin s w f).fail = s.fail := rfl
@[simp] theorem modWin_threshold (s : State) (w : Nat) (f : Win → Win) : (modWin s w f).threshold = s.threshold := rfl
@[simp] theorem modWin_ceWindow (s : State) (w : Nat) (f : Win → Win) : (modWin s w f).ceWindow = s.ceWindow := rfl
@[simp] theorem modWin_leaf (s : State) (w : Nat) (f : Win → Win) : (modWin s w f).leaf = s.leaf := rfl
@[simp] theorem modWin_wants (s : State) (w : Nat) (f : Win → Win) : (modWin s w f).wants = s.wants := rfl
@[simp] theorem modWin_served (s : State) (w : Nat) (f : Win → Win) : (modWin s w f).served = s.served := rfl
@[simp] theorem modWin_granted (s : State) (w : Nat) (f : Win → Win) : (modWin s w f).granted = s.granted := rfl
@[simp] theorem modWin_tlpReports (s : State) (w : Nat) (f : Win → Win) : (modWin s w f).tlpReports = s.tlpReports := rfl
@[simp] theorem modWin_moveBy (s : State) (w : Nat) (f : Win → Win) : (modWin s w f).moveBy = s.moveBy := rfl
@[simp] theorem modWin_written (s : State) (w : Nat) (f : Win → Win) : (modWin s w f).written = s.written := rfl
@[simp] theorem modWin_split (s : State) (w : Nat) (f : Win → Win) : (modWin s w f).split = s.split := rfl
@[simp] theorem modWin_readback (s : State) (w : Nat) (f : Win → Win) : (modWin s w f).readback = s.readback := rfl
@[simp] theorem modWin_events (s : State) (w : Nat) (f : Win → Win) : (modWin s w f).events = s.events := rfl
@[simp] theorem modWin_svnRaised (s : State) (w : Nat) (f : Win → Win) : (modWin s w f).svnRaised = s.svnRaised := rfl
@[simp] theorem modWin_unpins (s : State) (w : Nat) (f : Win → Win) : (modWin s w f).unpins = s.unpins := rfl
@[simp] theorem modWin_d3 (s : State) (w : Nat) (f : Win → Win) : (modWin s w f).d3 = s.d3 := rfl

/-! ### setBar -/

@[simp] theorem setBar_agenda (s : State) (win b x : Nat) : (setBar s win b x).agenda = s.agenda := rfl
@[simp] theorem setBar_cur (s : State) (win b x : Nat) : (setBar s win b x).cur = s.cur := rfl
@[simp] theorem setBar_idling (s : State) (win b x : Nat) : (setBar s win b x).idling = s.idling := rfl
@[simp] theorem setBar_word (s : State) (win b x : Nat) : (setBar s win b x).word = s.word := rfl
@[simp] theorem setBar_fresh (s : State) (win b x : Nat) : (setBar s win b x).fresh = s.fresh := rfl
@[simp] theorem setBar_stuck (s : State) (win b x : Nat) : (setBar s win b x).stuck = s.stuck := rfl
@[simp] theorem setBar_tb (s : State) (win b x : Nat) : (setBar s win b x).tb = s.tb := rfl
@[simp] theorem setBar_cyc (s : State) (win b x : Nat) : (setBar s win b x).cyc = s.cyc := rfl
@[simp] theorem setBar_mem (s : State) (win b x : Nat) : (setBar s win b x).mem = s.mem := rfl
@[simp] theorem setBar_poison (s : State) (win b x : Nat) : (setBar s win b x).poison = s.poison := rfl
@[simp] theorem setBar_groups (s : State) (win b x : Nat) : (setBar s win b x).groups = s.groups := rfl
@[simp] theorem setBar_teams (s : State) (win b x : Nat) : (setBar s win b x).teams = s.teams := rfl
@[simp] theorem setBar_launches (s : State) (win b x : Nat) : (setBar s win b x).launches = s.launches := rfl
@[simp] theorem setBar_nextId (s : State) (win b x : Nat) : (setBar s win b x).nextId = s.nextId := rfl
@[simp] theorem setBar_ctxs (s : State) (win b x : Nat) : (setBar s win b x).ctxs = s.ctxs := rfl
@[simp] theorem setBar_cores (s : State) (win b x : Nat) : (setBar s win b x).cores = s.cores := rfl
@[simp] theorem setBar_clusters (s : State) (win b x : Nat) : (setBar s win b x).clusters = s.clusters := rfl
@[simp] theorem setBar_dies (s : State) (win b x : Nat) : (setBar s win b x).dies = s.dies := rfl
@[simp] theorem setBar_flits (s : State) (win b x : Nat) : (setBar s win b x).flits = s.flits := rfl
@[simp] theorem setBar_chans (s : State) (win b x : Nat) : (setBar s win b x).chans = s.chans := rfl
@[simp] theorem setBar_flitReports (s : State) (win b x : Nat) : (setBar s win b x).flitReports = s.flitReports := rfl
@[simp] theorem setBar_moves (s : State) (win b x : Nat) : (setBar s win b x).moves = s.moves := rfl
@[simp] theorem setBar_moveOrder (s : State) (win b x : Nat) : (setBar s win b x).moveOrder = s.moveOrder := rfl
@[simp] theorem setBar_movedPages (s : State) (win b x : Nat) : (setBar s win b x).movedPages = s.movedPages := rfl
@[simp] theorem setBar_pools (s : State) (win b x : Nat) : (setBar s win b x).pools = s.pools := rfl
@[simp] theorem setBar_frameOwner (s : State) (win b x : Nat) : (setBar s win b x).frameOwner = s.frameOwner := rfl
@[simp] theorem setBar_mboxes (s : State) (win b x : Nat) : (setBar s win b x).mboxes = s.mboxes := rfl
@[simp] theorem setBar_posts (s : State) (win b x : Nat) : (setBar s win b x).posts = s.posts := rfl
@[simp] theorem setBar_windows (s : State) (win b x : Nat) : (setBar s win b x).windows = s.windows := rfl
@[simp] theorem setBar_fns (s : State) (win b x : Nat) : (setBar s win b x).fns = s.fns := rfl
@[simp] theorem setBar_invq (s : State) (win b x : Nat) : (setBar s win b x).invq = s.invq := rfl
@[simp] theorem setBar_ovf (s : State) (win b x : Nat) : (setBar s win b x).ovf = s.ovf := rfl
@[simp] theorem setBar_faults (s : State) (win b x : Nat) : (setBar s win b x).faults = s.faults := rfl
@[simp] theorem setBar_irqs (s : State) (win b x : Nat) : (setBar s win b x).irqs = s.irqs := rfl
@[simp] theorem setBar_halves (s : State) (win b x : Nat) : (setBar s win b x).halves = s.halves := rfl
@[simp] theorem setBar_phase (s : State) (win b x : Nat) : (setBar s win b x).phase = s.phase := rfl
@[simp] theorem setBar_fail (s : State) (win b x : Nat) : (setBar s win b x).fail = s.fail := rfl
@[simp] theorem setBar_threshold (s : State) (win b x : Nat) : (setBar s win b x).threshold = s.threshold := rfl
@[simp] theorem setBar_ceWindow (s : State) (win b x : Nat) : (setBar s win b x).ceWindow = s.ceWindow := rfl
@[simp] theorem setBar_leaf (s : State) (win b x : Nat) : (setBar s win b x).leaf = s.leaf := rfl
@[simp] theorem setBar_wants (s : State) (win b x : Nat) : (setBar s win b x).wants = s.wants := rfl
@[simp] theorem setBar_served (s : State) (win b x : Nat) : (setBar s win b x).served = s.served := rfl
@[simp] theorem setBar_granted (s : State) (win b x : Nat) : (setBar s win b x).granted = s.granted := rfl
@[simp] theorem setBar_tlpReports (s : State) (win b x : Nat) : (setBar s win b x).tlpReports = s.tlpReports := rfl
@[simp] theorem setBar_moveBy (s : State) (win b x : Nat) : (setBar s win b x).moveBy = s.moveBy := rfl
@[simp] theorem setBar_written (s : State) (win b x : Nat) : (setBar s win b x).written = s.written := rfl
@[simp] theorem setBar_split (s : State) (win b x : Nat) : (setBar s win b x).split = s.split := rfl
@[simp] theorem setBar_readback (s : State) (win b x : Nat) : (setBar s win b x).readback = s.readback := rfl
@[simp] theorem setBar_events (s : State) (win b x : Nat) : (setBar s win b x).events = s.events := rfl
@[simp] theorem setBar_svnRaised (s : State) (win b x : Nat) : (setBar s win b x).svnRaised = s.svnRaised := rfl
@[simp] theorem setBar_unpins (s : State) (win b x : Nat) : (setBar s win b x).unpins = s.unpins := rfl
@[simp] theorem setBar_d3 (s : State) (win b x : Nat) : (setBar s win b x).d3 = s.d3 := rfl

/-! ### modBuf -/

@[simp] theorem modBuf_agenda (s : State) (gid i : Nat) (f : Buf → Buf) : (modBuf s gid i f).agenda = s.agenda := rfl
@[simp] theorem modBuf_cur (s : State) (gid i : Nat) (f : Buf → Buf) : (modBuf s gid i f).cur = s.cur := rfl
@[simp] theorem modBuf_idling (s : State) (gid i : Nat) (f : Buf → Buf) : (modBuf s gid i f).idling = s.idling := rfl
@[simp] theorem modBuf_word (s : State) (gid i : Nat) (f : Buf → Buf) : (modBuf s gid i f).word = s.word := rfl
@[simp] theorem modBuf_fresh (s : State) (gid i : Nat) (f : Buf → Buf) : (modBuf s gid i f).fresh = s.fresh := rfl
@[simp] theorem modBuf_stuck (s : State) (gid i : Nat) (f : Buf → Buf) : (modBuf s gid i f).stuck = s.stuck := rfl
@[simp] theorem modBuf_tb (s : State) (gid i : Nat) (f : Buf → Buf) : (modBuf s gid i f).tb = s.tb := rfl
@[simp] theorem modBuf_cyc (s : State) (gid i : Nat) (f : Buf → Buf) : (modBuf s gid i f).cyc = s.cyc := rfl
@[simp] theorem modBuf_mem (s : State) (gid i : Nat) (f : Buf → Buf) : (modBuf s gid i f).mem = s.mem := rfl
@[simp] theorem modBuf_poison (s : State) (gid i : Nat) (f : Buf → Buf) : (modBuf s gid i f).poison = s.poison := rfl
@[simp] theorem modBuf_groups (s : State) (gid i : Nat) (f : Buf → Buf) : (modBuf s gid i f).groups = s.groups := rfl
@[simp] theorem modBuf_wins (s : State) (gid i : Nat) (f : Buf → Buf) : (modBuf s gid i f).wins = s.wins := rfl
@[simp] theorem modBuf_launches (s : State) (gid i : Nat) (f : Buf → Buf) : (modBuf s gid i f).launches = s.launches := rfl
@[simp] theorem modBuf_nextId (s : State) (gid i : Nat) (f : Buf → Buf) : (modBuf s gid i f).nextId = s.nextId := rfl
@[simp] theorem modBuf_ctxs (s : State) (gid i : Nat) (f : Buf → Buf) : (modBuf s gid i f).ctxs = s.ctxs := rfl
@[simp] theorem modBuf_cores (s : State) (gid i : Nat) (f : Buf → Buf) : (modBuf s gid i f).cores = s.cores := rfl
@[simp] theorem modBuf_clusters (s : State) (gid i : Nat) (f : Buf → Buf) : (modBuf s gid i f).clusters = s.clusters := rfl
@[simp] theorem modBuf_dies (s : State) (gid i : Nat) (f : Buf → Buf) : (modBuf s gid i f).dies = s.dies := rfl
@[simp] theorem modBuf_flits (s : State) (gid i : Nat) (f : Buf → Buf) : (modBuf s gid i f).flits = s.flits := rfl
@[simp] theorem modBuf_chans (s : State) (gid i : Nat) (f : Buf → Buf) : (modBuf s gid i f).chans = s.chans := rfl
@[simp] theorem modBuf_flitReports (s : State) (gid i : Nat) (f : Buf → Buf) : (modBuf s gid i f).flitReports = s.flitReports := rfl
@[simp] theorem modBuf_moves (s : State) (gid i : Nat) (f : Buf → Buf) : (modBuf s gid i f).moves = s.moves := rfl
@[simp] theorem modBuf_moveOrder (s : State) (gid i : Nat) (f : Buf → Buf) : (modBuf s gid i f).moveOrder = s.moveOrder := rfl
@[simp] theorem modBuf_movedPages (s : State) (gid i : Nat) (f : Buf → Buf) : (modBuf s gid i f).movedPages = s.movedPages := rfl
@[simp] theorem modBuf_pools (s : State) (gid i : Nat) (f : Buf → Buf) : (modBuf s gid i f).pools = s.pools := rfl
@[simp] theorem modBuf_frameOwner (s : State) (gid i : Nat) (f : Buf → Buf) : (modBuf s gid i f).frameOwner = s.frameOwner := rfl
@[simp] theorem modBuf_mboxes (s : State) (gid i : Nat) (f : Buf → Buf) : (modBuf s gid i f).mboxes = s.mboxes := rfl
@[simp] theorem modBuf_posts (s : State) (gid i : Nat) (f : Buf → Buf) : (modBuf s gid i f).posts = s.posts := rfl
@[simp] theorem modBuf_windows (s : State) (gid i : Nat) (f : Buf → Buf) : (modBuf s gid i f).windows = s.windows := rfl
@[simp] theorem modBuf_fns (s : State) (gid i : Nat) (f : Buf → Buf) : (modBuf s gid i f).fns = s.fns := rfl
@[simp] theorem modBuf_invq (s : State) (gid i : Nat) (f : Buf → Buf) : (modBuf s gid i f).invq = s.invq := rfl
@[simp] theorem modBuf_ovf (s : State) (gid i : Nat) (f : Buf → Buf) : (modBuf s gid i f).ovf = s.ovf := rfl
@[simp] theorem modBuf_faults (s : State) (gid i : Nat) (f : Buf → Buf) : (modBuf s gid i f).faults = s.faults := rfl
@[simp] theorem modBuf_irqs (s : State) (gid i : Nat) (f : Buf → Buf) : (modBuf s gid i f).irqs = s.irqs := rfl
@[simp] theorem modBuf_halves (s : State) (gid i : Nat) (f : Buf → Buf) : (modBuf s gid i f).halves = s.halves := rfl
@[simp] theorem modBuf_phase (s : State) (gid i : Nat) (f : Buf → Buf) : (modBuf s gid i f).phase = s.phase := rfl
@[simp] theorem modBuf_fail (s : State) (gid i : Nat) (f : Buf → Buf) : (modBuf s gid i f).fail = s.fail := rfl
@[simp] theorem modBuf_threshold (s : State) (gid i : Nat) (f : Buf → Buf) : (modBuf s gid i f).threshold = s.threshold := rfl
@[simp] theorem modBuf_ceWindow (s : State) (gid i : Nat) (f : Buf → Buf) : (modBuf s gid i f).ceWindow = s.ceWindow := rfl
@[simp] theorem modBuf_leaf (s : State) (gid i : Nat) (f : Buf → Buf) : (modBuf s gid i f).leaf = s.leaf := rfl
@[simp] theorem modBuf_wants (s : State) (gid i : Nat) (f : Buf → Buf) : (modBuf s gid i f).wants = s.wants := rfl
@[simp] theorem modBuf_served (s : State) (gid i : Nat) (f : Buf → Buf) : (modBuf s gid i f).served = s.served := rfl
@[simp] theorem modBuf_granted (s : State) (gid i : Nat) (f : Buf → Buf) : (modBuf s gid i f).granted = s.granted := rfl
@[simp] theorem modBuf_tlpReports (s : State) (gid i : Nat) (f : Buf → Buf) : (modBuf s gid i f).tlpReports = s.tlpReports := rfl
@[simp] theorem modBuf_moveBy (s : State) (gid i : Nat) (f : Buf → Buf) : (modBuf s gid i f).moveBy = s.moveBy := rfl
@[simp] theorem modBuf_written (s : State) (gid i : Nat) (f : Buf → Buf) : (modBuf s gid i f).written = s.written := rfl
@[simp] theorem modBuf_split (s : State) (gid i : Nat) (f : Buf → Buf) : (modBuf s gid i f).split = s.split := rfl
@[simp] theorem modBuf_readback (s : State) (gid i : Nat) (f : Buf → Buf) : (modBuf s gid i f).readback = s.readback := rfl
@[simp] theorem modBuf_events (s : State) (gid i : Nat) (f : Buf → Buf) : (modBuf s gid i f).events = s.events := rfl
@[simp] theorem modBuf_svnRaised (s : State) (gid i : Nat) (f : Buf → Buf) : (modBuf s gid i f).svnRaised = s.svnRaised := rfl
@[simp] theorem modBuf_unpins (s : State) (gid i : Nat) (f : Buf → Buf) : (modBuf s gid i f).unpins = s.unpins := rfl
@[simp] theorem modBuf_d3 (s : State) (gid i : Nat) (f : Buf → Buf) : (modBuf s gid i f).d3 = s.d3 := rfl

/-! ### modBank -/

@[simp] theorem modBank_agenda (s : State) (cl b : Nat) (f : Bank → Bank) : (modBank s cl b f).agenda = s.agenda := rfl
@[simp] theorem modBank_cur (s : State) (cl b : Nat) (f : Bank → Bank) : (modBank s cl b f).cur = s.cur := rfl
@[simp] theorem modBank_idling (s : State) (cl b : Nat) (f : Bank → Bank) : (modBank s cl b f).idling = s.idling := rfl
@[simp] theorem modBank_word (s : State) (cl b : Nat) (f : Bank → Bank) : (modBank s cl b f).word = s.word := rfl
@[simp] theorem modBank_fresh (s : State) (cl b : Nat) (f : Bank → Bank) : (modBank s cl b f).fresh = s.fresh := rfl
@[simp] theorem modBank_stuck (s : State) (cl b : Nat) (f : Bank → Bank) : (modBank s cl b f).stuck = s.stuck := rfl
@[simp] theorem modBank_tb (s : State) (cl b : Nat) (f : Bank → Bank) : (modBank s cl b f).tb = s.tb := rfl
@[simp] theorem modBank_cyc (s : State) (cl b : Nat) (f : Bank → Bank) : (modBank s cl b f).cyc = s.cyc := rfl
@[simp] theorem modBank_mem (s : State) (cl b : Nat) (f : Bank → Bank) : (modBank s cl b f).mem = s.mem := rfl
@[simp] theorem modBank_poison (s : State) (cl b : Nat) (f : Bank → Bank) : (modBank s cl b f).poison = s.poison := rfl
@[simp] theorem modBank_groups (s : State) (cl b : Nat) (f : Bank → Bank) : (modBank s cl b f).groups = s.groups := rfl
@[simp] theorem modBank_teams (s : State) (cl b : Nat) (f : Bank → Bank) : (modBank s cl b f).teams = s.teams := rfl
@[simp] theorem modBank_wins (s : State) (cl b : Nat) (f : Bank → Bank) : (modBank s cl b f).wins = s.wins := rfl
@[simp] theorem modBank_launches (s : State) (cl b : Nat) (f : Bank → Bank) : (modBank s cl b f).launches = s.launches := rfl
@[simp] theorem modBank_nextId (s : State) (cl b : Nat) (f : Bank → Bank) : (modBank s cl b f).nextId = s.nextId := rfl
@[simp] theorem modBank_ctxs (s : State) (cl b : Nat) (f : Bank → Bank) : (modBank s cl b f).ctxs = s.ctxs := rfl
@[simp] theorem modBank_cores (s : State) (cl b : Nat) (f : Bank → Bank) : (modBank s cl b f).cores = s.cores := rfl
@[simp] theorem modBank_dies (s : State) (cl b : Nat) (f : Bank → Bank) : (modBank s cl b f).dies = s.dies := rfl
@[simp] theorem modBank_flits (s : State) (cl b : Nat) (f : Bank → Bank) : (modBank s cl b f).flits = s.flits := rfl
@[simp] theorem modBank_chans (s : State) (cl b : Nat) (f : Bank → Bank) : (modBank s cl b f).chans = s.chans := rfl
@[simp] theorem modBank_flitReports (s : State) (cl b : Nat) (f : Bank → Bank) : (modBank s cl b f).flitReports = s.flitReports := rfl
@[simp] theorem modBank_moves (s : State) (cl b : Nat) (f : Bank → Bank) : (modBank s cl b f).moves = s.moves := rfl
@[simp] theorem modBank_moveOrder (s : State) (cl b : Nat) (f : Bank → Bank) : (modBank s cl b f).moveOrder = s.moveOrder := rfl
@[simp] theorem modBank_movedPages (s : State) (cl b : Nat) (f : Bank → Bank) : (modBank s cl b f).movedPages = s.movedPages := rfl
@[simp] theorem modBank_pools (s : State) (cl b : Nat) (f : Bank → Bank) : (modBank s cl b f).pools = s.pools := rfl
@[simp] theorem modBank_frameOwner (s : State) (cl b : Nat) (f : Bank → Bank) : (modBank s cl b f).frameOwner = s.frameOwner := rfl
@[simp] theorem modBank_mboxes (s : State) (cl b : Nat) (f : Bank → Bank) : (modBank s cl b f).mboxes = s.mboxes := rfl
@[simp] theorem modBank_posts (s : State) (cl b : Nat) (f : Bank → Bank) : (modBank s cl b f).posts = s.posts := rfl
@[simp] theorem modBank_windows (s : State) (cl b : Nat) (f : Bank → Bank) : (modBank s cl b f).windows = s.windows := rfl
@[simp] theorem modBank_fns (s : State) (cl b : Nat) (f : Bank → Bank) : (modBank s cl b f).fns = s.fns := rfl
@[simp] theorem modBank_invq (s : State) (cl b : Nat) (f : Bank → Bank) : (modBank s cl b f).invq = s.invq := rfl
@[simp] theorem modBank_ovf (s : State) (cl b : Nat) (f : Bank → Bank) : (modBank s cl b f).ovf = s.ovf := rfl
@[simp] theorem modBank_faults (s : State) (cl b : Nat) (f : Bank → Bank) : (modBank s cl b f).faults = s.faults := rfl
@[simp] theorem modBank_irqs (s : State) (cl b : Nat) (f : Bank → Bank) : (modBank s cl b f).irqs = s.irqs := rfl
@[simp] theorem modBank_halves (s : State) (cl b : Nat) (f : Bank → Bank) : (modBank s cl b f).halves = s.halves := rfl
@[simp] theorem modBank_phase (s : State) (cl b : Nat) (f : Bank → Bank) : (modBank s cl b f).phase = s.phase := rfl
@[simp] theorem modBank_fail (s : State) (cl b : Nat) (f : Bank → Bank) : (modBank s cl b f).fail = s.fail := rfl
@[simp] theorem modBank_threshold (s : State) (cl b : Nat) (f : Bank → Bank) : (modBank s cl b f).threshold = s.threshold := rfl
@[simp] theorem modBank_ceWindow (s : State) (cl b : Nat) (f : Bank → Bank) : (modBank s cl b f).ceWindow = s.ceWindow := rfl
@[simp] theorem modBank_leaf (s : State) (cl b : Nat) (f : Bank → Bank) : (modBank s cl b f).leaf = s.leaf := rfl
@[simp] theorem modBank_wants (s : State) (cl b : Nat) (f : Bank → Bank) : (modBank s cl b f).wants = s.wants := rfl
@[simp] theorem modBank_served (s : State) (cl b : Nat) (f : Bank → Bank) : (modBank s cl b f).served = s.served := rfl
@[simp] theorem modBank_granted (s : State) (cl b : Nat) (f : Bank → Bank) : (modBank s cl b f).granted = s.granted := rfl
@[simp] theorem modBank_tlpReports (s : State) (cl b : Nat) (f : Bank → Bank) : (modBank s cl b f).tlpReports = s.tlpReports := rfl
@[simp] theorem modBank_moveBy (s : State) (cl b : Nat) (f : Bank → Bank) : (modBank s cl b f).moveBy = s.moveBy := rfl
@[simp] theorem modBank_written (s : State) (cl b : Nat) (f : Bank → Bank) : (modBank s cl b f).written = s.written := rfl
@[simp] theorem modBank_split (s : State) (cl b : Nat) (f : Bank → Bank) : (modBank s cl b f).split = s.split := rfl
@[simp] theorem modBank_readback (s : State) (cl b : Nat) (f : Bank → Bank) : (modBank s cl b f).readback = s.readback := rfl
@[simp] theorem modBank_events (s : State) (cl b : Nat) (f : Bank → Bank) : (modBank s cl b f).events = s.events := rfl
@[simp] theorem modBank_svnRaised (s : State) (cl b : Nat) (f : Bank → Bank) : (modBank s cl b f).svnRaised = s.svnRaised := rfl
@[simp] theorem modBank_unpins (s : State) (cl b : Nat) (f : Bank → Bank) : (modBank s cl b f).unpins = s.unpins := rfl
@[simp] theorem modBank_d3 (s : State) (cl b : Nat) (f : Bank → Bank) : (modBank s cl b f).d3 = s.d3 := rfl

/-! ### bump -/

@[simp] theorem bump_agenda (s : State) : (bump s).agenda = s.agenda := rfl
@[simp] theorem bump_cur (s : State) : (bump s).cur = s.cur := rfl
@[simp] theorem bump_idling (s : State) : (bump s).idling = s.idling := rfl
@[simp] theorem bump_word (s : State) : (bump s).word = s.word := rfl
@[simp] theorem bump_stuck (s : State) : (bump s).stuck = s.stuck := rfl
@[simp] theorem bump_tb (s : State) : (bump s).tb = s.tb := rfl
@[simp] theorem bump_cyc (s : State) : (bump s).cyc = s.cyc := rfl
@[simp] theorem bump_mem (s : State) : (bump s).mem = s.mem := rfl
@[simp] theorem bump_poison (s : State) : (bump s).poison = s.poison := rfl
@[simp] theorem bump_groups (s : State) : (bump s).groups = s.groups := rfl
@[simp] theorem bump_teams (s : State) : (bump s).teams = s.teams := rfl
@[simp] theorem bump_wins (s : State) : (bump s).wins = s.wins := rfl
@[simp] theorem bump_launches (s : State) : (bump s).launches = s.launches := rfl
@[simp] theorem bump_nextId (s : State) : (bump s).nextId = s.nextId := rfl
@[simp] theorem bump_ctxs (s : State) : (bump s).ctxs = s.ctxs := rfl
@[simp] theorem bump_cores (s : State) : (bump s).cores = s.cores := rfl
@[simp] theorem bump_clusters (s : State) : (bump s).clusters = s.clusters := rfl
@[simp] theorem bump_dies (s : State) : (bump s).dies = s.dies := rfl
@[simp] theorem bump_flits (s : State) : (bump s).flits = s.flits := rfl
@[simp] theorem bump_chans (s : State) : (bump s).chans = s.chans := rfl
@[simp] theorem bump_flitReports (s : State) : (bump s).flitReports = s.flitReports := rfl
@[simp] theorem bump_moves (s : State) : (bump s).moves = s.moves := rfl
@[simp] theorem bump_moveOrder (s : State) : (bump s).moveOrder = s.moveOrder := rfl
@[simp] theorem bump_movedPages (s : State) : (bump s).movedPages = s.movedPages := rfl
@[simp] theorem bump_pools (s : State) : (bump s).pools = s.pools := rfl
@[simp] theorem bump_frameOwner (s : State) : (bump s).frameOwner = s.frameOwner := rfl
@[simp] theorem bump_mboxes (s : State) : (bump s).mboxes = s.mboxes := rfl
@[simp] theorem bump_posts (s : State) : (bump s).posts = s.posts := rfl
@[simp] theorem bump_windows (s : State) : (bump s).windows = s.windows := rfl
@[simp] theorem bump_fns (s : State) : (bump s).fns = s.fns := rfl
@[simp] theorem bump_invq (s : State) : (bump s).invq = s.invq := rfl
@[simp] theorem bump_ovf (s : State) : (bump s).ovf = s.ovf := rfl
@[simp] theorem bump_faults (s : State) : (bump s).faults = s.faults := rfl
@[simp] theorem bump_irqs (s : State) : (bump s).irqs = s.irqs := rfl
@[simp] theorem bump_halves (s : State) : (bump s).halves = s.halves := rfl
@[simp] theorem bump_phase (s : State) : (bump s).phase = s.phase := rfl
@[simp] theorem bump_fail (s : State) : (bump s).fail = s.fail := rfl
@[simp] theorem bump_threshold (s : State) : (bump s).threshold = s.threshold := rfl
@[simp] theorem bump_ceWindow (s : State) : (bump s).ceWindow = s.ceWindow := rfl
@[simp] theorem bump_leaf (s : State) : (bump s).leaf = s.leaf := rfl
@[simp] theorem bump_wants (s : State) : (bump s).wants = s.wants := rfl
@[simp] theorem bump_served (s : State) : (bump s).served = s.served := rfl
@[simp] theorem bump_granted (s : State) : (bump s).granted = s.granted := rfl
@[simp] theorem bump_tlpReports (s : State) : (bump s).tlpReports = s.tlpReports := rfl
@[simp] theorem bump_moveBy (s : State) : (bump s).moveBy = s.moveBy := rfl
@[simp] theorem bump_written (s : State) : (bump s).written = s.written := rfl
@[simp] theorem bump_split (s : State) : (bump s).split = s.split := rfl
@[simp] theorem bump_readback (s : State) : (bump s).readback = s.readback := rfl
@[simp] theorem bump_events (s : State) : (bump s).events = s.events := rfl
@[simp] theorem bump_svnRaised (s : State) : (bump s).svnRaised = s.svnRaised := rfl
@[simp] theorem bump_unpins (s : State) : (bump s).unpins = s.unpins := rfl
@[simp] theorem bump_d3 (s : State) : (bump s).d3 = s.d3 := rfl

/-! ### passCycle -/

@[simp] theorem passCycle_agenda (s : State) (gid : Nat) : (passCycle s gid).agenda = s.agenda := rfl
@[simp] theorem passCycle_cur (s : State) (gid : Nat) : (passCycle s gid).cur = s.cur := rfl
@[simp] theorem passCycle_idling (s : State) (gid : Nat) : (passCycle s gid).idling = s.idling := rfl
@[simp] theorem passCycle_word (s : State) (gid : Nat) : (passCycle s gid).word = s.word := rfl
@[simp] theorem passCycle_fresh (s : State) (gid : Nat) : (passCycle s gid).fresh = s.fresh := rfl
@[simp] theorem passCycle_stuck (s : State) (gid : Nat) : (passCycle s gid).stuck = s.stuck := rfl
@[simp] theorem passCycle_tb (s : State) (gid : Nat) : (passCycle s gid).tb = s.tb := rfl
@[simp] theorem passCycle_mem (s : State) (gid : Nat) : (passCycle s gid).mem = s.mem := rfl
@[simp] theorem passCycle_poison (s : State) (gid : Nat) : (passCycle s gid).poison = s.poison := rfl
@[simp] theorem passCycle_groups (s : State) (gid : Nat) : (passCycle s gid).groups = s.groups := rfl
@[simp] theorem passCycle_teams (s : State) (gid : Nat) : (passCycle s gid).teams = s.teams := rfl
@[simp] theorem passCycle_wins (s : State) (gid : Nat) : (passCycle s gid).wins = s.wins := rfl
@[simp] theorem passCycle_launches (s : State) (gid : Nat) : (passCycle s gid).launches = s.launches := rfl
@[simp] theorem passCycle_nextId (s : State) (gid : Nat) : (passCycle s gid).nextId = s.nextId := rfl
@[simp] theorem passCycle_ctxs (s : State) (gid : Nat) : (passCycle s gid).ctxs = s.ctxs := rfl
@[simp] theorem passCycle_cores (s : State) (gid : Nat) : (passCycle s gid).cores = s.cores := rfl
@[simp] theorem passCycle_clusters (s : State) (gid : Nat) : (passCycle s gid).clusters = s.clusters := rfl
@[simp] theorem passCycle_dies (s : State) (gid : Nat) : (passCycle s gid).dies = s.dies := rfl
@[simp] theorem passCycle_flits (s : State) (gid : Nat) : (passCycle s gid).flits = s.flits := rfl
@[simp] theorem passCycle_chans (s : State) (gid : Nat) : (passCycle s gid).chans = s.chans := rfl
@[simp] theorem passCycle_flitReports (s : State) (gid : Nat) : (passCycle s gid).flitReports = s.flitReports := rfl
@[simp] theorem passCycle_moves (s : State) (gid : Nat) : (passCycle s gid).moves = s.moves := rfl
@[simp] theorem passCycle_moveOrder (s : State) (gid : Nat) : (passCycle s gid).moveOrder = s.moveOrder := rfl
@[simp] theorem passCycle_movedPages (s : State) (gid : Nat) : (passCycle s gid).movedPages = s.movedPages := rfl
@[simp] theorem passCycle_pools (s : State) (gid : Nat) : (passCycle s gid).pools = s.pools := rfl
@[simp] theorem passCycle_frameOwner (s : State) (gid : Nat) : (passCycle s gid).frameOwner = s.frameOwner := rfl
@[simp] theorem passCycle_mboxes (s : State) (gid : Nat) : (passCycle s gid).mboxes = s.mboxes := rfl
@[simp] theorem passCycle_posts (s : State) (gid : Nat) : (passCycle s gid).posts = s.posts := rfl
@[simp] theorem passCycle_windows (s : State) (gid : Nat) : (passCycle s gid).windows = s.windows := rfl
@[simp] theorem passCycle_fns (s : State) (gid : Nat) : (passCycle s gid).fns = s.fns := rfl
@[simp] theorem passCycle_invq (s : State) (gid : Nat) : (passCycle s gid).invq = s.invq := rfl
@[simp] theorem passCycle_ovf (s : State) (gid : Nat) : (passCycle s gid).ovf = s.ovf := rfl
@[simp] theorem passCycle_faults (s : State) (gid : Nat) : (passCycle s gid).faults = s.faults := rfl
@[simp] theorem passCycle_irqs (s : State) (gid : Nat) : (passCycle s gid).irqs = s.irqs := rfl
@[simp] theorem passCycle_halves (s : State) (gid : Nat) : (passCycle s gid).halves = s.halves := rfl
@[simp] theorem passCycle_phase (s : State) (gid : Nat) : (passCycle s gid).phase = s.phase := rfl
@[simp] theorem passCycle_fail (s : State) (gid : Nat) : (passCycle s gid).fail = s.fail := rfl
@[simp] theorem passCycle_threshold (s : State) (gid : Nat) : (passCycle s gid).threshold = s.threshold := rfl
@[simp] theorem passCycle_ceWindow (s : State) (gid : Nat) : (passCycle s gid).ceWindow = s.ceWindow := rfl
@[simp] theorem passCycle_leaf (s : State) (gid : Nat) : (passCycle s gid).leaf = s.leaf := rfl
@[simp] theorem passCycle_wants (s : State) (gid : Nat) : (passCycle s gid).wants = s.wants := rfl
@[simp] theorem passCycle_served (s : State) (gid : Nat) : (passCycle s gid).served = s.served := rfl
@[simp] theorem passCycle_granted (s : State) (gid : Nat) : (passCycle s gid).granted = s.granted := rfl
@[simp] theorem passCycle_tlpReports (s : State) (gid : Nat) : (passCycle s gid).tlpReports = s.tlpReports := rfl
@[simp] theorem passCycle_moveBy (s : State) (gid : Nat) : (passCycle s gid).moveBy = s.moveBy := rfl
@[simp] theorem passCycle_written (s : State) (gid : Nat) : (passCycle s gid).written = s.written := rfl
@[simp] theorem passCycle_split (s : State) (gid : Nat) : (passCycle s gid).split = s.split := rfl
@[simp] theorem passCycle_readback (s : State) (gid : Nat) : (passCycle s gid).readback = s.readback := rfl
@[simp] theorem passCycle_events (s : State) (gid : Nat) : (passCycle s gid).events = s.events := rfl
@[simp] theorem passCycle_svnRaised (s : State) (gid : Nat) : (passCycle s gid).svnRaised = s.svnRaised := rfl
@[simp] theorem passCycle_unpins (s : State) (gid : Nat) : (passCycle s gid).unpins = s.unpins := rfl
@[simp] theorem passCycle_d3 (s : State) (gid : Nat) : (passCycle s gid).d3 = s.d3 := rfl

/-! ### nextCur -/

@[simp] theorem nextCur_agenda (s : State) (gid : Nat) (sl : PSlot) : (nextCur s gid sl).agenda = s.agenda := rfl
@[simp] theorem nextCur_idling (s : State) (gid : Nat) (sl : PSlot) : (nextCur s gid sl).idling = true := rfl
@[simp] theorem nextCur_word (s : State) (gid : Nat) (sl : PSlot) : (nextCur s gid sl).word = s.word := rfl
@[simp] theorem nextCur_fresh (s : State) (gid : Nat) (sl : PSlot) : (nextCur s gid sl).fresh = s.fresh := rfl
@[simp] theorem nextCur_stuck (s : State) (gid : Nat) (sl : PSlot) : (nextCur s gid sl).stuck = s.stuck := rfl
@[simp] theorem nextCur_tb (s : State) (gid : Nat) (sl : PSlot) : (nextCur s gid sl).tb = s.tb := rfl
@[simp] theorem nextCur_cyc (s : State) (gid : Nat) (sl : PSlot) : (nextCur s gid sl).cyc = s.cyc := rfl
@[simp] theorem nextCur_mem (s : State) (gid : Nat) (sl : PSlot) : (nextCur s gid sl).mem = s.mem := rfl
@[simp] theorem nextCur_poison (s : State) (gid : Nat) (sl : PSlot) : (nextCur s gid sl).poison = s.poison := rfl
@[simp] theorem nextCur_teams (s : State) (gid : Nat) (sl : PSlot) : (nextCur s gid sl).teams = s.teams := rfl
@[simp] theorem nextCur_wins (s : State) (gid : Nat) (sl : PSlot) : (nextCur s gid sl).wins = s.wins := rfl
@[simp] theorem nextCur_launches (s : State) (gid : Nat) (sl : PSlot) : (nextCur s gid sl).launches = s.launches := rfl
@[simp] theorem nextCur_nextId (s : State) (gid : Nat) (sl : PSlot) : (nextCur s gid sl).nextId = s.nextId := rfl
@[simp] theorem nextCur_ctxs (s : State) (gid : Nat) (sl : PSlot) : (nextCur s gid sl).ctxs = s.ctxs := rfl
@[simp] theorem nextCur_cores (s : State) (gid : Nat) (sl : PSlot) : (nextCur s gid sl).cores = s.cores := rfl
@[simp] theorem nextCur_clusters (s : State) (gid : Nat) (sl : PSlot) : (nextCur s gid sl).clusters = s.clusters := rfl
@[simp] theorem nextCur_dies (s : State) (gid : Nat) (sl : PSlot) : (nextCur s gid sl).dies = s.dies := rfl
@[simp] theorem nextCur_flits (s : State) (gid : Nat) (sl : PSlot) : (nextCur s gid sl).flits = s.flits := rfl
@[simp] theorem nextCur_chans (s : State) (gid : Nat) (sl : PSlot) : (nextCur s gid sl).chans = s.chans := rfl
@[simp] theorem nextCur_flitReports (s : State) (gid : Nat) (sl : PSlot) : (nextCur s gid sl).flitReports = s.flitReports := rfl
@[simp] theorem nextCur_moves (s : State) (gid : Nat) (sl : PSlot) : (nextCur s gid sl).moves = s.moves := rfl
@[simp] theorem nextCur_moveOrder (s : State) (gid : Nat) (sl : PSlot) : (nextCur s gid sl).moveOrder = s.moveOrder := rfl
@[simp] theorem nextCur_movedPages (s : State) (gid : Nat) (sl : PSlot) : (nextCur s gid sl).movedPages = s.movedPages := rfl
@[simp] theorem nextCur_pools (s : State) (gid : Nat) (sl : PSlot) : (nextCur s gid sl).pools = s.pools := rfl
@[simp] theorem nextCur_frameOwner (s : State) (gid : Nat) (sl : PSlot) : (nextCur s gid sl).frameOwner = s.frameOwner := rfl
@[simp] theorem nextCur_mboxes (s : State) (gid : Nat) (sl : PSlot) : (nextCur s gid sl).mboxes = s.mboxes := rfl
@[simp] theorem nextCur_posts (s : State) (gid : Nat) (sl : PSlot) : (nextCur s gid sl).posts = s.posts := rfl
@[simp] theorem nextCur_windows (s : State) (gid : Nat) (sl : PSlot) : (nextCur s gid sl).windows = s.windows := rfl
@[simp] theorem nextCur_fns (s : State) (gid : Nat) (sl : PSlot) : (nextCur s gid sl).fns = s.fns := rfl
@[simp] theorem nextCur_invq (s : State) (gid : Nat) (sl : PSlot) : (nextCur s gid sl).invq = s.invq := rfl
@[simp] theorem nextCur_ovf (s : State) (gid : Nat) (sl : PSlot) : (nextCur s gid sl).ovf = s.ovf := rfl
@[simp] theorem nextCur_faults (s : State) (gid : Nat) (sl : PSlot) : (nextCur s gid sl).faults = s.faults := rfl
@[simp] theorem nextCur_irqs (s : State) (gid : Nat) (sl : PSlot) : (nextCur s gid sl).irqs = s.irqs := rfl
@[simp] theorem nextCur_halves (s : State) (gid : Nat) (sl : PSlot) : (nextCur s gid sl).halves = s.halves := rfl
@[simp] theorem nextCur_phase (s : State) (gid : Nat) (sl : PSlot) : (nextCur s gid sl).phase = s.phase := rfl
@[simp] theorem nextCur_fail (s : State) (gid : Nat) (sl : PSlot) : (nextCur s gid sl).fail = s.fail := rfl
@[simp] theorem nextCur_threshold (s : State) (gid : Nat) (sl : PSlot) : (nextCur s gid sl).threshold = s.threshold := rfl
@[simp] theorem nextCur_ceWindow (s : State) (gid : Nat) (sl : PSlot) : (nextCur s gid sl).ceWindow = s.ceWindow := rfl
@[simp] theorem nextCur_leaf (s : State) (gid : Nat) (sl : PSlot) : (nextCur s gid sl).leaf = s.leaf := rfl
@[simp] theorem nextCur_wants (s : State) (gid : Nat) (sl : PSlot) : (nextCur s gid sl).wants = s.wants := rfl
@[simp] theorem nextCur_served (s : State) (gid : Nat) (sl : PSlot) : (nextCur s gid sl).served = s.served := rfl
@[simp] theorem nextCur_granted (s : State) (gid : Nat) (sl : PSlot) : (nextCur s gid sl).granted = s.granted := rfl
@[simp] theorem nextCur_tlpReports (s : State) (gid : Nat) (sl : PSlot) : (nextCur s gid sl).tlpReports = s.tlpReports := rfl
@[simp] theorem nextCur_moveBy (s : State) (gid : Nat) (sl : PSlot) : (nextCur s gid sl).moveBy = s.moveBy := rfl
@[simp] theorem nextCur_written (s : State) (gid : Nat) (sl : PSlot) : (nextCur s gid sl).written = s.written := rfl
@[simp] theorem nextCur_split (s : State) (gid : Nat) (sl : PSlot) : (nextCur s gid sl).split = s.split := rfl
@[simp] theorem nextCur_readback (s : State) (gid : Nat) (sl : PSlot) : (nextCur s gid sl).readback = s.readback := rfl
@[simp] theorem nextCur_events (s : State) (gid : Nat) (sl : PSlot) : (nextCur s gid sl).events = s.events := rfl
@[simp] theorem nextCur_svnRaised (s : State) (gid : Nat) (sl : PSlot) : (nextCur s gid sl).svnRaised = s.svnRaised := rfl
@[simp] theorem nextCur_unpins (s : State) (gid : Nat) (sl : PSlot) : (nextCur s gid sl).unpins = s.unpins := rfl
@[simp] theorem nextCur_d3 (s : State) (gid : Nat) (sl : PSlot) : (nextCur s gid sl).d3 = s.d3 := rfl

/-! ### chainStart -/

@[simp] theorem chainStart_agenda (s : State) (gid : Nat) (sl : PSlot) (ch : Chain) (next : Nat) : (chainStart s gid sl ch next).agenda = s.agenda := rfl
@[simp] theorem chainStart_cur (s : State) (gid : Nat) (sl : PSlot) (ch : Chain) (next : Nat) : (chainStart s gid sl ch next).cur = s.cur := rfl
@[simp] theorem chainStart_idling (s : State) (gid : Nat) (sl : PSlot) (ch : Chain) (next : Nat) : (chainStart s gid sl ch next).idling = s.idling := rfl
@[simp] theorem chainStart_word (s : State) (gid : Nat) (sl : PSlot) (ch : Chain) (next : Nat) : (chainStart s gid sl ch next).word = s.word := rfl
@[simp] theorem chainStart_fresh (s : State) (gid : Nat) (sl : PSlot) (ch : Chain) (next : Nat) : (chainStart s gid sl ch next).fresh = s.fresh := rfl
@[simp] theorem chainStart_stuck (s : State) (gid : Nat) (sl : PSlot) (ch : Chain) (next : Nat) : (chainStart s gid sl ch next).stuck = s.stuck := rfl
@[simp] theorem chainStart_tb (s : State) (gid : Nat) (sl : PSlot) (ch : Chain) (next : Nat) : (chainStart s gid sl ch next).tb = s.tb := rfl
@[simp] theorem chainStart_mem (s : State) (gid : Nat) (sl : PSlot) (ch : Chain) (next : Nat) : (chainStart s gid sl ch next).mem = s.mem := rfl
@[simp] theorem chainStart_poison (s : State) (gid : Nat) (sl : PSlot) (ch : Chain) (next : Nat) : (chainStart s gid sl ch next).poison = s.poison := rfl
@[simp] theorem chainStart_teams (s : State) (gid : Nat) (sl : PSlot) (ch : Chain) (next : Nat) : (chainStart s gid sl ch next).teams = s.teams := rfl
@[simp] theorem chainStart_wins (s : State) (gid : Nat) (sl : PSlot) (ch : Chain) (next : Nat) : (chainStart s gid sl ch next).wins = s.wins := rfl
@[simp] theorem chainStart_launches (s : State) (gid : Nat) (sl : PSlot) (ch : Chain) (next : Nat) : (chainStart s gid sl ch next).launches = s.launches := rfl
@[simp] theorem chainStart_nextId (s : State) (gid : Nat) (sl : PSlot) (ch : Chain) (next : Nat) : (chainStart s gid sl ch next).nextId = s.nextId := rfl
@[simp] theorem chainStart_ctxs (s : State) (gid : Nat) (sl : PSlot) (ch : Chain) (next : Nat) : (chainStart s gid sl ch next).ctxs = s.ctxs := rfl
@[simp] theorem chainStart_cores (s : State) (gid : Nat) (sl : PSlot) (ch : Chain) (next : Nat) : (chainStart s gid sl ch next).cores = s.cores := rfl
@[simp] theorem chainStart_clusters (s : State) (gid : Nat) (sl : PSlot) (ch : Chain) (next : Nat) : (chainStart s gid sl ch next).clusters = s.clusters := rfl
@[simp] theorem chainStart_dies (s : State) (gid : Nat) (sl : PSlot) (ch : Chain) (next : Nat) : (chainStart s gid sl ch next).dies = s.dies := rfl
@[simp] theorem chainStart_flits (s : State) (gid : Nat) (sl : PSlot) (ch : Chain) (next : Nat) : (chainStart s gid sl ch next).flits = s.flits := rfl
@[simp] theorem chainStart_chans (s : State) (gid : Nat) (sl : PSlot) (ch : Chain) (next : Nat) : (chainStart s gid sl ch next).chans = s.chans := rfl
@[simp] theorem chainStart_flitReports (s : State) (gid : Nat) (sl : PSlot) (ch : Chain) (next : Nat) : (chainStart s gid sl ch next).flitReports = s.flitReports := rfl
@[simp] theorem chainStart_moves (s : State) (gid : Nat) (sl : PSlot) (ch : Chain) (next : Nat) : (chainStart s gid sl ch next).moves = s.moves := rfl
@[simp] theorem chainStart_moveOrder (s : State) (gid : Nat) (sl : PSlot) (ch : Chain) (next : Nat) : (chainStart s gid sl ch next).moveOrder = s.moveOrder := rfl
@[simp] theorem chainStart_movedPages (s : State) (gid : Nat) (sl : PSlot) (ch : Chain) (next : Nat) : (chainStart s gid sl ch next).movedPages = s.movedPages := rfl
@[simp] theorem chainStart_pools (s : State) (gid : Nat) (sl : PSlot) (ch : Chain) (next : Nat) : (chainStart s gid sl ch next).pools = s.pools := rfl
@[simp] theorem chainStart_frameOwner (s : State) (gid : Nat) (sl : PSlot) (ch : Chain) (next : Nat) : (chainStart s gid sl ch next).frameOwner = s.frameOwner := rfl
@[simp] theorem chainStart_mboxes (s : State) (gid : Nat) (sl : PSlot) (ch : Chain) (next : Nat) : (chainStart s gid sl ch next).mboxes = s.mboxes := rfl
@[simp] theorem chainStart_posts (s : State) (gid : Nat) (sl : PSlot) (ch : Chain) (next : Nat) : (chainStart s gid sl ch next).posts = s.posts := rfl
@[simp] theorem chainStart_windows (s : State) (gid : Nat) (sl : PSlot) (ch : Chain) (next : Nat) : (chainStart s gid sl ch next).windows = s.windows := rfl
@[simp] theorem chainStart_fns (s : State) (gid : Nat) (sl : PSlot) (ch : Chain) (next : Nat) : (chainStart s gid sl ch next).fns = s.fns := rfl
@[simp] theorem chainStart_invq (s : State) (gid : Nat) (sl : PSlot) (ch : Chain) (next : Nat) : (chainStart s gid sl ch next).invq = s.invq := rfl
@[simp] theorem chainStart_ovf (s : State) (gid : Nat) (sl : PSlot) (ch : Chain) (next : Nat) : (chainStart s gid sl ch next).ovf = s.ovf := rfl
@[simp] theorem chainStart_faults (s : State) (gid : Nat) (sl : PSlot) (ch : Chain) (next : Nat) : (chainStart s gid sl ch next).faults = s.faults := rfl
@[simp] theorem chainStart_irqs (s : State) (gid : Nat) (sl : PSlot) (ch : Chain) (next : Nat) : (chainStart s gid sl ch next).irqs = s.irqs := rfl
@[simp] theorem chainStart_halves (s : State) (gid : Nat) (sl : PSlot) (ch : Chain) (next : Nat) : (chainStart s gid sl ch next).halves = s.halves := rfl
@[simp] theorem chainStart_phase (s : State) (gid : Nat) (sl : PSlot) (ch : Chain) (next : Nat) : (chainStart s gid sl ch next).phase = s.phase := rfl
@[simp] theorem chainStart_fail (s : State) (gid : Nat) (sl : PSlot) (ch : Chain) (next : Nat) : (chainStart s gid sl ch next).fail = s.fail := rfl
@[simp] theorem chainStart_threshold (s : State) (gid : Nat) (sl : PSlot) (ch : Chain) (next : Nat) : (chainStart s gid sl ch next).threshold = s.threshold := rfl
@[simp] theorem chainStart_ceWindow (s : State) (gid : Nat) (sl : PSlot) (ch : Chain) (next : Nat) : (chainStart s gid sl ch next).ceWindow = s.ceWindow := rfl
@[simp] theorem chainStart_leaf (s : State) (gid : Nat) (sl : PSlot) (ch : Chain) (next : Nat) : (chainStart s gid sl ch next).leaf = s.leaf := rfl
@[simp] theorem chainStart_wants (s : State) (gid : Nat) (sl : PSlot) (ch : Chain) (next : Nat) : (chainStart s gid sl ch next).wants = s.wants := rfl
@[simp] theorem chainStart_served (s : State) (gid : Nat) (sl : PSlot) (ch : Chain) (next : Nat) : (chainStart s gid sl ch next).served = s.served := rfl
@[simp] theorem chainStart_granted (s : State) (gid : Nat) (sl : PSlot) (ch : Chain) (next : Nat) : (chainStart s gid sl ch next).granted = s.granted := rfl
@[simp] theorem chainStart_tlpReports (s : State) (gid : Nat) (sl : PSlot) (ch : Chain) (next : Nat) : (chainStart s gid sl ch next).tlpReports = s.tlpReports := rfl
@[simp] theorem chainStart_moveBy (s : State) (gid : Nat) (sl : PSlot) (ch : Chain) (next : Nat) : (chainStart s gid sl ch next).moveBy = s.moveBy := rfl
@[simp] theorem chainStart_written (s : State) (gid : Nat) (sl : PSlot) (ch : Chain) (next : Nat) : (chainStart s gid sl ch next).written = s.written := rfl
@[simp] theorem chainStart_split (s : State) (gid : Nat) (sl : PSlot) (ch : Chain) (next : Nat) : (chainStart s gid sl ch next).split = s.split := rfl
@[simp] theorem chainStart_readback (s : State) (gid : Nat) (sl : PSlot) (ch : Chain) (next : Nat) : (chainStart s gid sl ch next).readback = s.readback := rfl
@[simp] theorem chainStart_events (s : State) (gid : Nat) (sl : PSlot) (ch : Chain) (next : Nat) : (chainStart s gid sl ch next).events = s.events := rfl
@[simp] theorem chainStart_svnRaised (s : State) (gid : Nat) (sl : PSlot) (ch : Chain) (next : Nat) : (chainStart s gid sl ch next).svnRaised = s.svnRaised := rfl
@[simp] theorem chainStart_unpins (s : State) (gid : Nat) (sl : PSlot) (ch : Chain) (next : Nat) : (chainStart s gid sl ch next).unpins = s.unpins := rfl
@[simp] theorem chainStart_d3 (s : State) (gid : Nat) (sl : PSlot) (ch : Chain) (next : Nat) : (chainStart s gid sl ch next).d3 = s.d3 := rfl

/-! ### landed -/

@[simp] theorem landed_agenda (s : State) (gid : Nat) : (landed s gid).agenda = s.agenda := rfl
@[simp] theorem landed_cur (s : State) (gid : Nat) : (landed s gid).cur = s.cur := rfl
@[simp] theorem landed_idling (s : State) (gid : Nat) : (landed s gid).idling = s.idling := rfl
@[simp] theorem landed_word (s : State) (gid : Nat) : (landed s gid).word = s.word := rfl
@[simp] theorem landed_fresh (s : State) (gid : Nat) : (landed s gid).fresh = s.fresh := rfl
@[simp] theorem landed_stuck (s : State) (gid : Nat) : (landed s gid).stuck = s.stuck := rfl
@[simp] theorem landed_tb (s : State) (gid : Nat) : (landed s gid).tb = s.tb := rfl
@[simp] theorem landed_cyc (s : State) (gid : Nat) : (landed s gid).cyc = s.cyc := rfl
@[simp] theorem landed_mem (s : State) (gid : Nat) : (landed s gid).mem = s.mem := rfl
@[simp] theorem landed_poison (s : State) (gid : Nat) : (landed s gid).poison = s.poison := rfl
@[simp] theorem landed_teams (s : State) (gid : Nat) : (landed s gid).teams = s.teams := rfl
@[simp] theorem landed_wins (s : State) (gid : Nat) : (landed s gid).wins = s.wins := rfl
@[simp] theorem landed_launches (s : State) (gid : Nat) : (landed s gid).launches = s.launches := rfl
@[simp] theorem landed_nextId (s : State) (gid : Nat) : (landed s gid).nextId = s.nextId := rfl
@[simp] theorem landed_ctxs (s : State) (gid : Nat) : (landed s gid).ctxs = s.ctxs := rfl
@[simp] theorem landed_cores (s : State) (gid : Nat) : (landed s gid).cores = s.cores := rfl
@[simp] theorem landed_clusters (s : State) (gid : Nat) : (landed s gid).clusters = s.clusters := rfl
@[simp] theorem landed_dies (s : State) (gid : Nat) : (landed s gid).dies = s.dies := rfl
@[simp] theorem landed_flits (s : State) (gid : Nat) : (landed s gid).flits = s.flits := rfl
@[simp] theorem landed_chans (s : State) (gid : Nat) : (landed s gid).chans = s.chans := rfl
@[simp] theorem landed_flitReports (s : State) (gid : Nat) : (landed s gid).flitReports = s.flitReports := rfl
@[simp] theorem landed_moves (s : State) (gid : Nat) : (landed s gid).moves = s.moves := rfl
@[simp] theorem landed_moveOrder (s : State) (gid : Nat) : (landed s gid).moveOrder = s.moveOrder := rfl
@[simp] theorem landed_movedPages (s : State) (gid : Nat) : (landed s gid).movedPages = s.movedPages := rfl
@[simp] theorem landed_pools (s : State) (gid : Nat) : (landed s gid).pools = s.pools := rfl
@[simp] theorem landed_frameOwner (s : State) (gid : Nat) : (landed s gid).frameOwner = s.frameOwner := rfl
@[simp] theorem landed_mboxes (s : State) (gid : Nat) : (landed s gid).mboxes = s.mboxes := rfl
@[simp] theorem landed_posts (s : State) (gid : Nat) : (landed s gid).posts = s.posts := rfl
@[simp] theorem landed_windows (s : State) (gid : Nat) : (landed s gid).windows = s.windows := rfl
@[simp] theorem landed_fns (s : State) (gid : Nat) : (landed s gid).fns = s.fns := rfl
@[simp] theorem landed_invq (s : State) (gid : Nat) : (landed s gid).invq = s.invq := rfl
@[simp] theorem landed_ovf (s : State) (gid : Nat) : (landed s gid).ovf = s.ovf := rfl
@[simp] theorem landed_faults (s : State) (gid : Nat) : (landed s gid).faults = s.faults := rfl
@[simp] theorem landed_irqs (s : State) (gid : Nat) : (landed s gid).irqs = s.irqs := rfl
@[simp] theorem landed_halves (s : State) (gid : Nat) : (landed s gid).halves = s.halves := rfl
@[simp] theorem landed_phase (s : State) (gid : Nat) : (landed s gid).phase = s.phase := rfl
@[simp] theorem landed_fail (s : State) (gid : Nat) : (landed s gid).fail = s.fail := rfl
@[simp] theorem landed_threshold (s : State) (gid : Nat) : (landed s gid).threshold = s.threshold := rfl
@[simp] theorem landed_ceWindow (s : State) (gid : Nat) : (landed s gid).ceWindow = s.ceWindow := rfl
@[simp] theorem landed_leaf (s : State) (gid : Nat) : (landed s gid).leaf = s.leaf := rfl
@[simp] theorem landed_wants (s : State) (gid : Nat) : (landed s gid).wants = s.wants := rfl
@[simp] theorem landed_served (s : State) (gid : Nat) : (landed s gid).served = s.served := rfl
@[simp] theorem landed_granted (s : State) (gid : Nat) : (landed s gid).granted = s.granted := rfl
@[simp] theorem landed_tlpReports (s : State) (gid : Nat) : (landed s gid).tlpReports = s.tlpReports := rfl
@[simp] theorem landed_moveBy (s : State) (gid : Nat) : (landed s gid).moveBy = s.moveBy := rfl
@[simp] theorem landed_written (s : State) (gid : Nat) : (landed s gid).written = s.written := rfl
@[simp] theorem landed_split (s : State) (gid : Nat) : (landed s gid).split = s.split := rfl
@[simp] theorem landed_readback (s : State) (gid : Nat) : (landed s gid).readback = s.readback := rfl
@[simp] theorem landed_events (s : State) (gid : Nat) : (landed s gid).events = s.events := rfl
@[simp] theorem landed_svnRaised (s : State) (gid : Nat) : (landed s gid).svnRaised = s.svnRaised := rfl
@[simp] theorem landed_unpins (s : State) (gid : Nat) : (landed s gid).unpins = s.unpins := rfl
@[simp] theorem landed_d3 (s : State) (gid : Nat) : (landed s gid).d3 = s.d3 := rfl

/-! ### putV -/

@[simp] theorem putV_agenda (c : Ctx) (vals : List (Nat × Word × Bool)) (s : State) : (putV c vals s).agenda = s.agenda := rfl
@[simp] theorem putV_cur (c : Ctx) (vals : List (Nat × Word × Bool)) (s : State) : (putV c vals s).cur = s.cur := rfl
@[simp] theorem putV_idling (c : Ctx) (vals : List (Nat × Word × Bool)) (s : State) : (putV c vals s).idling = s.idling := rfl
@[simp] theorem putV_word (c : Ctx) (vals : List (Nat × Word × Bool)) (s : State) : (putV c vals s).word = s.word := rfl
@[simp] theorem putV_fresh (c : Ctx) (vals : List (Nat × Word × Bool)) (s : State) : (putV c vals s).fresh = s.fresh := rfl
@[simp] theorem putV_stuck (c : Ctx) (vals : List (Nat × Word × Bool)) (s : State) : (putV c vals s).stuck = s.stuck := rfl
@[simp] theorem putV_tb (c : Ctx) (vals : List (Nat × Word × Bool)) (s : State) : (putV c vals s).tb = s.tb := rfl
@[simp] theorem putV_cyc (c : Ctx) (vals : List (Nat × Word × Bool)) (s : State) : (putV c vals s).cyc = s.cyc := rfl
@[simp] theorem putV_mem (c : Ctx) (vals : List (Nat × Word × Bool)) (s : State) : (putV c vals s).mem = s.mem := rfl
@[simp] theorem putV_poison (c : Ctx) (vals : List (Nat × Word × Bool)) (s : State) : (putV c vals s).poison = s.poison := rfl
@[simp] theorem putV_teams (c : Ctx) (vals : List (Nat × Word × Bool)) (s : State) : (putV c vals s).teams = s.teams := rfl
@[simp] theorem putV_wins (c : Ctx) (vals : List (Nat × Word × Bool)) (s : State) : (putV c vals s).wins = s.wins := rfl
@[simp] theorem putV_launches (c : Ctx) (vals : List (Nat × Word × Bool)) (s : State) : (putV c vals s).launches = s.launches := rfl
@[simp] theorem putV_nextId (c : Ctx) (vals : List (Nat × Word × Bool)) (s : State) : (putV c vals s).nextId = s.nextId := rfl
@[simp] theorem putV_ctxs (c : Ctx) (vals : List (Nat × Word × Bool)) (s : State) : (putV c vals s).ctxs = s.ctxs := rfl
@[simp] theorem putV_cores (c : Ctx) (vals : List (Nat × Word × Bool)) (s : State) : (putV c vals s).cores = s.cores := rfl
@[simp] theorem putV_clusters (c : Ctx) (vals : List (Nat × Word × Bool)) (s : State) : (putV c vals s).clusters = s.clusters := rfl
@[simp] theorem putV_dies (c : Ctx) (vals : List (Nat × Word × Bool)) (s : State) : (putV c vals s).dies = s.dies := rfl
@[simp] theorem putV_flits (c : Ctx) (vals : List (Nat × Word × Bool)) (s : State) : (putV c vals s).flits = s.flits := rfl
@[simp] theorem putV_chans (c : Ctx) (vals : List (Nat × Word × Bool)) (s : State) : (putV c vals s).chans = s.chans := rfl
@[simp] theorem putV_flitReports (c : Ctx) (vals : List (Nat × Word × Bool)) (s : State) : (putV c vals s).flitReports = s.flitReports := rfl
@[simp] theorem putV_moves (c : Ctx) (vals : List (Nat × Word × Bool)) (s : State) : (putV c vals s).moves = s.moves := rfl
@[simp] theorem putV_moveOrder (c : Ctx) (vals : List (Nat × Word × Bool)) (s : State) : (putV c vals s).moveOrder = s.moveOrder := rfl
@[simp] theorem putV_movedPages (c : Ctx) (vals : List (Nat × Word × Bool)) (s : State) : (putV c vals s).movedPages = s.movedPages := rfl
@[simp] theorem putV_pools (c : Ctx) (vals : List (Nat × Word × Bool)) (s : State) : (putV c vals s).pools = s.pools := rfl
@[simp] theorem putV_frameOwner (c : Ctx) (vals : List (Nat × Word × Bool)) (s : State) : (putV c vals s).frameOwner = s.frameOwner := rfl
@[simp] theorem putV_mboxes (c : Ctx) (vals : List (Nat × Word × Bool)) (s : State) : (putV c vals s).mboxes = s.mboxes := rfl
@[simp] theorem putV_posts (c : Ctx) (vals : List (Nat × Word × Bool)) (s : State) : (putV c vals s).posts = s.posts := rfl
@[simp] theorem putV_windows (c : Ctx) (vals : List (Nat × Word × Bool)) (s : State) : (putV c vals s).windows = s.windows := rfl
@[simp] theorem putV_fns (c : Ctx) (vals : List (Nat × Word × Bool)) (s : State) : (putV c vals s).fns = s.fns := rfl
@[simp] theorem putV_invq (c : Ctx) (vals : List (Nat × Word × Bool)) (s : State) : (putV c vals s).invq = s.invq := rfl
@[simp] theorem putV_ovf (c : Ctx) (vals : List (Nat × Word × Bool)) (s : State) : (putV c vals s).ovf = s.ovf := rfl
@[simp] theorem putV_faults (c : Ctx) (vals : List (Nat × Word × Bool)) (s : State) : (putV c vals s).faults = s.faults := rfl
@[simp] theorem putV_irqs (c : Ctx) (vals : List (Nat × Word × Bool)) (s : State) : (putV c vals s).irqs = s.irqs := rfl
@[simp] theorem putV_halves (c : Ctx) (vals : List (Nat × Word × Bool)) (s : State) : (putV c vals s).halves = s.halves := rfl
@[simp] theorem putV_phase (c : Ctx) (vals : List (Nat × Word × Bool)) (s : State) : (putV c vals s).phase = s.phase := rfl
@[simp] theorem putV_fail (c : Ctx) (vals : List (Nat × Word × Bool)) (s : State) : (putV c vals s).fail = s.fail := rfl
@[simp] theorem putV_threshold (c : Ctx) (vals : List (Nat × Word × Bool)) (s : State) : (putV c vals s).threshold = s.threshold := rfl
@[simp] theorem putV_ceWindow (c : Ctx) (vals : List (Nat × Word × Bool)) (s : State) : (putV c vals s).ceWindow = s.ceWindow := rfl
@[simp] theorem putV_leaf (c : Ctx) (vals : List (Nat × Word × Bool)) (s : State) : (putV c vals s).leaf = s.leaf := rfl
@[simp] theorem putV_wants (c : Ctx) (vals : List (Nat × Word × Bool)) (s : State) : (putV c vals s).wants = s.wants := rfl
@[simp] theorem putV_served (c : Ctx) (vals : List (Nat × Word × Bool)) (s : State) : (putV c vals s).served = s.served := rfl
@[simp] theorem putV_granted (c : Ctx) (vals : List (Nat × Word × Bool)) (s : State) : (putV c vals s).granted = s.granted := rfl
@[simp] theorem putV_tlpReports (c : Ctx) (vals : List (Nat × Word × Bool)) (s : State) : (putV c vals s).tlpReports = s.tlpReports := rfl
@[simp] theorem putV_moveBy (c : Ctx) (vals : List (Nat × Word × Bool)) (s : State) : (putV c vals s).moveBy = s.moveBy := rfl
@[simp] theorem putV_written (c : Ctx) (vals : List (Nat × Word × Bool)) (s : State) : (putV c vals s).written = s.written := rfl
@[simp] theorem putV_split (c : Ctx) (vals : List (Nat × Word × Bool)) (s : State) : (putV c vals s).split = s.split := rfl
@[simp] theorem putV_readback (c : Ctx) (vals : List (Nat × Word × Bool)) (s : State) : (putV c vals s).readback = s.readback := rfl
@[simp] theorem putV_events (c : Ctx) (vals : List (Nat × Word × Bool)) (s : State) : (putV c vals s).events = s.events := rfl
@[simp] theorem putV_svnRaised (c : Ctx) (vals : List (Nat × Word × Bool)) (s : State) : (putV c vals s).svnRaised = s.svnRaised := rfl
@[simp] theorem putV_unpins (c : Ctx) (vals : List (Nat × Word × Bool)) (s : State) : (putV c vals s).unpins = s.unpins := rfl
@[simp] theorem putV_d3 (c : Ctx) (vals : List (Nat × Word × Bool)) (s : State) : (putV c vals s).d3 = s.d3 := rfl

/-! ### putS -/

@[simp] theorem putS_agenda (c : Ctx) (vals : List (Nat × Word × Bool)) (s : State) : (putS c vals s).agenda = s.agenda := rfl
@[simp] theorem putS_cur (c : Ctx) (vals : List (Nat × Word × Bool)) (s : State) : (putS c vals s).cur = s.cur := rfl
@[simp] theorem putS_idling (c : Ctx) (vals : List (Nat × Word × Bool)) (s : State) : (putS c vals s).idling = s.idling := rfl
@[simp] theorem putS_word (c : Ctx) (vals : List (Nat × Word × Bool)) (s : State) : (putS c vals s).word = s.word := rfl
@[simp] theorem putS_fresh (c : Ctx) (vals : List (Nat × Word × Bool)) (s : State) : (putS c vals s).fresh = s.fresh := rfl
@[simp] theorem putS_stuck (c : Ctx) (vals : List (Nat × Word × Bool)) (s : State) : (putS c vals s).stuck = s.stuck := rfl
@[simp] theorem putS_tb (c : Ctx) (vals : List (Nat × Word × Bool)) (s : State) : (putS c vals s).tb = s.tb := rfl
@[simp] theorem putS_cyc (c : Ctx) (vals : List (Nat × Word × Bool)) (s : State) : (putS c vals s).cyc = s.cyc := rfl
@[simp] theorem putS_mem (c : Ctx) (vals : List (Nat × Word × Bool)) (s : State) : (putS c vals s).mem = s.mem := rfl
@[simp] theorem putS_poison (c : Ctx) (vals : List (Nat × Word × Bool)) (s : State) : (putS c vals s).poison = s.poison := rfl
@[simp] theorem putS_teams (c : Ctx) (vals : List (Nat × Word × Bool)) (s : State) : (putS c vals s).teams = s.teams := rfl
@[simp] theorem putS_wins (c : Ctx) (vals : List (Nat × Word × Bool)) (s : State) : (putS c vals s).wins = s.wins := rfl
@[simp] theorem putS_launches (c : Ctx) (vals : List (Nat × Word × Bool)) (s : State) : (putS c vals s).launches = s.launches := rfl
@[simp] theorem putS_nextId (c : Ctx) (vals : List (Nat × Word × Bool)) (s : State) : (putS c vals s).nextId = s.nextId := rfl
@[simp] theorem putS_ctxs (c : Ctx) (vals : List (Nat × Word × Bool)) (s : State) : (putS c vals s).ctxs = s.ctxs := rfl
@[simp] theorem putS_cores (c : Ctx) (vals : List (Nat × Word × Bool)) (s : State) : (putS c vals s).cores = s.cores := rfl
@[simp] theorem putS_clusters (c : Ctx) (vals : List (Nat × Word × Bool)) (s : State) : (putS c vals s).clusters = s.clusters := rfl
@[simp] theorem putS_dies (c : Ctx) (vals : List (Nat × Word × Bool)) (s : State) : (putS c vals s).dies = s.dies := rfl
@[simp] theorem putS_flits (c : Ctx) (vals : List (Nat × Word × Bool)) (s : State) : (putS c vals s).flits = s.flits := rfl
@[simp] theorem putS_chans (c : Ctx) (vals : List (Nat × Word × Bool)) (s : State) : (putS c vals s).chans = s.chans := rfl
@[simp] theorem putS_flitReports (c : Ctx) (vals : List (Nat × Word × Bool)) (s : State) : (putS c vals s).flitReports = s.flitReports := rfl
@[simp] theorem putS_moves (c : Ctx) (vals : List (Nat × Word × Bool)) (s : State) : (putS c vals s).moves = s.moves := rfl
@[simp] theorem putS_moveOrder (c : Ctx) (vals : List (Nat × Word × Bool)) (s : State) : (putS c vals s).moveOrder = s.moveOrder := rfl
@[simp] theorem putS_movedPages (c : Ctx) (vals : List (Nat × Word × Bool)) (s : State) : (putS c vals s).movedPages = s.movedPages := rfl
@[simp] theorem putS_pools (c : Ctx) (vals : List (Nat × Word × Bool)) (s : State) : (putS c vals s).pools = s.pools := rfl
@[simp] theorem putS_frameOwner (c : Ctx) (vals : List (Nat × Word × Bool)) (s : State) : (putS c vals s).frameOwner = s.frameOwner := rfl
@[simp] theorem putS_mboxes (c : Ctx) (vals : List (Nat × Word × Bool)) (s : State) : (putS c vals s).mboxes = s.mboxes := rfl
@[simp] theorem putS_posts (c : Ctx) (vals : List (Nat × Word × Bool)) (s : State) : (putS c vals s).posts = s.posts := rfl
@[simp] theorem putS_windows (c : Ctx) (vals : List (Nat × Word × Bool)) (s : State) : (putS c vals s).windows = s.windows := rfl
@[simp] theorem putS_fns (c : Ctx) (vals : List (Nat × Word × Bool)) (s : State) : (putS c vals s).fns = s.fns := rfl
@[simp] theorem putS_invq (c : Ctx) (vals : List (Nat × Word × Bool)) (s : State) : (putS c vals s).invq = s.invq := rfl
@[simp] theorem putS_ovf (c : Ctx) (vals : List (Nat × Word × Bool)) (s : State) : (putS c vals s).ovf = s.ovf := rfl
@[simp] theorem putS_faults (c : Ctx) (vals : List (Nat × Word × Bool)) (s : State) : (putS c vals s).faults = s.faults := rfl
@[simp] theorem putS_irqs (c : Ctx) (vals : List (Nat × Word × Bool)) (s : State) : (putS c vals s).irqs = s.irqs := rfl
@[simp] theorem putS_halves (c : Ctx) (vals : List (Nat × Word × Bool)) (s : State) : (putS c vals s).halves = s.halves := rfl
@[simp] theorem putS_phase (c : Ctx) (vals : List (Nat × Word × Bool)) (s : State) : (putS c vals s).phase = s.phase := rfl
@[simp] theorem putS_fail (c : Ctx) (vals : List (Nat × Word × Bool)) (s : State) : (putS c vals s).fail = s.fail := rfl
@[simp] theorem putS_threshold (c : Ctx) (vals : List (Nat × Word × Bool)) (s : State) : (putS c vals s).threshold = s.threshold := rfl
@[simp] theorem putS_ceWindow (c : Ctx) (vals : List (Nat × Word × Bool)) (s : State) : (putS c vals s).ceWindow = s.ceWindow := rfl
@[simp] theorem putS_leaf (c : Ctx) (vals : List (Nat × Word × Bool)) (s : State) : (putS c vals s).leaf = s.leaf := rfl
@[simp] theorem putS_wants (c : Ctx) (vals : List (Nat × Word × Bool)) (s : State) : (putS c vals s).wants = s.wants := rfl
@[simp] theorem putS_served (c : Ctx) (vals : List (Nat × Word × Bool)) (s : State) : (putS c vals s).served = s.served := rfl
@[simp] theorem putS_granted (c : Ctx) (vals : List (Nat × Word × Bool)) (s : State) : (putS c vals s).granted = s.granted := rfl
@[simp] theorem putS_tlpReports (c : Ctx) (vals : List (Nat × Word × Bool)) (s : State) : (putS c vals s).tlpReports = s.tlpReports := rfl
@[simp] theorem putS_moveBy (c : Ctx) (vals : List (Nat × Word × Bool)) (s : State) : (putS c vals s).moveBy = s.moveBy := rfl
@[simp] theorem putS_written (c : Ctx) (vals : List (Nat × Word × Bool)) (s : State) : (putS c vals s).written = s.written := rfl
@[simp] theorem putS_split (c : Ctx) (vals : List (Nat × Word × Bool)) (s : State) : (putS c vals s).split = s.split := rfl
@[simp] theorem putS_readback (c : Ctx) (vals : List (Nat × Word × Bool)) (s : State) : (putS c vals s).readback = s.readback := rfl
@[simp] theorem putS_events (c : Ctx) (vals : List (Nat × Word × Bool)) (s : State) : (putS c vals s).events = s.events := rfl
@[simp] theorem putS_svnRaised (c : Ctx) (vals : List (Nat × Word × Bool)) (s : State) : (putS c vals s).svnRaised = s.svnRaised := rfl
@[simp] theorem putS_unpins (c : Ctx) (vals : List (Nat × Word × Bool)) (s : State) : (putS c vals s).unpins = s.unpins := rfl
@[simp] theorem putS_d3 (c : Ctx) (vals : List (Nat × Word × Bool)) (s : State) : (putS c vals s).d3 = s.d3 := rfl

/-! ### putNow -/

@[simp] theorem putNow_agenda (c : Ctx) (vals : List (Nat × Word × Bool)) (s : State) : (putNow c vals s).agenda = s.agenda := rfl
@[simp] theorem putNow_cur (c : Ctx) (vals : List (Nat × Word × Bool)) (s : State) : (putNow c vals s).cur = s.cur := rfl
@[simp] theorem putNow_idling (c : Ctx) (vals : List (Nat × Word × Bool)) (s : State) : (putNow c vals s).idling = s.idling := rfl
@[simp] theorem putNow_word (c : Ctx) (vals : List (Nat × Word × Bool)) (s : State) : (putNow c vals s).word = s.word := rfl
@[simp] theorem putNow_fresh (c : Ctx) (vals : List (Nat × Word × Bool)) (s : State) : (putNow c vals s).fresh = s.fresh := rfl
@[simp] theorem putNow_stuck (c : Ctx) (vals : List (Nat × Word × Bool)) (s : State) : (putNow c vals s).stuck = s.stuck := rfl
@[simp] theorem putNow_tb (c : Ctx) (vals : List (Nat × Word × Bool)) (s : State) : (putNow c vals s).tb = s.tb := rfl
@[simp] theorem putNow_cyc (c : Ctx) (vals : List (Nat × Word × Bool)) (s : State) : (putNow c vals s).cyc = s.cyc := rfl
@[simp] theorem putNow_mem (c : Ctx) (vals : List (Nat × Word × Bool)) (s : State) : (putNow c vals s).mem = s.mem := rfl
@[simp] theorem putNow_poison (c : Ctx) (vals : List (Nat × Word × Bool)) (s : State) : (putNow c vals s).poison = s.poison := rfl
@[simp] theorem putNow_teams (c : Ctx) (vals : List (Nat × Word × Bool)) (s : State) : (putNow c vals s).teams = s.teams := rfl
@[simp] theorem putNow_wins (c : Ctx) (vals : List (Nat × Word × Bool)) (s : State) : (putNow c vals s).wins = s.wins := rfl
@[simp] theorem putNow_launches (c : Ctx) (vals : List (Nat × Word × Bool)) (s : State) : (putNow c vals s).launches = s.launches := rfl
@[simp] theorem putNow_nextId (c : Ctx) (vals : List (Nat × Word × Bool)) (s : State) : (putNow c vals s).nextId = s.nextId := rfl
@[simp] theorem putNow_ctxs (c : Ctx) (vals : List (Nat × Word × Bool)) (s : State) : (putNow c vals s).ctxs = s.ctxs := rfl
@[simp] theorem putNow_cores (c : Ctx) (vals : List (Nat × Word × Bool)) (s : State) : (putNow c vals s).cores = s.cores := rfl
@[simp] theorem putNow_clusters (c : Ctx) (vals : List (Nat × Word × Bool)) (s : State) : (putNow c vals s).clusters = s.clusters := rfl
@[simp] theorem putNow_dies (c : Ctx) (vals : List (Nat × Word × Bool)) (s : State) : (putNow c vals s).dies = s.dies := rfl
@[simp] theorem putNow_flits (c : Ctx) (vals : List (Nat × Word × Bool)) (s : State) : (putNow c vals s).flits = s.flits := rfl
@[simp] theorem putNow_chans (c : Ctx) (vals : List (Nat × Word × Bool)) (s : State) : (putNow c vals s).chans = s.chans := rfl
@[simp] theorem putNow_flitReports (c : Ctx) (vals : List (Nat × Word × Bool)) (s : State) : (putNow c vals s).flitReports = s.flitReports := rfl
@[simp] theorem putNow_moves (c : Ctx) (vals : List (Nat × Word × Bool)) (s : State) : (putNow c vals s).moves = s.moves := rfl
@[simp] theorem putNow_moveOrder (c : Ctx) (vals : List (Nat × Word × Bool)) (s : State) : (putNow c vals s).moveOrder = s.moveOrder := rfl
@[simp] theorem putNow_movedPages (c : Ctx) (vals : List (Nat × Word × Bool)) (s : State) : (putNow c vals s).movedPages = s.movedPages := rfl
@[simp] theorem putNow_pools (c : Ctx) (vals : List (Nat × Word × Bool)) (s : State) : (putNow c vals s).pools = s.pools := rfl
@[simp] theorem putNow_frameOwner (c : Ctx) (vals : List (Nat × Word × Bool)) (s : State) : (putNow c vals s).frameOwner = s.frameOwner := rfl
@[simp] theorem putNow_mboxes (c : Ctx) (vals : List (Nat × Word × Bool)) (s : State) : (putNow c vals s).mboxes = s.mboxes := rfl
@[simp] theorem putNow_posts (c : Ctx) (vals : List (Nat × Word × Bool)) (s : State) : (putNow c vals s).posts = s.posts := rfl
@[simp] theorem putNow_windows (c : Ctx) (vals : List (Nat × Word × Bool)) (s : State) : (putNow c vals s).windows = s.windows := rfl
@[simp] theorem putNow_fns (c : Ctx) (vals : List (Nat × Word × Bool)) (s : State) : (putNow c vals s).fns = s.fns := rfl
@[simp] theorem putNow_invq (c : Ctx) (vals : List (Nat × Word × Bool)) (s : State) : (putNow c vals s).invq = s.invq := rfl
@[simp] theorem putNow_ovf (c : Ctx) (vals : List (Nat × Word × Bool)) (s : State) : (putNow c vals s).ovf = s.ovf := rfl
@[simp] theorem putNow_faults (c : Ctx) (vals : List (Nat × Word × Bool)) (s : State) : (putNow c vals s).faults = s.faults := rfl
@[simp] theorem putNow_irqs (c : Ctx) (vals : List (Nat × Word × Bool)) (s : State) : (putNow c vals s).irqs = s.irqs := rfl
@[simp] theorem putNow_halves (c : Ctx) (vals : List (Nat × Word × Bool)) (s : State) : (putNow c vals s).halves = s.halves := rfl
@[simp] theorem putNow_phase (c : Ctx) (vals : List (Nat × Word × Bool)) (s : State) : (putNow c vals s).phase = s.phase := rfl
@[simp] theorem putNow_fail (c : Ctx) (vals : List (Nat × Word × Bool)) (s : State) : (putNow c vals s).fail = s.fail := rfl
@[simp] theorem putNow_threshold (c : Ctx) (vals : List (Nat × Word × Bool)) (s : State) : (putNow c vals s).threshold = s.threshold := rfl
@[simp] theorem putNow_ceWindow (c : Ctx) (vals : List (Nat × Word × Bool)) (s : State) : (putNow c vals s).ceWindow = s.ceWindow := rfl
@[simp] theorem putNow_leaf (c : Ctx) (vals : List (Nat × Word × Bool)) (s : State) : (putNow c vals s).leaf = s.leaf := rfl
@[simp] theorem putNow_wants (c : Ctx) (vals : List (Nat × Word × Bool)) (s : State) : (putNow c vals s).wants = s.wants := rfl
@[simp] theorem putNow_served (c : Ctx) (vals : List (Nat × Word × Bool)) (s : State) : (putNow c vals s).served = s.served := rfl
@[simp] theorem putNow_granted (c : Ctx) (vals : List (Nat × Word × Bool)) (s : State) : (putNow c vals s).granted = s.granted := rfl
@[simp] theorem putNow_tlpReports (c : Ctx) (vals : List (Nat × Word × Bool)) (s : State) : (putNow c vals s).tlpReports = s.tlpReports := rfl
@[simp] theorem putNow_moveBy (c : Ctx) (vals : List (Nat × Word × Bool)) (s : State) : (putNow c vals s).moveBy = s.moveBy := rfl
@[simp] theorem putNow_written (c : Ctx) (vals : List (Nat × Word × Bool)) (s : State) : (putNow c vals s).written = s.written := rfl
@[simp] theorem putNow_split (c : Ctx) (vals : List (Nat × Word × Bool)) (s : State) : (putNow c vals s).split = s.split := rfl
@[simp] theorem putNow_readback (c : Ctx) (vals : List (Nat × Word × Bool)) (s : State) : (putNow c vals s).readback = s.readback := rfl
@[simp] theorem putNow_events (c : Ctx) (vals : List (Nat × Word × Bool)) (s : State) : (putNow c vals s).events = s.events := rfl
@[simp] theorem putNow_svnRaised (c : Ctx) (vals : List (Nat × Word × Bool)) (s : State) : (putNow c vals s).svnRaised = s.svnRaised := rfl
@[simp] theorem putNow_unpins (c : Ctx) (vals : List (Nat × Word × Bool)) (s : State) : (putNow c vals s).unpins = s.unpins := rfl
@[simp] theorem putNow_d3 (c : Ctx) (vals : List (Nat × Word × Bool)) (s : State) : (putNow c vals s).d3 = s.d3 := rfl

/-! ### What each update changes -/

@[simp] theorem setGroup_groups (s : State) (g : Nat) (v : Group) : (setGroup s g v).groups = mapSet s.groups g v := rfl
@[simp] theorem modGroup_groups (s : State) (g : Nat) (f : Group → Group) : (modGroup s g f).groups = mapMod s.groups g f := rfl
@[simp] theorem modTeam_teams (s : State) (t : Nat) (f : Team → Team) : (modTeam s t f).teams = mapMod s.teams t f := rfl
@[simp] theorem modLaunch_launches (s : State) (l : Nat) (f : Launch → Launch) : (modLaunch s l f).launches = mapMod s.launches l f := rfl
@[simp] theorem modCtx_ctxs (s : State) (c : Nat) (f : Context → Context) : (modCtx s c f).ctxs = mapMod s.ctxs c f := rfl
@[simp] theorem modWin_wins (s : State) (w : Nat) (f : Win → Win) : (modWin s w f).wins = mapMod s.wins w f := rfl
@[simp] theorem setCyc_cyc (s : State) (core quad c : Nat) : (setCyc s core quad c).cyc = mapPut s.cyc (quadKey core quad) 0 c := rfl
@[simp] theorem bump_fresh (s : State) : (bump s).fresh = s.fresh + 1 := rfl

end Sys2Proof.Machine
end

