-- ==== Sys2Proof/Laws/Issue.lean ====
section
/-! SUPPORT. The issue of one instruction: what it leaves where it issues, and that `exec` of an instruction word is that
issue. -/
namespace Sys2Proof.Machine

open Sys2Proof

/-- A list of one entry, paired with its position. -/
theorem chainCtxs_sole (s : State) (gid : Nat) (sl : PSlot) (k : Nat) (m : Sem) (next : Nat) :
    chainCtxs s gid sl [(k, m)] next =
      [({ wordCtx s gid sl (chainPn ((getGroup s gid).slot sl) [(k, m)]) next 0 k with ctl := m.pipe == 4 }, m)] := by
  change [({ wordCtx s gid sl (chainPn ((getGroup s gid).slot sl) [(k, m)]) next 0 k with ctl := (m.pipe == 4 || false) }, m)] = _
  rw [Bool.or_false]

theorem earlyCause_sole (s : State) (gid k : Nat) (m : Sem) (hb : boundCause (lrecOf s gid) m = none)
    (he : emulCause s m (dieOf s gid) = none) : earlyCause s gid [(k, m)] = none := by
  simp [earlyCause, firstSome, hb, he]

/-- The issue of one instruction, step by step. -/
theorem issueChain_sole_eq (s : State) (gid : Nat) (sl : PSlot) (m : Sem) :
    issueChain s gid sl (soleCh s gid sl m) =
      if !slotReady s gid sl then none
      else match earlyCause (landed s gid) gid (soleCh s gid sl m) with
        | some (w, c) => some (chainTrap (landed s gid) gid sl w (slotNow s gid sl).pc (slotNow s gid sl).pc c)
        | none =>
          if !canIssue (landed s gid) gid sl (soleCh s gid sl m) || m.hold (landed s gid) (soleCtx s gid sl m) then none
          else match lateCause (soleFilled s gid sl m) gid (chainPn (slotNow s gid sl) (soleCh s gid sl m)) [(soleCtx s gid sl m, m)] with
            | some (w, c) =>
              some (chainTrap (soleFilled s gid sl m) gid sl w (slotNow s gid sl).pc (resumeOf c (slotNow s gid sl).pc (soleNext s gid sl)) c)
            | none => match stackCause (soleReady s gid sl m) gid (slotNow s gid sl).mask (solePush s gid sl m) with
              | some c => some (chainTrap (soleReady s gid sl m) gid sl (pcSlot ((getGroup s gid).slot sl).pc) (slotNow s gid sl).pc
                  (slotNow s gid sl).pc c)
              | none =>
                match stackCause (stackFill (soleReady s gid sl m) gid (soleTouch s gid sl m)) gid (slotNow s gid sl).mask
                    (soleTouch s gid sl m) with
                | some c => some (chainTrap (stackFill (soleReady s gid sl m) gid (soleTouch s gid sl m)) gid sl
                    (pcSlot ((getGroup s gid).slot sl).pc) (slotNow s gid sl).pc (slotNow s gid sl).pc c)
                | none => some (soleRan s gid sl m) := by
  have hf : fillAll (landed s gid) gid (m.addrs (landed s gid) (soleCtx s gid sl m) ++ []) = soleFilled s gid sl m := by
    rw [List.append_nil]; rfl
  have hp : (if (m.push (soleFilled s gid sl m) (soleCtx s gid sl m) || false) = true then
      [((getGroup (soleFilled s gid sl m) gid).stack.length, true)] else []) = solePush s gid sl m := by
    rw [Bool.or_false]; rfl
  have hh : (m.hold (landed s gid) (soleCtx s gid sl m) || false) = m.hold (landed s gid) (soleCtx s gid sl m) := Bool.or_false _
  conv => rhs; rw [← hh]
  unfold soleRan soleTouch soleEff soleStart soleReady
  rw [← hp, ← hf]
  unfold soleCtx
  rw [← Bool.or_false (m.pipe == 4)]
  rfl

/-- Where an instruction issues, its issue leaves `soleRan`. -/
theorem issueChain_sole {s : State} {gid : Nat} {sl : PSlot} {m : Sem} (h : Issues s gid sl m) :
    issueChain s gid sl (soleCh s gid sl m) = some (soleRan s gid sl m) := by
  obtain ⟨_, hr, hb, he, hc, hh, hl, hp, ht⟩ := h
  have hearly : earlyCause (landed s gid) gid (soleCh s gid sl m) = none := earlyCause_sole _ _ _ _ hb he
  rw [issueChain_sole_eq]
  simp [hr, hearly, hc, hh, hl, hp, ht]

theorem issueOne_of_issues {s : State} {gid : Nat} {sl : PSlot} {m : Sem} (h : Issues s gid sl m) :
    issueOne m s = soleRan s gid sl m := by
  unfold issueOne
  rw [h.1]
  change (match issueChain s gid sl (soleCh s gid sl m) with
    | some s' => (s', true)
    | none => _).1 = _
  rw [issueChain_sole h]

/-- The meaning of an instruction word is the issue of its semantics. -/
theorem runs_of_issueOne {i : Instr} {m : Sem} (h : ∀ s, exec i s = .next (issueOne m s)) : Runs i m := by
  intro s gid sl hi
  rw [h s, issueOne_of_issues hi]

end Sys2Proof.Machine
end

