-- ==== Sys2Proof/Laws/Word.lean ====
section
/-! SUPPORT. Source operands as words, and the shapes of V-pipe and S-pipe words from functions over words. -/
namespace Sys2Proof.Machine

open Sys2Proof

theorem lane_lt {m : Mask} {L : Nat} (h : L ∈ lanesOf m) : L < 32 := by
  simp only [lanesOf, List.mem_filter, List.mem_range] at h
  exact h.1

theorem Ctx.lane_lt {c : Ctx} {L : Nat} (h : L ∈ c.lanes) : L < 32 := Machine.lane_lt h

theorem Ctx.v_lt (c : Ctx) (r L : Nat) : c.v r L < 2 ^ 32 := (readUnit c.g c.k (vunit r L)).isLt

theorem Ctx.get32_lt (c : Ctx) (a : Src) {L : Nat} (h : L < 32) : c.get32 a L < 2 ^ 32 := by
  cases a with
  | reg n => exact c.v_lt n L
  | lit x => exact Nat.mod_lt _ (by decide)
  | lane => exact Nat.lt_trans h (by decide)
  | grp => exact Nat.mod_lt _ (by decide)
  | zero => exact (by decide : 0 < 2 ^ 32)
  | one => exact (by decide : 1 < 2 ^ 32)
  | ones => exact (by decide : 0xFFFFFFFF < 2 ^ 32)
  | fone => exact (by decide : 0x3F800000 < 2 ^ 32)

theorem wrapN_lt' (x : Int) (w : Nat) : wrapN x w < 2 ^ w := by
  have hp : 0 < 2 ^ w := Nat.two_pow_pos w
  have h1 := Int.emod_lt_of_pos x (show (0 : Int) < ((2 ^ w : Nat) : Int) by omega)
  have h0 := Int.emod_nonneg x (show ((2 ^ w : Nat) : Int) ≠ 0 by omega)
  simp only [wrapN]
  omega

theorem Ctx.v64_lt (c : Ctx) (r L : Nat) : c.v64 r L < 2 ^ 64 := by
  have h1 := c.v_lt r L
  have h2 := c.v_lt (r + 1) L
  simp only [Ctx.v64]
  omega

theorem Ctx.get64_lt (c : Ctx) (a : Src) {L : Nat} (h : L < 32) : c.get64 a L < 2 ^ 64 := by
  cases a with
  | reg n => exact c.v64_lt n L
  | lit x => exact wrapN_lt' _ 64
  | ones => show 0xFFFFFFFFFFFFFFFF < 2 ^ 64; decide
  | lane => exact Nat.lt_trans (c.get32_lt .lane h) (by decide)
  | grp => exact Nat.lt_trans (c.get32_lt .grp h) (by decide)
  | zero => exact Nat.lt_trans (c.get32_lt .zero h) (by decide)
  | one => exact Nat.lt_trans (c.get32_lt .one h) (by decide)
  | fone => exact Nat.lt_trans (c.get32_lt .fone h) (by decide)

theorem Ctx.ofNat_v (c : Ctx) (r L : Nat) : BitVec.ofNat 32 (c.v r L) = c.rw r L := by
  simp only [Ctx.v, Ctx.rw, BitVec.ofNat_toNat, BitVec.setWidth_eq]

theorem Ctx.ofNat_v64 (c : Ctx) (r L : Nat) : BitVec.ofNat 64 (c.v64 r L) = c.rw (r + 1) L ++ c.rw r L := by
  apply BitVec.eq_of_toNat_eq
  have h1 := c.v_lt r L
  have h2 := c.v_lt (r + 1) L
  have e1 : (c.rw r L).toNat = c.v r L := rfl
  have e2 : (c.rw (r + 1) L).toNat = c.v (r + 1) L := rfl
  rw [BitVec.toNat_append, e1, e2, BitVec.toNat_ofNat, ← Nat.shiftLeft_add_eq_or_of_lt h1, Nat.shiftLeft_eq]
  simp only [Ctx.v64]
  omega

/-! ### Results by lane -/

theorem out32_eq (c : Ctx) (d : Nat) (f : Nat → Nat) (F : Nat → Word) (h : ∀ L, L < 32 → BitVec.ofNat 32 (f L) = F L) :
    c.out32 d f = c.outW d F :=
  List.map_congr_left fun L hL => by rw [h L (c.lane_lt hL)]

theorem flatMap_congr {α β : Type} {f g : α → List β} : ∀ {l : List α}, (∀ x ∈ l, f x = g x) → l.flatMap f = l.flatMap g
  | [], _ => rfl
  | a :: l, h => by
    simp only [List.flatMap_cons, h a List.mem_cons_self, flatMap_congr fun x hx => h x (List.mem_cons_of_mem a hx)]

theorem out64_eq (c : Ctx) (d : Nat) (f : Nat → Nat) (F : Nat → BitVec 64) (h : ∀ L, L < 32 → f L < 2 ^ 64 ∧ BitVec.ofNat 64 (f L) = F L) :
    c.out64 d f = c.outP d F := by
  refine flatMap_congr fun L hL => ?_
  obtain ⟨hl, he⟩ := h L (c.lane_lt hL)
  have h1 : BitVec.ofNat 32 (f L) = (F L).setWidth 32 := by
    rw [← he]; apply BitVec.eq_of_toNat_eq; simp
  have h2 : BitVec.ofNat 32 (f L / 2 ^ 32) = (F L >>> 32).setWidth 32 := by
    rw [← he]; apply BitVec.eq_of_toNat_eq; simp [Nat.shiftRight_eq_div_pow]; omega
  rw [h1, h2]

/-! ### Shapes -/

theorem alu1_eq {d : Nat} {a : Src} {f : Nat → Nat} {F : Word → Word} (h : ∀ x, x < 2 ^ 32 → BitVec.ofNat 32 (f x) = F (BitVec.ofNat 32 x)) :
    alu1 d a false f = vWord1 d a F := by
  have e : (fun c : Ctx => putV c (c.out32 d fun L => f (c.get32 a L))) = fun c => putV c (c.outW d fun L => F (c.w a L)) :=
    funext fun c => congrArg (putV c) (out32_eq c d _ _ fun L hL => h _ (c.get32_lt a hL))
  unfold alu1 vWord1 vWord
  exact congrArg (fun e => ({ pipe := 0, reads := srcRegs a, writes := [d], eff := e } : Sem)) e

theorem alu1_eq64 {d : Nat} {a : Src} {f : Nat → Nat} {F : BitVec 64 → Word}
    (h : ∀ x, x < 2 ^ 64 → BitVec.ofNat 32 (f x) = F (BitVec.ofNat 64 x)) :
    alu1 d a true f = vWord d (srcRegs64 a) fun c L => F (c.w64 a L) := by
  have e : (fun c : Ctx => putV c (c.out32 d fun L => f (c.get64 a L))) = fun c => putV c (c.outW d fun L => F (c.w64 a L)) :=
    funext fun c => congrArg (putV c) (out32_eq c d _ _ fun L hL => h _ (c.get64_lt a hL))
  unfold alu1 vWord
  exact congrArg (fun e => ({ pipe := 0, reads := srcRegs64 a, writes := [d], eff := e } : Sem)) e

theorem alu2_eq {d : Nat} {a b : Src} {f : Nat → Nat → Nat} {F : Word → Word → Word}
    (h : ∀ x y, x < 2 ^ 32 → y < 2 ^ 32 → BitVec.ofNat 32 (f x y) = F (BitVec.ofNat 32 x) (BitVec.ofNat 32 y)) :
    alu2 d a b f = vWord2 d a b F := by
  have e : (fun c : Ctx => putV c (c.out32 d fun L => f (c.get32 a L) (c.get32 b L))) =
      fun c => putV c (c.outW d fun L => F (c.w a L) (c.w b L)) :=
    funext fun c => congrArg (putV c) (out32_eq c d _ _ fun L hL => h _ _ (c.get32_lt a hL) (c.get32_lt b hL))
  unfold alu2 vWord2 vWord
  exact congrArg (fun e => ({ pipe := 0, reads := srcRegs a ++ srcRegs b, writes := [d], eff := e } : Sem)) e

theorem alu3_eq {d : Nat} {a b : Src} {f : Nat → Nat → Nat → Nat} {F : Word → Word → Word → Word}
    (h : ∀ x y z, x < 2 ^ 32 → y < 2 ^ 32 → z < 2 ^ 32 →
      BitVec.ofNat 32 (f x y z) = F (BitVec.ofNat 32 x) (BitVec.ofNat 32 y) (BitVec.ofNat 32 z)) :
    alu3 d a b f = vWord3 d a b F := by
  have e : (fun c : Ctx => putV c (c.out32 d fun L => f (c.get32 a L) (c.get32 b L) (c.v d L))) =
      fun c => putV c (c.outW d fun L => F (c.w a L) (c.w b L) (c.rw d L)) :=
    funext fun c => congrArg (putV c) (out32_eq c d _ _ fun L hL => by
      rw [← c.ofNat_v d L]; exact h _ _ _ (c.get32_lt a hL) (c.get32_lt b hL) (c.v_lt d L))
  unfold alu3 vWord3 vWord
  exact congrArg (fun e => ({ pipe := 0, reads := srcRegs a ++ srcRegs b ++ [d], writes := [d], eff := e } : Sem)) e

/-! ### Patterns as words -/

theorem runs_eq {i : Instr} {m m' : Sem} (h : ∀ s, exec i s = .next (issueOne m s)) (e : m = m') : Runs i m' := e ▸ runs_of_issueOne h

theorem s32_toInt (x : Nat) : s32 x = (BitVec.ofNat 32 x).toInt := by
  simp only [s32, sext, BitVec.toInt_eq_toNat_cond, BitVec.toNat_ofNat]
  split <;> split <;> omega

theorem ofNat_wrapN (x : Int) (w : Nat) : BitVec.ofNat w (wrapN x w) = BitVec.ofInt w x := by
  apply BitVec.eq_of_toNat_eq
  have := wrapN_lt' x w
  simp only [BitVec.toNat_ofNat, BitVec.toNat_ofInt, Nat.mod_eq_of_lt this]
  rfl

theorem toNat_lt {x : Nat} (h : x < 2^32) : (BitVec.ofNat 32 x).toNat = x := Nat.mod_eq_of_lt h

theorem not32_eq (x : Nat) : BitVec.ofNat 32 (not32 x) = ~~~ BitVec.ofNat 32 x := by
  apply BitVec.eq_of_toNat_eq
  rw [BitVec.toNat_not, BitVec.toNat_ofNat, BitVec.toNat_ofNat]
  show (2^32 - 1 - x % 2^32) % 2^32 = _
  omega

theorem ofNat_and (x y : Nat) : BitVec.ofNat 32 (x &&& y) = BitVec.ofNat 32 x &&& BitVec.ofNat 32 y := by
  apply BitVec.eq_of_getLsbD_eq; intro i hi; simp [hi]

theorem ofNat_or (x y : Nat) : BitVec.ofNat 32 (x ||| y) = BitVec.ofNat 32 x ||| BitVec.ofNat 32 y := by
  apply BitVec.eq_of_getLsbD_eq; intro i hi; simp [hi]

theorem vPair_eq {d : Nat} {rd : List Nat} {f : Ctx → Nat → Nat} {F : Ctx → Nat → BitVec 64}
  (h : ∀ c L, L < 32 → f c L < 2^64 ∧ BitVec.ofNat 64 (f c L) = F c L) :
  ({ pipe := 0, reads := rd, writes := [d, d+1], eff := fun c => putV c (c.out64 d (f c)) } : Sem) = vPair d rd F := by
  have e : (fun c : Ctx => putV c (c.out64 d (f c))) = fun c => putV c (c.outP d (F c)) :=
    funext fun c => congrArg (putV c) (out64_eq c d _ _ fun L hL => h c L hL)
  unfold vPair
  exact congrArg (fun e => ({ pipe := 0, reads := rd, writes := [d, d + 1], eff := e } : Sem)) e

theorem ofNat_mul_pow (x n : Nat) : BitVec.ofNat 32 (x * 2^n % M32) = BitVec.ofNat 32 x <<< n := by
  apply BitVec.eq_of_toNat_eq
  simp [M32, Nat.shiftLeft_eq, Nat.mod_mul_mod]

theorem ofInt_sshift (x : Word) (n : Nat) : BitVec.ofInt 32 (x.toInt / ((2^n : Nat) : Int)) = x.sshiftRight n := by
  apply BitVec.eq_of_toInt_eq
  rw [BitVec.toInt_sshiftRight, Int.shiftRight_eq_div_pow, BitVec.toInt_ofInt]
  have h1 := BitVec.le_toInt x
  have h2 := BitVec.toInt_lt (x := x)
  have hp : (0:Int) < ((2^n : Nat) : Int) := by have := Nat.two_pow_pos n; omega
  have hp1 : (1:Int) ≤ ((2^n : Nat) : Int) := by omega
  generalize ((2^n:Nat):Int) = p at *
  have l1 : -2^31 ≤ x.toInt / p := by
    refine Int.le_ediv_of_mul_le hp ?_
    have : -2^31 * p ≤ -2^31 * 1 := Int.mul_le_mul_of_nonpos_left (by decide) hp1
    simp at *; omega
  have l2 : x.toInt / p < 2^31 := by
    rcases Int.lt_or_le x.toInt 0 with h | h
    · have := Int.ediv_neg_of_neg_of_pos h hp; omega
    · have := Int.ediv_le_self p h; simp at *; omega
  rw [Int.bmod_eq_of_le] <;> simp at * <;> omega

end Sys2Proof.Machine
end

