-- ==== Sys2Proof/Laws/Bits.lean ====
section
/-! SUPPORT. The single bits of masks, reversals, spreads and gathers. -/
namespace Sys2Proof.Machine

open Sys2Proof

/-- The sum of the powers of two below n that a predicate picks. -/
def pickSum (p : Nat → Bool) (n : Nat) : Nat := (List.range n).foldl (fun a L => a + (if p L then 2 ^ L else 0)) 0

theorem pickSum_succ (p : Nat → Bool) (n : Nat) : pickSum p (n + 1) = pickSum p n + (if p n then 2 ^ n else 0) := by
  simp only [pickSum, List.range_succ, List.foldl_append, List.foldl_cons, List.foldl_nil]

theorem pickSum_lt (p : Nat → Bool) (n : Nat) : pickSum p n < 2 ^ n := by
  induction n with
  | zero => exact Nat.one_pos
  | succ n ih => rw [pickSum_succ, Nat.pow_succ]; split <;> omega

theorem testBit_pickSum (p : Nat → Bool) (n i : Nat) : (pickSum p n).testBit i = (decide (i < n) && p i) := by
  induction n with
  | zero => simp [pickSum]
  | succ n ih =>
    rw [pickSum_succ]
    have hl := pickSum_lt p n
    rcases Nat.lt_trichotomy i n with h | h | h
    · have : (pickSum p n + if p n then 2 ^ n else 0).testBit i = (pickSum p n).testBit i := by
        split
        · rw [Nat.add_comm, Nat.testBit_two_pow_add_gt h]
        · rfl
      rw [this, ih]; simp [h]; omega
    · subst h
      cases hp : p i
      · simp [Nat.testBit_lt_two_pow hl]
      · simp [Nat.add_comm (pickSum p i), Nat.testBit_two_pow_add_eq, Nat.testBit_lt_two_pow hl]
    · have hh : (pickSum p n + if p n then 2 ^ n else 0) < 2 ^ i := by
        have : 2 ^ (n + 1) ≤ 2 ^ i := Nat.pow_le_pow_right (by decide) h
        rw [Nat.pow_succ] at this
        split <;> omega
      rw [Nat.testBit_lt_two_pow hh]
      have : ¬ i < n + 1 := by omega
      simp [this]

theorem getLsbD_maskOf (p : Nat → Bool) (i : Nat) : (maskOf p).getLsbD i = (decide (i < 32) && p i) := by
  have := testBit_pickSum p 32 i
  simp only [maskOf, BitVec.getLsbD_ofNat]
  rw [show (List.range 32).foldl (fun a L => a + (if p L then 2 ^ L else 0)) 0 = pickSum p 32 from rfl, this]
  cases decide (i < 32) <;> simp

theorem testBit_two_mul_add (r q i : Nat) (hr : r < 2) : (r + 2 * q).testBit i = if i = 0 then decide (r = 1) else q.testBit (i - 1) := by
  cases i with
  | zero => simp [Nat.testBit_zero]; omega
  | succ i => rw [Nat.testBit_succ]; simp; congr 1; omega

theorem testBit_revBits (w x i : Nat) : (revBits w x).testBit i = (decide (i < w) && x.testBit (w - 1 - i)) := by
  induction w generalizing x with
  | zero => simp [revBits]
  | succ w ih =>
    have hlt : ∀ w x, revBits w x < 2 ^ w := by
      intro w; induction w with
      | zero => intro x; exact Nat.one_pos
      | succ w ih => intro x; simp only [revBits, Nat.pow_succ]; have := ih (x/2); have : x % 2 < 2 := Nat.mod_lt _ (by decide)
                     rcases Nat.mod_two_eq_zero_or_one x with h | h <;> rw [h] <;> omega
    simp only [revBits]
    have hl := hlt w (x / 2)
    rcases Nat.mod_two_eq_zero_or_one x with h | h
    · rw [h, Nat.zero_mul, Nat.zero_add, ih]
      by_cases h2 : i < w
      · have e : w + 1 - 1 - i = (w - 1 - i) + 1 := by omega
        rw [e, Nat.testBit_succ]; simp [h2]; omega
      · rcases Nat.eq_or_lt_of_le (Nat.not_lt.mp h2) with h3 | h3
        · subst h3; simp [Nat.testBit_zero, h]
        · have : ¬ i < w + 1 := by omega
          simp [h2, this]
    · rw [h, Nat.one_mul]
      rcases Nat.lt_trichotomy i w with h2 | h2 | h2
      · rw [Nat.testBit_two_pow_add_gt h2, ih]
        have e : w + 1 - 1 - i = (w - 1 - i) + 1 := by omega
        rw [e, Nat.testBit_succ]; simp [h2]; omega
      · subst h2; simp [Nat.testBit_two_pow_add_eq, Nat.testBit_lt_two_pow hl, Nat.testBit_zero, h]
      · have hh : 2 ^ w + revBits w (x/2) < 2 ^ i := by
          have : 2 ^ (w + 1) ≤ 2 ^ i := Nat.pow_le_pow_right (by decide) h2
          rw [Nat.pow_succ] at this; omega
        have : ¬ i < w + 1 := by omega
        simp [Nat.testBit_lt_two_pow hh, this]

theorem testBit_spread (k : Nat) (hk : 0 < k) (w x i : Nat) :
    (spread k w x).testBit i = (decide (i % k = 0) && decide (i / k < w) && x.testBit (i / k)) := by
  induction w generalizing x i with
  | zero => simp [spread]
  | succ w ih =>
    simp only [spread]
    by_cases h : i < k
    · have e1 : i / k = 0 := Nat.div_eq_of_lt h
      have e2 : i % k = i := Nat.mod_eq_of_lt h
      rw [e1, e2]
      cases i with
      | zero => 
        simp only [Nat.testBit_zero]
        have : (x % 2 + 2 ^ k * spread k w (x / 2)) % 2 = x % 2 := by
          obtain ⟨j, rfl⟩ : ∃ j, k = j + 1 := ⟨k - 1, by omega⟩
          rw [Nat.pow_succ, Nat.mul_comm (2^j) 2, Nat.mul_assoc]; omega
        rw [this]; simp
      | succ i =>
        have : (x % 2 + 2 ^ k * spread k w (x / 2)).testBit (i + 1) = (x % 2).testBit (i + 1) := by
          rw [Nat.add_comm, Nat.testBit_two_pow_mul_add _ (Nat.lt_of_lt_of_le (Nat.mod_lt x (by decide : 0 < 2)) (by
            calc 2 = 2^1 := rfl
              _ ≤ 2^k := Nat.pow_le_pow_right (by decide) hk))]
          simp [h]
        rw [this]
        have : (x % 2).testBit (i + 1) = false := Nat.testBit_lt_two_pow (Nat.lt_of_lt_of_le (Nat.mod_lt x (by decide : 0 < 2)) (by
          calc 2 = 2^1 := rfl
            _ ≤ 2^(i+1) := Nat.pow_le_pow_right (by decide) (by omega)))
        simp [this]
    · have hb : x % 2 < 2 ^ k := Nat.lt_of_lt_of_le (Nat.mod_lt x (by decide : 0 < 2)) (by
            calc 2 = 2^1 := rfl
              _ ≤ 2^k := Nat.pow_le_pow_right (by decide) hk)
      rw [Nat.add_comm, Nat.testBit_two_pow_mul_add _ hb, if_neg h, ih]
      have e1 : (i - k) % k = i % k := by rw [← Nat.mod_eq_sub_mod (by omega)]
      have e2 : i / k = (i - k) / k + 1 := by rw [Nat.div_eq_sub_div hk (by omega)]
      rw [e1, e2, Nat.testBit_succ]
      simp

theorem testBit_gather (k : Nat) (w x i : Nat) : (gather k w x).testBit i = (decide (i < w) && x.testBit (k * i)) := by
  induction w generalizing x i with
  | zero => simp [gather]
  | succ w ih =>
    simp only [gather]
    rw [testBit_two_mul_add _ _ _ (Nat.mod_lt _ (by decide))]
    cases i with
    | zero => simp [Nat.testBit_zero]
    | succ i =>
      rw [if_neg (by omega), Nat.add_sub_cancel, ih, Nat.testBit_div_two_pow, Nat.mul_succ]
      simp

end Sys2Proof.Machine
end

