-- ==== Sys2Proof/Laws/Encode.lean ====
section
/-! SUPPORT. The fields of an encoded word read back, and source operands, registers, flags and modes by their codes. -/
namespace Sys2Proof

open Sys2Proof.Machine

/-! ### Fields of the five formats (R48) -/

theorem encA_fields {maj d a b m : Nat} (hM : maj < 128) (hd : d < 128) (ha : a < 128) (hb : b < 128) (hm : m < 8) :
    majorOf (encA maj d a b m) = maj ∧ bits (encA maj d a b m) 23 17 = d ∧ bits (encA maj d a b m) 16 10 = a ∧
    bits (encA maj d a b m) 9 3 = b ∧ bits (encA maj d a b m) 2 0 = m := by
  simp only [majorOf, bits, encA, Nat.reducePow, Nat.reduceAdd, Nat.reduceSub]
  omega

theorem encB_fields {maj v o : Nat} (hM : maj < 128) (hv : v < 128) (ho : o < 131072) :
    majorOf (encB maj v o) = maj ∧ bits (encB maj v o) 23 17 = v ∧ bits (encB maj v o) 16 0 = o := by
  simp only [majorOf, bits, encB, Nat.reducePow, Nat.reduceAdd, Nat.reduceSub]
  omega

theorem encM_fields {maj d a f z xo xm : Nat} (hM : maj < 128) (hd : d < 128) (ha : a < 128) (hf : f < 16) (hz : z < 8)
    (ho : xo < 2) (hm : xm < 4) :
    majorOf (encM maj d a f z xo xm) = maj ∧ bits (encM maj d a f z xo xm) 23 17 = d ∧ bits (encM maj d a f z xo xm) 16 10 = a ∧
    bits (encM maj d a f z xo xm) 9 6 = f ∧ bits (encM maj d a f z xo xm) 5 3 = z ∧ bits (encM maj d a f z xo xm) 2 2 = xo ∧
    bits (encM maj d a f z xo xm) 1 0 = xm := by
  simp only [majorOf, bits, encM, Nat.reducePow, Nat.reduceAdd, Nat.reduceSub]
  omega

theorem encF_fields {maj fn d a f m : Nat} (hM : maj < 128) (hn : fn < 16) (hd : d < 128) (ha : a < 128) (hf : f < 16) (hm : m < 4) :
    majorOf (encF maj fn d a f m) = maj ∧ bits (encF maj fn d a f m) 23 20 = fn ∧ bits (encF maj fn d a f m) 19 13 = d ∧
    bits (encF maj fn d a f m) 12 6 = a ∧ bits (encF maj fn d a f m) 5 2 = f ∧ bits (encF maj fn d a f m) 1 0 = m := by
  simp only [majorOf, bits, encF, Nat.reducePow, Nat.reduceAdd, Nat.reduceSub]
  omega

theorem encT_fields {maj p q s v k : Nat} (hM : maj < 128) (hp : p < 8) (hq : q < 8) (hs : s < 8) (hv : v < 128) (hk : k < 256) :
    majorOf (encT maj p q s v k) = maj ∧ bits (encT maj p q s v k) 23 21 = p ∧ bits (encT maj p q s v k) 20 18 = q ∧
    bits (encT maj p q s v k) 17 15 = s ∧ bits (encT maj p q s v k) 14 8 = v ∧ bits (encT maj p q s v k) 7 0 = k := by
  simp only [majorOf, bits, encT, Nat.reducePow, Nat.reduceAdd, Nat.reduceSub]
  omega

/-! ### Decoding by format -/

section
variable {maj d a b m l : Nat} (hd : d < 128) (ha : a < 128) (hb : b < 128) (hm : m < 8)
include hd ha hb hm

theorem decodeInstr_int (h : maj < 0x28) : decodeInstr (encA maj d a b m) l = decodeInt maj d a b m l := by
  obtain ⟨h0, h1, h2, h3, h4⟩ := encA_fields (show maj < 128 by omega) hd ha hb hm
  simp only [decodeInstr, h0, h1, h2, h3, h4, h, if_true]

theorem decodeInstr_control (h : 0x28 ≤ maj) (h' : maj < 0x38) :
    decodeInstr (encA maj d a b m) l = decodeControl maj d a b m (a * 2 ^ 10 + b * 2 ^ 3 + m) l := by
  obtain ⟨h0, h1, h2, h3, h4⟩ := encA_fields (show maj < 128 by omega) hd ha hb hm
  have ho : bits (encA maj d a b m) 16 0 = a * 2 ^ 10 + b * 2 ^ 3 + m := by
    simp only [bits, encA, Nat.reducePow, Nat.reduceAdd, Nat.reduceSub]
    omega
  simp only [decodeInstr, h0, h1, h2, h3, h4, ho, Nat.not_lt.mpr h, h', if_true, if_false]

theorem decodeInstr_float (h : 0x38 ≤ maj) (h' : maj < 0x50) : decodeInstr (encA maj d a b m) l = decodeFloat maj d a b m l := by
  obtain ⟨h0, h1, h2, h3, h4⟩ := encA_fields (show maj < 128 by omega) hd ha hb hm
  simp only [decodeInstr, h0, h1, h2, h3, h4, Nat.not_lt.mpr h, show ¬ maj < 0x28 by omega, h', if_true, if_false]
end

theorem decodeInstr_branch {maj v o l : Nat} (h : 0x28 ≤ maj) (h' : maj < 0x38) (hv : v < 128) (ho : o < 131072) :
    decodeInstr (encB maj v o) l = decodeControl maj v (o / 1024) (o / 8 % 128) (o % 8) o l := by
  obtain ⟨h0, h1, h2⟩ := encB_fields (show maj < 128 by omega) hv ho
  have h3 : bits (encB maj v o) 16 10 = o / 1024 := by
    simp only [bits, encB, Nat.reducePow, Nat.reduceAdd, Nat.reduceSub]; omega
  have h4 : bits (encB maj v o) 9 3 = o / 8 % 128 := by
    simp only [bits, encB, Nat.reducePow, Nat.reduceAdd, Nat.reduceSub]; omega
  have h5 : bits (encB maj v o) 2 0 = o % 8 := by
    simp only [bits, encB, Nat.reducePow, Nat.reduceAdd, Nat.reduceSub]; omega
  simp only [decodeInstr, h0, h1, h2, h3, h4, h5, Nat.not_lt.mpr h, h', if_true, if_false]

theorem decodeInstr_mem {maj d a f z xo xm l : Nat} (h : 0x50 ≤ maj) (h' : maj < 0x5B) (hd : d < 128) (ha : a < 128) (hf : f < 16)
    (hz : z < 8) (ho : xo < 2) (hm : xm < 4) : decodeInstr (encM maj d a f z xo xm) l = decodeMem maj d a f z xo xm l := by
  obtain ⟨h0, h1, h2, h3, h4, h5, h6⟩ := encM_fields (show maj < 128 by omega) hd ha hf hz ho hm
  simp only [decodeInstr, h0, h1, h2, h3, h4, h5, h6, show ¬ maj < 0x28 by omega, show ¬ maj < 0x38 by omega,
    show ¬ maj < 0x50 by omega, h', if_true, if_false]

section
variable {maj fn d a f m l : Nat} (hn : fn < 16) (hd : d < 128) (ha : a < 128) (hf : f < 16) (hm : m < 4)
include hn hd ha hf hm

theorem decodeInstr_sync (h : 0x5B ≤ maj) (h' : maj < 0x60) : decodeInstr (encF maj fn d a f m) l = decodeSync maj fn d a f m l := by
  obtain ⟨h0, h1, h2, h3, h4, h5⟩ := encF_fields (show maj < 128 by omega) hn hd ha hf hm
  simp only [decodeInstr, h0, h1, h2, h3, h4, h5, show ¬ maj < 0x28 by omega, show ¬ maj < 0x38 by omega,
    show ¬ maj < 0x50 by omega, show ¬ maj < 0x5B by omega, h', if_true, if_false]

theorem decodeInstr_copy (h : 0x6C ≤ maj) (h' : maj < 0x77) : decodeInstr (encF maj fn d a f m) l = decodeCopy maj fn d a f m l := by
  obtain ⟨h0, h1, h2, h3, h4, h5⟩ := encF_fields (show maj < 128 by omega) hn hd ha hf hm
  simp only [decodeInstr, h0, h1, h2, h3, h4, h5, show ¬ maj < 0x28 by omega, show ¬ maj < 0x38 by omega,
    show ¬ maj < 0x50 by omega, show ¬ maj < 0x5B by omega, show ¬ maj < 0x60 by omega, show ¬ maj < 0x6C by omega, h', if_true,
    if_false]

theorem decodeInstr_sys (h : 0x77 ≤ maj) (h' : maj < 128) : decodeInstr (encF maj fn d a f m) l = decodeSys maj fn d a f m l := by
  obtain ⟨h0, h1, h2, h3, h4, h5⟩ := encF_fields h' hn hd ha hf hm
  simp only [decodeInstr, h0, h1, h2, h3, h4, h5, show ¬ maj < 0x28 by omega, show ¬ maj < 0x38 by omega,
    show ¬ maj < 0x50 by omega, show ¬ maj < 0x5B by omega, show ¬ maj < 0x60 by omega, show ¬ maj < 0x6C by omega,
    show ¬ maj < 0x77 by omega, if_false]
end

theorem decodeInstr_matrix {maj p q s v k l : Nat} (h : 0x60 ≤ maj) (h' : maj < 0x6C) (hp : p < 8) (hq : q < 8) (hs : s < 8)
    (hv : v < 128) (hk : k < 256) : decodeInstr (encT maj p q s v k) l = decodeMatrix maj p q s v k l := by
  obtain ⟨h0, h1, h2, h3, h4, h5⟩ := encT_fields (show maj < 128 by omega) hp hq hs hv hk
  simp only [decodeInstr, h0, h1, h2, h3, h4, h5, show ¬ maj < 0x28 by omega, show ¬ maj < 0x38 by omega,
    show ¬ maj < 0x50 by omega, show ¬ maj < 0x5B by omega, show ¬ maj < 0x60 by omega, h', if_true, if_false]

/-! ### Operands by their codes -/

theorem Src.code_lt {a : Src} (h : Wf.s32 a = true) : a.code < 128 := by
  cases a <;> simp_all [Src.code, Wf.s32, Wf.r1]; omega

theorem Src.code_lit {a : Src} (h : Wf.s32 a = true) : (a.code == 120) = a.litOf.isSome := by
  cases a <;> simp_all [Src.code, Src.litOf, Wf.s32, Wf.r1]; omega

theorem s32_of_s64 {a : Src} (h : Wf.s64 a = true) : Wf.s32 a = true := by
  cases a <;> simp_all [Wf.s32, Wf.s64, Wf.r1, Wf.r2, Wf.rk]

theorem s32_of_sIf {w : Bool} {a : Src} (h : Wf.sIf w a = true) : Wf.s32 a = true := by
  cases w
  · exact h
  · exact s32_of_s64 h

/-- The literal that stands after a word is the one that the operand holds, if it holds one. -/
def Src.litIs (a : Src) (l : Nat) : Prop := ∀ v, a.litOf = some v → v = l

theorem srcOf_code {a : Src} {l : Nat} (h : Wf.s32 a = true) (hl : a.litIs l) : srcOf a.code l = some a := by
  cases a with
  | reg n =>
    have hn : n < 120 := by simpa [Wf.s32, Wf.r1] using h
    simp [srcOf, Src.code, hn]
  | lit v => have := hl v rfl; subst this; rfl
  | _ => rfl

theorem src64Of_code {a : Src} {l : Nat} (h : Wf.s64 a = true) (hl : a.litIs l) : src64Of a.code l = some a := by
  unfold src64Of
  rw [srcOf_code (s32_of_s64 h) hl, if_neg]
  cases a <;> simp_all [Src.code, Wf.s64, Wf.r2, Wf.rk]

theorem srcIf_code {w : Bool} {a : Src} {l : Nat} (h : Wf.sIf w a = true) (hl : a.litIs l) : srcIf w a.code l = some a := by
  cases w
  · exact srcOf_code h hl
  · exact src64Of_code h hl

theorem regOf_rk {k r : Nat} (h : Wf.rk k r = true) : regOf r k = some r := by
  simp only [Wf.rk, Bool.and_eq_true, decide_eq_true_eq] at h
  simp [regOf, h]

theorem regOf_r1 {r : Nat} (h : Wf.r1 r = true) : regOf r 1 = some r := by
  simp only [Wf.r1, decide_eq_true_eq] at h
  simp [regOf, h, Nat.mod_one]

theorem pairIf_rIf {w : Bool} {r : Nat} (h : Wf.rIf w r = true) : pairIf w r = some r := by
  cases w
  · exact regOf_r1 h
  · exact regOf_rk h

theorem lt_of_r1 {r : Nat} (h : Wf.r1 r = true) : r < 128 := by
  simp only [Wf.r1, decide_eq_true_eq] at h; omega

theorem lt_of_rk {k r : Nat} (h : Wf.rk k r = true) : r < 128 := by
  simp only [Wf.rk, Bool.and_eq_true, decide_eq_true_eq] at h; omega

theorem lt_of_rIf {w : Bool} {r : Nat} (h : Wf.rIf w r = true) : r < 128 := by
  cases w
  · exact lt_of_r1 h
  · exact lt_of_rk h

theorem flagOf_code {f : Option Nat} (h : Wf.fl f = true) : flagOf (flagCode f) = some f := by
  cases f with
  | none => rfl
  | some n => have hn : n < 12 := by simpa [Wf.fl] using h
              simp [flagOf, flagCode, hn]

theorem flagCode_lt {f : Option Nat} (h : Wf.fl f = true) : flagCode f < 16 := by
  cases f with
  | none => decide
  | some n => have hn : n < 12 := by simpa [Wf.fl] using h
              simp only [flagCode]; omega

theorem sext_wrapN {o : Int} (w : Nat) (hw : 0 < w) (h1 : -(2 ^ (w - 1) : Nat) ≤ o) (h2 : o < (2 ^ (w - 1) : Nat)) :
    sext (wrapN o w) w = o := by
  have hp : (2 : Nat) ^ w = 2 * 2 ^ (w - 1) := by
    rw [← Nat.pow_succ']; congr 1; omega
  unfold sext wrapN
  simp only [hp]
  generalize (2 : Nat) ^ (w - 1) = p at *
  have h0 : (0 : Int) ≤ o % ((2 * p : Nat) : Int) := Int.emod_nonneg _ (by omega)
  have hlt : o % ((2 * p : Nat) : Int) < ((2 * p : Nat) : Int) := Int.emod_lt_of_pos _ (by omega)
  have hm : (o % ((2 * p : Nat) : Int)).toNat % (2 * p) = (o % ((2 * p : Nat) : Int)).toNat := Nat.mod_eq_of_lt (by omega)
  rw [hm]
  rcases Int.lt_or_le o 0 with hneg | hpos
  · have he : o % ((2 * p : Nat) : Int) = o + ((2 * p : Nat) : Int) := by
      rw [← Int.add_emod_right]; exact Int.emod_eq_of_lt (by omega) (by omega)
    rw [he]
    split <;> omega
  · have he : o % ((2 * p : Nat) : Int) = o := Int.emod_eq_of_lt hpos (by omega)
    rw [he]
    split <;> omega

theorem wrapN_lt (o : Int) (w : Nat) : wrapN o w < 2 ^ w := by
  have hp : 0 < 2 ^ w := Nat.two_pow_pos w
  simp only [wrapN]
  have h1 := Int.emod_lt_of_pos o (show (0 : Int) < ((2 ^ w : Nat) : Int) by omega)
  have h0 := Int.emod_nonneg o (show ((2 ^ w : Nat) : Int) ≠ 0 by omega)
  omega

/-! ### Words with their literals -/

theorem litSame_of {a b : Src} (h : Wf.litSame a b = true) : ∃ l, a.litIs l ∧ b.litIs l ∧
    (lit2 a b = some l ∨ (lit2 a b = none ∧ a.litOf = none ∧ b.litOf = none ∧ l = 0)) := by
  unfold Wf.litSame at h
  unfold lit2 Src.litIs
  cases ha : a.litOf <;> cases hb : b.litOf <;> simp_all

/-- A word of majors 0x00 to 0x4F with two source operands decodes as its fields (R52). -/
theorem decodeWords_eAB {maj d m : Nat} {a b : Src} (hM : maj < 0x50) (hA : aIsSource maj = true) (hB : bIsSource maj = true)
    (hd : d < 128) (ha : Wf.s32 a = true) (hb : Wf.s32 b = true) (hs : Wf.litSame a b = true) (hm : m < 8) :
    ∃ l, a.litIs l ∧ b.litIs l ∧ decodeWords (eAB maj d a b m) = decodeInstr (encA maj d a.code b.code m) l := by
  obtain ⟨l, h1, h2, h⟩ := litSame_of hs
  obtain ⟨f0, f1, f2, f3, f4⟩ := encA_fields (show maj < 128 by omega) hd (Src.code_lt ha) (Src.code_lt hb) hm
  refine ⟨l, h1, h2, ?_⟩
  have hc : consumesLit (encA maj d a.code b.code m) = (a.litOf.isSome || b.litOf.isSome) := by
    have e1 : (maj == 0x5D) = false := by simp; omega
    have e2 : (maj == 0x5E) = false := by simp; omega
    have e3 : (maj == 0x60) = false := by simp; omega
    have e4 : (maj == 0x61) = false := by simp; omega
    have e5 : (maj == 0x62) = false := by simp; omega
    have e6 : (maj == 0x65) = false := by simp; omega
    have e7 : (maj == 0x6F) = false := by simp; omega
    have e8 : (maj == 0x70) = false := by simp; omega
    have e9 : (maj == 0x71) = false := by simp; omega
    have e10 : (maj == 0x76) = false := by simp; omega
    have e11 : (maj == 0x7D) = false := by simp; omega
    have e12 : decide (0x50 ≤ maj) = false := by simp; omega
    simp only [consumesLit, f0, f2, f3, hA, hB, Src.code_lit ha, Src.code_lit hb, e1, e2, e3, e4, e5, e6, e7, e8, e9, e10, e11, e12,
      Bool.true_and, Bool.false_and, Bool.or_false]
  unfold eAB
  rcases h with h | ⟨h, h3, h4, rfl⟩
  · rw [h]
    have : (a.litOf.isSome || b.litOf.isSome) = true := by
      unfold lit2 at h
      cases ha' : a.litOf <;> simp_all
    simp only [withLit, decodeWords, hc, this, if_true]
  · rw [h]
    simp only [withLit, decodeWords, hc, h3, h4, Option.isSome_none, Bool.or_false, Bool.false_eq_true, if_false]

/-- A word of majors 0x00 to 0x4F with one source operand, and a b field that is none, decodes as its fields. -/
theorem decodeWords_eA {maj d b m : Nat} {a : Src} (hM : maj < 0x50) (hA : aIsSource maj = true)
    (hB : bIsSource maj = false ∨ b ≠ 120) (hd : d < 128) (ha : Wf.s32 a = true) (hb : b < 128) (hm : m < 8) :
    ∃ l, a.litIs l ∧ decodeWords (withLit (encA maj d a.code b m) a.litOf) = decodeInstr (encA maj d a.code b m) l := by
  obtain ⟨f0, f1, f2, f3, f4⟩ := encA_fields (show maj < 128 by omega) hd (Src.code_lt ha) hb hm
  have hc : consumesLit (encA maj d a.code b m) = a.litOf.isSome := by
    have e1 : (maj == 0x5D) = false := by simp; omega
    have e2 : (maj == 0x5E) = false := by simp; omega
    have e3 : (maj == 0x60) = false := by simp; omega
    have e4 : (maj == 0x61) = false := by simp; omega
    have e5 : (maj == 0x62) = false := by simp; omega
    have e6 : (maj == 0x65) = false := by simp; omega
    have e7 : (maj == 0x6F) = false := by simp; omega
    have e8 : (maj == 0x70) = false := by simp; omega
    have e9 : (maj == 0x71) = false := by simp; omega
    have e10 : (maj == 0x76) = false := by simp; omega
    have e11 : (maj == 0x7D) = false := by simp; omega
    have e12 : decide (0x50 ≤ maj) = false := by simp; omega
    have e13 : (bIsSource maj && b == 120) = false := by
      rcases hB with h | h
      · simp [h]
      · simp [h]
    simp only [consumesLit, f0, f2, f3, hA, Src.code_lit ha, e1, e2, e3, e4, e5, e6, e7, e8, e9, e10, e11, e12, e13,
      Bool.true_and, Bool.false_and, Bool.or_false]
  cases h : a.litOf with
  | none => exact ⟨0, fun v hv => by simp [h] at hv, by simp only [withLit, decodeWords, hc, h, Option.isSome_none, Bool.false_eq_true, if_false]⟩
  | some l => exact ⟨l, fun v hv => by simp_all, by simp only [withLit, decodeWords, hc, h, Option.isSome_some, if_true]⟩

/-- A word of format M decodes as its fields, with its offset. -/
theorem decodeWords_eM {maj d a z xm : Nat} {f off : Option Nat} (h : 0x50 ≤ maj) (h' : maj < 0x5B) (hd : d < 128) (ha : a < 128)
    (hf : Wf.fl f = true) (hz : z < 8) (hm : xm < 4) :
    decodeWords (eM maj d a f z off xm) = decodeMem maj d a (flagCode f) z (b2n off.isSome) xm (off.getD 0) := by
  have hf' := flagCode_lt hf
  have ho : b2n off.isSome < 2 := by cases off <;> simp [b2n]
  obtain ⟨f0, f1, f2, f3, f4, f5, f6⟩ := encM_fields (show maj < 128 by omega) hd ha hf' hz ho hm
  have hc : consumesLit (encM maj d a (flagCode f) z (b2n off.isSome) xm) = off.isSome := by
    have e0 : aIsSource maj = false := by simp [aIsSource]; omega
    have e0' : bIsSource maj = false := by simp [bIsSource]; omega
    have e1 : (maj == 0x5D) = false := by simp; omega
    have e2 : (maj == 0x5E) = false := by simp; omega
    have e3 : (maj == 0x60) = false := by simp; omega
    have e4 : (maj == 0x61) = false := by simp; omega
    have e5 : (maj == 0x62) = false := by simp; omega
    have e6 : (maj == 0x65) = false := by simp; omega
    have e7 : (maj == 0x6F) = false := by simp; omega
    have e8 : (maj == 0x70) = false := by simp; omega
    have e9 : (maj == 0x71) = false := by simp; omega
    have e10 : (maj == 0x76) = false := by simp; omega
    have e11 : (maj == 0x7D) = false := by simp; omega
    have e12 : decide (0x50 ≤ maj) = true := by simp; omega
    have e13 : decide (maj ≤ 0x5A) = true := by simp; omega
    simp only [consumesLit, f0, f2, f5, e0, e0', e1, e2, e3, e4, e5, e6, e7, e8, e9, e10, e11, e12, e13,
      Bool.true_and, Bool.false_and, Bool.or_false, Bool.false_or]
    cases off <;> rfl
  have e := decodeInstr_mem (l := off.getD 0) h h' hd ha hf' hz ho hm
  unfold eM
  cases off with
  | none => exact (if_neg (by rw [hc]; decide)).trans e
  | some v => exact (if_pos hc).trans e

theorem decodeWords_one {w : Nat} (h : consumesLit w = false) : decodeWords [w] = decodeInstr w 0 := by
  simp only [decodeWords, h, Bool.false_eq_true, if_false]

theorem decodeWords_lit {w l : Nat} (h : consumesLit w = true) : decodeWords [w, l] = decodeInstr w l := by
  simp only [decodeWords, h, if_true]

theorem consumesLit_plain {w : Nat} (h : majorOf w < 0x50) (hA : aIsSource (majorOf w) = false) (hB : bIsSource (majorOf w) = false) :
    consumesLit w = false := by
  simp only [consumesLit, hA, hB]
  generalize majorOf w = m at *
  simp
  omega

theorem consumesLit_F {maj fn d a f m : Nat} (h : 0x5B ≤ maj) (h' : maj < 128) (hn : fn < 16) (hd : d < 128) (ha : a < 128)
    (hf : f < 16) (hm : m < 4) : consumesLit (encF maj fn d a f m) = ((maj == 0x5D && fn == 0) || maj == 0x5E || maj == 0x60 ||
      maj == 0x61 || maj == 0x62 || maj == 0x65 || maj == 0x6F || maj == 0x70 || maj == 0x71 || (maj == 0x76 && fn == 2) ||
      (maj == 0x7D && fn == 2)) := by
  obtain ⟨f0, f1, f2, f3, f4, f5⟩ := encF_fields h' hn hd ha hf hm
  have eA : aIsSource maj = false := by simp [aIsSource]; omega
  have eB : bIsSource maj = false := by simp [bIsSource]; omega
  have e12 : decide (maj ≤ 0x5A) = false := by simp; omega
  simp only [consumesLit, f0, f1, eA, eB, e12, Bool.false_and, Bool.and_false, Bool.false_or]

theorem consumesLit_T {maj p q s v k : Nat} (h : 0x60 ≤ maj) (h' : maj < 0x6C) (hp : p < 8) (hq : q < 8) (hs : s < 8)
    (hv : v < 128) (hk : k < 256) :
    consumesLit (encT maj p q s v k) = (maj == 0x60 || maj == 0x61 || maj == 0x62 || maj == 0x65) := by
  obtain ⟨f0, f1, f2, f3, f4, f5⟩ := encT_fields (show maj < 128 by omega) hp hq hs hv hk
  have eA : aIsSource maj = false := by simp [aIsSource]; omega
  have eB : bIsSource maj = false := by simp [bIsSource]; omega
  have e12 : decide (maj ≤ 0x5A) = false := by simp; omega
  have e0 : (maj == 0x5D) = false := by simp; omega
  have e1 : (maj == 0x5E) = false := by simp; omega
  have e2 : (maj == 0x6F) = false := by simp; omega
  have e3 : (maj == 0x70) = false := by simp; omega
  have e4 : (maj == 0x71) = false := by simp; omega
  have e5 : (maj == 0x76) = false := by simp; omega
  have e6 : (maj == 0x7D) = false := by simp; omega
  simp only [consumesLit, f0, eA, eB, e12, e0, e1, e2, e3, e4, e5, e6, Bool.false_and, Bool.and_false, Bool.false_or, Bool.or_false]

/-- A word of format F that takes no literal. -/
theorem decodeWords_F {maj fn d a f m : Nat} (h : 0x5B ≤ maj) (h' : maj < 128) (hn : fn < 16) (hd : d < 128) (ha : a < 128)
    (hf : f < 16) (hm : m < 4) (hl : ((maj == 0x5D && fn == 0) || maj == 0x5E || maj == 0x60 || maj == 0x61 || maj == 0x62 ||
      maj == 0x65 || maj == 0x6F || maj == 0x70 || maj == 0x71 || (maj == 0x76 && fn == 2) || (maj == 0x7D && fn == 2)) = false) :
    decodeWords [encF maj fn d a f m] = decodeInstr (encF maj fn d a f m) 0 :=
  decodeWords_one ((consumesLit_F h h' hn hd ha hf hm).trans hl)

/-- A word of format F with its literal. -/
theorem decodeWords_Fl {maj fn d a f m l : Nat} (h : 0x5B ≤ maj) (h' : maj < 128) (hn : fn < 16) (hd : d < 128) (ha : a < 128)
    (hf : f < 16) (hm : m < 4) (hl : ((maj == 0x5D && fn == 0) || maj == 0x5E || maj == 0x60 || maj == 0x61 || maj == 0x62 ||
      maj == 0x65 || maj == 0x6F || maj == 0x70 || maj == 0x71 || (maj == 0x76 && fn == 2) || (maj == 0x7D && fn == 2)) = true) :
    decodeWords [encF maj fn d a f m, l] = decodeInstr (encF maj fn d a f m) l :=
  decodeWords_lit ((consumesLit_F h h' hn hd ha hf hm).trans hl)

end Sys2Proof
end

