-- ==== Sys2Proof/Laws/Form.lean ====
section
/-! SUPPORT. Every operation on the state keeps memory in its canonical form: one lemma per operation that answers a state. -/
namespace Sys2Proof.Machine

open Sys2Proof

/-- Memory has its canonical form. -/
@[reducible] def MemForm (s : State) : Prop := Memory.wf s.mem = true

theorem memForm_intro {s : State} (h : Memory.wf s.mem = true) : MemForm s := h

theorem foldl_form {β : Type} {f : State → β → State} {l : List β} {s : State}
    (hf : ∀ t x, MemForm t → MemForm (f t x)) (h : MemForm s) :
    MemForm (l.foldl f s) := by
  induction l generalizing s with
  | nil => exact h
  | cons x l ih => exact ih (hf s x h)

theorem foldl_form1 {α β : Type} {f : State × α → β → State × α} {l : List β} {p : State × α}
    (hf : ∀ t x, MemForm t.1 → MemForm (f t x).1) (h : MemForm p.1) :
    MemForm (l.foldl f p).1 := by
  induction l generalizing p with
  | nil => exact h
  | cons x l ih => exact ih (hf p x h)

theorem memPut_form {m : List Host.Cell} {pa : Nat} {b : Byte} (h : Memory.wf m = true) : Memory.wf (memPut m pa b) = true := by
  simp only [Memory.wf, Bool.and_eq_true] at h ⊢
  refine ⟨mapWf_mapPut m pa 0 b h.1, ?_⟩
  unfold memPut mapPut
  split
  · exact all_mapErase _ m pa h.2
  · rename_i hb
    exact all_mapSet _ m pa b h.2 (by simpa using hb)

theorem memPuts_form {β : Type} {f : List Host.Cell → β → List Host.Cell} {l : List β} {m : List Host.Cell}
    (hf : ∀ m x, Memory.wf m = true → Memory.wf (f m x) = true) (h : Memory.wf m = true) : Memory.wf (l.foldl f m) = true := by
  induction l generalizing m with
  | nil => exact h
  | cons x l ih => exact ih (hf m x h)

theorem memFilter_form {m : List Host.Cell} {p : Host.Cell → Bool} (h : Memory.wf m = true) : Memory.wf (m.filter p) = true := by
  simp only [Memory.wf, Bool.and_eq_true] at h ⊢
  refine ⟨mapWf_filter m p h.1, ?_⟩
  rw [List.all_eq_true] at h ⊢
  exact fun e he => h.2 e (List.mem_filter.mp he).1

theorem wbAll_form {f : State → Nat → State × Bool} {l : List Nat} {s : State}
    (hf : ∀ t x, MemForm t → MemForm (f t x).1) (h : MemForm s) :
    MemForm (wbAll f l s).1 := by
  unfold wbAll
  exact foldl_form1 (fun t x ht => hf t.1 x ht) h

theorem foldl_form_mem {β : Type} {f : State → β → State} {l : List β} {s : State}
    (hf : ∀ t, ∀ x ∈ l, MemForm t → MemForm (f t x)) (h : MemForm s) :
    MemForm (l.foldl f s) := by
  induction l generalizing s with
  | nil => exact h
  | cons x l ih => exact ih (fun t y hy => hf t y (List.mem_cons_of_mem x hy)) (hf s x List.mem_cons_self h)

theorem pair_form {α : Type} {p : State × α} {t : State} {x : α} (h : MemForm p.1) (e : p = (t, x)) :
    MemForm t := by
  rw [e] at h; exact h

theorem firstSome_form {α : Type} {f : α → Option State} {l : List α} {t : State}
    (hf : ∀ a t, f a = some t → MemForm t) (e : firstSome f l = some t) : MemForm t := by
  induction l with
  | nil => cases e
  | cons a l ih =>
    unfold firstSome at e
    split at e
    · cases e; exact hf a _ (by assumption)
    · exact ih e

/-- The effect and the nudge of a word keep the form of memory. -/
def Sem.Keeps (m : Sem) : Prop :=
  (∀ c s, MemForm s → MemForm (m.eff c s)) ∧
  ∀ c s, MemForm s → MemForm (m.nudge c s)

theorem chainCtxs_keeps {s : State} {gid : Nat} {sl : PSlot} {ch : Chain} {next : Nat} (k : ∀ e ∈ ch, e.2.Keeps) :
    ∀ x ∈ chainCtxs s gid sl ch next, x.2.Keeps := by
  intro x hx
  unfold chainCtxs at hx
  obtain ⟨e, he, rfl⟩ := List.mem_map.mp hx
  exact k e.2 (List.of_mem_zip he).2

theorem getD_form {o : Option State} {s : State} (ho : ∀ t, o = some t → MemForm t) (h : MemForm s) :
    MemForm (o.getD s) := by
  cases o with
  | none => exact h
  | some t => exact ho t rfl

theorem touch_form {s : State} {a1} (h : MemForm s) :
    MemForm (touch s a1) := by
  unfold touch
  split
  · with_reducible assumption
  · with_reducible assumption

theorem setDie_form {s : State} {a1} {a2} (h : MemForm s) :
    MemForm (setDie s a1 a2) := by
  unfold setDie
  with_reducible assumption

theorem modDie_form {s : State} {a1} {a2} (h : MemForm s) :
    MemForm (modDie s a1 a2) := by
  unfold modDie
  refine setDie_form ?_
  with_reducible assumption

theorem ringPut_form {s : State} {a1} {a2} (h : MemForm s) :
    MemForm (ringPut s a1 a2) := by
  unfold ringPut
  split
  · with_reducible assumption
  · split
    · with_reducible assumption
    · extract_lets +onlyGivenNames z0
      clear_value z0
      refine memForm_intro ?_
      dsimp only
      refine memPuts_form (fun _ _ _ => ?_) ?_
      · refine memPut_form ?_
        with_reducible assumption
      · with_reducible assumption

theorem logPut_form {s : State} {a1} {a2} (h : MemForm s) :
    MemForm (logPut s a1 a2) := by
  unfold logPut
  split
  · with_reducible assumption
  · extract_lets +onlyGivenNames z0
    clear_value z0
    extract_lets +onlyGivenNames z1
    clear_value z1
    refine ringPut_form ?_
    with_reducible assumption

theorem clearCovered_form {s : State} {a1} (h : MemForm s) :
    MemForm (clearCovered s a1) := by
  unfold clearCovered
  split
  · with_reducible assumption
  · with_reducible assumption

theorem rawPut_form {s : State} {a1} (h : MemForm s) :
    MemForm (rawPut s a1) := by
  unfold rawPut
  refine memForm_intro ?_
  dsimp only
  refine memPuts_form (fun _ _ _ => ?_) ?_
  · refine memPut_form ?_
    with_reducible assumption
  · with_reducible assumption

theorem homeBytesLine_form {s : State} {a1} {a2} (h : MemForm s) :
    MemForm (homeBytesLine s a1 a2) := by
  unfold homeBytesLine
  split
  · refine touch_form ?_
    with_reducible assumption
  · split
    · with_reducible assumption
    · split
      · extract_lets +onlyGivenNames z0
        have hz0 : MemForm z0 := by
          unfold z0
          refine modDie_form ?_
          with_reducible assumption
        clear_value z0
        split
        · with_reducible assumption
        · with_reducible assumption
      · split
        · with_reducible assumption
        · split
          · split
            · refine memForm_intro ?_
              dsimp only
              refine memPuts_form (fun _ _ _ => ?_) ?_
              · refine memPut_form ?_
                with_reducible assumption
              · with_reducible assumption
            · refine logPut_form ?_
              with_reducible assumption
          · refine memForm_intro ?_
            dsimp only
            refine memPuts_form (fun _ _ _ => ?_) ?_
            · refine memPut_form ?_
              with_reducible assumption
            · with_reducible assumption

theorem homePutLine_form {s : State} {a1} {a2} (h : MemForm s) :
    MemForm (homePutLine s a1 a2) := by
  unfold homePutLine
  refine clearCovered_form ?_
  refine homeBytesLine_form ?_
  with_reducible assumption

theorem homePut_form {s : State} {a1} (h : MemForm s) :
    MemForm (homePut s a1) := by
  unfold homePut
  refine foldl_form (fun _ _ _ => ?_) ?_
  · refine homePutLine_form ?_
    with_reducible assumption
  · with_reducible assumption

theorem diePutLine_form {s : State} {a1} {a2} {a3} (h : MemForm s) :
    MemForm (diePutLine s a1 a2 a3) := by
  unfold diePutLine
  split
  · refine touch_form ?_
    with_reducible assumption
  · extract_lets +onlyGivenNames z0
    clear_value z0
    split
    · refine homePutLine_form ?_
      with_reducible assumption
    · split
      · extract_lets +onlyGivenNames z1
        have hz1 : MemForm z1 := by
          unfold z1
          refine homePutLine_form ?_
          with_reducible assumption
        clear_value z1
        split
        · with_reducible assumption
        · refine modDie_form ?_
          with_reducible assumption
      · refine modDie_form ?_
        with_reducible assumption

theorem setCore_form {s : State} {a1} {a2} (h : MemForm s) :
    MemForm (setCore s a1 a2) := by
  unfold setCore
  with_reducible assumption

theorem modCore_form {s : State} {a1} {a2} (h : MemForm s) :
    MemForm (modCore s a1 a2) := by
  unfold modCore
  refine setCore_form ?_
  with_reducible assumption

theorem setCluster_form {s : State} {a1} {a2} (h : MemForm s) :
    MemForm (setCluster s a1 a2) := by
  unfold setCluster
  with_reducible assumption

theorem modCluster_form {s : State} {a1} {a2} (h : MemForm s) :
    MemForm (modCluster s a1 a2) := by
  unfold modCluster
  refine setCluster_form ?_
  with_reducible assumption

theorem l1Put_form {s : State} {a1} {a2} {a3} (h : MemForm s) :
    MemForm (l1Put s a1 a2 a3) := by
  unfold l1Put
  refine modCore_form ?_
  with_reducible assumption

theorem fillCC_form {s : State} {a1} {a2} (h : MemForm s) :
    MemForm (fillCC s a1 a2) := by
  unfold fillCC
  extract_lets +onlyGivenNames z0
  clear_value z0
  extract_lets +onlyGivenNames z1
  clear_value z1
  split
  · extract_lets +onlyGivenNames z2
    clear_value z2
    refine modCluster_form ?_
    with_reducible assumption
  · with_reducible assumption

theorem fillLine_form {s : State} {a1} {a2} (h : MemForm s) :
    MemForm (fillLine s a1 a2) := by
  unfold fillLine
  extract_lets +onlyGivenNames z0
  clear_value z0
  extract_lets +onlyGivenNames z1
  have hz1 : MemForm z1 := by
    unfold z1
    refine fillCC_form ?_
    with_reducible assumption
  clear_value z1
  extract_lets +onlyGivenNames z2
  clear_value z2
  refine modCore_form ?_
  with_reducible assumption

theorem setPoison_form {s : State} {a1} {a2} (h : MemForm s) :
    MemForm (setPoison s a1 a2) := by
  unfold setPoison
  with_reducible assumption

theorem bump_form {s : State} (h : MemForm s) :
    MemForm (bump s) := by
  unfold bump
  with_reducible assumption

theorem setChan_form {s : State} {a1} {a2} {a3} (h : MemForm s) :
    MemForm (setChan s a1 a2 a3) := by
  unfold setChan
  with_reducible assumption

theorem setHalf_form {s : State} {a1} {a2} (h : MemForm s) :
    MemForm (setHalf s a1 a2) := by
  unfold setHalf
  with_reducible assumption

theorem modHalf_form {s : State} {a1} {a2} (h : MemForm s) :
    MemForm (modHalf s a1 a2) := by
  unfold modHalf
  refine setHalf_form ?_
  with_reducible assumption

theorem pairSend_form {s : State} {a1} {a2} {a3} {a4} {a5} {a6} (h : MemForm s) :
    MemForm (pairSend s a1 a2 a3 a4 a5 a6) := by
  unfold pairSend
  refine modHalf_form ?_
  with_reducible assumption

theorem putFlits_form {s : State} {a1} {a2} {a3} (h : MemForm s) :
    MemForm (putFlits s a1 a2 a3) := by
  unfold putFlits
  extract_lets +onlyGivenNames z0
  clear_value z0
  extract_lets +onlyGivenNames z1
  have hz1 : MemForm z1 := by
    unfold z1
    refine setChan_form ?_
    with_reducible assumption
  clear_value z1
  with_reducible assumption

theorem sendFlits_form {s : State} {a1} {a2} {a3} (h : MemForm s) :
    MemForm (sendFlits s a1 a2 a3) := by
  unfold sendFlits
  extract_lets +onlyGivenNames z0
  clear_value z0
  split
  · refine setChan_form ?_
    with_reducible assumption
  · refine putFlits_form ?_
    with_reducible assumption

theorem pumpChan_form {s : State} {a1} {a2} (h : MemForm s) :
    MemForm (pumpChan s a1 a2) := by
  unfold pumpChan
  extract_lets +onlyGivenNames z0
  clear_value z0
  split
  · with_reducible assumption
  · split
    · with_reducible assumption
    · refine putFlits_form ?_
      refine setChan_form ?_
      with_reducible assumption

theorem sendMsg_form {s : State} {a1} {a2} {a3} {a4} (h : MemForm s) :
    MemForm (sendMsg s a1 a2 a3 a4) := by
  unfold sendMsg
  split
  · split
    · refine pairSend_form ?_
      with_reducible assumption
    · with_reducible assumption
  · refine sendFlits_form ?_
    with_reducible assumption

theorem sendAck_form {s : State} {a1} {a2} {a3} {a4} (h : MemForm s) :
    MemForm (sendAck s a1 a2 a3 a4) := by
  unfold sendAck
  refine sendMsg_form ?_
  with_reducible assumption

theorem sendData_form {s : State} {a1} {a2} {a3} {a4} (h : MemForm s) :
    MemForm (sendData s a1 a2 a3 a4) := by
  unfold sendData
  refine sendMsg_form ?_
  with_reducible assumption

theorem sendBack_form {s : State} {a1} {a2} {a3} (h : MemForm s) :
    MemForm (sendBack s a1 a2 a3) := by
  unfold sendBack
  extract_lets +onlyGivenNames z0
  have hz0 : MemForm z0 := by
    unfold z0
    split
    · refine homePut_form ?_
      with_reducible assumption
    · with_reducible assumption
  clear_value z0
  refine sendData_form ?_
  with_reducible assumption

theorem dropCount_form {s : State} {a1} (h : MemForm s) :
    MemForm (dropCount s a1) := by
  unfold dropCount
  with_reducible assumption

theorem countMove_form {s : State} {a1} {a2} (h : MemForm s) :
    MemForm (countMove s a1 a2) := by
  unfold countMove
  split
  · with_reducible assumption
  · extract_lets +onlyGivenNames z0
    clear_value z0
    split
    · extract_lets +onlyGivenNames z1
      clear_value z1
      extract_lets +onlyGivenNames z2
      have hz2 : MemForm z2 := by
        unfold z2
        split
        · refine dropCount_form ?_
          with_reducible assumption
        · with_reducible assumption
      clear_value z2
      with_reducible assumption
    · refine dropCount_form ?_
      with_reducible assumption

theorem arriveReq_form {s : State} {a1} {a2} (h : MemForm s) :
    MemForm (arriveReq s a1 a2) := by
  unfold arriveReq
  split
  · refine sendAck_form ?_
    with_reducible assumption
  · split
    · refine sendAck_form ?_
      with_reducible assumption
    · extract_lets +onlyGivenNames z0
      have hz0 : MemForm z0 := by
        unfold z0
        refine countMove_form ?_
        with_reducible assumption
      clear_value z0
      extract_lets +onlyGivenNames z1
      clear_value z1
      split
      · refine sendAck_form ?_
        with_reducible assumption
      · refine modDie_form ?_
        with_reducible assumption

theorem sendReq_form {s : State} {a1} {a2} {a3} {a4} (h : MemForm s) :
    MemForm (sendReq s a1 a2 a3 a4).1 := by
  unfold sendReq
  extract_lets +onlyGivenNames z0
  clear_value z0
  extract_lets +onlyGivenNames z1
  clear_value z1
  extract_lets +onlyGivenNames z2
  clear_value z2
  extract_lets +onlyGivenNames z3
  clear_value z3
  extract_lets +onlyGivenNames z4
  clear_value z4
  extract_lets +onlyGivenNames z5
  have hz5 : MemForm z5 := by
    unfold z5
    refine setDie_form ?_
    with_reducible assumption
  clear_value z5
  extract_lets +onlyGivenNames z6
  have hz6 : MemForm z6 := by
    unfold z6
    split
    · refine countMove_form ?_
      with_reducible assumption
    · with_reducible assumption
  clear_value z6
  split
  · dsimp only
    refine arriveReq_form ?_
    with_reducible assumption
  · split
    · dsimp only
      refine sendMsg_form ?_
      with_reducible assumption
    · dsimp only
      refine sendMsg_form ?_
      with_reducible assumption

theorem askLine_form {s : State} {a1} {a2} {a3} (h : MemForm s) :
    MemForm (askLine s a1 a2 a3) := by
  unfold askLine
  split
  · refine touch_form ?_
    with_reducible assumption
  · split
    · with_reducible assumption
    · split
      · with_reducible assumption
      · refine sendReq_form ?_
        with_reducible assumption

theorem dieWriteLine_form {s : State} {a1} {a2} {a3} (h : MemForm s) :
    MemForm (dieWriteLine s a1 a2 a3).1 := by
  unfold dieWriteLine
  split
  · with_reducible assumption
  · split
    · with_reducible assumption
    · split
      · dsimp only
        refine diePutLine_form ?_
        with_reducible assumption
      · dsimp only
        refine askLine_form ?_
        with_reducible assumption

theorem wbL1_form {s : State} {a1} {a2} (h : MemForm s) :
    MemForm (wbL1 s a1 a2).1 := by
  unfold wbL1
  extract_lets +onlyGivenNames z0
  clear_value z0
  extract_lets +onlyGivenNames z1
  clear_value z1
  split
  · with_reducible assumption
  · extract_lets +onlyGivenNames z2
    clear_value z2
    extract_lets +onlyGivenNames z3
    unfold z3
    extract_lets +onlyGivenNames z4
    clear_value z4
    extract_lets +onlyGivenNames z5
    clear_value z5
    split
    · extract_lets +onlyGivenNames z6
      have hz6 : MemForm z6.1 := by
        unfold z6
        refine dieWriteLine_form ?_
        with_reducible assumption
      clear_value z6
      split
      · dsimp only
        refine modCore_form ?_
        with_reducible assumption
      · with_reducible assumption
    · dsimp only
      refine modCore_form ?_
      refine modCluster_form ?_
      with_reducible assumption

theorem wbCC_form {s : State} {a1} {a2} (h : MemForm s) :
    MemForm (wbCC s a1 a2).1 := by
  unfold wbCC
  extract_lets +onlyGivenNames z0
  clear_value z0
  extract_lets +onlyGivenNames z1
  clear_value z1
  split
  · with_reducible assumption
  · extract_lets +onlyGivenNames z2
    have hz2 : MemForm z2.1 := by
      unfold z2
      refine dieWriteLine_form ?_
      with_reducible assumption
    clear_value z2
    split
    · dsimp only
      refine modCluster_form ?_
      with_reducible assumption
    · with_reducible assumption

theorem wbL1All_form {s : State} {a1} (h : MemForm s) :
    MemForm (wbL1All s a1).1 := by
  unfold wbL1All
  refine wbAll_form ?_ ?_
  · intro
    intro
    intro
    refine wbL1_form ?_
    with_reducible assumption
  · with_reducible assumption

theorem wbCCAll_form {s : State} {a1} (h : MemForm s) :
    MemForm (wbCCAll s a1).1 := by
  unfold wbCCAll
  refine wbAll_form ?_ ?_
  · intro
    intro
    intro
    refine wbCC_form ?_
    with_reducible assumption
  · with_reducible assumption

theorem releaseCaches_form {s : State} {a1} {a2} (h : MemForm s) :
    MemForm (releaseCaches s a1 a2).1 := by
  unfold releaseCaches
  split
  · with_reducible assumption
  · extract_lets +onlyGivenNames z0
    have hz0 : MemForm z0.1 := by
      unfold z0
      refine wbL1All_form ?_
      with_reducible assumption
    clear_value z0
    split
    · with_reducible assumption
    · extract_lets +onlyGivenNames z1
      have hz1 : MemForm z1.1 := by
        unfold z1
        refine wbCCAll_form ?_
        with_reducible assumption
      clear_value z1
      with_reducible assumption

theorem setPart_form {s : State} {a1} {a2} (h : MemForm s) :
    MemForm (setPart s a1 a2) := by
  unfold setPart
  with_reducible assumption

theorem dropBytes_form {s : State} {a1} {a2} (h : MemForm s) :
    MemForm (dropBytes s a1 a2) := by
  unfold dropBytes
  refine modDie_form ?_
  with_reducible assumption

theorem cleanBytes_form {s : State} {a1} {a2} (h : MemForm s) :
    MemForm (cleanBytes s a1 a2) := by
  unfold cleanBytes
  refine modDie_form ?_
  with_reducible assumption

theorem sweepCC_form {a0} {s : State} {a2} (h : MemForm s) :
    MemForm (sweepCC a0 s a2) := by
  unfold sweepCC
  refine foldl_form (fun _ _ _ => ?_) ?_
  · extract_lets +onlyGivenNames z0
    clear_value z0
    split
    · with_reducible assumption
    · refine modCluster_form ?_
      refine diePutLine_form ?_
      with_reducible assumption
  · with_reducible assumption

theorem sweepL1_form {a0} {s : State} {a2} (h : MemForm s) :
    MemForm (sweepL1 a0 s a2) := by
  unfold sweepL1
  refine foldl_form (fun _ _ _ => ?_) ?_
  · extract_lets +onlyGivenNames z0
    clear_value z0
    split
    · with_reducible assumption
    · extract_lets +onlyGivenNames z1
      have hz1 : MemForm z1 := by
        unfold z1
        refine diePutLine_form ?_
        with_reducible assumption
      clear_value z1
      extract_lets +onlyGivenNames z2
      have hz2 : MemForm z2 := by
        unfold z2
        refine modCluster_form ?_
        with_reducible assumption
      clear_value z2
      refine modCore_form ?_
      with_reducible assumption
  · with_reducible assumption

theorem coreStore_form {a0} {a1} {a2} {s : State} (h : MemForm s) :
    MemForm (coreStore a0 a1 a2 s) := by
  unfold coreStore
  split
  · refine foldl_form (fun _ _ _ => ?_) ?_
    · refine l1Put_form ?_
      with_reducible assumption
    · with_reducible assumption
  · refine foldl_form (fun _ _ _ => ?_) ?_
    · extract_lets +onlyGivenNames z0
      clear_value z0
      extract_lets +onlyGivenNames z1
      have hz1 : MemForm z1 := by
        unfold z1
        refine diePutLine_form ?_
        with_reducible assumption
      clear_value z1
      extract_lets +onlyGivenNames z2
      have hz2 : MemForm z2 := by
        unfold z2
        refine modCluster_form ?_
        with_reducible assumption
      clear_value z2
      refine modCore_form ?_
      with_reducible assumption
    · with_reducible assumption

theorem sweepStores_form {a0} {s : State} {a2} (h : MemForm s) :
    MemForm (sweepStores a0 s a2) := by
  unfold sweepStores
  split
  · with_reducible assumption
  · extract_lets +onlyGivenNames z0
    clear_value z0
    extract_lets +onlyGivenNames z1
    clear_value z1
    extract_lets +onlyGivenNames z2
    clear_value z2
    extract_lets +onlyGivenNames z3
    have hz3 : MemForm z3 := by
      unfold z3
      refine foldl_form (fun _ _ _ => ?_) ?_
      · split
        · refine coreStore_form ?_
          with_reducible assumption
        · with_reducible assumption
      · with_reducible assumption
    clear_value z3
    extract_lets +onlyGivenNames z4
    have hz4 : MemForm z4 := by
      unfold z4
      refine foldl_form (fun _ _ _ => ?_) ?_
      · split
        · refine coreStore_form ?_
          with_reducible assumption
        · with_reducible assumption
      · with_reducible assumption
    clear_value z4
    with_reducible assumption

theorem sweepBox_form {s : State} {a1} {a2} (h : MemForm s) :
    MemForm (sweepBox s a1 a2) := by
  unfold sweepBox
  extract_lets +onlyGivenNames z0
  clear_value z0
  extract_lets +onlyGivenNames z1
  have hz1 : MemForm z1 := by
    unfold z1
    refine foldl_form (fun _ _ _ => ?_) ?_
    · refine sweepStores_form ?_
      with_reducible assumption
    · with_reducible assumption
  clear_value z1
  extract_lets +onlyGivenNames z2
  have hz2 : MemForm z2 := by
    unfold z2
    refine foldl_form (fun _ _ _ => ?_) ?_
    · refine sweepCC_form ?_
      with_reducible assumption
    · with_reducible assumption
  clear_value z2
  refine foldl_form (fun _ _ _ => ?_) ?_
  · refine sweepL1_form ?_
    with_reducible assumption
  · with_reducible assumption

theorem dropUnheld_form {s : State} {a1} {a2} (h : MemForm s) :
    MemForm (dropUnheld s a1 a2) := by
  unfold dropUnheld
  refine modDie_form ?_
  with_reducible assumption

theorem invAct_form {s : State} {die i} (h : MemForm s) : MemForm (invAct s die i).2 := by
  unfold invAct
  split
  · exact h
  · extract_lets +onlyGivenNames s1
    have h1 : MemForm s1 := by
      unfold s1
      refine modDie_form ?_
      split
      · exact h
      · exact setPart_form h
    clear_value s1
    dsimp only
    split
    · exact h1
    · exact dropUnheld_form h1

theorem holderAct_form {s : State} {die i read} (h : MemForm s) : MemForm (holderAct s die i read).2.2.2 := by
  unfold holderAct
  split
  · exact h
  · extract_lets +onlyGivenNames s1 st own ds s2
    have h2 : MemForm s2 := setPart_form (sweepBox_form h)
    clear_value s2
    split
    · exact modDie_form h2
    · refine modDie_form ?_
      split
      · exact h2
      · exact dropBytes_form h2

theorem performAtomic_form {a0} {s : State} {a2} (h : MemForm s) :
    MemForm (performAtomic a0 s a2).1 := by
  unfold performAtomic
  extract_lets +onlyGivenNames z0
  clear_value z0
  extract_lets +onlyGivenNames z1
  clear_value z1
  extract_lets +onlyGivenNames z2
  clear_value z2
  split
  · with_reducible assumption
  · dsimp only
    refine homePut_form ?_
    with_reducible assumption

theorem grantSelf_form {s : State} {a1} {a2} {a3} (h : MemForm s) :
    MemForm (grantSelf s a1 a2 a3) := by
  unfold grantSelf
  refine modDie_form ?_
  with_reducible assumption

theorem closeTx_form {s : State} {a1} {a2} (h : MemForm s) :
    MemForm (closeTx s a1 a2) := by
  unfold closeTx
  refine modDie_form ?_
  with_reducible assumption

theorem answerEngine_form {s : State} {a1} {a2} (h : MemForm s) :
    MemForm (answerEngine s a1 a2) := by
  unfold answerEngine
  split
  · refine modDie_form ?_
    with_reducible assumption
  · split
    · refine sendAck_form ?_
      with_reducible assumption
    · refine foldl_form (fun _ _ _ => ?_) ?_
      · refine sendData_form ?_
        with_reducible assumption
      · with_reducible assumption

theorem finishTx_form {a0} {s : State} {a2} {a3} (h : MemForm s) :
    MemForm (finishTx a0 s a2 a3) := by
  unfold finishTx
  extract_lets +onlyGivenNames z0
  have hz0 : MemForm z0 := by
    unfold z0
    refine closeTx_form ?_
    with_reducible assumption
  clear_value z0
  split
  · with_reducible assumption
  · with_reducible assumption
  · extract_lets +onlyGivenNames z1
    clear_value z1
    split
    · refine answerEngine_form ?_
      with_reducible assumption
    · split
      · extract_lets +onlyGivenNames z2
        have hz2 : MemForm z2.1 := by
          unfold z2
          refine performAtomic_form ?_
          with_reducible assumption
        clear_value z2
        split
        · refine modDie_form ?_
          refine grantSelf_form ?_
          with_reducible assumption
        · extract_lets +onlyGivenNames z3
          have hz3 : MemForm z3 := by
            unfold z3
            refine modDie_form ?_
            with_reducible assumption
          clear_value z3
          refine sendAck_form ?_
          with_reducible assumption
      · split
        · refine grantSelf_form ?_
          with_reducible assumption
        · extract_lets +onlyGivenNames z2
          clear_value z2
          extract_lets +onlyGivenNames z3
          have hz3 : MemForm z3 := by
            unfold z3
            refine modDie_form ?_
            with_reducible assumption
          clear_value z3
          split
          · refine grantSelf_form ?_
            with_reducible assumption
          · refine sendAck_form ?_
            with_reducible assumption

theorem takeBack_form {s : State} {a1} {a2} {a3} {a4} (h : MemForm s) :
    MemForm (takeBack s a1 a2 a3 a4) := by
  unfold takeBack
  extract_lets +onlyGivenNames z0
  clear_value z0
  extract_lets +onlyGivenNames z1
  clear_value z1
  extract_lets +onlyGivenNames z2
  have hz2 : MemForm z2 := by
    unfold z2
    split
    · refine holderAct_form ?_
      with_reducible assumption
    · with_reducible assumption
  clear_value z2
  extract_lets +onlyGivenNames z3
  clear_value z3
  extract_lets +onlyGivenNames z4
  clear_value z4
  extract_lets +onlyGivenNames z5
  clear_value z5
  dsimp only
  split
  · refine closeTx_form ?_
    refine setDie_form ?_
    with_reducible assumption
  · refine foldl_form (fun _ _ _ => ?_) ?_
    · refine sendMsg_form ?_
      with_reducible assumption
    · refine setDie_form ?_
      with_reducible assumption

theorem evictSet_form {s : State} {a1} {a2} {a3} (h : MemForm s) :
    MemForm (evictSet s a1 a2 a3) := by
  unfold evictSet
  extract_lets +onlyGivenNames z0
  clear_value z0
  extract_lets +onlyGivenNames z1
  clear_value z1
  extract_lets +onlyGivenNames z2
  clear_value z2
  extract_lets +onlyGivenNames z3
  clear_value z3
  extract_lets +onlyGivenNames z4
  clear_value z4
  split
  · with_reducible assumption
  · refine foldl_form (fun _ _ _ => ?_) ?_
    · refine takeBack_form ?_
      with_reducible assumption
    · with_reducible assumption

theorem nearActs_form {s : State} {home acts wr} (h : MemForm s) : MemForm (nearActs s home acts wr).1 := by
  unfold nearActs
  refine foldl_form1 (fun _ _ ht => ?_) h
  split
  · exact holderAct_form ht
  · exact invAct_form ht

theorem serve_form {a0} {s : State} {a2} {a3} (h : MemForm s) :
    MemForm (serve a0 s a2 a3) := by
  unfold serve
  extract_lets +onlyGivenNames z0
  clear_value z0
  extract_lets +onlyGivenNames z1
  clear_value z1
  extract_lets +onlyGivenNames z2
  clear_value z2
  extract_lets +onlyGivenNames z3
  clear_value z3
  extract_lets +onlyGivenNames z4
  clear_value z4
  extract_lets +onlyGivenNames z5
  clear_value z5
  extract_lets +onlyGivenNames z6
  clear_value z6
  extract_lets +onlyGivenNames z7
  clear_value z7
  extract_lets +onlyGivenNames z8
  clear_value z8
  extract_lets +onlyGivenNames z9
  clear_value z9
  extract_lets +onlyGivenNames z10
  clear_value z10
  extract_lets +onlyGivenNames z11
  clear_value z11
  extract_lets +onlyGivenNames z12
  clear_value z12
  extract_lets +onlyGivenNames z13
  have hz13 : MemForm z13.1 := by
    unfold z13
    refine nearActs_form ?_
    refine setDie_form ?_
    with_reducible assumption
  clear_value z13
  extract_lets +onlyGivenNames z14
  clear_value z14
  extract_lets +onlyGivenNames z15
  have hz15 : MemForm z15 := by
    unfold z15
    refine modDie_form ?_
    with_reducible assumption
  clear_value z15
  extract_lets +onlyGivenNames z16
  have hz16 : MemForm z16 := by
    unfold z16
    split
    · refine foldl_form (fun _ _ _ => ?_) ?_
      · split
        · refine modDie_form ?_
          with_reducible assumption
        · with_reducible assumption
      · with_reducible assumption
    · with_reducible assumption
  clear_value z16
  extract_lets +onlyGivenNames z17
  have hz17 : MemForm z17 := by
    unfold z17
    refine foldl_form (fun _ _ _ => ?_) ?_
    · refine sendMsg_form ?_
      with_reducible assumption
    · with_reducible assumption
  clear_value z17
  extract_lets +onlyGivenNames z18
  have hz18 : MemForm z18 := by
    unfold z18
    refine foldl_form (fun _ _ _ => ?_) ?_
    · refine sendData_form ?_
      with_reducible assumption
    · with_reducible assumption
  clear_value z18
  split
  · refine finishTx_form ?_
    with_reducible assumption
  · with_reducible assumption

theorem startReqs_form {a0} {s : State} {a2} {a3} (h : MemForm s) :
    MemForm (startReqs a0 s a2 a3) := by
  unfold startReqs
  extract_lets +onlyGivenNames z0
  clear_value z0
  refine foldl_form1 (fun _ _ _ => ?_) ?_
  · extract_lets +onlyGivenNames z1
    have hz1 : MemForm z1 := by
      unfold z1
      with_reducible assumption
    clear_value z1
    split
    · extract_lets +onlyGivenNames z2
      have hz2 : MemForm z2 := by
        unfold z2
        refine modDie_form ?_
        with_reducible assumption
      clear_value z2
      split
      · dsimp only
        refine grantSelf_form ?_
        with_reducible assumption
      · dsimp only
        refine sendAck_form ?_
        with_reducible assumption
    · split
      · with_reducible assumption
      · extract_lets +onlyGivenNames z2
        clear_value z2
        split
        · dsimp only
          refine evictSet_form ?_
          with_reducible assumption
        · dsimp only
          refine serve_form ?_
          with_reducible assumption
  · with_reducible assumption

theorem takeAnswer_form {a0} {s : State} {a2} {a3} {a4} (h : MemForm s) :
    MemForm (takeAnswer a0 s a2 a3 a4) := by
  unfold takeAnswer
  split
  · with_reducible assumption
  · extract_lets +onlyGivenNames z0
    clear_value z0
    extract_lets +onlyGivenNames z1
    clear_value z1
    extract_lets +onlyGivenNames z2
    have hz2 : MemForm z2 := by
      unfold z2
      refine modDie_form ?_
      with_reducible assumption
    clear_value z2
    split
    · refine finishTx_form ?_
      with_reducible assumption
    · with_reducible assumption

theorem onFwd_form {s : State} {a1} {a2} {a3} (h : MemForm s) :
    MemForm (onFwd s a1 a2 a3) := by
  unfold onFwd
  extract_lets +onlyGivenNames z0
  have hz0 : MemForm z0.2.2.2 := by
    unfold z0
    refine holderAct_form ?_
    with_reducible assumption
  clear_value z0
  extract_lets +onlyGivenNames z1
  have hz1 : MemForm z1 := by
    unfold z1
    refine foldl_form (fun _ _ _ => ?_) ?_
    · split
      · with_reducible assumption
      · extract_lets +onlyGivenNames z2
        have hz2 : MemForm z2 := by
          unfold z2
          split
          · refine homePut_form ?_
            with_reducible assumption
          · with_reducible assumption
        clear_value z2
        refine sendData_form ?_
        with_reducible assumption
    · with_reducible assumption
  clear_value z1
  refine sendAck_form ?_
  with_reducible assumption

theorem onInv_form {s : State} {home holder q} (h : MemForm s) : MemForm (onInv s home holder q) := by
  unfold onInv
  exact sendAck_form (invAct_form h)

theorem onRecall_form {s : State} {a1} {a2} {a3} {a4} (h : MemForm s) :
    MemForm (onRecall s a1 a2 a3 a4) := by
  unfold onRecall
  extract_lets +onlyGivenNames z0
  have hz0 : MemForm z0.2.2.2 := by
    unfold z0
    refine holderAct_form ?_
    with_reducible assumption
  clear_value z0
  extract_lets +onlyGivenNames z1
  have hz1 : MemForm z1 := by
    unfold z1
    refine foldl_form (fun _ _ _ => ?_) ?_
    · refine sendBack_form ?_
      with_reducible assumption
    · with_reducible assumption
  clear_value z1
  refine sendAck_form ?_
  with_reducible assumption

theorem setOpResult_form {s : State} {a1} {a2} {a3} (h : MemForm s) :
    MemForm (setOpResult s a1 a2 a3) := by
  unfold setOpResult
  with_reducible assumption

theorem modHandle_form {s : State} {a1} {a2} {a3} (h : MemForm s) :
    MemForm (modHandle s a1 a2 a3) := by
  unfold modHandle
  with_reducible assumption

theorem completeReq_form {s : State} {a1} {a2} {a3} {a4} (h : MemForm s) :
    MemForm (completeReq s a1 a2 a3 a4) := by
  unfold completeReq
  extract_lets +onlyGivenNames z0
  have hz0 : MemForm z0 := by
    unfold z0
    refine modDie_form ?_
    with_reducible assumption
  clear_value z0
  split
  · with_reducible assumption
  · split
    · with_reducible assumption
    · with_reducible assumption
  · extract_lets +onlyGivenNames z1
    have hz1 : MemForm z1 := by
      unfold z1
      split
      · with_reducible assumption
      · split
        · refine dropBytes_form ?_
          with_reducible assumption
        · refine cleanBytes_form ?_
          with_reducible assumption
    clear_value z1
    extract_lets +onlyGivenNames z2
    have hz2 : MemForm z2 := by
      unfold z2
      split
      · refine modDie_form ?_
        with_reducible assumption
      · refine modDie_form ?_
        with_reducible assumption
    clear_value z2
    split
    · with_reducible assumption
    · refine setOpResult_form ?_
      split
      · refine modHandle_form ?_
        with_reducible assumption
      · with_reducible assumption
  · extract_lets +onlyGivenNames z1
    clear_value z1
    extract_lets +onlyGivenNames z2
    clear_value z2
    extract_lets +onlyGivenNames z3
    clear_value z3
    extract_lets +onlyGivenNames z4
    have hz4 : MemForm z4 := by
      unfold z4
      split
      · split
        · with_reducible assumption
        · refine modDie_form ?_
          with_reducible assumption
      · refine modDie_form ?_
        with_reducible assumption
    clear_value z4
    extract_lets +onlyGivenNames z5
    have hz5 : MemForm z5 := by
      unfold z5
      split
      · refine foldl_form (fun _ _ _ => ?_) ?_
        · refine sendBack_form ?_
          with_reducible assumption
        · with_reducible assumption
      · with_reducible assumption
    clear_value z5
    split
    · refine setOpResult_form ?_
      refine modHandle_form ?_
      with_reducible assumption
    · refine modHandle_form ?_
      with_reducible assumption
    · with_reducible assumption

theorem refuseReq_form {s : State} {a1} {a2} (h : MemForm s) :
    MemForm (refuseReq s a1 a2) := by
  unfold refuseReq
  extract_lets +onlyGivenNames z0
  have hz0 : MemForm z0 := by
    unfold z0
    refine modDie_form ?_
    with_reducible assumption
  clear_value z0
  split
  · refine setOpResult_form ?_
    refine modHandle_form ?_
    with_reducible assumption
  · with_reducible assumption

theorem settleMine_form {s : State} {a1} (h : MemForm s) :
    MemForm (settleMine s a1) := by
  unfold settleMine
  refine foldl_form (fun _ _ _ => ?_) ?_
  · split
    · split
      · refine refuseReq_form ?_
        with_reducible assumption
      · split
        · with_reducible assumption
        · refine completeReq_form ?_
          with_reducible assumption
    · with_reducible assumption
  · with_reducible assumption

theorem startSet_form {a0} {s : State} {a2} {a3} (h : MemForm s) :
    MemForm (startSet a0 s a2 a3) := by
  unfold startSet
  refine settleMine_form ?_
  refine startReqs_form ?_
  with_reducible assumption

theorem onInvAck_form {a0} {s : State} {a2} {a3} {a4} (h : MemForm s) :
    MemForm (onInvAck a0 s a2 a3 a4) := by
  unfold onInvAck
  refine settleMine_form ?_
  refine takeAnswer_form ?_
  with_reducible assumption

theorem onGrant_form {s : State} {a1} {a2} (h : MemForm s) :
    MemForm (onGrant s a1 a2) := by
  unfold onGrant
  split
  · with_reducible assumption
  · split
    · extract_lets +onlyGivenNames z0
      clear_value z0
      extract_lets +onlyGivenNames z1
      clear_value z1
      refine completeReq_form ?_
      refine modDie_form ?_
      with_reducible assumption
    · split
      · refine completeReq_form ?_
        with_reducible assumption
      · refine settleMine_form ?_
        refine modDie_form ?_
        with_reducible assumption

theorem onData_form {s : State} {a1} {a2} (h : MemForm s) :
    MemForm (onData s a1 a2) := by
  unfold onData
  split
  · extract_lets +onlyGivenNames z0
    have hz0 : MemForm z0 := by
      unfold z0
      split
      · refine rawPut_form ?_
        with_reducible assumption
      · with_reducible assumption
    clear_value z0
    split
    · refine completeReq_form ?_
      with_reducible assumption
    · refine settleMine_form ?_
      refine modDie_form ?_
      with_reducible assumption
  · refine homePut_form ?_
    with_reducible assumption

theorem onWbData_form {s : State} {a1} {a2} {a3} (h : MemForm s) :
    MemForm (onWbData s a1 a2 a3) := by
  unfold onWbData
  split
  · refine homePut_form ?_
    with_reducible assumption
  · extract_lets +onlyGivenNames z0
    clear_value z0
    extract_lets +onlyGivenNames z1
    clear_value z1
    extract_lets +onlyGivenNames z2
    have hz2 : MemForm z2 := by
      unfold z2
      split
      · refine modDie_form ?_
        with_reducible assumption
      · with_reducible assumption
    clear_value z2
    split
    · with_reducible assumption
    · refine sendAck_form ?_
      with_reducible assumption

theorem releaseBox_form {s : State} {a1} {a2} {a3} {a4} {a5} (h : MemForm s) :
    MemForm (releaseBox s a1 a2 a3 a4 a5) := by
  unfold releaseBox
  extract_lets +onlyGivenNames z0
  clear_value z0
  extract_lets +onlyGivenNames z1
  clear_value z1
  extract_lets +onlyGivenNames z2
  clear_value z2
  split
  · extract_lets +onlyGivenNames z3
    have hz3 : MemForm z3 := by
      unfold z3
      refine onWbData_form ?_
      refine setDie_form ?_
      with_reducible assumption
    clear_value z3
    refine completeReq_form ?_
    with_reducible assumption
  · extract_lets +onlyGivenNames z3
    have hz3 : MemForm z3 := by
      unfold z3
      refine setDie_form ?_
      with_reducible assumption
    clear_value z3
    extract_lets +onlyGivenNames z4
    have hz4 : MemForm z4 := by
      unfold z4
      refine foldl_form (fun _ _ _ => ?_) ?_
      · refine sendBack_form ?_
        with_reducible assumption
      · with_reducible assumption
    clear_value z4
    refine sendData_form ?_
    with_reducible assumption

theorem redirect_form {s : State} {a1} {a2} {a3} (h : MemForm s) :
    MemForm (redirect s a1 a2 a3) := by
  unfold redirect
  with_reducible assumption

theorem onNack_form {s : State} {a1} {a2} (h : MemForm s) :
    MemForm (onNack s a1 a2) := by
  unfold onNack
  split
  · with_reducible assumption
  · split
    · split
      · with_reducible assumption
      · extract_lets +onlyGivenNames z0
        clear_value z0
        extract_lets +onlyGivenNames z1
        clear_value z1
        extract_lets +onlyGivenNames z2
        have hz2 : MemForm z2 := by
          unfold z2
          refine redirect_form ?_
          with_reducible assumption
        clear_value z2
        extract_lets +onlyGivenNames z3
        have hz3 : MemForm z3 := by
          unfold z3
          refine modDie_form ?_
          with_reducible assumption
        clear_value z3
        split
        · refine arriveReq_form ?_
          with_reducible assumption
        · refine sendMsg_form ?_
          with_reducible assumption
    · split
      · refine modDie_form ?_
        with_reducible assumption
      · refine refuseReq_form ?_
        with_reducible assumption

theorem takeLine_form {s : State} {a1} {a2} (h : MemForm s) :
    MemForm (takeLine s a1 a2) := by
  unfold takeLine
  refine foldl_form (fun _ _ _ => ?_) ?_
  · extract_lets +onlyGivenNames z0
    have hz0 : MemForm z0.2.2.2 := by
      unfold z0
      refine holderAct_form ?_
      with_reducible assumption
    clear_value z0
    refine foldl_form (fun _ _ _ => ?_) ?_
    · refine homePut_form ?_
      with_reducible assumption
    · with_reducible assumption
  · with_reducible assumption

theorem useServed_form {s : State} {a1} (h : MemForm s) :
    MemForm (useServed s a1) := by
  unfold useServed
  with_reducible assumption

theorem resolveLine_form {s : State} {a1} {a2} (h : MemForm s) :
    MemForm (resolveLine s a1 a2) := by
  unfold resolveLine
  split
  · refine touch_form ?_
    with_reducible assumption
  · split
    · with_reducible assumption
    · split
      · split
        · with_reducible assumption
        · split
          · with_reducible assumption
          · split
            · refine useServed_form ?_
              with_reducible assumption
            · with_reducible assumption
      · split
        · with_reducible assumption
        · with_reducible assumption

theorem resolveLines_form {s : State} {a1} {a2} (h : MemForm s) :
    MemForm (resolveLines s a1 a2) := by
  unfold resolveLines
  refine foldl_form (fun _ _ _ => ?_) ?_
  · refine resolveLine_form ?_
    with_reducible assumption
  · with_reducible assumption

theorem postPut_form {s : State} {a1} (h : MemForm s) :
    MemForm (postPut s a1) := by
  unfold postPut
  refine homePut_form ?_
  refine foldl_form (fun _ _ _ => ?_) ?_
  · refine takeLine_form ?_
    with_reducible assumption
  · with_reducible assumption

theorem engPut_form {s : State} {a1} (h : MemForm s) :
    MemForm (engPut s a1) := by
  unfold engPut
  refine homePut_form ?_
  refine resolveLines_form ?_
  with_reducible assumption

theorem recallPage_form {s : State} {a1} {a2} (h : MemForm s) :
    MemForm (recallPage s a1 a2) := by
  unfold recallPage
  split
  · with_reducible assumption
  · split
    · with_reducible assumption
    · with_reducible assumption

theorem startRecall_form {s : State} {a1} {a2} (h : MemForm s) :
    MemForm (startRecall s a1 a2) := by
  unfold startRecall
  split
  · with_reducible assumption
  · split
    · with_reducible assumption
    · refine foldl_form (fun _ _ _ => ?_) ?_
      · refine takeBack_form ?_
        with_reducible assumption
      · with_reducible assumption

theorem askEngine_form {s : State} {a1} {a2} {a3} (h : MemForm s) :
    MemForm (askEngine s a1 a2 a3) := by
  unfold askEngine
  split
  · with_reducible assumption
  · split
    · with_reducible assumption
    · refine sendReq_form ?_
      with_reducible assumption

theorem askWant_form {a0} {s : State} {a2} (h : MemForm s) :
    MemForm (askWant a0 s a2) := by
  unfold askWant
  split
  · refine askEngine_form ?_
    with_reducible assumption
  · refine askLine_form ?_
    with_reducible assumption
  · refine startRecall_form ?_
    with_reducible assumption
  · with_reducible assumption

theorem setAD_form {s : State} {a1} {a2} (h : MemForm s) :
    MemForm (setAD s a1 a2) := by
  unfold setAD
  extract_lets +onlyGivenNames z0
  clear_value z0
  extract_lets +onlyGivenNames z1
  clear_value z1
  split
  · with_reducible assumption
  · refine engPut_form ?_
    with_reducible assumption

theorem fillTlb_form {s : State} {a1} {a2} {a3} {a4} (h : MemForm s) :
    MemForm (fillTlb s a1 a2 a3 a4) := by
  unfold fillTlb
  split
  · with_reducible assumption
  · split
    · with_reducible assumption
    · split
      · refine modCore_form ?_
        with_reducible assumption
      · split
        · split
          · with_reducible assumption
          · refine touch_form ?_
            with_reducible assumption
        · extract_lets +onlyGivenNames z0
          have hz0 : MemForm z0 := by
            unfold z0
            refine setAD_form ?_
            with_reducible assumption
          clear_value z0
          extract_lets +onlyGivenNames z1
          clear_value z1
          extract_lets +onlyGivenNames z2
          have hz2 : MemForm z2 := by
            unfold z2
            refine modCluster_form ?_
            with_reducible assumption
          clear_value z2
          refine modCore_form ?_
          with_reducible assumption

theorem fillRange_form {s : State} {a1} {a2} {a3} {a4} {a5} (h : MemForm s) :
    MemForm (fillRange s a1 a2 a3 a4 a5) := by
  unfold fillRange
  refine foldl_form (fun _ _ _ => ?_) ?_
  · refine fillTlb_form ?_
    with_reducible assumption
  · with_reducible assumption

theorem engMark_form {s : State} {a1} {a2} {a3} {a4} (h : MemForm s) :
    MemForm (engMark s a1 a2 a3 a4) := by
  unfold engMark
  refine foldl_form (fun _ _ _ => ?_) ?_
  · split
    · refine setAD_form ?_
      with_reducible assumption
    · split
      · with_reducible assumption
      · refine touch_form ?_
        with_reducible assumption
  · with_reducible assumption

theorem engWrite_form {s : State} {a1} {a2} {a3} (h : MemForm s) :
    MemForm (engWrite s a1 a2 a3) := by
  unfold engWrite
  extract_lets +onlyGivenNames z0
  clear_value z0
  refine clearCovered_form ?_
  refine engPut_form ?_
  refine engMark_form ?_
  with_reducible assumption

theorem engPoison_form {s : State} {a1} {a2} (h : MemForm s) :
    MemForm (engPoison s a1 a2) := by
  unfold engPoison
  refine foldl_form (fun _ _ _ => ?_) ?_
  · refine setPoison_form ?_
    with_reducible assumption
  · with_reducible assumption

theorem setGroup_form {s : State} {a1} {a2} (h : MemForm s) :
    MemForm (setGroup s a1 a2) := by
  unfold setGroup
  with_reducible assumption

theorem modGroup_form {s : State} {a1} {a2} (h : MemForm s) :
    MemForm (modGroup s a1 a2) := by
  unfold modGroup
  with_reducible assumption

theorem modTeam_form {s : State} {a1} {a2} (h : MemForm s) :
    MemForm (modTeam s a1 a2) := by
  unfold modTeam
  with_reducible assumption

theorem modLaunch_form {s : State} {a1} {a2} (h : MemForm s) :
    MemForm (modLaunch s a1 a2) := by
  unfold modLaunch
  with_reducible assumption

theorem modCtx_form {s : State} {a1} {a2} (h : MemForm s) :
    MemForm (modCtx s a1 a2) := by
  unfold modCtx
  with_reducible assumption

theorem modSlot_form {s : State} {a1} {a2} {a3} (h : MemForm s) :
    MemForm (modSlot s a1 a2 a3) := by
  unfold modSlot
  refine modGroup_form ?_
  with_reducible assumption

theorem setCyc_form {s : State} {a1} {a2} {a3} (h : MemForm s) :
    MemForm (setCyc s a1 a2 a3) := by
  unfold setCyc
  with_reducible assumption

theorem freshId_form {s : State} (h : MemForm s) :
    MemForm (freshId s).1 := by
  unfold freshId
  with_reducible assumption

theorem postMsg_form {s : State} {a1} {a2} {a3} {a4} (h : MemForm s) :
    MemForm (postMsg s a1 a2 a3 a4).1 := by
  unfold postMsg
  extract_lets +onlyGivenNames z0
  have hz0 : MemForm z0.1 := by
    unfold z0
    refine freshId_form ?_
    with_reducible assumption
  clear_value z0
  with_reducible assumption

theorem raiseFault_form {s : State} {a1} {a2} {a3} {a4} {a5} (h : MemForm s) :
    MemForm (raiseFault s a1 a2 a3 a4 a5) := by
  unfold raiseFault
  split
  · with_reducible assumption
  · extract_lets +onlyGivenNames z0
    have hz0 : MemForm z0 := by
      unfold z0
      with_reducible assumption
    clear_value z0
    refine postMsg_form ?_
    with_reducible assumption

theorem requestPreempt_form {s : State} {a1} {a2} (h : MemForm s) :
    MemForm (requestPreempt s a1 a2) := by
  unfold requestPreempt
  refine modTeam_form ?_
  with_reducible assumption

theorem forcePreempt_form {s : State} {a1} {a2} (h : MemForm s) :
    MemForm (forcePreempt s a1 a2) := by
  unfold forcePreempt
  refine modTeam_form ?_
  with_reducible assumption

theorem parkTeam_form {s : State} {a1} {a2} {a3} (h : MemForm s) :
    MemForm (parkTeam s a1 a2 a3) := by
  unfold parkTeam
  refine modTeam_form ?_
  refine forcePreempt_form ?_
  with_reducible assumption

theorem schedEvent_form {s : State} (h : MemForm s) :
    MemForm (schedEvent s) := by
  unfold schedEvent
  with_reducible assumption

theorem traceWrite_form {s : State} {a1} {a2} (h : MemForm s) :
    MemForm (traceWrite s a1 a2).1 := by
  unfold traceWrite
  extract_lets +onlyGivenNames z0
  clear_value z0
  extract_lets +onlyGivenNames z1
  clear_value z1
  extract_lets +onlyGivenNames z2
  clear_value z2
  extract_lets +onlyGivenNames z3
  clear_value z3
  extract_lets +onlyGivenNames z4
  clear_value z4
  extract_lets +onlyGivenNames z5
  clear_value z5
  extract_lets +onlyGivenNames z6
  clear_value z6
  extract_lets +onlyGivenNames z7
  clear_value z7
  dsimp only
  refine setCluster_form ?_
  with_reducible assumption

theorem modTrace_form {s : State} {a1} {a2} (h : MemForm s) :
    MemForm (modTrace s a1 a2) := by
  unfold modTrace
  refine modGroup_form ?_
  with_reducible assumption

theorem emitSyncOf_form {a0} {s : State} {a2} {a3} {a4} {a5} (h : MemForm s) :
    MemForm (emitSyncOf a0 s a2 a3 a4 a5) := by
  unfold emitSyncOf
  split
  · with_reducible assumption
  · extract_lets +onlyGivenNames z0
    clear_value z0
    split
    · refine modTrace_form ?_
      with_reducible assumption
    · extract_lets +onlyGivenNames z1
      have hz1 : MemForm z1.1 := by
        unfold z1
        refine traceWrite_form ?_
        with_reducible assumption
      clear_value z1
      refine modTrace_form ?_
      with_reducible assumption

theorem emitSync_form {s : State} {a1} {a2} {a3} {a4} (h : MemForm s) :
    MemForm (emitSync s a1 a2 a3 a4) := by
  unfold emitSync
  refine emitSyncOf_form ?_
  with_reducible assumption

theorem emitPkt_form {a0} {s : State} {a2} {a3} {a4} {a5} {a6} (h : MemForm s) :
    MemForm (emitPkt a0 s a2 a3 a4 a5 a6) := by
  unfold emitPkt
  split
  · with_reducible assumption
  · split
    · refine modTrace_form ?_
      with_reducible assumption
    · extract_lets +onlyGivenNames z0
      clear_value z0
      extract_lets +onlyGivenNames z1
      clear_value z1
      extract_lets +onlyGivenNames z2
      have hz2 : MemForm z2 := by
        unfold z2
        split
        · with_reducible assumption
        · split
          · refine emitSyncOf_form ?_
            with_reducible assumption
          · split
            · refine emitSyncOf_form ?_
              with_reducible assumption
            · with_reducible assumption
      clear_value z2
      extract_lets +onlyGivenNames z3
      clear_value z3
      extract_lets +onlyGivenNames z4
      clear_value z4
      split
      · extract_lets +onlyGivenNames z5
        clear_value z5
        extract_lets +onlyGivenNames z6
        have hz6 : MemForm z6.1 := by
          unfold z6
          refine traceWrite_form ?_
          with_reducible assumption
        clear_value z6
        split
        · refine modTrace_form ?_
          with_reducible assumption
        · with_reducible assumption
      · extract_lets +onlyGivenNames z5
        have hz5 : MemForm z5.1 := by
          unfold z5
          refine traceWrite_form ?_
          with_reducible assumption
        clear_value z5
        split
        · refine modTrace_form ?_
          with_reducible assumption
        · refine modTrace_form ?_
          with_reducible assumption

theorem emitBr_form {a0} {s : State} {a2} {a3} {a4} (h : MemForm s) :
    MemForm (emitBr a0 s a2 a3 a4) := by
  unfold emitBr
  refine emitPkt_form ?_
  with_reducible assumption

theorem emitBrX_form {a0} {s : State} {a2} {a3} {a4} (h : MemForm s) :
    MemForm (emitBrX a0 s a2 a3 a4) := by
  unfold emitBrX
  refine emitPkt_form ?_
  with_reducible assumption

theorem emitDiv_form {a0} {s : State} {a2} {a3} {a4} {a5} {a6} {a7} (h : MemForm s) :
    MemForm (emitDiv a0 s a2 a3 a4 a5 a6 a7) := by
  unfold emitDiv
  refine emitPkt_form ?_
  with_reducible assumption

theorem emitJoin_form {a0} {s : State} {a2} {a3} {a4} {a5} (h : MemForm s) :
    MemForm (emitJoin a0 s a2 a3 a4 a5) := by
  unfold emitJoin
  extract_lets +onlyGivenNames z0
  clear_value z0
  refine emitPkt_form ?_
  with_reducible assumption

theorem emitExit_form {a0} {s : State} {a2} {a3} {a4} (h : MemForm s) :
    MemForm (emitExit a0 s a2 a3 a4) := by
  unfold emitExit
  refine emitPkt_form ?_
  with_reducible assumption

theorem putV_form {a0} {a1} {s : State} (h : MemForm s) :
    MemForm (putV a0 a1 s) := by
  unfold putV
  refine modGroup_form ?_
  with_reducible assumption

theorem putS_form {a0} {a1} {s : State} (h : MemForm s) :
    MemForm (putS a0 a1 s) := by
  unfold putS
  refine modGroup_form ?_
  with_reducible assumption

theorem putL_form {a0} {a1} {a2} {a3} {a4} {s : State} (h : MemForm s) :
    MemForm (putL a0 a1 a2 a3 a4 s) := by
  unfold putL
  refine modGroup_form ?_
  with_reducible assumption

theorem withDst_form {a0} {a1} {s : State} (h : MemForm s) :
    MemForm (withDst a0 a1 s) := by
  unfold withDst
  refine modGroup_form ?_
  with_reducible assumption

theorem putLres_form {a0} {a1} {a2} {s : State} (h : MemForm s) :
    MemForm (putLres a0 a1 a2 s) := by
  unfold putLres
  refine putL_form ?_
  with_reducible assumption

theorem putNow_form {a0} {a1} {s : State} (h : MemForm s) :
    MemForm (putNow a0 a1 s) := by
  unfold putNow
  refine modGroup_form ?_
  with_reducible assumption

theorem stackStore_form {s : State} {a1} {a2} {a3} (h : MemForm s) :
    MemForm (stackStore s a1 a2 a3) := by
  unfold stackStore
  extract_lets +onlyGivenNames z0
  clear_value z0
  refine engPut_form ?_
  with_reducible assumption

theorem pushEntry_form {s : State} {a1} {a2} (h : MemForm s) :
    MemForm (pushEntry s a1 a2) := by
  unfold pushEntry
  refine stackStore_form ?_
  refine modGroup_form ?_
  with_reducible assumption

theorem applyRulesN_form {ss : Option PSlot} {n : Nat} {s : State} {g : Nat} (h : MemForm s) : MemForm (applyRulesN ss n s g) := by
  induction n generalizing s with
  | zero => exact h
  | succ n ih =>
    unfold applyRulesN
    split
    · exact h
    · dsimp only
      refine ih ?_
      split
      · split
        · exact stackStore_form (bump_form (setGroup_form h))
        · exact bump_form (setGroup_form h)
      · refine emitJoin_form ?_
        split
        · exact stackStore_form (bump_form (setGroup_form h))
        · exact bump_form (setGroup_form h)

theorem stackFill_form {s : State} {a1} {a2} (h : MemForm s) :
    MemForm (stackFill s a1 a2) := by
  unfold stackFill
  refine foldl_form (fun _ _ _ => ?_) ?_
  · refine fillRange_form ?_
    with_reducible assumption
  · with_reducible assumption

theorem applyRules_form {s : State} {a1} {a2} (h : MemForm s) :
    MemForm (applyRules s a1 a2) := by
  unfold applyRules
  extract_lets +onlyGivenNames z0
  clear_value z0
  extract_lets +onlyGivenNames z1
  clear_value z1
  extract_lets +onlyGivenNames z2
  have hz2 : MemForm z2 := by
    unfold z2
    refine stackFill_form ?_
    with_reducible assumption
  clear_value z2
  split
  · refine applyRulesN_form ?_
    with_reducible assumption
  · refine parkTeam_form ?_
    refine raiseFault_form ?_
    with_reducible assumption

theorem resumeRules_form {s : State} {a1} (h : MemForm s) :
    MemForm (resumeRules s a1) := by
  unfold resumeRules
  extract_lets +onlyGivenNames z0
  clear_value z0
  extract_lets +onlyGivenNames z1
  have hz1 : MemForm z1 := by
    unfold z1
    refine modGroup_form ?_
    with_reducible assumption
  clear_value z1
  extract_lets +onlyGivenNames z2
  clear_value z2
  split
  · refine applyRules_form ?_
    with_reducible assumption
  · refine parkTeam_form ?_
    refine raiseFault_form ?_
    with_reducible assumption

theorem forkSlot_form {s : State} {a1} {a2} {a3} (h : MemForm s) :
    MemForm (forkSlot s a1 a2 a3) := by
  unfold forkSlot
  refine modGroup_form ?_
  with_reducible assumption

theorem diverge_form {a0} {a1} {a2} {a3} {a4} {s : State} (h : MemForm s) :
    MemForm (diverge a0 a1 a2 a3 a4 s) := by
  unfold diverge
  extract_lets +onlyGivenNames z0
  clear_value z0
  extract_lets +onlyGivenNames z1
  clear_value z1
  extract_lets +onlyGivenNames z2
  have hz2 : MemForm z2 := by
    unfold z2
    split
    · refine modSlot_form ?_
      refine forkSlot_form ?_
      with_reducible assumption
    · refine pushEntry_form ?_
      refine forkSlot_form ?_
      with_reducible assumption
  clear_value z2
  refine modSlot_form ?_
  with_reducible assumption

theorem unheld_form {s : State} {a1} (h : MemForm s) :
    MemForm (unheld s a1) := by
  unfold unheld
  with_reducible assumption

theorem wantWrite_form {s : State} {a1} {a2} (h : MemForm s) :
    MemForm (wantWrite s a1 a2) := by
  unfold wantWrite
  with_reducible assumption

theorem flushL1_form {s : State} {a1} (h : MemForm s) :
    MemForm (flushL1 s a1) := by
  unfold flushL1
  refine foldl_form (fun _ _ _ => ?_) ?_
  · extract_lets +onlyGivenNames z0
    have hz0 : MemForm z0.1 := by
      unfold z0
      refine wbL1_form ?_
      with_reducible assumption
    clear_value z0
    split
    · with_reducible assumption
    · refine wantWrite_form ?_
      with_reducible assumption
  · with_reducible assumption

theorem flushCC_form {s : State} {a1} (h : MemForm s) :
    MemForm (flushCC s a1) := by
  unfold flushCC
  refine foldl_form (fun _ _ _ => ?_) ?_
  · extract_lets +onlyGivenNames z0
    have hz0 : MemForm z0.1 := by
      unfold z0
      refine wbCC_form ?_
      with_reducible assumption
    clear_value z0
    split
    · with_reducible assumption
    · refine wantWrite_form ?_
      with_reducible assumption
  · with_reducible assumption

theorem leaveCache_form {s : State} {a1} (h : MemForm s) :
    MemForm (leaveCache s a1) := by
  unfold leaveCache
  extract_lets +onlyGivenNames z0
  clear_value z0
  extract_lets +onlyGivenNames z1
  have hz1 : MemForm z1 := by
    unfold z1
    refine foldl_form (fun _ _ _ => ?_) ?_
    · extract_lets +onlyGivenNames z2
      have hz2 : MemForm z2.1 := by
        unfold z2
        refine wbCC_form ?_
        with_reducible assumption
      clear_value z2
      split
      · with_reducible assumption
      · refine wantWrite_form ?_
        with_reducible assumption
    · with_reducible assumption
  clear_value z1
  refine modCluster_form ?_
  refine bump_form ?_
  with_reducible assumption

theorem releaseCore_form {s : State} {a1} (h : MemForm s) :
    MemForm (releaseCore s a1) := by
  unfold releaseCore
  refine flushCC_form ?_
  refine flushL1_form ?_
  with_reducible assumption

theorem pushPair_form {s : State} {a1} (h : MemForm s) :
    MemForm (pushPair s a1) := by
  unfold pushPair
  extract_lets +onlyGivenNames z0
  clear_value z0
  refine foldl_form (fun _ _ _ => ?_) ?_
  · extract_lets +onlyGivenNames z1
    have hz1 : MemForm z1 := by
      unfold z1
      refine foldl_form (fun _ _ _ => ?_) ?_
      · refine sendBack_form ?_
        with_reducible assumption
      · with_reducible assumption
    clear_value z1
    refine modDie_form ?_
    with_reducible assumption
  · with_reducible assumption

theorem pushPairs_form {s : State} (h : MemForm s) :
    MemForm (pushPairs s) := by
  unfold pushPairs
  refine foldl_form (fun _ _ _ => ?_) ?_
  · refine pushPair_form ?_
    with_reducible assumption
  · with_reducible assumption

theorem keepLine_form {s : State} {a1} {a2} {a3} (h : MemForm s) :
    MemForm (keepLine s a1 a2 a3) := by
  unfold keepLine
  extract_lets +onlyGivenNames z0
  have hz0 : MemForm z0 := by
    unfold z0
    refine foldl_form (fun _ _ _ => ?_) ?_
    · refine sendBack_form ?_
      split
      · refine homePut_form ?_
        with_reducible assumption
      · with_reducible assumption
    · with_reducible assumption
  clear_value z0
  refine cleanBytes_form ?_
  with_reducible assumption

theorem pairRelease_form {s : State} (h : MemForm s) :
    MemForm (pairRelease s) := by
  unfold pairRelease
  extract_lets +onlyGivenNames z0
  have hz0 : MemForm z0 := by
    unfold z0
    refine pushPairs_form ?_
    with_reducible assumption
  clear_value z0
  split
  · with_reducible assumption
  · with_reducible assumption

theorem releaseAll_form {s : State} (h : MemForm s) :
    MemForm (releaseAll s) := by
  unfold releaseAll
  extract_lets +onlyGivenNames z0
  have hz0 : MemForm z0 := by
    unfold z0
    refine foldl_form (fun _ _ _ => ?_) ?_
    · refine flushL1_form ?_
      with_reducible assumption
    · with_reducible assumption
  clear_value z0
  refine pushPairs_form ?_
  refine foldl_form (fun _ _ _ => ?_) ?_
  · refine flushCC_form ?_
    with_reducible assumption
  · with_reducible assumption

theorem acquireCore_form {s : State} {a1} {a2} (h : MemForm s) :
    MemForm (acquireCore s a1 a2) := by
  unfold acquireCore
  extract_lets +onlyGivenNames z0
  clear_value z0
  extract_lets +onlyGivenNames z1
  have hz1 : MemForm z1 := by
    unfold z1
    refine modCore_form ?_
    with_reducible assumption
  clear_value z1
  split
  · refine modCluster_form ?_
    with_reducible assumption
  · with_reducible assumption

theorem headerPins_form {s : State} {a1} {a2} {a3} {a4} {a5} (h : MemForm s) :
    MemForm (headerPins s a1 a2 a3 a4 a5) := by
  unfold headerPins
  split
  · split
    · extract_lets +onlyGivenNames z0
      have hz0 : MemForm z0 := by
        unfold z0
        refine raiseFault_form ?_
        with_reducible assumption
      clear_value z0
      with_reducible assumption
    · with_reducible assumption
  · extract_lets +onlyGivenNames z0
    clear_value z0
    extract_lets +onlyGivenNames z1
    have hz1 : MemForm z1 := by
      unfold z1
      refine setAD_form ?_
      with_reducible assumption
    clear_value z1
    split
    · with_reducible assumption
    · refine engPut_form ?_
      with_reducible assumption

theorem releasePins_form {s : State} {a1} (h : MemForm s) :
    MemForm (releasePins s a1) := by
  unfold releasePins
  extract_lets +onlyGivenNames z0
  clear_value z0
  refine modGroup_form ?_
  refine foldl_form (fun _ _ _ => ?_) ?_
  · refine headerPins_form ?_
    with_reducible assumption
  · with_reducible assumption

theorem modBox_form {s : State} {a1} {a2} (h : MemForm s) :
    MemForm (modBox s a1 a2) := by
  unfold modBox
  with_reducible assumption

theorem freeEntry_form {s : State} {a1} {a2} (h : MemForm s) :
    MemForm (freeEntry s a1 a2) := by
  unfold freeEntry
  refine modBox_form ?_
  with_reducible assumption

theorem charge_form {s : State} {a1} (h : MemForm s) :
    MemForm (charge s a1) := by
  unfold charge
  extract_lets +onlyGivenNames z0
  clear_value z0
  extract_lets +onlyGivenNames z1
  clear_value z1
  extract_lets +onlyGivenNames z2
  clear_value z2
  extract_lets +onlyGivenNames z3
  have hz3 : MemForm z3 := by
    unfold z3
    refine modTeam_form ?_
    with_reducible assumption
  clear_value z3
  extract_lets +onlyGivenNames z4
  have hz4 : MemForm z4 := by
    unfold z4
    refine modLaunch_form ?_
    with_reducible assumption
  clear_value z4
  split
  · with_reducible assumption
  · refine modBox_form ?_
    with_reducible assumption

theorem startSlice_form {s : State} {a1} (h : MemForm s) :
    MemForm (startSlice s a1) := by
  unfold startSlice
  extract_lets +onlyGivenNames z0
  clear_value z0
  extract_lets +onlyGivenNames z1
  clear_value z1
  extract_lets +onlyGivenNames z2
  clear_value z2
  split
  · refine modTeam_form ?_
    with_reducible assumption
  · refine modCtx_form ?_
    refine modTeam_form ?_
    with_reducible assumption

theorem payOverrun_form {s : State} {a1} (h : MemForm s) :
    MemForm (payOverrun s a1) := by
  unfold payOverrun
  extract_lets +onlyGivenNames z0
  clear_value z0
  split
  · refine modTeam_form ?_
    refine modCtx_form ?_
    with_reducible assumption
  · with_reducible assumption

theorem endLaunch_form {s : State} {a1} {a2} {a3} (h : MemForm s) :
    MemForm (endLaunch s a1 a2 a3) := by
  unfold endLaunch
  extract_lets +onlyGivenNames z0
  clear_value z0
  extract_lets +onlyGivenNames z1
  clear_value z1
  extract_lets +onlyGivenNames z2
  have hz2 : MemForm z2 := by
    unfold z2
    split
    · with_reducible assumption
    · refine releaseAll_form ?_
      with_reducible assumption
  clear_value z2
  extract_lets +onlyGivenNames z3
  have hz3 : MemForm z3 := by
    unfold z3
    split
    · refine postMsg_form ?_
      with_reducible assumption
    · split
      · refine postMsg_form ?_
        with_reducible assumption
      · with_reducible assumption
  clear_value z3
  refine freeEntry_form ?_
  with_reducible assumption

theorem vacateWin_form {s : State} {a1} (h : MemForm s) :
    MemForm (vacateWin s a1) := by
  unfold vacateWin
  extract_lets +onlyGivenNames z0
  clear_value z0
  split
  · with_reducible assumption
  · with_reducible assumption

theorem retireTeam_form {s : State} {a1} (h : MemForm s) :
    MemForm (retireTeam s a1) := by
  unfold retireTeam
  extract_lets +onlyGivenNames z0
  clear_value z0
  split
  · with_reducible assumption
  · refine schedEvent_form ?_
    refine modTeam_form ?_
    split
    · with_reducible assumption
    · refine charge_form ?_
      refine payOverrun_form ?_
      with_reducible assumption

theorem endTeam_form {s : State} {a1} {a2} (h : MemForm s) :
    MemForm (endTeam s a1 a2) := by
  unfold endTeam
  extract_lets +onlyGivenNames z0
  clear_value z0
  extract_lets +onlyGivenNames z1
  have hz1 : MemForm z1 := by
    unfold z1
    refine modTeam_form ?_
    with_reducible assumption
  clear_value z1
  extract_lets +onlyGivenNames z2
  have hz2 : MemForm z2 := by
    unfold z2
    split
    · refine vacateWin_form ?_
      with_reducible assumption
    · with_reducible assumption
  clear_value z2
  extract_lets +onlyGivenNames z3
  have hz3 : MemForm z3 := by
    unfold z3
    split
    · refine schedEvent_form ?_
      with_reducible assumption
    · with_reducible assumption
  clear_value z3
  refine modLaunch_form ?_
  with_reducible assumption

theorem settleLaunch_form {s : State} {a1} (h : MemForm s) :
    MemForm (settleLaunch s a1) := by
  unfold settleLaunch
  split
  · with_reducible assumption
  · split
    · with_reducible assumption
    · extract_lets +onlyGivenNames z0
      have hz0 : MemForm z0 := by
        unfold z0
        refine releaseAll_form ?_
        with_reducible assumption
      clear_value z0
      split
      · refine endLaunch_form ?_
        with_reducible assumption
      · with_reducible assumption

theorem settleLaunches_form {s : State} (h : MemForm s) :
    MemForm (settleLaunches s) := by
  unfold settleLaunches
  refine foldl_form (fun _ _ _ => ?_) ?_
  · refine settleLaunch_form ?_
    with_reducible assumption
  · with_reducible assumption

theorem settleTeam_form {s : State} {a1} (h : MemForm s) :
    MemForm (settleTeam s a1) := by
  unfold settleTeam
  extract_lets +onlyGivenNames z0
  clear_value z0
  extract_lets +onlyGivenNames z1
  have hz1 : MemForm z1 := by
    unfold z1
    with_reducible assumption
  clear_value z1
  extract_lets +onlyGivenNames z2
  have hz2 : MemForm z2 := by
    unfold z2
    refine retireTeam_form ?_
    with_reducible assumption
  clear_value z2
  extract_lets +onlyGivenNames z3
  have hz3 : MemForm z3 := by
    unfold z3
    split
    · refine endTeam_form ?_
      with_reducible assumption
    · with_reducible assumption
  clear_value z3
  split
  · refine settleLaunch_form ?_
    with_reducible assumption
  · with_reducible assumption

theorem placeUnit_form {s : State} {a1} {a2} {a3} (h : MemForm s) :
    MemForm (placeUnit s a1 a2 a3) := by
  unfold placeUnit
  split
  · with_reducible assumption
  · refine modLaunch_form ?_
    with_reducible assumption

theorem startTeam_form {s : State} {a1} {a2} {a3} (h : MemForm s) :
    MemForm (startTeam s a1 a2 a3) := by
  unfold startTeam
  extract_lets +onlyGivenNames z0
  clear_value z0
  extract_lets +onlyGivenNames z1
  have hz1 : MemForm z1.1 := by
    unfold z1
    refine freshId_form ?_
    with_reducible assumption
  clear_value z1
  extract_lets +onlyGivenNames z2
  have hz2 : MemForm z2 := by
    unfold z2
    refine acquireCore_form ?_
    with_reducible assumption
  clear_value z2
  extract_lets +onlyGivenNames z3
  clear_value z3
  extract_lets +onlyGivenNames z4
  have hz4 : MemForm z4 := by
    unfold z4
    refine startSlice_form ?_
    refine placeUnit_form ?_
    with_reducible assumption
  clear_value z4
  refine foldl_form (fun _ _ _ => ?_) ?_
  · extract_lets +onlyGivenNames z5
    have hz5 : MemForm z5.1 := by
      unfold z5
      refine freshId_form ?_
      with_reducible assumption
    clear_value z5
    refine setGroup_form ?_
    with_reducible assumption
  · with_reducible assumption

theorem startGang_form {s : State} {a1} {a2} (h : MemForm s) :
    MemForm (startGang s a1 a2) := by
  unfold startGang
  extract_lets +onlyGivenNames z0
  clear_value z0
  extract_lets +onlyGivenNames z1
  clear_value z1
  refine foldl_form (fun _ _ _ => ?_) ?_
  · extract_lets +onlyGivenNames z2
    clear_value z2
    extract_lets +onlyGivenNames z3
    clear_value z3
    extract_lets +onlyGivenNames z4
    have hz4 : MemForm z4.1 := by
      unfold z4
      refine freshId_form ?_
      with_reducible assumption
    clear_value z4
    extract_lets +onlyGivenNames z5
    have hz5 : MemForm z5 := by
      unfold z5
      with_reducible assumption
    clear_value z5
    extract_lets +onlyGivenNames z6
    have hz6 : MemForm z6 := by
      unfold z6
      with_reducible assumption
    clear_value z6
    refine foldl_form (fun _ _ _ => ?_) ?_
    · refine startTeam_form ?_
      with_reducible assumption
    · with_reducible assumption
  · with_reducible assumption

theorem dispatchNext_form {s : State} {a1} {a2} (h : MemForm s) :
    ∀ {t}, dispatchNext s a1 a2 = some t → MemForm t := by
  unfold dispatchNext
  intro t ht
  extract_lets +onlyGivenNames z0 at ht
  clear_value z0
  split at ht
  · cases ht
  · extract_lets +onlyGivenNames z1 at ht
    clear_value z1
    split at ht
    · cases ht
      refine settleLaunch_form ?_
      refine modLaunch_form ?_
      with_reducible assumption
    · split at ht
      · cases ht
      · cases ht
        refine startGang_form ?_
        refine modLaunch_form ?_
        with_reducible assumption

theorem dispatchWhile_form {cond : State → Bool} {n : Nat} {s : State} {mb : Nat} (h : MemForm s) : MemForm (dispatchWhile cond n s mb).1 := by
  induction n generalizing s with
  | zero => exact h
  | succ n ih =>
    unfold dispatchWhile
    split
    · exact h
    · split
      · exact h
      · split
        · exact h
        · split
          · exact h
          · exact ih (dispatchNext_form h (by assumption))

theorem round_form {s : State} (h : MemForm s) :
    MemForm (round s).1 := by
  unfold round
  extract_lets +onlyGivenNames z0
  clear_value z0
  extract_lets +onlyGivenNames z1
  have hz1 : MemForm z1.1 := by
    unfold z1
    refine foldl_form1 (fun _ _ _ => ?_) ?_
    · extract_lets +onlyGivenNames z2
      have hz2 : MemForm z2 := by
        unfold z2
        with_reducible assumption
      clear_value z2
      split
      · dsimp only
        refine modBox_form ?_
        with_reducible assumption
      · extract_lets +onlyGivenNames z3
        have hz3 : MemForm z3 := by
          unfold z3
          refine modBox_form ?_
          with_reducible assumption
        clear_value z3
        extract_lets +onlyGivenNames z4
        have hz4 : MemForm z4.1 := by
          unfold z4
          refine dispatchWhile_form ?_
          with_reducible assumption
        clear_value z4
        with_reducible assumption
    · with_reducible assumption
  clear_value z1
  refine foldl_form1 (fun _ _ _ => ?_) ?_
  · extract_lets +onlyGivenNames z2
    have hz2 : MemForm z2.1 := by
      unfold z2
      refine dispatchWhile_form ?_
      with_reducible assumption
    clear_value z2
    with_reducible assumption
  · with_reducible assumption

theorem rounds_form {n : Nat} {s : State} (h : MemForm s) : MemForm (rounds n s) := by
  induction n generalizing s with
  | zero => exact h
  | succ n ih =>
    unfold rounds
    dsimp only
    split
    · exact ih (round_form h)
    · exact round_form h

theorem eventRounds_form {n : Nat} {s : State} (h : MemForm s) : MemForm (eventRounds n s) := by
  induction n generalizing s with
  | zero => exact h
  | succ n ih => exact ih (rounds_form h)

theorem schedule_form {s : State} (h : MemForm s) :
    MemForm (schedule s) := by
  unfold schedule
  split
  · with_reducible assumption
  · extract_lets +onlyGivenNames z0
    have hz0 : MemForm z0 := by
      unfold z0
      refine foldl_form (fun _ _ _ => ?_) ?_
      · refine dispatchWhile_form ?_
        with_reducible assumption
      · with_reducible assumption
    clear_value z0
    extract_lets +onlyGivenNames z1
    clear_value z1
    split
    · with_reducible assumption
    · refine eventRounds_form ?_
      with_reducible assumption

theorem retireGroup_form {s : State} {a1} (h : MemForm s) :
    MemForm (retireGroup s a1) := by
  unfold retireGroup
  extract_lets +onlyGivenNames z0
  clear_value z0
  extract_lets +onlyGivenNames z1
  have hz1 : MemForm z1 := by
    unfold z1
    refine releasePins_form ?_
    with_reducible assumption
  clear_value z1
  extract_lets +onlyGivenNames z2
  have hz2 : MemForm z2 := by
    unfold z2
    refine modGroup_form ?_
    with_reducible assumption
  clear_value z2
  refine schedule_form ?_
  refine settleTeam_form ?_
  with_reducible assumption

theorem afterOp_form {s : State} {a1} (h : MemForm s) :
    MemForm (afterOp s a1) := by
  unfold afterOp
  split
  · refine schedule_form ?_
    refine settleTeam_form ?_
    with_reducible assumption
  · with_reducible assumption

theorem saveTeam_form {s : State} {a1} (h : MemForm s) :
    MemForm (saveTeam s a1) := by
  unfold saveTeam
  extract_lets +onlyGivenNames z0
  clear_value z0
  split
  · with_reducible assumption
  · extract_lets +onlyGivenNames z1
    have hz1 : MemForm z1 := by
      unfold z1
      refine releaseCore_form ?_
      with_reducible assumption
    clear_value z1
    extract_lets +onlyGivenNames z2
    have hz2 : MemForm z2 := by
      unfold z2
      split
      · refine pairRelease_form ?_
        with_reducible assumption
      · with_reducible assumption
    clear_value z2
    extract_lets +onlyGivenNames z3
    have hz3 : MemForm z3 := by
      unfold z3
      refine charge_form ?_
      refine payOverrun_form ?_
      with_reducible assumption
    clear_value z3
    extract_lets +onlyGivenNames z4
    have hz4 : MemForm z4 := by
      unfold z4
      refine foldl_form (fun _ _ _ => ?_) ?_
      · refine modGroup_form ?_
        with_reducible assumption
      · with_reducible assumption
    clear_value z4
    extract_lets +onlyGivenNames z5
    clear_value z5
    extract_lets +onlyGivenNames z6
    have hz6 : MemForm z6.1 := by
      unfold z6
      refine freshId_form ?_
      refine schedEvent_form ?_
      with_reducible assumption
    clear_value z6
    refine modTeam_form ?_
    with_reducible assumption

theorem flushTeam_form {s : State} {a1} (h : MemForm s) :
    MemForm (flushTeam s a1) := by
  unfold flushTeam
  extract_lets +onlyGivenNames z0
  clear_value z0
  extract_lets +onlyGivenNames z1
  clear_value z1
  extract_lets +onlyGivenNames z2
  have hz2 : MemForm z2 := by
    unfold z2
    refine foldl_form (fun _ _ _ => ?_) ?_
    · refine releasePins_form ?_
      refine emitSync_form ?_
      with_reducible assumption
    · with_reducible assumption
  clear_value z2
  extract_lets +onlyGivenNames z3
  have hz3 : MemForm z3 := by
    unfold z3
    refine schedEvent_form ?_
    refine payOverrun_form ?_
    with_reducible assumption
  clear_value z3
  extract_lets +onlyGivenNames z4
  have hz4 : MemForm z4 := by
    unfold z4
    with_reducible assumption
  clear_value z4
  extract_lets +onlyGivenNames z5
  have hz5 : MemForm z5 := by
    unfold z5
    split
    · with_reducible assumption
    · with_reducible assumption
  clear_value z5
  refine modLaunch_form ?_
  with_reducible assumption

theorem rehome_form {s : State} {a1} {a2} (h : MemForm s) :
    MemForm (rehome s a1 a2) := by
  unfold rehome
  extract_lets +onlyGivenNames z0
  clear_value z0
  refine foldl_form (fun _ _ _ => ?_) ?_
  · extract_lets +onlyGivenNames z1
    have hz1 : MemForm z1 := by
      unfold z1
      refine modHandle_form ?_
      with_reducible assumption
    clear_value z1
    split
    · with_reducible assumption
    · refine releaseBox_form ?_
      with_reducible assumption
  · with_reducible assumption

theorem restoreTeam_form {s : State} {a1} {a2} (h : MemForm s) :
    MemForm (restoreTeam s a1 a2) := by
  unfold restoreTeam
  extract_lets +onlyGivenNames z0
  clear_value z0
  extract_lets +onlyGivenNames z1
  clear_value z1
  extract_lets +onlyGivenNames z2
  clear_value z2
  extract_lets +onlyGivenNames z3
  have hz3 : MemForm z3 := by
    unfold z3
    refine acquireCore_form ?_
    with_reducible assumption
  clear_value z3
  extract_lets +onlyGivenNames z4
  have hz4 : MemForm z4 := by
    unfold z4
    refine modTeam_form ?_
    with_reducible assumption
  clear_value z4
  extract_lets +onlyGivenNames z5
  have hz5 : MemForm z5 := by
    unfold z5
    refine foldl_form (fun _ _ _ => ?_) ?_
    · split
      · refine modGroup_form ?_
        with_reducible assumption
      · with_reducible assumption
    · with_reducible assumption
  clear_value z5
  extract_lets +onlyGivenNames z6
  have hz6 : MemForm z6 := by
    unfold z6
    refine placeUnit_form ?_
    refine startSlice_form ?_
    split
    · with_reducible assumption
    · refine rehome_form ?_
      with_reducible assumption
  clear_value z6
  refine foldl_form (fun _ _ _ => ?_) ?_
  · refine resumeRules_form ?_
    refine emitSync_form ?_
    with_reducible assumption
  · with_reducible assumption

theorem restoreGang_form {s : State} {a1} (h : MemForm s) :
    MemForm (restoreGang s a1) := by
  unfold restoreGang
  split
  · with_reducible assumption
  · extract_lets +onlyGivenNames z0
    clear_value z0
    extract_lets +onlyGivenNames z1
    clear_value z1
    refine foldl_form (fun _ _ _ => ?_) ?_
    · split
      · with_reducible assumption
      · extract_lets +onlyGivenNames z2
        clear_value z2
        dsimp only
        refine restoreTeam_form ?_
        split
        · with_reducible assumption
        · with_reducible assumption
    · with_reducible assumption

theorem unblockGroup_form {s : State} {a1} {a2} (h : MemForm s) :
    MemForm (unblockGroup s a1 a2) := by
  unfold unblockGroup
  refine applyRules_form ?_
  refine modGroup_form ?_
  with_reducible assumption

theorem modWin_form {s : State} {a1} {a2} (h : MemForm s) :
    MemForm (modWin s a1 a2) := by
  unfold modWin
  with_reducible assumption

theorem setBar_form {s : State} {a1} {a2} {a3} (h : MemForm s) :
    MemForm (setBar s a1 a2 a3) := by
  unfold setBar
  refine modWin_form ?_
  with_reducible assumption

theorem wakeWaiters_form {s : State} {a1} {a2} {a3} {a4} (h : MemForm s) :
    MemForm (wakeWaiters s a1 a2 a3 a4) := by
  unfold wakeWaiters
  extract_lets +onlyGivenNames z0
  clear_value z0
  refine foldl_form (fun _ _ _ => ?_) ?_
  · extract_lets +onlyGivenNames z1
    clear_value z1
    extract_lets +onlyGivenNames z2
    have hz2 : MemForm z2 := by
      unfold z2
      split
      · refine acquireCore_form ?_
        with_reducible assumption
      · with_reducible assumption
    clear_value z2
    extract_lets +onlyGivenNames z3
    have hz3 : MemForm z3 := by
      unfold z3
      refine setGroup_form ?_
      with_reducible assumption
    clear_value z3
    split
    · with_reducible assumption
    · refine applyRules_form ?_
      with_reducible assumption
  · with_reducible assumption

theorem arrive_form {s : State} {a1} {a2} {a3} (h : MemForm s) :
    MemForm (arrive s a1 a2 a3) := by
  unfold arrive
  extract_lets +onlyGivenNames z0
  clear_value z0
  split
  · with_reducible assumption
  · split
    · refine wakeWaiters_form ?_
      refine setBar_form ?_
      with_reducible assumption
    · refine setBar_form ?_
      with_reducible assumption

theorem landOpS_form {s : State} {a1} {a2} (h : MemForm s) :
    MemForm (landOpS s a1 a2) := by
  unfold landOpS
  extract_lets +onlyGivenNames z0
  have hz0 : MemForm z0 := by
    unfold z0
    refine modGroup_form ?_
    with_reducible assumption
  clear_value z0
  refine afterOp_form ?_
  refine unblockGroup_form ?_
  refine bump_form ?_
  with_reducible assumption

theorem forgetRefused_form {s : State} (h : MemForm s) :
    MemForm (forgetRefused s) := by
  unfold forgetRefused
  split
  · with_reducible assumption
  · with_reducible assumption

theorem finishOpS_form {s : State} {a1} {a2} (h : MemForm s) :
    MemForm (finishOpS s a1 a2) := by
  unfold finishOpS
  refine afterOp_form ?_
  refine unblockGroup_form ?_
  refine modGroup_form ?_
  refine forgetRefused_form ?_
  with_reducible assumption

theorem stopContext_form {s : State} {a1} {a2} (h : MemForm s) :
    MemForm (stopContext s a1 a2) := by
  unfold stopContext
  refine foldl_form (fun _ _ _ => ?_) ?_
  · refine modTeam_form ?_
    with_reducible assumption
  · with_reducible assumption

theorem contextFault_form {s : State} {a1} {a2} {a3} (h : MemForm s) :
    MemForm (contextFault s a1 a2 a3) := by
  unfold contextFault
  extract_lets +onlyGivenNames z0
  clear_value z0
  extract_lets +onlyGivenNames z1
  have hz1 : MemForm z1 := by
    unfold z1
    refine stopContext_form ?_
    refine modCtx_form ?_
    with_reducible assumption
  clear_value z1
  refine postMsg_form ?_
  with_reducible assumption

theorem enterHandler_form {s : State} {a1} {a2} {a3} (h : MemForm s) :
    MemForm (enterHandler s a1 a2 a3) := by
  unfold enterHandler
  extract_lets +onlyGivenNames z0
  clear_value z0
  extract_lets +onlyGivenNames z1
  have hz1 : MemForm z1 := by
    unfold z1
    refine modGroup_form ?_
    with_reducible assumption
  clear_value z1
  refine emitSync_form ?_
  with_reducible assumption

theorem takeTrap_form {s : State} {a1} {a2} {a3} {a4} {a5} {a6} (h : MemForm s) :
    MemForm (takeTrap s a1 a2 a3 a4 a5 a6) := by
  unfold takeTrap
  extract_lets +onlyGivenNames z0
  clear_value z0
  split
  · extract_lets +onlyGivenNames z1
    clear_value z1
    extract_lets +onlyGivenNames z2
    clear_value z2
    extract_lets +onlyGivenNames z3
    have hz3 : MemForm z3 := by
      unfold z3
      refine raiseFault_form ?_
      refine modSlot_form ?_
      with_reducible assumption
    clear_value z3
    refine foldl_form (fun _ _ _ => ?_) ?_
    · refine forcePreempt_form ?_
      with_reducible assumption
    · refine parkTeam_form ?_
      with_reducible assumption
  · split
    · refine modSlot_form ?_
      with_reducible assumption
    · extract_lets +onlyGivenNames z1
      clear_value z1
      split
      · refine contextFault_form ?_
        with_reducible assumption
      · refine enterHandler_form ?_
        with_reducible assumption

theorem raiseMissed_form {s : State} {a1} {a2} (h : MemForm s) :
    MemForm (raiseMissed s a1 a2) := by
  unfold raiseMissed
  extract_lets +onlyGivenNames z0
  clear_value z0
  split
  · with_reducible assumption
  · extract_lets +onlyGivenNames z1
    have hz1 : MemForm z1 := by
      unfold z1
      refine modSlot_form ?_
      with_reducible assumption
    clear_value z1
    refine takeTrap_form ?_
    with_reducible assumption

theorem endHandler_form {s : State} {a1} {a2} (h : MemForm s) :
    MemForm (endHandler s a1 a2) := by
  unfold endHandler
  extract_lets +onlyGivenNames z0
  have hz0 : MemForm z0 := by
    unfold z0
    refine modGroup_form ?_
    with_reducible assumption
  clear_value z0
  refine emitSync_form ?_
  with_reducible assumption

theorem returnFromTrap_form {s : State} {a1} {a2} (h : MemForm s) :
    MemForm (returnFromTrap s a1 a2) := by
  unfold returnFromTrap
  split
  · with_reducible assumption
  · refine endHandler_form ?_
    refine modSlot_form ?_
    with_reducible assumption

theorem exitSlot_form {a0} {s : State} {a2} {a3} (h : MemForm s) :
    MemForm (exitSlot a0 s a2 a3) := by
  unfold exitSlot
  extract_lets +onlyGivenNames z0
  clear_value z0
  extract_lets +onlyGivenNames z1
  have hz1 : MemForm z1 := by
    unfold z1
    refine modSlot_form ?_
    with_reducible assumption
  clear_value z1
  extract_lets +onlyGivenNames z2
  have hz2 : MemForm z2 := by
    unfold z2
    refine emitExit_form ?_
    with_reducible assumption
  clear_value z2
  split
  · refine raiseMissed_form ?_
    refine endHandler_form ?_
    with_reducible assumption
  · with_reducible assumption

theorem fillLoad_form {s : State} {a1} {a2} (h : MemForm s) :
    MemForm (fillLoad s a1 a2) := by
  unfold fillLoad
  refine foldl_form (fun _ _ _ => ?_) ?_
  · split
    · with_reducible assumption
    · refine fillLine_form ?_
      with_reducible assumption
  · with_reducible assumption

theorem storeNc_form {s : State} {a1} {a2} (h : MemForm s) :
    MemForm (storeNc s a1 a2).1 := by
  unfold storeNc
  refine foldl_form1 (fun _ _ _ => ?_) ?_
  · extract_lets +onlyGivenNames z0
    have hz0 : MemForm z0.1 := by
      unfold z0
      refine dieWriteLine_form ?_
      with_reducible assumption
    clear_value z0
    extract_lets +onlyGivenNames z1
    clear_value z1
    extract_lets +onlyGivenNames z2
    have hz2 : MemForm z2 := by
      unfold z2
      refine modCore_form ?_
      with_reducible assumption
    clear_value z2
    dsimp only
    refine modCluster_form ?_
    with_reducible assumption
  · with_reducible assumption

theorem passCycle_form {s : State} {a1} (h : MemForm s) :
    MemForm (passCycle s a1) := by
  unfold passCycle
  refine setCyc_form ?_
  with_reducible assumption

theorem nextCur_form {s : State} {a1} {a2} (h : MemForm s) :
    MemForm (nextCur s a1 a2) := by
  unfold nextCur
  extract_lets +onlyGivenNames z0
  have hz0 : MemForm z0 := by
    unfold z0
    refine modGroup_form ?_
    with_reducible assumption
  clear_value z0
  with_reducible assumption

theorem chainTrap_form {s : State} {a1} {a2} {a3} {a4} {a5} {a6} (h : MemForm s) :
    MemForm (chainTrap s a1 a2 a3 a4 a5 a6) := by
  unfold chainTrap
  refine nextCur_form ?_
  refine passCycle_form ?_
  refine takeTrap_form ?_
  refine bump_form ?_
  with_reducible assumption

theorem afterChain_form {s : State} {a1} {a2} (h : MemForm s) :
    MemForm (afterChain s a1 a2) := by
  unfold afterChain
  extract_lets +onlyGivenNames z0
  have hz0 : MemForm z0 := by
    unfold z0
    refine applyRules_form ?_
    with_reducible assumption
  clear_value z0
  split
  · refine retireGroup_form ?_
    with_reducible assumption
  · with_reducible assumption

theorem chainStart_form {s : State} {a1} {a2} {a3} {a4} (h : MemForm s) :
    MemForm (chainStart s a1 a2 a3 a4) := by
  unfold chainStart
  extract_lets +onlyGivenNames z0
  clear_value z0
  extract_lets +onlyGivenNames z1
  clear_value z1
  refine passCycle_form ?_
  refine modSlot_form ?_
  with_reducible assumption

theorem fillAll_form {s : State} {a1} {a2} (h : MemForm s) :
    MemForm (fillAll s a1 a2) := by
  unfold fillAll
  refine foldl_form (fun _ _ _ => ?_) ?_
  · refine fillRange_form ?_
    with_reducible assumption
  · with_reducible assumption

theorem issueChain_form {s : State} {gid : Nat} {sl : PSlot} {ch : Chain}
    (k : ∀ e ∈ ch, e.2.Keeps) (h : MemForm s) {t : State} (e : issueChain s gid sl ch = some t) :
    MemForm t := by
  unfold issueChain at e
  split at e
  · cases e
  extract_lets +onlyGivenNames s1 v next at e
  have h1 : MemForm s1 := h
  split at e
  · cases e; exact chainTrap_form h1
  extract_lets +onlyGivenNames ws at e
  have hws : ∀ x ∈ ws, x.2.Keeps := chainCtxs_keeps k
  split at e
  · cases e
  extract_lets +onlyGivenNames s2 at e
  have h2 : MemForm s2 := fillAll_form h1
  split at e
  · cases e; exact chainTrap_form h2
  extract_lets +onlyGivenNames pushes s3 at e
  have h3 : MemForm s3 := stackFill_form h2
  split at e
  · cases e; exact chainTrap_form h3
  extract_lets +onlyGivenNames s4 g4 ts s5 at e
  have h4 : MemForm s4 :=
    foldl_form_mem (fun t x hx ht => (hws x hx).1 _ _ ht) (chainStart_form (bump_form h3))
  have h5 : MemForm s5 := stackFill_form h3
  split at e
  · cases e; exact chainTrap_form h5
  · cases e; exact nextCur_form (afterChain_form h4)

theorem nudgeChain_form {s : State} {gid : Nat} {sl : PSlot} {ch : Chain}
    (k : ∀ e ∈ ch, e.2.Keeps) (h : MemForm s) : MemForm (nudgeChain s gid sl ch) := by
  unfold nudgeChain
  split
  · exact h
  · refine foldl_form_mem (fun t x hx ht => ?_) h
    split
    · exact (chainCtxs_keeps k x hx).2 _ _ ht
    · exact ht

theorem issueOrWait_form {s : State} {gid : Nat} {sl : PSlot} {ch : Chain}
    (k : ∀ e ∈ ch, e.2.Keeps) (h : MemForm s) : MemForm (issueOrWait s gid sl ch).1 := by
  unfold issueOrWait
  split
  · exact issueChain_form k h (by assumption)
  · exact nextCur_form (passCycle_form (nudgeChain_form k h))

theorem issueOne_form {m : Sem} {s : State} (k : m.Keeps) (h : MemForm s) : MemForm (issueOne m s) := by
  unfold issueOne
  split
  · exact h
  · exact issueOrWait_form (by simpa using k) h

theorem modBuf_form {s : State} {a1} {a2} {a3} (h : MemForm s) :
    MemForm (modBuf s a1 a2 a3) := by
  unfold modBuf
  refine modTeam_form ?_
  with_reducible assumption

theorem wakeBuffer_form {s : State} {a1} {a2} (h : MemForm s) :
    MemForm (wakeBuffer s a1 a2) := by
  unfold wakeBuffer
  refine foldl_form (fun _ _ _ => ?_) ?_
  · split
    · refine applyRules_form ?_
      refine modGroup_form ?_
      with_reducible assumption
    · with_reducible assumption
  · with_reducible assumption

theorem released_form {s : State} {a1} {a2} {a3} {a4} (h : MemForm s) :
    MemForm (released s a1 a2 a3 a4).1 := by
  unfold released
  extract_lets +onlyGivenNames z0
  have hz0 : MemForm z0.1 := by
    unfold z0
    refine releaseCaches_form ?_
    with_reducible assumption
  clear_value z0
  extract_lets +onlyGivenNames z1
  clear_value z1
  extract_lets +onlyGivenNames z2
  have hz2 : MemForm z2 := by
    unfold z2
    split
    · refine pushPairs_form ?_
      with_reducible assumption
    · with_reducible assumption
  clear_value z2
  with_reducible assumption

theorem slotReleased_form {s : State} {a1} {a2} {a3} (h : MemForm s) :
    MemForm (slotReleased s a1 a2 a3).1 := by
  unfold slotReleased
  refine released_form ?_
  with_reducible assumption

theorem flushFor_form {s : State} {a1} {a2} {a3} (h : MemForm s) :
    MemForm (flushFor s a1 a2 a3) := by
  unfold flushFor
  refine slotReleased_form ?_
  with_reducible assumption

theorem acquired_form {s : State} {a1} {a2} (h : MemForm s) :
    MemForm (acquired s a1 a2) := by
  unfold acquired
  split
  · with_reducible assumption
  · refine acquireCore_form ?_
    with_reducible assumption

theorem wbThrough_form {s : State} {a1} {a2} (h : MemForm s) :
    MemForm (wbThrough s a1 a2).1 := by
  unfold wbThrough
  extract_lets +onlyGivenNames z0
  have hz0 : MemForm z0.1 := by
    unfold z0
    refine wbL1_form ?_
    with_reducible assumption
  clear_value z0
  extract_lets +onlyGivenNames z1
  have hz1 : MemForm z1.1 := by
    unfold z1
    refine wbCC_form ?_
    with_reducible assumption
  clear_value z1
  with_reducible assumption

theorem dropCopies_form {s : State} {a1} {a2} {a3} (h : MemForm s) :
    MemForm (dropCopies s a1 a2 a3) := by
  unfold dropCopies
  extract_lets +onlyGivenNames z0
  have hz0 : MemForm z0 := by
    unfold z0
    refine modCore_form ?_
    with_reducible assumption
  clear_value z0
  refine modCluster_form ?_
  with_reducible assumption

theorem ncReady_form {s : State} {a1} {a2} (h : MemForm s) :
    MemForm (ncReady s a1 a2).1 := by
  unfold ncReady
  refine foldl_form1 (fun _ _ _ => ?_) ?_
  · extract_lets +onlyGivenNames z0
    have hz0 : MemForm z0.1 := by
      unfold z0
      refine wbThrough_form ?_
      with_reducible assumption
    clear_value z0
    with_reducible assumption
  · with_reducible assumption

theorem readBytes_form {s : State} {a1} {a2} {a3} (h : MemForm s) :
    MemForm (readBytes s a1 a2 a3).1 := by
  unfold readBytes
  extract_lets +onlyGivenNames z0
  have hz0 : MemForm z0.1 := by
    unfold z0
    split
    · refine ncReady_form ?_
      with_reducible assumption
    · with_reducible assumption
  clear_value z0
  split
  · split
    · with_reducible assumption
    · dsimp only
      refine fillLoad_form ?_
      with_reducible assumption
  · extract_lets +onlyGivenNames z1
    clear_value z1
    dsimp only
    refine foldl_form (fun _ _ _ => ?_) ?_
    · split
      · refine askLine_form ?_
        with_reducible assumption
      · with_reducible assumption
    · with_reducible assumption

theorem readPiece_form {core nc k} {r : State × LaneAcc} (h : MemForm r.1) : MemForm (readPiece core nc r k).1 := by
  unfold readPiece
  dsimp only
  split
  · exact readBytes_form h
  · exact readBytes_form h

theorem loadLane_form {s : State} {core nc issue l} (h : MemForm s) : MemForm (loadLane s core nc issue l).1 := by
  unfold loadLane
  split
  · exact readBytes_form h
  · exact foldl_form1 (fun _ _ ht => readPiece_form ht) h

theorem loadParts_form {s : State} {a1} {a2} {a3} {a4} {a5} {a6} {a7} (h : MemForm s) :
    MemForm (loadParts s a1 a2 a3 a4 a5 a6 a7).1 := by
  unfold loadParts
  refine foldl_form1 (fun _ _ _ => ?_) ?_
  · extract_lets +onlyGivenNames z0
    have hz0 : MemForm z0.1 := by
      unfold z0
      refine loadLane_form ?_
      with_reducible assumption
    clear_value z0
    split
    · with_reducible assumption
    · with_reducible assumption
  · with_reducible assumption

theorem issueLoad_form {a0} {a1} {a2} {a3} {a4} {a5} {a6} {s : State} (h : MemForm s) :
    MemForm (issueLoad a0 a1 a2 a3 a4 a5 a6 s).1 := by
  unfold issueLoad
  extract_lets +onlyGivenNames z0
  have hz0 : MemForm z0.1 := by
    unfold z0
    refine loadParts_form ?_
    with_reducible assumption
  clear_value z0
  extract_lets +onlyGivenNames z1
  clear_value z1
  extract_lets +onlyGivenNames z2
  clear_value z2
  extract_lets +onlyGivenNames z3
  clear_value z3
  dsimp only
  refine modGroup_form ?_
  with_reducible assumption

theorem waitOn_form {s : State} {a1} {a2} {a3} (h : MemForm s) :
    MemForm (waitOn s a1 a2 a3) := by
  unfold waitOn
  refine modSlot_form ?_
  with_reducible assumption

theorem missSplit_form {a0} {a1} {a2} {s : State} (h : MemForm s) :
    MemForm (missSplit a0 a1 a2 s) := by
  unfold missSplit
  extract_lets +onlyGivenNames z0
  clear_value z0
  extract_lets +onlyGivenNames z1
  have hz1 : MemForm z1 := by
    unfold z1
    refine forkSlot_form ?_
    with_reducible assumption
  clear_value z1
  extract_lets +onlyGivenNames z2
  have hz2 : MemForm z2 := by
    unfold z2
    refine modSlot_form ?_
    with_reducible assumption
  clear_value z2
  extract_lets +onlyGivenNames z3
  have hz3 : MemForm z3 := by
    unfold z3
    refine modSlot_form ?_
    with_reducible assumption
  clear_value z3
  refine emitDiv_form ?_
  with_reducible assumption

theorem loadGlobal_form {a0} {a1} {a2} {a3} {a4} {a5} {a6} {a7} {s : State} (h : MemForm s) :
    MemForm (loadGlobal a0 a1 a2 a3 a4 a5 a6 a7 s) := by
  unfold loadGlobal
  extract_lets +onlyGivenNames z1
  clear_value z1
  split
  · refine putL_form ?_
    with_reducible assumption
  · extract_lets +onlyGivenNames z2
    clear_value z2
    extract_lets +onlyGivenNames z3
    clear_value z3
    extract_lets +onlyGivenNames z4
    clear_value z4
    split
    · extract_lets +onlyGivenNames z5
      have hz5 : MemForm z5.1 := by
        unfold z5
        refine issueLoad_form ?_
        with_reducible assumption
      clear_value z5
      extract_lets +onlyGivenNames z6
      have hz6 : MemForm z6.1 := by
        unfold z6
        refine issueLoad_form ?_
        refine waitOn_form ?_
        with_reducible assumption
      clear_value z6
      refine missSplit_form ?_
      with_reducible assumption
    · extract_lets +onlyGivenNames z5
      have hz5 : MemForm z5.1 := by
        unfold z5
        refine issueLoad_form ?_
        with_reducible assumption
      clear_value z5
      split
      · refine waitOn_form ?_
        with_reducible assumption
      · with_reducible assumption

theorem storeBytes_form {a0} {a1} {a2} {s : State} (h : MemForm s) :
    MemForm (storeBytes a0 a1 a2 s).1 := by
  unfold storeBytes
  split
  · dsimp only
    refine foldl_form (fun _ _ _ => ?_) ?_
    · refine l1Put_form ?_
      with_reducible assumption
    · with_reducible assumption
  · refine foldl_form1 (fun _ _ _ => ?_) ?_
    · extract_lets +onlyGivenNames z0
      clear_value z0
      extract_lets +onlyGivenNames z1
      have hz1 : MemForm z1.1 := by
        unfold z1
        refine storeNc_form ?_
        with_reducible assumption
      clear_value z1
      with_reducible assumption
    · with_reducible assumption

theorem storeGlobal_form {a0} {a1} {a2} {a3} {a4} {a5} {a6} {s : State} (h : MemForm s) :
    MemForm (storeGlobal a0 a1 a2 a3 a4 a5 a6 s) := by
  unfold storeGlobal
  extract_lets +onlyGivenNames z1
  clear_value z1
  extract_lets +onlyGivenNames z2
  clear_value z2
  extract_lets +onlyGivenNames z3
  clear_value z3
  extract_lets +onlyGivenNames z4
  have hz4 : MemForm z4.1 := by
    unfold z4
    refine storeBytes_form ?_
    refine foldl_form (fun _ _ _ => ?_) ?_
    · refine touch_form ?_
      with_reducible assumption
    · with_reducible assumption
  clear_value z4
  split
  · with_reducible assumption
  · refine putL_form ?_
    with_reducible assumption

theorem windowLoad_form {a0} {a1} {a2} {a3} {a4} {a5} {s : State} (h : MemForm s) :
    MemForm (windowLoad a0 a1 a2 a3 a4 a5 s) := by
  unfold windowLoad
  extract_lets +onlyGivenNames z0
  clear_value z0
  extract_lets +onlyGivenNames z1
  clear_value z1
  split
  · refine putLres_form ?_
    with_reducible assumption
  · refine withDst_form ?_
    refine putL_form ?_
    with_reducible assumption

theorem winStore_form {s : State} {a1} {a2} (h : MemForm s) :
    MemForm (winStore s a1 a2) := by
  unfold winStore
  refine modWin_form ?_
  with_reducible assumption

theorem windowStore_form {a0} {a1} {a2} {a3} {a4} {s : State} (h : MemForm s) :
    MemForm (windowStore a0 a1 a2 a3 a4 s) := by
  unfold windowStore
  extract_lets +onlyGivenNames z0
  clear_value z0
  extract_lets +onlyGivenNames z1
  have hz1 : MemForm z1 := by
    unfold z1
    refine winStore_form ?_
    with_reducible assumption
  clear_value z1
  split
  · refine putL_form ?_
    with_reducible assumption
  · split
    · with_reducible assumption
    · refine putL_form ?_
      with_reducible assumption

theorem atomicAt_form {s : State} {a1} {a2} {a3} {a4} (h : MemForm s) :
    MemForm (atomicAt s a1 a2 a3 a4).1 := by
  unfold atomicAt
  extract_lets +onlyGivenNames z0
  clear_value z0
  split
  · with_reducible assumption
  · dsimp only
    refine engPut_form ?_
    with_reducible assumption

theorem pushAtomic_form {s : State} {a1} {a2} (h : MemForm s) :
    MemForm (pushAtomic s a1 a2) := by
  unfold pushAtomic
  split
  · with_reducible assumption
  · split
    · extract_lets +onlyGivenNames z0
      clear_value z0
      split
      · with_reducible assumption
      · extract_lets +onlyGivenNames z1
        clear_value z1
        extract_lets +onlyGivenNames z2
        have hz2 : MemForm z2.1 := by
          unfold z2
          split
          · refine released_form ?_
            with_reducible assumption
          · with_reducible assumption
        clear_value z2
        split
        · with_reducible assumption
        · refine foldl_form (fun _ _ _ => ?_) ?_
          · extract_lets +onlyGivenNames z3
            have hz3 : MemForm z3.1 := by
              unfold z3
              refine wbThrough_form ?_
              with_reducible assumption
            clear_value z3
            split
            · with_reducible assumption
            · extract_lets +onlyGivenNames z4
              have hz4 : MemForm z4 := by
                unfold z4
                refine dropCopies_form ?_
                with_reducible assumption
              clear_value z4
              extract_lets +onlyGivenNames z5
              unfold z5
              split
              · refine modGroup_form ?_
                refine touch_form ?_
                with_reducible assumption
              · split
                · refine modGroup_form ?_
                  with_reducible assumption
                · split
                  · extract_lets +onlyGivenNames z6
                    have hz6 : MemForm z6.1 := by
                      unfold z6
                      refine atomicAt_form ?_
                      with_reducible assumption
                    clear_value z6
                    refine modGroup_form ?_
                    with_reducible assumption
                  · extract_lets +onlyGivenNames z6
                    clear_value z6
                    extract_lets +onlyGivenNames z7
                    have hz7 : MemForm z7.1 := by
                      unfold z7
                      refine sendReq_form ?_
                      with_reducible assumption
                    clear_value z7
                    refine modGroup_form ?_
                    with_reducible assumption
          · with_reducible assumption
    · with_reducible assumption

theorem atomicGlobal_form {a0} {a1} {a2} {a3} {a4} {a5} {a6} {a7} {a8} {a9} {a10} {s : State} (h : MemForm s) :
    MemForm (atomicGlobal a0 a1 a2 a3 a4 a5 a6 a7 a8 a9 a10 s) := by
  unfold atomicGlobal
  split
  · refine putL_form ?_
    with_reducible assumption
  · extract_lets +onlyGivenNames z0
    clear_value z0
    extract_lets +onlyGivenNames z1
    clear_value z1
    refine pushAtomic_form ?_
    refine withDst_form ?_
    refine putL_form ?_
    with_reducible assumption

theorem atomicWindow_form {a0} {a1} {a2} {a3} {a4} {s : State} (h : MemForm s) :
    MemForm (atomicWindow a0 a1 a2 a3 a4 s).1 := by
  unfold atomicWindow
  extract_lets +onlyGivenNames z0
  clear_value z0
  refine foldl_form1 (fun _ _ _ => ?_) ?_
  · extract_lets +onlyGivenNames z1
    clear_value z1
    dsimp only
    refine modWin_form ?_
    with_reducible assumption
  · with_reducible assumption

theorem fenceTry_form {s : State} {a1} {a2} {a3} {a4} {a5} (h : MemForm s) :
    MemForm (fenceTry s a1 a2 a3 a4 a5).1 := by
  unfold fenceTry
  extract_lets +onlyGivenNames z0
  clear_value z0
  extract_lets +onlyGivenNames z1
  clear_value z1
  extract_lets +onlyGivenNames z2
  clear_value z2
  extract_lets +onlyGivenNames z3
  have hz3 : MemForm z3.1 := by
    unfold z3
    split
    · refine released_form ?_
      with_reducible assumption
    · with_reducible assumption
  clear_value z3
  extract_lets +onlyGivenNames z4
  clear_value z4
  extract_lets +onlyGivenNames z5
  clear_value z5
  split
  · dsimp only
    refine acquired_form ?_
    with_reducible assumption
  · with_reducible assumption

theorem wbL2_form {s : State} {a1} {a2} (h : MemForm s) :
    MemForm (wbL2 s a1 a2) := by
  unfold wbL2
  split
  · refine touch_form ?_
    with_reducible assumption
  · extract_lets +onlyGivenNames z0
    clear_value z0
    extract_lets +onlyGivenNames z1
    unfold z1
    extract_lets +onlyGivenNames z2
    have hz2 : MemForm z2 := by
      unfold z2
      split
      · with_reducible assumption
      · refine modDie_form ?_
        refine homePutLine_form ?_
        with_reducible assumption
    clear_value z2
    split
    · extract_lets +onlyGivenNames z3
      clear_value z3
      refine clearCovered_form ?_
      refine modDie_form ?_
      refine memForm_intro ?_
      dsimp only
      refine memPuts_form (fun _ _ _ => ?_) ?_
      · refine memPut_form ?_
        with_reducible assumption
      · with_reducible assumption
    · with_reducible assumption

theorem invL2_form {s : State} {a1} {a2} (h : MemForm s) :
    MemForm (invL2 s a1 a2) := by
  unfold invL2
  split
  · refine modDie_form ?_
    refine wbL2_form ?_
    with_reducible assumption
  · with_reducible assumption

theorem cacheAct_form {s : State} {a1} {a2} {a3} {a4} (h : MemForm s) :
    MemForm (cacheAct s a1 a2 a3 a4).1 := by
  unfold cacheAct
  extract_lets +onlyGivenNames z0
  clear_value z0
  extract_lets +onlyGivenNames z1
  have hz1 : MemForm z1.1 := by
    unfold z1
    refine wbL1_form ?_
    with_reducible assumption
  clear_value z1
  extract_lets +onlyGivenNames z2
  unfold z2
  split
  · with_reducible assumption
  · split
    · split
      · dsimp only
        refine modCore_form ?_
        with_reducible assumption
      · with_reducible assumption
    · extract_lets +onlyGivenNames z3
      have hz3 : MemForm z3.1 := by
        unfold z3
        refine wbCC_form ?_
        split
        · refine modCore_form ?_
          with_reducible assumption
        · with_reducible assumption
      clear_value z3
      split
      · with_reducible assumption
      · extract_lets +onlyGivenNames z4
        have hz4 : MemForm z4 := by
          unfold z4
          split
          · refine modCluster_form ?_
            with_reducible assumption
          · with_reducible assumption
        clear_value z4
        split
        · with_reducible assumption
        · split
          · dsimp only
            refine invL2_form ?_
            with_reducible assumption
          · dsimp only
            refine wbL2_form ?_
            with_reducible assumption

theorem cacheTry_form {s : State} {a1} {a2} {a3} {a4} (h : MemForm s) :
    MemForm (cacheTry s a1 a2 a3 a4).1 := by
  unfold cacheTry
  refine foldl_form1 (fun _ _ _ => ?_) ?_
  · extract_lets +onlyGivenNames z0
    have hz0 : MemForm z0.1 := by
      unfold z0
      refine cacheAct_form ?_
      with_reducible assumption
    clear_value z0
    with_reducible assumption
  · with_reducible assumption

theorem prefetch_form {s : State} {a1} {a2} {a3} (h : MemForm s) :
    MemForm (prefetch s a1 a2 a3).1 := by
  unfold prefetch
  split
  · with_reducible assumption
  · split
    · split
      · dsimp only
        refine fillLine_form ?_
        with_reducible assumption
      · dsimp only
        refine fillCC_form ?_
        with_reducible assumption
      · with_reducible assumption
    · dsimp only
      refine askLine_form ?_
      with_reducible assumption

theorem prefetchAll_form {s : State} {a1} {a2} {a3} (h : MemForm s) :
    MemForm (prefetchAll s a1 a2 a3).1 := by
  unfold prefetchAll
  refine foldl_form1 (fun _ _ _ => ?_) ?_
  · extract_lets +onlyGivenNames z0
    have hz0 : MemForm z0.1 := by
      unfold z0
      refine prefetch_form ?_
      with_reducible assumption
    clear_value z0
    with_reducible assumption
  · with_reducible assumption

theorem barRelease_form {a0} {a1} {s : State} (h : MemForm s) :
    MemForm (barRelease a0 a1 s) := by
  unfold barRelease
  split
  · with_reducible assumption
  · refine flushFor_form ?_
    with_reducible assumption

theorem barAcquire_form {a0} {a1} {s : State} (h : MemForm s) :
    MemForm (barAcquire a0 a1 s) := by
  unfold barAcquire
  split
  · with_reducible assumption
  · refine acquired_form ?_
    with_reducible assumption

theorem barWaitFor_form {a0} {a1} {a2} {a3} {a4} {s : State} (h : MemForm s) :
    MemForm (barWaitFor a0 a1 a2 a3 a4 s) := by
  unfold barWaitFor
  extract_lets +onlyGivenNames z0
  clear_value z0
  split
  · refine putNow_form ?_
    refine barAcquire_form ?_
    with_reducible assumption
  · split
    · refine putNow_form ?_
      refine barAcquire_form ?_
      with_reducible assumption
    · refine modSlot_form ?_
      with_reducible assumption

theorem modBank_form {s : State} {a1} {a2} {a3} (h : MemForm s) :
    MemForm (modBank s a1 a2 a3) := by
  unfold modBank
  refine modCluster_form ?_
  with_reducible assumption

theorem switchBank_form {s : State} {a1} {a2} {a3} (h : MemForm s) :
    MemForm (switchBank s a1 a2 a3) := by
  unfold switchBank
  extract_lets +onlyGivenNames z0
  clear_value z0
  split
  · with_reducible assumption
  · extract_lets +onlyGivenNames z1
    have hz1 : MemForm z1 := by
      unfold z1
      split
      · refine leaveCache_form ?_
        with_reducible assumption
      · with_reducible assumption
    clear_value z1
    refine modBank_form ?_
    with_reducible assumption

theorem issueM_form {a0} {a1} {a2} {a3} {a4} {a5} {a6} {s : State} (h : MemForm s) :
    MemForm (issueM a0 a1 a2 a3 a4 a5 a6 s) := by
  unfold issueM
  refine modGroup_form ?_
  with_reducible assumption

theorem modHead_form {s : State} {a1} {a2} (h : MemForm s) :
    MemForm (modHead s a1 a2) := by
  unfold modHead
  refine modGroup_form ?_
  with_reducible assumption

theorem tldRead_form {s : State} {a1} {a2} (h : MemForm s) :
    MemForm (tldRead s a1 a2).1 := by
  unfold tldRead
  extract_lets +onlyGivenNames z0
  clear_value z0
  split
  · with_reducible assumption
  · refine readBytes_form ?_
    with_reducible assumption

theorem tldReadWin_form {s : State} {a1} {a2} (h : MemForm s) :
    MemForm (tldReadWin s a1 a2).1 := by
  unfold tldReadWin
  with_reducible assumption

theorem tldPiece_form {read : State → List Nat → State × Option (List (Byte × Bool))} {r : State × MWord} {k : Nat}
    (hr : ∀ t as, MemForm t → MemForm (read t as).1) (h : MemForm r.1) : MemForm (tldPiece read r k).1 := by
  unfold tldPiece
  dsimp only
  split
  · exact hr _ _ h
  · exact hr _ _ h

theorem tldGo_form {s : State} {gid w sp} (h : MemForm s) : MemForm (tldGo s gid w sp).1 := by
  unfold tldGo
  refine foldl_form1 (fun _ _ ht => tldPiece_form (fun _ _ hu => ?_) ht) h
  split
  · exact tldRead_form hu
  · exact tldReadWin_form hu

theorem tstReady_form {s : State} {a1} {a2} {a3} (h : MemForm s) :
    MemForm (tstReady s a1 a2 a3).1 := by
  unfold tstReady
  extract_lets +onlyGivenNames z0
  clear_value z0
  extract_lets +onlyGivenNames z1
  clear_value z1
  extract_lets +onlyGivenNames z2
  clear_value z2
  dsimp only
  refine foldl_form (fun _ _ _ => ?_) ?_
  · refine askLine_form ?_
    with_reducible assumption
  · with_reducible assumption

theorem runTld_form {s : State} {a1} {a2} {a3} {a4} {a5} (h : MemForm s) :
    MemForm (runTld s a1 a2 a3 a4 a5).1 := by
  unfold runTld
  extract_lets +onlyGivenNames z0
  have hz0 : MemForm z0.1 := by
    unfold z0
    refine tldGo_form ?_
    with_reducible assumption
  clear_value z0
  split
  · dsimp only
    refine modGroup_form ?_
    with_reducible assumption
  · dsimp only
    refine modHead_form ?_
    with_reducible assumption

theorem settleTst_form {s : State} {a1} {a2} {a3} (h : MemForm s) :
    MemForm (settleTst s a1 a2 a3).1 := by
  unfold settleTst
  extract_lets +onlyGivenNames z0
  clear_value z0
  split
  · with_reducible assumption
  · extract_lets +onlyGivenNames z1
    have hz1 : MemForm z1.1 := by
      unfold z1
      refine wbAll_form ?_ ?_
      · intro
        intro
        intro
        split
        · refine wbL1_form ?_
          with_reducible assumption
        · refine wbThrough_form ?_
          with_reducible assumption
      · with_reducible assumption
    clear_value z1
    extract_lets +onlyGivenNames z2
    have hz2 : MemForm z2 := by
      unfold z2
      split
      · refine pushPairs_form ?_
        with_reducible assumption
      · with_reducible assumption
    clear_value z2
    with_reducible assumption

theorem tstMarked_form {s : State} {a1} {a2} (h : MemForm s) :
    MemForm (tstMarked s a1 a2) := by
  unfold tstMarked
  extract_lets +onlyGivenNames z0
  clear_value z0
  extract_lets +onlyGivenNames z1
  have hz1 : MemForm z1 := by
    unfold z1
    refine foldl_form (fun _ _ _ => ?_) ?_
    · refine dropCopies_form ?_
      refine wbThrough_form ?_
      with_reducible assumption
    · with_reducible assumption
  clear_value z1
  refine foldl_form (fun _ _ _ => ?_) ?_
  · refine setPoison_form ?_
    with_reducible assumption
  · refine engPut_form ?_
    with_reducible assumption

theorem runTstGlobal_form {s : State} {a1} {a2} {a3} {a4} {a5} (h : MemForm s) :
    MemForm (runTstGlobal s a1 a2 a3 a4 a5).1 := by
  unfold runTstGlobal
  extract_lets +onlyGivenNames z0
  clear_value z0
  split
  · refine settleTst_form ?_
    with_reducible assumption
  · extract_lets +onlyGivenNames z1
    clear_value z1
    extract_lets +onlyGivenNames z2
    have hz2 : MemForm z2.1 := by
      unfold z2
      refine tstReady_form ?_
      with_reducible assumption
    clear_value z2
    split
    · with_reducible assumption
    · extract_lets +onlyGivenNames z3
      clear_value z3
      extract_lets +onlyGivenNames z4
      clear_value z4
      extract_lets +onlyGivenNames z5
      have hz5 : MemForm z5 := by
        unfold z5
        refine modHead_form ?_
        split
        · refine tstMarked_form ?_
          with_reducible assumption
        · refine storeBytes_form ?_
          with_reducible assumption
      clear_value z5
      split
      · refine settleTst_form ?_
        with_reducible assumption
      · with_reducible assumption

theorem runTstWindow_form {s : State} {a1} {a2} {a3} {a4} (h : MemForm s) :
    MemForm (runTstWindow s a1 a2 a3 a4).1 := by
  unfold runTstWindow
  extract_lets +onlyGivenNames z0
  clear_value z0
  split
  · with_reducible assumption
  · extract_lets +onlyGivenNames z1
    clear_value z1
    extract_lets +onlyGivenNames z2
    clear_value z2
    extract_lets +onlyGivenNames z3
    have hz3 : MemForm z3 := by
      unfold z3
      refine winStore_form ?_
      with_reducible assumption
    clear_value z3
    extract_lets +onlyGivenNames z4
    have hz4 : MemForm z4 := by
      unfold z4
      split
      · with_reducible assumption
      · refine modWin_form ?_
        with_reducible assumption
    clear_value z4
    dsimp only
    refine modHead_form ?_
    with_reducible assumption

theorem runWord_form {s : State} {a1} {a2} (h : MemForm s) :
    MemForm (runWord s a1 a2).1 := by
  unfold runWord
  split
  · with_reducible assumption
  · split
    · dsimp only
      refine modGroup_form ?_
      with_reducible assumption
    · refine runTld_form ?_
      with_reducible assumption
    · split
      · refine runTstGlobal_form ?_
        with_reducible assumption
      · refine runTstWindow_form ?_
        with_reducible assumption
    · split
      · dsimp only
        refine modGroup_form ?_
        with_reducible assumption
      · dsimp only
        refine modGroup_form ?_
        with_reducible assumption
    · dsimp only
      refine modGroup_form ?_
      with_reducible assumption
    · dsimp only
      refine modGroup_form ?_
      with_reducible assumption
    · dsimp only
      refine modGroup_form ?_
      with_reducible assumption
    · dsimp only
      refine modGroup_form ?_
      with_reducible assumption
    · dsimp only
      refine modGroup_form ?_
      with_reducible assumption
    · dsimp only
      refine modGroup_form ?_
      with_reducible assumption
    · dsimp only
      refine modGroup_form ?_
      with_reducible assumption
    · with_reducible assumption

theorem seenWord_form {s : State} {a1} {a2} (h : MemForm s) :
    MemForm (seenWord s a1 a2) := by
  unfold seenWord
  split
  · split
    · with_reducible assumption
    · refine acquired_form ?_
      with_reducible assumption
  · with_reducible assumption

theorem matrixStep_form {s : State} {a1} (h : MemForm s) :
    MemForm (matrixStep s a1) := by
  unfold matrixStep
  split
  · with_reducible assumption
  · extract_lets +onlyGivenNames z0
    have hz0 : MemForm z0.1 := by
      unfold z0
      refine runWord_form ?_
      refine bump_form ?_
      with_reducible assumption
    clear_value z0
    split
    · refine afterOp_form ?_
      refine applyRules_form ?_
      refine modGroup_form ?_
      refine seenWord_form ?_
      with_reducible assumption
    · with_reducible assumption

theorem recNudge_form {a0} {a1} {s : State} (h : MemForm s) :
    MemForm (recNudge a0 a1 s) := by
  unfold recNudge
  extract_lets +onlyGivenNames z0
  clear_value z0
  extract_lets +onlyGivenNames z1
  clear_value z1
  split
  · with_reducible assumption
  · extract_lets +onlyGivenNames z2
    have hz2 : MemForm z2 := by
      unfold z2
      refine modSlot_form ?_
      with_reducible assumption
    clear_value z2
    refine foldl_form (fun _ _ _ => ?_) ?_
    · split
      · refine askLine_form ?_
        with_reducible assumption
      · with_reducible assumption
    · with_reducible assumption

theorem forgetSeen_form {a0} {s : State} (h : MemForm s) :
    MemForm (forgetSeen a0 s) := by
  unfold forgetSeen
  split
  · with_reducible assumption
  · refine modSlot_form ?_
    with_reducible assumption

theorem seeSlot_form {s : State} {a1} {a2} {a3} (h : MemForm s) :
    MemForm (seeSlot s a1 a2 a3) := by
  unfold seeSlot
  extract_lets +onlyGivenNames z0
  clear_value z0
  extract_lets +onlyGivenNames z1
  clear_value z1
  split
  · with_reducible assumption
  · refine modSlot_form ?_
    with_reducible assumption

theorem addEngine_form {a0} {a1} {a2} {a3} {a4} {s : State} (h : MemForm s) :
    MemForm (addEngine a0 a1 a2 a3 a4 s) := by
  unfold addEngine
  refine modGroup_form ?_
  with_reducible assumption

theorem startCopy_form {a0} {a1} {a2} {a3} {a4} {a5} {a6} {s : State} (h : MemForm s) :
    MemForm (startCopy a0 a1 a2 a3 a4 a5 a6 s) := by
  unfold startCopy
  extract_lets +onlyGivenNames z0
  clear_value z0
  extract_lets +onlyGivenNames z1
  have hz1 : MemForm z1 := by
    unfold z1
    refine modBuf_form ?_
    with_reducible assumption
  clear_value z1
  refine putLres_form ?_
  refine addEngine_form ?_
  with_reducible assumption

theorem engineFault_form {s : State} {a1} {a2} {a3} {a4} {a5} {a6} {a7} (h : MemForm s) :
    ∀ {t}, engineFault s a1 a2 a3 a4 a5 a6 a7 = some t → MemForm t := by
  unfold engineFault
  intro t ht
  split at ht
  · cases ht
  · cases ht
    refine modGroup_form ?_
    refine raiseFault_form ?_
    with_reducible assumption

theorem wbLines_form {s : State} {a1} {a2} (h : MemForm s) :
    MemForm (wbLines s a1 a2).1 := by
  unfold wbLines
  refine foldl_form1 (fun _ _ _ => ?_) ?_
  · extract_lets +onlyGivenNames z0
    have hz0 : MemForm z0.1 := by
      unfold z0
      refine wbThrough_form ?_
      with_reducible assumption
    clear_value z0
    with_reducible assumption
  · with_reducible assumption

theorem settleBuf_form {s : State} {a1} {a2} {a3} (h : MemForm s) :
    MemForm (settleBuf s a1 a2 a3) := by
  unfold settleBuf
  extract_lets +onlyGivenNames z0
  have hz0 : MemForm z0 := by
    unfold z0
    refine modBuf_form ?_
    with_reducible assumption
  clear_value z0
  refine wakeBuffer_form ?_
  with_reducible assumption

theorem finishCopy_form {s : State} {a1} {a2} {a3} {a4} (h : MemForm s) :
    MemForm (finishCopy s a1 a2 a3 a4) := by
  unfold finishCopy
  extract_lets +onlyGivenNames z0
  clear_value z0
  extract_lets +onlyGivenNames z1
  clear_value z1
  extract_lets +onlyGivenNames z2
  clear_value z2
  extract_lets +onlyGivenNames z3
  clear_value z3
  extract_lets +onlyGivenNames z4
  have hz4 : MemForm z4 := by
    unfold z4
    refine modBuf_form ?_
    refine settleBuf_form ?_
    with_reducible assumption
  clear_value z4
  extract_lets +onlyGivenNames z5
  have hz5 : MemForm z5 := by
    unfold z5
    split
    · refine arrive_form ?_
      with_reducible assumption
    · with_reducible assumption
  clear_value z5
  extract_lets +onlyGivenNames z6
  have hz6 : MemForm z6 := by
    unfold z6
    split
    · refine postMsg_form ?_
      with_reducible assumption
    · with_reducible assumption
  clear_value z6
  refine finishOpS_form ?_
  refine acquired_form ?_
  with_reducible assumption

theorem moveOut_form {s : State} {a1} {a2} {a3} (h : MemForm s) :
    MemForm (moveOut s a1 a2 a3) := by
  unfold moveOut
  extract_lets +onlyGivenNames z0
  clear_value z0
  extract_lets +onlyGivenNames z1
  have hz1 : MemForm z1 := by
    unfold z1
    refine engPut_form ?_
    with_reducible assumption
  clear_value z1
  extract_lets +onlyGivenNames z2
  have hz2 : MemForm z2 := by
    unfold z2
    refine clearCovered_form ?_
    with_reducible assumption
  clear_value z2
  extract_lets +onlyGivenNames z3
  have hz3 : MemForm z3 := by
    unfold z3
    refine foldl_form (fun _ _ _ => ?_) ?_
    · refine setPoison_form ?_
      with_reducible assumption
    · with_reducible assumption
  clear_value z3
  refine foldl_form (fun _ _ _ => ?_) ?_
  · refine dropCopies_form ?_
    with_reducible assumption
  · with_reducible assumption

theorem moveIn_form {s : State} {a1} {a2} {a3} (h : MemForm s) :
    MemForm (moveIn s a1 a2 a3) := by
  unfold moveIn
  extract_lets +onlyGivenNames z0
  have hz0 : MemForm z0 := by
    unfold z0
    refine foldl_form (fun _ _ _ => ?_) ?_
    · refine resolveLine_form ?_
      with_reducible assumption
    · with_reducible assumption
  clear_value z0
  extract_lets +onlyGivenNames z1
  have hz1 : MemForm z1 := by
    unfold z1
    refine winStore_form ?_
    with_reducible assumption
  clear_value z1
  refine modWin_form ?_
  with_reducible assumption

theorem fillOut_form {s : State} {a1} {a2} {a3} {a4} (h : MemForm s) :
    MemForm (fillOut s a1 a2 a3 a4) := by
  unfold fillOut
  extract_lets +onlyGivenNames z0
  clear_value z0
  refine winStore_form ?_
  with_reducible assumption

theorem moveCopy_form {s : State} {a1} {a2} {a3} {a4} (h : MemForm s) :
    MemForm (moveCopy s a1 a2 a3 a4) := by
  unfold moveCopy
  extract_lets +onlyGivenNames z0
  clear_value z0
  extract_lets +onlyGivenNames z1
  clear_value z1
  extract_lets +onlyGivenNames z2
  clear_value z2
  extract_lets +onlyGivenNames z3
  clear_value z3
  extract_lets +onlyGivenNames z4
  clear_value z4
  extract_lets +onlyGivenNames z5
  clear_value z5
  extract_lets +onlyGivenNames z6
  have hz6 : MemForm z6 := by
    unfold z6
    refine foldl_form (fun _ _ _ => ?_) ?_
    · refine engMark_form ?_
      with_reducible assumption
    · with_reducible assumption
  clear_value z6
  extract_lets +onlyGivenNames z7
  clear_value z7
  extract_lets +onlyGivenNames z8
  clear_value z8
  extract_lets +onlyGivenNames z9
  have hz9 : MemForm z9 := by
    unfold z9
    split
    · with_reducible assumption
    · refine modWin_form ?_
      with_reducible assumption
  clear_value z9
  extract_lets +onlyGivenNames z10
  have hz10 : MemForm z10 := by
    unfold z10
    split
    · refine moveOut_form ?_
      with_reducible assumption
    · refine moveIn_form ?_
      with_reducible assumption
  clear_value z10
  split
  · refine finishCopy_form ?_
    split
    · with_reducible assumption
    · refine fillOut_form ?_
      with_reducible assumption
  · extract_lets +onlyGivenNames z11
    clear_value z11
    refine modGroup_form ?_
    refine bump_form ?_
    with_reducible assumption

theorem copyStep_form {s : State} {a1} {a2} {a3} {a4} (h : MemForm s) :
    MemForm (copyStep s a1 a2 a3 a4) := by
  unfold copyStep
  extract_lets +onlyGivenNames z0
  clear_value z0
  extract_lets +onlyGivenNames z1
  have hz1 : MemForm z1.1 := by
    unfold z1
    refine released_form ?_
    with_reducible assumption
  clear_value z1
  split
  · with_reducible assumption
  · extract_lets +onlyGivenNames z2
    clear_value z2
    extract_lets +onlyGivenNames z3
    clear_value z3
    extract_lets +onlyGivenNames z4
    clear_value z4
    split
    · refine engineFault_form ?_ (by assumption)
      with_reducible assumption
    · extract_lets +onlyGivenNames z5
      clear_value z5
      extract_lets +onlyGivenNames z6
      have hz6 : MemForm z6.1 := by
        unfold z6
        refine wbLines_form ?_
        with_reducible assumption
      clear_value z6
      split
      · with_reducible assumption
      · refine moveCopy_form ?_
        with_reducible assumption

theorem putTile_form {s : State} {a1} {a2} {a3} (h : MemForm s) :
    MemForm (putTile s a1 a2 a3) := by
  unfold putTile
  refine modCtx_form ?_
  with_reducible assumption

theorem reacqNudge_form {a0} {a1} {s : State} (h : MemForm s) :
    MemForm (reacqNudge a0 a1 s) := by
  unfold reacqNudge
  extract_lets +onlyGivenNames z0
  clear_value z0
  split
  · with_reducible assumption
  · extract_lets +onlyGivenNames z1
    clear_value z1
    extract_lets +onlyGivenNames z2
    clear_value z2
    split
    · with_reducible assumption
    · split
      · refine modHandle_form ?_
        with_reducible assumption
      · extract_lets +onlyGivenNames z3
        clear_value z3
        split
        · refine touch_form ?_
          with_reducible assumption
        · extract_lets +onlyGivenNames z4
          have hz4 : MemForm z4 := by
            unfold z4
            refine modHandle_form ?_
            with_reducible assumption
          clear_value z4
          split
          · refine modHandle_form ?_
            with_reducible assumption
          · refine sendReq_form ?_
            with_reducible assumption

theorem nameTenure_form {s : State} {a1} {a2} {a3} {a4} {a5} {a6} (h : MemForm s) :
    MemForm (nameTenure s a1 a2 a3 a4 a5 a6) := by
  unfold nameTenure
  refine modHandle_form ?_
  with_reducible assumption

theorem acquireTenure_form {s : State} {a1} {a2} {a3} {a4} {a5} {a6} {a7} {a8} {a9} (h : MemForm s) :
    MemForm (acquireTenure s a1 a2 a3 a4 a5 a6 a7 a8 a9) := by
  unfold acquireTenure
  split
  · refine nameTenure_form ?_
    with_reducible assumption
  · split
    · refine setOpResult_form ?_
      refine nameTenure_form ?_
      with_reducible assumption
    · refine sendReq_form ?_
      refine nameTenure_form ?_
      with_reducible assumption

theorem splitTenure_form {s : State} {a1} {a2} {a3} (h : MemForm s) :
    MemForm (splitTenure s a1 a2 a3) := by
  unfold splitTenure
  extract_lets +onlyGivenNames z0
  clear_value z0
  extract_lets +onlyGivenNames z1
  have hz1 : MemForm z1 := by
    unfold z1
    refine modDie_form ?_
    with_reducible assumption
  clear_value z1
  split
  · with_reducible assumption
  · extract_lets +onlyGivenNames z2
    clear_value z2
    refine modDie_form ?_
    with_reducible assumption

theorem modMirror_form {s : State} {a1} {a2} (h : MemForm s) :
    MemForm (modMirror s a1 a2) := by
  unfold modMirror
  refine modCtx_form ?_
  with_reducible assumption

theorem startCheckpoint_form {s : State} {a1} (h : MemForm s) :
    MemForm (startCheckpoint s a1) := by
  unfold startCheckpoint
  extract_lets +onlyGivenNames z0
  clear_value z0
  extract_lets +onlyGivenNames z1
  have hz1 : MemForm z1 := by
    unfold z1
    refine modMirror_form ?_
    with_reducible assumption
  clear_value z1
  refine foldl_form (fun _ _ _ => ?_) ?_
  · split
    · with_reducible assumption
    · refine forcePreempt_form ?_
      with_reducible assumption
  · with_reducible assumption

theorem markReads_form {s : State} {a1} {a2} (h : MemForm s) :
    MemForm (markReads s a1 a2) := by
  unfold markReads
  refine foldl_form (fun _ _ _ => ?_) ?_
  · refine engMark_form ?_
    with_reducible assumption
  · with_reducible assumption

theorem waitPage_form {s : State} {a1} {a2} {a3} {a4} (h : MemForm s) :
    MemForm (waitPage s a1 a2 a3 a4) := by
  unfold waitPage
  refine modGroup_form ?_
  refine raiseFault_form ?_
  with_reducible assumption

theorem rayStep_form {s : State} {a1} {a2} {a3} {a4} {a5} (h : MemForm s) :
    MemForm (rayStep s a1 a2 a3 a4 a5) := by
  unfold rayStep
  split
  · extract_lets +onlyGivenNames z0
    clear_value z0
    extract_lets +onlyGivenNames z1
    have hz1 : MemForm z1 := by
      unfold z1
      split
      · refine acquired_form ?_
        with_reducible assumption
      · with_reducible assumption
    clear_value z1
    refine modGroup_form ?_
    refine waitPage_form ?_
    with_reducible assumption
  · extract_lets +onlyGivenNames z0
    have hz0 : MemForm z0 := by
      unfold z0
      refine markReads_form ?_
      with_reducible assumption
    clear_value z0
    extract_lets +onlyGivenNames z1
    have hz1 : MemForm z1 := by
      unfold z1
      split
      · refine acquired_form ?_
        with_reducible assumption
      · with_reducible assumption
    clear_value z1
    extract_lets +onlyGivenNames z2
    have hz2 : MemForm z2 := by
      unfold z2
      refine modGroup_form ?_
      with_reducible assumption
    clear_value z2
    refine finishOpS_form ?_
    refine bump_form ?_
    with_reducible assumption

theorem putPins_form {s : State} {a1} {a2} {a3} (h : MemForm s) :
    MemForm (putPins s a1 a2 a3) := by
  unfold putPins
  refine engPut_form ?_
  with_reducible assumption

theorem structAcq_form {s : State} {a1} {a2} (h : MemForm s) :
    MemForm (structAcq s a1 a2) := by
  unfold structAcq
  split
  · split
    · refine acquired_form ?_
      with_reducible assumption
    · with_reducible assumption
  · with_reducible assumption

theorem structStep_form {s : State} {a1} {a2} {a3} (h : MemForm s) :
    MemForm (structStep s a1 a2 a3) := by
  unfold structStep
  split
  · refine waitPage_form ?_
    with_reducible assumption
  · extract_lets +onlyGivenNames z0
    have hz0 : MemForm z0 := by
      unfold z0
      refine markReads_form ?_
      with_reducible assumption
    clear_value z0
    refine landOpS_form ?_
    refine structAcq_form ?_
    with_reducible assumption

theorem markRequest_form {s : State} {a1} {a2} (h : MemForm s) :
    MemForm (markRequest s a1 a2) := by
  unfold markRequest
  extract_lets +onlyGivenNames z0
  clear_value z0
  refine markReads_form ?_
  with_reducible assumption

theorem builderWait_form {s : State} {a1} {a2} {a3} {a4} (h : MemForm s) :
    MemForm (builderWait s a1 a2 a3 a4) := by
  unfold builderWait
  refine modGroup_form ?_
  refine raiseFault_form ?_
  with_reducible assumption

theorem requestWrites_form {s : State} {x ws} (h : MemForm s) : MemForm (requestWrites s x ws) := by
  unfold requestWrites
  exact foldl_form (fun _ _ ht => engWrite_form ht) h

theorem endRequest_form {s : State} {a1} (h : MemForm s) :
    MemForm (endRequest s a1) := by
  unfold endRequest
  refine finishOpS_form ?_
  refine acquired_form ?_
  with_reducible assumption

theorem keepRequest_form {s : State} {a1} {a2} (h : MemForm s) :
    MemForm (keepRequest s a1 a2) := by
  unfold keepRequest
  refine modGroup_form ?_
  with_reducible assumption

theorem leaveBlock_form {s t : State} {q x failed outs} (h : MemForm s)
    (e : leaveBlock s q x failed outs = .ok t ∨ leaveBlock s q x failed outs = .error t) : MemForm t := by
  unfold leaveBlock at e
  have close (u : State) (hu : MemForm u) (e : (Except.ok u : Except State State) = .ok t ∨ (Except.ok u : Except State State) = .error t) :
      MemForm t := by
    rcases e with e | e
    · cases e; exact hu
    · cases e
  split at e
  · split at e
    · exact close _ (endRequest_form (requestWrites_form h)) e
    · exact close _ (endRequest_form h) e
  · split at e
    · split at e
      · rcases e with e | e
        · cases e
        · cases e; exact builderWait_form h
      · exact close _ (endRequest_form h) e
    · exact close _ (endRequest_form h) e

theorem leaveRequest_form {s t : State} {q x r ws} (h : MemForm s)
    (e : leaveRequest s q x r ws = .ok t ∨ leaveRequest s q x r ws = .error t) : MemForm t := by
  unfold leaveRequest at e
  dsimp only at e
  split at e
  · rename_i e2
    rcases e with e | e
    · cases e; exact leaveBlock_form (requestWrites_form h) (.inl e2)
    · cases e
  · rename_i e2
    rcases e with e | e
    · cases e
    · cases e
      exact keepRequest_form (leaveBlock_form (requestWrites_form h) (.inr e2))

theorem finishRequest_form {s t : State} {q : BReq} (h : MemForm s) (e : finishRequest s q = .ok t ∨ finishRequest s q = .error t) :
    MemForm t := by
  unfold finishRequest at e
  extract_lets +onlyGivenNames x o failed at e
  split at e
  · rcases e with e | e
    · cases e
    · cases e; exact h
  · split at e
    · exact leaveBlock_form h e
    · have hm : ∀ f, MemForm (markRequest s q f) := fun _ => markRequest_form h
      split at e
      · rcases e with e | e
        · cases e
        · cases e; exact builderWait_form h
      · exact leaveRequest_form (hm _) e
      · extract_lets +onlyGivenNames s1 at e
        have h1 : MemForm s1 := hm _
        clear_value s1
        split at e
        · rcases e with e | e
          · cases e
          · cases e; exact keepRequest_form (requestWrites_form h1)
        · exact leaveRequest_form h1 e

theorem forwardRequest_form {s : State} {a1} (h : MemForm s) :
    MemForm (forwardRequest s a1) := by
  unfold forwardRequest
  split
  · split
    · refine modDie_form ?_
      refine modDie_form ?_
      with_reducible assumption
    · with_reducible assumption
  · split
    · split
      · refine builderWait_form ?_
        with_reducible assumption
      · with_reducible assumption
    · with_reducible assumption

theorem dispatchRequest_form {s t : State} {d k : Nat} (h : MemForm s) (e : dispatchRequest s d k = some t) : MemForm t := by
  unfold dispatchRequest at e
  split at e
  · cases e
  · rw [Option.map_eq_some_iff] at e
    obtain ⟨q, -, rfl⟩ := e
    exact h

theorem completeRequest_form {s t : State} {d k : Nat} (h : MemForm s) (e : completeRequest s d k = some t) : MemForm t := by
  unfold completeRequest at e
  rw [Option.map_eq_some_iff] at e
  obtain ⟨q, -, rfl⟩ := e
  split
  · exact finishRequest_form h (.inr (by assumption))
  · rename_i e
    have ht := finishRequest_form h (.inl e)
    exact modDie_form ht

theorem modFn_form {s : State} {a1} {a2} (h : MemForm s) :
    MemForm (modFn s a1 a2) := by
  unfold modFn
  with_reducible assumption

theorem raiseFor_form {s : State} {a1} {a2} (h : MemForm s) :
    MemForm (raiseFor s a1 a2) := by
  unfold raiseFor
  split
  · with_reducible assumption
  · with_reducible assumption

theorem lowerStatus_form {s : State} {a1} {a2} {a3} {a4} (h : MemForm s) :
    MemForm (lowerStatus s a1 a2 a3 a4) := by
  unfold lowerStatus
  refine modBuf_form ?_
  with_reducible assumption

theorem answerPost_form {s : State} {a1} {a2} {a3} (h : MemForm s) :
    MemForm (answerPost s a1 a2 a3) := by
  unfold answerPost
  extract_lets +onlyGivenNames z0
  clear_value z0
  split
  · with_reducible assumption
  · refine unblockGroup_form ?_
    refine modGroup_form ?_
    with_reducible assumption

theorem returnWrites_form {s : State} {a1} (h : MemForm s) :
    MemForm (returnWrites s a1) := by
  unfold returnWrites
  extract_lets +onlyGivenNames z0
  have hz0 : MemForm z0.1 := by
    unfold z0
    refine foldl_form1 (fun _ _ _ => ?_) ?_
    · split
      · dsimp only
        refine pairSend_form ?_
        with_reducible assumption
      · with_reducible assumption
    · with_reducible assumption
  clear_value z0
  refine modHalf_form ?_
  with_reducible assumption

theorem judgeWrite_form {s : State} {a1} {a2} {a3} (h : MemForm s) :
    MemForm (judgeWrite s a1 a2 a3) := by
  unfold judgeWrite
  refine returnWrites_form ?_
  refine modHalf_form ?_
  with_reducible assumption

theorem takeMbox_form {a0} {a1} {a2} {a3} {s : State} (h : MemForm s) :
    MemForm (takeMbox a0 a1 a2 a3 s) := by
  unfold takeMbox
  extract_lets +onlyGivenNames z0
  clear_value z0
  extract_lets +onlyGivenNames z1
  clear_value z1
  extract_lets +onlyGivenNames z2
  clear_value z2
  extract_lets +onlyGivenNames z3
  clear_value z3
  refine postMsg_form ?_
  refine bump_form ?_
  refine modHalf_form ?_
  with_reducible assumption

theorem replyPost_form {s : State} {a1} {a2} (h : MemForm s) :
    MemForm (replyPost s a1 a2) := by
  unfold replyPost
  split
  · with_reducible assumption
  · refine answerPost_form ?_
    with_reducible assumption
  · split
    · with_reducible assumption
    · refine lowerStatus_form ?_
      with_reducible assumption
  · extract_lets +onlyGivenNames z0
    have hz0 : MemForm z0 := by
      unfold z0
      refine judgeWrite_form ?_
      with_reducible assumption
    clear_value z0
    split
    · refine sendAck_form ?_
      with_reducible assumption
    · with_reducible assumption

theorem rejectLaunch_form {s : State} {a1} {a2} (h : MemForm s) :
    MemForm (rejectLaunch s a1 a2) := by
  unfold rejectLaunch
  extract_lets +onlyGivenNames z0
  have hz0 : MemForm z0.1 := by
    unfold z0
    refine freshId_form ?_
    with_reducible assumption
  clear_value z0
  refine endLaunch_form ?_
  with_reducible assumption

theorem checkReadable_form {s : State} {a1} {a2} {a3} {a4} (h : MemForm s) :
    MemForm (checkReadable s a1 a2 a3 a4) := by
  unfold checkReadable
  extract_lets +onlyGivenNames z0
  have hz0 : MemForm z0 := by
    unfold z0
    refine engMark_form ?_
    with_reducible assumption
  clear_value z0
  extract_lets +onlyGivenNames z1
  clear_value z1
  extract_lets +onlyGivenNames z2
  clear_value z2
  extract_lets +onlyGivenNames z3
  clear_value z3
  split
  · refine rejectLaunch_form ?_
    with_reducible assumption
  · split
    · refine rejectLaunch_form ?_
      with_reducible assumption
    · split
      · refine rejectLaunch_form ?_
        with_reducible assumption
      · refine modBox_form ?_
        with_reducible assumption

theorem checkAt_form {s : State} {a1} {a2} {a3} {a4} {a5} (h : MemForm s) :
    MemForm (checkAt s a1 a2 a3 a4 a5) := by
  unfold checkAt
  split
  · split
    · refine modBox_form ?_
      refine raiseFault_form ?_
      with_reducible assumption
    · refine rejectLaunch_form ?_
      with_reducible assumption
  · refine checkReadable_form ?_
    with_reducible assumption

theorem checkEntry_form {s : State} {a1} {a2} (h : MemForm s) :
    MemForm (checkEntry s a1 a2) := by
  unfold checkEntry
  extract_lets +onlyGivenNames z0
  clear_value z0
  extract_lets +onlyGivenNames z1
  clear_value z1
  refine checkAt_form ?_
  with_reducible assumption

theorem checkEntries_form {n : Nat} {s : State} {mb : Nat} (h : MemForm s) : MemForm (checkEntries n s mb) := by
  induction n generalizing s with
  | zero => exact h
  | succ n ih =>
    unfold checkEntries
    dsimp only
    split
    · exact h
    · split
      · exact h
      · exact ih (checkEntry_form h)

theorem checkBox_form {s : State} {a1} (h : MemForm s) :
    MemForm (checkBox s a1) := by
  unfold checkBox
  refine checkEntries_form ?_
  with_reducible assumption

theorem arrivePost_form {s : State} {a1} (h : MemForm s) :
    MemForm (arrivePost s a1) := by
  unfold arrivePost
  extract_lets +onlyGivenNames z0
  clear_value z0
  split
  · refine replyPost_form ?_
    with_reducible assumption
  · split
    · refine replyPost_form ?_
      refine modBox_form ?_
      with_reducible assumption
    · extract_lets +onlyGivenNames z1
      clear_value z1
      extract_lets +onlyGivenNames z2
      have hz2 : MemForm z2 := by
        unfold z2
        refine engPut_form ?_
        with_reducible assumption
      clear_value z2
      extract_lets +onlyGivenNames z3
      have hz3 : MemForm z3 := by
        unfold z3
        refine clearCovered_form ?_
        with_reducible assumption
      clear_value z3
      extract_lets +onlyGivenNames z4
      have hz4 : MemForm z4 := by
        unfold z4
        refine modBox_form ?_
        with_reducible assumption
      clear_value z4
      refine checkBox_form ?_
      refine replyPost_form ?_
      split
      · refine raiseFor_form ?_
        with_reducible assumption
      · with_reducible assumption

theorem beginLaunch_form {s : State} {a1} (h : MemForm s) :
    MemForm (beginLaunch s a1) := by
  unfold beginLaunch
  extract_lets +onlyGivenNames z0
  have hz0 : MemForm z0.1 := by
    unfold z0
    refine freshId_form ?_
    with_reducible assumption
  clear_value z0
  extract_lets +onlyGivenNames z1
  have hz1 : MemForm z1 := by
    unfold z1
    with_reducible assumption
  clear_value z1
  extract_lets +onlyGivenNames z2
  have hz2 : MemForm z2 := by
    unfold z2
    with_reducible assumption
  clear_value z2
  refine schedule_form ?_
  split
  · with_reducible assumption
  · refine schedEvent_form ?_
    with_reducible assumption

theorem takeMessage_form {s : State} {a1} {a2} (h : MemForm s) :
    MemForm (takeMessage s a1 a2) := by
  unfold takeMessage
  refine modBox_form ?_
  with_reducible assumption

theorem startLaunch_form {s : State} {a1} (h : MemForm s) :
    MemForm (startLaunch s a1) := by
  unfold startLaunch
  split
  · with_reducible assumption
  · refine beginLaunch_form ?_
    refine takeMessage_form ?_
    with_reducible assumption

theorem failTemplate_form {s : State} {a1} (h : MemForm s) :
    MemForm (failTemplate s a1) := by
  unfold failTemplate
  extract_lets +onlyGivenNames z0
  have hz0 : MemForm z0 := by
    unfold z0
    refine modBox_form ?_
    with_reducible assumption
  clear_value z0
  split
  · with_reducible assumption
  · refine checkBox_form ?_
    refine rejectLaunch_form ?_
    with_reducible assumption

theorem retryTemplate_form {s : State} {a1} (h : MemForm s) :
    MemForm (retryTemplate s a1) := by
  unfold retryTemplate
  refine checkBox_form ?_
  refine modBox_form ?_
  with_reducible assumption

theorem without_form {s : State} {a1} (h : MemForm s) :
    MemForm (without s a1) := by
  unfold without
  refine foldl_form (fun _ _ _ => ?_) ?_
  · refine vacateWin_form ?_
    with_reducible assumption
  · with_reducible assumption

theorem requestGangs_form {s : State} {a1} {a2} (h : MemForm s) :
    MemForm (requestGangs s a1 a2) := by
  unfold requestGangs
  refine foldl_form (fun _ _ _ => ?_) ?_
  · refine requestPreempt_form ?_
    with_reducible assumption
  · with_reducible assumption

theorem preemptTeam_form {s : State} {a1} (h : MemForm s) :
    ∀ {t}, preemptTeam s a1 = some t → MemForm t := by
  unfold preemptTeam
  intro t ht
  split at ht
  · cases ht
    refine requestGangs_form ?_
    with_reducible assumption
  · split at ht
    · cases ht
    · extract_lets +onlyGivenNames z0 at ht
      clear_value z0
      split at ht
      · cases ht
      · split at ht
        · cases ht
          refine requestGangs_form ?_
          refine modLaunch_form ?_
          with_reducible assumption
        · cases ht

theorem expireSlice_form {s : State} {a1} (h : MemForm s) :
    MemForm (expireSlice s a1) := by
  unfold expireSlice
  refine requestGangs_form ?_
  refine modTeam_form ?_
  with_reducible assumption

theorem drainTeam_form {s : State} {a1} (h : MemForm s) :
    MemForm (drainTeam s a1) := by
  unfold drainTeam
  refine modTeam_form ?_
  refine schedEvent_form ?_
  refine payOverrun_form ?_
  with_reducible assumption

theorem restoreNext_form {s : State} {a1} (h : MemForm s) :
    ∀ {t}, restoreNext s a1 = some t → MemForm t := by
  unfold restoreNext
  intro t ht
  extract_lets +onlyGivenNames z0 at ht
  clear_value z0
  split at ht
  · cases ht
  · split at ht
    · cases ht
    · cases ht
      refine schedule_form ?_
      refine restoreGang_form ?_
      with_reducible assumption

theorem freshTeam_form {s : State} {a1} {a2} (h : MemForm s) :
    MemForm (freshTeam s a1 a2).1 := by
  unfold freshTeam
  extract_lets +onlyGivenNames z0
  have hz0 : MemForm z0.1 := by
    unfold z0
    refine freshId_form ?_
    with_reducible assumption
  clear_value z0
  extract_lets +onlyGivenNames z1
  have hz1 : MemForm z1.1 := by
    unfold z1
    refine freshId_form ?_
    with_reducible assumption
  clear_value z1
  extract_lets +onlyGivenNames z2
  have hz2 : MemForm z2 := by
    unfold z2
    with_reducible assumption
  clear_value z2
  extract_lets +onlyGivenNames z3
  have hz3 : MemForm z3 := by
    unfold z3
    with_reducible assumption
  clear_value z3
  dsimp only
  refine foldl_form (fun _ _ _ => ?_) ?_
  · refine setGroup_form ?_
    refine freshId_form ?_
    with_reducible assumption
  · with_reducible assumption

theorem restoreLinks_form {s : State} {a1} {a2} (h : MemForm s) :
    MemForm (restoreLinks s a1 a2) := by
  unfold restoreLinks
  with_reducible assumption

theorem writeSaved_form {s : State} {a1} (h : MemForm s) :
    MemForm (writeSaved s a1) := by
  unfold writeSaved
  extract_lets +onlyGivenNames z0
  clear_value z0
  split
  · with_reducible assumption
  · extract_lets +onlyGivenNames z1
    clear_value z1
    extract_lets +onlyGivenNames z2
    clear_value z2
    refine clearCovered_form ?_
    refine postPut_form ?_
    refine engMark_form ?_
    with_reducible assumption

theorem safePoint_form {s : State} {a1} (h : MemForm s) :
    ∀ {t}, safePoint s a1 = some t → MemForm t := by
  unfold safePoint
  intro t ht
  extract_lets +onlyGivenNames z0 at ht
  clear_value z0
  split at ht
  · cases ht
  · extract_lets +onlyGivenNames z1 at ht
    clear_value z1
    split at ht
    · cases ht
      refine schedule_form ?_
      refine writeSaved_form ?_
      refine foldl_form (fun _ _ _ => ?_) ?_
      · refine vacateWin_form ?_
        with_reducible assumption
      · refine foldl_form (fun _ _ _ => ?_) ?_
        · refine saveTeam_form ?_
          with_reducible assumption
        · with_reducible assumption
    · split at ht
      · cases ht
        refine schedule_form ?_
        refine foldl_form (fun _ _ _ => ?_) ?_
        · refine flushTeam_form ?_
          with_reducible assumption
        · with_reducible assumption
      · cases ht
        refine schedule_form ?_
        refine foldl_form (fun _ _ _ => ?_) ?_
        · refine drainTeam_form ?_
          with_reducible assumption
        · with_reducible assumption

theorem restoreGroups_form {r : LRec} {tid n : Nat} {l : List Nat} {bs : List Byte} {s : State} (h : MemForm s) : MemForm (restoreGroups r tid n l bs s) := by
  induction n generalizing s l bs with
  | zero => exact h
  | succ n ih =>
    cases l with
    | nil => exact h
    | cons i l =>
      unfold restoreGroups
      refine ih ?_
      split
      · exact h
      · exact setGroup_form (freshId_form h)

theorem restoreTeams_form {lid n : Nat} {bs : List Byte} {s : State} (h : MemForm s) : MemForm (restoreTeams lid n bs s) := by
  induction n generalizing s bs with
  | zero => exact h
  | succ n ih =>
    unfold restoreTeams
    extract_lets +onlyGivenNames l idx wb k old w
    have hw : MemForm w.1 := freshId_form (freshId_form h)
    clear_value w old k
    extract_lets +onlyGivenNames src win w1
    have hw1 : MemForm w1 := hw
    clear_value w1 win src
    extract_lets +onlyGivenNames s1
    have h1 : MemForm s1 := by
      unfold s1
      split
      · split
        · exact hw
        · exact hw1
      · exact hw1
    clear_value s1
    extract_lets +onlyGivenNames bufs cw t s2 s3 nx
    have h3 : MemForm s3 := restoreGroups_form h1
    clear_value s3
    split
    · exact h3
    · exact ih h3

theorem restoreLaunches_form {ctx : Nat} {img : List Byte} {tboff n : Nat} {bs : List Byte} {s : State} (h : MemForm s) :
    MemForm (restoreLaunches ctx img tboff n bs s) := by
  induction n generalizing s bs with
  | zero => exact h
  | succ n ih =>
    unfold restoreLaunches
    exact ih (restoreTeams_form (freshId_form h))

theorem restoreContext_form {s : State} {a1} {a2} {a3} (h : MemForm s) :
    MemForm (restoreContext s a1 a2 a3) := by
  unfold restoreContext
  extract_lets +onlyGivenNames z0
  clear_value z0
  extract_lets +onlyGivenNames z1
  clear_value z1
  extract_lets +onlyGivenNames z2
  clear_value z2
  extract_lets +onlyGivenNames z3
  clear_value z3
  extract_lets +onlyGivenNames z4
  clear_value z4
  extract_lets +onlyGivenNames z5
  clear_value z5
  extract_lets +onlyGivenNames z6
  have hz6 : MemForm z6 := by
    unfold z6
    with_reducible assumption
  clear_value z6
  extract_lets +onlyGivenNames z7
  have hz7 : MemForm z7 := by
    unfold z7
    refine restoreLaunches_form ?_
    with_reducible assumption
  clear_value z7
  refine restoreLinks_form ?_
  with_reducible assumption

theorem directPut_form {s : State} {a1} {a2} (h : MemForm s) :
    MemForm (directPut s a1 a2) := by
  unfold directPut
  refine memForm_intro ?_
  dsimp only
  refine memPuts_form (fun _ _ _ => ?_) ?_
  · refine memPut_form ?_
    with_reducible assumption
  · with_reducible assumption

theorem readyCheckpoint_form {s : State} {a1} {a2} (h : MemForm s) :
    MemForm (readyCheckpoint s a1 a2) := by
  unfold readyCheckpoint
  refine foldl_form (fun _ _ _ => ?_) ?_
  · split
    · refine modTeam_form ?_
      with_reducible assumption
    · split
      · refine schedEvent_form ?_
        refine modTeam_form ?_
        with_reducible assumption
      · with_reducible assumption
  · with_reducible assumption

theorem endCkpts_form {s : State} {a1} {a2} {a3} (h : MemForm s) :
    MemForm (endCkpts s a1 a2 a3) := by
  unfold endCkpts
  refine foldl_form (fun _ _ _ => ?_) ?_
  · refine foldl_form (fun _ _ _ => ?_) ?_
    · split
      · with_reducible assumption
      · refine unblockGroup_form ?_
        refine modGroup_form ?_
        with_reducible assumption
    · with_reducible assumption
  · with_reducible assumption

theorem nextCheckpoint_form {s : State} {a1} (h : MemForm s) :
    MemForm (nextCheckpoint s a1) := by
  unfold nextCheckpoint
  extract_lets +onlyGivenNames z0
  clear_value z0
  extract_lets +onlyGivenNames z1
  clear_value z1
  split
  · with_reducible assumption
  · extract_lets +onlyGivenNames z2
    have hz2 : MemForm z2 := by
      unfold z2
      refine startCheckpoint_form ?_
      with_reducible assumption
    clear_value z2
    extract_lets +onlyGivenNames z3
    clear_value z3
    extract_lets +onlyGivenNames z4
    clear_value z4
    refine foldl_form (fun _ _ _ => ?_) ?_
    · refine modGroup_form ?_
      with_reducible assumption
    · with_reducible assumption

theorem failCheckpoint_form {s : State} {a1} (h : MemForm s) :
    MemForm (failCheckpoint s a1) := by
  unfold failCheckpoint
  split
  · with_reducible assumption
  · extract_lets +onlyGivenNames z0
    have hz0 : MemForm z0 := by
      unfold z0
      refine modMirror_form ?_
      with_reducible assumption
    clear_value z0
    refine schedule_form ?_
    refine nextCheckpoint_form ?_
    refine endCkpts_form ?_
    refine readyCheckpoint_form ?_
    with_reducible assumption

theorem imageCheckpoint_form {s : State} {a1} {a2} (h : MemForm s) :
    MemForm (imageCheckpoint s a1 a2) := by
  unfold imageCheckpoint
  extract_lets +onlyGivenNames z0
  clear_value z0
  extract_lets +onlyGivenNames z1
  clear_value z1
  extract_lets +onlyGivenNames z2
  clear_value z2
  extract_lets +onlyGivenNames z3
  clear_value z3
  extract_lets +onlyGivenNames z4
  clear_value z4
  split
  · refine failCheckpoint_form ?_
    with_reducible assumption
  · split
    · refine failCheckpoint_form ?_
      with_reducible assumption
    · extract_lets +onlyGivenNames z5
      have hz5 : MemForm z5 := by
        unfold z5
        refine directPut_form ?_
        with_reducible assumption
      clear_value z5
      extract_lets +onlyGivenNames z6
      have hz6 : MemForm z6 := by
        unfold z6
        refine foldl_form (fun _ _ _ => ?_) ?_
        · refine directPut_form ?_
          with_reducible assumption
        · with_reducible assumption
      clear_value z6
      extract_lets +onlyGivenNames z7
      have hz7 : MemForm z7 := by
        unfold z7
        refine logPut_form ?_
        refine modMirror_form ?_
        with_reducible assumption
      clear_value z7
      refine schedule_form ?_
      refine readyCheckpoint_form ?_
      with_reducible assumption

theorem commitCheckpoint_form {s : State} {a1} {a2} (h : MemForm s) :
    MemForm (commitCheckpoint s a1 a2) := by
  unfold commitCheckpoint
  extract_lets +onlyGivenNames z0
  clear_value z0
  split
  · refine failCheckpoint_form ?_
    with_reducible assumption
  · extract_lets +onlyGivenNames z1
    have hz1 : MemForm z1 := by
      unfold z1
      refine directPut_form ?_
      with_reducible assumption
    clear_value z1
    extract_lets +onlyGivenNames z2
    have hz2 : MemForm z2 := by
      unfold z2
      refine pairSend_form ?_
      with_reducible assumption
    clear_value z2
    extract_lets +onlyGivenNames z3
    have hz3 : MemForm z3 := by
      unfold z3
      refine modMirror_form ?_
      with_reducible assumption
    clear_value z3
    refine nextCheckpoint_form ?_
    refine endCkpts_form ?_
    with_reducible assumption

theorem stepCheckpoint_form {s : State} {a1} (h : MemForm s) :
    ∀ {t}, stepCheckpoint s a1 = some t → MemForm t := by
  unfold stepCheckpoint
  intro t ht
  extract_lets +onlyGivenNames z0 at ht
  clear_value z0
  split at ht
  · cases ht
  · split at ht
    · split at ht
      · cases ht
      · cases ht
        refine commitCheckpoint_form ?_
        with_reducible assumption
    · split at ht
      · cases ht
        refine imageCheckpoint_form ?_
        with_reducible assumption
      · cases ht

theorem applyLog_form {s : State} {a1} {a2} (h : MemForm s) :
    MemForm (applyLog s a1 a2) := by
  unfold applyLog
  extract_lets +onlyGivenNames z0
  clear_value z0
  split
  · with_reducible assumption
  · extract_lets +onlyGivenNames z1
    have hz1 : MemForm z1 := by
      unfold z1
      refine foldl_form (fun _ _ _ => ?_) ?_
      · split
        · with_reducible assumption
        · refine memForm_intro ?_
          dsimp only
          refine memPuts_form (fun _ _ _ => ?_) ?_
          · split
            · refine memPut_form ?_
              with_reducible assumption
            · with_reducible assumption
          · with_reducible assumption
      · with_reducible assumption
    clear_value z1
    extract_lets +onlyGivenNames z2
    clear_value z2
    refine foldl_form (fun _ _ _ => ?_) ?_
    · refine ringPut_form ?_
      with_reducible assumption
    · refine modMirror_form ?_
      with_reducible assumption

theorem raiseSvn_form {s : State} {a1} (h : MemForm s) :
    MemForm (raiseSvn s a1) := by
  unfold raiseSvn
  with_reducible assumption

theorem advanceBoot_form {s : State} (h : MemForm s) :
    MemForm (advanceBoot s) := by
  unfold advanceBoot
  split
  · with_reducible assumption
  · with_reducible assumption

theorem rej_form {s : State} {a1} (h : MemForm s) :
    MemForm (rej s a1) := by
  unfold rej
  refine modFn_form ?_
  with_reducible assumption

/-- What a read returns is no byte of memory. -/
theorem readback_form {s : State} {v : Nat} (h : MemForm s) : MemForm { s with readback := v } := h

theorem readHstat_form {s : State} {f} (h : MemForm s) : MemForm (readHstat s f) := by
  unfold readHstat
  split
  · exact modFn_form (readback_form h)
  · exact h

theorem readRasstat_form {s : State} {f d} (h : MemForm s) : MemForm (readRasstat s f d) := by
  unfold readRasstat
  split
  · exact h
  · dsimp only
    split
    · exact modDie_form (readback_form h)
    · exact readback_form h

theorem readPairstat_form {s : State} {half} (h : MemForm s) : MemForm (readPairstat s half) := by
  unfold readPairstat
  split
  · exact modHalf_form (readback_form h)
  · exact h

theorem writeInv_form {s : State} {a1} {a2} {a3} (h : MemForm s) :
    MemForm (writeInv s a1 a2 a3) := by
  unfold writeInv
  extract_lets +onlyGivenNames z0
  clear_value z0
  split
  · with_reducible assumption
  · split
    · refine rej_form ?_
      with_reducible assumption
    · split
      · with_reducible assumption
      · with_reducible assumption

theorem invalidate_form {s : State} {a1} (h : MemForm s) :
    MemForm (invalidate s a1) := by
  unfold invalidate
  extract_lets +onlyGivenNames z0
  clear_value z0
  extract_lets +onlyGivenNames z1
  have hz1 : MemForm z1 := by
    unfold z1
    split
    · with_reducible assumption
    · with_reducible assumption
  clear_value z1
  extract_lets +onlyGivenNames z2
  have hz2 : MemForm z2 := by
    unfold z2
    refine foldl_form (fun _ _ _ => ?_) ?_
    · refine pairRelease_form ?_
      refine releaseCore_form ?_
      with_reducible assumption
    · with_reducible assumption
  clear_value z2
  with_reducible assumption

theorem completeInv_form {s : State} (h : MemForm s) :
    MemForm (completeInv s) := by
  unfold completeInv
  split
  · with_reducible assumption
  · split
    · with_reducible assumption
    · extract_lets +onlyGivenNames z0
      have hz0 : MemForm z0 := by
        unfold z0
        refine invalidate_form ?_
        with_reducible assumption
      clear_value z0
      with_reducible assumption

theorem replyOps_form {s : State} {a1} {a2} {a3} (h : MemForm s) :
    MemForm (replyOps s a1 a2 a3) := by
  unfold replyOps
  with_reducible assumption

theorem readyFault_form {s : State} {a1} {a2} (h : MemForm s) :
    MemForm (readyFault s a1 a2) := by
  unfold readyFault
  refine foldl_form (fun _ _ _ => ?_) ?_
  · split
    · extract_lets +onlyGivenNames z0
      have hz0 : MemForm z0 := by
        unfold z0
        refine modTeam_form ?_
        with_reducible assumption
      clear_value z0
      split
      · refine schedEvent_form ?_
        with_reducible assumption
      · with_reducible assumption
    · with_reducible assumption
  · with_reducible assumption

theorem failFault_form {s : State} {a1} {a2} (h : MemForm s) :
    MemForm (failFault s a1 a2) := by
  unfold failFault
  refine foldl_form (fun _ _ _ => ?_) ?_
  · split
    · refine modTeam_form ?_
      with_reducible assumption
    · with_reducible assumption
  · with_reducible assumption

theorem replyDrains_form {s : State} {a1} {a2} {a3} (h : MemForm s) :
    MemForm (replyDrains s a1 a2 a3) := by
  unfold replyDrains
  refine foldl_form (fun _ _ _ => ?_) ?_
  · split
    · refine modCluster_form ?_
      with_reducible assumption
    · with_reducible assumption
  · with_reducible assumption

theorem replyPins_form {s : State} {a1} {a2} {a3} (h : MemForm s) :
    MemForm (replyPins s a1 a2 a3) := by
  unfold replyPins
  extract_lets +onlyGivenNames z0
  clear_value z0
  extract_lets +onlyGivenNames z1
  have hz1 : MemForm z1 := by
    unfold z1
    with_reducible assumption
  clear_value z1
  split
  · with_reducible assumption
  · refine foldl_form (fun _ _ _ => ?_) ?_
    · refine headerPins_form ?_
      with_reducible assumption
    · with_reducible assumption

theorem replyTemplates_form {s : State} {a1} {a2} {a3} (h : MemForm s) :
    MemForm (replyTemplates s a1 a2 a3) := by
  unfold replyTemplates
  refine foldl_form (fun _ _ _ => ?_) ?_
  · split
    · refine failTemplate_form ?_
      with_reducible assumption
    · refine retryTemplate_form ?_
      with_reducible assumption
  · with_reducible assumption

theorem replyFault_form {s : State} {a1} {a2} {a3} (h : MemForm s) :
    MemForm (replyFault s a1 a2 a3) := by
  unfold replyFault
  extract_lets +onlyGivenNames z0
  clear_value z0
  extract_lets +onlyGivenNames z1
  clear_value z1
  split
  · with_reducible assumption
  · split
    · refine rej_form ?_
      with_reducible assumption
    · split
      · with_reducible assumption
      · extract_lets +onlyGivenNames z2
        have hz2 : MemForm z2 := by
          unfold z2
          with_reducible assumption
        clear_value z2
        extract_lets +onlyGivenNames z3
        have hz3 : MemForm z3 := by
          unfold z3
          refine replyTemplates_form ?_
          refine replyPins_form ?_
          refine replyDrains_form ?_
          refine replyOps_form ?_
          with_reducible assumption
        clear_value z3
        split
        · refine failFault_form ?_
          with_reducible assumption
        · refine schedule_form ?_
          refine readyFault_form ?_
          with_reducible assumption

theorem writeReg_form {s : State} {a1} {a2} {a3} {a4} (h : MemForm s) :
    MemForm (writeReg s a1 a2 a3 a4) := by
  unfold writeReg
  split
  · with_reducible assumption
  · split
    · refine rej_form ?_
      with_reducible assumption
    · split
      · split
        · refine modFn_form ?_
          with_reducible assumption
        · refine rej_form ?_
          with_reducible assumption
      · split
        · refine modFn_form ?_
          with_reducible assumption
        · with_reducible assumption

theorem writeInvstat_form {s : State} {a1} {a2} (h : MemForm s) :
    MemForm (writeInvstat s a1 a2) := by
  unfold writeInvstat
  split
  · with_reducible assumption
  · with_reducible assumption

theorem ackBox_form {s : State} {a1} {a2} (h : MemForm s) :
    MemForm (ackBox s a1 a2) := by
  unfold ackBox
  extract_lets +onlyGivenNames z0
  clear_value z0
  extract_lets +onlyGivenNames z1
  clear_value z1
  split
  · with_reducible assumption
  · split
    · refine rej_form ?_
      with_reducible assumption
    · split
      · with_reducible assumption
      · refine modBox_form ?_
        with_reducible assumption

theorem hostMailbox_form {s : State} {a1} {a2} {a3} (h : MemForm s) :
    MemForm (hostMailbox s a1 a2 a3) := by
  unfold hostMailbox
  extract_lets +onlyGivenNames z0
  clear_value z0
  split
  · with_reducible assumption
  · split
    · refine arrivePost_form ?_
      with_reducible assumption
    · refine rej_form ?_
      with_reducible assumption

theorem drainFault_form {s : State} {a1} {a2} {a3} {a4} (h : MemForm s) :
    ∀ {t}, drainStep.drainFault s a1 a2 a3 a4 = some t → MemForm t := by
  unfold drainStep.drainFault
  intro t ht
  split at ht
  · cases ht
    refine modCluster_form ?_
    refine raiseFault_form ?_
    with_reducible assumption
  · cases ht
    refine modCluster_form ?_
    with_reducible assumption

theorem drainStep_form {s : State} {a1} (h : MemForm s) :
    ∀ {t}, drainStep s a1 = some t → MemForm t := by
  unfold drainStep
  intro t ht
  extract_lets +onlyGivenNames z0 at ht
  clear_value z0
  extract_lets +onlyGivenNames z1 at ht
  clear_value z1
  extract_lets +onlyGivenNames z2 at ht
  clear_value z2
  extract_lets +onlyGivenNames z3 at ht
  clear_value z3
  extract_lets +onlyGivenNames z4 at ht
  clear_value z4
  split at ht
  · cases ht
  · split at ht
    · exact drainFault_form h ht
    · extract_lets +onlyGivenNames z5 at ht
      clear_value z5
      extract_lets +onlyGivenNames z6 at ht
      clear_value z6
      extract_lets +onlyGivenNames z7 at ht
      clear_value z7
      split at ht
      · cases ht
      · extract_lets +onlyGivenNames z8 at ht
        clear_value z8
        extract_lets +onlyGivenNames z9 at ht
        clear_value z9
        extract_lets +onlyGivenNames z10 at ht
        clear_value z10
        split at ht
        · exact drainFault_form h ht
        · extract_lets +onlyGivenNames z11 at ht
          have hz11 : MemForm z11 := by
            unfold z11
            refine foldl_form (fun _ _ _ => ?_) ?_
            · refine engWrite_form ?_
              with_reducible assumption
            · with_reducible assumption
          clear_value z11
          extract_lets +onlyGivenNames z12 at ht
          clear_value z12
          extract_lets +onlyGivenNames z13 at ht
          have hz13 : MemForm z13 := by
            unfold z13
            split
            · with_reducible assumption
            · refine engWrite_form ?_
              with_reducible assumption
          clear_value z13
          extract_lets +onlyGivenNames z14 at ht
          have hz14 : MemForm z14 := by
            unfold z14
            refine engWrite_form ?_
            with_reducible assumption
          clear_value z14
          extract_lets +onlyGivenNames z15 at ht
          clear_value z15
          extract_lets +onlyGivenNames z16 at ht
          have hz16 : MemForm z16 := by
            unfold z16
            refine foldl_form (fun _ _ _ => ?_) ?_
            · refine engPoison_form ?_
              with_reducible assumption
            · with_reducible assumption
          clear_value z16
          cases ht
          refine modCluster_form ?_
          with_reducible assumption

theorem drainAll_form {n : Nat} {s : State} {k : Nat} (h : MemForm s) : MemForm (drainAll n s k) := by
  induction n generalizing s with
  | zero => exact h
  | succ n ih =>
    unfold drainAll
    split
    · exact h
    · exact ih (drainStep_form h (by assumption))

theorem returnBanks_form {s : State} {a1} (h : MemForm s) :
    MemForm (returnBanks s a1) := by
  unfold returnBanks
  extract_lets +onlyGivenNames z0
  have hz0 : MemForm z0 := by
    unfold z0
    split
    · refine schedEvent_form ?_
      with_reducible assumption
    · with_reducible assumption
  clear_value z0
  extract_lets +onlyGivenNames z1
  have hz1 : MemForm z1 := by
    unfold z1
    refine foldl_form (fun _ _ _ => ?_) ?_
    · refine modCluster_form ?_
      refine drainAll_form ?_
      with_reducible assumption
    · with_reducible assumption
  clear_value z1
  refine foldl_form (fun _ _ _ => ?_) ?_
  · refine modCluster_form ?_
    with_reducible assumption
  · with_reducible assumption

theorem releaseHandles_form {s : State} {a1} (h : MemForm s) :
    MemForm (releaseHandles s a1) := by
  unfold releaseHandles
  extract_lets +onlyGivenNames z0
  clear_value z0
  refine modCtx_form ?_
  refine foldl_form (fun _ _ _ => ?_) ?_
  · refine releaseBox_form ?_
    with_reducible assumption
  · with_reducible assumption

theorem endMirror_form {s : State} {a1} {a2} (h : MemForm s) :
    MemForm (endMirror s a1 a2) := by
  unfold endMirror
  extract_lets +onlyGivenNames z0
  clear_value z0
  extract_lets +onlyGivenNames z1
  have hz1 : MemForm z1 := by
    unfold z1
    split
    · refine foldl_form (fun _ _ _ => ?_) ?_
      · split
        · with_reducible assumption
        · refine memForm_intro ?_
          dsimp only
          refine memPuts_form (fun _ _ _ => ?_) ?_
          · split
            · refine memPut_form ?_
              with_reducible assumption
            · with_reducible assumption
          · with_reducible assumption
      · with_reducible assumption
    · with_reducible assumption
  clear_value z1
  refine modCtx_form ?_
  with_reducible assumption

theorem discardTeams_form {s : State} {a1} {a2} (h : MemForm s) :
    MemForm (discardTeams s a1 a2) := by
  unfold discardTeams
  extract_lets +onlyGivenNames z0
  clear_value z0
  extract_lets +onlyGivenNames z1
  clear_value z1
  extract_lets +onlyGivenNames z2
  have hz2 : MemForm z2 := by
    unfold z2
    split
    · with_reducible assumption
    · refine foldl_form (fun _ _ _ => ?_) ?_
      · refine releasePins_form ?_
        with_reducible assumption
      · with_reducible assumption
  clear_value z2
  extract_lets +onlyGivenNames z3
  have hz3 : MemForm z3 := by
    unfold z3
    refine foldl_form (fun _ _ _ => ?_) ?_
    · split
      · with_reducible assumption
      · refine schedEvent_form ?_
        with_reducible assumption
    · with_reducible assumption
  clear_value z3
  with_reducible assumption

theorem quitPeers_form {s : State} {a1} (h : MemForm s) :
    MemForm (quitPeers s a1) := by
  unfold quitPeers
  refine foldl_form (fun _ _ _ => ?_) ?_
  · split
    · with_reducible assumption
    · split
      · with_reducible assumption
      · refine pairSend_form ?_
        with_reducible assumption
  · with_reducible assumption

theorem endCtx_form {s : State} {a1} {a2} {a3} (h : MemForm s) :
    MemForm (endCtx s a1 a2 a3) := by
  unfold endCtx
  extract_lets +onlyGivenNames z0
  have hz0 : MemForm z0 := by
    unfold z0
    split
    · with_reducible assumption
    · with_reducible assumption
  clear_value z0
  extract_lets +onlyGivenNames z1
  have hz1 : MemForm z1 := by
    unfold z1
    refine discardTeams_form ?_
    with_reducible assumption
  clear_value z1
  extract_lets +onlyGivenNames z2
  have hz2 : MemForm z2 := by
    unfold z2
    refine foldl_form (fun _ _ _ => ?_) ?_
    · refine endLaunch_form ?_
      with_reducible assumption
    · with_reducible assumption
  clear_value z2
  extract_lets +onlyGivenNames z3
  have hz3 : MemForm z3 := by
    unfold z3
    refine endMirror_form ?_
    refine returnBanks_form ?_
    refine releaseHandles_form ?_
    with_reducible assumption
  clear_value z3
  extract_lets +onlyGivenNames z4
  have hz4 : MemForm z4 := by
    unfold z4
    with_reducible assumption
  clear_value z4
  refine schedule_form ?_
  refine modCtx_form ?_
  refine invalidate_form ?_
  refine quitPeers_form ?_
  with_reducible assumption

theorem doWindow_form {s : State} {a1} (h : MemForm s) :
    MemForm (doWindow s a1) := by
  unfold doWindow
  extract_lets +onlyGivenNames z0
  clear_value z0
  extract_lets +onlyGivenNames z1
  clear_value z1
  extract_lets +onlyGivenNames z2
  clear_value z2
  extract_lets +onlyGivenNames z3
  have hz3 : MemForm z3 := by
    unfold z3
    refine invalidate_form ?_
    with_reducible assumption
  clear_value z3
  extract_lets +onlyGivenNames z4
  clear_value z4
  extract_lets +onlyGivenNames z5
  clear_value z5
  extract_lets +onlyGivenNames z6
  have hz6 : MemForm z6 := by
    unfold z6
    refine foldl_form (fun _ _ _ => ?_) ?_
    · refine recallPage_form ?_
      with_reducible assumption
    · with_reducible assumption
  clear_value z6
  with_reducible assumption

theorem doContext_form {s : State} {a1} (h : MemForm s) :
    MemForm (doContext s a1) := by
  unfold doContext
  extract_lets +onlyGivenNames z0
  clear_value z0
  extract_lets +onlyGivenNames z1
  clear_value z1
  extract_lets +onlyGivenNames z2
  clear_value z2
  extract_lets +onlyGivenNames z3
  have hz3 : MemForm z3 := by
    unfold z3
    with_reducible assumption
  clear_value z3
  extract_lets +onlyGivenNames z4
  have hz4 : MemForm z4 := by
    unfold z4
    split
    · refine stopContext_form ?_
      with_reducible assumption
    · split
      · refine foldl_form (fun _ _ _ => ?_) ?_
        · split
          · refine modTeam_form ?_
            with_reducible assumption
          · split
            · refine schedEvent_form ?_
              refine modTeam_form ?_
              with_reducible assumption
            · with_reducible assumption
        · with_reducible assumption
      · with_reducible assumption
  clear_value z4
  refine schedule_form ?_
  with_reducible assumption

theorem doBank_form {s : State} {a1} (h : MemForm s) :
    MemForm (doBank s a1) := by
  unfold doBank
  extract_lets +onlyGivenNames z0
  clear_value z0
  extract_lets +onlyGivenNames z1
  clear_value z1
  extract_lets +onlyGivenNames z2
  clear_value z2
  split
  · refine modCluster_form ?_
    refine leaveCache_form ?_
    with_reducible assumption
  · refine modCluster_form ?_
    with_reducible assumption

theorem doAttest_form {s : State} {a1} (h : MemForm s) :
    MemForm (doAttest s a1) := by
  unfold doAttest
  extract_lets +onlyGivenNames z0
  clear_value z0
  split
  · refine engPut_form ?_
    with_reducible assumption
  · extract_lets +onlyGivenNames z1
    clear_value z1
    extract_lets +onlyGivenNames z2
    have hz2 : MemForm z2 := by
      unfold z2
      refine engPut_form ?_
      with_reducible assumption
    clear_value z2
    with_reducible assumption

theorem doHreq_form {s : State} {a1} (h : MemForm s) :
    MemForm (doHreq s a1) := by
  unfold doHreq
  split
  · refine doWindow_form ?_
    with_reducible assumption
  · refine schedule_form ?_
    refine modBox_form ?_
    with_reducible assumption
  · refine doContext_form ?_
    with_reducible assumption
  · refine endCtx_form ?_
    with_reducible assumption
  · refine schedule_form ?_
    refine doBank_form ?_
    with_reducible assumption
  · refine doAttest_form ?_
    with_reducible assumption
  · with_reducible assumption
  · with_reducible assumption

theorem writeHreq_form {s : State} {a1} {a2} {a3} (h : MemForm s) :
    MemForm (writeHreq s a1 a2 a3) := by
  unfold writeHreq
  extract_lets +onlyGivenNames z0
  clear_value z0
  extract_lets +onlyGivenNames z1
  clear_value z1
  split
  · with_reducible assumption
  · split
    · refine rej_form ?_
      with_reducible assumption
    · refine modFn_form ?_
      split
      · refine doHreq_form ?_
        with_reducible assumption
      · with_reducible assumption

theorem completeHreq_form {s : State} {a1} (h : MemForm s) :
    MemForm (completeHreq s a1) := by
  unfold completeHreq
  extract_lets +onlyGivenNames z0
  clear_value z0
  split
  · with_reducible assumption
  · extract_lets +onlyGivenNames z1
    have hz1 : MemForm z1 := by
      unfold z1
      refine modFn_form ?_
      with_reducible assumption
    clear_value z1
    split
    · with_reducible assumption
    · with_reducible assumption

theorem resetVf_form {s : State} {a1} (h : MemForm s) :
    MemForm (resetVf s a1) := by
  unfold resetVf
  split
  · with_reducible assumption
  · extract_lets +onlyGivenNames z0
    clear_value z0
    extract_lets +onlyGivenNames z1
    have hz1 : MemForm z1 := by
      unfold z1
      refine foldl_form (fun _ _ _ => ?_) ?_
      · refine endCtx_form ?_
        with_reducible assumption
      · with_reducible assumption
    clear_value z1
    extract_lets +onlyGivenNames z2
    clear_value z2
    refine modFn_form ?_
    refine foldl_form (fun _ _ _ => ?_) ?_
    · refine modBox_form ?_
      with_reducible assumption
    · with_reducible assumption

theorem resetPart_form {s : State} (h : MemForm s) : MemForm (resetPart s) := h

theorem enterD3_form {s : State} (h : MemForm s) :
    MemForm (enterD3 s) := by
  unfold enterD3
  refine foldl_form (fun _ _ _ => ?_) ?_
  · refine forcePreempt_form ?_
    with_reducible assumption
  · with_reducible assumption

theorem exitD3_form {s : State} (h : MemForm s) :
    MemForm (exitD3 s) := by
  unfold exitD3
  extract_lets +onlyGivenNames z0
  have hz0 : MemForm z0 := by
    unfold z0
    refine foldl_form (fun _ _ _ => ?_) ?_
    · split
      · refine schedEvent_form ?_
        refine modTeam_form ?_
        with_reducible assumption
      · with_reducible assumption
    · with_reducible assumption
  clear_value z0
  refine schedule_form ?_
  with_reducible assumption

theorem countCe_form {s : State} {a1} (h : MemForm s) :
    MemForm (countCe s a1) := by
  unfold countCe
  refine modDie_form ?_
  with_reducible assumption

theorem retireSlice_form {s : State} {a1} {a2} (h : MemForm s) :
    MemForm (retireSlice s a1 a2) := by
  unfold retireSlice
  extract_lets +onlyGivenNames z0
  have hz0 : MemForm z0 := by
    unfold z0
    refine foldl_form (fun _ _ _ => ?_) ?_
    · refine recallPage_form ?_
      with_reducible assumption
    · with_reducible assumption
  clear_value z0
  extract_lets +onlyGivenNames z1
  clear_value z1
  extract_lets +onlyGivenNames z2
  have hz2 : MemForm z2 := by
    unfold z2
    refine foldl_form (fun _ _ _ => ?_) ?_
    · split
      · with_reducible assumption
      · split
        · refine wbL2_form ?_
          with_reducible assumption
        · refine keepLine_form ?_
          with_reducible assumption
    · with_reducible assumption
  clear_value z2
  extract_lets +onlyGivenNames z3
  have hz3 : MemForm z3 := by
    unfold z3
    refine modDie_form ?_
    with_reducible assumption
  clear_value z3
  split
  · refine modDie_form ?_
    with_reducible assumption
  · extract_lets +onlyGivenNames z4
    have hz4 : MemForm z4 := by
      unfold z4
      refine modDie_form ?_
      with_reducible assumption
    clear_value z4
    with_reducible assumption

theorem strikeCopy_form {s : State} {a1} {a2} {a3} (h : MemForm s) :
    MemForm (strikeCopy s a1 a2 a3) := by
  unfold strikeCopy
  extract_lets +onlyGivenNames z0
  clear_value z0
  extract_lets +onlyGivenNames z1
  clear_value z1
  extract_lets +onlyGivenNames z2
  clear_value z2
  split
  · split
    · refine setPoison_form ?_
      refine modCore_form ?_
      with_reducible assumption
    · with_reducible assumption
  · split
    · split
      · refine setPoison_form ?_
        refine modCluster_form ?_
        with_reducible assumption
      · with_reducible assumption
    · split
      · refine setPoison_form ?_
        refine modDie_form ?_
        with_reducible assumption
      · with_reducible assumption

theorem strike_form {s : State} {a1} (h : MemForm s) :
    MemForm (strike s a1) := by
  unfold strike
  split
  · split
    · with_reducible assumption
    · refine countCe_form ?_
      refine modCore_form ?_
      with_reducible assumption
  · split
    · with_reducible assumption
    · refine countCe_form ?_
      refine modDie_form ?_
      with_reducible assumption
  · split
    · with_reducible assumption
    · refine setPoison_form ?_
      with_reducible assumption
  · refine strikeCopy_form ?_
    with_reducible assumption
  · split
    · with_reducible assumption
    · split
      · with_reducible assumption
      · refine modGroup_form ?_
        with_reducible assumption
  · split
    · with_reducible assumption
    · refine contextFault_form ?_
      with_reducible assumption
  · split
    · with_reducible assumption
    · refine modDie_form ?_
      with_reducible assumption
  · split
    · with_reducible assumption
    · split
      · with_reducible assumption
      · refine modWin_form ?_
        with_reducible assumption
  · split
    · with_reducible assumption
    · split
      · with_reducible assumption
      · refine modGroup_form ?_
        with_reducible assumption
  · split
    · with_reducible assumption
    · split
      · with_reducible assumption
      · refine modGroup_form ?_
        with_reducible assumption
  · extract_lets +onlyGivenNames z0
    clear_value z0
    split
    · refine modCluster_form ?_
      with_reducible assumption
    · with_reducible assumption

theorem newWindow_form {s : State} (h : MemForm s) :
    MemForm (newWindow s) := by
  unfold newWindow
  split
  · with_reducible assumption
  · with_reducible assumption

theorem retireCore_form {s : State} {a1} (h : MemForm s) :
    ∀ {t}, retireCore s a1 = some t → MemForm t := by
  unfold retireCore
  intro t ht
  extract_lets +onlyGivenNames z0 at ht
  clear_value z0
  split at ht
  · cases ht
  · split at ht
    · cases ht
      refine modCore_form ?_
      with_reducible assumption
    · extract_lets +onlyGivenNames z1 at ht
      clear_value z1
      split at ht
      · split at ht
        · cases ht
        · cases ht
          refine foldl_form (fun _ _ _ => ?_) ?_
          · refine forcePreempt_form ?_
            with_reducible assumption
          · with_reducible assumption
      · extract_lets +onlyGivenNames z2 at ht
        have hz2 : MemForm z2 := by
          unfold z2
          refine releaseCore_form ?_
          with_reducible assumption
        clear_value z2
        extract_lets +onlyGivenNames z3 at ht
        clear_value z3
        split at ht
        · cases ht
          refine schedule_form ?_
          refine modDie_form ?_
          refine setCore_form ?_
          refine schedEvent_form ?_
          with_reducible assumption
        · cases ht
          refine schedule_form ?_
          refine modDie_form ?_
          refine setCore_form ?_
          with_reducible assumption

theorem remap_form {s : State} {a1} {a2} (h : MemForm s) :
    MemForm (remap s a1 a2) := by
  unfold remap
  extract_lets +onlyGivenNames z0
  clear_value z0
  extract_lets +onlyGivenNames z1
  clear_value z1
  refine engPut_form ?_
  with_reducible assumption

theorem splitLeaf_form {s : State} {a1} {a2} {a3} {a4} (h : MemForm s) :
    MemForm (splitLeaf s a1 a2 a3 a4) := by
  unfold splitLeaf
  extract_lets +onlyGivenNames z0
  clear_value z0
  extract_lets +onlyGivenNames z1
  have hz1 : MemForm z1 := by
    unfold z1
    refine engPut_form ?_
    with_reducible assumption
  clear_value z1
  refine engPut_form ?_
  with_reducible assumption

theorem loseLeaf_form {s : State} {a1} (h : MemForm s) :
    MemForm (loseLeaf s a1) := by
  unfold loseLeaf
  refine engPut_form ?_
  with_reducible assumption

theorem splitLeaves_form {s : State} {a1} {a2} {a3} {a4} (h : MemForm s) :
    MemForm (splitLeaves s a1 a2 a3 a4) := by
  unfold splitLeaves
  split
  · refine foldl_form (fun _ _ _ => ?_) ?_
    · refine loseLeaf_form ?_
      with_reducible assumption
    · with_reducible assumption
  · split
    · with_reducible assumption
    · refine foldl_form (fun _ _ _ => ?_) ?_
      · split
        · refine splitLeaf_form ?_
          with_reducible assumption
        · refine loseLeaf_form ?_
          with_reducible assumption
      · with_reducible assumption

theorem flushPage_form {s : State} {a1} (h : MemForm s) :
    MemForm (flushPage s a1) := by
  unfold flushPage
  extract_lets +onlyGivenNames z0
  have hz0 : MemForm z0 := by
    unfold z0
    refine foldl_form (fun _ _ _ => ?_) ?_
    · split
      · refine flushL1_form ?_
        with_reducible assumption
      · with_reducible assumption
    · with_reducible assumption
  clear_value z0
  extract_lets +onlyGivenNames z1
  have hz1 : MemForm z1 := by
    unfold z1
    refine foldl_form (fun _ _ _ => ?_) ?_
    · split
      · refine flushCC_form ?_
        with_reducible assumption
      · with_reducible assumption
    · with_reducible assumption
  clear_value z1
  with_reducible assumption

theorem moveCode_form {s : State} {a1} {a2} (h : MemForm s) :
    MemForm (moveCode s a1 a2) := by
  unfold moveCode
  with_reducible assumption

theorem copyPage_form {s : State} {a1} {a2} (h : MemForm s) :
    MemForm (copyPage s a1 a2) := by
  unfold copyPage
  extract_lets +onlyGivenNames z0
  clear_value z0
  extract_lets +onlyGivenNames z1
  have hz1 : MemForm z1 := by
    unfold z1
    refine moveCode_form ?_
    refine homePut_form ?_
    with_reducible assumption
  clear_value z1
  refine foldl_form (fun _ _ _ => ?_) ?_
  · refine setPoison_form ?_
    with_reducible assumption
  · with_reducible assumption

theorem retirePage_form {s : State} {a1} (h : MemForm s) :
    MemForm (retirePage s a1) := by
  unfold retirePage
  extract_lets +onlyGivenNames z0
  clear_value z0
  extract_lets +onlyGivenNames z1
  have hz1 : MemForm z1 := by
    unfold z1
    refine recallPage_form ?_
    refine flushPage_form ?_
    with_reducible assumption
  clear_value z1
  extract_lets +onlyGivenNames z2
  clear_value z2
  split
  · refine invalidate_form ?_
    refine foldl_form (fun _ _ _ => ?_) ?_
    · refine loseLeaf_form ?_
      with_reducible assumption
    · with_reducible assumption
  · extract_lets +onlyGivenNames z3
    have hz3 : MemForm z3 := by
      unfold z3
      refine copyPage_form ?_
      with_reducible assumption
    clear_value z3
    extract_lets +onlyGivenNames z4
    have hz4 : MemForm z4 := by
      unfold z4
      refine foldl_form (fun _ _ _ => ?_) ?_
      · refine remap_form ?_
        with_reducible assumption
      · with_reducible assumption
    clear_value z4
    extract_lets +onlyGivenNames z5
    have hz5 : MemForm z5 := by
      unfold z5
      refine splitLeaves_form ?_
      with_reducible assumption
    clear_value z5
    extract_lets +onlyGivenNames z6
    have hz6 : MemForm z6 := by
      unfold z6
      refine invalidate_form ?_
      with_reducible assumption
    clear_value z6
    with_reducible assumption

theorem setPower_form {s : State} {a1} {a2} (h : MemForm s) :
    MemForm (setPower s a1 a2) := by
  unfold setPower
  split
  · refine modDie_form ?_
    with_reducible assumption
  · with_reducible assumption

theorem modQp_form {s : State} {a1} {a2} {a3} (h : MemForm s) :
    MemForm (modQp s a1 a2 a3) := by
  unfold modQp
  refine modCtx_form ?_
  with_reducible assumption

theorem settlePlain_form {s : State} {a1} {a2} (h : MemForm s) :
    MemForm (settlePlain s a1 a2) := by
  unfold settlePlain
  extract_lets +onlyGivenNames z0
  clear_value z0
  split
  · with_reducible assumption
  · extract_lets +onlyGivenNames z1
    have hz1 : MemForm z1 := by
      unfold z1
      split
      · with_reducible assumption
      · refine winStore_form ?_
        refine bump_form ?_
        with_reducible assumption
    clear_value z1
    refine settleBuf_form ?_
    with_reducible assumption

theorem finishLink_form {s : State} {a1} {a2} {a3} (h : MemForm s) :
    MemForm (finishLink s a1 a2 a3) := by
  unfold finishLink
  extract_lets +onlyGivenNames z0
  have hz0 : MemForm z0 := by
    unfold z0
    split
    · refine settlePlain_form ?_
      with_reducible assumption
    · split
      · refine settleBuf_form ?_
        with_reducible assumption
      · with_reducible assumption
  clear_value z0
  refine finishOpS_form ?_
  refine acquired_form ?_
  with_reducible assumption

theorem errQp_form {s : State} {a1} {a2} {a3} (h : MemForm s) :
    MemForm (errQp s a1 a2 a3) := by
  unfold errQp
  extract_lets +onlyGivenNames z0
  clear_value z0
  refine foldl_form (fun _ _ _ => ?_) ?_
  · refine finishLink_form ?_
    with_reducible assumption
  · refine modQp_form ?_
    with_reducible assumption

theorem errPeer_form {s : State} {a1} (h : MemForm s) :
    MemForm (errPeer s a1) := by
  unfold errPeer
  refine foldl_form (fun _ _ _ => ?_) ?_
  · refine foldl_form (fun _ _ _ => ?_) ?_
    · split
      · refine errQp_form ?_
        with_reducible assumption
      · with_reducible assumption
    · with_reducible assumption
  · with_reducible assumption

theorem readyQp_form {s : State} {a1} {a2} (h : MemForm s) :
    MemForm (readyQp s a1 a2) := by
  unfold readyQp
  split
  · refine errQp_form ?_
    with_reducible assumption
  · refine pairSend_form ?_
    refine bump_form ?_
    with_reducible assumption

theorem resetQp_form {s : State} {a1} {a2} (h : MemForm s) :
    MemForm (resetQp s a1 a2) := by
  unfold resetQp
  extract_lets +onlyGivenNames z0
  clear_value z0
  split
  · with_reducible assumption
  · refine readyQp_form ?_
    refine modQp_form ?_
    with_reducible assumption

theorem linkFill_form {s : State} {a1} {a2} {a3} (h : MemForm s) :
    MemForm (linkFill s a1 a2 a3) := by
  unfold linkFill
  refine modWin_form ?_
  with_reducible assumption

theorem deliverData_form {s : State} {a1} {a2} (h : MemForm s) :
    MemForm (deliverData s a1 a2) := by
  unfold deliverData
  extract_lets +onlyGivenNames z0
  have hz0 : MemForm z0 := by
    unfold z0
    refine foldl_form (fun _ _ _ => ?_) ?_
    · refine takeLine_form ?_
      with_reducible assumption
    · with_reducible assumption
  clear_value z0
  refine clearCovered_form ?_
  refine directPut_form ?_
  with_reducible assumption

theorem linkStep_form {s : State} {a1} {a2} (h : MemForm s) :
    MemForm (linkStep s a1 a2) := by
  unfold linkStep
  split
  · extract_lets +onlyGivenNames z0
    clear_value z0
    extract_lets +onlyGivenNames z1
    clear_value z1
    extract_lets +onlyGivenNames z2
    clear_value z2
    extract_lets +onlyGivenNames z3
    clear_value z3
    split
    · refine finishLink_form ?_
      with_reducible assumption
    · split
      · refine finishLink_form ?_
        refine bump_form ?_
        with_reducible assumption
      · split
        · refine errQp_form ?_
          with_reducible assumption
        · split
          · with_reducible assumption
          · extract_lets +onlyGivenNames z4
            have hz4 : MemForm z4.1 := by
              unfold z4
              refine released_form ?_
              with_reducible assumption
            clear_value z4
            split
            · with_reducible assumption
            · extract_lets +onlyGivenNames z5
              have hz5 : MemForm z5 := by
                unfold z5
                with_reducible assumption
              clear_value z5
              extract_lets +onlyGivenNames z6
              clear_value z6
              split
              · split
                · with_reducible assumption
                · extract_lets +onlyGivenNames z7
                  have hz7 : MemForm z7 := by
                    unfold z7
                    refine modQp_form ?_
                    with_reducible assumption
                  clear_value z7
                  extract_lets +onlyGivenNames z8
                  clear_value z8
                  split
                  · extract_lets +onlyGivenNames z9
                    have hz9 : MemForm z9 := by
                      unfold z9
                      refine deliverData_form ?_
                      with_reducible assumption
                    clear_value z9
                    extract_lets +onlyGivenNames z10
                    have hz10 : MemForm z10 := by
                      unfold z10
                      refine foldl_form (fun _ _ _ => ?_) ?_
                      · split
                        · refine setPoison_form ?_
                          with_reducible assumption
                        · with_reducible assumption
                      · with_reducible assumption
                    clear_value z10
                    refine finishLink_form ?_
                    with_reducible assumption
                  · split
                    · refine errQp_form ?_
                      with_reducible assumption
                    · extract_lets +onlyGivenNames z9
                      have hz9 : MemForm z9 := by
                        unfold z9
                        refine foldl_form (fun _ _ _ => ?_) ?_
                        · refine pairSend_form ?_
                          with_reducible assumption
                        · with_reducible assumption
                      clear_value z9
                      refine modGroup_form ?_
                      with_reducible assumption
              · extract_lets +onlyGivenNames z7
                clear_value z7
                extract_lets +onlyGivenNames z8
                clear_value z8
                refine finishLink_form ?_
                refine linkFill_form ?_
                with_reducible assumption
  · with_reducible assumption

theorem takeCredit_form {s : State} {a1} {a2} {a3} {a4} {a5} {a6} (h : MemForm s) :
    MemForm (takeCredit s a1 a2 a3 a4 a5 a6) := by
  unfold takeCredit
  extract_lets +onlyGivenNames z0
  clear_value z0
  split
  · with_reducible assumption
  · split
    · refine errQp_form ?_
      with_reducible assumption
    · extract_lets +onlyGivenNames z1
      have hz1 : MemForm z1 := by
        unfold z1
        refine modQp_form ?_
        with_reducible assumption
      clear_value z1
      split
      · with_reducible assumption
      · split
        · with_reducible assumption
        · refine finishLink_form ?_
          with_reducible assumption

theorem windowRequest_form {s : State} {a1} {a2} {a3} {a4} {a5} {a6} (h : MemForm s) :
    MemForm (windowRequest s a1 a2 a3 a4 a5 a6) := by
  unfold windowRequest
  extract_lets +onlyGivenNames z0
  clear_value z0
  extract_lets +onlyGivenNames z1
  clear_value z1
  extract_lets +onlyGivenNames z2
  clear_value z2
  extract_lets +onlyGivenNames z3
  clear_value z3
  extract_lets +onlyGivenNames z4
  clear_value z4
  extract_lets +onlyGivenNames z5
  clear_value z5
  split
  · with_reducible assumption
  · split
    · refine errQp_form ?_
      refine pairSend_form ?_
      with_reducible assumption
    · split
      · extract_lets +onlyGivenNames z6
        have hz6 : MemForm z6 := by
          unfold z6
          refine clearCovered_form ?_
          refine engPut_form ?_
          with_reducible assumption
        clear_value z6
        refine pairSend_form ?_
        with_reducible assumption
      · extract_lets +onlyGivenNames z6
        have hz6 : MemForm z6 := by
          unfold z6
          refine foldl_form (fun _ _ _ => ?_) ?_
          · refine resolveLine_form ?_
            with_reducible assumption
          · with_reducible assumption
        clear_value z6
        refine modHalf_form ?_
        with_reducible assumption

theorem forgetHolder_form {s : State} {a1} {a2} (h : MemForm s) :
    MemForm (forgetHolder s a1 a2) := by
  unfold forgetHolder
  extract_lets +onlyGivenNames z0
  have hz0 : MemForm z0 := by
    unfold z0
    refine modDie_form ?_
    with_reducible assumption
  clear_value z0
  extract_lets +onlyGivenNames z1
  clear_value z1
  extract_lets +onlyGivenNames z2
  have hz2 : MemForm z2 := by
    unfold z2
    refine foldl_form (fun _ _ _ => ?_) ?_
    · refine onInvAck_form ?_
      with_reducible assumption
    · with_reducible assumption
  clear_value z2
  refine modDie_form ?_
  with_reducible assumption

theorem endWaits_form {s : State} {a1} {a2} (h : MemForm s) :
    MemForm (endWaits s a1 a2) := by
  unfold endWaits
  refine foldl_form (fun _ _ _ => ?_) ?_
  · extract_lets +onlyGivenNames z0
    have hz0 : MemForm z0 := by
      unfold z0
      refine modDie_form ?_
      with_reducible assumption
    clear_value z0
    split
    · with_reducible assumption
    · with_reducible assumption
    · refine refuseReq_form ?_
      with_reducible assumption
    · refine modHandle_form ?_
      with_reducible assumption
    · refine completeReq_form ?_
      with_reducible assumption
    · refine completeReq_form ?_
      with_reducible assumption
  · with_reducible assumption

theorem dropAgent_form {s : State} {a1} (h : MemForm s) :
    MemForm (dropAgent s a1) := by
  unfold dropAgent
  with_reducible assumption

theorem leave_form {s : State} {a1} (h : MemForm s) :
    MemForm (leave s a1) := by
  unfold leave
  extract_lets +onlyGivenNames z0
  have hz0 : MemForm z0 := by
    unfold z0
    refine foldl_form (fun _ _ _ => ?_) ?_
    · refine endWaits_form ?_
      refine forgetHolder_form ?_
      with_reducible assumption
    · refine dropAgent_form ?_
      with_reducible assumption
  clear_value z0
  refine errPeer_form ?_
  with_reducible assumption

theorem pushAgent_form {s : State} {a1} (h : MemForm s) :
    MemForm (pushAgent s a1) := by
  unfold pushAgent
  extract_lets +onlyGivenNames z0
  have hz0 : MemForm z0 := by
    unfold z0
    refine foldl_form (fun _ _ _ => ?_) ?_
    · split
      · refine flushL1_form ?_
        with_reducible assumption
      · with_reducible assumption
    · with_reducible assumption
  clear_value z0
  extract_lets +onlyGivenNames z1
  have hz1 : MemForm z1 := by
    unfold z1
    refine foldl_form (fun _ _ _ => ?_) ?_
    · split
      · refine flushCC_form ?_
        with_reducible assumption
      · with_reducible assumption
    · with_reducible assumption
  clear_value z1
  refine pushPairs_form ?_
  with_reducible assumption

theorem goDown_form {s : State} {a1} (h : MemForm s) :
    MemForm (goDown s a1) := by
  unfold goDown
  extract_lets +onlyGivenNames z0
  clear_value z0
  extract_lets +onlyGivenNames z1
  have hz1 : MemForm z1 := by
    unfold z1
    refine pushAgent_form ?_
    with_reducible assumption
  clear_value z1
  refine leave_form ?_
  refine modHalf_form ?_
  with_reducible assumption

theorem restartTables_form {s : State} {a1} (h : MemForm s) :
    MemForm (restartTables s a1) := by
  unfold restartTables
  extract_lets +onlyGivenNames z0
  clear_value z0
  extract_lets +onlyGivenNames z1
  have hz1 : MemForm z1 := by
    unfold z1
    refine modMirror_form ?_
    refine applyLog_form ?_
    with_reducible assumption
  clear_value z1
  split
  · with_reducible assumption
  · refine foldl_form (fun _ _ _ => ?_) ?_
    · refine directPut_form ?_
      with_reducible assumption
    · with_reducible assumption

theorem loseLink_form {s : State} {a1} (h : MemForm s) :
    MemForm (loseLink s a1) := by
  unfold loseLink
  extract_lets +onlyGivenNames z0
  clear_value z0
  split
  · with_reducible assumption
  · split
    · refine setHalf_form ?_
      with_reducible assumption
    · extract_lets +onlyGivenNames z1
      have hz1 : MemForm z1 := by
        unfold z1
        refine modHalf_form ?_
        with_reducible assumption
      clear_value z1
      extract_lets +onlyGivenNames z2
      clear_value z2
      extract_lets +onlyGivenNames z3
      have hz3 : MemForm z3 := by
        unfold z3
        refine foldl_form (fun _ _ _ => ?_) ?_
        · split
          · refine endCkpts_form ?_
            with_reducible assumption
          · with_reducible assumption
        · with_reducible assumption
      clear_value z3
      extract_lets +onlyGivenNames z4
      have hz4 : MemForm z4 := by
        unfold z4
        refine leave_form ?_
        with_reducible assumption
      clear_value z4
      extract_lets +onlyGivenNames z5
      have hz5 : MemForm z5 := by
        unfold z5
        refine foldl_form (fun _ _ _ => ?_) ?_
        · extract_lets +onlyGivenNames z6
          clear_value z6
          extract_lets +onlyGivenNames z7
          have hz7 : MemForm z7 := by
            unfold z7
            refine endCtx_form ?_
            refine restartTables_form ?_
            with_reducible assumption
          clear_value z7
          refine postMsg_form ?_
          with_reducible assumption
        · with_reducible assumption
      clear_value z5
      refine modHalf_form ?_
      with_reducible assumption

theorem takeHdr_form {s : State} {a1} {a2} (h : MemForm s) :
    MemForm (takeHdr s a1 a2).1 := by
  unfold takeHdr
  extract_lets +onlyGivenNames z0
  clear_value z0
  extract_lets +onlyGivenNames z1
  unfold z1
  split
  · with_reducible assumption
  · split
    · dsimp only
      refine modHalf_form ?_
      with_reducible assumption
    · extract_lets +onlyGivenNames z2
      have hz2 : MemForm z2 := by
        unfold z2
        refine modHalf_form ?_
        with_reducible assumption
      clear_value z2
      split
      · dsimp only
        refine modHalf_form ?_
        with_reducible assumption
      · with_reducible assumption

theorem onMsg_form {s : State} {half : Nat} {k : PairHdr} {sts : List Nat} {f : State → State}
    (hf : ∀ t, MemForm t → MemForm (f t)) (h : MemForm s) : MemForm (onMsg s half k sts f) := by
  unfold onMsg
  dsimp only
  split
  · exact hf _ (takeHdr_form h)
  · exact takeHdr_form h

theorem dropTlp_form {s : State} {a1} (h : MemForm s) :
    MemForm (dropTlp s a1) := by
  unfold dropTlp
  split
  · with_reducible assumption
  · refine modHalf_form ?_
    with_reducible assumption

theorem refuseDock_form {s : State} {a1} {a2} (h : MemForm s) :
    MemForm (refuseDock s a1 a2) := by
  unfold refuseDock
  refine modHalf_form ?_
  with_reducible assumption

theorem startTraining_form {s : State} {a1} (h : MemForm s) :
    MemForm (startTraining s a1) := by
  unfold startTraining
  extract_lets +onlyGivenNames z0
  clear_value z0
  split
  · refine setHalf_form ?_
    with_reducible assumption
  · with_reducible assumption

theorem trainLink_form {s : State} {a1} {a2} (h : MemForm s) :
    MemForm (trainLink s a1 a2) := by
  unfold trainLink
  extract_lets +onlyGivenNames z0
  clear_value z0
  split
  · with_reducible assumption
  · split
    · refine refuseDock_form ?_
      with_reducible assumption
    · extract_lets +onlyGivenNames z1
      clear_value z1
      extract_lets +onlyGivenNames z2
      have hz2 : MemForm z2 := by
        unfold z2
        refine setHalf_form ?_
        refine bump_form ?_
        with_reducible assumption
      clear_value z2
      refine pairSend_form ?_
      with_reducible assumption

theorem takeHello_form {a0} {a1} {a2} {s : State} (h : MemForm s) :
    MemForm (takeHello a0 a1 a2 s) := by
  unfold takeHello
  split
  · with_reducible assumption
  · split
    · refine refuseDock_form ?_
      with_reducible assumption
    · extract_lets +onlyGivenNames z0
      have hz0 : MemForm z0 := by
        unfold z0
        refine modHalf_form ?_
        with_reducible assumption
      clear_value z0
      extract_lets +onlyGivenNames z1
      clear_value z1
      extract_lets +onlyGivenNames z2
      clear_value z2
      refine pairSend_form ?_
      with_reducible assumption

theorem takeAttest_form {a0} {a1} {a2} {s : State} (h : MemForm s) :
    MemForm (takeAttest a0 a1 a2 s) := by
  unfold takeAttest
  extract_lets +onlyGivenNames z0
  clear_value z0
  split
  · with_reducible assumption
  · split
    · refine refuseDock_form ?_
      with_reducible assumption
    · split
      · refine refuseDock_form ?_
        with_reducible assumption
      · extract_lets +onlyGivenNames z1
        have hz1 : MemForm z1 := by
          unfold z1
          refine modHalf_form ?_
          with_reducible assumption
        clear_value z1
        refine pairSend_form ?_
        refine bump_form ?_
        with_reducible assumption

theorem takeAlign_form {a0} {a1} {a2} {a3} {s : State} (h : MemForm s) :
    MemForm (takeAlign a0 a1 a2 a3 s) := by
  unfold takeAlign
  split
  · refine refuseDock_form ?_
    with_reducible assumption
  · refine modHalf_form ?_
    with_reducible assumption

theorem takeImage_form {a0} {a1} {a2} {a3} {s : State} (h : MemForm s) :
    MemForm (takeImage a0 a1 a2 a3 s) := by
  unfold takeImage
  extract_lets +onlyGivenNames z0
  clear_value z0
  extract_lets +onlyGivenNames z1
  clear_value z1
  extract_lets +onlyGivenNames z2
  clear_value z2
  extract_lets +onlyGivenNames z3
  clear_value z3
  extract_lets +onlyGivenNames z4
  have hz4 : MemForm z4 := by
    unfold z4
    refine modHalf_form ?_
    with_reducible assumption
  clear_value z4
  extract_lets +onlyGivenNames z5
  have hz5 : MemForm z5 := by
    unfold z5
    split
    · refine schedule_form ?_
      refine restoreContext_form ?_
      with_reducible assumption
    · with_reducible assumption
  clear_value z5
  refine pairSend_form ?_
  with_reducible assumption

theorem recallCompanion_form {s : State} {a1} (h : MemForm s) :
    MemForm (recallCompanion s a1) := by
  unfold recallCompanion
  extract_lets +onlyGivenNames z0
  clear_value z0
  refine foldl_form (fun _ _ _ => ?_) ?_
  · extract_lets +onlyGivenNames z1
    have hz1 : MemForm z1.2.2.2 := by
      unfold z1
      refine holderAct_form ?_
      with_reducible assumption
    clear_value z1
    refine foldl_form (fun _ _ _ => ?_) ?_
    · refine homePut_form ?_
      with_reducible assumption
    · with_reducible assumption
  · with_reducible assumption

theorem ownFrame_form {s : State} {a1} (h : MemForm s) :
    MemForm (ownFrame s a1) := by
  unfold ownFrame
  split
  · with_reducible assumption
  · split
    · with_reducible assumption
    · with_reducible assumption

theorem takeFrame_form {s t : State} {home f} (h : MemForm s) (e : takeFrame s home = some (f, t)) : MemForm t := by
  unfold takeFrame at e
  split at e
  · cases e
  · cases e; exact h

theorem markMoved_form {s : State} {page frame} (h : MemForm s) : MemForm (markMoved s page frame) := h

theorem pullPage_form {s : State} {page} (h : MemForm s) : MemForm (pullPage s page) := by
  unfold pullPage
  split
  · exact recallPage_form h
  · exact recallCompanion_form h

theorem freeMoved_form {s : State} {page frame home} (h : MemForm s) : MemForm (freeMoved s page frame home) := by
  unfold freeMoved
  split
  · exact ownFrame_form h
  · exact h

theorem movePage_form {s : State} {a1} {a2} (h : MemForm s) :
    MemForm (movePage s a1 a2) := by
  unfold movePage
  extract_lets +onlyGivenNames z0
  have hz0 : MemForm z0 := by
    unfold z0
    refine copyPage_form ?_
    refine pullPage_form ?_
    refine flushPage_form ?_
    with_reducible assumption
  clear_value z0
  extract_lets +onlyGivenNames z1
  clear_value z1
  extract_lets +onlyGivenNames z2
  have hz2 : MemForm z2 := by
    unfold z2
    refine foldl_form (fun _ _ _ => ?_) ?_
    · refine remap_form ?_
      with_reducible assumption
    · with_reducible assumption
  clear_value z2
  extract_lets +onlyGivenNames z3
  have hz3 : MemForm z3 := by
    unfold z3
    refine foldl_form (fun _ _ _ => ?_) ?_
    · refine invalidate_form ?_
      with_reducible assumption
    · with_reducible assumption
  clear_value z3
  refine freeMoved_form ?_
  refine markMoved_form ?_
  with_reducible assumption

theorem homeMove_form {s : State} {a1} {a2} (h : MemForm s) :
    MemForm (homeMove s a1 a2) := by
  unfold homeMove
  extract_lets +onlyGivenNames z0
  clear_value z0
  split
  · with_reducible assumption
  · extract_lets +onlyGivenNames z1
    clear_value z1
    split
    · with_reducible assumption
    · split
      · refine dropCount_form ?_
        with_reducible assumption
      · extract_lets +onlyGivenNames z2
        clear_value z2
        split
        · with_reducible assumption
        · split
          · refine dropCount_form ?_
            with_reducible assumption
          · refine movePage_form ?_
            exact takeFrame_form h (by assumption)

theorem settleUndock_form {s : State} {a1} (h : MemForm s) :
    MemForm (settleUndock s a1) := by
  unfold settleUndock
  extract_lets +onlyGivenNames z0
  clear_value z0
  split
  · with_reducible assumption
  · refine goDown_form ?_
    refine pairSend_form ?_
    with_reducible assumption

theorem keepContext_form {s : State} {a1} (h : MemForm s) :
    MemForm (keepContext s a1) := by
  unfold keepContext
  extract_lets +onlyGivenNames z0
  have hz0 : MemForm z0 := by
    unfold z0
    refine modCtx_form ?_
    with_reducible assumption
  clear_value z0
  refine schedule_form ?_
  refine foldl_form (fun _ _ _ => ?_) ?_
  · split
    · refine modTeam_form ?_
      with_reducible assumption
    · split
      · refine schedEvent_form ?_
        refine modTeam_form ?_
        with_reducible assumption
      · with_reducible assumption
  · with_reducible assumption

theorem stopUndock_form {s : State} {a1} (h : MemForm s) :
    MemForm (stopUndock s a1) := by
  unfold stopUndock
  extract_lets +onlyGivenNames z0
  clear_value z0
  refine foldl_form (fun _ _ _ => ?_) ?_
  · refine keepContext_form ?_
    with_reducible assumption
  · refine modHalf_form ?_
    with_reducible assumption

theorem startUndock_form {a0} {s : State} (h : MemForm s) :
    MemForm (startUndock a0 s) := by
  unfold startUndock
  extract_lets +onlyGivenNames z0
  clear_value z0
  extract_lets +onlyGivenNames z1
  clear_value z1
  extract_lets +onlyGivenNames z2
  have hz2 : MemForm z2 := by
    unfold z2
    refine modHalf_form ?_
    with_reducible assumption
  clear_value z2
  extract_lets +onlyGivenNames z3
  have hz3 : MemForm z3 := by
    unfold z3
    refine foldl_form (fun _ _ _ => ?_) ?_
    · extract_lets +onlyGivenNames z4
      have hz4 : MemForm z4 := by
        unfold z4
        refine modCtx_form ?_
        with_reducible assumption
      clear_value z4
      refine foldl_form (fun _ _ _ => ?_) ?_
      · split
        · with_reducible assumption
        · refine forcePreempt_form ?_
          with_reducible assumption
      · with_reducible assumption
    · with_reducible assumption
  clear_value z3
  refine settleUndock_form ?_
  with_reducible assumption

theorem pagesHome_form {agent : Nat} {l : List Nat} {s t : State} (h : MemForm s) (e : pagesHome agent l s = some t) :
    MemForm t := by
  induction l generalizing s with
  | nil => cases e; exact h
  | cons p l ih =>
    unfold pagesHome at e
    split at e
    · cases e
    · exact ih (movePage_form (takeFrame_form h (by assumption))) e

theorem moveRun_form {s : State} {a1} {a2} (h : MemForm s) :
    ∀ {t}, moveRun s a1 a2 = some t → MemForm t := by
  unfold moveRun
  intro t ht
  extract_lets +onlyGivenNames z0 at ht
  clear_value z0
  extract_lets +onlyGivenNames z1 at ht
  clear_value z1
  split at ht
  · cases ht
  · extract_lets +onlyGivenNames z2 at ht
    have hz2 : MemForm z2 := by
      unfold z2
      with_reducible assumption
    clear_value z2
    extract_lets +onlyGivenNames z3 at ht
    have hz3 : MemForm z3 := by
      unfold z3
      refine foldl_form (fun _ _ _ => ?_) ?_
      · extract_lets +onlyGivenNames z4
        clear_value z4
        extract_lets +onlyGivenNames z5
        clear_value z5
        extract_lets +onlyGivenNames z6
        have hz6 : MemForm z6 := by
          unfold z6
          refine copyPage_form ?_
          refine pullPage_form ?_
          refine flushPage_form ?_
          with_reducible assumption
        clear_value z6
        extract_lets +onlyGivenNames z7
        have hz7 : MemForm z7 := by
          unfold z7
          refine foldl_form (fun _ _ _ => ?_) ?_
          · refine remap_form ?_
            with_reducible assumption
          · with_reducible assumption
        clear_value z7
        refine freeMoved_form ?_
        refine markMoved_form ?_
        with_reducible assumption
      · with_reducible assumption
    clear_value z3
    cases ht
    refine invalidate_form ?_
    with_reducible assumption

theorem runsHome_form {agent : Nat} {l : List LeafAt} {s t : State} (h : MemForm s) (e : runsHome agent l s = some t) :
    MemForm t := by
  induction l generalizing s with
  | nil => cases e; exact h
  | cons p l ih =>
    unfold runsHome at e
    split at e
    · cases e
    · exact ih (moveRun_form h (by assumption)) e

theorem postCtx_form {s : State} {a1} {a2} {a3} (h : MemForm s) :
    MemForm (postCtx s a1 a2 a3) := by
  unfold postCtx
  extract_lets +onlyGivenNames z0
  clear_value z0
  refine clearCovered_form ?_
  refine postPut_form ?_
  refine engMark_form ?_
  with_reducible assumption

theorem refreshImage_form {s : State} {a1} (h : MemForm s) :
    MemForm (refreshImage s a1) := by
  unfold refreshImage
  extract_lets +onlyGivenNames z0
  clear_value z0
  split
  · with_reducible assumption
  · extract_lets +onlyGivenNames z1
    clear_value z1
    split
    · with_reducible assumption
    · refine postCtx_form ?_
      with_reducible assumption

theorem refreshImages_form {s : State} (h : MemForm s) :
    MemForm (refreshImages s) := by
  unfold refreshImages
  refine foldl_form (fun _ _ _ => ?_) ?_
  · refine refreshImage_form ?_
    with_reducible assumption
  · with_reducible assumption

theorem yieldHandles_form {s : State} {a1} (h : MemForm s) :
    MemForm (yieldHandles s a1) := by
  unfold yieldHandles
  extract_lets +onlyGivenNames z0
  clear_value z0
  refine foldl_form (fun _ _ _ => ?_) ?_
  · extract_lets +onlyGivenNames z1
    have hz1 : MemForm z1 := by
      unfold z1
      refine modHandle_form ?_
      with_reducible assumption
    clear_value z1
    split
    · with_reducible assumption
    · refine releaseBox_form ?_
      with_reducible assumption
  · with_reducible assumption

theorem advanceMove_form {s : State} {a1} (h : MemForm s) :
    MemForm (advanceMove s a1) := by
  unfold advanceMove
  extract_lets +onlyGivenNames z0
  clear_value z0
  split
  · with_reducible assumption
  · extract_lets +onlyGivenNames z1
    clear_value z1
    extract_lets +onlyGivenNames z2
    clear_value z2
    split
    · with_reducible assumption
    · extract_lets +onlyGivenNames z3
      have hz3 : MemForm z3 := by
        unfold z3
        refine pairRelease_form ?_
        refine yieldHandles_form ?_
        with_reducible assumption
      clear_value z3
      extract_lets +onlyGivenNames z4
      clear_value z4
      extract_lets +onlyGivenNames z5
      clear_value z5
      split
      · refine stopUndock_form ?_
        with_reducible assumption
      · extract_lets +onlyGivenNames z6
        clear_value z6
        split
        · refine stopUndock_form ?_
          exact (by
            obtain ⟨u, hu, hv⟩ := Option.bind_eq_some_iff.mp (by assumption)
            exact pagesHome_form (runsHome_form hz3 hu) hv)
        · extract_lets +onlyGivenNames z7
          have hz7 : MemForm z7 := by
            unfold z7
            refine postCtx_form ?_
            exact (by
            obtain ⟨u, hu, hv⟩ := Option.bind_eq_some_iff.mp (by assumption)
            exact pagesHome_form (runsHome_form hz3 hu) hv)
          clear_value z7
          extract_lets +onlyGivenNames z8
          have hz8 : MemForm z8 := by
            unfold z8
            refine modHalf_form ?_
            with_reducible assumption
          clear_value z8
          refine pairSend_form ?_
          with_reducible assumption

theorem advanceMoves_form {s : State} (h : MemForm s) :
    MemForm (advanceMoves s) := by
  unfold advanceMoves
  refine foldl_form (fun _ _ _ => ?_) ?_
  · refine advanceMove_form ?_
    with_reducible assumption
  · with_reducible assumption

theorem dropContext_form {s : State} {a1} (h : MemForm s) :
    MemForm (dropContext s a1) := by
  unfold dropContext
  extract_lets +onlyGivenNames z0
  clear_value z0
  extract_lets +onlyGivenNames z1
  clear_value z1
  extract_lets +onlyGivenNames z2
  have hz2 : MemForm z2 := by
    unfold z2
    refine discardTeams_form ?_
    with_reducible assumption
  clear_value z2
  extract_lets +onlyGivenNames z3
  clear_value z3
  extract_lets +onlyGivenNames z4
  have hz4 : MemForm z4 := by
    unfold z4
    with_reducible assumption
  clear_value z4
  extract_lets +onlyGivenNames z5
  have hz5 : MemForm z5 := by
    unfold z5
    refine foldl_form (fun _ _ _ => ?_) ?_
    · refine freeEntry_form ?_
      with_reducible assumption
    · with_reducible assumption
  clear_value z5
  extract_lets +onlyGivenNames z6
  have hz6 : MemForm z6 := by
    unfold z6
    refine endMirror_form ?_
    refine returnBanks_form ?_
    refine modCtx_form ?_
    with_reducible assumption
  clear_value z6
  extract_lets +onlyGivenNames z7
  have hz7 : MemForm z7 := by
    unfold z7
    with_reducible assumption
  clear_value z7
  refine modCtx_form ?_
  refine invalidate_form ?_
  with_reducible assumption

theorem sweepMoved_form {s : State} (h : MemForm s) :
    MemForm (sweepMoved s) := by
  unfold sweepMoved
  with_reducible assumption

theorem takeResume_form {a0} {a1} {a2} {s : State} (h : MemForm s) :
    MemForm (takeResume a0 a1 a2 s) := by
  unfold takeResume
  split
  · with_reducible assumption
  · extract_lets +onlyGivenNames z0
    have hz0 : MemForm z0 := by
      unfold z0
      refine modHalf_form ?_
      with_reducible assumption
    clear_value z0
    refine settleUndock_form ?_
    split
    · refine dropContext_form ?_
      with_reducible assumption
    · refine keepContext_form ?_
      with_reducible assumption

theorem pairTenure_form {a0} {a1} {a2} {s : State} (h : MemForm s) :
    MemForm (pairTenure a0 a1 a2 s) := by
  unfold pairTenure
  extract_lets +onlyGivenNames z0
  clear_value z0
  split
  · with_reducible assumption
  · split
    · with_reducible assumption
    · extract_lets +onlyGivenNames z1
      clear_value z1
      refine sendFlits_form ?_
      with_reducible assumption

theorem commitLog_form {s : State} {a1} {a2} {a3} (h : MemForm s) :
    MemForm (commitLog s a1 a2 a3) := by
  unfold commitLog
  extract_lets +onlyGivenNames z0
  clear_value z0
  extract_lets +onlyGivenNames z1
  clear_value z1
  split
  · with_reducible assumption
  · extract_lets +onlyGivenNames z2
    have hz2 : MemForm z2 := by
      unfold z2
      refine applyLog_form ?_
      with_reducible assumption
    clear_value z2
    with_reducible assumption

theorem writeMirror_form {s : State} {a1} {a2} (h : MemForm s) :
    MemForm (writeMirror s a1 a2) := by
  unfold writeMirror
  split
  · with_reducible assumption
  · split
    · refine endMirror_form ?_
      with_reducible assumption
    · extract_lets +onlyGivenNames z0
      have hz0 : MemForm z0 := by
        unfold z0
        refine modCtx_form ?_
        with_reducible assumption
      clear_value z0
      extract_lets +onlyGivenNames z1
      clear_value z1
      extract_lets +onlyGivenNames z2
      clear_value z2
      extract_lets +onlyGivenNames z3
      clear_value z3
      refine foldl_form (fun _ _ _ => ?_) ?_
      · split
        · with_reducible assumption
        · split
          · with_reducible assumption
          · with_reducible assumption
      · with_reducible assumption

theorem writeQp_form {s : State} {a1} {a2} {a3} (h : MemForm s) :
    MemForm (writeQp s a1 a2 a3) := by
  unfold writeQp
  split
  · with_reducible assumption
  · extract_lets +onlyGivenNames z0
    clear_value z0
    extract_lets +onlyGivenNames z1
    have hz1 : MemForm z1 := by
      unfold z1
      refine modQp_form ?_
      with_reducible assumption
    clear_value z1
    split
    · refine readyQp_form ?_
      with_reducible assumption
    · with_reducible assumption

theorem splitPort_form {s : State} {a1} {a2} (h : MemForm s) :
    MemForm (splitPort s a1 a2) := by
  unfold splitPort
  split
  · with_reducible assumption
  · refine foldl_form (fun _ _ _ => ?_) ?_
    · split
      · refine modHalf_form ?_
        with_reducible assumption
      · with_reducible assumption
    · with_reducible assumption

theorem askUndock_form {s : State} {a1} (h : MemForm s) :
    MemForm (askUndock s a1) := by
  unfold askUndock
  split
  · refine advanceMoves_form ?_
    refine startUndock_form ?_
    refine pairSend_form ?_
    with_reducible assumption
  · with_reducible assumption

theorem pavilionWrite_form {s : State} {a1} {a2} (h : MemForm s) :
    MemForm (pavilionWrite s a1 a2) := by
  unfold pavilionWrite
  split
  · refine modFn_form ?_
    with_reducible assumption
  · split
    · refine splitPort_form ?_
      with_reducible assumption
    · split
      · refine askUndock_form ?_
        with_reducible assumption
      · split
        · refine writeMirror_form ?_
          with_reducible assumption
        · split
          · refine writeQp_form ?_
            with_reducible assumption
          · split
            · split
              · with_reducible assumption
              · with_reducible assumption
            · with_reducible assumption

theorem vWrite_form {s : State} {a1} (h : MemForm s) :
    MemForm (vWrite s a1) := by
  unfold vWrite
  extract_lets +onlyGivenNames z0
  clear_value z0
  split
  · with_reducible assumption
  · refine modGroup_form ?_
    refine bump_form ?_
    with_reducible assumption

theorem sWrite_form {s : State} {a1} {a2} (h : MemForm s) :
    MemForm (sWrite s a1 a2) := by
  unfold sWrite
  split
  · with_reducible assumption
  · split
    · refine landOpS_form ?_
      with_reducible assumption
    · with_reducible assumption

theorem atomWrite_form {s : State} {a1} {a2} (h : MemForm s) :
    MemForm (atomWrite s a1 a2) := by
  unfold atomWrite
  extract_lets +onlyGivenNames z0
  have hz0 : MemForm z0 := by
    unfold z0
    refine pushAtomic_form ?_
    with_reducible assumption
  clear_value z0
  split
  · with_reducible assumption
  · split
    · split
      · with_reducible assumption
      · extract_lets +onlyGivenNames z1
        clear_value z1
        extract_lets +onlyGivenNames z2
        have hz2 : MemForm z2 := by
          unfold z2
          split
          · refine acquired_form ?_
            with_reducible assumption
          · with_reducible assumption
        clear_value z2
        refine landOpS_form ?_
        with_reducible assumption
    · with_reducible assumption

theorem takeLoad_form {s : State} {a1} {a2} {a3} {a4} {a5} {a6} (h : MemForm s) :
    MemForm (takeLoad s a1 a2 a3 a4 a5 a6).1 := by
  unfold takeLoad
  extract_lets +onlyGivenNames z0
  have hz0 : MemForm z0.1 := by
    unfold z0
    refine loadParts_form ?_
    with_reducible assumption
  clear_value z0
  with_reducible assumption

theorem loadWrite_form {s : State} {a1} {a2} {a3} {a4} {a5} {a6} (h : MemForm s) :
    MemForm (loadWrite s a1 a2 a3 a4 a5 a6) := by
  unfold loadWrite
  extract_lets +onlyGivenNames z0
  have hz0 : MemForm z0.1 := by
    unfold z0
    refine takeLoad_form ?_
    with_reducible assumption
  clear_value z0
  split
  · refine landOpS_form ?_
    with_reducible assumption
  · refine modGroup_form ?_
    with_reducible assumption

theorem lWrite_form {s : State} {a1} {a2} (h : MemForm s) :
    MemForm (lWrite s a1 a2) := by
  unfold lWrite
  split
  · with_reducible assumption
  · split
    · with_reducible assumption
    · split
      · refine landOpS_form ?_
        with_reducible assumption
      · refine loadWrite_form ?_
        with_reducible assumption
      · refine atomWrite_form ?_
        with_reducible assumption
      · split
        · with_reducible assumption
        · refine landOpS_form ?_
          split
          · refine acquired_form ?_
            with_reducible assumption
          · with_reducible assumption
      · refine landOpS_form ?_
        with_reducible assumption
      · refine structStep_form ?_
        with_reducible assumption
      · refine structStep_form ?_
        with_reducible assumption
      · split
        · with_reducible assumption
        · refine landOpS_form ?_
          with_reducible assumption
      · with_reducible assumption

theorem arriveOp_form {s : State} {a1} {a2} (h : MemForm s) :
    MemForm (arriveOp s a1 a2) := by
  unfold arriveOp
  split
  · with_reducible assumption
  · extract_lets +onlyGivenNames z0
    unfold z0
    split
    · with_reducible assumption
    · split
      · extract_lets +onlyGivenNames z1
        have hz1 : MemForm z1.1 := by
          unfold z1
          refine takeLoad_form ?_
          with_reducible assumption
        clear_value z1
        refine modGroup_form ?_
        with_reducible assumption
      · split
        · refine modGroup_form ?_
          with_reducible assumption
        · with_reducible assumption
      · refine modGroup_form ?_
        with_reducible assumption
      · split
        · refine modGroup_form ?_
          refine structAcq_form ?_
          with_reducible assumption
        · with_reducible assumption
      · split
        · refine modGroup_form ?_
          with_reducible assumption
        · with_reducible assumption
      · split
        · refine modGroup_form ?_
          with_reducible assumption
        · with_reducible assumption
      · split
        · split
          · split
            · refine modGroup_form ?_
              with_reducible assumption
            · with_reducible assumption
          · with_reducible assumption
        · with_reducible assumption
      · with_reducible assumption

theorem storeDone_form {s : State} {a1} {a2} (h : MemForm s) :
    MemForm (storeDone s a1 a2) := by
  unfold storeDone
  split
  · with_reducible assumption
  · split
    · extract_lets +onlyGivenNames z0
      have hz0 : MemForm z0.1 := by
        unfold z0
        split
        · with_reducible assumption
        · refine storeBytes_form ?_
          with_reducible assumption
      clear_value z0
      extract_lets +onlyGivenNames z1
      have hz1 : MemForm z1.1 := by
        unfold z1
        split
        · refine wbAll_form ?_ ?_
          · intro
            intro
            intro
            refine wbThrough_form ?_
            with_reducible assumption
          · with_reducible assumption
        · with_reducible assumption
      clear_value z1
      split
      · refine landOpS_form ?_
        with_reducible assumption
      · split
        · with_reducible assumption
        · refine modGroup_form ?_
          with_reducible assumption
    · refine landOpS_form ?_
      refine winStore_form ?_
      with_reducible assumption
    · extract_lets +onlyGivenNames z0
      have hz0 : MemForm z0.1 := by
        unfold z0
        refine prefetchAll_form ?_
        with_reducible assumption
      clear_value z0
      split
      · refine landOpS_form ?_
        with_reducible assumption
      · refine modGroup_form ?_
        with_reducible assumption
    · extract_lets +onlyGivenNames z0
      have hz0 : MemForm z0.1 := by
        unfold z0
        refine cacheTry_form ?_
        with_reducible assumption
      clear_value z0
      split
      · refine landOpS_form ?_
        with_reducible assumption
      · refine modGroup_form ?_
        with_reducible assumption
    · with_reducible assumption

theorem fenceDone_form {s : State} {a1} {a2} (h : MemForm s) :
    MemForm (fenceDone s a1 a2) := by
  unfold fenceDone
  split
  · with_reducible assumption
  · extract_lets +onlyGivenNames z0
    have hz0 : MemForm z0.1 := by
      unfold z0
      refine fenceTry_form ?_
      with_reducible assumption
    clear_value z0
    split
    · refine applyRules_form ?_
      refine modGroup_form ?_
      with_reducible assumption
    · with_reducible assumption

theorem copyDone_form {s : State} {a1} {a2} (h : MemForm s) :
    MemForm (copyDone s a1 a2) := by
  unfold copyDone
  split
  · with_reducible assumption
  · split
    · with_reducible assumption
    · split
      · refine copyStep_form ?_
        with_reducible assumption
      · refine refreshImages_form ?_
        refine linkStep_form ?_
        with_reducible assumption
      · with_reducible assumption

theorem rayDone_form {s : State} {a1} {a2} (h : MemForm s) :
    MemForm (rayDone s a1 a2) := by
  unfold rayDone
  split
  · with_reducible assumption
  · split
    · with_reducible assumption
    · split
      · refine rayStep_form ?_
        with_reducible assumption
      · with_reducible assumption

theorem dispatchBuild_form {s : State} {d : Nat} (h : MemForm s) : MemForm (dispatchBuild s d) := by
  unfold dispatchBuild
  split
  · exact firstSome_form (fun _ _ e => dispatchRequest_form h e) (by assumption)
  · exact forwardRequest_form h

theorem plainBuild_form {s : State} {a1} (h : MemForm s) :
    MemForm (plainBuild s a1) := by
  unfold plainBuild
  extract_lets +onlyGivenNames z0
  clear_value z0
  split
  · with_reducible assumption
  · refine finishOpS_form ?_
    with_reducible assumption

theorem buildDone_form {s : State} {d n : Nat} (h : MemForm s) : MemForm (buildDone s d n) := by
  unfold buildDone
  split
  · refine advanceMoves_form (sweepMoved_form (refreshImages_form ?_))
    cases e : completeRequest s d n with
    | none => exact h
    | some t => exact completeRequest_form h e
  · exact advanceMoves_form (sweepMoved_form (refreshImages_form (plainBuild_form h)))

theorem sleepWake_form {s : State} {a1} {a2} (h : MemForm s) :
    MemForm (sleepWake s a1 a2) := by
  unfold sleepWake
  extract_lets +onlyGivenNames z0
  clear_value z0
  extract_lets +onlyGivenNames z1
  clear_value z1
  split
  · refine applyRules_form ?_
    refine modSlot_form ?_
    with_reducible assumption
  · with_reducible assumption

theorem promiseMiss_form {s : State} {a1} {a2} (h : MemForm s) :
    MemForm (promiseMiss s a1 a2) := by
  unfold promiseMiss
  extract_lets +onlyGivenNames z0
  clear_value z0
  split
  · with_reducible assumption
  · extract_lets +onlyGivenNames z1
    clear_value z1
    split
    · with_reducible assumption
    · split
      · refine applyRules_form ?_
        refine modSlot_form ?_
        with_reducible assumption
      · split
        · refine modSlot_form ?_
          with_reducible assumption
        · refine takeTrap_form ?_
          refine bump_form ?_
          refine modSlot_form ?_
          with_reducible assumption

theorem takeFlit_form {s : State} {a1} (h : MemForm s) :
    MemForm (takeFlit s a1) := by
  unfold takeFlit
  split
  · with_reducible assumption
  · extract_lets +onlyGivenNames z0
    have hz0 : MemForm z0 := by
      unfold z0
      with_reducible assumption
    clear_value z0
    extract_lets +onlyGivenNames z1
    clear_value z1
    extract_lets +onlyGivenNames z2
    clear_value z2
    split
    · with_reducible assumption
    · split
      · extract_lets +onlyGivenNames z3
        clear_value z3
        extract_lets +onlyGivenNames z4
        clear_value z4
        refine setChan_form ?_
        with_reducible assumption
      · refine setChan_form ?_
        with_reducible assumption

theorem deliver_form {s : State} {src dst type : Nat} {act : State → List Byte → State}
    (hf : ∀ t b, MemForm t → MemForm (act t b)) (h : MemForm s) : MemForm (deliver s src dst type act) := by
  unfold deliver
  dsimp only
  split
  · exact h
  · split
    · exact hf _ _ (pumpChan_form (setChan_form h))
    · exact h

theorem performLoads_form {s : State} {a1} {a2} (h : MemForm s) :
    MemForm (performLoads s a1 a2) := by
  unfold performLoads
  refine foldl_form (fun _ _ _ => ?_) ?_
  · split
    · split
      · extract_lets +onlyGivenNames z0
        have hz0 : MemForm z0.1 := by
          unfold z0
          refine takeLoad_form ?_
          with_reducible assumption
        clear_value z0
        refine modGroup_form ?_
        with_reducible assumption
      · with_reducible assumption
    · with_reducible assumption
  · with_reducible assumption

theorem performTld_form {s : State} {a1} {a2} (h : MemForm s) :
    MemForm (performTld s a1 a2) := by
  unfold performTld
  split
  · with_reducible assumption
  · split
    · split
      · extract_lets +onlyGivenNames z0
        have hz0 : MemForm z0.1 := by
          unfold z0
          refine tldGo_form ?_
          with_reducible assumption
        clear_value z0
        refine modHead_form ?_
        with_reducible assumption
      · with_reducible assumption
    · with_reducible assumption

theorem performLine_form {s : State} {a1} {a2} {a3} (h : MemForm s) :
    MemForm (performLine s a1 a2 a3) := by
  unfold performLine
  extract_lets +onlyGivenNames z0
  have hz0 : MemForm z0 := by
    unfold z0
    refine foldl_form (fun _ _ _ => ?_) ?_
    · split
      · with_reducible assumption
      · refine seeSlot_form ?_
        refine seeSlot_form ?_
        refine performTld_form ?_
        refine performLoads_form ?_
        with_reducible assumption
    · with_reducible assumption
  clear_value z0
  extract_lets +onlyGivenNames z1
  have hz1 : MemForm z1 := by
    unfold z1
    with_reducible assumption
  clear_value z1
  split
  · with_reducible assumption
  · extract_lets +onlyGivenNames z2
    have hz2 : MemForm z2 := by
      unfold z2
      refine foldl_form (fun _ _ _ => ?_) ?_
      · refine wbCC_form ?_
        with_reducible assumption
      · with_reducible assumption
    clear_value z2
    refine foldl_form (fun _ _ _ => ?_) ?_
    · refine wbL1_form ?_
      with_reducible assumption
    · with_reducible assumption

theorem performLines_form {s t : State} {die : Nat} (h : MemForm t) : MemForm (performLines s t die) := by
  unfold performLines
  exact foldl_form (fun _ _ ht => performLine_form ht) h

theorem homeAtomic_form {s : State} {a1} {a2} (h : MemForm s) :
    MemForm (homeAtomic s a1 a2) := by
  unfold homeAtomic
  split
  · with_reducible assumption
  · split
    · extract_lets +onlyGivenNames z0
      clear_value z0
      refine homePut_form ?_
      with_reducible assumption
    · with_reducible assumption

theorem takeGrant_form {s : State} {die a} (h : MemForm s) : MemForm (takeGrant s die a) := performLines_form (onGrant_form (homeAtomic_form h))

theorem refusePath_form {s : State} {a1} {a2} {a3} (h : MemForm s) :
    MemForm (refusePath s a1 a2 a3) := by
  unfold refusePath
  extract_lets +onlyGivenNames z0
  clear_value z0
  extract_lets +onlyGivenNames z1
  clear_value z1
  split
  · with_reducible assumption
  · refine takeTrap_form ?_
    refine bump_form ?_
    with_reducible assumption

theorem refuseOp_form {s : State} {a1} {a2} {a3} (h : MemForm s) :
    MemForm (refuseOp s a1 a2 a3) := by
  unfold refuseOp
  split
  · with_reducible assumption
  · refine refusePath_form ?_
    refine unblockGroup_form ?_
    refine modGroup_form ?_
    with_reducible assumption

theorem refuseWord_form {s : State} {a1} {a2} (h : MemForm s) :
    MemForm (refuseWord s a1 a2) := by
  unfold refuseWord
  split
  · with_reducible assumption
  · extract_lets +onlyGivenNames z0
    have hz0 : MemForm z0 := by
      unfold z0
      refine refusePath_form ?_
      refine afterOp_form ?_
      refine applyRules_form ?_
      refine modGroup_form ?_
      with_reducible assumption
    clear_value z0
    split
    · split
      · with_reducible assumption
      · with_reducible assumption
    · split
      · with_reducible assumption
      · with_reducible assumption
    · with_reducible assumption

theorem refuseRecord_form {s : State} {a1} {a2} {a3} (h : MemForm s) :
    MemForm (refuseRecord s a1 a2 a3) := by
  unfold refuseRecord
  extract_lets +onlyGivenNames z0
  clear_value z0
  split
  · refine refusePath_form ?_
    refine modSlot_form ?_
    with_reducible assumption
  · with_reducible assumption

theorem refuseStores_form {s : State} {a1} {a2} (h : MemForm s) :
    MemForm (refuseStores s a1 a2) := by
  unfold refuseStores
  extract_lets +onlyGivenNames z0
  unfold z0
  extract_lets +onlyGivenNames z1
  have hz1 : MemForm z1 := by
    unfold z1
    refine foldl_form (fun _ _ _ => ?_) ?_
    · split
      · refine refusePath_form ?_
        refine modCore_form ?_
        with_reducible assumption
      · refine modCore_form ?_
        with_reducible assumption
    · with_reducible assumption
  clear_value z1
  refine foldl_form (fun _ _ _ => ?_) ?_
  · split
    · refine refusePath_form ?_
      refine modCluster_form ?_
      with_reducible assumption
    · refine modCluster_form ?_
      with_reducible assumption
  · with_reducible assumption

theorem permNack_form {s : State} {a1} {a2} (h : MemForm s) :
    MemForm (permNack s a1 a2) := by
  unfold permNack
  extract_lets +onlyGivenNames z0
  have hz0 : MemForm z0 := by
    unfold z0
    refine modDie_form ?_
    with_reducible assumption
  clear_value z0
  split
  · extract_lets +onlyGivenNames z1
    have hz1 : MemForm z1 := by
      unfold z1
      refine foldl_form (fun _ _ _ => ?_) ?_
      · split
        · with_reducible assumption
        · extract_lets +onlyGivenNames z2
          have hz2 : MemForm z2 := by
            unfold z2
            refine foldl_form (fun _ _ _ => ?_) ?_
            · split
              · split
                · refine refuseOp_form ?_
                  with_reducible assumption
                · with_reducible assumption
              · split
                · refine refuseOp_form ?_
                  with_reducible assumption
                · with_reducible assumption
              · with_reducible assumption
            · with_reducible assumption
          clear_value z2
          refine refuseRecord_form ?_
          refine refuseRecord_form ?_
          refine refuseWord_form ?_
          with_reducible assumption
      · with_reducible assumption
    clear_value z1
    split
    · refine refuseStores_form ?_
      with_reducible assumption
    · with_reducible assumption
  · with_reducible assumption
  · refine refuseOp_form ?_
    refine modHandle_form ?_
    with_reducible assumption
  · refine modHandle_form ?_
    with_reducible assumption
  · refine refuseOp_form ?_
    with_reducible assumption
  · refine completeReq_form ?_
    with_reducible assumption

theorem takeNack_form {s : State} {a1} {a2} (h : MemForm s) :
    MemForm (takeNack s a1 a2) := by
  unfold takeNack
  split
  · with_reducible assumption
  · split
    · refine permNack_form ?_
      with_reducible assumption
    · refine onNack_form ?_
      with_reducible assumption

theorem busyResend_form {s : State} {a1} {a2} (h : MemForm s) :
    MemForm (busyResend s a1 a2) := by
  unfold busyResend
  split
  · with_reducible assumption
  · split
    · with_reducible assumption
    · split
      · with_reducible assumption
      · extract_lets +onlyGivenNames z0
        have hz0 : MemForm z0 := by
          unfold z0
          refine modDie_form ?_
          with_reducible assumption
        clear_value z0
        refine sendMsg_form ?_
        with_reducible assumption

theorem walkDone_form {s : State} {a1} {a2} {a3} {a4} (h : MemForm s) :
    MemForm (walkDone s a1 a2 a3 a4) := by
  unfold walkDone
  extract_lets +onlyGivenNames z0
  clear_value z0
  split
  · with_reducible assumption
  · split
    · split
      · refine raiseFault_form ?_
        split
        · with_reducible assumption
        · refine touch_form ?_
          with_reducible assumption
      · with_reducible assumption
    · refine fillTlb_form ?_
      with_reducible assumption

theorem sregSide_form {a0} {a1} {s : State} (h : MemForm s) :
    MemForm (sregSide a0 a1 s) := by
  unfold sregSide
  split
  · with_reducible assumption
  · split
    · extract_lets +onlyGivenNames z0
      clear_value z0
      refine modSlot_form ?_
      with_reducible assumption
    · split
      · refine modGroup_form ?_
        with_reducible assumption
      · with_reducible assumption

theorem setPc_form {a0} {a1} {s : State} (h : MemForm s) :
    MemForm (setPc a0 a1 s) := by
  unfold setPc
  refine modSlot_form ?_
  with_reducible assumption

theorem sleepOn_form {a0} {a1} {s : State} (h : MemForm s) :
    MemForm (sleepOn a0 a1 s) := by
  unfold sleepOn
  refine modSlot_form ?_
  with_reducible assumption

theorem fetch_form {s : State} {a1} {a2} (h : MemForm s) :
    MemForm (fetch s a1 a2).1 := by
  unfold fetch
  extract_lets +onlyGivenNames z0
  clear_value z0
  extract_lets +onlyGivenNames z1
  clear_value z1
  extract_lets +onlyGivenNames z2
  clear_value z2
  extract_lets +onlyGivenNames z3
  clear_value z3
  split
  · with_reducible assumption
  · extract_lets +onlyGivenNames z4
    have hz4 : MemForm z4 := by
      unfold z4
      refine fillTlb_form ?_
      with_reducible assumption
    clear_value z4
    split
    · with_reducible assumption
    · split
      · dsimp only
        refine touch_form ?_
        with_reducible assumption
      · extract_lets +onlyGivenNames z5
        clear_value z5
        dsimp only
        refine touch_form ?_
        with_reducible assumption

theorem askAll_form {s : State} {a1} {a2} (h : MemForm s) :
    MemForm (askAll s a1 a2) := by
  unfold askAll
  refine foldl_form (fun _ _ _ => ?_) ?_
  · refine askWant_form ?_
    with_reducible assumption
  · with_reducible assumption

theorem spendServed_form {s : State} (h : MemForm s) :
    MemForm (spendServed s) := by
  unfold spendServed
  split
  · with_reducible assumption
  · with_reducible assumption

theorem passTime_form {s : State} (h : MemForm s) :
    MemForm (passTime s) := by
  unfold passTime
  with_reducible assumption

theorem evictL1_form {s : State} {a1} {a2} (h : MemForm s) :
    MemForm (evictL1 s a1 a2) := by
  unfold evictL1
  extract_lets +onlyGivenNames z0
  have hz0 : MemForm z0.1 := by
    unfold z0
    refine wbL1_form ?_
    with_reducible assumption
  clear_value z0
  split
  · refine modCore_form ?_
    with_reducible assumption
  · with_reducible assumption

theorem evictCluster_form {s : State} {a1} {a2} (h : MemForm s) :
    MemForm (evictCluster s a1 a2) := by
  unfold evictCluster
  extract_lets +onlyGivenNames z0
  have hz0 : MemForm z0.1 := by
    unfold z0
    refine wbCC_form ?_
    with_reducible assumption
  clear_value z0
  split
  · refine modCluster_form ?_
    with_reducible assumption
  · with_reducible assumption

theorem evictL2_form {s : State} {a1} {a2} (h : MemForm s) :
    MemForm (evictL2 s a1 a2) := by
  unfold evictL2
  extract_lets +onlyGivenNames z0
  unfold z0
  split
  · with_reducible assumption
  · extract_lets +onlyGivenNames z1
    clear_value z1
    extract_lets +onlyGivenNames z2
    clear_value z2
    extract_lets +onlyGivenNames z3
    clear_value z3
    split
    · refine modDie_form ?_
      refine wbL2_form ?_
      with_reducible assumption
    · split
      · with_reducible assumption
      · split
        · refine foldl_form (fun _ _ _ => ?_) ?_
          · refine releaseBox_form ?_
            with_reducible assumption
          · with_reducible assumption
        · split
          · refine keepLine_form ?_
            with_reducible assumption
          · split
            · refine modDie_form ?_
              with_reducible assumption
            · with_reducible assumption

theorem dropTlb_form {s : State} {a1} {a2} {a3} (h : MemForm s) :
    MemForm (dropTlb s a1 a2 a3) := by
  unfold dropTlb
  split
  · refine modCluster_form ?_
    with_reducible assumption
  · refine modCore_form ?_
    with_reducible assumption

theorem trimBy_form {evict : State → Nat → State} {lines ways set} {n : Nat} {s : State}
    (he : ∀ t l, MemForm t → MemForm (evict t l)) (h : MemForm s) : MemForm (trimBy evict lines ways set n s) := by
  induction n generalizing s with
  | zero => exact h
  | succ n ih =>
    unfold trimBy
    split
    · exact h
    · dsimp only
      split
      · exact he _ _ h
      · exact ih (he _ _ h)

theorem trim_form {s : State} (h : MemForm s) : MemForm (trim s) := by
  unfold trim
  exact foldl_form (fun _ _ ht => trimBy_form (fun _ _ hu => evictL2_form hu) ht)
    (foldl_form (fun _ _ ht => trimBy_form (fun _ _ hu => evictCluster_form hu) ht)
      (foldl_form (fun _ _ ht => trimBy_form (fun _ _ hu => evictL1_form hu) ht) h))

end Sys2Proof.Machine
end

