-- ==== Sys2Proof/Laws/FormWords.lean ====
section
/-! SUPPORT. Every meaning keeps memory in its canonical form: one lemma per meaning. -/
namespace Sys2Proof.Machine

open Sys2Proof

theorem semNop_form  : (semNop ).Keeps := by
  refine ⟨fun c s h => ?_, fun c s h => ?_⟩
  · unfold semNop
    dsimp only
    with_reducible assumption
  · unfold semNop
    dsimp only
    with_reducible assumption

theorem semMov_form {a0} {a1} {a2} : (semMov a0 a1 a2).Keeps := by
  unfold semMov
  split
  · exact ⟨fun _ _ h => putV_form h, fun _ _ h => h⟩
  · exact ⟨fun _ _ h => putV_form h, fun _ _ h => h⟩

theorem semSreg_form {a0} {a1} : (semSreg a0 a1).Keeps := by
  refine ⟨fun c s h => ?_, fun c s h => ?_⟩
  · unfold semSreg
    dsimp only
    refine putS_form ?_
    refine sregSide_form ?_
    with_reducible assumption
  · unfold semSreg
    dsimp only
    with_reducible assumption

theorem semIadd_form {a0} {a1} {a2} {a3} : (semIadd a0 a1 a2 a3).Keeps := by
  refine ⟨fun c s h => ?_, fun c s h => ?_⟩
  · unfold semIadd
    unfold alu2
    dsimp only
    refine putV_form ?_
    with_reducible assumption
  · unfold semIadd
    unfold alu2
    dsimp only
    with_reducible assumption

theorem semIsub_form {a0} {a1} {a2} {a3} : (semIsub a0 a1 a2 a3).Keeps := by
  refine ⟨fun c s h => ?_, fun c s h => ?_⟩
  · unfold semIsub
    unfold alu2
    dsimp only
    refine putV_form ?_
    with_reducible assumption
  · unfold semIsub
    unfold alu2
    dsimp only
    with_reducible assumption

theorem semImul_form {a0} {a1} {a2} : (semImul a0 a1 a2).Keeps := by
  refine ⟨fun c s h => ?_, fun c s h => ?_⟩
  · unfold semImul
    unfold alu2
    dsimp only
    refine putV_form ?_
    with_reducible assumption
  · unfold semImul
    unfold alu2
    dsimp only
    with_reducible assumption

theorem semImulh_form {a0} {a1} {a2} {a3} : (semImulh a0 a1 a2 a3).Keeps := by
  refine ⟨fun c s h => ?_, fun c s h => ?_⟩
  · unfold semImulh
    unfold alu2
    dsimp only
    refine putV_form ?_
    with_reducible assumption
  · unfold semImulh
    unfold alu2
    dsimp only
    with_reducible assumption

theorem semImad_form {a0} {a1} {a2} : (semImad a0 a1 a2).Keeps := by
  refine ⟨fun c s h => ?_, fun c s h => ?_⟩
  · unfold semImad
    unfold alu3
    dsimp only
    refine putV_form ?_
    with_reducible assumption
  · unfold semImad
    unfold alu3
    dsimp only
    with_reducible assumption

theorem semIadd64_form {a0} {a1} {a2} {a3} : (semIadd64 a0 a1 a2 a3).Keeps := by
  refine ⟨fun c s h => ?_, fun c s h => ?_⟩
  · unfold semIadd64
    dsimp only
    refine putV_form ?_
    with_reducible assumption
  · unfold semIadd64
    dsimp only
    with_reducible assumption

theorem semImad64_form {a0} {a1} {a2} {a3} : (semImad64 a0 a1 a2 a3).Keeps := by
  refine ⟨fun c s h => ?_, fun c s h => ?_⟩
  · unfold semImad64
    dsimp only
    refine putV_form ?_
    with_reducible assumption
  · unfold semImad64
    dsimp only
    with_reducible assumption

theorem semImin_form {a0} {a1} {a2} {a3} : (semImin a0 a1 a2 a3).Keeps := by
  refine ⟨fun c s h => ?_, fun c s h => ?_⟩
  · unfold semImin
    unfold alu2
    dsimp only
    refine putV_form ?_
    with_reducible assumption
  · unfold semImin
    unfold alu2
    dsimp only
    with_reducible assumption

theorem semImax_form {a0} {a1} {a2} {a3} : (semImax a0 a1 a2 a3).Keeps := by
  refine ⟨fun c s h => ?_, fun c s h => ?_⟩
  · unfold semImax
    unfold alu2
    dsimp only
    refine putV_form ?_
    with_reducible assumption
  · unfold semImax
    unfold alu2
    dsimp only
    with_reducible assumption

theorem semIabsd_form {a0} {a1} {a2} {a3} : (semIabsd a0 a1 a2 a3).Keeps := by
  refine ⟨fun c s h => ?_, fun c s h => ?_⟩
  · unfold semIabsd
    unfold alu2
    dsimp only
    refine putV_form ?_
    with_reducible assumption
  · unfold semIabsd
    unfold alu2
    dsimp only
    with_reducible assumption

theorem semLand_form {a0} {a1} {a2} : (semLand a0 a1 a2).Keeps := by
  refine ⟨fun c s h => ?_, fun c s h => ?_⟩
  · unfold semLand
    unfold alu2
    dsimp only
    refine putV_form ?_
    with_reducible assumption
  · unfold semLand
    unfold alu2
    dsimp only
    with_reducible assumption

theorem semLor_form {a0} {a1} {a2} : (semLor a0 a1 a2).Keeps := by
  refine ⟨fun c s h => ?_, fun c s h => ?_⟩
  · unfold semLor
    unfold alu2
    dsimp only
    refine putV_form ?_
    with_reducible assumption
  · unfold semLor
    unfold alu2
    dsimp only
    with_reducible assumption

theorem semLxor_form {a0} {a1} {a2} : (semLxor a0 a1 a2).Keeps := by
  refine ⟨fun c s h => ?_, fun c s h => ?_⟩
  · unfold semLxor
    unfold alu2
    dsimp only
    refine putV_form ?_
    with_reducible assumption
  · unfold semLxor
    unfold alu2
    dsimp only
    with_reducible assumption

theorem semLandn_form {a0} {a1} {a2} : (semLandn a0 a1 a2).Keeps := by
  refine ⟨fun c s h => ?_, fun c s h => ?_⟩
  · unfold semLandn
    unfold alu2
    dsimp only
    refine putV_form ?_
    with_reducible assumption
  · unfold semLandn
    unfold alu2
    dsimp only
    with_reducible assumption

theorem semShl_form {a0} {a1} {a2} : (semShl a0 a1 a2).Keeps := by
  refine ⟨fun c s h => ?_, fun c s h => ?_⟩
  · unfold semShl
    unfold alu2
    dsimp only
    refine putV_form ?_
    with_reducible assumption
  · unfold semShl
    unfold alu2
    dsimp only
    with_reducible assumption

theorem semShr_form {a0} {a1} {a2} {a3} : (semShr a0 a1 a2 a3).Keeps := by
  refine ⟨fun c s h => ?_, fun c s h => ?_⟩
  · unfold semShr
    unfold alu2
    dsimp only
    refine putV_form ?_
    with_reducible assumption
  · unfold semShr
    unfold alu2
    dsimp only
    with_reducible assumption

theorem semShf_form {a0} {a1} {a2} {a3} : (semShf a0 a1 a2 a3).Keeps := by
  refine ⟨fun c s h => ?_, fun c s h => ?_⟩
  · unfold semShf
    dsimp only
    refine putV_form ?_
    with_reducible assumption
  · unfold semShf
    dsimp only
    with_reducible assumption

theorem semBfx_form {a0} {a1} {a2} {a3} : (semBfx a0 a1 a2 a3).Keeps := by
  refine ⟨fun c s h => ?_, fun c s h => ?_⟩
  · unfold semBfx
    unfold alu2
    dsimp only
    refine putV_form ?_
    with_reducible assumption
  · unfold semBfx
    unfold alu2
    dsimp only
    with_reducible assumption

theorem semBfi_form {a0} {a1} {a2} : (semBfi a0 a1 a2).Keeps := by
  refine ⟨fun c s h => ?_, fun c s h => ?_⟩
  · unfold semBfi
    unfold alu3
    dsimp only
    refine putV_form ?_
    with_reducible assumption
  · unfold semBfi
    unfold alu3
    dsimp only
    with_reducible assumption

theorem semClz_form {a0} {a1} {a2} : (semClz a0 a1 a2).Keeps := by
  refine ⟨fun c s h => ?_, fun c s h => ?_⟩
  · unfold semClz
    unfold alu1
    dsimp only
    refine putV_form ?_
    with_reducible assumption
  · unfold semClz
    unfold alu1
    dsimp only
    with_reducible assumption

theorem semPopc_form {a0} {a1} {a2} : (semPopc a0 a1 a2).Keeps := by
  refine ⟨fun c s h => ?_, fun c s h => ?_⟩
  · unfold semPopc
    unfold alu1
    dsimp only
    refine putV_form ?_
    with_reducible assumption
  · unfold semPopc
    unfold alu1
    dsimp only
    with_reducible assumption

theorem semBrev_form {a0} {a1} : (semBrev a0 a1).Keeps := by
  refine ⟨fun c s h => ?_, fun c s h => ?_⟩
  · unfold semBrev
    unfold alu1
    dsimp only
    refine putV_form ?_
    with_reducible assumption
  · unfold semBrev
    unfold alu1
    dsimp only
    with_reducible assumption

theorem semBitil_form {a0} {a1} {a2} {a3} : (semBitil a0 a1 a2 a3).Keeps := by
  unfold semBitil
  split
  · exact ⟨fun _ _ h => putV_form h, fun _ _ h => h⟩
  · exact ⟨fun _ _ h => putV_form h, fun _ _ h => h⟩

theorem semBitdl_form {a0} {a1} {a2} : (semBitdl a0 a1 a2).Keeps := by
  refine ⟨fun c s h => ?_, fun c s h => ?_⟩
  · unfold semBitdl
    unfold alu1
    dsimp only
    refine putV_form ?_
    with_reducible assumption
  · unfold semBitdl
    unfold alu1
    dsimp only
    with_reducible assumption

theorem semIcmps_form {a0} {a1} {a2} {a3} : (semIcmps a0 a1 a2 a3).Keeps := by
  refine ⟨fun c s h => ?_, fun c s h => ?_⟩
  · unfold semIcmps
    unfold alu2
    dsimp only
    refine putV_form ?_
    with_reducible assumption
  · unfold semIcmps
    unfold alu2
    dsimp only
    with_reducible assumption

theorem semIcmpn_form {a0} {a1} {a2} {a3} : (semIcmpn a0 a1 a2 a3).Keeps := by
  refine ⟨fun c s h => ?_, fun c s h => ?_⟩
  · unfold semIcmpn
    unfold alu2
    dsimp only
    refine putV_form ?_
    with_reducible assumption
  · unfold semIcmpn
    unfold alu2
    dsimp only
    with_reducible assumption

theorem semSel_form {a0} {a1} {a2} {a3} : (semSel a0 a1 a2 a3).Keeps := by
  refine ⟨fun c s h => ?_, fun c s h => ?_⟩
  · unfold semSel
    unfold alu3
    dsimp only
    refine putV_form ?_
    with_reducible assumption
  · unfold semSel
    unfold alu3
    dsimp only
    with_reducible assumption

theorem semBytsel_form {a0} {a1} {a2} {a3} : (semBytsel a0 a1 a2 a3).Keeps := by
  refine ⟨fun c s h => ?_, fun c s h => ?_⟩
  · unfold semBytsel
    unfold alu3
    dsimp only
    refine putV_form ?_
    with_reducible assumption
  · unfold semBytsel
    unfold alu3
    dsimp only
    with_reducible assumption

theorem semShfl_form {a0} {a1} {a2} {a3} : (semShfl a0 a1 a2 a3).Keeps := by
  refine ⟨fun c s h => ?_, fun c s h => ?_⟩
  · unfold semShfl
    dsimp only
    refine putS_form ?_
    with_reducible assumption
  · unfold semShfl
    dsimp only
    with_reducible assumption

theorem semBallot_form {a0} {a1} {a2} : (semBallot a0 a1 a2).Keeps := by
  refine ⟨fun c s h => ?_, fun c s h => ?_⟩
  · unfold semBallot
    unfold laneWord
    dsimp only
    refine putS_form ?_
    with_reducible assumption
  · unfold semBallot
    unfold laneWord
    dsimp only
    with_reducible assumption

theorem semLred_form {a0} {a1} {a2} : (semLred a0 a1 a2).Keeps := by
  refine ⟨fun c s h => ?_, fun c s h => ?_⟩
  · unfold semLred
    unfold laneWord
    dsimp only
    refine putS_form ?_
    with_reducible assumption
  · unfold semLred
    unfold laneWord
    dsimp only
    with_reducible assumption

theorem semLscan_form {a0} {a1} {a2} : (semLscan a0 a1 a2).Keeps := by
  refine ⟨fun c s h => ?_, fun c s h => ?_⟩
  · unfold semLscan
    unfold laneWord
    dsimp only
    refine putS_form ?_
    with_reducible assumption
  · unfold semLscan
    unfold laneWord
    dsimp only
    with_reducible assumption

theorem semLfirst_form {a0} {a1} {a2} : (semLfirst a0 a1 a2).Keeps := by
  refine ⟨fun c s h => ?_, fun c s h => ?_⟩
  · unfold semLfirst
    unfold laneWord
    dsimp only
    refine putS_form ?_
    with_reducible assumption
  · unfold semLfirst
    unfold laneWord
    dsimp only
    with_reducible assumption

theorem semLmatch_form {a0} {a1} {a2} : (semLmatch a0 a1 a2).Keeps := by
  refine ⟨fun c s h => ?_, fun c s h => ?_⟩
  · unfold semLmatch
    dsimp only
    unfold laneWord
    dsimp only
    refine putS_form ?_
    with_reducible assumption
  · unfold semLmatch
    dsimp only
    unfold laneWord
    dsimp only
    with_reducible assumption

theorem semFlred_form {a0} {a1} {a2} : (semFlred a0 a1 a2).Keeps := by
  refine ⟨fun c s h => ?_, fun c s h => ?_⟩
  · unfold semFlred
    unfold laneWord
    dsimp only
    refine putS_form ?_
    with_reducible assumption
  · unfold semFlred
    unfold laneWord
    dsimp only
    with_reducible assumption

theorem semBr_form {a0} {a1} : (semBr a0 a1).Keeps := by
  refine ⟨fun c s h => ?_, fun c s h => ?_⟩
  · unfold semBr
    dsimp only
    split
    · refine emitDiv_form ?_
      refine diverge_form ?_
      with_reducible assumption
    · split
      · refine emitBr_form ?_
        split
        · with_reducible assumption
        · refine setPc_form ?_
          with_reducible assumption
      · split
        · with_reducible assumption
        · refine setPc_form ?_
          with_reducible assumption
  · unfold semBr
    dsimp only
    with_reducible assumption

theorem semBrv_form {a0} : (semBrv a0).Keeps := by
  refine ⟨fun c s h => ?_, fun c s h => ?_⟩
  · unfold semBrv
    unfold semIndirect
    dsimp only
    split
    · refine emitDiv_form ?_
      refine diverge_form ?_
      split
      · refine putNow_form ?_
        with_reducible assumption
      · with_reducible assumption
    · refine emitBrX_form ?_
      refine setPc_form ?_
      split
      · refine putNow_form ?_
        with_reducible assumption
      · with_reducible assumption
  · unfold semBrv
    unfold semIndirect
    dsimp only
    with_reducible assumption

theorem semSplit_form {a0} : (semSplit a0).Keeps := by
  refine ⟨fun c s h => ?_, fun c s h => ?_⟩
  · unfold semSplit
    dsimp only
    refine modSlot_form ?_
    refine pushEntry_form ?_
    with_reducible assumption
  · unfold semSplit
    dsimp only
    with_reducible assumption

theorem semJoin_form  : (semJoin ).Keeps := by
  refine ⟨fun c s h => ?_, fun c s h => ?_⟩
  · unfold semJoin
    dsimp only
    refine modSlot_form ?_
    with_reducible assumption
  · unfold semJoin
    dsimp only
    with_reducible assumption

theorem semCall_form {a0} : (semCall a0).Keeps := by
  refine ⟨fun c s h => ?_, fun c s h => ?_⟩
  · unfold semCall
    dsimp only
    refine setPc_form ?_
    refine putNow_form ?_
    with_reducible assumption
  · unfold semCall
    dsimp only
    with_reducible assumption

theorem semCallv_form {a0} : (semCallv a0).Keeps := by
  refine ⟨fun c s h => ?_, fun c s h => ?_⟩
  · unfold semCallv
    unfold semIndirect
    dsimp only
    split
    · refine emitDiv_form ?_
      refine diverge_form ?_
      split
      · refine putNow_form ?_
        with_reducible assumption
      · with_reducible assumption
    · refine emitBrX_form ?_
      refine setPc_form ?_
      split
      · refine putNow_form ?_
        with_reducible assumption
      · with_reducible assumption
  · unfold semCallv
    unfold semIndirect
    dsimp only
    with_reducible assumption

theorem semRet_form {a0} : (semRet a0).Keeps := by
  refine ⟨fun c s h => ?_, fun c s h => ?_⟩
  · unfold semRet
    unfold semIndirect
    dsimp only
    split
    · refine emitDiv_form ?_
      refine diverge_form ?_
      split
      · refine putNow_form ?_
        with_reducible assumption
      · with_reducible assumption
    · refine emitBrX_form ?_
      refine setPc_form ?_
      split
      · refine putNow_form ?_
        with_reducible assumption
      · with_reducible assumption
  · unfold semRet
    unfold semIndirect
    dsimp only
    with_reducible assumption

theorem semExit_form  : (semExit ).Keeps := by
  refine ⟨fun c s h => ?_, fun c s h => ?_⟩
  · unfold semExit
    dsimp only
    refine exitSlot_form ?_
    with_reducible assumption
  · unfold semExit
    dsimp only
    with_reducible assumption

theorem semPset_form {a0} {a1} : (semPset a0 a1).Keeps := by
  refine ⟨fun c s h => ?_, fun c s h => ?_⟩
  · unfold semPset
    dsimp only
    refine modSlot_form ?_
    with_reducible assumption
  · unfold semPset
    dsimp only
    with_reducible assumption

theorem semSleep_form {a0} : (semSleep a0).Keeps := by
  refine ⟨fun c s h => ?_, fun c s h => ?_⟩
  · unfold semSleep
    dsimp only
    split
    · with_reducible assumption
    · refine sleepOn_form ?_
      with_reducible assumption
  · unfold semSleep
    dsimp only
    with_reducible assumption

theorem semSleepT_form {a0} : (semSleepT a0).Keeps := by
  refine ⟨fun c s h => ?_, fun c s h => ?_⟩
  · unfold semSleepT
    dsimp only
    split
    · with_reducible assumption
    · refine sleepOn_form ?_
      with_reducible assumption
  · unfold semSleepT
    dsimp only
    with_reducible assumption

theorem semSleepB_form {a0} : (semSleepB a0).Keeps := by
  refine ⟨fun c s h => ?_, fun c s h => ?_⟩
  · unfold semSleepB
    dsimp only
    split
    · with_reducible assumption
    · split
      · with_reducible assumption
      · refine sleepOn_form ?_
        with_reducible assumption
  · unfold semSleepB
    dsimp only
    with_reducible assumption

theorem semYield_form  : (semYield ).Keeps := by
  refine ⟨fun c s h => ?_, fun c s h => ?_⟩
  · unfold semYield
    dsimp only
    with_reducible assumption
  · unfold semYield
    dsimp only
    with_reducible assumption

theorem semTrap_form {a0} : (semTrap a0).Keeps := by
  refine ⟨fun c s h => ?_, fun c s h => ?_⟩
  · unfold semTrap
    dsimp only
    with_reducible assumption
  · unfold semTrap
    dsimp only
    with_reducible assumption

theorem semBkpt_form  : (semBkpt ).Keeps := by
  refine ⟨fun c s h => ?_, fun c s h => ?_⟩
  · unfold semBkpt
    dsimp only
    with_reducible assumption
  · unfold semBkpt
    dsimp only
    with_reducible assumption

theorem semRett_form  : (semRett ).Keeps := by
  refine ⟨fun c s h => ?_, fun c s h => ?_⟩
  · unfold semRett
    dsimp only
    refine raiseMissed_form ?_
    refine returnFromTrap_form ?_
    with_reducible assumption
  · unfold semRett
    dsimp only
    with_reducible assumption

theorem semWaitc_form {a0} {a1} : (semWaitc a0 a1).Keeps := by
  refine ⟨fun c s h => ?_, fun c s h => ?_⟩
  · unfold semWaitc
    dsimp only
    with_reducible assumption
  · unfold semWaitc
    dsimp only
    with_reducible assumption

theorem semFadd_form {a0} {a1} {a2} {a3} : (semFadd a0 a1 a2 a3).Keeps := by
  refine ⟨fun c s h => ?_, fun c s h => ?_⟩
  · unfold semFadd
    unfold alu2
    dsimp only
    refine putV_form ?_
    with_reducible assumption
  · unfold semFadd
    unfold alu2
    dsimp only
    with_reducible assumption

theorem semFmul_form {a0} {a1} {a2} {a3} : (semFmul a0 a1 a2 a3).Keeps := by
  refine ⟨fun c s h => ?_, fun c s h => ?_⟩
  · unfold semFmul
    unfold alu2
    dsimp only
    refine putV_form ?_
    with_reducible assumption
  · unfold semFmul
    unfold alu2
    dsimp only
    with_reducible assumption

theorem semFfma_form {a0} {a1} {a2} {a3} : (semFfma a0 a1 a2 a3).Keeps := by
  refine ⟨fun c s h => ?_, fun c s h => ?_⟩
  · unfold semFfma
    unfold alu3
    dsimp only
    refine putV_form ?_
    with_reducible assumption
  · unfold semFfma
    unfold alu3
    dsimp only
    with_reducible assumption

theorem semFmin_form {a0} {a1} {a2} : (semFmin a0 a1 a2).Keeps := by
  refine ⟨fun c s h => ?_, fun c s h => ?_⟩
  · unfold semFmin
    unfold alu2
    dsimp only
    refine putV_form ?_
    with_reducible assumption
  · unfold semFmin
    unfold alu2
    dsimp only
    with_reducible assumption

theorem semFmax_form {a0} {a1} {a2} : (semFmax a0 a1 a2).Keeps := by
  refine ⟨fun c s h => ?_, fun c s h => ?_⟩
  · unfold semFmax
    unfold alu2
    dsimp only
    refine putV_form ?_
    with_reducible assumption
  · unfold semFmax
    unfold alu2
    dsimp only
    with_reducible assumption

theorem semFcmp_form {a0} {a1} {a2} {a3} : (semFcmp a0 a1 a2 a3).Keeps := by
  refine ⟨fun c s h => ?_, fun c s h => ?_⟩
  · unfold semFcmp
    unfold alu2
    dsimp only
    refine putV_form ?_
    with_reducible assumption
  · unfold semFcmp
    unfold alu2
    dsimp only
    with_reducible assumption

theorem semFrnd_form {a0} {a1} {a2} : (semFrnd a0 a1 a2).Keeps := by
  refine ⟨fun c s h => ?_, fun c s h => ?_⟩
  · unfold semFrnd
    unfold alu1
    dsimp only
    refine putV_form ?_
    with_reducible assumption
  · unfold semFrnd
    unfold alu1
    dsimp only
    with_reducible assumption

theorem semFclass_form {a0} {a1} {a2} : (semFclass a0 a1 a2).Keeps := by
  refine ⟨fun c s h => ?_, fun c s h => ?_⟩
  · unfold semFclass
    unfold alu1
    dsimp only
    refine putV_form ?_
    with_reducible assumption
  · unfold semFclass
    unfold alu1
    dsimp only
    with_reducible assumption

theorem semPadd2_form {a0} {a1} {a2} {a3} {a4} : (semPadd2 a0 a1 a2 a3 a4).Keeps := by
  refine ⟨fun c s h => ?_, fun c s h => ?_⟩
  · unfold semPadd2
    unfold alu2
    dsimp only
    refine putV_form ?_
    with_reducible assumption
  · unfold semPadd2
    unfold alu2
    dsimp only
    with_reducible assumption

theorem semPmul2_form {a0} {a1} {a2} {a3} {a4} : (semPmul2 a0 a1 a2 a3 a4).Keeps := by
  refine ⟨fun c s h => ?_, fun c s h => ?_⟩
  · unfold semPmul2
    unfold alu2
    dsimp only
    refine putV_form ?_
    with_reducible assumption
  · unfold semPmul2
    unfold alu2
    dsimp only
    with_reducible assumption

theorem semPfma2_form {a0} {a1} {a2} {a3} {a4} : (semPfma2 a0 a1 a2 a3 a4).Keeps := by
  refine ⟨fun c s h => ?_, fun c s h => ?_⟩
  · unfold semPfma2
    unfold alu3
    dsimp only
    refine putV_form ?_
    with_reducible assumption
  · unfold semPfma2
    unfold alu3
    dsimp only
    with_reducible assumption

theorem semPdot2_form {a0} {a1} {a2} {a3} {a4} : (semPdot2 a0 a1 a2 a3 a4).Keeps := by
  refine ⟨fun c s h => ?_, fun c s h => ?_⟩
  · unfold semPdot2
    unfold alu3
    dsimp only
    refine putV_form ?_
    with_reducible assumption
  · unfold semPdot2
    unfold alu3
    dsimp only
    with_reducible assumption

theorem semFdiv_form {a0} {a1} {a2} {a3} : (semFdiv a0 a1 a2 a3).Keeps := by
  refine ⟨fun c s h => ?_, fun c s h => ?_⟩
  · unfold semFdiv
    dsimp only
    refine putS_form ?_
    with_reducible assumption
  · unfold semFdiv
    dsimp only
    with_reducible assumption

theorem semFrcp_form {a0} {a1} {a2} : (semFrcp a0 a1 a2).Keeps := by
  refine ⟨fun c s h => ?_, fun c s h => ?_⟩
  · unfold semFrcp
    unfold sfu1
    dsimp only
    refine putS_form ?_
    with_reducible assumption
  · unfold semFrcp
    unfold sfu1
    dsimp only
    with_reducible assumption

theorem semFrsq_form {a0} {a1} {a2} : (semFrsq a0 a1 a2).Keeps := by
  refine ⟨fun c s h => ?_, fun c s h => ?_⟩
  · unfold semFrsq
    unfold sfu1
    dsimp only
    refine putS_form ?_
    with_reducible assumption
  · unfold semFrsq
    unfold sfu1
    dsimp only
    with_reducible assumption

theorem semFsqrt_form {a0} {a1} {a2} : (semFsqrt a0 a1 a2).Keeps := by
  refine ⟨fun c s h => ?_, fun c s h => ?_⟩
  · unfold semFsqrt
    unfold sfu1
    dsimp only
    refine putS_form ?_
    with_reducible assumption
  · unfold semFsqrt
    unfold sfu1
    dsimp only
    with_reducible assumption

theorem semFexp2_form {a0} {a1} {a2} : (semFexp2 a0 a1 a2).Keeps := by
  refine ⟨fun c s h => ?_, fun c s h => ?_⟩
  · unfold semFexp2
    unfold sfu1
    dsimp only
    refine putS_form ?_
    with_reducible assumption
  · unfold semFexp2
    unfold sfu1
    dsimp only
    with_reducible assumption

theorem semFlog2_form {a0} {a1} {a2} : (semFlog2 a0 a1 a2).Keeps := by
  refine ⟨fun c s h => ?_, fun c s h => ?_⟩
  · unfold semFlog2
    unfold sfu1
    dsimp only
    refine putS_form ?_
    with_reducible assumption
  · unfold semFlog2
    unfold sfu1
    dsimp only
    with_reducible assumption

theorem semFsinpi_form {a0} {a1} {a2} : (semFsinpi a0 a1 a2).Keeps := by
  refine ⟨fun c s h => ?_, fun c s h => ?_⟩
  · unfold semFsinpi
    unfold sfu1
    dsimp only
    refine putS_form ?_
    with_reducible assumption
  · unfold semFsinpi
    unfold sfu1
    dsimp only
    with_reducible assumption

theorem semFcospi_form {a0} {a1} {a2} : (semFcospi a0 a1 a2).Keeps := by
  refine ⟨fun c s h => ?_, fun c s h => ?_⟩
  · unfold semFcospi
    unfold sfu1
    dsimp only
    refine putS_form ?_
    with_reducible assumption
  · unfold semFcospi
    unfold sfu1
    dsimp only
    with_reducible assumption

theorem semCvtf_form {a0} {a1} {a2} {a3} {a4} {a5} : (semCvtf a0 a1 a2 a3 a4 a5).Keeps := by
  refine ⟨fun c s h => ?_, fun c s h => ?_⟩
  · unfold semCvtf
    unfold sfu1
    dsimp only
    refine putS_form ?_
    with_reducible assumption
  · unfold semCvtf
    unfold sfu1
    dsimp only
    with_reducible assumption

theorem semCvti_form {a0} {a1} {a2} {a3} {a4} : (semCvti a0 a1 a2 a3 a4).Keeps := by
  unfold semCvti
  extract_lets f
  split
  · exact ⟨fun _ _ h => putS_form h, fun _ _ h => h⟩
  · exact ⟨fun _ _ h => putS_form h, fun _ _ h => h⟩

theorem semCvtif_form {a0} {a1} {a2} {a3} {a4} {a5} : (semCvtif a0 a1 a2 a3 a4 a5).Keeps := by
  refine ⟨fun c s h => ?_, fun c s h => ?_⟩
  · unfold semCvtif
    dsimp only
    refine putS_form ?_
    with_reducible assumption
  · unfold semCvtif
    dsimp only
    with_reducible assumption

theorem semCvtpk_form {a0} {a1} {a2} {a3} : (semCvtpk a0 a1 a2 a3).Keeps := by
  refine ⟨fun c s h => ?_, fun c s h => ?_⟩
  · unfold semCvtpk
    dsimp only
    refine putS_form ?_
    with_reducible assumption
  · unfold semCvtpk
    dsimp only
    with_reducible assumption

theorem semLd_form {a0} {a1} {a2} {a3} {a4} {a5} {a6} : (semLd a0 a1 a2 a3 a4 a5 a6).Keeps := by
  refine ⟨fun c s h => ?_, fun c s h => ?_⟩
  · unfold semLd
    dsimp only
    refine loadGlobal_form ?_
    with_reducible assumption
  · unfold semLd
    dsimp only
    with_reducible assumption

theorem semSt_form {a0} {a1} {a2} {a3} {a4} {a5} : (semSt a0 a1 a2 a3 a4 a5).Keeps := by
  refine ⟨fun c s h => ?_, fun c s h => ?_⟩
  · unfold semSt
    dsimp only
    refine storeGlobal_form ?_
    with_reducible assumption
  · unfold semSt
    dsimp only
    with_reducible assumption

theorem semLds_form {a0} {a1} {a2} {a3} {a4} {a5} : (semLds a0 a1 a2 a3 a4 a5).Keeps := by
  refine ⟨fun c s h => ?_, fun c s h => ?_⟩
  · unfold semLds
    dsimp only
    refine windowLoad_form ?_
    with_reducible assumption
  · unfold semLds
    dsimp only
    with_reducible assumption

theorem semSts_form {a0} {a1} {a2} {a3} {a4} : (semSts a0 a1 a2 a3 a4).Keeps := by
  refine ⟨fun c s h => ?_, fun c s h => ?_⟩
  · unfold semSts
    dsimp only
    refine windowStore_form ?_
    with_reducible assumption
  · unfold semSts
    dsimp only
    with_reducible assumption

theorem semLdb_form {a0} {a1} {a2} {a3} {a4} {a5} : (semLdb a0 a1 a2 a3 a4 a5).Keeps := by
  refine ⟨fun c s h => ?_, fun c s h => ?_⟩
  · unfold semLdb
    dsimp only
    refine windowLoad_form ?_
    with_reducible assumption
  · unfold semLdb
    dsimp only
    with_reducible assumption

theorem semStb_form {a0} {a1} {a2} {a3} {a4} : (semStb a0 a1 a2 a3 a4).Keeps := by
  refine ⟨fun c s h => ?_, fun c s h => ?_⟩
  · unfold semStb
    dsimp only
    refine windowStore_form ?_
    with_reducible assumption
  · unfold semStb
    dsimp only
    with_reducible assumption

theorem semAtom_form {a0} {a1} {a2} {a3} {a4} {a5} : (semAtom a0 a1 a2 a3 a4 a5).Keeps := by
  refine ⟨fun c s h => ?_, fun c s h => ?_⟩
  · unfold semAtom
    dsimp only
    refine atomicGlobal_form ?_
    with_reducible assumption
  · unfold semAtom
    dsimp only
    with_reducible assumption

theorem semAtoms_form {a0} {a1} {a2} {a3} {a4} {a5} : (semAtoms a0 a1 a2 a3 a4 a5).Keeps := by
  refine ⟨fun c s h => ?_, fun c s h => ?_⟩
  · unfold semAtoms
    dsimp only
    split
    · refine putL_form ?_
      with_reducible assumption
    · split
      · refine putL_form ?_
        split
        · refine acquired_form ?_
          refine atomicWindow_form ?_
          split
          · refine flushFor_form ?_
            with_reducible assumption
          · with_reducible assumption
        · refine atomicWindow_form ?_
          split
          · refine flushFor_form ?_
            with_reducible assumption
          · with_reducible assumption
      · refine putLres_form ?_
        split
        · refine acquired_form ?_
          refine atomicWindow_form ?_
          split
          · refine flushFor_form ?_
            with_reducible assumption
          · with_reducible assumption
        · refine atomicWindow_form ?_
          split
          · refine flushFor_form ?_
            with_reducible assumption
          · with_reducible assumption
  · unfold semAtoms
    dsimp only
    refine flushFor_form ?_
    with_reducible assumption

theorem semCas_form {a0} {a1} {a2} {a3} {a4} : (semCas a0 a1 a2 a3 a4).Keeps := by
  refine ⟨fun c s h => ?_, fun c s h => ?_⟩
  · unfold semCas
    unfold casSem
    dsimp only
    refine atomicGlobal_form ?_
    with_reducible assumption
  · unfold semCas
    unfold casSem
    dsimp only
    with_reducible assumption

theorem semCas128_form {a0} {a1} {a2} {a3} : (semCas128 a0 a1 a2 a3).Keeps := by
  refine ⟨fun c s h => ?_, fun c s h => ?_⟩
  · unfold semCas128
    unfold casSem
    dsimp only
    refine atomicGlobal_form ?_
    with_reducible assumption
  · unfold semCas128
    unfold casSem
    dsimp only
    with_reducible assumption

theorem semAminv_form {a0} {a1} {a2} {a3} {a4} : (semAminv a0 a1 a2 a3 a4).Keeps := by
  refine ⟨fun c s h => ?_, fun c s h => ?_⟩
  · unfold semAminv
    dsimp only
    refine atomicGlobal_form ?_
    with_reducible assumption
  · unfold semAminv
    dsimp only
    with_reducible assumption

theorem semFence_form {a0} {a1} : (semFence a0 a1).Keeps := by
  refine ⟨fun c s h => ?_, fun c s h => ?_⟩
  · unfold semFence
    dsimp only
    split
    · with_reducible assumption
    · refine waitOn_form ?_
      with_reducible assumption
  · unfold semFence
    dsimp only
    with_reducible assumption

theorem semCachePref_form {a0} {a1} {a2} : (semCachePref a0 a1 a2).Keeps := by
  refine ⟨fun c s h => ?_, fun c s h => ?_⟩
  · unfold semCachePref
    dsimp only
    split
    · refine prefetchAll_form ?_
      with_reducible assumption
    · refine putL_form ?_
      refine prefetchAll_form ?_
      with_reducible assumption
  · unfold semCachePref
    dsimp only
    with_reducible assumption

theorem semCacheFlush_form {a0} {a1} {a2} : (semCacheFlush a0 a1 a2).Keeps := by
  refine ⟨fun c s h => ?_, fun c s h => ?_⟩
  · unfold semCacheFlush
    unfold cacheSem
    dsimp only
    split
    · refine cacheTry_form ?_
      with_reducible assumption
    · refine putL_form ?_
      refine cacheTry_form ?_
      with_reducible assumption
  · unfold semCacheFlush
    unfold cacheSem
    dsimp only
    with_reducible assumption

theorem semCacheInv_form {a0} {a1} {a2} : (semCacheInv a0 a1 a2).Keeps := by
  refine ⟨fun c s h => ?_, fun c s h => ?_⟩
  · unfold semCacheInv
    unfold cacheSem
    dsimp only
    split
    · refine cacheTry_form ?_
      with_reducible assumption
    · refine putL_form ?_
      refine cacheTry_form ?_
      with_reducible assumption
  · unfold semCacheInv
    unfold cacheSem
    dsimp only
    with_reducible assumption

theorem semBarInit_form {a0} {a1} {a2} : (semBarInit a0 a1 a2).Keeps := by
  refine ⟨fun c s h => ?_, fun c s h => ?_⟩
  · unfold semBarInit
    dsimp only
    split
    · with_reducible assumption
    · refine setBar_form ?_
      with_reducible assumption
  · unfold semBarInit
    dsimp only
    with_reducible assumption

theorem semBarArrive_form {a0} {a1} {a2} : (semBarArrive a0 a1 a2).Keeps := by
  refine ⟨fun c s h => ?_, fun c s h => ?_⟩
  · unfold semBarArrive
    dsimp only
    split
    · with_reducible assumption
    · refine arrive_form ?_
      refine putNow_form ?_
      refine barRelease_form ?_
      with_reducible assumption
  · unfold semBarArrive
    dsimp only
    refine flushFor_form ?_
    with_reducible assumption

theorem semBarWait_form {a0} {a1} {a2} : (semBarWait a0 a1 a2).Keeps := by
  refine ⟨fun c s h => ?_, fun c s h => ?_⟩
  · unfold semBarWait
    dsimp only
    split
    · with_reducible assumption
    · refine barWaitFor_form ?_
      with_reducible assumption
  · unfold semBarWait
    dsimp only
    with_reducible assumption

theorem semBarArrivewait_form {a0} {a1} {a2} : (semBarArrivewait a0 a1 a2).Keeps := by
  refine ⟨fun c s h => ?_, fun c s h => ?_⟩
  · unfold semBarArrivewait
    dsimp only
    split
    · with_reducible assumption
    · refine barWaitFor_form ?_
      refine arrive_form ?_
      refine barRelease_form ?_
      with_reducible assumption
  · unfold semBarArrivewait
    dsimp only
    refine flushFor_form ?_
    with_reducible assumption

theorem semBarInv_form {a0} {a1} : (semBarInv a0 a1).Keeps := by
  refine ⟨fun c s h => ?_, fun c s h => ?_⟩
  · unfold semBarInv
    dsimp only
    split
    · with_reducible assumption
    · refine wakeWaiters_form ?_
      refine setBar_form ?_
      with_reducible assumption
  · unfold semBarInv
    dsimp only
    with_reducible assumption

theorem semBarQuery_form {a0} {a1} {a2} : (semBarQuery a0 a1 a2).Keeps := by
  refine ⟨fun c s h => ?_, fun c s h => ?_⟩
  · unfold semBarQuery
    dsimp only
    split
    · with_reducible assumption
    · refine putNow_form ?_
      with_reducible assumption
  · unfold semBarQuery
    dsimp only
    with_reducible assumption

theorem semQpush_form {a0} {a1} {a2} {a3} : (semQpush a0 a1 a2 a3).Keeps := by
  refine ⟨fun c s h => ?_, fun c s h => ?_⟩
  · unfold semQpush
    dsimp only
    split
    · split
      · split
        · refine flushFor_form ?_
          with_reducible assumption
        · with_reducible assumption
      · refine modBank_form ?_
        split
        · refine flushFor_form ?_
          with_reducible assumption
        · with_reducible assumption
    · refine putL_form ?_
      split
      · split
        · refine flushFor_form ?_
          with_reducible assumption
        · with_reducible assumption
      · refine modBank_form ?_
        split
        · refine flushFor_form ?_
          with_reducible assumption
        · with_reducible assumption
  · unfold semQpush
    dsimp only
    split
    · refine flushFor_form ?_
      with_reducible assumption
    · with_reducible assumption

theorem semQpop_form {a0} {a1} {a2} {a3} : (semQpop a0 a1 a2 a3).Keeps := by
  refine ⟨fun c s h => ?_, fun c s h => ?_⟩
  · unfold semQpop
    dsimp only
    refine putLres_form ?_
    split
    · refine acquired_form ?_
      split
      · with_reducible assumption
      · refine modBank_form ?_
        with_reducible assumption
    · split
      · with_reducible assumption
      · refine modBank_form ?_
        with_reducible assumption
  · unfold semQpop
    dsimp only
    with_reducible assumption

theorem semBkcfg_form {a0} {a1} {a2} {a3} : (semBkcfg a0 a1 a2 a3).Keeps := by
  refine ⟨fun c s h => ?_, fun c s h => ?_⟩
  · unfold semBkcfg
    dsimp only
    refine putLres_form ?_
    split
    · with_reducible assumption
    · refine switchBank_form ?_
      with_reducible assumption
  · unfold semBkcfg
    dsimp only
    with_reducible assumption

theorem semTcfg_form {a0} {a1} : (semTcfg a0 a1).Keeps := by
  refine ⟨fun c s h => ?_, fun c s h => ?_⟩
  · unfold semTcfg
    dsimp only
    split
    · refine issueM_form ?_
      with_reducible assumption
    · refine modGroup_form ?_
      refine issueM_form ?_
      with_reducible assumption
  · unfold semTcfg
    dsimp only
    with_reducible assumption

theorem semTld_form {a0} {a1} {a2} {a3} : (semTld a0 a1 a2 a3).Keeps := by
  refine ⟨fun c s h => ?_, fun c s h => ?_⟩
  · unfold semTld
    unfold tileMem
    dsimp only
    refine issueM_form ?_
    with_reducible assumption
  · unfold semTld
    unfold tileMem
    dsimp only
    with_reducible assumption

theorem semTst_form {a0} {a1} {a2} {a3} {a4} : (semTst a0 a1 a2 a3 a4).Keeps := by
  refine ⟨fun c s h => ?_, fun c s h => ?_⟩
  · unfold semTst
    unfold tileMem
    dsimp only
    refine issueM_form ?_
    with_reducible assumption
  · unfold semTst
    unfold tileMem
    dsimp only
    with_reducible assumption

theorem semTmovv_form {a0} {a1} {a2} {a3} : (semTmovv a0 a1 a2 a3).Keeps := by
  refine ⟨fun c s h => ?_, fun c s h => ?_⟩
  · unfold semTmovv
    dsimp only
    split
    · refine issueM_form ?_
      with_reducible assumption
    · split
      · refine issueM_form ?_
        with_reducible assumption
      · refine issueM_form ?_
        refine modGroup_form ?_
        with_reducible assumption
  · unfold semTmovv
    dsimp only
    with_reducible assumption

theorem semMma_form {a0} {a1} {a2} : (semMma a0 a1 a2).Keeps := by
  refine ⟨fun c s h => ?_, fun c s h => ?_⟩
  · unfold semMma
    dsimp only
    unfold tileSem
    dsimp only
    refine issueM_form ?_
    with_reducible assumption
  · unfold semMma
    dsimp only
    unfold tileSem
    dsimp only
    with_reducible assumption

theorem semMzero_form {a0} {a1} : (semMzero a0 a1).Keeps := by
  refine ⟨fun c s h => ?_, fun c s h => ?_⟩
  · unfold semMzero
    dsimp only
    unfold tileSem
    dsimp only
    refine issueM_form ?_
    with_reducible assumption
  · unfold semMzero
    dsimp only
    unfold tileSem
    dsimp only
    with_reducible assumption

theorem semMdrain_form {a0} {a1} {a2} {a3} {a4} : (semMdrain a0 a1 a2 a3 a4).Keeps := by
  refine ⟨fun c s h => ?_, fun c s h => ?_⟩
  · unfold semMdrain
    dsimp only
    refine issueM_form ?_
    with_reducible assumption
  · unfold semMdrain
    dsimp only
    with_reducible assumption

theorem semMhad_form {a0} {a1} {a2} {a3} {a4} : (semMhad a0 a1 a2 a3 a4).Keeps := by
  refine ⟨fun c s h => ?_, fun c s h => ?_⟩
  · unfold semMhad
    dsimp only
    refine issueM_form ?_
    with_reducible assumption
  · unfold semMhad
    dsimp only
    with_reducible assumption

theorem semMsign_form {a0} {a1} {a2} {a3} : (semMsign a0 a1 a2 a3).Keeps := by
  refine ⟨fun c s h => ?_, fun c s h => ?_⟩
  · unfold semMsign
    dsimp only
    refine issueM_form ?_
    with_reducible assumption
  · unfold semMsign
    dsimp only
    with_reducible assumption

theorem semMquant_form {a0} {a1} : (semMquant a0 a1).Keeps := by
  refine ⟨fun c s h => ?_, fun c s h => ?_⟩
  · unfold semMquant
    dsimp only
    unfold tileSem
    dsimp only
    refine issueM_form ?_
    with_reducible assumption
  · unfold semMquant
    dsimp only
    unfold tileSem
    dsimp only
    with_reducible assumption

theorem semMbatch_form  : (semMbatch ).Keeps := by
  refine ⟨fun c s h => ?_, fun c s h => ?_⟩
  · unfold semMbatch
    dsimp only
    refine modGroup_form ?_
    with_reducible assumption
  · unfold semMbatch
    dsimp only
    with_reducible assumption

theorem semTtrans_form {a0} {a1} : (semTtrans a0 a1).Keeps := by
  refine ⟨fun c s h => ?_, fun c s h => ?_⟩
  · unfold semTtrans
    dsimp only
    unfold tileSem
    dsimp only
    refine issueM_form ?_
    with_reducible assumption
  · unfold semTtrans
    dsimp only
    unfold tileSem
    dsimp only
    with_reducible assumption

theorem semBnew_form {a0} {a1} {a2} {a3} : (semBnew a0 a1 a2 a3).Keeps := by
  refine ⟨fun c s h => ?_, fun c s h => ?_⟩
  · unfold semBnew
    dsimp only
    split
    · refine putLres_form ?_
      with_reducible assumption
    · refine putLres_form ?_
      refine modBuf_form ?_
      with_reducible assumption
  · unfold semBnew
    dsimp only
    with_reducible assumption

theorem semBfree_form {a0} : (semBfree a0).Keeps := by
  refine ⟨fun c s h => ?_, fun c s h => ?_⟩
  · unfold semBfree
    dsimp only
    split
    · with_reducible assumption
    · refine modBuf_form ?_
      with_reducible assumption
  · unfold semBfree
    dsimp only
    with_reducible assumption

theorem semBstat_form {a0} {a1} {a2} : (semBstat a0 a1 a2).Keeps := by
  refine ⟨fun c s h => ?_, fun c s h => ?_⟩
  · unfold semBstat
    dsimp only
    refine putLres_form ?_
    with_reducible assumption
  · unfold semBstat
    dsimp only
    with_reducible assumption

theorem semCpy_form {a0} {a1} {a2} {a3} : (semCpy a0 a1 a2 a3).Keeps := by
  refine ⟨fun c s h => ?_, fun c s h => ?_⟩
  · unfold semCpy
    unfold copySem
    dsimp only
    split
    · refine putLres_form ?_
      with_reducible assumption
    · refine startCopy_form ?_
      refine forgetSeen_form ?_
      with_reducible assumption
  · unfold semCpy
    unfold copySem
    dsimp only
    refine recNudge_form ?_
    with_reducible assumption

theorem semCpyo_form {a0} {a1} {a2} {a3} : (semCpyo a0 a1 a2 a3).Keeps := by
  refine ⟨fun c s h => ?_, fun c s h => ?_⟩
  · unfold semCpyo
    unfold copySem
    dsimp only
    split
    · refine putLres_form ?_
      with_reducible assumption
    · refine startCopy_form ?_
      refine forgetSeen_form ?_
      with_reducible assumption
  · unfold semCpyo
    unfold copySem
    dsimp only
    refine recNudge_form ?_
    with_reducible assumption

theorem semCpylRead_form {a0} {a1} {a2} {a3} {a4} : (semCpylRead a0 a1 a2 a3 a4).Keeps := by
  refine ⟨fun c s h => ?_, fun c s h => ?_⟩
  · unfold semCpylRead
    unfold linkSem
    dsimp only
    split
    · refine putLres_form ?_
      with_reducible assumption
    · refine startCopy_form ?_
      with_reducible assumption
  · unfold semCpylRead
    unfold linkSem
    dsimp only
    with_reducible assumption

theorem semCpylWrite_form {a0} {a1} {a2} {a3} {a4} : (semCpylWrite a0 a1 a2 a3 a4).Keeps := by
  refine ⟨fun c s h => ?_, fun c s h => ?_⟩
  · unfold semCpylWrite
    unfold linkSem
    dsimp only
    split
    · refine putLres_form ?_
      with_reducible assumption
    · refine startCopy_form ?_
      with_reducible assumption
  · unfold semCpylWrite
    unfold linkSem
    dsimp only
    with_reducible assumption

theorem semLrecBase_form {a0} {a1} {a2} : (semLrecBase a0 a1 a2).Keeps := by
  refine ⟨fun c s h => ?_, fun c s h => ?_⟩
  · unfold semLrecBase
    unfold lrecSem
    dsimp only
    refine putLres_form ?_
    refine forgetSeen_form ?_
    refine foldl_form (fun _ _ _ => ?_) ?_
    · refine fillLoad_form ?_
      with_reducible assumption
    · with_reducible assumption
  · unfold semLrecBase
    unfold lrecSem
    dsimp only
    refine foldl_form (fun _ _ _ => ?_) ?_
    · refine recNudge_form ?_
      with_reducible assumption
    · with_reducible assumption

theorem semLrecScale_form {a0} {a1} {a2} : (semLrecScale a0 a1 a2).Keeps := by
  refine ⟨fun c s h => ?_, fun c s h => ?_⟩
  · unfold semLrecScale
    unfold lrecSem
    dsimp only
    refine putLres_form ?_
    refine forgetSeen_form ?_
    refine foldl_form (fun _ _ _ => ?_) ?_
    · refine fillLoad_form ?_
      with_reducible assumption
    · with_reducible assumption
  · unfold semLrecScale
    unfold lrecSem
    dsimp only
    refine foldl_form (fun _ _ _ => ?_) ?_
    · refine recNudge_form ?_
      with_reducible assumption
    · with_reducible assumption

theorem semLrecSeed_form {a0} {a1} {a2} : (semLrecSeed a0 a1 a2).Keeps := by
  refine ⟨fun c s h => ?_, fun c s h => ?_⟩
  · unfold semLrecSeed
    unfold lrecSem
    dsimp only
    refine putLres_form ?_
    refine forgetSeen_form ?_
    refine foldl_form (fun _ _ _ => ?_) ?_
    · refine fillLoad_form ?_
      with_reducible assumption
    · with_reducible assumption
  · unfold semLrecSeed
    unfold lrecSem
    dsimp only
    refine foldl_form (fun _ _ _ => ?_) ?_
    · refine recNudge_form ?_
      with_reducible assumption
    · with_reducible assumption

theorem semLrecChk_form {a0} {a1} {a2} : (semLrecChk a0 a1 a2).Keeps := by
  refine ⟨fun c s h => ?_, fun c s h => ?_⟩
  · unfold semLrecChk
    unfold lrecSem
    dsimp only
    refine putLres_form ?_
    refine forgetSeen_form ?_
    refine foldl_form (fun _ _ _ => ?_) ?_
    · refine fillLoad_form ?_
      with_reducible assumption
    · with_reducible assumption
  · unfold semLrecChk
    unfold lrecSem
    dsimp only
    refine foldl_form (fun _ _ _ => ?_) ?_
    · refine recNudge_form ?_
      with_reducible assumption
    · with_reducible assumption

theorem semThnew_form {a0} {a1} {a2} : (semThnew a0 a1 a2).Keeps := by
  refine ⟨fun c s h => ?_, fun c s h => ?_⟩
  · unfold semThnew
    dsimp only
    split
    · refine putLres_form ?_
      with_reducible assumption
    · refine putLres_form ?_
      refine forgetSeen_form ?_
      refine putTile_form ?_
      with_reducible assumption
  · unfold semThnew
    dsimp only
    refine recNudge_form ?_
    with_reducible assumption

theorem semThfree_form {a0} {a1} : (semThfree a0 a1).Keeps := by
  refine ⟨fun c s h => ?_, fun c s h => ?_⟩
  · unfold semThfree
    dsimp only
    split
    · split
      · with_reducible assumption
      · refine modCtx_form ?_
        with_reducible assumption
    · refine putL_form ?_
      split
      · with_reducible assumption
      · refine modCtx_form ?_
        with_reducible assumption
  · unfold semThfree
    dsimp only
    refine reacqNudge_form ?_
    with_reducible assumption

theorem semThqry_form {a0} {a1} {a2} : (semThqry a0 a1 a2).Keeps := by
  refine ⟨fun c s h => ?_, fun c s h => ?_⟩
  · unfold semThqry
    dsimp only
    refine putLres_form ?_
    with_reducible assumption
  · unfold semThqry
    dsimp only
    refine foldl_form (fun _ _ _ => ?_) ?_
    · refine reacqNudge_form ?_
      with_reducible assumption
    · with_reducible assumption

theorem semTacq_form {a0} {a1} {a2} {a3} : (semTacq a0 a1 a2 a3).Keeps := by
  refine ⟨fun c s h => ?_, fun c s h => reacqNudge_form h⟩
  unfold semTacq
  dsimp only
  split
  · exact putLres_form h
  · exact acquireTenure_form (putL_form (touch_form h))

theorem semTrel_form {a0} {a1} : (semTrel a0 a1).Keeps := by
  refine ⟨fun c s h => ?_, fun c s h => ?_⟩
  · unfold semTrel
    unfold relSem
    dsimp only
    split
    · refine putLres_form ?_
      with_reducible assumption
    · split
      · refine setOpResult_form ?_
        split
        · refine modHandle_form ?_
          refine putL_form ?_
          refine flushFor_form ?_
          with_reducible assumption
        · refine putL_form ?_
          refine flushFor_form ?_
          with_reducible assumption
      · refine releaseBox_form ?_
        refine putL_form ?_
        refine flushFor_form ?_
        with_reducible assumption
  · unfold semTrel
    unfold relSem
    dsimp only
    refine flushFor_form ?_
    refine reacqNudge_form ?_
    with_reducible assumption

theorem semTflush_form {a0} {a1} : (semTflush a0 a1).Keeps := by
  refine ⟨fun c s h => ?_, fun c s h => ?_⟩
  · unfold semTflush
    unfold relSem
    dsimp only
    split
    · refine putLres_form ?_
      with_reducible assumption
    · split
      · refine setOpResult_form ?_
        split
        · refine modHandle_form ?_
          refine putL_form ?_
          refine flushFor_form ?_
          with_reducible assumption
        · refine putL_form ?_
          refine flushFor_form ?_
          with_reducible assumption
      · refine releaseBox_form ?_
        refine putL_form ?_
        refine flushFor_form ?_
        with_reducible assumption
  · unfold semTflush
    unfold relSem
    dsimp only
    refine flushFor_form ?_
    refine reacqNudge_form ?_
    with_reducible assumption

theorem semTsplit_form {a0} {a1} {a2} {a3} {a4} : (semTsplit a0 a1 a2 a3 a4).Keeps := by
  refine ⟨fun c s h => ?_, fun c s h => ?_⟩
  · unfold semTsplit
    dsimp only
    split
    · refine putLres_form ?_
      refine putTile_form ?_
      refine modHandle_form ?_
      refine splitTenure_form ?_
      with_reducible assumption
    · refine putLres_form ?_
      with_reducible assumption
  · unfold semTsplit
    dsimp only
    refine reacqNudge_form ?_
    with_reducible assumption

theorem semRtrace_form {a0} {a1} {a2} : (semRtrace a0 a1 a2).Keeps := by
  refine ⟨fun c s h => ?_, fun c s h => ?_⟩
  · unfold semRtrace
    unfold raySem
    dsimp only
    split
    · refine putLres_form ?_
      with_reducible assumption
    · split
      · refine waitOn_form ?_
        refine withDst_form ?_
        refine addEngine_form ?_
        with_reducible assumption
      · refine withDst_form ?_
        refine addEngine_form ?_
        with_reducible assumption
  · unfold semRtrace
    unfold raySem
    dsimp only
    with_reducible assumption

theorem semRany_form {a0} {a1} {a2} : (semRany a0 a1 a2).Keeps := by
  refine ⟨fun c s h => ?_, fun c s h => ?_⟩
  · unfold semRany
    unfold raySem
    dsimp only
    split
    · refine putLres_form ?_
      with_reducible assumption
    · split
      · refine waitOn_form ?_
        refine withDst_form ?_
        refine addEngine_form ?_
        with_reducible assumption
      · refine withDst_form ?_
        refine addEngine_form ?_
        with_reducible assumption
  · unfold semRany
    unfold raySem
    dsimp only
    with_reducible assumption

theorem semRpin_form {a0} {a1} {a2} : (semRpin a0 a1 a2).Keeps := by
  refine ⟨fun c s h => ?_, fun c s h => ?_⟩
  · unfold semRpin
    dsimp only
    split
    · refine putLres_form ?_
      with_reducible assumption
    · split
      · refine putLres_form ?_
        refine acquired_form ?_
        refine foldl_form (fun _ _ _ => ?_) ?_
        · refine touch_form ?_
          with_reducible assumption
        · with_reducible assumption
      · split
        · refine putLres_form ?_
          refine acquired_form ?_
          refine foldl_form (fun _ _ _ => ?_) ?_
          · refine touch_form ?_
            with_reducible assumption
          · with_reducible assumption
        · refine putLres_form ?_
          refine modGroup_form ?_
          refine putPins_form ?_
          refine acquired_form ?_
          refine foldl_form (fun _ _ _ => ?_) ?_
          · refine touch_form ?_
            with_reducible assumption
          · with_reducible assumption
  · unfold semRpin
    dsimp only
    with_reducible assumption

theorem semRunpin_form {a0} {a1} : (semRunpin a0 a1).Keeps := by
  refine ⟨fun c s h => ?_, fun c s h => ?_⟩
  · unfold semRunpin
    dsimp only
    split
    · split
      · with_reducible assumption
      · refine modGroup_form ?_
        refine headerPins_form ?_
        with_reducible assumption
    · refine putL_form ?_
      split
      · with_reducible assumption
      · refine modGroup_form ?_
        refine headerPins_form ?_
        with_reducible assumption
  · unfold semRunpin
    dsimp only
    with_reducible assumption

theorem semRhit_form {a0} {a1} {a2} : (semRhit a0 a1 a2).Keeps := by
  refine ⟨fun c s h => ?_, fun c s h => ?_⟩
  · unfold semRhit
    dsimp only
    split
    · refine putLres_form ?_
      with_reducible assumption
    · refine withDst_form ?_
      refine putL_form ?_
      with_reducible assumption
  · unfold semRhit
    dsimp only
    with_reducible assumption

theorem semRgenq_form {a0} {a1} {a2} : (semRgenq a0 a1 a2).Keeps := by
  refine ⟨fun c s h => ?_, fun c s h => ?_⟩
  · unfold semRgenq
    dsimp only
    split
    · refine putLres_form ?_
      with_reducible assumption
    · refine withDst_form ?_
      refine putL_form ?_
      with_reducible assumption
  · unfold semRgenq
    dsimp only
    with_reducible assumption

theorem semAsbuild_form {a0} {a1} : (semAsbuild a0 a1).Keeps := by
  refine ⟨fun c s h => ?_, fun c s h => ?_⟩
  · unfold semAsbuild
    unfold bldSem
    dsimp only
    split
    · refine putLres_form ?_
      with_reducible assumption
    · refine modDie_form ?_
      refine addEngine_form ?_
      refine forgetSeen_form ?_
      refine flushFor_form ?_
      with_reducible assumption
  · unfold semAsbuild
    unfold bldSem
    dsimp only
    refine flushFor_form ?_
    refine recNudge_form ?_
    with_reducible assumption

theorem semAsrefit_form {a0} {a1} : (semAsrefit a0 a1).Keeps := by
  refine ⟨fun c s h => ?_, fun c s h => ?_⟩
  · unfold semAsrefit
    unfold bldSem
    dsimp only
    split
    · refine putLres_form ?_
      with_reducible assumption
    · refine modDie_form ?_
      refine addEngine_form ?_
      refine forgetSeen_form ?_
      refine flushFor_form ?_
      with_reducible assumption
  · unfold semAsrefit
    unfold bldSem
    dsimp only
    refine flushFor_form ?_
    refine recNudge_form ?_
    with_reducible assumption

theorem semAsrebal_form {a0} {a1} : (semAsrebal a0 a1).Keeps := by
  refine ⟨fun c s h => ?_, fun c s h => ?_⟩
  · unfold semAsrebal
    unfold bldSem
    dsimp only
    split
    · refine putLres_form ?_
      with_reducible assumption
    · refine modDie_form ?_
      refine addEngine_form ?_
      refine forgetSeen_form ?_
      refine flushFor_form ?_
      with_reducible assumption
  · unfold semAsrebal
    unfold bldSem
    dsimp only
    refine flushFor_form ?_
    refine recNudge_form ?_
    with_reducible assumption

theorem semAsimport_form {a0} {a1} : (semAsimport a0 a1).Keeps := by
  refine ⟨fun c s h => ?_, fun c s h => ?_⟩
  · unfold semAsimport
    unfold bldSem
    dsimp only
    split
    · refine putLres_form ?_
      with_reducible assumption
    · refine modDie_form ?_
      refine addEngine_form ?_
      refine forgetSeen_form ?_
      refine flushFor_form ?_
      with_reducible assumption
  · unfold semAsimport
    unfold bldSem
    dsimp only
    refine flushFor_form ?_
    refine recNudge_form ?_
    with_reducible assumption

theorem semAspubl_form {a0} {a1} : (semAspubl a0 a1).Keeps := by
  refine ⟨fun c s h => ?_, fun c s h => ?_⟩
  · unfold semAspubl
    unfold bldSem
    dsimp only
    split
    · refine putLres_form ?_
      with_reducible assumption
    · refine modDie_form ?_
      refine addEngine_form ?_
      refine forgetSeen_form ?_
      refine flushFor_form ?_
      with_reducible assumption
  · unfold semAspubl
    unfold bldSem
    dsimp only
    refine flushFor_form ?_
    refine recNudge_form ?_
    with_reducible assumption

theorem semAsstat_form {a0} {a1} : (semAsstat a0 a1).Keeps := by
  refine ⟨fun c s h => ?_, fun c s h => ?_⟩
  · unfold semAsstat
    unfold bldSem
    dsimp only
    split
    · refine putLres_form ?_
      with_reducible assumption
    · refine modDie_form ?_
      refine addEngine_form ?_
      refine forgetSeen_form ?_
      refine flushFor_form ?_
      with_reducible assumption
  · unfold semAsstat
    unfold bldSem
    dsimp only
    refine flushFor_form ?_
    refine recNudge_form ?_
    with_reducible assumption

theorem semAsqual_form {a0} {a1} : (semAsqual a0 a1).Keeps := by
  refine ⟨fun c s h => ?_, fun c s h => ?_⟩
  · unfold semAsqual
    unfold bldSem
    dsimp only
    split
    · refine putLres_form ?_
      with_reducible assumption
    · refine modDie_form ?_
      refine addEngine_form ?_
      refine forgetSeen_form ?_
      refine flushFor_form ?_
      with_reducible assumption
  · unfold semAsqual
    unfold bldSem
    dsimp only
    refine flushFor_form ?_
    refine recNudge_form ?_
    with_reducible assumption

theorem semAsrecl_form {a0} {a1} : (semAsrecl a0 a1).Keeps := by
  refine ⟨fun c s h => ?_, fun c s h => ?_⟩
  · unfold semAsrecl
    unfold bldSem
    dsimp only
    split
    · refine putLres_form ?_
      with_reducible assumption
    · refine modDie_form ?_
      refine addEngine_form ?_
      refine forgetSeen_form ?_
      refine flushFor_form ?_
      with_reducible assumption
  · unfold semAsrecl
    unfold bldSem
    dsimp only
    refine flushFor_form ?_
    refine recNudge_form ?_
    with_reducible assumption

theorem semFeat_form {a0} : (semFeat a0).Keeps := by
  refine ⟨fun c s h => ?_, fun c s h => ?_⟩
  · unfold semFeat
    unfold sysSem
    dsimp only
    refine putNow_form ?_
    with_reducible assumption
  · unfold semFeat
    unfold sysSem
    dsimp only
    with_reducible assumption

theorem semDfeat_form {a0} : (semDfeat a0).Keeps := by
  refine ⟨fun c s h => ?_, fun c s h => ?_⟩
  · unfold semDfeat
    unfold sysSem
    dsimp only
    refine putNow_form ?_
    with_reducible assumption
  · unfold semDfeat
    unfold sysSem
    dsimp only
    with_reducible assumption

theorem semCkpt_form {a0} : (semCkpt a0).Keeps := by
  refine ⟨fun c s h => ?_, fun c s h => ?_⟩
  · unfold semCkpt
    dsimp only
    split
    · refine putNow_form ?_
      with_reducible assumption
    · refine waitOn_form ?_
      split
      · refine startCheckpoint_form ?_
        with_reducible assumption
      · with_reducible assumption
  · unfold semCkpt
    dsimp only
    with_reducible assumption

theorem semMbpost_form {a0} {a1} : (semMbpost a0 a1).Keeps := by
  refine ⟨fun c s h => ?_, fun c s h => ?_⟩
  · unfold semMbpost
    dsimp only
    split
    · refine putNow_form ?_
      refine resolveLine_form ?_
      refine flushFor_form ?_
      with_reducible assumption
    · refine waitOn_form ?_
      refine postMsg_form ?_
      refine resolveLine_form ?_
      refine flushFor_form ?_
      with_reducible assumption
  · unfold semMbpost
    dsimp only
    refine flushFor_form ?_
    with_reducible assumption

theorem semTrapinfo_form {a0} {a1} : (semTrapinfo a0 a1).Keeps := by
  refine ⟨fun c s h => ?_, fun c s h => ?_⟩
  · unfold semTrapinfo
    dsimp only
    unfold sysSem
    dsimp only
    refine putNow_form ?_
    with_reducible assumption
  · unfold semTrapinfo
    dsimp only
    unfold sysSem
    dsimp only
    with_reducible assumption

theorem semTrcon_form  : (semTrcon ).Keeps := by
  refine ⟨fun c s h => ?_, fun c s h => ?_⟩
  · unfold semTrcon
    dsimp only
    unfold trcSem
    dsimp only
    split
    · refine emitSync_form ?_
      split
      · with_reducible assumption
      · refine modTrace_form ?_
        refine modCtx_form ?_
        with_reducible assumption
    · with_reducible assumption
  · unfold semTrcon
    dsimp only
    unfold trcSem
    dsimp only
    with_reducible assumption

theorem semTrcoff_form  : (semTrcoff ).Keeps := by
  refine ⟨fun c s h => ?_, fun c s h => ?_⟩
  · unfold semTrcoff
    unfold trcSem
    dsimp only
    split
    · refine modTrace_form ?_
      refine emitSync_form ?_
      with_reducible assumption
    · with_reducible assumption
  · unfold semTrcoff
    unfold trcSem
    dsimp only
    with_reducible assumption

theorem semTrcmark_form {a0} : (semTrcmark a0).Keeps := by
  refine ⟨fun c s h => ?_, fun c s h => ?_⟩
  · unfold semTrcmark
    unfold trcSem
    dsimp only
    split
    · refine emitSync_form ?_
      with_reducible assumption
    · with_reducible assumption
  · unfold semTrcmark
    unfold trcSem
    dsimp only
    with_reducible assumption

/-- The meaning of a word keeps the form of memory. -/
theorem semOf_keeps {i : Instr} {m : Sem} (e : semOf i = some m) : m.Keeps := by
  cases i with
  | nop => cases e; exact semNop_form
  | mov => cases e; exact semMov_form
  | sreg => cases e; exact semSreg_form
  | iadd => cases e; exact semIadd_form
  | isub => cases e; exact semIsub_form
  | imul => cases e; exact semImul_form
  | imulh => cases e; exact semImulh_form
  | imad => cases e; exact semImad_form
  | iadd64 => cases e; exact semIadd64_form
  | imad64 => cases e; exact semImad64_form
  | imin => cases e; exact semImin_form
  | imax => cases e; exact semImax_form
  | iabsd => cases e; exact semIabsd_form
  | land => cases e; exact semLand_form
  | lor => cases e; exact semLor_form
  | lxor => cases e; exact semLxor_form
  | landn => cases e; exact semLandn_form
  | shl => cases e; exact semShl_form
  | shr => cases e; exact semShr_form
  | shf => cases e; exact semShf_form
  | bfx => cases e; exact semBfx_form
  | bfi => cases e; exact semBfi_form
  | clz => cases e; exact semClz_form
  | popc => cases e; exact semPopc_form
  | brev => cases e; exact semBrev_form
  | bitil => cases e; exact semBitil_form
  | bitdl => cases e; exact semBitdl_form
  | icmps => cases e; exact semIcmps_form
  | icmpn => cases e; exact semIcmpn_form
  | sel => cases e; exact semSel_form
  | bytsel => cases e; exact semBytsel_form
  | shfl => cases e; exact semShfl_form
  | ballot => cases e; exact semBallot_form
  | lred => cases e; exact semLred_form
  | lscan => cases e; exact semLscan_form
  | lfirst => cases e; exact semLfirst_form
  | lmatch => cases e; exact semLmatch_form
  | flred => cases e; exact semFlred_form
  | br => cases e; exact semBr_form
  | brv => cases e; exact semBrv_form
  | split => cases e; exact semSplit_form
  | join => cases e; exact semJoin_form
  | call => cases e; exact semCall_form
  | callv => cases e; exact semCallv_form
  | ret => cases e; exact semRet_form
  | exit => cases e; exact semExit_form
  | pset => cases e; exact semPset_form
  | sleep => cases e; exact semSleep_form
  | sleepT => cases e; exact semSleepT_form
  | sleepB => cases e; exact semSleepB_form
  | yield => cases e; exact semYield_form
  | trap => cases e; exact semTrap_form
  | bkpt => cases e; exact semBkpt_form
  | rett => cases e; exact semRett_form
  | waitc => cases e; exact semWaitc_form
  | fadd => cases e; exact semFadd_form
  | fmul => cases e; exact semFmul_form
  | ffma => cases e; exact semFfma_form
  | fmin => cases e; exact semFmin_form
  | fmax => cases e; exact semFmax_form
  | fcmp => cases e; exact semFcmp_form
  | frnd => cases e; exact semFrnd_form
  | fclass => cases e; exact semFclass_form
  | padd2 => cases e; exact semPadd2_form
  | pmul2 => cases e; exact semPmul2_form
  | pfma2 => cases e; exact semPfma2_form
  | pdot2 => cases e; exact semPdot2_form
  | fdiv => cases e; exact semFdiv_form
  | frcp => cases e; exact semFrcp_form
  | frsq => cases e; exact semFrsq_form
  | fsqrt => cases e; exact semFsqrt_form
  | fexp2 => cases e; exact semFexp2_form
  | flog2 => cases e; exact semFlog2_form
  | fsinpi => cases e; exact semFsinpi_form
  | fcospi => cases e; exact semFcospi_form
  | cvtf => cases e; exact semCvtf_form
  | cvti => cases e; exact semCvti_form
  | cvtif => cases e; exact semCvtif_form
  | cvtpk => cases e; exact semCvtpk_form
  | ld => cases e; exact semLd_form
  | st => cases e; exact semSt_form
  | lds => cases e; exact semLds_form
  | sts => cases e; exact semSts_form
  | ldb => cases e; exact semLdb_form
  | stb => cases e; exact semStb_form
  | atom => cases e; exact semAtom_form
  | atoms => cases e; exact semAtoms_form
  | cas => cases e; exact semCas_form
  | cas128 => cases e; exact semCas128_form
  | aminv => cases e; exact semAminv_form
  | fence => cases e; exact semFence_form
  | cachePref => cases e; exact semCachePref_form
  | cacheFlush => cases e; exact semCacheFlush_form
  | cacheInv => cases e; exact semCacheInv_form
  | barInit => cases e; exact semBarInit_form
  | barArrive => cases e; exact semBarArrive_form
  | barWait => cases e; exact semBarWait_form
  | barArrivewait => cases e; exact semBarArrivewait_form
  | barInv => cases e; exact semBarInv_form
  | barQuery => cases e; exact semBarQuery_form
  | qpush => cases e; exact semQpush_form
  | qpop => cases e; exact semQpop_form
  | bkcfg => cases e; exact semBkcfg_form
  | tcfg => cases e; exact semTcfg_form
  | tld => cases e; exact semTld_form
  | tst => cases e; exact semTst_form
  | tmovv => cases e; exact semTmovv_form
  | mma => cases e; exact semMma_form
  | mzero => cases e; exact semMzero_form
  | mdrain => cases e; exact semMdrain_form
  | mhad => cases e; exact semMhad_form
  | msign => cases e; exact semMsign_form
  | mquant => cases e; exact semMquant_form
  | mbatch => cases e; exact semMbatch_form
  | ttrans => cases e; exact semTtrans_form
  | bnew => cases e; exact semBnew_form
  | bfree => cases e; exact semBfree_form
  | bstat => cases e; exact semBstat_form
  | cpy => cases e; exact semCpy_form
  | cpyo => cases e; exact semCpyo_form
  | cpylRead => cases e; exact semCpylRead_form
  | cpylWrite => cases e; exact semCpylWrite_form
  | lrecBase => cases e; exact semLrecBase_form
  | lrecScale => cases e; exact semLrecScale_form
  | lrecSeed => cases e; exact semLrecSeed_form
  | lrecChk => cases e; exact semLrecChk_form
  | thnew => cases e; exact semThnew_form
  | thfree => cases e; exact semThfree_form
  | thqry => cases e; exact semThqry_form
  | tacq => cases e; exact semTacq_form
  | trel => cases e; exact semTrel_form
  | tflush => cases e; exact semTflush_form
  | tsplit => cases e; exact semTsplit_form
  | rtrace => cases e; exact semRtrace_form
  | rany => cases e; exact semRany_form
  | rpin => cases e; exact semRpin_form
  | runpin => cases e; exact semRunpin_form
  | rhit => cases e; exact semRhit_form
  | rgenq => cases e; exact semRgenq_form
  | asbuild => cases e; exact semAsbuild_form
  | asrefit => cases e; exact semAsrefit_form
  | asrebal => cases e; exact semAsrebal_form
  | asimport => cases e; exact semAsimport_form
  | aspubl => cases e; exact semAspubl_form
  | asstat => cases e; exact semAsstat_form
  | asqual => cases e; exact semAsqual_form
  | asrecl => cases e; exact semAsrecl_form
  | feat => cases e; exact semFeat_form
  | dfeat => cases e; exact semDfeat_form
  | ckpt => cases e; exact semCkpt_form
  | mbpost => cases e; exact semMbpost_form
  | trapinfo => cases e; exact semTrapinfo_form
  | trcon => cases e; exact semTrcon_form
  | trcoff => cases e; exact semTrcoff_form
  | trcmark => cases e; exact semTrcmark_form
  | vPipeResultWrite => cases e
  | sPipeResultWrite => cases e
  | lPipeResultWrite => cases e
  | storePerformed => cases e
  | fenceComplete => cases e
  | matrixExecute => cases e
  | copyComplete => cases e
  | rayRecordWrite => cases e
  | builderDispatch => cases e
  | buildRequestComplete => cases e
  | sleepWake => cases e
  | promiseMiss => cases e
  | checkpointCommit => cases e
  | checkpointTimer => cases e
  | emulateComplete => cases e
  | translationWalk => cases e
  | reqrd => cases e
  | reqwr => cases e
  | requestStart => cases e
  | grant => cases e
  | fwd => cases e
  | data => cases e
  | inv => cases e
  | invack => cases e
  | recallMsg => cases e
  | wbdata => cases e
  | backinv => cases e
  | nack => cases e
  | busyResend => cases e
  | pageHomeMove => cases e
  | mailboxArrival => cases e
  | launchStart => cases e
  | preemptRequest => cases e
  | safePoint => cases e
  | teamRestore => cases e
  | sliceExpiry => cases e
  | coreRetirement => cases e
  | sliceRetirement => cases e
  | pageRetirement => cases e
  | memoryError => cases e
  | tlbinvPageRange => cases e
  | tlbinvContext => cases e
  | tlbinvTenant => cases e
  | tlbinvAll => cases e
  | tlbinvComplete => cases e
  | invstatWrite => cases e
  | fltrepRetry => cases e
  | fltrepFail => cases e
  | writeWindowDescriptor => cases e
  | writeMailboxEntry => cases e
  | writeContextRecord => cases e
  | endContext => cases e
  | giveClusterBank => cases e
  | attestationReport => cases e
  | setRetirementThreshold => cases e
  | requestComplete => cases e
  | mback => cases e
  | hstatRead => cases e
  | rasstatRead => cases e
  | pairstatRead => cases e
  | registerWrite => cases e
  | hostMailboxWrite => cases e
  | functionLevelReset => cases e
  | partReset => cases e
  | d3hotEntry => cases e
  | d0Exit => cases e
  | linkUp => cases e
  | hello => cases e
  | attest => cases e
  | align => cases e
  | image => cases e
  | resume => cases e
  | tenure => cases e
  | mbox => cases e
  | credit => cases e
  | qperr => cases e
  | commit => cases e
  | undock => cases e
  | undone => cases e
  | linkLoss => cases e
  | traceDrain => cases e
  | undefinedEncoding => cases e
  | controlWordIssue => cases e
  | flit => cases e
  | unsupportedTlp => cases e
  | queuePairMemoryRequest => cases e
  | queuePairReset => cases e
  | powerStateChange => cases e
  | correctedErrorWindow => cases e
  | badreq => cases e

theorem chainOf_keeps {is : List (Nat × Instr)} : ∀ e ∈ chainOf is, e.2.Keeps := by
  intro e he
  obtain ⟨x, -, hx⟩ := List.mem_filterMap.mp he
  rw [Option.map_eq_some_iff] at hx
  obtain ⟨m, hm, rfl⟩ := hx
  exact semOf_keeps hm

theorem nudgeSlot_form {s : State} {gid : Nat} {sl : PSlot} (h : MemForm s) : MemForm (nudgeSlot s gid sl) := by
  unfold nudgeSlot
  split
  · exact h
  · split
    · rename_i e
      have ht := pair_form (fetch_form h) e
      exact nudgeChain_form chainOf_keeps ht
    · exact h

theorem trapEarly_form {s : State} (h : MemForm s) : MemForm (trapEarly s) := by
  unfold trapEarly
  split
  · exact h
  · dsimp only
    split
    · exact h
    · split
      · exact chainTrap_form (pair_form (fetch_form h) (by assumption))
      · exact h

theorem trapBad_form {s : State} (h : MemForm s) : MemForm (trapBad s) := by
  unfold trapBad
  split
  · exact h
  · dsimp only
    split
    · exact h
    · split
      · rename_i e
        have ht := pair_form (fetch_form h) e
        exact chainTrap_form ht
      · exact h

theorem emulate_form {s : State} {gid : Nat} {sl : PSlot} (h : MemForm s) : MemForm (emulate s gid sl) := by
  unfold emulate
  dsimp only
  split
  · exact h
  · split
    · rename_i e
      have ht := pair_form (fetch_form (modDie_form (modTeam_form (modSlot_form h)))) e
      split
      · exact h
      · rename_i e2
        refine modDie_form (modTeam_form (issueChain_form chainOf_keeps ?_ e2))
        exact ht
    · exact h

theorem execLd_form {a0} {a1} {a2} {a3} {a4} {a5} {a6} {s t : State} (h : MemForm s)
    (e : execLd a0 a1 a2 a3 a4 a5 a6 s = .next t) : MemForm t := by
  cases e; exact issueOne_form semLd_form h

theorem execSt_form {a0} {a1} {a2} {a3} {a4} {a5} {s t : State} (h : MemForm s)
    (e : execSt a0 a1 a2 a3 a4 a5 s = .next t) : MemForm t := by
  cases e; exact issueOne_form semSt_form h

theorem execLds_form {a0} {a1} {a2} {a3} {a4} {a5} {s t : State} (h : MemForm s)
    (e : execLds a0 a1 a2 a3 a4 a5 s = .next t) : MemForm t := by
  cases e; exact issueOne_form semLds_form h

theorem execSts_form {a0} {a1} {a2} {a3} {a4} {s t : State} (h : MemForm s)
    (e : execSts a0 a1 a2 a3 a4 s = .next t) : MemForm t := by
  cases e; exact issueOne_form semSts_form h

theorem execLdb_form {a0} {a1} {a2} {a3} {a4} {a5} {s t : State} (h : MemForm s)
    (e : execLdb a0 a1 a2 a3 a4 a5 s = .next t) : MemForm t := by
  cases e; exact issueOne_form semLdb_form h

theorem execStb_form {a0} {a1} {a2} {a3} {a4} {s t : State} (h : MemForm s)
    (e : execStb a0 a1 a2 a3 a4 s = .next t) : MemForm t := by
  cases e; exact issueOne_form semStb_form h

theorem execAtom_form {a0} {a1} {a2} {a3} {a4} {a5} {s t : State} (h : MemForm s)
    (e : execAtom a0 a1 a2 a3 a4 a5 s = .next t) : MemForm t := by
  cases e; exact issueOne_form semAtom_form h

theorem execAtoms_form {a0} {a1} {a2} {a3} {a4} {a5} {s t : State} (h : MemForm s)
    (e : execAtoms a0 a1 a2 a3 a4 a5 s = .next t) : MemForm t := by
  cases e; exact issueOne_form semAtoms_form h

theorem execCas_form {a0} {a1} {a2} {a3} {a4} {s t : State} (h : MemForm s)
    (e : execCas a0 a1 a2 a3 a4 s = .next t) : MemForm t := by
  cases e; exact issueOne_form semCas_form h

theorem execCas128_form {a0} {a1} {a2} {a3} {s t : State} (h : MemForm s)
    (e : execCas128 a0 a1 a2 a3 s = .next t) : MemForm t := by
  cases e; exact issueOne_form semCas128_form h

theorem execAminv_form {a0} {a1} {a2} {a3} {a4} {s t : State} (h : MemForm s)
    (e : execAminv a0 a1 a2 a3 a4 s = .next t) : MemForm t := by
  cases e; exact issueOne_form semAminv_form h

theorem execFence_form {a0} {a1} {s t : State} (h : MemForm s)
    (e : execFence a0 a1 s = .next t) : MemForm t := by
  cases e; exact issueOne_form semFence_form h

theorem execCachePref_form {a0} {a1} {a2} {s t : State} (h : MemForm s)
    (e : execCachePref a0 a1 a2 s = .next t) : MemForm t := by
  cases e; exact issueOne_form semCachePref_form h

theorem execCacheFlush_form {a0} {a1} {a2} {s t : State} (h : MemForm s)
    (e : execCacheFlush a0 a1 a2 s = .next t) : MemForm t := by
  cases e; exact issueOne_form semCacheFlush_form h

theorem execCacheInv_form {a0} {a1} {a2} {s t : State} (h : MemForm s)
    (e : execCacheInv a0 a1 a2 s = .next t) : MemForm t := by
  cases e; exact issueOne_form semCacheInv_form h

theorem execBarInit_form {a0} {a1} {a2} {s t : State} (h : MemForm s)
    (e : execBarInit a0 a1 a2 s = .next t) : MemForm t := by
  cases e; exact issueOne_form semBarInit_form h

theorem execBarArrive_form {a0} {a1} {a2} {s t : State} (h : MemForm s)
    (e : execBarArrive a0 a1 a2 s = .next t) : MemForm t := by
  cases e; exact issueOne_form semBarArrive_form h

theorem execBarWait_form {a0} {a1} {a2} {s t : State} (h : MemForm s)
    (e : execBarWait a0 a1 a2 s = .next t) : MemForm t := by
  cases e; exact issueOne_form semBarWait_form h

theorem execBarArrivewait_form {a0} {a1} {a2} {s t : State} (h : MemForm s)
    (e : execBarArrivewait a0 a1 a2 s = .next t) : MemForm t := by
  cases e; exact issueOne_form semBarArrivewait_form h

theorem execBarInv_form {a0} {a1} {s t : State} (h : MemForm s)
    (e : execBarInv a0 a1 s = .next t) : MemForm t := by
  cases e; exact issueOne_form semBarInv_form h

theorem execBarQuery_form {a0} {a1} {a2} {s t : State} (h : MemForm s)
    (e : execBarQuery a0 a1 a2 s = .next t) : MemForm t := by
  cases e; exact issueOne_form semBarQuery_form h

theorem execQpush_form {a0} {a1} {a2} {a3} {s t : State} (h : MemForm s)
    (e : execQpush a0 a1 a2 a3 s = .next t) : MemForm t := by
  cases e; exact issueOne_form semQpush_form h

theorem execQpop_form {a0} {a1} {a2} {a3} {s t : State} (h : MemForm s)
    (e : execQpop a0 a1 a2 a3 s = .next t) : MemForm t := by
  cases e; exact issueOne_form semQpop_form h

theorem execBkcfg_form {a0} {a1} {a2} {a3} {s t : State} (h : MemForm s)
    (e : execBkcfg a0 a1 a2 a3 s = .next t) : MemForm t := by
  cases e; exact issueOne_form semBkcfg_form h

theorem execTcfg_form {a0} {a1} {s t : State} (h : MemForm s)
    (e : execTcfg a0 a1 s = .next t) : MemForm t := by
  cases e; exact issueOne_form semTcfg_form h

theorem execTld_form {a0} {a1} {a2} {a3} {s t : State} (h : MemForm s)
    (e : execTld a0 a1 a2 a3 s = .next t) : MemForm t := by
  cases e; exact issueOne_form semTld_form h

theorem execTst_form {a0} {a1} {a2} {a3} {a4} {s t : State} (h : MemForm s)
    (e : execTst a0 a1 a2 a3 a4 s = .next t) : MemForm t := by
  cases e; exact issueOne_form semTst_form h

theorem execTmovv_form {a0} {a1} {a2} {a3} {s t : State} (h : MemForm s)
    (e : execTmovv a0 a1 a2 a3 s = .next t) : MemForm t := by
  cases e; exact issueOne_form semTmovv_form h

theorem execMma_form {a0} {a1} {a2} {s t : State} (h : MemForm s)
    (e : execMma a0 a1 a2 s = .next t) : MemForm t := by
  cases e; exact issueOne_form semMma_form h

theorem execMzero_form {a0} {a1} {s t : State} (h : MemForm s)
    (e : execMzero a0 a1 s = .next t) : MemForm t := by
  cases e; exact issueOne_form semMzero_form h

theorem execMdrain_form {a0} {a1} {a2} {a3} {a4} {s t : State} (h : MemForm s)
    (e : execMdrain a0 a1 a2 a3 a4 s = .next t) : MemForm t := by
  cases e; exact issueOne_form semMdrain_form h

theorem execMhad_form {a0} {a1} {a2} {a3} {a4} {s t : State} (h : MemForm s)
    (e : execMhad a0 a1 a2 a3 a4 s = .next t) : MemForm t := by
  cases e; exact issueOne_form semMhad_form h

theorem execMsign_form {a0} {a1} {a2} {a3} {s t : State} (h : MemForm s)
    (e : execMsign a0 a1 a2 a3 s = .next t) : MemForm t := by
  cases e; exact issueOne_form semMsign_form h

theorem execMquant_form {a0} {a1} {s t : State} (h : MemForm s)
    (e : execMquant a0 a1 s = .next t) : MemForm t := by
  cases e; exact issueOne_form semMquant_form h

theorem execMbatch_form {s t : State} (h : MemForm s)
    (e : execMbatch s = .next t) : MemForm t := by
  cases e; exact issueOne_form semMbatch_form h

theorem execTtrans_form {a0} {a1} {s t : State} (h : MemForm s)
    (e : execTtrans a0 a1 s = .next t) : MemForm t := by
  cases e; exact issueOne_form semTtrans_form h

theorem execLrecBase_form {a0} {a1} {a2} {s t : State} (h : MemForm s)
    (e : execLrecBase a0 a1 a2 s = .next t) : MemForm t := by
  cases e; exact issueOne_form semLrecBase_form h

theorem execLrecScale_form {a0} {a1} {a2} {s t : State} (h : MemForm s)
    (e : execLrecScale a0 a1 a2 s = .next t) : MemForm t := by
  cases e; exact issueOne_form semLrecScale_form h

theorem execLrecSeed_form {a0} {a1} {a2} {s t : State} (h : MemForm s)
    (e : execLrecSeed a0 a1 a2 s = .next t) : MemForm t := by
  cases e; exact issueOne_form semLrecSeed_form h

theorem execLrecChk_form {a0} {a1} {a2} {s t : State} (h : MemForm s)
    (e : execLrecChk a0 a1 a2 s = .next t) : MemForm t := by
  cases e; exact issueOne_form semLrecChk_form h

theorem execBnew_form {a0} {a1} {a2} {a3} {s t : State} (h : MemForm s)
    (e : execBnew a0 a1 a2 a3 s = .next t) : MemForm t := by
  cases e; exact issueOne_form semBnew_form h

theorem execBfree_form {a0} {s t : State} (h : MemForm s)
    (e : execBfree a0 s = .next t) : MemForm t := by
  cases e; exact issueOne_form semBfree_form h

theorem execBstat_form {a0} {a1} {a2} {s t : State} (h : MemForm s)
    (e : execBstat a0 a1 a2 s = .next t) : MemForm t := by
  cases e; exact issueOne_form semBstat_form h

theorem execCpy_form {a0} {a1} {a2} {a3} {s t : State} (h : MemForm s)
    (e : execCpy a0 a1 a2 a3 s = .next t) : MemForm t := by
  cases e; exact issueOne_form semCpy_form h

theorem execCpyo_form {a0} {a1} {a2} {a3} {s t : State} (h : MemForm s)
    (e : execCpyo a0 a1 a2 a3 s = .next t) : MemForm t := by
  cases e; exact issueOne_form semCpyo_form h

theorem execCpylRead_form {a0} {a1} {a2} {a3} {a4} {s t : State} (h : MemForm s)
    (e : execCpylRead a0 a1 a2 a3 a4 s = .next t) : MemForm t := by
  cases e; exact issueOne_form semCpylRead_form h

theorem execCpylWrite_form {a0} {a1} {a2} {a3} {a4} {s t : State} (h : MemForm s)
    (e : execCpylWrite a0 a1 a2 a3 a4 s = .next t) : MemForm t := by
  cases e; exact issueOne_form semCpylWrite_form h

theorem execThnew_form {a0} {a1} {a2} {s t : State} (h : MemForm s)
    (e : execThnew a0 a1 a2 s = .next t) : MemForm t := by
  cases e; exact issueOne_form semThnew_form h

theorem execThfree_form {a0} {a1} {s t : State} (h : MemForm s)
    (e : execThfree a0 a1 s = .next t) : MemForm t := by
  cases e; exact issueOne_form semThfree_form h

theorem execThqry_form {a0} {a1} {a2} {s t : State} (h : MemForm s)
    (e : execThqry a0 a1 a2 s = .next t) : MemForm t := by
  cases e; exact issueOne_form semThqry_form h

theorem execTacq_form {a0} {a1} {a2} {a3} {s t : State} (h : MemForm s)
    (e : execTacq a0 a1 a2 a3 s = .next t) : MemForm t := by
  cases e; exact issueOne_form semTacq_form h

theorem execTrel_form {a0} {a1} {s t : State} (h : MemForm s)
    (e : execTrel a0 a1 s = .next t) : MemForm t := by
  cases e; exact issueOne_form semTrel_form h

theorem execTflush_form {a0} {a1} {s t : State} (h : MemForm s)
    (e : execTflush a0 a1 s = .next t) : MemForm t := by
  cases e; exact issueOne_form semTflush_form h

theorem execTsplit_form {a0} {a1} {a2} {a3} {a4} {s t : State} (h : MemForm s)
    (e : execTsplit a0 a1 a2 a3 a4 s = .next t) : MemForm t := by
  cases e; exact issueOne_form semTsplit_form h

theorem execFeat_form {a0} {s t : State} (h : MemForm s)
    (e : execFeat a0 s = .next t) : MemForm t := by
  cases e; exact issueOne_form semFeat_form h

theorem execDfeat_form {a0} {s t : State} (h : MemForm s)
    (e : execDfeat a0 s = .next t) : MemForm t := by
  cases e; exact issueOne_form semDfeat_form h

theorem execCkpt_form {a0} {s t : State} (h : MemForm s)
    (e : execCkpt a0 s = .next t) : MemForm t := by
  cases e; exact issueOne_form semCkpt_form h

theorem execMbpost_form {a0} {a1} {s t : State} (h : MemForm s)
    (e : execMbpost a0 a1 s = .next t) : MemForm t := by
  cases e; exact issueOne_form semMbpost_form h

theorem execTrapinfo_form {a0} {a1} {s t : State} (h : MemForm s)
    (e : execTrapinfo a0 a1 s = .next t) : MemForm t := by
  cases e; exact issueOne_form semTrapinfo_form h

theorem execTrcon_form {s t : State} (h : MemForm s)
    (e : execTrcon s = .next t) : MemForm t := by
  cases e; exact issueOne_form semTrcon_form h

theorem execTrcoff_form {s t : State} (h : MemForm s)
    (e : execTrcoff s = .next t) : MemForm t := by
  cases e; exact issueOne_form semTrcoff_form h

theorem execTrcmark_form {a0} {s t : State} (h : MemForm s)
    (e : execTrcmark a0 s = .next t) : MemForm t := by
  cases e; exact issueOne_form semTrcmark_form h

theorem execRtrace_form {a0} {a1} {a2} {s t : State} (h : MemForm s)
    (e : execRtrace a0 a1 a2 s = .next t) : MemForm t := by
  cases e; exact issueOne_form semRtrace_form h

theorem execRany_form {a0} {a1} {a2} {s t : State} (h : MemForm s)
    (e : execRany a0 a1 a2 s = .next t) : MemForm t := by
  cases e; exact issueOne_form semRany_form h

theorem execRpin_form {a0} {a1} {a2} {s t : State} (h : MemForm s)
    (e : execRpin a0 a1 a2 s = .next t) : MemForm t := by
  cases e; exact issueOne_form semRpin_form h

theorem execRunpin_form {a0} {a1} {s t : State} (h : MemForm s)
    (e : execRunpin a0 a1 s = .next t) : MemForm t := by
  cases e; exact issueOne_form semRunpin_form h

theorem execRhit_form {a0} {a1} {a2} {s t : State} (h : MemForm s)
    (e : execRhit a0 a1 a2 s = .next t) : MemForm t := by
  cases e; exact issueOne_form semRhit_form h

theorem execRgenq_form {a0} {a1} {a2} {s t : State} (h : MemForm s)
    (e : execRgenq a0 a1 a2 s = .next t) : MemForm t := by
  cases e; exact issueOne_form semRgenq_form h

theorem execAsbuild_form {a0} {a1} {s t : State} (h : MemForm s)
    (e : execAsbuild a0 a1 s = .next t) : MemForm t := by
  cases e; exact issueOne_form semAsbuild_form h

theorem execAsrefit_form {a0} {a1} {s t : State} (h : MemForm s)
    (e : execAsrefit a0 a1 s = .next t) : MemForm t := by
  cases e; exact issueOne_form semAsrefit_form h

theorem execAsrebal_form {a0} {a1} {s t : State} (h : MemForm s)
    (e : execAsrebal a0 a1 s = .next t) : MemForm t := by
  cases e; exact issueOne_form semAsrebal_form h

theorem execAsimport_form {a0} {a1} {s t : State} (h : MemForm s)
    (e : execAsimport a0 a1 s = .next t) : MemForm t := by
  cases e; exact issueOne_form semAsimport_form h

theorem execAspubl_form {a0} {a1} {s t : State} (h : MemForm s)
    (e : execAspubl a0 a1 s = .next t) : MemForm t := by
  cases e; exact issueOne_form semAspubl_form h

theorem execAsstat_form {a0} {a1} {s t : State} (h : MemForm s)
    (e : execAsstat a0 a1 s = .next t) : MemForm t := by
  cases e; exact issueOne_form semAsstat_form h

theorem execAsqual_form {a0} {a1} {s t : State} (h : MemForm s)
    (e : execAsqual a0 a1 s = .next t) : MemForm t := by
  cases e; exact issueOne_form semAsqual_form h

theorem execAsrecl_form {a0} {a1} {s t : State} (h : MemForm s)
    (e : execAsrecl a0 a1 s = .next t) : MemForm t := by
  cases e; exact issueOne_form semAsrecl_form h

theorem execVPipeResultWrite_form {a0} {s t : State} (h : MemForm s)
    (e : execVPipeResultWrite a0 s = .next t) : MemForm t := by
  cases e
  refine vWrite_form ?_
  with_reducible assumption

theorem execSPipeResultWrite_form {a0} {a1} {s t : State} (h : MemForm s)
    (e : execSPipeResultWrite a0 a1 s = .next t) : MemForm t := by
  cases e
  refine sWrite_form ?_
  with_reducible assumption

theorem execLPipeResultWrite_form {a0} {a1} {s t : State} (h : MemForm s)
    (e : execLPipeResultWrite a0 a1 s = .next t) : MemForm t := by
  cases e
  refine lWrite_form ?_
  with_reducible assumption

theorem execStorePerformed_form {a0} {a1} {s t : State} (h : MemForm s)
    (e : execStorePerformed a0 a1 s = .next t) : MemForm t := by
  cases e
  refine storeDone_form ?_
  with_reducible assumption

theorem execFenceComplete_form {a0} {a1} {s t : State} (h : MemForm s)
    (e : execFenceComplete a0 a1 s = .next t) : MemForm t := by
  cases e
  refine fenceDone_form ?_
  with_reducible assumption

theorem execMatrixExecute_form {a0} {s t : State} (h : MemForm s)
    (e : execMatrixExecute a0 s = .next t) : MemForm t := by
  cases e
  refine matrixStep_form ?_
  with_reducible assumption

theorem execCopyComplete_form {a0} {a1} {s t : State} (h : MemForm s)
    (e : execCopyComplete a0 a1 s = .next t) : MemForm t := by
  cases e
  refine copyDone_form ?_
  with_reducible assumption

theorem execRayRecordWrite_form {a0} {a1} {s t : State} (h : MemForm s)
    (e : execRayRecordWrite a0 a1 s = .next t) : MemForm t := by
  cases e
  refine rayDone_form ?_
  with_reducible assumption

theorem execBuilderDispatch_form {a0} {s t : State} (h : MemForm s)
    (e : execBuilderDispatch a0 s = .next t) : MemForm t := by
  cases e
  refine dispatchBuild_form ?_
  with_reducible assumption

theorem execBuildRequestComplete_form {a0} {a1} {s t : State} (h : MemForm s)
    (e : execBuildRequestComplete a0 a1 s = .next t) : MemForm t := by
  cases e
  refine buildDone_form ?_
  with_reducible assumption

theorem execSleepWake_form {a0} {a1} {s t : State} (h : MemForm s)
    (e : execSleepWake a0 a1 s = .next t) : MemForm t := by
  cases e
  refine sleepWake_form ?_
  with_reducible assumption

theorem execPromiseMiss_form {a0} {a1} {s t : State} (h : MemForm s)
    (e : execPromiseMiss a0 a1 s = .next t) : MemForm t := by
  cases e
  refine promiseMiss_form ?_
  with_reducible assumption

theorem execCheckpointCommit_form {a0} {s t : State} (h : MemForm s)
    (e : execCheckpointCommit a0 s = .next t) : MemForm t := by
  cases e; exact advanceMoves_form (getD_form (fun _ => stepCheckpoint_form h) h)

theorem execCheckpointTimer_form {a0} {s t : State} (h : MemForm s)
    (e : execCheckpointTimer a0 s = .next t) : MemForm t := by
  cases e
  split
  · refine startCheckpoint_form ?_
    with_reducible assumption
  · with_reducible assumption

theorem execTranslationWalk_form {a0} {a1} {a2} {a3} {s t : State} (h : MemForm s)
    (e : execTranslationWalk a0 a1 a2 a3 s = .next t) : MemForm t := by
  cases e
  refine walkDone_form ?_
  with_reducible assumption

theorem execReqrd_form {a0} {a1} {s t : State} (h : MemForm s)
    (e : execReqrd a0 a1 s = .next t) : MemForm t := by
  cases e
  refine deliver_form ?_ ?_
  · intro
    intro
    intro
    refine arriveReq_form ?_
    with_reducible assumption
  · with_reducible assumption

theorem execReqwr_form {a0} {a1} {s t : State} (h : MemForm s)
    (e : execReqwr a0 a1 s = .next t) : MemForm t := by
  cases e
  refine deliver_form ?_ ?_
  · intro
    intro
    intro
    refine arriveReq_form ?_
    with_reducible assumption
  · with_reducible assumption

theorem execRequestStart_form {a0} {a1} {s t : State} (h : MemForm s)
    (e : execRequestStart a0 a1 s = .next t) : MemForm t := by
  cases e
  refine performLines_form ?_
  refine startSet_form ?_
  with_reducible assumption

theorem execGrant_form {a0} {a1} {s t : State} (h : MemForm s)
    (e : execGrant a0 a1 s = .next t) : MemForm t := by
  cases e
  refine deliver_form ?_ ?_
  · intro
    intro
    intro
    refine takeGrant_form ?_
    with_reducible assumption
  · with_reducible assumption

theorem execFwd_form {a0} {a1} {s t : State} (h : MemForm s)
    (e : execFwd a0 a1 s = .next t) : MemForm t := by
  cases e
  refine deliver_form ?_ ?_
  · intro
    intro
    intro
    refine onFwd_form ?_
    with_reducible assumption
  · with_reducible assumption

theorem execData_form {a0} {a1} {s t : State} (h : MemForm s)
    (e : execData a0 a1 s = .next t) : MemForm t := by
  cases e
  refine deliver_form ?_ ?_
  · intro
    intro
    intro
    refine performLines_form ?_
    refine onData_form ?_
    with_reducible assumption
  · with_reducible assumption

theorem execInv_form {a0} {a1} {s t : State} (h : MemForm s)
    (e : execInv a0 a1 s = .next t) : MemForm t := by
  cases e
  refine deliver_form ?_ ?_
  · intro
    intro
    intro
    refine onInv_form ?_
    with_reducible assumption
  · with_reducible assumption

theorem execInvack_form {a0} {a1} {s t : State} (h : MemForm s)
    (e : execInvack a0 a1 s = .next t) : MemForm t := by
  cases e
  refine deliver_form ?_ ?_
  · intro
    intro
    intro
    refine performLines_form ?_
    refine onInvAck_form ?_
    with_reducible assumption
  · with_reducible assumption

theorem execRecall_form {a0} {a1} {s t : State} (h : MemForm s)
    (e : execRecall a0 a1 s = .next t) : MemForm t := by
  cases e
  refine deliver_form ?_ ?_
  · intro
    intro
    intro
    refine onRecall_form ?_
    with_reducible assumption
  · with_reducible assumption

theorem execWbdata_form {a0} {a1} {s t : State} (h : MemForm s)
    (e : execWbdata a0 a1 s = .next t) : MemForm t := by
  cases e
  refine deliver_form ?_ ?_
  · intro
    intro
    intro
    refine onWbData_form ?_
    with_reducible assumption
  · with_reducible assumption

theorem execBackinv_form {a0} {a1} {s t : State} (h : MemForm s)
    (e : execBackinv a0 a1 s = .next t) : MemForm t := by
  cases e
  refine deliver_form ?_ ?_
  · intro
    intro
    intro
    refine onRecall_form ?_
    with_reducible assumption
  · with_reducible assumption

theorem execNack_form {a0} {a1} {s t : State} (h : MemForm s)
    (e : execNack a0 a1 s = .next t) : MemForm t := by
  cases e
  refine deliver_form ?_ ?_
  · intro
    intro
    intro
    refine takeNack_form ?_
    with_reducible assumption
  · with_reducible assumption

theorem execBusyResend_form {a0} {a1} {s t : State} (h : MemForm s)
    (e : execBusyResend a0 a1 s = .next t) : MemForm t := by
  cases e
  refine busyResend_form ?_
  with_reducible assumption

theorem execPageHomeMove_form {a0} {a1} {s t : State} (h : MemForm s)
    (e : execPageHomeMove a0 a1 s = .next t) : MemForm t := by
  cases e
  refine homeMove_form ?_
  with_reducible assumption

theorem execMailboxArrival_form {a0} {s t : State} (h : MemForm s)
    (e : execMailboxArrival a0 s = .next t) : MemForm t := by
  cases e
  split
  · refine arrivePost_form ?_
    with_reducible assumption
  · with_reducible assumption

theorem execLaunchStart_form {a0} {s t : State} (h : MemForm s)
    (e : execLaunchStart a0 s = .next t) : MemForm t := by
  cases e
  split
  · refine startLaunch_form ?_
    with_reducible assumption
  · refine checkBox_form ?_
    with_reducible assumption

theorem execPreemptRequest_form {a0} {s t : State} (h : MemForm s)
    (e : execPreemptRequest a0 s = .next t) : MemForm t := by
  cases e; exact getD_form (fun _ => preemptTeam_form h) h

theorem execSafePoint_form {a0} {s t : State} (h : MemForm s)
    (e : execSafePoint a0 s = .next t) : MemForm t := by
  cases e; exact advanceMoves_form (getD_form (fun _ => safePoint_form h) h)

theorem execTeamRestore_form {a0} {s t : State} (h : MemForm s)
    (e : execTeamRestore a0 s = .next t) : MemForm t := by
  cases e; exact getD_form (fun _ => restoreNext_form h) h

theorem execSliceExpiry_form {a0} {s t : State} (h : MemForm s)
    (e : execSliceExpiry a0 s = .next t) : MemForm t := by
  cases e
  split
  · refine expireSlice_form ?_
    with_reducible assumption
  · with_reducible assumption

theorem execCoreRetirement_form {a0} {s t : State} (h : MemForm s)
    (e : execCoreRetirement a0 s = .next t) : MemForm t := by
  cases e; exact getD_form (fun _ => retireCore_form h) h

theorem execSliceRetirement_form {a0} {a1} {s t : State} (h : MemForm s)
    (e : execSliceRetirement a0 a1 s = .next t) : MemForm t := by
  cases e
  split
  · refine retireSlice_form ?_
    with_reducible assumption
  · with_reducible assumption

theorem execPageRetirement_form {a0} {s t : State} (h : MemForm s)
    (e : execPageRetirement a0 s = .next t) : MemForm t := by
  cases e
  split
  · refine retirePage_form ?_
    with_reducible assumption
  · with_reducible assumption

theorem execMemoryError_form {a0} {s t : State} (h : MemForm s)
    (e : execMemoryError a0 s = .next t) : MemForm t := by
  cases e
  refine strike_form ?_
  with_reducible assumption

theorem execTlbinvPageRange_form {a0} {a1} {s t : State} (h : MemForm s)
    (e : execTlbinvPageRange a0 a1 s = .next t) : MemForm t := by
  cases e
  refine writeInv_form ?_
  with_reducible assumption

theorem execTlbinvContext_form {a0} {a1} {s t : State} (h : MemForm s)
    (e : execTlbinvContext a0 a1 s = .next t) : MemForm t := by
  cases e
  refine writeInv_form ?_
  with_reducible assumption

theorem execTlbinvTenant_form {a0} {a1} {s t : State} (h : MemForm s)
    (e : execTlbinvTenant a0 a1 s = .next t) : MemForm t := by
  cases e
  refine writeInv_form ?_
  with_reducible assumption

theorem execTlbinvAll_form {a0} {a1} {s t : State} (h : MemForm s)
    (e : execTlbinvAll a0 a1 s = .next t) : MemForm t := by
  cases e
  refine writeInv_form ?_
  with_reducible assumption

theorem execTlbinvComplete_form {s t : State} (h : MemForm s)
    (e : execTlbinvComplete s = .next t) : MemForm t := by
  cases e
  refine completeInv_form ?_
  with_reducible assumption

theorem execInvstatWrite_form {a0} {a1} {s t : State} (h : MemForm s)
    (e : execInvstatWrite a0 a1 s = .next t) : MemForm t := by
  cases e
  refine writeInvstat_form ?_
  with_reducible assumption

theorem execFltrepRetry_form {a0} {a1} {s t : State} (h : MemForm s)
    (e : execFltrepRetry a0 a1 s = .next t) : MemForm t := by
  cases e
  refine replyFault_form ?_
  with_reducible assumption

theorem execFltrepFail_form {a0} {a1} {s t : State} (h : MemForm s)
    (e : execFltrepFail a0 a1 s = .next t) : MemForm t := by
  cases e
  refine replyFault_form ?_
  with_reducible assumption

theorem execWriteWindowDescriptor_form {a0} {a1} {s t : State} (h : MemForm s)
    (e : execWriteWindowDescriptor a0 a1 s = .next t) : MemForm t := by
  cases e
  refine writeHreq_form ?_
  with_reducible assumption

theorem execWriteMailboxEntry_form {a0} {a1} {s t : State} (h : MemForm s)
    (e : execWriteMailboxEntry a0 a1 s = .next t) : MemForm t := by
  cases e
  refine writeHreq_form ?_
  with_reducible assumption

theorem execWriteContextRecord_form {a0} {a1} {s t : State} (h : MemForm s)
    (e : execWriteContextRecord a0 a1 s = .next t) : MemForm t := by
  cases e
  refine writeHreq_form ?_
  with_reducible assumption

theorem execEndContext_form {a0} {a1} {s t : State} (h : MemForm s)
    (e : execEndContext a0 a1 s = .next t) : MemForm t := by
  cases e
  refine writeHreq_form ?_
  with_reducible assumption

theorem execGiveClusterBank_form {a0} {a1} {s t : State} (h : MemForm s)
    (e : execGiveClusterBank a0 a1 s = .next t) : MemForm t := by
  cases e
  refine writeHreq_form ?_
  with_reducible assumption

theorem execAttestationReport_form {a0} {a1} {s t : State} (h : MemForm s)
    (e : execAttestationReport a0 a1 s = .next t) : MemForm t := by
  cases e
  refine writeHreq_form ?_
  with_reducible assumption

theorem execSetRetirementThreshold_form {a0} {a1} {s t : State} (h : MemForm s)
    (e : execSetRetirementThreshold a0 a1 s = .next t) : MemForm t := by
  cases e
  refine writeHreq_form ?_
  with_reducible assumption

theorem execRequestComplete_form {a0} {s t : State} (h : MemForm s)
    (e : execRequestComplete a0 s = .next t) : MemForm t := by
  cases e
  refine completeHreq_form ?_
  with_reducible assumption

theorem execMback_form {a0} {a1} {s t : State} (h : MemForm s)
    (e : execMback a0 a1 s = .next t) : MemForm t := by
  cases e
  refine ackBox_form ?_
  with_reducible assumption

theorem execHstatRead_form {a0} {s t : State} (h : MemForm s)
    (e : execHstatRead a0 s = .next t) : MemForm t := by
  cases e
  refine readHstat_form ?_
  with_reducible assumption

theorem execRasstatRead_form {a0} {a1} {s t : State} (h : MemForm s)
    (e : execRasstatRead a0 a1 s = .next t) : MemForm t := by
  cases e
  refine readRasstat_form ?_
  with_reducible assumption

theorem execPairstatRead_form {a0} {s t : State} (h : MemForm s)
    (e : execPairstatRead a0 s = .next t) : MemForm t := by
  cases e
  refine readPairstat_form ?_
  with_reducible assumption

theorem execRegisterWrite_form {a0} {a1} {a2} {s t : State} (h : MemForm s)
    (e : execRegisterWrite a0 a1 a2 s = .next t) : MemForm t := by
  cases e
  split
  · refine pavilionWrite_form ?_
    with_reducible assumption
  · refine writeReg_form ?_
    with_reducible assumption

theorem execHostMailboxWrite_form {a0} {a1} {a2} {s t : State} (h : MemForm s)
    (e : execHostMailboxWrite a0 a1 a2 s = .next t) : MemForm t := by
  cases e
  refine hostMailbox_form ?_
  with_reducible assumption

theorem execFunctionLevelReset_form {a0} {s t : State} (h : MemForm s)
    (e : execFunctionLevelReset a0 s = .next t) : MemForm t := by
  cases e
  refine resetVf_form ?_
  with_reducible assumption

theorem execPartReset_form {s t : State} (h : MemForm s)
    (e : execPartReset s = .next t) : MemForm t := by
  cases e
  refine resetPart_form ?_
  with_reducible assumption

theorem execD3hotEntry_form {s t : State} (h : MemForm s)
    (e : execD3hotEntry s = .next t) : MemForm t := by
  cases e
  refine enterD3_form ?_
  with_reducible assumption

theorem execD0Exit_form {s t : State} (h : MemForm s)
    (e : execD0Exit s = .next t) : MemForm t := by
  cases e
  refine exitD3_form ?_
  with_reducible assumption

theorem execLinkUp_form {a0} {a1} {s t : State} (h : MemForm s)
    (e : execLinkUp a0 a1 s = .next t) : MemForm t := by
  cases e
  refine trainLink_form ?_
  with_reducible assumption

theorem execHello_form {a0} {a1} {a2} {a3} {s t : State} (h : MemForm s)
    (e : execHello a0 a1 a2 a3 s = .next t) : MemForm t := by
  cases e
  refine onMsg_form ?_ ?_
  · intro
    intro
    refine takeHello_form ?_
    with_reducible assumption
  · with_reducible assumption

theorem execAttest_form {a0} {a1} {a2} {a3} {s t : State} (h : MemForm s)
    (e : execAttest a0 a1 a2 a3 s = .next t) : MemForm t := by
  cases e
  refine onMsg_form ?_ ?_
  · intro
    intro
    refine takeAttest_form ?_
    with_reducible assumption
  · with_reducible assumption

theorem execAlign_form {a0} {a1} {a2} {a3} {a4} {s t : State} (h : MemForm s)
    (e : execAlign a0 a1 a2 a3 a4 s = .next t) : MemForm t := by
  cases e
  refine onMsg_form ?_ ?_
  · intro
    intro
    refine takeAlign_form ?_
    with_reducible assumption
  · with_reducible assumption

theorem execImage_form {a0} {a1} {a2} {a3} {a4} {s t : State} (h : MemForm s)
    (e : execImage a0 a1 a2 a3 a4 s = .next t) : MemForm t := by
  cases e
  refine onMsg_form ?_ ?_
  · intro
    intro
    refine takeImage_form ?_
    with_reducible assumption
  · with_reducible assumption

theorem execResume_form {a0} {a1} {a2} {a3} {s t : State} (h : MemForm s)
    (e : execResume a0 a1 a2 a3 s = .next t) : MemForm t := by
  cases e
  refine onMsg_form ?_ ?_
  · intro
    intro
    refine takeResume_form ?_
    with_reducible assumption
  · with_reducible assumption

theorem execTenure_form {a0} {a1} {a2} {a3} {s t : State} (h : MemForm s)
    (e : execTenure a0 a1 a2 a3 s = .next t) : MemForm t := by
  cases e
  extract_lets +onlyGivenNames z0
  have hz0 : MemForm z0.1 := by
    unfold z0
    refine takeHdr_form ?_
    with_reducible assumption
  clear_value z0
  split
  · split
    · with_reducible assumption
    · refine loseLink_form ?_
      with_reducible assumption
  · split
    · refine pairTenure_form ?_
      with_reducible assumption
    · with_reducible assumption

theorem execMbox_form {a0} {a1} {a2} {a3} {s t : State} (h : MemForm s)
    (e : execMbox a0 a1 a2 a3 s = .next t) : MemForm t := by
  cases e
  refine onMsg_form ?_ ?_
  · intro
    intro
    refine takeMbox_form ?_
    with_reducible assumption
  · with_reducible assumption

theorem execCredit_form {a0} {a1} {a2} {a3} {a4} {s t : State} (h : MemForm s)
    (e : execCredit a0 a1 a2 a3 a4 s = .next t) : MemForm t := by
  cases e
  refine onMsg_form ?_ ?_
  · intro
    intro
    refine takeCredit_form ?_
    with_reducible assumption
  · with_reducible assumption

theorem execQperr_form {a0} {a1} {a2} {s t : State} (h : MemForm s)
    (e : execQperr a0 a1 a2 s = .next t) : MemForm t := by
  cases e
  refine onMsg_form ?_ ?_
  · intro
    intro
    split
    · refine errQp_form ?_
      with_reducible assumption
    · with_reducible assumption
  · with_reducible assumption

theorem execCommit_form {a0} {a1} {a2} {s t : State} (h : MemForm s)
    (e : execCommit a0 a1 a2 s = .next t) : MemForm t := by
  cases e
  refine commitLog_form ?_
  with_reducible assumption

theorem execUndock_form {a0} {a1} {s t : State} (h : MemForm s)
    (e : execUndock a0 a1 s = .next t) : MemForm t := by
  cases e
  refine onMsg_form ?_ ?_
  · intro
    intro
    refine advanceMoves_form ?_
    refine startUndock_form ?_
    with_reducible assumption
  · with_reducible assumption

theorem execUndone_form {a0} {a1} {s t : State} (h : MemForm s)
    (e : execUndone a0 a1 s = .next t) : MemForm t := by
  cases e
  refine onMsg_form ?_ ?_
  · intro
    intro
    refine goDown_form ?_
    with_reducible assumption
  · with_reducible assumption

theorem execLinkLoss_form {a0} {s t : State} (h : MemForm s)
    (e : execLinkLoss a0 s = .next t) : MemForm t := by
  cases e
  refine loseLink_form ?_
  with_reducible assumption

theorem execTraceDrain_form {a0} {s t : State} (h : MemForm s)
    (e : execTraceDrain a0 s = .next t) : MemForm t := by
  cases e; exact getD_form (fun _ => drainStep_form h) h

theorem execFlit_form {a0} {s t : State} (h : MemForm s)
    (e : execFlit a0 s = .next t) : MemForm t := by
  cases e
  refine takeFlit_form ?_
  with_reducible assumption

theorem execUnsupportedTlp_form {a0} {s t : State} (h : MemForm s)
    (e : execUnsupportedTlp a0 s = .next t) : MemForm t := by
  cases e
  refine dropTlp_form ?_
  with_reducible assumption

theorem execQueuePairMemoryRequest_form {a0} {a1} {a2} {a3} {a4} {a5} {s t : State} (h : MemForm s)
    (e : execQueuePairMemoryRequest a0 a1 a2 a3 a4 a5 s = .next t) : MemForm t := by
  cases e
  refine windowRequest_form ?_
  with_reducible assumption

theorem execQueuePairReset_form {a0} {a1} {s t : State} (h : MemForm s)
    (e : execQueuePairReset a0 a1 s = .next t) : MemForm t := by
  cases e
  refine resetQp_form ?_
  with_reducible assumption

theorem execPowerStateChange_form {a0} {a1} {s t : State} (h : MemForm s)
    (e : execPowerStateChange a0 a1 s = .next t) : MemForm t := by
  cases e
  refine setPower_form ?_
  with_reducible assumption

theorem execCorrectedErrorWindow_form {s t : State} (h : MemForm s)
    (e : execCorrectedErrorWindow s = .next t) : MemForm t := by
  cases e
  refine newWindow_form ?_
  with_reducible assumption

theorem execBadreq_form {a0} {a1} {s t : State} (h : MemForm s)
    (e : execBadreq a0 a1 s = .next t) : MemForm t := by
  cases e
  refine writeHreq_form ?_
  with_reducible assumption

theorem execNop_form {s t : State} (h : MemForm s)
    (e : execNop s = .next t) : MemForm t := by
  cases e; exact issueOne_form semNop_form h

theorem execMov_form {a0} {a1} {a2} {s t : State} (h : MemForm s)
    (e : execMov a0 a1 a2 s = .next t) : MemForm t := by
  cases e; exact issueOne_form semMov_form h

theorem execIadd_form {a0} {a1} {a2} {a3} {s t : State} (h : MemForm s)
    (e : execIadd a0 a1 a2 a3 s = .next t) : MemForm t := by
  cases e; exact issueOne_form semIadd_form h

theorem execIsub_form {a0} {a1} {a2} {a3} {s t : State} (h : MemForm s)
    (e : execIsub a0 a1 a2 a3 s = .next t) : MemForm t := by
  cases e; exact issueOne_form semIsub_form h

theorem execImul_form {a0} {a1} {a2} {s t : State} (h : MemForm s)
    (e : execImul a0 a1 a2 s = .next t) : MemForm t := by
  cases e; exact issueOne_form semImul_form h

theorem execImulh_form {a0} {a1} {a2} {a3} {s t : State} (h : MemForm s)
    (e : execImulh a0 a1 a2 a3 s = .next t) : MemForm t := by
  cases e; exact issueOne_form semImulh_form h

theorem execImad_form {a0} {a1} {a2} {s t : State} (h : MemForm s)
    (e : execImad a0 a1 a2 s = .next t) : MemForm t := by
  cases e; exact issueOne_form semImad_form h

theorem execIadd64_form {a0} {a1} {a2} {a3} {s t : State} (h : MemForm s)
    (e : execIadd64 a0 a1 a2 a3 s = .next t) : MemForm t := by
  cases e; exact issueOne_form semIadd64_form h

theorem execImad64_form {a0} {a1} {a2} {a3} {s t : State} (h : MemForm s)
    (e : execImad64 a0 a1 a2 a3 s = .next t) : MemForm t := by
  cases e; exact issueOne_form semImad64_form h

theorem execImin_form {a0} {a1} {a2} {a3} {s t : State} (h : MemForm s)
    (e : execImin a0 a1 a2 a3 s = .next t) : MemForm t := by
  cases e; exact issueOne_form semImin_form h

theorem execImax_form {a0} {a1} {a2} {a3} {s t : State} (h : MemForm s)
    (e : execImax a0 a1 a2 a3 s = .next t) : MemForm t := by
  cases e; exact issueOne_form semImax_form h

theorem execIabsd_form {a0} {a1} {a2} {a3} {s t : State} (h : MemForm s)
    (e : execIabsd a0 a1 a2 a3 s = .next t) : MemForm t := by
  cases e; exact issueOne_form semIabsd_form h

theorem execLand_form {a0} {a1} {a2} {s t : State} (h : MemForm s)
    (e : execLand a0 a1 a2 s = .next t) : MemForm t := by
  cases e; exact issueOne_form semLand_form h

theorem execLor_form {a0} {a1} {a2} {s t : State} (h : MemForm s)
    (e : execLor a0 a1 a2 s = .next t) : MemForm t := by
  cases e; exact issueOne_form semLor_form h

theorem execLxor_form {a0} {a1} {a2} {s t : State} (h : MemForm s)
    (e : execLxor a0 a1 a2 s = .next t) : MemForm t := by
  cases e; exact issueOne_form semLxor_form h

theorem execLandn_form {a0} {a1} {a2} {s t : State} (h : MemForm s)
    (e : execLandn a0 a1 a2 s = .next t) : MemForm t := by
  cases e; exact issueOne_form semLandn_form h

theorem execShl_form {a0} {a1} {a2} {s t : State} (h : MemForm s)
    (e : execShl a0 a1 a2 s = .next t) : MemForm t := by
  cases e; exact issueOne_form semShl_form h

theorem execShr_form {a0} {a1} {a2} {a3} {s t : State} (h : MemForm s)
    (e : execShr a0 a1 a2 a3 s = .next t) : MemForm t := by
  cases e; exact issueOne_form semShr_form h

theorem execShf_form {a0} {a1} {a2} {a3} {s t : State} (h : MemForm s)
    (e : execShf a0 a1 a2 a3 s = .next t) : MemForm t := by
  cases e; exact issueOne_form semShf_form h

theorem execBfx_form {a0} {a1} {a2} {a3} {s t : State} (h : MemForm s)
    (e : execBfx a0 a1 a2 a3 s = .next t) : MemForm t := by
  cases e; exact issueOne_form semBfx_form h

theorem execBfi_form {a0} {a1} {a2} {s t : State} (h : MemForm s)
    (e : execBfi a0 a1 a2 s = .next t) : MemForm t := by
  cases e; exact issueOne_form semBfi_form h

theorem execClz_form {a0} {a1} {a2} {s t : State} (h : MemForm s)
    (e : execClz a0 a1 a2 s = .next t) : MemForm t := by
  cases e; exact issueOne_form semClz_form h

theorem execPopc_form {a0} {a1} {a2} {s t : State} (h : MemForm s)
    (e : execPopc a0 a1 a2 s = .next t) : MemForm t := by
  cases e; exact issueOne_form semPopc_form h

theorem execBrev_form {a0} {a1} {s t : State} (h : MemForm s)
    (e : execBrev a0 a1 s = .next t) : MemForm t := by
  cases e; exact issueOne_form semBrev_form h

theorem execBitil_form {a0} {a1} {a2} {a3} {s t : State} (h : MemForm s)
    (e : execBitil a0 a1 a2 a3 s = .next t) : MemForm t := by
  cases e; exact issueOne_form semBitil_form h

theorem execBitdl_form {a0} {a1} {a2} {s t : State} (h : MemForm s)
    (e : execBitdl a0 a1 a2 s = .next t) : MemForm t := by
  cases e; exact issueOne_form semBitdl_form h

theorem execIcmps_form {a0} {a1} {a2} {a3} {s t : State} (h : MemForm s)
    (e : execIcmps a0 a1 a2 a3 s = .next t) : MemForm t := by
  cases e; exact issueOne_form semIcmps_form h

theorem execIcmpn_form {a0} {a1} {a2} {a3} {s t : State} (h : MemForm s)
    (e : execIcmpn a0 a1 a2 a3 s = .next t) : MemForm t := by
  cases e; exact issueOne_form semIcmpn_form h

theorem execSel_form {a0} {a1} {a2} {a3} {s t : State} (h : MemForm s)
    (e : execSel a0 a1 a2 a3 s = .next t) : MemForm t := by
  cases e; exact issueOne_form semSel_form h

theorem execBytsel_form {a0} {a1} {a2} {a3} {s t : State} (h : MemForm s)
    (e : execBytsel a0 a1 a2 a3 s = .next t) : MemForm t := by
  cases e; exact issueOne_form semBytsel_form h

theorem execFadd_form {a0} {a1} {a2} {a3} {s t : State} (h : MemForm s)
    (e : execFadd a0 a1 a2 a3 s = .next t) : MemForm t := by
  cases e; exact issueOne_form semFadd_form h

theorem execFmul_form {a0} {a1} {a2} {a3} {s t : State} (h : MemForm s)
    (e : execFmul a0 a1 a2 a3 s = .next t) : MemForm t := by
  cases e; exact issueOne_form semFmul_form h

theorem execFfma_form {a0} {a1} {a2} {a3} {s t : State} (h : MemForm s)
    (e : execFfma a0 a1 a2 a3 s = .next t) : MemForm t := by
  cases e; exact issueOne_form semFfma_form h

theorem execFmin_form {a0} {a1} {a2} {s t : State} (h : MemForm s)
    (e : execFmin a0 a1 a2 s = .next t) : MemForm t := by
  cases e; exact issueOne_form semFmin_form h

theorem execFmax_form {a0} {a1} {a2} {s t : State} (h : MemForm s)
    (e : execFmax a0 a1 a2 s = .next t) : MemForm t := by
  cases e; exact issueOne_form semFmax_form h

theorem execFcmp_form {a0} {a1} {a2} {a3} {s t : State} (h : MemForm s)
    (e : execFcmp a0 a1 a2 a3 s = .next t) : MemForm t := by
  cases e; exact issueOne_form semFcmp_form h

theorem execFrnd_form {a0} {a1} {a2} {s t : State} (h : MemForm s)
    (e : execFrnd a0 a1 a2 s = .next t) : MemForm t := by
  cases e; exact issueOne_form semFrnd_form h

theorem execFclass_form {a0} {a1} {a2} {s t : State} (h : MemForm s)
    (e : execFclass a0 a1 a2 s = .next t) : MemForm t := by
  cases e; exact issueOne_form semFclass_form h

theorem execPadd2_form {a0} {a1} {a2} {a3} {a4} {s t : State} (h : MemForm s)
    (e : execPadd2 a0 a1 a2 a3 a4 s = .next t) : MemForm t := by
  cases e; exact issueOne_form semPadd2_form h

theorem execPmul2_form {a0} {a1} {a2} {a3} {a4} {s t : State} (h : MemForm s)
    (e : execPmul2 a0 a1 a2 a3 a4 s = .next t) : MemForm t := by
  cases e; exact issueOne_form semPmul2_form h

theorem execPfma2_form {a0} {a1} {a2} {a3} {a4} {s t : State} (h : MemForm s)
    (e : execPfma2 a0 a1 a2 a3 a4 s = .next t) : MemForm t := by
  cases e; exact issueOne_form semPfma2_form h

theorem execPdot2_form {a0} {a1} {a2} {a3} {a4} {s t : State} (h : MemForm s)
    (e : execPdot2 a0 a1 a2 a3 a4 s = .next t) : MemForm t := by
  cases e; exact issueOne_form semPdot2_form h

theorem execFdiv_form {a0} {a1} {a2} {a3} {s t : State} (h : MemForm s)
    (e : execFdiv a0 a1 a2 a3 s = .next t) : MemForm t := by
  cases e; exact issueOne_form semFdiv_form h

theorem execFrcp_form {a0} {a1} {a2} {s t : State} (h : MemForm s)
    (e : execFrcp a0 a1 a2 s = .next t) : MemForm t := by
  cases e; exact issueOne_form semFrcp_form h

theorem execFrsq_form {a0} {a1} {a2} {s t : State} (h : MemForm s)
    (e : execFrsq a0 a1 a2 s = .next t) : MemForm t := by
  cases e; exact issueOne_form semFrsq_form h

theorem execFsqrt_form {a0} {a1} {a2} {s t : State} (h : MemForm s)
    (e : execFsqrt a0 a1 a2 s = .next t) : MemForm t := by
  cases e; exact issueOne_form semFsqrt_form h

theorem execFexp2_form {a0} {a1} {a2} {s t : State} (h : MemForm s)
    (e : execFexp2 a0 a1 a2 s = .next t) : MemForm t := by
  cases e; exact issueOne_form semFexp2_form h

theorem execFlog2_form {a0} {a1} {a2} {s t : State} (h : MemForm s)
    (e : execFlog2 a0 a1 a2 s = .next t) : MemForm t := by
  cases e; exact issueOne_form semFlog2_form h

theorem execFsinpi_form {a0} {a1} {a2} {s t : State} (h : MemForm s)
    (e : execFsinpi a0 a1 a2 s = .next t) : MemForm t := by
  cases e; exact issueOne_form semFsinpi_form h

theorem execFcospi_form {a0} {a1} {a2} {s t : State} (h : MemForm s)
    (e : execFcospi a0 a1 a2 s = .next t) : MemForm t := by
  cases e; exact issueOne_form semFcospi_form h

theorem execCvtf_form {a0} {a1} {a2} {a3} {a4} {a5} {s t : State} (h : MemForm s)
    (e : execCvtf a0 a1 a2 a3 a4 a5 s = .next t) : MemForm t := by
  cases e; exact issueOne_form semCvtf_form h

theorem execCvti_form {a0} {a1} {a2} {a3} {a4} {s t : State} (h : MemForm s)
    (e : execCvti a0 a1 a2 a3 a4 s = .next t) : MemForm t := by
  cases e; exact issueOne_form semCvti_form h

theorem execCvtif_form {a0} {a1} {a2} {a3} {a4} {a5} {s t : State} (h : MemForm s)
    (e : execCvtif a0 a1 a2 a3 a4 a5 s = .next t) : MemForm t := by
  cases e; exact issueOne_form semCvtif_form h

theorem execCvtpk_form {a0} {a1} {a2} {a3} {s t : State} (h : MemForm s)
    (e : execCvtpk a0 a1 a2 a3 s = .next t) : MemForm t := by
  cases e; exact issueOne_form semCvtpk_form h

theorem execSreg_form {a0} {a1} {s t : State} (h : MemForm s)
    (e : execSreg a0 a1 s = .next t) : MemForm t := by
  cases e; exact issueOne_form semSreg_form h

theorem execShfl_form {a0} {a1} {a2} {a3} {s t : State} (h : MemForm s)
    (e : execShfl a0 a1 a2 a3 s = .next t) : MemForm t := by
  cases e; exact issueOne_form semShfl_form h

theorem execBallot_form {a0} {a1} {a2} {s t : State} (h : MemForm s)
    (e : execBallot a0 a1 a2 s = .next t) : MemForm t := by
  cases e; exact issueOne_form semBallot_form h

theorem execLred_form {a0} {a1} {a2} {s t : State} (h : MemForm s)
    (e : execLred a0 a1 a2 s = .next t) : MemForm t := by
  cases e; exact issueOne_form semLred_form h

theorem execLscan_form {a0} {a1} {a2} {s t : State} (h : MemForm s)
    (e : execLscan a0 a1 a2 s = .next t) : MemForm t := by
  cases e; exact issueOne_form semLscan_form h

theorem execLfirst_form {a0} {a1} {a2} {s t : State} (h : MemForm s)
    (e : execLfirst a0 a1 a2 s = .next t) : MemForm t := by
  cases e; exact issueOne_form semLfirst_form h

theorem execLmatch_form {a0} {a1} {a2} {s t : State} (h : MemForm s)
    (e : execLmatch a0 a1 a2 s = .next t) : MemForm t := by
  cases e; exact issueOne_form semLmatch_form h

theorem execFlred_form {a0} {a1} {a2} {s t : State} (h : MemForm s)
    (e : execFlred a0 a1 a2 s = .next t) : MemForm t := by
  cases e; exact issueOne_form semFlred_form h

theorem execBr_form {a0} {a1} {s t : State} (h : MemForm s)
    (e : execBr a0 a1 s = .next t) : MemForm t := by
  cases e; exact issueOne_form semBr_form h

theorem execBrv_form {a0} {s t : State} (h : MemForm s)
    (e : execBrv a0 s = .next t) : MemForm t := by
  cases e; exact issueOne_form semBrv_form h

theorem execSplit_form {a0} {s t : State} (h : MemForm s)
    (e : execSplit a0 s = .next t) : MemForm t := by
  cases e; exact issueOne_form semSplit_form h

theorem execJoin_form {s t : State} (h : MemForm s)
    (e : execJoin s = .next t) : MemForm t := by
  cases e; exact issueOne_form semJoin_form h

theorem execCall_form {a0} {s t : State} (h : MemForm s)
    (e : execCall a0 s = .next t) : MemForm t := by
  cases e; exact issueOne_form semCall_form h

theorem execCallv_form {a0} {s t : State} (h : MemForm s)
    (e : execCallv a0 s = .next t) : MemForm t := by
  cases e; exact issueOne_form semCallv_form h

theorem execRet_form {a0} {s t : State} (h : MemForm s)
    (e : execRet a0 s = .next t) : MemForm t := by
  cases e; exact issueOne_form semRet_form h

theorem execExit_form {s t : State} (h : MemForm s)
    (e : execExit s = .next t) : MemForm t := by
  cases e; exact issueOne_form semExit_form h

theorem execPset_form {a0} {a1} {s t : State} (h : MemForm s)
    (e : execPset a0 a1 s = .next t) : MemForm t := by
  cases e; exact issueOne_form semPset_form h

theorem execSleep_form {a0} {s t : State} (h : MemForm s)
    (e : execSleep a0 s = .next t) : MemForm t := by
  cases e; exact issueOne_form semSleep_form h

theorem execSleepT_form {a0} {s t : State} (h : MemForm s)
    (e : execSleepT a0 s = .next t) : MemForm t := by
  cases e; exact issueOne_form semSleepT_form h

theorem execSleepB_form {a0} {s t : State} (h : MemForm s)
    (e : execSleepB a0 s = .next t) : MemForm t := by
  cases e; exact issueOne_form semSleepB_form h

theorem execYield_form {s t : State} (h : MemForm s)
    (e : execYield s = .next t) : MemForm t := by
  cases e; exact issueOne_form semYield_form h

theorem execTrap_form {a0} {s t : State} (h : MemForm s)
    (e : execTrap a0 s = .next t) : MemForm t := by
  cases e; exact issueOne_form semTrap_form h

theorem execBkpt_form {s t : State} (h : MemForm s)
    (e : execBkpt s = .next t) : MemForm t := by
  cases e; exact issueOne_form semBkpt_form h

theorem execRett_form {s t : State} (h : MemForm s)
    (e : execRett s = .next t) : MemForm t := by
  cases e; exact issueOne_form semRett_form h

theorem execWaitc_form {a0} {a1} {s t : State} (h : MemForm s)
    (e : execWaitc a0 a1 s = .next t) : MemForm t := by
  cases e; exact issueOne_form semWaitc_form h

theorem execEmulateComplete_form {a0} {a1} {s t : State} (h : MemForm s)
    (e : execEmulateComplete a0 a1 s = .next t) : MemForm t := by
  cases e
  refine emulate_form ?_
  with_reducible assumption

theorem execUndefinedEncoding_form {s t : State} (h : MemForm s)
    (e : execUndefinedEncoding s = .next t) : MemForm t := by
  cases e
  refine trapBad_form ?_
  with_reducible assumption

theorem execControlWordIssue_form {s t : State} (h : MemForm s)
    (e : execControlWordIssue s = .next t) : MemForm t := by
  cases e
  refine trapEarly_form ?_
  with_reducible assumption

/-- The meaning of every instruction keeps memory in its canonical form. -/
theorem exec_form {i : Instr} {s t : State} (h : MemForm s) (e : exec i s = .next t) : MemForm t := by
  cases i with
  | nop => exact execNop_form h e
  | mov => exact execMov_form h e
  | sreg => exact execSreg_form h e
  | iadd => exact execIadd_form h e
  | isub => exact execIsub_form h e
  | imul => exact execImul_form h e
  | imulh => exact execImulh_form h e
  | imad => exact execImad_form h e
  | iadd64 => exact execIadd64_form h e
  | imad64 => exact execImad64_form h e
  | imin => exact execImin_form h e
  | imax => exact execImax_form h e
  | iabsd => exact execIabsd_form h e
  | land => exact execLand_form h e
  | lor => exact execLor_form h e
  | lxor => exact execLxor_form h e
  | landn => exact execLandn_form h e
  | shl => exact execShl_form h e
  | shr => exact execShr_form h e
  | shf => exact execShf_form h e
  | bfx => exact execBfx_form h e
  | bfi => exact execBfi_form h e
  | clz => exact execClz_form h e
  | popc => exact execPopc_form h e
  | brev => exact execBrev_form h e
  | bitil => exact execBitil_form h e
  | bitdl => exact execBitdl_form h e
  | icmps => exact execIcmps_form h e
  | icmpn => exact execIcmpn_form h e
  | sel => exact execSel_form h e
  | bytsel => exact execBytsel_form h e
  | shfl => exact execShfl_form h e
  | ballot => exact execBallot_form h e
  | lred => exact execLred_form h e
  | lscan => exact execLscan_form h e
  | lfirst => exact execLfirst_form h e
  | lmatch => exact execLmatch_form h e
  | flred => exact execFlred_form h e
  | br => exact execBr_form h e
  | brv => exact execBrv_form h e
  | split => exact execSplit_form h e
  | join => exact execJoin_form h e
  | call => exact execCall_form h e
  | callv => exact execCallv_form h e
  | ret => exact execRet_form h e
  | exit => exact execExit_form h e
  | pset => exact execPset_form h e
  | sleep => exact execSleep_form h e
  | sleepT => exact execSleepT_form h e
  | sleepB => exact execSleepB_form h e
  | yield => exact execYield_form h e
  | trap => exact execTrap_form h e
  | bkpt => exact execBkpt_form h e
  | rett => exact execRett_form h e
  | waitc => exact execWaitc_form h e
  | fadd => exact execFadd_form h e
  | fmul => exact execFmul_form h e
  | ffma => exact execFfma_form h e
  | fmin => exact execFmin_form h e
  | fmax => exact execFmax_form h e
  | fcmp => exact execFcmp_form h e
  | frnd => exact execFrnd_form h e
  | fclass => exact execFclass_form h e
  | padd2 => exact execPadd2_form h e
  | pmul2 => exact execPmul2_form h e
  | pfma2 => exact execPfma2_form h e
  | pdot2 => exact execPdot2_form h e
  | fdiv => exact execFdiv_form h e
  | frcp => exact execFrcp_form h e
  | frsq => exact execFrsq_form h e
  | fsqrt => exact execFsqrt_form h e
  | fexp2 => exact execFexp2_form h e
  | flog2 => exact execFlog2_form h e
  | fsinpi => exact execFsinpi_form h e
  | fcospi => exact execFcospi_form h e
  | cvtf => exact execCvtf_form h e
  | cvti => exact execCvti_form h e
  | cvtif => exact execCvtif_form h e
  | cvtpk => exact execCvtpk_form h e
  | ld => exact execLd_form h e
  | st => exact execSt_form h e
  | lds => exact execLds_form h e
  | sts => exact execSts_form h e
  | ldb => exact execLdb_form h e
  | stb => exact execStb_form h e
  | atom => exact execAtom_form h e
  | atoms => exact execAtoms_form h e
  | cas => exact execCas_form h e
  | cas128 => exact execCas128_form h e
  | aminv => exact execAminv_form h e
  | fence => exact execFence_form h e
  | cachePref => exact execCachePref_form h e
  | cacheFlush => exact execCacheFlush_form h e
  | cacheInv => exact execCacheInv_form h e
  | barInit => exact execBarInit_form h e
  | barArrive => exact execBarArrive_form h e
  | barWait => exact execBarWait_form h e
  | barArrivewait => exact execBarArrivewait_form h e
  | barInv => exact execBarInv_form h e
  | barQuery => exact execBarQuery_form h e
  | qpush => exact execQpush_form h e
  | qpop => exact execQpop_form h e
  | bkcfg => exact execBkcfg_form h e
  | tcfg => exact execTcfg_form h e
  | tld => exact execTld_form h e
  | tst => exact execTst_form h e
  | tmovv => exact execTmovv_form h e
  | mma => exact execMma_form h e
  | mzero => exact execMzero_form h e
  | mdrain => exact execMdrain_form h e
  | mhad => exact execMhad_form h e
  | msign => exact execMsign_form h e
  | mquant => exact execMquant_form h e
  | mbatch => exact execMbatch_form h e
  | ttrans => exact execTtrans_form h e
  | bnew => exact execBnew_form h e
  | bfree => exact execBfree_form h e
  | bstat => exact execBstat_form h e
  | cpy => exact execCpy_form h e
  | cpyo => exact execCpyo_form h e
  | cpylRead => exact execCpylRead_form h e
  | cpylWrite => exact execCpylWrite_form h e
  | lrecBase => exact execLrecBase_form h e
  | lrecScale => exact execLrecScale_form h e
  | lrecSeed => exact execLrecSeed_form h e
  | lrecChk => exact execLrecChk_form h e
  | thnew => exact execThnew_form h e
  | thfree => exact execThfree_form h e
  | thqry => exact execThqry_form h e
  | tacq => exact execTacq_form h e
  | trel => exact execTrel_form h e
  | tflush => exact execTflush_form h e
  | tsplit => exact execTsplit_form h e
  | rtrace => exact execRtrace_form h e
  | rany => exact execRany_form h e
  | rpin => exact execRpin_form h e
  | runpin => exact execRunpin_form h e
  | rhit => exact execRhit_form h e
  | rgenq => exact execRgenq_form h e
  | asbuild => exact execAsbuild_form h e
  | asrefit => exact execAsrefit_form h e
  | asrebal => exact execAsrebal_form h e
  | asimport => exact execAsimport_form h e
  | aspubl => exact execAspubl_form h e
  | asstat => exact execAsstat_form h e
  | asqual => exact execAsqual_form h e
  | asrecl => exact execAsrecl_form h e
  | feat => exact execFeat_form h e
  | dfeat => exact execDfeat_form h e
  | ckpt => exact execCkpt_form h e
  | mbpost => exact execMbpost_form h e
  | trapinfo => exact execTrapinfo_form h e
  | trcon => exact execTrcon_form h e
  | trcoff => exact execTrcoff_form h e
  | trcmark => exact execTrcmark_form h e
  | vPipeResultWrite => exact execVPipeResultWrite_form h e
  | sPipeResultWrite => exact execSPipeResultWrite_form h e
  | lPipeResultWrite => exact execLPipeResultWrite_form h e
  | storePerformed => exact execStorePerformed_form h e
  | fenceComplete => exact execFenceComplete_form h e
  | matrixExecute => exact execMatrixExecute_form h e
  | copyComplete => exact execCopyComplete_form h e
  | rayRecordWrite => exact execRayRecordWrite_form h e
  | builderDispatch => exact execBuilderDispatch_form h e
  | buildRequestComplete => exact execBuildRequestComplete_form h e
  | sleepWake => exact execSleepWake_form h e
  | promiseMiss => exact execPromiseMiss_form h e
  | checkpointCommit => exact execCheckpointCommit_form h e
  | checkpointTimer => exact execCheckpointTimer_form h e
  | emulateComplete => exact execEmulateComplete_form h e
  | translationWalk => exact execTranslationWalk_form h e
  | reqrd => exact execReqrd_form h e
  | reqwr => exact execReqwr_form h e
  | requestStart => exact execRequestStart_form h e
  | grant => exact execGrant_form h e
  | fwd => exact execFwd_form h e
  | data => exact execData_form h e
  | inv => exact execInv_form h e
  | invack => exact execInvack_form h e
  | recallMsg => exact execRecall_form h e
  | wbdata => exact execWbdata_form h e
  | backinv => exact execBackinv_form h e
  | nack => exact execNack_form h e
  | busyResend => exact execBusyResend_form h e
  | pageHomeMove => exact execPageHomeMove_form h e
  | mailboxArrival => exact execMailboxArrival_form h e
  | launchStart => exact execLaunchStart_form h e
  | preemptRequest => exact execPreemptRequest_form h e
  | safePoint => exact execSafePoint_form h e
  | teamRestore => exact execTeamRestore_form h e
  | sliceExpiry => exact execSliceExpiry_form h e
  | coreRetirement => exact execCoreRetirement_form h e
  | sliceRetirement => exact execSliceRetirement_form h e
  | pageRetirement => exact execPageRetirement_form h e
  | memoryError => exact execMemoryError_form h e
  | tlbinvPageRange => exact execTlbinvPageRange_form h e
  | tlbinvContext => exact execTlbinvContext_form h e
  | tlbinvTenant => exact execTlbinvTenant_form h e
  | tlbinvAll => exact execTlbinvAll_form h e
  | tlbinvComplete => exact execTlbinvComplete_form h e
  | invstatWrite => exact execInvstatWrite_form h e
  | fltrepRetry => exact execFltrepRetry_form h e
  | fltrepFail => exact execFltrepFail_form h e
  | writeWindowDescriptor => exact execWriteWindowDescriptor_form h e
  | writeMailboxEntry => exact execWriteMailboxEntry_form h e
  | writeContextRecord => exact execWriteContextRecord_form h e
  | endContext => exact execEndContext_form h e
  | giveClusterBank => exact execGiveClusterBank_form h e
  | attestationReport => exact execAttestationReport_form h e
  | setRetirementThreshold => exact execSetRetirementThreshold_form h e
  | requestComplete => exact execRequestComplete_form h e
  | mback => exact execMback_form h e
  | hstatRead => exact execHstatRead_form h e
  | rasstatRead => exact execRasstatRead_form h e
  | pairstatRead => exact execPairstatRead_form h e
  | registerWrite => exact execRegisterWrite_form h e
  | hostMailboxWrite => exact execHostMailboxWrite_form h e
  | functionLevelReset => exact execFunctionLevelReset_form h e
  | partReset => exact execPartReset_form h e
  | d3hotEntry => exact execD3hotEntry_form h e
  | d0Exit => exact execD0Exit_form h e
  | linkUp => exact execLinkUp_form h e
  | hello => exact execHello_form h e
  | attest => exact execAttest_form h e
  | align => exact execAlign_form h e
  | image => exact execImage_form h e
  | resume => exact execResume_form h e
  | tenure => exact execTenure_form h e
  | mbox => exact execMbox_form h e
  | credit => exact execCredit_form h e
  | qperr => exact execQperr_form h e
  | commit => exact execCommit_form h e
  | undock => exact execUndock_form h e
  | undone => exact execUndone_form h e
  | linkLoss => exact execLinkLoss_form h e
  | traceDrain => exact execTraceDrain_form h e
  | undefinedEncoding => exact execUndefinedEncoding_form h e
  | controlWordIssue => exact execControlWordIssue_form h e
  | flit => exact execFlit_form h e
  | unsupportedTlp => exact execUnsupportedTlp_form h e
  | queuePairMemoryRequest => exact execQueuePairMemoryRequest_form h e
  | queuePairReset => exact execQueuePairReset_form h e
  | powerStateChange => exact execPowerStateChange_form h e
  | correctedErrorWindow => exact execCorrectedErrorWindow_form h e
  | badreq => exact execBadreq_form h e

end Sys2Proof.Machine
end

