-- ==== Sys2Proof/Laws/Group.lean ====
section
/-! SUPPORT. Groups and slots after an update, what follows an effect where no rule of R26 applies, and the traps of one
instruction. -/
namespace Sys2Proof.Machine

open Sys2Proof

/-! ### Groups -/

theorem getGroup_setGroup_self (s : State) (g : Nat) (v : Group) : getGroup (setGroup s g v) g = v := by
  simp [getGroup, setGroup, mapGetD]

theorem getGroup_setGroup_ne (s : State) {g h : Nat} (v : Group) (e : h ≠ g) : getGroup (setGroup s g v) h = getGroup s h := by
  simp [getGroup, setGroup, mapGetD, mapGet?_mapSet_ne _ _ e]

theorem getGroup_modGroup_self (s : State) (g : Nat) (f : Group → Group) (h : (mapGet? s.groups g).isSome = true) :
    getGroup (modGroup s g f) g = f (getGroup s g) := by
  obtain ⟨v, hv⟩ := Option.isSome_iff_exists.mp h
  simp [getGroup, modGroup, mapGetD, mapGet?_mapMod_self, hv]

theorem getGroup_modGroup_ne (s : State) {g h : Nat} (f : Group → Group) (e : h ≠ g) :
    getGroup (modGroup s g f) h = getGroup s h := by
  simp [getGroup, modGroup, mapGetD, mapGet?_mapMod_ne _ _ e]

theorem isSome_modGroup (s : State) (g h : Nat) (f : Group → Group) :
    (mapGet? (modGroup s g f).groups h).isSome = (mapGet? s.groups h).isSome := by
  by_cases e : h = g
  · subst e; simp [modGroup, mapGet?_mapMod_self]
  · simp [modGroup, mapGet?_mapMod_ne _ _ e]

/-- A change of one group changes nothing else. -/
theorem onlyGroup_modGroup (s : State) (g : Nat) (f : Group → Group) : onlyGroup s (modGroup s g f) g :=
  ⟨rfl, fun _ e => getGroup_modGroup_ne s f e⟩

theorem onlyGroup_refl (s : State) (g : Nat) : onlyGroup s s g := ⟨rfl, fun _ _ => rfl⟩

theorem onlyGroup_trans {s t u : State} {g : Nat} (h : onlyGroup s t g) (k : onlyGroup t u g) : onlyGroup s u g := by
  refine ⟨?_, fun x e => (k.2 x e).trans (h.2 x e)⟩
  have h1 := h.1
  have k1 := k.1
  rw [← h1, ← k1]

/-! ### Slots -/

@[simp] theorem Group.slot_setSlot (g : Group) (sl : PSlot) (v : Slot) : (g.setSlot sl v).slot sl = v := by cases sl <;> rfl

@[simp] theorem Group.slot_setSlot_other (g : Group) (sl : PSlot) (v : Slot) :
    (g.setSlot sl v).slot (otherSlot sl) = g.slot (otherSlot sl) := by cases sl <;> rfl

@[simp] theorem otherSlot_otherSlot (sl : PSlot) : otherSlot (otherSlot sl) = sl := by cases sl <;> rfl

@[simp] theorem Group.slot_setSlot_of_other (g : Group) (sl : PSlot) (v : Slot) :
    (g.setSlot (otherSlot sl) v).slot sl = g.slot sl := by cases sl <;> rfl

theorem onlySlot_modSlot (s : State) (g : Nat) (sl : PSlot) (f : Slot → Slot) (h : (mapGet? s.groups g).isSome = true) :
    onlySlot s (modSlot s g sl f) g sl (f ((getGroup s g).slot sl)) :=
  ⟨onlyGroup_modGroup s g _, getGroup_modGroup_self s g _ h⟩

/-! ### After the effect -/

/-- Where no rule of R26 applies, the rules change nothing. -/
theorem applyRules_settled {s : State} {g : Nat} {ss : Option PSlot} (h : settled s g) : applyRules s g ss = s := by
  have h' : ruleStep (stackLook s g) (getGroup s g) = none := h
  have e1 : ∀ n, rulesTouch (stackLook s g) n (getGroup s g) = [] := by
    intro n; cases n with
    | zero => rfl
    | succ n => simp [rulesTouch, h']
  have e2 : ∀ n, applyRulesN ss n s g = s := by
    intro n; cases n with
    | zero => rfl
    | succ n => simp [applyRulesN, h']
  simp [applyRules, e1, e2, stackFill, stackFail, firstSome]

/-- Where no rule of R26 applies and a path is left, nothing follows the effect. -/
theorem afterChain_settled {s : State} {g : Nat} {sl : PSlot} (h : settled s g) (hd : groupDone (getGroup s g) = false) :
    afterChain s g sl = s := by
  simp [afterChain, applyRules_settled h, hd]

theorem soleRan_settled {s : State} {gid : Nat} {sl : PSlot} {m : Sem} (h : settled (soleEff s gid sl m) gid)
    (hd : groupDone (getGroup (soleEff s gid sl m) gid) = false) : soleRan s gid sl m = nextCur (soleEff s gid sl m) gid sl := by
  simp [soleRan, afterChain_settled h hd]

/-! ### Traps -/

/-- An instruction with a cause traps: it has no effect, and the trap is taken in the state in which its cause is found. -/
theorem issueOne_of_cause {s s' : State} {gid w res : Nat} {sl : PSlot} {m : Sem} {c : Cause}
    (h : soleCause s gid sl m = some (s', w, res, c)) : issueOne m s = chainTrap s' gid sl w (slotNow s gid sl).pc res c := by
  have hc : s.cur = some (gid, sl) := by
    by_cases e : s.cur = some (gid, sl)
    · exact e
    · simp [soleCause, e] at h
  have hr : slotReady s gid sl = true := by
    cases e : slotReady s gid sl
    · simp [soleCause, e] at h
    · rfl
  unfold issueOne
  rw [hc]
  change (match issueChain s gid sl (soleCh s gid sl m) with
    | some s' => (s', true)
    | none => _).1 = _
  rw [issueChain_sole_eq]
  simp only [soleCause, hc, hr, ne_eq, not_true_eq_false, Bool.true_eq_false, or_self, if_false] at h
  simp only [hr, Bool.not_true, Bool.false_eq_true, if_false]
  cases he : earlyCause (landed s gid) gid (soleCh s gid sl m) with
  | some e =>
    obtain ⟨w', c'⟩ := e
    rw [he] at h
    simp only [Option.some.injEq, Prod.mk.injEq] at h
    obtain ⟨rfl, rfl, rfl, rfl⟩ := h
    rfl
  | none =>
    rw [he] at h
    simp only at h ⊢
    split at h
    · cases h
    · rename_i hb
      rw [if_neg hb]
      cases hl : lateCause (soleFilled s gid sl m) gid (chainPn (slotNow s gid sl) (soleCh s gid sl m)) [(soleCtx s gid sl m, m)] with
      | none => rw [hl] at h; cases h
      | some e =>
        obtain ⟨w', c'⟩ := e
        rw [hl] at h
        simp only [Option.map_some, Option.some.injEq, Prod.mk.injEq] at h
        obtain ⟨rfl, rfl, rfl, rfl⟩ := h
        rfl

end Sys2Proof.Machine
end

