-- ==== Sys2Proof/Laws/PerInstr.lean ====
section
/-! SUPPORT. Decoding the words of an instruction gives it back, one lemma per constructor. -/
namespace Sys2Proof.Laws.RoundTrip

set_option Elab.async false

open Sys2Proof Sys2Proof.Machine

/-- A well-formed instruction that has words is what its words decode to. -/
def Statement (i : Instr) : Prop := i.wf = true → i.isWord = true → decodeWords (encode i) = .ok i

theorem decM_eq {α : Type} {m : Option α} {k : α → Except DecErr Instr} {v : α} (h : m = some v) : decM m k = k v := by
  subst h; rfl

theorem decF_eq {α : Type} {m : Option α} {k : α → Except DecErr Instr} {v : α} (h : m = some v) : decF m k = k v := by
  subst h; rfl

theorem decM_then {α : Type} {m : Option α} {k : α → Except DecErr Instr} {v : α} {r : Except DecErr Instr} (h : m = some v)
    (e : k v = r) : decM m k = r := (decM_eq h).trans e

theorem decF_then {α : Type} {m : Option α} {k : α → Except DecErr Instr} {v : α} {r : Except DecErr Instr} (h : m = some v)
    (e : k v = r) : decF m k = r := (decF_eq h).trans e

theorem decAB_eq {μ : Type} {m : Option μ} {d : Option Nat} {a b : Option Src} {k : Nat → Src → Src → μ → Instr} {m' : μ} {d' : Nat}
    {a' b' : Src} (hm : m = some m') (hd : d = some d') (ha : a = some a') (hb : b = some b') :
    decAB m d a b k = .ok (k d' a' b' m') := by
  subst hm hd ha hb; rfl

theorem decA1_eq {μ : Type} {m : Option μ} {d : Option Nat} {a : Option Src} {k : Nat → Src → μ → Instr} {m' : μ} {d' : Nat}
    {a' : Src} (hm : m = some m') (hd : d = some d') (ha : a = some a') : decA1 m d a 0 k = .ok (k d' a' m') := by
  subst hm hd ha; rfl

theorem numIf_eq {c : Bool} {x : Nat} (h : c = true) : numIf c x = some x := by subst h; rfl

section
variable {maj d b m : Nat} {a a' : Src} {i : Instr} (hd : d < 128) (ha : Wf.s32 a = true) (hm : m < 8)
include hd ha hm

theorem intAB (h : maj < 0x28) (hA : aIsSource maj = true) (hB : bIsSource maj = true) (ha' : Wf.s32 a' = true)
    (hs : Wf.litSame a a' = true)
    (k : ∀ l, a.litIs l → a'.litIs l → decodeInt maj d a.code a'.code m l = .ok i) : decodeWords (eAB maj d a a' m) = .ok i := by
  obtain ⟨l, h1, h2, e⟩ := decodeWords_eAB (show maj < 0x50 by omega) hA hB hd ha ha' hs hm
  exact e.trans ((decodeInstr_int hd (Src.code_lt ha) (Src.code_lt ha') hm h).trans (k l h1 h2))

theorem floatAB (h : 0x38 ≤ maj) (h' : maj < 0x50) (hA : aIsSource maj = true) (hB : bIsSource maj = true) (ha' : Wf.s32 a' = true)
    (hs : Wf.litSame a a' = true)
    (k : ∀ l, a.litIs l → a'.litIs l → decodeFloat maj d a.code a'.code m l = .ok i) : decodeWords (eAB maj d a a' m) = .ok i := by
  obtain ⟨l, h1, h2, e⟩ := decodeWords_eAB h' hA hB hd ha ha' hs hm
  exact e.trans ((decodeInstr_float hd (Src.code_lt ha) (Src.code_lt ha') hm h h').trans (k l h1 h2))

theorem intA (h : maj < 0x28) (hA : aIsSource maj = true)
    (k : ∀ l, a.litIs l → decodeInt maj d a.code 0 m l = .ok i) : decodeWords (eA1 maj d a m) = .ok i := by
  obtain ⟨l, h1, e⟩ := decodeWords_eA (b := 0) (show maj < 0x50 by omega) hA (.inr (by decide)) hd ha (by decide) hm
  exact e.trans ((decodeInstr_int hd (Src.code_lt ha) (by decide) hm h).trans (k l h1))

theorem floatA (h : 0x38 ≤ maj) (h' : maj < 0x50) (hA : aIsSource maj = true) (hB : bIsSource maj = false ∨ b ≠ 120) (hb : b < 128)
    (k : ∀ l, a.litIs l → decodeFloat maj d a.code b m l = .ok i) :
    decodeWords (withLit (encA maj d a.code b m) a.litOf) = .ok i := by
  obtain ⟨l, h1, e⟩ := decodeWords_eA h' hA hB hd ha hb hm
  exact e.trans ((decodeInstr_float hd (Src.code_lt ha) hb hm h h').trans (k l h1))
end

theorem sleepA {a : Src} {m : Nat} {i : Instr} (ha : Wf.s32 a = true) (hm : m < 8)
    (k : ∀ l, a.litIs l → decodeControl 0x31 0 a.code 0 m (a.code * 2 ^ 10 + 0 * 2 ^ 3 + m) l = .ok i) :
    decodeWords (eA1 0x31 0 a m) = .ok i := by
  obtain ⟨l, h1, e⟩ := decodeWords_eA (maj := 0x31) (d := 0) (b := 0) (by decide) (by decide) (.inr (by decide)) (by decide) ha
    (by decide) hm
  exact e.trans ((decodeInstr_control (by decide) (Src.code_lt ha) (by decide) hm (by decide) (by decide)).trans (k l h1))

theorem controlA {maj d a b m : Nat} {i : Instr} (h : 0x28 ≤ maj) (h' : maj < 0x38) (hd : d < 128) (ha : a < 128) (hb : b < 128)
    (hm : m < 8) (hA : aIsSource maj = false) (hB : bIsSource maj = false)
    (k : decodeControl maj d a b m (a * 2 ^ 10 + b * 2 ^ 3 + m) 0 = .ok i) : decodeWords [encA maj d a b m] = .ok i := by
  have hM := (encA_fields (show maj < 128 by omega) hd ha hb hm).1
  exact (decodeWords_one (consumesLit_plain (by omega) (hM.symm ▸ hA) (hM.symm ▸ hB))).trans
    ((decodeInstr_control hd ha hb hm h h').trans k)

theorem branchB {maj v o : Nat} {i : Instr} (h : 0x28 ≤ maj) (h' : maj < 0x38) (hv : v < 128) (ho : o < 131072)
    (hA : aIsSource maj = false) (hB : bIsSource maj = false)
    (k : decodeControl maj v (o / 1024) (o / 8 % 128) (o % 8) o 0 = .ok i) : decodeWords [encB maj v o] = .ok i := by
  have hM := (encB_fields (show maj < 128 by omega) hv ho).1
  exact (decodeWords_one (consumesLit_plain (by omega) (hM.symm ▸ hA) (hM.symm ▸ hB))).trans
    ((decodeInstr_branch h h' hv ho).trans k)

theorem sext_off {o : Int} (h : Wf.off17 o = true) : sext (wrapN o 17) 17 = o := by
  simp only [Wf.off17, Bool.and_eq_true, decide_eq_true_eq] at h
  exact sext_wrapN 17 (by decide) (by simp; omega) (by simp; omega)

theorem memM {maj d a z xm : Nat} {f off : Option Nat} {i : Instr} (h : 0x50 ≤ maj) (h' : maj < 0x5B) (hd : d < 128) (ha : a < 128)
    (hf : Wf.fl f = true) (hz : z < 8) (hm : xm < 4)
    (k : ∀ xo l, offOf xo l = off → decodeMem maj d a (flagCode f) z xo xm l = .ok i) :
    decodeWords (eM maj d a f z off xm) = .ok i :=
  (decodeWords_eM h h' hd ha hf hz hm).trans (k _ _ (by cases off <;> rfl))

theorem lt_of_pairIf {z : ASz} {d : Nat} (h : Wf.rIf (z == .b64) d = true) : regOf d (if z = .b64 then 2 else 1) = some d := by
  cases z
  · exact regOf_r1 h
  · exact regOf_rk h

theorem regOf_mod {k d : Nat} (h : Wf.rk k d = true) : regOf d k = some d := regOf_rk h

theorem is_F {maj fn d a f m l : Nat} (h : 0x5B ≤ maj) (h' : maj < 128) (hn : fn < 16) (hd : d < 128) (ha : a < 128) (hf : f < 16)
    (hm : m < 4) (hl : ((maj == 0x5D && fn == 0) || maj == 0x5E || maj == 0x60 || maj == 0x61 || maj == 0x62 ||
      maj == 0x65 || maj == 0x6F || maj == 0x70 || maj == 0x71 || (maj == 0x76 && fn == 2) || (maj == 0x7D && fn == 2)) = true) :
    decodeWords [encF maj fn d a f m, l] = decodeInstr (encF maj fn d a f m) l := decodeWords_Fl h h' hn hd ha hf hm hl

section
variable {maj fn d a f m : Nat} {i : Instr} (hn : fn < 16) (hd : d < 128) (ha : a < 128) (hf : f < 16) (hm : m < 4)
include hn hd ha hf hm

theorem syncF (h : 0x5B ≤ maj) (h' : maj < 0x60) (hl : ((maj == 0x5D && fn == 0) || maj == 0x5E) = false)
    (k : decodeSync maj fn d a f m 0 = .ok i) : decodeWords [encF maj fn d a f m] = .ok i := by
  refine (decodeWords_F h (by omega) hn hd ha hf hm ?_).trans ((decodeInstr_sync hn hd ha hf hm h h').trans k)
  simp only [hl, Bool.false_or]; simp; omega

theorem syncFl {l : Nat} (h : 0x5B ≤ maj) (h' : maj < 0x60) (hl : ((maj == 0x5D && fn == 0) || maj == 0x5E) = true)
    (k : decodeSync maj fn d a f m l = .ok i) : decodeWords [encF maj fn d a f m, l] = .ok i := by
  refine (decodeWords_Fl h (by omega) hn hd ha hf hm ?_).trans ((decodeInstr_sync hn hd ha hf hm h h').trans k)
  simp only [hl, Bool.true_or]

theorem copyF (h : 0x6C ≤ maj) (h' : maj < 0x77)
    (hl : (maj == 0x6F || maj == 0x70 || maj == 0x71 || (maj == 0x76 && fn == 2)) = false)
    (k : decodeCopy maj fn d a f m 0 = .ok i) : decodeWords [encF maj fn d a f m] = .ok i := by
  refine (decodeWords_F (by omega) (by omega) hn hd ha hf hm ?_).trans ((decodeInstr_copy hn hd ha hf hm h h').trans k)
  simp at hl ⊢; omega

theorem copyFl {l : Nat} (h : 0x6C ≤ maj) (h' : maj < 0x77)
    (hl : (maj == 0x6F || maj == 0x70 || maj == 0x71 || (maj == 0x76 && fn == 2)) = true)
    (k : decodeCopy maj fn d a f m l = .ok i) : decodeWords [encF maj fn d a f m, l] = .ok i := by
  refine (decodeWords_Fl (by omega) (by omega) hn hd ha hf hm ?_).trans ((decodeInstr_copy hn hd ha hf hm h h').trans k)
  simp at hl ⊢; omega

theorem sysF (h : 0x77 ≤ maj) (h' : maj < 128) (hl : (maj == 0x7D && fn == 2) = false)
    (k : decodeSys maj fn d a f m 0 = .ok i) : decodeWords [encF maj fn d a f m] = .ok i := by
  refine (decodeWords_F (by omega) h' hn hd ha hf hm ?_).trans ((decodeInstr_sys hn hd ha hf hm h h').trans k)
  simp at hl ⊢; omega

theorem sysFl {l : Nat} (h : 0x77 ≤ maj) (h' : maj < 128) (hl : (maj == 0x7D && fn == 2) = true)
    (k : decodeSys maj fn d a f m l = .ok i) : decodeWords [encF maj fn d a f m, l] = .ok i := by
  refine (decodeWords_Fl (by omega) h' hn hd ha hf hm ?_).trans ((decodeInstr_sys hn hd ha hf hm h h').trans k)
  simp at hl ⊢; omega
end

section
variable {maj p q s v k : Nat} {i : Instr} (h : 0x60 ≤ maj) (h' : maj < 0x6C) (hp : p < 8) (hq : q < 8) (hs : s < 8)
  (hv : v < 128) (hk : k < 256)
include h h' hp hq hs hv hk

theorem matT (hl : (maj == 0x60 || maj == 0x61 || maj == 0x62 || maj == 0x65) = false)
    (e : decodeMatrix maj p q s v k 0 = .ok i) : decodeWords [encT maj p q s v k] = .ok i :=
  (decodeWords_one ((consumesLit_T h h' hp hq hs hv hk).trans hl)).trans ((decodeInstr_matrix h h' hp hq hs hv hk).trans e)

theorem matTl {l : Nat} (hl : (maj == 0x60 || maj == 0x61 || maj == 0x62 || maj == 0x65) = true)
    (e : decodeMatrix maj p q s v k l = .ok i) : decodeWords [encT maj p q s v k, l] = .ok i :=
  (decodeWords_lit ((consumesLit_T h h' hp hq hs hv hk).trans hl)).trans ((decodeInstr_matrix h h' hp hq hs hv hk).trans e)
end

theorem iadd {d} {a} {b} {m} : Statement (.iadd d a b m) := by
  intro h _
  simp only [Instr.wf, Bool.and_eq_true] at h
  obtain ⟨⟨⟨h0, h1⟩, h2⟩, h3⟩ := h
  refine intAB (lt_of_r1 h0) h1 (by cases m <;> decide) (by decide) (by decide) (by decide) h2 h3 fun l g1 g2 => ?_
  exact decAB_eq (by cases m <;> rfl) (regOf_r1 h0) (srcOf_code h1 g1) (srcOf_code h2 g2)

theorem isub {d} {a} {b} {m} : Statement (.isub d a b m) := by
  intro h _
  simp only [Instr.wf, Bool.and_eq_true] at h
  obtain ⟨⟨⟨h0, h1⟩, h2⟩, h3⟩ := h
  refine intAB (lt_of_r1 h0) h1 (by cases m <;> decide) (by decide) (by decide) (by decide) h2 h3 fun l g1 g2 => ?_
  exact decAB_eq (by cases m <;> rfl) (regOf_r1 h0) (srcOf_code h1 g1) (srcOf_code h2 g2)

theorem imul {d} {a} {b} : Statement (.imul d a b) := by
  intro h _
  simp only [Instr.wf, Bool.and_eq_true] at h
  obtain ⟨⟨⟨h0, h1⟩, h2⟩, h3⟩ := h
  refine intAB (lt_of_r1 h0) h1 (by decide) (by decide) (by decide) (by decide) h2 h3 fun l g1 g2 => ?_
  exact decAB_eq (by rfl) (regOf_r1 h0) (srcOf_code h1 g1) (srcOf_code h2 g2)

theorem imulh {d} {a} {b} {m} : Statement (.imulh d a b m) := by
  intro h _
  simp only [Instr.wf, Bool.and_eq_true] at h
  obtain ⟨⟨⟨h0, h1⟩, h2⟩, h3⟩ := h
  refine intAB (lt_of_r1 h0) h1 (by cases m <;> decide) (by decide) (by decide) (by decide) h2 h3 fun l g1 g2 => ?_
  exact decAB_eq (by cases m <;> rfl) (regOf_r1 h0) (srcOf_code h1 g1) (srcOf_code h2 g2)

theorem imad {d} {a} {b} : Statement (.imad d a b) := by
  intro h _
  simp only [Instr.wf, Bool.and_eq_true] at h
  obtain ⟨⟨⟨h0, h1⟩, h2⟩, h3⟩ := h
  refine intAB (lt_of_r1 h0) h1 (by decide) (by decide) (by decide) (by decide) h2 h3 fun l g1 g2 => ?_
  exact decAB_eq (by rfl) (regOf_r1 h0) (srcOf_code h1 g1) (srcOf_code h2 g2)

theorem imin {d} {a} {b} {m} : Statement (.imin d a b m) := by
  intro h _
  simp only [Instr.wf, Bool.and_eq_true] at h
  obtain ⟨⟨⟨h0, h1⟩, h2⟩, h3⟩ := h
  refine intAB (lt_of_r1 h0) h1 (by cases m <;> decide) (by decide) (by decide) (by decide) h2 h3 fun l g1 g2 => ?_
  exact decAB_eq (by cases m <;> rfl) (regOf_r1 h0) (srcOf_code h1 g1) (srcOf_code h2 g2)

theorem imax {d} {a} {b} {m} : Statement (.imax d a b m) := by
  intro h _
  simp only [Instr.wf, Bool.and_eq_true] at h
  obtain ⟨⟨⟨h0, h1⟩, h2⟩, h3⟩ := h
  refine intAB (lt_of_r1 h0) h1 (by cases m <;> decide) (by decide) (by decide) (by decide) h2 h3 fun l g1 g2 => ?_
  exact decAB_eq (by cases m <;> rfl) (regOf_r1 h0) (srcOf_code h1 g1) (srcOf_code h2 g2)

theorem iabsd {d} {a} {b} {m} : Statement (.iabsd d a b m) := by
  intro h _
  simp only [Instr.wf, Bool.and_eq_true] at h
  obtain ⟨⟨⟨h0, h1⟩, h2⟩, h3⟩ := h
  refine intAB (lt_of_r1 h0) h1 (by cases m <;> decide) (by decide) (by decide) (by decide) h2 h3 fun l g1 g2 => ?_
  exact decAB_eq (by cases m <;> rfl) (regOf_r1 h0) (srcOf_code h1 g1) (srcOf_code h2 g2)

theorem land {d} {a} {b} : Statement (.land d a b) := by
  intro h _
  simp only [Instr.wf, Bool.and_eq_true] at h
  obtain ⟨⟨⟨h0, h1⟩, h2⟩, h3⟩ := h
  refine intAB (lt_of_r1 h0) h1 (by decide) (by decide) (by decide) (by decide) h2 h3 fun l g1 g2 => ?_
  exact decAB_eq (by rfl) (regOf_r1 h0) (srcOf_code h1 g1) (srcOf_code h2 g2)

theorem lor {d} {a} {b} : Statement (.lor d a b) := by
  intro h _
  simp only [Instr.wf, Bool.and_eq_true] at h
  obtain ⟨⟨⟨h0, h1⟩, h2⟩, h3⟩ := h
  refine intAB (lt_of_r1 h0) h1 (by decide) (by decide) (by decide) (by decide) h2 h3 fun l g1 g2 => ?_
  exact decAB_eq (by rfl) (regOf_r1 h0) (srcOf_code h1 g1) (srcOf_code h2 g2)

theorem lxor {d} {a} {b} : Statement (.lxor d a b) := by
  intro h _
  simp only [Instr.wf, Bool.and_eq_true] at h
  obtain ⟨⟨⟨h0, h1⟩, h2⟩, h3⟩ := h
  refine intAB (lt_of_r1 h0) h1 (by decide) (by decide) (by decide) (by decide) h2 h3 fun l g1 g2 => ?_
  exact decAB_eq (by rfl) (regOf_r1 h0) (srcOf_code h1 g1) (srcOf_code h2 g2)

theorem landn {d} {a} {b} : Statement (.landn d a b) := by
  intro h _
  simp only [Instr.wf, Bool.and_eq_true] at h
  obtain ⟨⟨⟨h0, h1⟩, h2⟩, h3⟩ := h
  refine intAB (lt_of_r1 h0) h1 (by decide) (by decide) (by decide) (by decide) h2 h3 fun l g1 g2 => ?_
  exact decAB_eq (by rfl) (regOf_r1 h0) (srcOf_code h1 g1) (srcOf_code h2 g2)

theorem shl {d} {a} {b} : Statement (.shl d a b) := by
  intro h _
  simp only [Instr.wf, Bool.and_eq_true] at h
  obtain ⟨⟨⟨h0, h1⟩, h2⟩, h3⟩ := h
  refine intAB (lt_of_r1 h0) h1 (by decide) (by decide) (by decide) (by decide) h2 h3 fun l g1 g2 => ?_
  exact decAB_eq (by rfl) (regOf_r1 h0) (srcOf_code h1 g1) (srcOf_code h2 g2)

theorem shr {d} {a} {b} {m} : Statement (.shr d a b m) := by
  intro h _
  simp only [Instr.wf, Bool.and_eq_true] at h
  obtain ⟨⟨⟨h0, h1⟩, h2⟩, h3⟩ := h
  refine intAB (lt_of_r1 h0) h1 (by cases m <;> decide) (by decide) (by decide) (by decide) h2 h3 fun l g1 g2 => ?_
  exact decAB_eq (by cases m <;> rfl) (regOf_r1 h0) (srcOf_code h1 g1) (srcOf_code h2 g2)

theorem bfx {d} {a} {b} {m} : Statement (.bfx d a b m) := by
  intro h _
  simp only [Instr.wf, Bool.and_eq_true] at h
  obtain ⟨⟨⟨h0, h1⟩, h2⟩, h3⟩ := h
  refine intAB (lt_of_r1 h0) h1 (by cases m <;> decide) (by decide) (by decide) (by decide) h2 h3 fun l g1 g2 => ?_
  exact decAB_eq (by cases m <;> rfl) (regOf_r1 h0) (srcOf_code h1 g1) (srcOf_code h2 g2)

theorem bfi {d} {a} {b} : Statement (.bfi d a b) := by
  intro h _
  simp only [Instr.wf, Bool.and_eq_true] at h
  obtain ⟨⟨⟨h0, h1⟩, h2⟩, h3⟩ := h
  refine intAB (lt_of_r1 h0) h1 (by decide) (by decide) (by decide) (by decide) h2 h3 fun l g1 g2 => ?_
  exact decAB_eq (by rfl) (regOf_r1 h0) (srcOf_code h1 g1) (srcOf_code h2 g2)

theorem bitil {d} {a} {b} {m} : Statement (.bitil d a b m) := by
  intro h _
  simp only [Instr.wf, Bool.and_eq_true] at h
  obtain ⟨⟨⟨h0, h1⟩, h2⟩, h3⟩ := h
  refine intAB (lt_of_r1 h0) h1 (by cases m <;> decide) (by decide) (by decide) (by decide) h2 h3 fun l g1 g2 => ?_
  exact decAB_eq (by cases m <;> rfl) (regOf_r1 h0) (srcOf_code h1 g1) (srcOf_code h2 g2)

theorem icmps {d} {a} {b} {m} : Statement (.icmps d a b m) := by
  intro h _
  simp only [Instr.wf, Bool.and_eq_true] at h
  obtain ⟨⟨⟨h0, h1⟩, h2⟩, h3⟩ := h
  refine intAB (lt_of_r1 h0) h1 (by cases m <;> decide) (by decide) (by decide) (by decide) h2 h3 fun l g1 g2 => ?_
  exact decAB_eq (by cases m <;> rfl) (regOf_r1 h0) (srcOf_code h1 g1) (srcOf_code h2 g2)

theorem icmpn {d} {a} {b} {m} : Statement (.icmpn d a b m) := by
  intro h _
  simp only [Instr.wf, Bool.and_eq_true] at h
  obtain ⟨⟨⟨h0, h1⟩, h2⟩, h3⟩ := h
  refine intAB (lt_of_r1 h0) h1 (by cases m <;> decide) (by decide) (by decide) (by decide) h2 h3 fun l g1 g2 => ?_
  exact decAB_eq (by cases m <;> rfl) (regOf_r1 h0) (srcOf_code h1 g1) (srcOf_code h2 g2)

theorem sel {d} {a} {b} {w} : Statement (.sel d a b w) := by
  intro h _
  simp only [Instr.wf, Bool.and_eq_true] at h
  obtain ⟨⟨⟨h0, h1⟩, h2⟩, h3⟩ := h
  refine intAB (lt_of_r1 h0) h1 (by cases w <;> decide) (by decide) (by decide) (by decide) h2 h3 fun l g1 g2 => ?_
  exact decAB_eq (by cases w <;> rfl) (regOf_r1 h0) (srcOf_code h1 g1) (srcOf_code h2 g2)

theorem bytsel {d} {a} {b} {w} : Statement (.bytsel d a b w) := by
  intro h _
  simp only [Instr.wf, Bool.and_eq_true] at h
  obtain ⟨⟨⟨h0, h1⟩, h2⟩, h3⟩ := h
  refine intAB (lt_of_r1 h0) h1 (by cases w <;> decide) (by decide) (by decide) (by decide) h2 h3 fun l g1 g2 => ?_
  exact decAB_eq (by cases w <;> rfl) (regOf_r1 h0) (srcOf_code h1 g1) (srcOf_code h2 g2)

theorem shfl {d} {a} {b} {m} : Statement (.shfl d a b m) := by
  intro h _
  simp only [Instr.wf, Bool.and_eq_true] at h
  obtain ⟨⟨⟨h0, h1⟩, h2⟩, h3⟩ := h
  refine intAB (lt_of_r1 h0) h1 (by cases m <;> decide) (by decide) (by decide) (by decide) h2 h3 fun l g1 g2 => ?_
  exact decAB_eq (by cases m <;> rfl) (regOf_r1 h0) (srcOf_code h1 g1) (srcOf_code h2 g2)

theorem imad64 {d} {a} {b} {m} : Statement (.imad64 d a b m) := by
  intro h _
  simp only [Instr.wf, Bool.and_eq_true] at h
  obtain ⟨⟨⟨h0, h1⟩, h2⟩, h3⟩ := h
  refine intAB (lt_of_rk h0) h1 (by cases m <;> decide) (by decide) (by decide) (by decide) h2 h3 fun l g1 g2 => ?_
  exact decAB_eq (by cases m <;> rfl) (regOf_rk h0) (srcOf_code h1 g1) (srcOf_code h2 g2)

theorem shf {d} {a} {b} {m} : Statement (.shf d a b m) := by
  intro h _
  simp only [Instr.wf, Bool.and_eq_true] at h
  obtain ⟨⟨⟨h0, h1⟩, h2⟩, h3⟩ := h
  refine intAB (lt_of_r1 h0) (s32_of_s64 h1) (by cases m <;> decide) (by decide) (by decide) (by decide) h2 h3 fun l g1 g2 => ?_
  exact decAB_eq (by cases m <;> rfl) (regOf_r1 h0) (src64Of_code h1 g1) (srcOf_code h2 g2)

theorem fadd {d} {a} {b} {r} : Statement (.fadd d a b r) := by
  intro h _
  simp only [Instr.wf, Bool.and_eq_true] at h
  obtain ⟨⟨⟨h0, h1⟩, h2⟩, h3⟩ := h
  refine floatAB (lt_of_r1 h0) h1 (by cases r <;> decide) (by decide) (by decide) (by decide) (by decide) h2 h3 fun l g1 g2 => ?_
  exact decAB_eq (by cases r <;> rfl) (regOf_r1 h0) (srcOf_code h1 g1) (srcOf_code h2 g2)

theorem fmul {d} {a} {b} {r} : Statement (.fmul d a b r) := by
  intro h _
  simp only [Instr.wf, Bool.and_eq_true] at h
  obtain ⟨⟨⟨h0, h1⟩, h2⟩, h3⟩ := h
  refine floatAB (lt_of_r1 h0) h1 (by cases r <;> decide) (by decide) (by decide) (by decide) (by decide) h2 h3 fun l g1 g2 => ?_
  exact decAB_eq (by cases r <;> rfl) (regOf_r1 h0) (srcOf_code h1 g1) (srcOf_code h2 g2)

theorem ffma {d} {a} {b} {r} : Statement (.ffma d a b r) := by
  intro h _
  simp only [Instr.wf, Bool.and_eq_true] at h
  obtain ⟨⟨⟨h0, h1⟩, h2⟩, h3⟩ := h
  refine floatAB (lt_of_r1 h0) h1 (by cases r <;> decide) (by decide) (by decide) (by decide) (by decide) h2 h3 fun l g1 g2 => ?_
  exact decAB_eq (by cases r <;> rfl) (regOf_r1 h0) (srcOf_code h1 g1) (srcOf_code h2 g2)

theorem fmin {d} {a} {b} : Statement (.fmin d a b) := by
  intro h _
  simp only [Instr.wf, Bool.and_eq_true] at h
  obtain ⟨⟨⟨h0, h1⟩, h2⟩, h3⟩ := h
  refine floatAB (lt_of_r1 h0) h1 (by decide) (by decide) (by decide) (by decide) (by decide) h2 h3 fun l g1 g2 => ?_
  exact decAB_eq (by rfl) (regOf_r1 h0) (srcOf_code h1 g1) (srcOf_code h2 g2)

theorem fmax {d} {a} {b} : Statement (.fmax d a b) := by
  intro h _
  simp only [Instr.wf, Bool.and_eq_true] at h
  obtain ⟨⟨⟨h0, h1⟩, h2⟩, h3⟩ := h
  refine floatAB (lt_of_r1 h0) h1 (by decide) (by decide) (by decide) (by decide) (by decide) h2 h3 fun l g1 g2 => ?_
  exact decAB_eq (by rfl) (regOf_r1 h0) (srcOf_code h1 g1) (srcOf_code h2 g2)

theorem fcmp {d} {a} {b} {m} : Statement (.fcmp d a b m) := by
  intro h _
  simp only [Instr.wf, Bool.and_eq_true] at h
  obtain ⟨⟨⟨h0, h1⟩, h2⟩, h3⟩ := h
  refine floatAB (lt_of_r1 h0) h1 (by cases m <;> decide) (by decide) (by decide) (by decide) (by decide) h2 h3 fun l g1 g2 => ?_
  exact decAB_eq (by cases m <;> rfl) (regOf_r1 h0) (srcOf_code h1 g1) (srcOf_code h2 g2)

theorem padd2 {d} {a} {b} {f} {r} : Statement (.padd2 d a b f r) := by
  intro h _
  simp only [Instr.wf, Bool.and_eq_true] at h
  obtain ⟨⟨⟨h0, h1⟩, h2⟩, h3⟩ := h
  refine floatAB (lt_of_r1 h0) h1 (by cases f <;> cases r <;> decide) (by decide) (by decide) (by decide) (by decide) h2 h3 fun l g1 g2 => ?_
  cases f <;> cases r <;> exact decAB_eq rfl (regOf_r1 h0) (srcOf_code h1 g1) (srcOf_code h2 g2)

theorem pmul2 {d} {a} {b} {f} {r} : Statement (.pmul2 d a b f r) := by
  intro h _
  simp only [Instr.wf, Bool.and_eq_true] at h
  obtain ⟨⟨⟨h0, h1⟩, h2⟩, h3⟩ := h
  refine floatAB (lt_of_r1 h0) h1 (by cases f <;> cases r <;> decide) (by decide) (by decide) (by decide) (by decide) h2 h3 fun l g1 g2 => ?_
  cases f <;> cases r <;> exact decAB_eq rfl (regOf_r1 h0) (srcOf_code h1 g1) (srcOf_code h2 g2)

theorem pfma2 {d} {a} {b} {f} {r} : Statement (.pfma2 d a b f r) := by
  intro h _
  simp only [Instr.wf, Bool.and_eq_true] at h
  obtain ⟨⟨⟨h0, h1⟩, h2⟩, h3⟩ := h
  refine floatAB (lt_of_r1 h0) h1 (by cases f <;> cases r <;> decide) (by decide) (by decide) (by decide) (by decide) h2 h3 fun l g1 g2 => ?_
  cases f <;> cases r <;> exact decAB_eq rfl (regOf_r1 h0) (srcOf_code h1 g1) (srcOf_code h2 g2)

theorem pdot2 {d} {a} {b} {f} {r} : Statement (.pdot2 d a b f r) := by
  intro h _
  simp only [Instr.wf, Bool.and_eq_true] at h
  obtain ⟨⟨⟨h0, h1⟩, h2⟩, h3⟩ := h
  refine floatAB (lt_of_r1 h0) h1 (by cases f <;> cases r <;> decide) (by decide) (by decide) (by decide) (by decide) h2 h3 fun l g1 g2 => ?_
  cases f <;> cases r <;> exact decAB_eq rfl (regOf_r1 h0) (srcOf_code h1 g1) (srcOf_code h2 g2)

theorem fdiv {d} {a} {b} {r} : Statement (.fdiv d a b r) := by
  intro h _
  simp only [Instr.wf, Bool.and_eq_true] at h
  obtain ⟨⟨⟨h0, h1⟩, h2⟩, h3⟩ := h
  refine floatAB (lt_of_r1 h0) h1 (by cases r <;> decide) (by decide) (by decide) (by decide) (by decide) h2 h3 fun l g1 g2 => ?_
  exact decAB_eq (by cases r <;> rfl) (regOf_r1 h0) (srcOf_code h1 g1) (srcOf_code h2 g2)

theorem cvtpk {d} {a} {b} {m} : Statement (.cvtpk d a b m) := by
  intro h _
  simp only [Instr.wf, Bool.and_eq_true] at h
  obtain ⟨⟨⟨h0, h1⟩, h2⟩, h3⟩ := h
  refine floatAB (lt_of_r1 h0) h1 (by cases m <;> decide) (by decide) (by decide) (by decide) (by decide) h2 h3 fun l g1 g2 => ?_
  exact decAB_eq (by cases m <;> rfl) (regOf_r1 h0) (srcOf_code h1 g1) (srcOf_code h2 g2)

theorem iadd64 {d} {a} {b} {m} : Statement (.iadd64 d a b m) := by
  intro h _
  simp only [Instr.wf, Bool.and_eq_true] at h
  obtain ⟨⟨⟨h0, h1⟩, h2⟩, h3⟩ := h
  have hb : Wf.s32 b = true := by
    split at h2
    · exact s32_of_s64 h2
    · exact h2
  refine intAB (lt_of_rk h0) (s32_of_s64 h1) (by cases m <;> decide) (by decide) (by decide) (by decide) hb h3 fun l g1 g2 => ?_
  refine decM_then (v := m) (by cases m <;> rfl) (decF_then (regOf_rk h0) (decF_then (src64Of_code h1 g1)
    (decF_eq (v := b) ?_)))
  cases m
  · exact src64Of_code h2 g2
  · exact srcOf_code h2 g2
  · exact srcOf_code h2 g2

theorem clz {d} {a} {w} : Statement (.clz d a w) := by
  intro h _
  simp only [Instr.wf, Bool.and_eq_true] at h
  obtain ⟨h0, h1⟩ := h
  refine intA (lt_of_r1 h0) (s32_of_sIf h1) (by cases w <;> decide) (by decide) (by decide) fun l g1 => ?_
  exact decM_then (v := w) (by cases w <;> rfl) (decA1_eq rfl (regOf_r1 h0) (srcIf_code h1 g1))

theorem popc {d} {a} {w} : Statement (.popc d a w) := by
  intro h _
  simp only [Instr.wf, Bool.and_eq_true] at h
  obtain ⟨h0, h1⟩ := h
  refine intA (lt_of_r1 h0) (s32_of_sIf h1) (by cases w <;> decide) (by decide) (by decide) fun l g1 => ?_
  exact decM_then (v := w) (by cases w <;> rfl) (decA1_eq rfl (regOf_r1 h0) (srcIf_code h1 g1))

theorem lmatch {d} {a} {w} : Statement (.lmatch d a w) := by
  intro h _
  simp only [Instr.wf, Bool.and_eq_true] at h
  obtain ⟨h0, h1⟩ := h
  refine intA (lt_of_r1 h0) (s32_of_sIf h1) (by cases w <;> decide) (by decide) (by decide) fun l g1 => ?_
  exact decM_then (v := w) (by cases w <;> rfl) (decA1_eq rfl (regOf_r1 h0) (srcIf_code h1 g1))

theorem brev {d} {a} : Statement (.brev d a) := by
  intro h _
  simp only [Instr.wf, Bool.and_eq_true] at h
  obtain ⟨h0, h1⟩ := h
  refine intA (lt_of_r1 h0) h1 (by decide) (by decide) (by decide) fun l g1 => ?_
  exact decA1_eq (by rfl) (regOf_r1 h0) (srcOf_code h1 g1)

theorem bitdl {d} {a} {m} : Statement (.bitdl d a m) := by
  intro h _
  simp only [Instr.wf, Bool.and_eq_true] at h
  obtain ⟨h0, h1⟩ := h
  refine intA (lt_of_r1 h0) h1 (by cases m <;> decide) (by decide) (by decide) fun l g1 => ?_
  exact decA1_eq (by cases m <;> rfl) (regOf_r1 h0) (srcOf_code h1 g1)

theorem ballot {d} {a} {w} : Statement (.ballot d a w) := by
  intro h _
  simp only [Instr.wf, Bool.and_eq_true] at h
  obtain ⟨h0, h1⟩ := h
  refine intA (lt_of_r1 h0) h1 (by cases w <;> decide) (by decide) (by decide) fun l g1 => ?_
  exact decA1_eq (by cases w <;> rfl) (regOf_r1 h0) (srcOf_code h1 g1)

theorem lred {d} {a} {m} : Statement (.lred d a m) := by
  intro h _
  simp only [Instr.wf, Bool.and_eq_true] at h
  obtain ⟨h0, h1⟩ := h
  refine intA (lt_of_r1 h0) h1 (by cases m <;> decide) (by decide) (by decide) fun l g1 => ?_
  exact decA1_eq (by cases m <;> rfl) (regOf_r1 h0) (srcOf_code h1 g1)

theorem lscan {d} {a} {m} : Statement (.lscan d a m) := by
  intro h _
  simp only [Instr.wf, Bool.and_eq_true] at h
  obtain ⟨h0, h1⟩ := h
  refine intA (lt_of_r1 h0) h1 (by cases m <;> decide) (by decide) (by decide) fun l g1 => ?_
  exact decA1_eq (by cases m <;> rfl) (regOf_r1 h0) (srcOf_code h1 g1)

theorem lfirst {d} {a} {w} : Statement (.lfirst d a w) := by
  intro h _
  simp only [Instr.wf, Bool.and_eq_true] at h
  obtain ⟨h0, h1⟩ := h
  refine intA (lt_of_r1 h0) h1 (by cases w <;> decide) (by decide) (by decide) fun l g1 => ?_
  exact decA1_eq (by cases w <;> rfl) (regOf_r1 h0) (srcOf_code h1 g1)

theorem flred {d} {a} {m} : Statement (.flred d a m) := by
  intro h _
  simp only [Instr.wf, Bool.and_eq_true] at h
  obtain ⟨h0, h1⟩ := h
  refine intA (lt_of_r1 h0) h1 (by cases m <;> decide) (by decide) (by decide) fun l g1 => ?_
  exact decA1_eq (by cases m <;> rfl) (regOf_r1 h0) (srcOf_code h1 g1)

theorem frnd {d} {a} {r} : Statement (.frnd d a r) := by
  intro h _
  simp only [Instr.wf, Bool.and_eq_true] at h
  obtain ⟨h0, h1⟩ := h
  refine floatA (b := 0) (lt_of_r1 h0) h1 (by cases r <;> decide) (by decide) (by decide) (by decide) (.inr (by decide)) (by decide) fun l g1 => ?_
  exact decA1_eq (by cases r <;> rfl) (regOf_r1 h0) (srcOf_code h1 g1)

theorem frcp {d} {a} {r} : Statement (.frcp d a r) := by
  intro h _
  simp only [Instr.wf, Bool.and_eq_true] at h
  obtain ⟨h0, h1⟩ := h
  refine floatA (b := 0) (lt_of_r1 h0) h1 (by cases r <;> decide) (by decide) (by decide) (by decide) (.inr (by decide)) (by decide) fun l g1 => ?_
  exact decA1_eq (by cases r <;> rfl) (regOf_r1 h0) (srcOf_code h1 g1)

theorem frsq {d} {a} {r} : Statement (.frsq d a r) := by
  intro h _
  simp only [Instr.wf, Bool.and_eq_true] at h
  obtain ⟨h0, h1⟩ := h
  refine floatA (b := 0) (lt_of_r1 h0) h1 (by cases r <;> decide) (by decide) (by decide) (by decide) (.inr (by decide)) (by decide) fun l g1 => ?_
  exact decA1_eq (by cases r <;> rfl) (regOf_r1 h0) (srcOf_code h1 g1)

theorem fsqrt {d} {a} {r} : Statement (.fsqrt d a r) := by
  intro h _
  simp only [Instr.wf, Bool.and_eq_true] at h
  obtain ⟨h0, h1⟩ := h
  refine floatA (b := 0) (lt_of_r1 h0) h1 (by cases r <;> decide) (by decide) (by decide) (by decide) (.inr (by decide)) (by decide) fun l g1 => ?_
  exact decA1_eq (by cases r <;> rfl) (regOf_r1 h0) (srcOf_code h1 g1)

theorem fexp2 {d} {a} {r} : Statement (.fexp2 d a r) := by
  intro h _
  simp only [Instr.wf, Bool.and_eq_true] at h
  obtain ⟨h0, h1⟩ := h
  refine floatA (b := 0) (lt_of_r1 h0) h1 (by cases r <;> decide) (by decide) (by decide) (by decide) (.inr (by decide)) (by decide) fun l g1 => ?_
  exact decA1_eq (by cases r <;> rfl) (regOf_r1 h0) (srcOf_code h1 g1)

theorem flog2 {d} {a} {r} : Statement (.flog2 d a r) := by
  intro h _
  simp only [Instr.wf, Bool.and_eq_true] at h
  obtain ⟨h0, h1⟩ := h
  refine floatA (b := 0) (lt_of_r1 h0) h1 (by cases r <;> decide) (by decide) (by decide) (by decide) (.inr (by decide)) (by decide) fun l g1 => ?_
  exact decA1_eq (by cases r <;> rfl) (regOf_r1 h0) (srcOf_code h1 g1)

theorem fsinpi {d} {a} {r} : Statement (.fsinpi d a r) := by
  intro h _
  simp only [Instr.wf, Bool.and_eq_true] at h
  obtain ⟨h0, h1⟩ := h
  refine floatA (b := 0) (lt_of_r1 h0) h1 (by cases r <;> decide) (by decide) (by decide) (by decide) (.inr (by decide)) (by decide) fun l g1 => ?_
  exact decA1_eq (by cases r <;> rfl) (regOf_r1 h0) (srcOf_code h1 g1)

theorem fcospi {d} {a} {r} : Statement (.fcospi d a r) := by
  intro h _
  simp only [Instr.wf, Bool.and_eq_true] at h
  obtain ⟨h0, h1⟩ := h
  refine floatA (b := 0) (lt_of_r1 h0) h1 (by cases r <;> decide) (by decide) (by decide) (by decide) (.inr (by decide)) (by decide) fun l g1 => ?_
  exact decA1_eq (by cases r <;> rfl) (regOf_r1 h0) (srcOf_code h1 g1)

theorem fclass {d} {a} {m} : Statement (.fclass d a m) := by
  intro h _
  simp only [Instr.wf, Bool.and_eq_true] at h
  obtain ⟨h0, h1⟩ := h
  refine floatA (b := 0) (lt_of_r1 h0) h1 (by cases m <;> decide) (by decide) (by decide) (by decide) (.inr (by decide)) (by decide) fun l g1 => ?_
  exact decA1_eq (by cases m <;> rfl) (regOf_r1 h0) (srcOf_code h1 g1)

theorem mov {d} {a} {w} : Statement (.mov d a w) := by
  intro h _
  simp only [Instr.wf, Bool.and_eq_true] at h
  obtain ⟨h0, h1⟩ := h
  refine intA (lt_of_rIf h0) (s32_of_sIf h1) (by cases w <;> decide) (by decide) (by decide) fun l g1 => ?_
  exact decM_then (v := w) (by cases w <;> rfl) (decF_then (pairIf_rIf h0) (decF_eq (srcIf_code h1 g1)))

theorem nop : Statement (.nop) := by
  intro _ _
  rfl

theorem sreg {d} {c} : Statement (.sreg d c) := by
  intro h _
  simp only [Instr.wf, Bool.and_eq_true] at h
  obtain ⟨h0, h1⟩ := h
  have hc : c < 128 := by
    simp only [sregAssigned, Bool.or_eq_true, Bool.and_eq_true, decide_eq_true_eq] at h1; omega
  have hd := lt_of_r1 h0
  have hM := (encA_fields (maj := 2) (m := 0) (b := 0) (by decide) hd hc (by decide) (by decide)).1
  refine (decodeWords_one (consumesLit_plain ?_ ?_ ?_)).trans ((decodeInstr_int hd hc (by decide) (by decide) (by decide)).trans ?_)
  · rw [hM]; decide
  · rw [hM]; decide
  · rw [hM]; decide
  · exact decM_then (v := ()) (by simp [h1]) (decF_eq (regOf_r1 h0))

theorem br {v} {o} : Statement (.br v o) := by
  intro h _
  simp only [Instr.wf, Bool.and_eq_true] at h
  obtain ⟨⟨h0, h1⟩, h2⟩ := h
  refine branchB (by decide) (by decide) (Src.code_lt h0) (wrapN_lt o 17) (by decide) (by decide) ?_
  have hv : brSrcOf v.code = some v := by
    have hn : v.litOf = none := by simpa using h1
    have hc := Src.code_lit h0
    rw [hn] at hc
    unfold brSrcOf
    rw [if_neg (by simpa using hc)]
    exact srcOf_code h0 (fun x hx => by simp [hn] at hx)
  refine decF_then hv ?_
  rw [sext_off h2]

theorem brv {v} : Statement (.brv v) := by
  intro h _
  have h0 := h; simp only [Instr.wf] at h0
  refine branchB (by decide) (by decide) (lt_of_rk h0) (by decide) (by decide) (by decide) ?_
  exact decF_eq (regOf_rk h0)

theorem split {o} : Statement (.split o) := by
  intro h _
  have h0 := h; simp only [Instr.wf] at h0
  refine branchB (by decide) (by decide) (by decide) (wrapN_lt o 17) (by decide) (by decide) ?_
  exact congrArg (fun x => Except.ok (Instr.split x)) (sext_off h0)

theorem call {o} : Statement (.call o) := by
  intro h _
  have h0 := h; simp only [Instr.wf] at h0
  refine branchB (by decide) (by decide) (by decide) (wrapN_lt o 17) (by decide) (by decide) ?_
  exact congrArg (fun x => Except.ok (Instr.call x)) (sext_off h0)

theorem join : Statement (.join) := by
  intro _ _
  rfl

theorem exit : Statement (.exit) := by
  intro _ _
  rfl

theorem yield : Statement (.yield) := by
  intro _ _
  rfl

theorem bkpt : Statement (.bkpt) := by
  intro _ _
  rfl

theorem rett : Statement (.rett) := by
  intro _ _
  rfl

theorem callv {a} : Statement (.callv a) := by
  intro h _
  have h0 := h; simp only [Instr.wf] at h0
  refine controlA (by decide) (by decide) (by decide) (lt_of_rk h0) (by decide) (by decide) (by decide) (by decide) ?_
  exact decF_eq (regOf_rk h0)

theorem ret {a} : Statement (.ret a) := by
  intro h _
  have h0 := h; simp only [Instr.wf] at h0
  refine controlA (by decide) (by decide) (by decide) (lt_of_rk h0) (by decide) (by decide) (by decide) (by decide) ?_
  exact decF_eq (regOf_rk h0)

theorem pset {a} {n} : Statement (.pset a n) := by
  intro h _
  simp only [Instr.wf, Bool.and_eq_true] at h
  obtain ⟨h0, h1⟩ := h
  simp only [decide_eq_true_eq] at h1
  refine controlA (by decide) (by decide) (by decide) (lt_of_r1 h0) (by omega) (by decide) (by decide) (by decide) ?_
  refine decF_then (regOf_r1 h0) ?_
  exact if_pos ⟨rfl, h1.1, h1.2⟩

theorem sleep {a} : Statement (.sleep a) := by
  intro h _
  have h0 := h; simp only [Instr.wf] at h0
  refine sleepA h0 (by decide) fun l g1 => ?_
  exact decF_then (srcOf_code h0 g1) rfl

theorem sleepT {a} : Statement (.sleepT a) := by
  intro h _
  have h0 := h; simp only [Instr.wf] at h0
  refine sleepA (s32_of_s64 h0) (by decide) fun l g1 => ?_
  exact decF_then (src64Of_code h0 g1) rfl

theorem sleepB {a} : Statement (.sleepB a) := by
  intro h _
  have h0 := h; simp only [Instr.wf] at h0
  refine sleepA h0 (by decide) fun l g1 => ?_
  exact decF_then (srcOf_code h0 g1) rfl

theorem trap {c} : Statement (.trap c) := by
  intro h _
  have h0 := h; simp only [Instr.wf] at h0
  simp only [decide_eq_true_eq] at h0
  refine controlA (by decide) (by decide) (by decide) (by decide) h0 (by decide) (by decide) (by decide) ?_
  rfl

theorem waitc {c} {n} : Statement (.waitc c n) := by
  intro h _
  have h0 := h; simp only [Instr.wf] at h0
  simp only [decide_eq_true_eq] at h0
  refine controlA (by decide) (by decide) (by decide) (by decide) (by omega) (by cases c <;> decide) (by decide) (by decide) ?_
  refine decM_then (v := c) (by cases c <;> rfl) ?_
  exact if_pos ⟨rfl, rfl, h0⟩

theorem cvtf {d} {a} {df} {sf} {t} {r} : Statement (.cvtf d a df sf t r) := by
  intro h _
  simp only [Instr.wf, Bool.and_eq_true] at h
  obtain ⟨h0, h1⟩ := h
  refine floatA (lt_of_r1 h0) h1 (by cases r <;> decide) (by decide) (by decide) (by decide) (.inl (by decide))
    (by cases df <;> cases sf <;> cases t <;> decide) fun l g1 => ?_
  refine decM_then (v := r) (by cases r <;> rfl) (decM_then (v := df) (by cases df <;> cases sf <;> cases t <;> rfl)
    (decM_then (v := sf) (by cases df <;> cases sf <;> cases t <;> rfl) (decF_then (regOf_r1 h0)
    (decF_then (srcOf_code h1 g1) ?_))))
  cases df <;> cases sf <;> cases t <;> rfl

theorem cvti {d} {a} {df} {sf} {r} : Statement (.cvti d a df sf r) := by
  intro h _
  simp only [Instr.wf, Bool.and_eq_true] at h
  obtain ⟨⟨h0, h1⟩, h2⟩ := h
  have hdf : df ≠ .e8m0 := by simpa using h2
  refine floatA (lt_of_rIf h0) h1 (by cases r <;> decide) (by decide) (by decide) (by decide) (.inl (by decide))
    (by cases df <;> cases sf <;> decide) fun l g1 => ?_
  exact decM_then (v := r) (by cases r <;> rfl) (decM_then (v := df) (by cases df <;> cases sf <;> first | rfl | exact absurd rfl hdf)
    (decM_then (v := sf) (by cases df <;> cases sf <;> rfl) (decM_then (v := ()) (by cases df <;> cases sf <;> rfl)
    (decF_then (pairIf_rIf h0) (decF_eq (srcOf_code h1 g1))))))

theorem cvtif {d} {a} {df} {sf} {t} {r} : Statement (.cvtif d a df sf t r) := by
  intro h _
  simp only [Instr.wf, Bool.and_eq_true] at h
  obtain ⟨⟨h0, h1⟩, h2⟩ := h
  have hdf : df ≠ .e8m0 := by simpa using h2
  refine floatA (lt_of_r1 h0) (s32_of_sIf h1) (by cases r <;> decide) (by decide) (by decide) (by decide) (.inl (by decide))
    (by cases df <;> cases sf <;> cases t <;> decide) fun l g1 => ?_
  refine decM_then (v := r) (by cases r <;> rfl)
    (decM_then (v := df) (by cases df <;> cases sf <;> cases t <;> first | rfl | exact absurd rfl hdf)
    (decM_then (v := sf) (by cases df <;> cases sf <;> cases t <;> rfl) (decF_then (regOf_r1 h0)
    (decF_then (srcIf_code h1 g1) ?_))))
  cases df <;> cases sf <;> cases t <;> rfl

theorem ld {d} {a} {f} {z} {off} {x} {c} : Statement (.ld d a f z off x c) := by
  intro h _
  simp only [Instr.wf, Bool.and_eq_true] at h
  obtain ⟨⟨⟨⟨h0, h1⟩, h2⟩, h3⟩, h4⟩ := h
  refine memM (by decide) (by decide) (lt_of_rk h0) (lt_of_rk h1) h2 (by cases z <;> decide) (by cases x <;> cases c <;> decide) fun xo l ho => ?_
  refine decM_then (v := z) (by cases z <;> rfl) (decM_then (v := x) (by cases z <;> cases x <;> cases c <;> first | rfl | exact absurd h4 (by decide)) (decF_then (regOf_rk h0) (decF_then (regOf_rk h1) (decF_then (flagOf_code h2) ?_))))
  rw [ho]; cases x <;> cases c <;> rfl

theorem st {d} {a} {f} {z} {off} {c} : Statement (.st d a f z off c) := by
  intro h _
  simp only [Instr.wf, Bool.and_eq_true] at h
  obtain ⟨⟨⟨h0, h1⟩, h2⟩, h3⟩ := h
  refine memM (by decide) (by decide) (lt_of_rk h0) (lt_of_rk h1) h2 (by cases z <;> decide) (by cases c <;> decide) fun xo l ho => ?_
  refine decM_then (v := z) (by cases z <;> rfl) (decM_then (v := c) (by cases c <;> rfl) (decF_then (regOf_rk h0) (decF_then (regOf_rk h1) (decF_then (flagOf_code h2) ?_))))
  rw [ho]

theorem lds {d} {a} {f} {z} {off} {x} : Statement (.lds d a f z off x) := by
  intro h _
  simp only [Instr.wf, Bool.and_eq_true] at h
  obtain ⟨⟨⟨⟨h0, h1⟩, h2⟩, h3⟩, h4⟩ := h
  refine memM (by decide) (by decide) (lt_of_rk h0) (lt_of_r1 h1) h2 (by cases z <;> decide) (by cases x <;> decide) fun xo l ho => ?_
  refine decM_then (v := z) (by cases z <;> rfl) (decM_then (v := x) (by cases x <;> rfl) (decM_then (v := x) (by cases z <;> cases x <;> first | rfl | exact absurd h4 (by decide)) (decF_then (regOf_rk h0) (decF_then (regOf_r1 h1) (decF_then (flagOf_code h2) ?_)))))
  rw [ho]

theorem sts {d} {a} {f} {z} {off} : Statement (.sts d a f z off) := by
  intro h _
  simp only [Instr.wf, Bool.and_eq_true] at h
  obtain ⟨⟨⟨h0, h1⟩, h2⟩, h3⟩ := h
  refine memM (by decide) (by decide) (lt_of_rk h0) (lt_of_r1 h1) h2 (by cases z <;> decide) (by decide) fun xo l ho => ?_
  refine decM_then (v := z) (by cases z <;> rfl) (decM_then (v := ()) (by rfl) (decF_then (regOf_rk h0) (decF_then (regOf_r1 h1) (decF_then (flagOf_code h2) ?_))))
  rw [ho]

theorem ldb {d} {a} {f} {z} {off} {x} : Statement (.ldb d a f z off x) := by
  intro h _
  simp only [Instr.wf, Bool.and_eq_true] at h
  obtain ⟨⟨⟨⟨h0, h1⟩, h2⟩, h3⟩, h4⟩ := h
  refine memM (by decide) (by decide) (lt_of_rk h0) (lt_of_rk h1) h2 (by cases z <;> decide) (by cases x <;> decide) fun xo l ho => ?_
  refine decM_then (v := z) (by cases z <;> rfl) (decM_then (v := x) (by cases x <;> rfl) (decM_then (v := x) (by cases z <;> cases x <;> first | rfl | exact absurd h4 (by decide)) (decF_then (regOf_rk h0) (decF_then (regOf_rk h1) (decF_then (flagOf_code h2) ?_)))))
  rw [ho]

theorem stb {d} {a} {f} {z} {off} : Statement (.stb d a f z off) := by
  intro h _
  simp only [Instr.wf, Bool.and_eq_true] at h
  obtain ⟨⟨⟨h0, h1⟩, h2⟩, h3⟩ := h
  refine memM (by decide) (by decide) (lt_of_rk h0) (lt_of_rk h1) h2 (by cases z <;> decide) (by decide) fun xo l ho => ?_
  refine decM_then (v := z) (by cases z <;> rfl) (decM_then (v := ()) (by rfl) (decF_then (regOf_rk h0) (decF_then (regOf_rk h1) (decF_then (flagOf_code h2) ?_))))
  rw [ho]

theorem atom {d} {a} {f} {z} {off} {n} : Statement (.atom d a f z off n) := by
  intro h _
  simp only [Instr.wf, Bool.and_eq_true] at h
  obtain ⟨⟨⟨h0, h1⟩, h2⟩, h3⟩ := h
  refine memM (by decide) (by decide) (lt_of_rIf h0) (lt_of_rk h1) h2 (by cases z <;> decide) (by cases n <;> decide) fun xo l ho => ?_
  refine decM_then (v := z) (by cases z <;> rfl) (decM_then (v := n) (by cases n <;> rfl) (decF_then (lt_of_pairIf h0) (decF_then (regOf_rk h1) (decF_then (flagOf_code h2) ?_))))
  rw [ho]

theorem atoms {d} {a} {f} {z} {off} {n} : Statement (.atoms d a f z off n) := by
  intro h _
  simp only [Instr.wf, Bool.and_eq_true] at h
  obtain ⟨⟨⟨h0, h1⟩, h2⟩, h3⟩ := h
  refine memM (by decide) (by decide) (lt_of_rIf h0) (lt_of_r1 h1) h2 (by cases z <;> decide) (by cases n <;> decide) fun xo l ho => ?_
  refine decM_then (v := z) (by cases z <;> rfl) (decM_then (v := n) (by cases n <;> rfl) (decF_then (lt_of_pairIf h0) (decF_then (regOf_r1 h1) (decF_then (flagOf_code h2) ?_))))
  rw [ho]

theorem cas {d} {a} {f} {z} {off} : Statement (.cas d a f z off) := by
  intro h _
  simp only [Instr.wf, Bool.and_eq_true] at h
  obtain ⟨⟨⟨h0, h1⟩, h2⟩, h3⟩ := h
  refine memM (by decide) (by decide) (lt_of_rk h0) (lt_of_rk h1) h2 (by cases z <;> decide) (by decide) fun xo l ho => ?_
  refine decM_then (v := z) (by cases z <;> rfl) (decM_then (v := ()) (by rfl) (decF_then (regOf_rk h0) (decF_then (regOf_rk h1) (decF_then (flagOf_code h2) ?_))))
  rw [ho]

theorem cas128 {d} {a} {f} {off} : Statement (.cas128 d a f off) := by
  intro h _
  simp only [Instr.wf, Bool.and_eq_true] at h
  obtain ⟨⟨⟨h0, h1⟩, h2⟩, h3⟩ := h
  refine memM (by decide) (by decide) (lt_of_rk h0) (lt_of_rk h1) h2 (by decide) (by decide) fun xo l ho => ?_
  refine decF_then (regOf_rk h0) (decF_then (regOf_rk h1) (decF_then (flagOf_code h2) ?_))
  rw [ho]

theorem aminv {d} {a} {f} {off} {n} : Statement (.aminv d a f off n) := by
  intro h _
  simp only [Instr.wf, Bool.and_eq_true] at h
  obtain ⟨⟨⟨h0, h1⟩, h2⟩, h3⟩ := h
  refine memM (by decide) (by decide) (lt_of_rk h0) (lt_of_rk h1) h2 (by decide) (by cases n <;> decide) fun xo l ho => ?_
  refine decM_then (v := n) (by cases n <;> rfl) (decF_then (regOf_rk h0) (decF_then (regOf_rk h1) (decF_then (flagOf_code h2) ?_)))
  rw [ho]

theorem fence {s} {k} : Statement (.fence s k) := by
  intro _ _
  cases s <;> cases k <;> rfl

theorem cachePref {a} {f} {v} : Statement (.cachePref a f v) := by
  intro h _
  simp only [Instr.wf, Bool.and_eq_true] at h
  obtain ⟨h0, h1⟩ := h
  refine syncF (by decide) (by decide) (lt_of_rk h0) (flagCode_lt h1) (by cases v <;> decide) (by decide) (by decide) (by decide) ?_
  exact decM_then (v := v) (by cases v <;> rfl) (decF_then (regOf_rk h0) (decF_then (m := zeroOf 0) (v := ()) rfl
    (decF_eq (flagOf_code h1))))

theorem cacheFlush {a} {f} {v} : Statement (.cacheFlush a f v) := by
  intro h _
  simp only [Instr.wf, Bool.and_eq_true] at h
  obtain ⟨h0, h1⟩ := h
  refine syncF (by decide) (by decide) (lt_of_rk h0) (flagCode_lt h1) (by cases v <;> decide) (by decide) (by decide) (by decide) ?_
  exact decM_then (v := v) (by cases v <;> rfl) (decF_then (regOf_rk h0) (decF_then (m := zeroOf 0) (v := ()) rfl
    (decF_eq (flagOf_code h1))))

theorem cacheInv {a} {f} {v} : Statement (.cacheInv a f v) := by
  intro h _
  simp only [Instr.wf, Bool.and_eq_true] at h
  obtain ⟨h0, h1⟩ := h
  refine syncF (by decide) (by decide) (lt_of_rk h0) (flagCode_lt h1) (by cases v <;> decide) (by decide) (by decide) (by decide) ?_
  exact decM_then (v := v) (by cases v <;> rfl) (decF_then (regOf_rk h0) (decF_then (m := zeroOf 0) (v := ()) rfl
    (decF_eq (flagOf_code h1))))

theorem barInit {b} {x} {t} : Statement (.barInit b x t) := by
  intro h _
  have h0 := h; simp only [Instr.wf] at h0
  simp only [decide_eq_true_eq] at h0
  refine syncFl (by decide) (by decide) (by omega) (by decide) (by cases x <;> decide) (by decide) (by decide) (by decide) ?_
  refine decM_then (v := x) (by cases x <;> rfl) (decF_then (numIf_eq (decide_eq_true h0.1)) (decF_then (m := zeroOf 0) (v := ()) rfl ?_))
  exact if_pos ⟨rfl, h0.2.1, h0.2.2⟩

theorem barArrive {d} {b} {x} : Statement (.barArrive d b x) := by
  intro h _
  simp only [Instr.wf, Bool.and_eq_true] at h
  obtain ⟨h0, h1⟩ := h
  simp only [decide_eq_true_eq] at h1
  refine syncF (by decide) (lt_of_r1 h0) (by omega) (by decide) (by cases x <;> decide) (by decide) (by decide) (by decide) ?_
  exact decM_then (v := x) (by cases x <;> rfl) (decF_then (numIf_eq (decide_eq_true h1)) (decF_then (m := zeroOf 0) (v := ()) rfl
    (decF_eq (regOf_r1 h0))))

theorem barWait {d} {b} {x} : Statement (.barWait d b x) := by
  intro h _
  simp only [Instr.wf, Bool.and_eq_true] at h
  obtain ⟨h0, h1⟩ := h
  simp only [decide_eq_true_eq] at h1
  refine syncF (by decide) (lt_of_r1 h0) (by omega) (by decide) (by cases x <;> decide) (by decide) (by decide) (by decide) ?_
  exact decM_then (v := x) (by cases x <;> rfl) (decF_then (numIf_eq (decide_eq_true h1)) (decF_then (m := zeroOf 0) (v := ()) rfl
    (decF_eq (regOf_r1 h0))))

theorem barArrivewait {d} {b} {x} : Statement (.barArrivewait d b x) := by
  intro h _
  simp only [Instr.wf, Bool.and_eq_true] at h
  obtain ⟨h0, h1⟩ := h
  simp only [decide_eq_true_eq] at h1
  refine syncF (by decide) (lt_of_r1 h0) (by omega) (by decide) (by cases x <;> decide) (by decide) (by decide) (by decide) ?_
  exact decM_then (v := x) (by cases x <;> rfl) (decF_then (numIf_eq (decide_eq_true h1)) (decF_then (m := zeroOf 0) (v := ()) rfl
    (decF_eq (regOf_r1 h0))))

theorem barQuery {d} {b} {x} : Statement (.barQuery d b x) := by
  intro h _
  simp only [Instr.wf, Bool.and_eq_true] at h
  obtain ⟨h0, h1⟩ := h
  simp only [decide_eq_true_eq] at h1
  refine syncF (by decide) (lt_of_r1 h0) (by omega) (by decide) (by cases x <;> decide) (by decide) (by decide) (by decide) ?_
  exact decM_then (v := x) (by cases x <;> rfl) (decF_then (numIf_eq (decide_eq_true h1)) (decF_then (m := zeroOf 0) (v := ()) rfl
    (decF_eq (regOf_r1 h0))))

theorem barInv {b} {x} : Statement (.barInv b x) := by
  intro h _
  have h0 := h; simp only [Instr.wf] at h0
  simp only [decide_eq_true_eq] at h0
  refine syncF (by decide) (by decide) (by omega) (by decide) (by cases x <;> decide) (by decide) (by decide) (by decide) ?_
  exact decM_then (v := x) (by cases x <;> rfl) (decF_then (numIf_eq (decide_eq_true h0)) (decF_then (m := zeroOf 0) (v := ()) rfl
    (decF_eq (m := zeroOf 0) (v := ()) rfl)))

theorem qpush {a} {f} {c} {k} : Statement (.qpush a f c k) := by
  intro h _
  simp only [Instr.wf, Bool.and_eq_true] at h
  obtain ⟨⟨h0, h1⟩, h2⟩ := h
  refine syncFl (by decide) (by decide) (lt_of_r1 h0) (flagCode_lt h1) (by cases c <;> decide) (by decide) (by decide) (by decide) ?_
  exact decM_then (v := c) (by cases c <;> rfl) (decF_then (flagOf_code h1) (decF_then (numIf_eq h2)
    (decF_then (regOf_r1 h0) (decF_eq (m := zeroOf 0) (v := ()) rfl))))

theorem qpop {d} {f} {c} {k} : Statement (.qpop d f c k) := by
  intro h _
  simp only [Instr.wf, Bool.and_eq_true] at h
  obtain ⟨⟨h0, h1⟩, h2⟩ := h
  refine syncFl (by decide) (lt_of_r1 h0) (by decide) (flagCode_lt h1) (by cases c <;> decide) (by decide) (by decide) (by decide) ?_
  exact decM_then (v := c) (by cases c <;> rfl) (decF_then (flagOf_code h1) (decF_then (numIf_eq h2)
    (decF_then (regOf_r1 h0) (decF_eq (m := zeroOf 0) (v := ()) rfl))))

theorem bkcfg {d} {a} {f} {m} : Statement (.bkcfg d a f m) := by
  intro h _
  simp only [Instr.wf, Bool.and_eq_true] at h
  obtain ⟨⟨h0, h1⟩, h2⟩ := h
  refine syncF (by cases m <;> decide) (lt_of_r1 h0) (lt_of_r1 h1) (flagCode_lt h2) (by decide) (by decide) (by decide)
    (by cases m <;> decide) ?_
  exact decM_then (v := m) (by cases m <;> rfl) (decF_then (regOf_r1 h0) (decF_then (regOf_r1 h1)
    (decF_eq (flagOf_code h2))))

theorem tcfg {p} {c} : Statement (.tcfg p c) := by
  intro h _
  simp only [Instr.wf, Bool.and_eq_true] at h
  obtain ⟨⟨h0, h1⟩, h2⟩ := h
  simp only [Wf.t8, decide_eq_true_eq] at h0 h2
  refine matTl (by decide) (by decide) h0 (by decide) (by decide) (by decide) (by decide) (by decide) ?_
  exact decM_then (numIf_eq h1) (if_pos ⟨rfl, rfl, rfl, rfl, h2⟩)

theorem tld {p} {v} {s} {t} : Statement (.tld p v s t) := by
  intro h _
  simp only [Instr.wf, Bool.and_eq_true] at h
  obtain ⟨⟨h0, h1⟩, h2⟩ := h
  simp only [Wf.t8, decide_eq_true_eq] at h0
  refine matTl (by decide) (by decide) h0 (by decide) (by cases s <;> decide) (lt_of_rIf h1) (by decide) (by decide) ?_
  refine decM_then (v := s) (by cases s <;> rfl) (decF_then (v := v) ?_ rfl)
  cases s
  · exact regOf_rk h1
  · exact regOf_r1 h1
  · exact regOf_rk h1

theorem tst {p} {v} {s} {c} {t} : Statement (.tst p v s c t) := by
  intro h _
  simp only [Instr.wf, Bool.and_eq_true] at h
  obtain ⟨⟨h0, h1⟩, h2⟩ := h
  simp only [Wf.t8, decide_eq_true_eq] at h0
  refine matTl (by decide) (by decide) h0 (by decide) (by cases s <;> decide) (lt_of_rIf h1) (by cases c <;> decide) (by decide) ?_
  refine decM_then (v := s) (by cases s <;> rfl) (decF_then (v := v) ?_ (decF_then (v := c) (by cases c <;> rfl) rfl))
  cases s
  · exact regOf_rk h1
  · exact regOf_r1 h1
  · exact regOf_rk h1

theorem tmovv {p} {v} {j} {t} : Statement (.tmovv p v j t) := by
  intro h _
  simp only [Instr.wf, Bool.and_eq_true] at h
  obtain ⟨⟨h0, h1⟩, h2⟩ := h
  simp only [Wf.t8, decide_eq_true_eq] at h0 h2
  have hb : b2n t < 2 := by cases t <;> decide
  refine matT (by decide) (by decide) h0 (by decide) (by decide) (lt_of_r1 h1) (by omega) (by decide) ?_
  refine decF_then (regOf_r1 h1) ((if_pos ⟨rfl, rfl⟩).trans ?_)
  have e : (j + 128 * b2n t) % 128 = j := by omega
  rw [e]
  cases t
  · rw [decide_eq_false (by simp [b2n]; omega)]
  · rw [decide_eq_true (by simp [b2n])]

theorem mma {a} {p} {q} : Statement (.mma a p q) := by
  intro h _
  simp only [Instr.wf, Bool.and_eq_true] at h
  obtain ⟨⟨h0, h1⟩, h2⟩ := h
  simp only [Wf.t8, decide_eq_true_eq] at h0 h1 h2
  refine matT (by decide) (by decide) (by omega) h1 h2 (by decide) (by decide) (by decide) ?_
  exact if_pos ⟨h0, rfl, rfl⟩

theorem mzero {a} {e} : Statement (.mzero a e) := by
  intro h _
  have h0 := h; simp only [Instr.wf] at h0
  simp only [decide_eq_true_eq] at h0
  refine matTl (by decide) (by decide) (by omega) (by decide) (by decide) (by decide) (by decide) (by decide) ?_
  have he : sext (wrapN e 32) 32 = e := sext_wrapN 32 (by decide) (by simp; omega) (by simp; omega)
  show (if a < 4 ∧ 0 = 0 ∧ 0 = 0 ∧ 0 = 0 ∧ 0 = 0 ∧ -2048 ≤ sext (wrapN e 32) 32 ∧ sext (wrapN e 32) 32 ≤ 2047 then
    Except.ok (Instr.mzero a (sext (wrapN e 32) 32)) else Except.error DecErr.illegalEnc) = _
  rw [he, if_pos ⟨h0.1, rfl, rfl, rfl, rfl, h0.2.1, h0.2.2⟩]

theorem mdrain {a} {t} {v} {c} {x} : Statement (.mdrain a t v c x) := by
  intro h _
  simp only [Instr.wf, Bool.and_eq_true] at h
  obtain ⟨⟨⟨h0, h1⟩, h2⟩, h3⟩ := h
  simp only [Wf.t8, decide_eq_true_eq] at h0 h1 h3
  have hb : b2n x < 2 := by cases x <;> decide
  refine matT (by decide) (by decide) (by omega) h1 (by decide) (lt_of_r1 h2) (by omega) (by decide) ?_
  refine decF_then (regOf_r1 h2) ((if_pos ⟨h0, rfl, by omega⟩).trans ?_)
  have e : (c + 32 * b2n x) % 32 = c := by omega
  rw [e]
  cases x
  · rw [decide_eq_false (by simp [b2n]; omega)]
  · rw [decide_eq_true (by simp [b2n])]

theorem mhad {p} {q} {v} {n} {x} : Statement (.mhad p q v n x) := by
  intro h _
  simp only [Instr.wf, Bool.and_eq_true] at h
  obtain ⟨⟨h0, h1⟩, h2⟩ := h
  simp only [Wf.t8, decide_eq_true_eq] at h0 h1
  cases x with
  | false =>
    have hv : v = 0 := by simpa using h2
    subst hv
    refine matT (by decide) (by decide) h0 h1 (by decide) (by decide) (by cases n <;> decide) (by decide) ?_
    refine decM_then (v := n) (by cases n <;> rfl) ?_
    cases n <;> rfl
  | true =>
    have hv : Wf.rk 4 v = true := h2
    refine matT (by decide) (by decide) h0 h1 (by decide) (lt_of_rk hv) (by cases n <;> decide) (by decide) ?_
    simp only [Wf.rk, Bool.and_eq_true, decide_eq_true_eq] at hv
    refine decM_then (v := n) (by cases n <;> rfl) ?_
    cases n <;> exact if_pos ⟨rfl, by decide, hv⟩

theorem msign {p} {q} {v} {n} : Statement (.msign p q v n) := by
  intro h _
  simp only [Instr.wf, Bool.and_eq_true] at h
  obtain ⟨⟨h0, h1⟩, h2⟩ := h
  simp only [Wf.t8, decide_eq_true_eq] at h0 h1
  refine matT (by decide) (by decide) h0 h1 (by decide) (lt_of_rk h2) (by cases n <;> decide) (by decide) ?_
  refine decM_then (v := n) (by cases n <;> rfl) (decF_then (regOf_rk h2) ?_)
  cases n <;> rfl

theorem mquant {p} {q} : Statement (.mquant p q) := by
  intro h _
  simp only [Instr.wf, Bool.and_eq_true] at h
  obtain ⟨h0, h1⟩ := h
  simp only [Wf.t8, decide_eq_true_eq] at h0 h1
  exact matT (by decide) (by decide) h0 h1 (by decide) (by decide) (by decide) (by decide) rfl

theorem ttrans {p} {q} : Statement (.ttrans p q) := by
  intro h _
  simp only [Instr.wf, Bool.and_eq_true] at h
  obtain ⟨h0, h1⟩ := h
  simp only [Wf.t8, decide_eq_true_eq] at h0 h1
  exact matT (by decide) (by decide) h0 h1 (by decide) (by decide) (by decide) (by decide) rfl

theorem mbatch : Statement (.mbatch) := by
  intro _ _
  rfl

theorem bnew {d} {a} {f} {u} : Statement (.bnew d a f u) := by
  intro h _
  simp only [Instr.wf, Bool.and_eq_true] at h
  obtain ⟨⟨h0, h1⟩, h2⟩ := h
  refine copyF (by decide) (lt_of_r1 h0) (lt_of_rk h1) (flagCode_lt h2) (by cases u <;> decide) (by decide) (by decide) rfl ?_
  refine decM_then (v := u) (by cases u <;> rfl) (decF_then (m := zeroOf 0) (v := ()) rfl (decF_then (regOf_r1 h0) (decF_then (regOf_rk h1) (decF_then (flagOf_code h2) rfl))))

theorem bfree {a} : Statement (.bfree a) := by
  intro h _
  have h0 := h; simp only [Instr.wf] at h0
  refine copyF (by decide) (by decide) (lt_of_r1 h0) (by decide) (by decide) (by decide) (by decide) rfl ?_
  refine decF_then (regOf_r1 h0) rfl

theorem bstat {d} {a} {f} : Statement (.bstat d a f) := by
  intro h _
  simp only [Instr.wf, Bool.and_eq_true] at h
  obtain ⟨⟨h0, h1⟩, h2⟩ := h
  refine copyF (by decide) (lt_of_r1 h0) (lt_of_r1 h1) (flagCode_lt h2) (by decide) (by decide) (by decide) rfl ?_
  refine decF_then (regOf_r1 h0) (decF_then (regOf_r1 h1) (decF_then (flagOf_code h2) rfl))

theorem cpy {d} {a} {f} {w} : Statement (.cpy d a f w) := by
  intro h _
  simp only [Instr.wf, Bool.and_eq_true] at h
  obtain ⟨⟨⟨h0, h1⟩, h2⟩, h3⟩ := h
  refine copyFl (by decide) (lt_of_rk h0) (lt_of_rk h1) (flagCode_lt h2) (by decide) (by decide) (by decide) rfl ?_
  refine decF_then (regOf_rk h0) (decF_then (regOf_rk h1) (decF_then (flagOf_code h2) (decF_then (numIf_eq h3) rfl)))

theorem cpyo {d} {a} {f} {w} : Statement (.cpyo d a f w) := by
  intro h _
  simp only [Instr.wf, Bool.and_eq_true] at h
  obtain ⟨⟨⟨h0, h1⟩, h2⟩, h3⟩ := h
  refine copyFl (by decide) (lt_of_rk h0) (lt_of_rk h1) (flagCode_lt h2) (by decide) (by decide) (by decide) rfl ?_
  refine decF_then (regOf_rk h0) (decF_then (regOf_rk h1) (decF_then (flagOf_code h2) (decF_then (numIf_eq h3) rfl)))

theorem cpylRead {d} {a} {f} {q} {n} : Statement (.cpylRead d a f q n) := by
  intro h _
  simp only [Instr.wf, Bool.and_eq_true] at h
  obtain ⟨⟨⟨⟨h0, h1⟩, h2⟩, h3⟩, h4⟩ := h
  refine copyFl (by simp only [decide_eq_true_eq] at h3; omega) (lt_of_rk h0) (lt_of_rk h1) (flagCode_lt h2) (by decide) (by decide) (by decide) rfl ?_
  refine decF_then (numIf_eq h3) (decF_then (regOf_rk h0) (decF_then (regOf_rk h1) (decF_then (flagOf_code h2) (decF_then (numIf_eq h4) rfl))))

theorem cpylWrite {d} {a} {f} {q} {n} : Statement (.cpylWrite d a f q n) := by
  intro h _
  simp only [Instr.wf, Bool.and_eq_true] at h
  obtain ⟨⟨⟨⟨h0, h1⟩, h2⟩, h3⟩, h4⟩ := h
  refine copyFl (by simp only [decide_eq_true_eq] at h3; omega) (lt_of_rk h0) (lt_of_rk h1) (flagCode_lt h2) (by decide) (by decide) (by decide) rfl ?_
  refine decF_then (numIf_eq h3) (decF_then (regOf_rk h0) (decF_then (regOf_rk h1) (decF_then (flagOf_code h2) (decF_then (numIf_eq h4) rfl))))

theorem lrecBase {d} {a} {f} : Statement (.lrecBase d a f) := by
  intro h _
  simp only [Instr.wf, Bool.and_eq_true] at h
  obtain ⟨⟨h0, h1⟩, h2⟩ := h
  refine copyF (by decide) (lt_of_rk h0) (lt_of_rk h1) (flagCode_lt h2) (by decide) (by decide) (by decide) rfl ?_
  refine decF_then (regOf_rk h0) (decF_then (regOf_rk h1) (decF_then (flagOf_code h2) rfl))

theorem lrecScale {d} {a} {f} : Statement (.lrecScale d a f) := by
  intro h _
  simp only [Instr.wf, Bool.and_eq_true] at h
  obtain ⟨⟨h0, h1⟩, h2⟩ := h
  refine copyF (by decide) (lt_of_rk h0) (lt_of_rk h1) (flagCode_lt h2) (by decide) (by decide) (by decide) rfl ?_
  refine decF_then (regOf_rk h0) (decF_then (regOf_rk h1) (decF_then (flagOf_code h2) rfl))

theorem lrecSeed {d} {a} {f} : Statement (.lrecSeed d a f) := by
  intro h _
  simp only [Instr.wf, Bool.and_eq_true] at h
  obtain ⟨⟨h0, h1⟩, h2⟩ := h
  refine copyF (by decide) (lt_of_rk h0) (lt_of_rk h1) (flagCode_lt h2) (by decide) (by decide) (by decide) rfl ?_
  refine decF_then (regOf_rk h0) (decF_then (regOf_rk h1) (decF_then (flagOf_code h2) rfl))

theorem lrecChk {d} {a} {f} : Statement (.lrecChk d a f) := by
  intro h _
  simp only [Instr.wf, Bool.and_eq_true] at h
  obtain ⟨⟨h0, h1⟩, h2⟩ := h
  refine copyF (by decide) (lt_of_r1 h0) (lt_of_rk h1) (flagCode_lt h2) (by decide) (by decide) (by decide) rfl ?_
  refine decF_then (regOf_r1 h0) (decF_then (regOf_rk h1) (decF_then (flagOf_code h2) rfl))

theorem thnew {d} {a} {f} : Statement (.thnew d a f) := by
  intro h _
  simp only [Instr.wf, Bool.and_eq_true] at h
  obtain ⟨⟨h0, h1⟩, h2⟩ := h
  refine copyF (by decide) (lt_of_r1 h0) (lt_of_rk h1) (flagCode_lt h2) (by decide) (by decide) (by decide) rfl ?_
  refine decF_then (flagOf_code h2) (decF_then (regOf_r1 h0) (decF_then (regOf_rk h1) rfl))

theorem thfree {a} {f} : Statement (.thfree a f) := by
  intro h _
  simp only [Instr.wf, Bool.and_eq_true] at h
  obtain ⟨h0, h1⟩ := h
  refine copyF (by decide) (by decide) (lt_of_r1 h0) (flagCode_lt h1) (by decide) (by decide) (by decide) rfl ?_
  refine decF_then (flagOf_code h1) (decF_then (m := zeroOf 0) (v := ()) rfl (decF_then (regOf_r1 h0) rfl))

theorem thqry {d} {a} {f} : Statement (.thqry d a f) := by
  intro h _
  simp only [Instr.wf, Bool.and_eq_true] at h
  obtain ⟨⟨h0, h1⟩, h2⟩ := h
  refine copyF (by decide) (lt_of_r1 h0) (lt_of_r1 h1) (flagCode_lt h2) (by decide) (by decide) (by decide) rfl ?_
  refine decF_then (flagOf_code h2) (decF_then (regOf_r1 h0) (decF_then (regOf_r1 h1) rfl))

theorem tacq {d} {a} {f} {m} : Statement (.tacq d a f m) := by
  intro h _
  simp only [Instr.wf, Bool.and_eq_true] at h
  obtain ⟨⟨h0, h1⟩, h2⟩ := h
  refine copyF (by decide) (lt_of_r1 h0) (lt_of_r1 h1) (flagCode_lt h2) (by cases m <;> decide) (by decide) (by decide) rfl ?_
  refine decM_then (v := m) (by cases m <;> rfl) (decF_then (m := zeroOf 0) (v := ()) rfl (decF_then (regOf_r1 h0) (decF_then (regOf_r1 h1) (decF_then (flagOf_code h2) rfl))))

theorem trel {a} {f} : Statement (.trel a f) := by
  intro h _
  simp only [Instr.wf, Bool.and_eq_true] at h
  obtain ⟨h0, h1⟩ := h
  refine copyF (by decide) (by decide) (lt_of_r1 h0) (flagCode_lt h1) (by decide) (by decide) (by decide) rfl ?_
  refine decF_then (regOf_r1 h0) (decF_then (flagOf_code h1) (decF_then (m := zeroOf 0) (v := ()) rfl rfl))

theorem tflush {a} {f} : Statement (.tflush a f) := by
  intro h _
  simp only [Instr.wf, Bool.and_eq_true] at h
  obtain ⟨h0, h1⟩ := h
  refine copyF (by decide) (by decide) (lt_of_r1 h0) (flagCode_lt h1) (by decide) (by decide) (by decide) rfl ?_
  refine decF_then (regOf_r1 h0) (decF_then (flagOf_code h1) (decF_then (m := zeroOf 0) (v := ()) rfl rfl))

theorem tsplit {d} {a} {f} {m} {p} : Statement (.tsplit d a f m p) := by
  intro h _
  simp only [Instr.wf, Bool.and_eq_true] at h
  obtain ⟨⟨⟨h0, h1⟩, h2⟩, h3⟩ := h
  simp only [decide_eq_true_eq] at h3
  refine copyFl (by decide) (lt_of_r1 h0) (lt_of_r1 h1) (flagCode_lt h2) (by decide) (by decide) (by decide) (by decide) ?_
  have e1 : bits (m + 2 ^ 16 * p) 15 2 = 0 := by
    simp only [bits, Nat.reducePow, Nat.reduceAdd, Nat.reduceSub]; omega
  have e2 : bits (m + 2 ^ 16 * p) 31 16 = p := by
    simp only [bits, Nat.reducePow, Nat.reduceAdd, Nat.reduceSub]; omega
  have e3 : (m + 2 ^ 16 * p) % 4 = m := by omega
  refine decF_then (regOf_r1 h1) (decF_then (flagOf_code h2)
    (decF_then (regOf_r1 h0) (decF_then (v := ()) ?_ ?_)))
  · rw [e1]; rfl
  · rw [e2, e3]

theorem rtrace {d} {a} {f} : Statement (.rtrace d a f) := by
  intro h _
  simp only [Instr.wf, Bool.and_eq_true] at h
  obtain ⟨⟨h0, h1⟩, h2⟩ := h
  refine sysF (by decide) (lt_of_rk h0) (lt_of_rk h1) (flagCode_lt h2) (by decide) (by decide) (by decide) rfl ?_
  refine decF_then (regOf_rk h0) (decF_then (regOf_rk h1) (decF_then (flagOf_code h2) rfl))

theorem rany {d} {a} {f} : Statement (.rany d a f) := by
  intro h _
  simp only [Instr.wf, Bool.and_eq_true] at h
  obtain ⟨⟨h0, h1⟩, h2⟩ := h
  refine sysF (by decide) (lt_of_rk h0) (lt_of_rk h1) (flagCode_lt h2) (by decide) (by decide) (by decide) rfl ?_
  refine decF_then (regOf_rk h0) (decF_then (regOf_rk h1) (decF_then (flagOf_code h2) rfl))

theorem rpin {d} {a} {f} : Statement (.rpin d a f) := by
  intro h _
  simp only [Instr.wf, Bool.and_eq_true] at h
  obtain ⟨⟨h0, h1⟩, h2⟩ := h
  refine sysF (by decide) (lt_of_r1 h0) (lt_of_rk h1) (flagCode_lt h2) (by decide) (by decide) (by decide) rfl ?_
  refine decF_then (flagOf_code h2) (decF_then (regOf_r1 h0) (decF_then (regOf_rk h1) rfl))

theorem runpin {a} {f} : Statement (.runpin a f) := by
  intro h _
  simp only [Instr.wf, Bool.and_eq_true] at h
  obtain ⟨h0, h1⟩ := h
  refine sysF (by decide) (by decide) (lt_of_rk h0) (flagCode_lt h1) (by decide) (by decide) (by decide) rfl ?_
  refine decF_then (flagOf_code h1) (decF_then (m := zeroOf 0) (v := ()) rfl (decF_then (regOf_rk h0) rfl))

theorem rhit {d} {a} {f} : Statement (.rhit d a f) := by
  intro h _
  simp only [Instr.wf, Bool.and_eq_true] at h
  obtain ⟨⟨h0, h1⟩, h2⟩ := h
  refine sysF (by decide) (lt_of_rk h0) (lt_of_rk h1) (flagCode_lt h2) (by decide) (by decide) (by decide) rfl ?_
  refine decF_then (flagOf_code h2) (decF_then (regOf_rk h0) (decF_then (regOf_rk h1) rfl))

theorem rgenq {d} {a} {f} : Statement (.rgenq d a f) := by
  intro h _
  simp only [Instr.wf, Bool.and_eq_true] at h
  obtain ⟨⟨h0, h1⟩, h2⟩ := h
  refine sysF (by decide) (lt_of_rk h0) (lt_of_rk h1) (flagCode_lt h2) (by decide) (by decide) (by decide) rfl ?_
  refine decF_then (flagOf_code h2) (decF_then (regOf_rk h0) (decF_then (regOf_rk h1) rfl))

theorem asbuild {a} {f} : Statement (.asbuild a f) := by
  intro h _
  simp only [Instr.wf, Bool.and_eq_true] at h
  obtain ⟨h0, h1⟩ := h
  refine sysF (by decide) (by decide) (lt_of_rk h0) (flagCode_lt h1) (by decide) (by decide) (by decide) rfl ?_
  refine decF_then (regOf_rk h0) (decF_then (flagOf_code h1) rfl)

theorem asrefit {a} {f} : Statement (.asrefit a f) := by
  intro h _
  simp only [Instr.wf, Bool.and_eq_true] at h
  obtain ⟨h0, h1⟩ := h
  refine sysF (by decide) (by decide) (lt_of_rk h0) (flagCode_lt h1) (by decide) (by decide) (by decide) rfl ?_
  refine decF_then (regOf_rk h0) (decF_then (flagOf_code h1) rfl)

theorem asrebal {a} {f} : Statement (.asrebal a f) := by
  intro h _
  simp only [Instr.wf, Bool.and_eq_true] at h
  obtain ⟨h0, h1⟩ := h
  refine sysF (by decide) (by decide) (lt_of_rk h0) (flagCode_lt h1) (by decide) (by decide) (by decide) rfl ?_
  refine decF_then (regOf_rk h0) (decF_then (flagOf_code h1) rfl)

theorem asimport {a} {f} : Statement (.asimport a f) := by
  intro h _
  simp only [Instr.wf, Bool.and_eq_true] at h
  obtain ⟨h0, h1⟩ := h
  refine sysF (by decide) (by decide) (lt_of_rk h0) (flagCode_lt h1) (by decide) (by decide) (by decide) rfl ?_
  refine decF_then (regOf_rk h0) (decF_then (flagOf_code h1) rfl)

theorem aspubl {a} {f} : Statement (.aspubl a f) := by
  intro h _
  simp only [Instr.wf, Bool.and_eq_true] at h
  obtain ⟨h0, h1⟩ := h
  refine sysF (by decide) (by decide) (lt_of_rk h0) (flagCode_lt h1) (by decide) (by decide) (by decide) rfl ?_
  refine decF_then (regOf_rk h0) (decF_then (flagOf_code h1) rfl)

theorem asstat {a} {f} : Statement (.asstat a f) := by
  intro h _
  simp only [Instr.wf, Bool.and_eq_true] at h
  obtain ⟨h0, h1⟩ := h
  refine sysF (by decide) (by decide) (lt_of_rk h0) (flagCode_lt h1) (by decide) (by decide) (by decide) rfl ?_
  refine decF_then (regOf_rk h0) (decF_then (flagOf_code h1) rfl)

theorem asqual {a} {f} : Statement (.asqual a f) := by
  intro h _
  simp only [Instr.wf, Bool.and_eq_true] at h
  obtain ⟨h0, h1⟩ := h
  refine sysF (by decide) (by decide) (lt_of_rk h0) (flagCode_lt h1) (by decide) (by decide) (by decide) rfl ?_
  refine decF_then (regOf_rk h0) (decF_then (flagOf_code h1) rfl)

theorem asrecl {a} {f} : Statement (.asrecl a f) := by
  intro h _
  simp only [Instr.wf, Bool.and_eq_true] at h
  obtain ⟨h0, h1⟩ := h
  refine sysF (by decide) (by decide) (lt_of_rk h0) (flagCode_lt h1) (by decide) (by decide) (by decide) rfl ?_
  refine decF_then (regOf_rk h0) (decF_then (flagOf_code h1) rfl)

theorem feat {d} : Statement (.feat d) := by
  intro h _
  have h0 := h; simp only [Instr.wf] at h0
  refine sysF (by decide) (lt_of_r1 h0) (by decide) (by decide) (by decide) (by decide) (by decide) rfl ?_
  refine decF_then (regOf_r1 h0) (decF_then (m := zeroOf 0) (v := ()) rfl rfl)

theorem dfeat {d} : Statement (.dfeat d) := by
  intro h _
  have h0 := h; simp only [Instr.wf] at h0
  refine sysF (by decide) (lt_of_r1 h0) (by decide) (by decide) (by decide) (by decide) (by decide) rfl ?_
  refine decF_then (regOf_r1 h0) (decF_then (m := zeroOf 0) (v := ()) rfl rfl)

theorem ckpt {d} : Statement (.ckpt d) := by
  intro h _
  have h0 := h; simp only [Instr.wf] at h0
  refine sysF (by decide) (lt_of_r1 h0) (by decide) (by decide) (by decide) (by decide) (by decide) rfl ?_
  refine decF_then (regOf_r1 h0) (decF_then (m := zeroOf 0) (v := ()) rfl rfl)

theorem mbpost {d} {a} : Statement (.mbpost d a) := by
  intro h _
  simp only [Instr.wf, Bool.and_eq_true] at h
  obtain ⟨h0, h1⟩ := h
  refine sysF (by decide) (lt_of_r1 h0) (lt_of_rk h1) (by decide) (by decide) (by decide) (by decide) rfl ?_
  refine decF_then (regOf_r1 h0) (decF_then (regOf_rk h1) rfl)

theorem trapinfo {d} {k} : Statement (.trapinfo d k) := by
  intro h _
  simp only [Instr.wf, Bool.and_eq_true] at h
  obtain ⟨h0, h1⟩ := h
  refine sysF (by decide) (lt_of_r1 h0) (by simp only [decide_eq_true_eq] at h1; omega) (by decide) (by decide) (by decide) (by decide) rfl ?_
  refine decF_then (regOf_r1 h0) (decF_then (numIf_eq h1) rfl)

theorem trcon : Statement (.trcon) := by
  intro _ _
  rfl

theorem trcoff : Statement (.trcoff) := by
  intro _ _
  rfl

theorem trcmark {k} : Statement (.trcmark k) := by
  intro h _
  have h0 := h; simp only [Instr.wf] at h0
  refine sysFl (by decide) (by decide) (by decide) (by decide) (by decide) (by decide) (by decide) rfl ?_
  refine decF_then (numIf_eq h0) rfl

theorem vPipeResultWrite {x0} : Statement (.vPipeResultWrite x0) := fun _ h => nomatch h

theorem sPipeResultWrite {x0} {x1} : Statement (.sPipeResultWrite x0 x1) := fun _ h => nomatch h

theorem lPipeResultWrite {x0} {x1} : Statement (.lPipeResultWrite x0 x1) := fun _ h => nomatch h

theorem storePerformed {x0} {x1} : Statement (.storePerformed x0 x1) := fun _ h => nomatch h

theorem fenceComplete {x0} {x1} : Statement (.fenceComplete x0 x1) := fun _ h => nomatch h

theorem matrixExecute {x0} : Statement (.matrixExecute x0) := fun _ h => nomatch h

theorem copyComplete {x0} {x1} : Statement (.copyComplete x0 x1) := fun _ h => nomatch h

theorem rayRecordWrite {x0} {x1} : Statement (.rayRecordWrite x0 x1) := fun _ h => nomatch h

theorem builderDispatch {x0} : Statement (.builderDispatch x0) := fun _ h => nomatch h

theorem buildRequestComplete {x0} {x1} : Statement (.buildRequestComplete x0 x1) := fun _ h => nomatch h

theorem sleepWake {x0} {x1} : Statement (.sleepWake x0 x1) := fun _ h => nomatch h

theorem promiseMiss {x0} {x1} : Statement (.promiseMiss x0 x1) := fun _ h => nomatch h

theorem checkpointCommit {x0} : Statement (.checkpointCommit x0) := fun _ h => nomatch h

theorem checkpointTimer {x0} : Statement (.checkpointTimer x0) := fun _ h => nomatch h

theorem emulateComplete {x0} {x1} : Statement (.emulateComplete x0 x1) := fun _ h => nomatch h

theorem translationWalk {x0} {x1} {x2} {x3} : Statement (.translationWalk x0 x1 x2 x3) := fun _ h => nomatch h

theorem reqrd {x0} {x1} : Statement (.reqrd x0 x1) := fun _ h => nomatch h

theorem reqwr {x0} {x1} : Statement (.reqwr x0 x1) := fun _ h => nomatch h

theorem requestStart {x0} {x1} : Statement (.requestStart x0 x1) := fun _ h => nomatch h

theorem grant {x0} {x1} : Statement (.grant x0 x1) := fun _ h => nomatch h

theorem fwd {x0} {x1} : Statement (.fwd x0 x1) := fun _ h => nomatch h

theorem data {x0} {x1} : Statement (.data x0 x1) := fun _ h => nomatch h

theorem inv {x0} {x1} : Statement (.inv x0 x1) := fun _ h => nomatch h

theorem invack {x0} {x1} : Statement (.invack x0 x1) := fun _ h => nomatch h


theorem recallMsg {x0} {x1} : Statement (.recallMsg x0 x1) := fun _ h => nomatch h
theorem wbdata {x0} {x1} : Statement (.wbdata x0 x1) := fun _ h => nomatch h

theorem backinv {x0} {x1} : Statement (.backinv x0 x1) := fun _ h => nomatch h

theorem nack {x0} {x1} : Statement (.nack x0 x1) := fun _ h => nomatch h

theorem busyResend {x0} {x1} : Statement (.busyResend x0 x1) := fun _ h => nomatch h

theorem pageHomeMove {x0} {x1} : Statement (.pageHomeMove x0 x1) := fun _ h => nomatch h

theorem mailboxArrival {x0} : Statement (.mailboxArrival x0) := fun _ h => nomatch h

theorem launchStart {x0} : Statement (.launchStart x0) := fun _ h => nomatch h

theorem preemptRequest {x0} : Statement (.preemptRequest x0) := fun _ h => nomatch h

theorem safePoint {x0} : Statement (.safePoint x0) := fun _ h => nomatch h

theorem teamRestore {x0} : Statement (.teamRestore x0) := fun _ h => nomatch h

theorem sliceExpiry {x0} : Statement (.sliceExpiry x0) := fun _ h => nomatch h

theorem coreRetirement {x0} : Statement (.coreRetirement x0) := fun _ h => nomatch h

theorem sliceRetirement {x0} {x1} : Statement (.sliceRetirement x0 x1) := fun _ h => nomatch h

theorem pageRetirement {x0} : Statement (.pageRetirement x0) := fun _ h => nomatch h

theorem memoryError {x0} : Statement (.memoryError x0) := fun _ h => nomatch h

theorem tlbinvPageRange {x0} {x1} : Statement (.tlbinvPageRange x0 x1) := fun _ h => nomatch h

theorem tlbinvContext {x0} {x1} : Statement (.tlbinvContext x0 x1) := fun _ h => nomatch h

theorem tlbinvTenant {x0} {x1} : Statement (.tlbinvTenant x0 x1) := fun _ h => nomatch h

theorem tlbinvAll {x0} {x1} : Statement (.tlbinvAll x0 x1) := fun _ h => nomatch h

theorem tlbinvComplete : Statement (.tlbinvComplete) := fun _ h => nomatch h

theorem invstatWrite {x0} {x1} : Statement (.invstatWrite x0 x1) := fun _ h => nomatch h

theorem fltrepRetry {x0} {x1} : Statement (.fltrepRetry x0 x1) := fun _ h => nomatch h

theorem fltrepFail {x0} {x1} : Statement (.fltrepFail x0 x1) := fun _ h => nomatch h

theorem writeWindowDescriptor {x0} {x1} : Statement (.writeWindowDescriptor x0 x1) := fun _ h => nomatch h

theorem writeMailboxEntry {x0} {x1} : Statement (.writeMailboxEntry x0 x1) := fun _ h => nomatch h

theorem writeContextRecord {x0} {x1} : Statement (.writeContextRecord x0 x1) := fun _ h => nomatch h

theorem endContext {x0} {x1} : Statement (.endContext x0 x1) := fun _ h => nomatch h

theorem giveClusterBank {x0} {x1} : Statement (.giveClusterBank x0 x1) := fun _ h => nomatch h

theorem attestationReport {x0} {x1} : Statement (.attestationReport x0 x1) := fun _ h => nomatch h

theorem setRetirementThreshold {x0} {x1} : Statement (.setRetirementThreshold x0 x1) := fun _ h => nomatch h

theorem requestComplete {x0} : Statement (.requestComplete x0) := fun _ h => nomatch h

theorem mback {x0} {x1} : Statement (.mback x0 x1) := fun _ h => nomatch h

theorem hstatRead {x0} : Statement (.hstatRead x0) := fun _ h => nomatch h

theorem rasstatRead {x0} {x1} : Statement (.rasstatRead x0 x1) := fun _ h => nomatch h

theorem pairstatRead {x0} : Statement (.pairstatRead x0) := fun _ h => nomatch h

theorem registerWrite {x0} {x1} {x2} : Statement (.registerWrite x0 x1 x2) := fun _ h => nomatch h

theorem hostMailboxWrite {x0} {x1} {x2} : Statement (.hostMailboxWrite x0 x1 x2) := fun _ h => nomatch h

theorem functionLevelReset {x0} : Statement (.functionLevelReset x0) := fun _ h => nomatch h

theorem partReset : Statement (.partReset) := fun _ h => nomatch h

theorem d3hotEntry : Statement (.d3hotEntry) := fun _ h => nomatch h

theorem d0Exit : Statement (.d0Exit) := fun _ h => nomatch h

theorem linkUp {x0} {x1} : Statement (.linkUp x0 x1) := fun _ h => nomatch h

theorem hello {x0} {x1} {x2} {x3} : Statement (.hello x0 x1 x2 x3) := fun _ h => nomatch h

theorem attest {x0} {x1} {x2} {x3} : Statement (.attest x0 x1 x2 x3) := fun _ h => nomatch h

theorem align {x0} {x1} {x2} {x3} {x4} : Statement (.align x0 x1 x2 x3 x4) := fun _ h => nomatch h

theorem image {x0} {x1} {x2} {x3} {x4} : Statement (.image x0 x1 x2 x3 x4) := fun _ h => nomatch h

theorem resume {x0} {x1} {x2} {x3} : Statement (.resume x0 x1 x2 x3) := fun _ h => nomatch h

theorem tenure {x0} {x1} {x2} {x3} : Statement (.tenure x0 x1 x2 x3) := fun _ h => nomatch h

theorem mbox {x0} {x1} {x2} {x3} : Statement (.mbox x0 x1 x2 x3) := fun _ h => nomatch h

theorem credit {x0} {x1} {x2} {x3} {x4} : Statement (.credit x0 x1 x2 x3 x4) := fun _ h => nomatch h

theorem qperr {x0} {x1} {x2} : Statement (.qperr x0 x1 x2) := fun _ h => nomatch h

theorem commit {x0} {x1} {x2} : Statement (.commit x0 x1 x2) := fun _ h => nomatch h

theorem undock {x0} {x1} : Statement (.undock x0 x1) := fun _ h => nomatch h

theorem undone {x0} {x1} : Statement (.undone x0 x1) := fun _ h => nomatch h

theorem linkLoss {x0} : Statement (.linkLoss x0) := fun _ h => nomatch h

theorem traceDrain {x0} : Statement (.traceDrain x0) := fun _ h => nomatch h

theorem undefinedEncoding : Statement (.undefinedEncoding) := fun _ h => nomatch h

theorem controlWordIssue : Statement (.controlWordIssue) := fun _ h => nomatch h

theorem flit {x0} : Statement (.flit x0) := fun _ h => nomatch h

theorem unsupportedTlp {x0} : Statement (.unsupportedTlp x0) := fun _ h => nomatch h

theorem queuePairMemoryRequest {x0} {x1} {x2} {x3} {x4} {x5} : Statement (.queuePairMemoryRequest x0 x1 x2 x3 x4 x5) := fun _ h => nomatch h

theorem queuePairReset {x0} {x1} : Statement (.queuePairReset x0 x1) := fun _ h => nomatch h

theorem powerStateChange {x0} {x1} : Statement (.powerStateChange x0 x1) := fun _ h => nomatch h

theorem correctedErrorWindow : Statement (.correctedErrorWindow) := fun _ h => nomatch h

theorem badreq {x0} {x1} : Statement (.badreq x0 x1) := fun _ h => nomatch h

end Sys2Proof.Laws.RoundTrip
end

