-- ==== Sys2Proof/Tests/Slice0.lean ====
section
/-! SUPPORT. The model's own tests: ill-formed terms that WellFormed refuses, words written out from the spec's encodings,
single steps with results worked out from the spec, and for every obligation with hypotheses a state that meets them. -/
namespace Sys2Proof.Tests

open Sys2Proof Sys2Proof.Machine

set_option maxRecDepth 100000
set_option Elab.async false

/-! ### Helpers -/

/-- A machine with one group of one work item that is about to issue from slot A. -/
def base : State := bootWith State.reset 0

/-- The group of a state changed. -/
def withG (s : State) (f : Group → Group) : State := modGroup s 0 f

/-- Registers of lane 0 set. -/
def setR (s : State) (rs : List (Nat × Nat)) : State :=
  withG s fun g => { g with regs := rs.foldl (fun m e => mapSet m (vunit e.1 0) (BitVec.ofNat 32 e.2)) g.regs }

/-- Every word of a list issues at slot A of the group. -/
def allIssue (s : State) (ms : List Sem) : Bool := ms.all fun m => decide (Issues s 0 .a m)

/-- The state after an instruction. -/
def ran (i : Instr) (s : State) : State := after s (exec i s)

/-- The values that the newest operation of the group is to write, as numbers. -/
def pend (i : Instr) (s : State) : List Nat :=
  match (getGroup (ran i s) 0).ops.getLast? with
  | some o => o.vals.map (·.2.1.toNat)
  | none => []

/-- The cause that a word alone in its chain takes. -/
def causeOf (i : Instr) (s : State) : Option Nat :=
  (getGroup (ran i s) 0).trap.map (·.code)

/-- What a word that issues at slot A knows, and the state that its effect starts from. -/
def atIssue (s : State) (m : Sem) (p : Ctx → State → Bool) : Bool := p (soleCtx s 0 .a m) (soleStart s 0 .a m)

/-! ### Witnesses: register words -/

theorem wit_IntegerResults : allIssue base
    [vWord1 5 (.reg 6) fun x => x, vPair 4 (srcRegs64 (.reg 6)) fun c L => c.w64 (.reg 6) L,
     vWord2 5 (.reg 6) (.reg 7) fun x y => x + y, vWord3 5 (.reg 6) (.reg 7) fun x y z => x * y + z,
     vPair 4 (srcRegs64 (.reg 6) ++ srcRegs64 (.reg 8)) fun c L => c.w64 (.reg 6) L + c.w64 (.reg 8) L,
     vPair 4 (srcRegs64 (.reg 6) ++ srcRegs (.reg 7)) fun c L => c.w64 (.reg 6) L + (c.w (.reg 7) L).setWidth 64,
     vPair 4 (srcRegs (.reg 6) ++ srcRegs (.reg 7) ++ [4, 5]) fun c L => (c.rw 5 L ++ c.rw 4 L)] = true := by decide

theorem wit_ShiftFieldAndBitResults : allIssue base
    [vWord2 5 (.reg 6) (.reg 7) fun x y => if 32 ≤ y.toNat then 0 else x <<< y.toNat,
     vWord 5 (srcRegs64 (.reg 6) ++ srcRegs (.reg 7)) fun c L => (c.w64 (.reg 6) L >>> ((c.w (.reg 7) L).toNat % 64)).setWidth 32,
     vWord3 5 (.reg 6) (.reg 7) fun _ _ z => z] = true := by decide

theorem wit_ShiftFieldAndBitResults_bits : allIssue base
    [vWord1 5 (.reg 6) fun x => x.clz, vWord 5 (srcRegs64 (.reg 6)) fun c L => (c.w64 (.reg 6) L).clz.setWidth 32,
     vWord3 5 (.reg 6) (.reg 7) fun x _ _ => x] = true := by decide

theorem wit_CompareSelectResults : allIssue base
    [vWord2 5 (.reg 6) (.reg 7) fun x y => if wordCond .ltS x y then 0xFFFFFFFF#32 else 0,
     vWord3 5 (.reg 6) (.reg 7) fun x y z => if z = 0 then y else x] = true := by decide

theorem wit_FloatVectorResults : allIssue base
    [vWord2 5 (.reg 6) (.reg 7) (natFn2 (fadd .f32 .rne)), vWord3 5 (.reg 6) (.reg 7) (natFn3 (ffma .f32 .rne)),
     vWord1 5 (.reg 6) (natFn1 (frndOp .rne))] = true := by decide

theorem wit_FloatSpecialResults : allIssue base
    [sWord2 5 (.reg 6) (.reg 7) (natFn2 (fdiv .rne)), sWord1 5 (.reg 6) (natFn1 (fsqrt .rne)),
     sPair 4 (srcRegs (.reg 6)) fun c L => BitVec.ofInt 64 (cvtiInt .s64 .rne (decodeF .f32 ((c.w (.reg 6) L).toNat % 2 ^ (fmtOf .f32).w))),
     sWord 5 (srcRegs64 (.reg 6)) fun c L => BitVec.ofNat 32 (cvtifInt .f32 .rne false (cvtifSrc .s64 (c.w64 (.reg 6) L).toNat)),
     sWord 5 (srcRegs (.reg 6) ++ srcRegs (.reg 7) ++ [5]) fun c L => c.rw 5 L] = true := by decide

/-- The patterns 1, -1, 2^23 and 2 of F32, and those that are no number, meet the hypotheses of the float statements. -/
theorem wit_FloatEncodeDecode : 0x3F800000 < 2 ^ (fmtOf .f32).w ∧ decodeF .f32 0x3F800000 = .fin false 0x800000 (-23) ∧
    decodeF .f32 0xBF800000 = .fin true 0x800000 (-23) ∧ decodeF .f32 0x7FC00000 = .nan ∧ decodeF .f32 0xFF800000 = .inf true ∧
    decodeF .f32 0x80000000 = .zero true ∧ decodeF .f32 0x4B000000 = .fin false 0x800000 0 ∧
    decodeF .f32 0x40000000 = .fin false (2 ^ 23) (-22) ∧
    ((decodeF .f32 0x3F800000).number ∧ (decodeF .f32 0x80000000).number ∧ (decodeF .f16 0x3C00).number ∧ (decodeF .bf16 0x3F80).number) ∧
    ((decodeF .f32 0x3F800000).units (-149) = 2 ^ 126 * 2 ^ 23 ∧ (decodeF .f32 0xBF800000).units (-149) = -(2 ^ 126 * 2 ^ 23)) :=
  ⟨by decide, by decide, by decide, by decide, by decide, by decide, by decide, by decide, ⟨trivial, trivial, trivial, trivial⟩, by decide⟩

theorem wit_FloatOrderRules : decodeF .f32 0x7FC00000 = .nan ∧ decodeF .f32 0x3F800000 ≠ .nan ∧ decodeF .f32 0x40000000 ≠ .nan ∧
    order32 0x3F800000 < order32 0x40000000 := by decide

theorem wit_LaneOperationResults : allIssue base
    [sWord 5 (srcRegs (.reg 6) ++ srcRegs (.reg 7)) fun c L => c.pick (.reg 6) L 0, sWord 5 (srcRegs (.reg 6)) fun c _ => c.w (.reg 6) 0,
     semFlred 5 (.reg 6) .add] = true := by decide

theorem wit_SpecialRegisterReads : allIssue base ([0x01, 0x08, 0x09, 0x0A, 0x0B, 0x0C, 0x0D, 0x0E, 0x11, 0x21].map fun k => semSreg 5 k) = true := by
  decide

/-! ### Decoding: a word of every row, its fields placed by hand as the spec gives them -/

/-- R17, R83 to R92. -/
def integerEncodings1 : List (List Nat × Instr) :=
  [([0x00000000], .nop),
   ([0x01082001], .mov 4 (.reg 8) true),
   ([0x02061C00], .sreg 3 7),
   ([0x030A1BCA], .iadd 5 (.reg 6) .zero .n32),
   ([0x040BE839], .isub 5 .one (.reg 7) .s32),
   ([0x050BEC38], .imul 5 .ones (.reg 7)),
   ([0x060A1839], .imulh 5 (.reg 6) (.reg 7) .n),
   ([0x070BF3E8], .imad 5 .lane .grp),
   ([0x08080839], .iadd64 4 (.reg 2) (.reg 7) .s32),
   ([0x09081FC1, 0x0000000C], .imad64 4 (.reg 7) (.lit 12) .s),
   ([0x0A020819], .imin 1 (.reg 2) (.reg 3) .n),
   ([0x0B020818], .imax 1 (.reg 2) (.reg 3) .s)]

def integerEncodings2 : List (List Nat × Instr) :=
  [([0x0C020819], .iabsd 1 (.reg 2) (.reg 3) .n),
   ([0x0DEFDA00], .land 119 (.reg 118) (.reg 64)),
   ([0x0EEFDA00], .lor 119 (.reg 118) (.reg 64)),
   ([0x0FEFDA00], .lxor 119 (.reg 118) (.reg 64)),
   ([0x10EFDA00], .landn 119 (.reg 118) (.reg 64)),
   ([0x11EFDA00], .shl 119 (.reg 118) (.reg 64)),
   ([0x12020819], .shr 1 (.reg 2) (.reg 3) .s),
   ([0x13020819], .shf 1 (.reg 2) (.reg 3) .l),
   ([0x14020819], .bfx 1 (.reg 2) (.reg 3) .s),
   ([0x15020818], .bfi 1 (.reg 2) (.reg 3)),
   ([0x16020801], .clz 1 (.reg 2) true),
   ([0x17020C00], .popc 1 (.reg 3) false)]

def integerEncodings3 : List (List Nat × Instr) :=
  [([0x18020800], .brev 1 (.reg 2)),
   ([0x19121839], .bitil 9 (.reg 6) (.reg 7) .x3),
   ([0x1A142400], .bitdl 10 (.reg 9) .x2),
   ([0x1B020C12], .icmps 1 (.reg 3) (.reg 2) .ltS),
   ([0x1C020C15], .icmpn 1 (.reg 3) (.reg 2) .leN),
   ([0x1D020C11], .sel 1 (.reg 3) (.reg 2) true),
   ([0x1E020C11], .bytsel 1 (.reg 3) (.reg 2) true)]

def integerEncodings : List (List Nat × Instr) := List.flatten [integerEncodings1, integerEncodings2, integerEncodings3]

theorem test_decode_integer : (integerEncodings.all fun e => match decodeWords e.1 with
    | .ok i => i == e.2
    | .error _ => false) = true := by decide

/-- R94 to R99. -/
def laneEncodings : List (List Nat × Instr) :=
  [([0x20020C12], .shfl 1 (.reg 3) (.reg 2) .down),
   ([0x21020C01], .ballot 1 (.reg 3) true),
   ([0x22061004], .lred 3 (.reg 4) .maxN),
   ([0x23061007], .lscan 3 (.reg 4) .xor),
   ([0x24061001], .lfirst 3 (.reg 4) true),
   ([0x25061001], .lmatch 3 (.reg 4) true),
   ([0x26061002], .flred 3 (.reg 4) .max)]

theorem test_decode_lane : (laneEncodings.all fun e => match decodeWords e.1 with
    | .ok i => i == e.2
    | .error _ => false) = true := by decide

/-- R100, R67, R68. -/
def controlEncodings1 : List (List Nat × Instr) :=
  [([0x28F50000], .br .one (-65536)),
   ([0x29140000], .brv 10),
   ([0x2A00FFFF], .split 65535),
   ([0x2B000000], .join),
   ([0x2C01FFFF], .call (-1)),
   ([0x2D002800], .callv 10),
   ([0x2E000800], .ret 2),
   ([0x2F000000], .exit),
   ([0x30001418], .pset 5 3),
   ([0x3101E000, 0x00000040], .sleep (.lit 64)),
   ([0x31001801], .sleepT (.reg 6)),
   ([0x31001402], .sleepB (.reg 5))]

def controlEncodings2 : List (List Nat × Instr) :=
  [([0x32000000], .yield),
   ([0x330003F8], .trap 127),
   ([0x34000000], .bkpt),
   ([0x35000000], .rett),
   ([0x360001FC], .waitc .link 63)]

def controlEncodings : List (List Nat × Instr) := List.flatten [controlEncodings1, controlEncodings2]

theorem test_decode_control : (controlEncodings.all fun e => match decodeWords e.1 with
    | .ok i => i == e.2
    | .error _ => false) = true := by decide

/-- R125, R135. -/
def floatEncodings1 : List (List Nat × Instr) :=
  [([0x380E23F2], .fadd 7 (.reg 8) .fone .rdn),
   ([0x390E23F2], .fmul 7 (.reg 8) .fone .rdn),
   ([0x3A0E23F2], .ffma 7 (.reg 8) .fone .rdn),
   ([0x3B0E2048], .fmin 7 (.reg 8) (.reg 9)),
   ([0x3C0E2048], .fmax 7 (.reg 8) (.reg 9)),
   ([0x3D0E204D], .fcmp 7 (.reg 8) (.reg 9) .ord),
   ([0x3E0E2001], .frnd 7 (.reg 8) .rtz),
   ([0x3F0E2002], .fclass 7 (.reg 8) .bf16),
   ([0x40081434], .padd2 4 (.reg 5) (.reg 6) true .rne),
   ([0x41081433], .pmul2 4 (.reg 5) (.reg 6) false .rup),
   ([0x42081437], .pfma2 4 (.reg 5) (.reg 6) true .rup),
   ([0x43081435], .pdot2 4 (.reg 5) (.reg 6) true .rtz)]

def floatEncodings2 : List (List Nat × Instr) :=
  [([0x44081431], .fdiv 4 (.reg 5) (.reg 6) .rtz),
   ([0x45081403], .frcp 4 (.reg 5) .rup),
   ([0x46081403], .frsq 4 (.reg 5) .rup),
   ([0x47081403], .fsqrt 4 (.reg 5) .rup),
   ([0x48081403], .fexp2 4 (.reg 5) .rup),
   ([0x49081403], .flog2 4 (.reg 5) .rup),
   ([0x4A081403], .fsinpi 4 (.reg 5) .rup),
   ([0x4B081403], .fcospi 4 (.reg 5) .rup),
   ([0x4C08169A], .cvtf 4 (.reg 5) .e4m3 .bf16 true .rdn),
   ([0x4D0815C9], .cvti 4 (.reg 5) .f16 .n64 .rtz),
   ([0x4E081768], .cvtif 4 (.reg 5) .e2m1 .n8 true .rne),
   ([0x4F081436], .cvtpk 4 (.reg 5) (.reg 6) .e5m2s)]

def floatEncodings : List (List Nat × Instr) := List.flatten [floatEncodings1, floatEncodings2]

theorem test_decode_float : (floatEncodings.all fun e => match decodeWords e.1 with
    | .ok i => i == e.2
    | .error _ => false) = true := by decide

/-- R146, R150, R155, R158, R161, R164, R165. -/
def memoryEncodings1 : List (List Nat × Instr) :=
  [([0x500822C7, 0xFFFFFFF0], .ld 4 8 (some 11) .b8 (some 0xFFFFFFF0) true true),
   ([0x510A23C9], .st 5 8 none .b16 none true),
   ([0x520A1C09], .lds 5 7 (some 0) .b16 none true),
   ([0x53081CE4, 0x00000010], .sts 4 7 (some 3) .b128 (some 16)),
   ([0x540C28D8], .ldb 6 10 (some 3) .b64 none false),
   ([0x550E28D0], .stb 7 10 (some 3) .b32 none),
   ([0x560C28DD, 0x00000008], .atom 6 10 (some 3) .b64 (some 8) true),
   ([0x570E27D0], .atoms 7 9 none .b32 none false),
   ([0x58101190], .cas 8 4 (some 6) .b32 none),
   ([0x591013E0], .cas128 8 4 none none),
   ([0x5A101059], .aminv 8 4 (some 1) none true),
   ([0x5B700003], .fence .system .sc)]

def memoryEncodings2 : List (List Nat × Instr) :=
  [([0x5C000188], .cachePref 6 (some 2) .l1),
   ([0x5C100189], .cacheFlush 6 (some 2) .cl),
   ([0x5C20018A], .cacheInv 6 (some 2) .l2),
   ([0x5D0003C1, 0x000000FF], .barInit 15 true 255),
   ([0x5D1120C1], .barArrive 9 3 true),
   ([0x5D2120C1], .barWait 9 3 true),
   ([0x5D3120C1], .barArrivewait 9 3 true),
   ([0x5D5120C1], .barQuery 9 3 true),
   ([0x5D4000C0], .barInv 3 false),
   ([0x5E00027D, 0x0000001F], .qpush 9 none true 31),
   ([0x5E112010, 0x00000003], .qpop 9 (some 4) false 3),
   ([0x5F21213C], .bkcfg 9 4 none .fifo)]

def memoryEncodings : List (List Nat × Instr) := List.flatten [memoryEncodings1, memoryEncodings2]

theorem test_decode_memory : (memoryEncodings.all fun e => match decodeWords e.1 with
    | .ok i => i == e.2
    | .error _ => false) = true := by decide

/-- R167. -/
def matrixEncodings : List (List Nat × Instr) :=
  [([0x60600000, 0x00007E74], .tcfg 3 0x7E74),
   ([0x61210400, 0x00000040], .tld 1 4 .buffer 64),
   ([0x62408307, 0x00000040], .tst 2 3 .scratch .system 64),
   ([0x63600985], .tmovv 3 9 5 true),
   ([0x647B8000], .mma 3 6 7),
   ([0x65200000, 0xFFFFFFF4], .mzero 1 (-12)),
   ([0x6654083F], .mdrain 2 5 8 31 true),
   ([0x67200C05], .mhad 1 0 12 .h32 true),
   ([0x68200C02], .msign 1 0 12 .h64),
   ([0x693C0000], .mquant 1 7),
   ([0x6A000000], .mbatch),
   ([0x6BC40000], .ttrans 6 1)]

theorem test_decode_matrix : (matrixEncodings.all fun e => match decodeWords e.1 with
    | .ok i => i == e.2
    | .error _ => false) = true := by decide

/-- R195, R197 to R200, R209. -/
def copyEncodings1 : List (List Nat × Instr) :=
  [([0x6C014084], .bnew 10 2 (some 1) false),
   ([0x6D0001C0], .bfree 7),
   ([0x6E0141FC], .bstat 10 7 none),
   ([0x6F02023C, 0x00040010], .cpy 16 8 none 0x40010),
   ([0x70020208, 0x001FFFFF], .cpyo 16 8 (some 2) 0x1FFFFF),
   ([0x7132033C, 0x00000200], .cpylRead 16 12 none 3 512),
   ([0x71120315, 0x00040000], .cpylWrite 16 12 (some 5) 1 262144),
   ([0x7201853C], .lrecBase 12 20 none),
   ([0x7211853C], .lrecScale 12 20 none),
   ([0x7221853C], .lrecSeed 12 20 none),
   ([0x7231A51C], .lrecChk 13 20 (some 7)),
   ([0x7400C23C], .thnew 6 8 none)]

def copyEncodings2 : List (List Nat × Instr) :=
  [([0x741001BC], .thfree 6 none),
   ([0x7420E1BC], .thqry 7 6 none),
   ([0x7500A1BF], .tacq 5 6 none .wrTest),
   ([0x76000180], .trel 6 (some 0)),
   ([0x761001BC], .tflush 6 none),
   ([0x7620E1BC, 0x00040002], .tsplit 7 6 none 2 4)]

def copyEncodings : List (List Nat × Instr) := List.flatten [copyEncodings1, copyEncodings2]

theorem test_decode_copy : (copyEncodings.all fun e => match decodeWords e.1 with
    | .ok i => i == e.2
    | .error _ => false) = true := by decide

/-- R221, R215, R220. -/
def rayEncodings1 : List (List Nat × Instr) :=
  [([0x7803023C], .rtrace 24 8 none),
   ([0x7813030C], .rany 24 12 (some 3)),
   ([0x7902823C], .rpin 20 8 none),
   ([0x7910023C], .runpin 8 none),
   ([0x7924033C], .rhit 32 12 none),
   ([0x7932823C], .rgenq 20 8 none),
   ([0x7A000224], .asbuild 8 (some 9)),
   ([0x7A100224], .asrefit 8 (some 9)),
   ([0x7A200224], .asrebal 8 (some 9)),
   ([0x7A300224], .asimport 8 (some 9)),
   ([0x7A400224], .aspubl 8 (some 9)),
   ([0x7A500224], .asstat 8 (some 9))]

def rayEncodings2 : List (List Nat × Instr) :=
  [([0x7A600224], .asqual 8 (some 9)),
   ([0x7A700224], .asrecl 8 (some 9)),
   ([0x7C00A000], .feat 5),
   ([0x7C10A000], .dfeat 5),
   ([0x7C20A000], .ckpt 5),
   ([0x7C30A200], .mbpost 5 8),
   ([0x7C40A0C0], .trapinfo 5 3),
   ([0x7D000000], .trcon),
   ([0x7D100000], .trcoff),
   ([0x7D200000, 0x0000002A], .trcmark 0x2A)]

def rayEncodings : List (List Nat × Instr) := List.flatten [rayEncodings1, rayEncodings2]

theorem test_decode_ray : (rayEncodings.all fun e => match decodeWords e.1 with
    | .ok i => i == e.2
    | .error _ => false) = true := by decide

/-! ### Ill-formed terms: at least one for each check of `Instr.wf` -/

/-- Register numbers: beyond 119, an odd pair, a group that is not aligned (R15, R16, R17). -/
theorem test_wf_registers : (([.iadd 120 (.reg 1) (.reg 2) .wrap, .iadd 1 (.reg 120) (.reg 2) .wrap, .iadd 1 (.reg 2) (.reg 120) .wrap,
   .mov 3 (.reg 4) true, .mov 4 (.reg 3) true, .iadd64 4 (.reg 2) (.reg 7) .b64, .iadd64 3 (.reg 2) (.reg 7) .s32,
   .imad64 5 (.reg 2) (.reg 7) .s, .shf 1 (.reg 3) (.reg 2) .r, .clz 1 (.reg 3) true, .popc 1 (.reg 3) true, .lmatch 1 (.reg 3) true,
   .brv 3, .callv 3, .ret 3, .ret 120, .sleepT (.reg 3), .cvti 5 (.reg 1) .f32 .s64 .rne, .cvtif 5 (.reg 1) .f32 .n64 false .rne,
   .ld 4 7 none .b32 none false false, .ld 5 8 none .b64 none false false, .st 6 8 none .b128 none false, .lds 4 120 none .b32 none false,
   .atom 5 8 none .b64 none false, .cas 9 4 none .b32 none, .cas 6 4 none .b64 none, .cas128 4 4 none none, .aminv 3 4 none none false] : List Instr).all
    fun i => !i.wf) = true := by decide

/-- Groups of four, eight and twelve registers, and pairs of the L-pipe words (R16, R200, R221). -/
theorem test_wf_groups : (([.cpy 15 8 none 0, .cpy 16 12 none 0, .cpyo 16 4 none 0, .cpylRead 16 6 none 0 16, .lrecBase 13 20 none,
   .lrecSeed 12 21 none, .lrecChk 12 21 none, .thnew 6 12 none, .rtrace 28 8 none, .rany 24 10 none, .rpin 20 9 none, .runpin 10 none,
   .rhit 34 12 none, .rgenq 21 8 none, .asbuild 9 none, .mbpost 5 10, .bnew 10 3 none false, .cacheInv 7 none .l1, .mhad 1 0 10 .h16 true,
   .mhad 1 0 4 .h16 false, .msign 1 0 10 .h16, .tld 1 5 .global 64, .tst 1 5 .buffer .group 64, .tmovv 1 120 0 false] : List Instr).all
    fun i => !i.wf) = true := by decide

/-- Literals, flags and the checks that tie fields together (R48, R52, R146). -/
theorem test_wf_literals : (([.iadd 1 (.lit 1) (.lit 2) .wrap, .iadd 1 (.lit 0x100000000) (.reg 2) .wrap, .mov 2 (.lit 0x100000000) true,
   .ld 4 8 none .b32 (some 0x100000000) false false, .st 4 8 (some 12) .b32 none false, .bstat 1 2 (some 15), .ld 4 8 none .b32 none true false,
   .ldb 4 8 none .b64 none true, .tld 1 4 .global 0x100000000, .br (.lit 1) 0, .br (.reg 1) 65536, .split (-65537), .call 65536] : List Instr).all
    fun i => !i.wf) = true := by decide

/-- Numbers in fields and literals (R37, R52, R67, R137, R159, R161, R164, R168, R200, R212, R218, R220). -/
theorem test_wf_numbers : (([.sreg 3 0x78, .pset 5 0, .pset 5 16, .trap 128, .waitc .copy 64, .cvti 4 (.reg 1) .e8m0 .s32 .rne,
   .cvtif 4 (.reg 1) .e8m0 .s32 false .rne, .barInit 16 false 1, .barInit 0 false 0, .barInit 0 false 256, .barArrive 1 16 false,
   .barWait 1 16 false, .barArrivewait 1 16 false, .barInv 16 false, .barQuery 1 16 false, .qpush 1 none false 32, .qpop 1 none false 32,
   .tcfg 8 0, .tcfg 3 0x20000, .tld 8 4 .global 64, .tmovv 1 3 128 false, .mma 4 0 0, .mma 0 8 0, .mma 0 0 8, .mzero 4 0, .mzero 0 (-2049),
   .mzero 0 2048, .mdrain 4 0 8 0 false, .mdrain 0 0 8 32 false, .mdrain 0 8 8 0 false, .mquant 8 0, .ttrans 0 8, .cpy 16 8 none 0x200000,
   .cpylRead 16 8 none 4 16, .cpylRead 16 8 none 0 0, .cpylWrite 16 8 none 0 8, .cpylWrite 16 8 none 0 262160, .tsplit 1 2 none 4 1,
   .tsplit 1 2 none 0 65536, .trapinfo 5 8, .trcmark 65536] : List Instr).all fun i => !i.wf) = true := by decide

/-- The terms whose words the decoding tests give are well-formed. -/
theorem test_wf_accepts : ((List.flatten [integerEncodings, laneEncodings, controlEncodings, floatEncodings, memoryEncodings, matrixEncodings, copyEncodings,
    rayEncodings]).all fun e => e.2.wf && e.2.isWord) = true := by decide

/-! ### Reset, and single steps with results worked out from the spec -/

theorem test_reset_canonical : Memory.wf State.reset.mem = true := by decide

/-- R311: no group and no team exists until a launch starts one. -/
theorem test_reset_no_group : State.reset.groups = [] ∧ State.reset.teams = [] := by decide

/-- R84: 0xFFFFFFFF + 2. -/
theorem test_iadd_wraps : pend (.iadd 5 (.reg 6) (.reg 7) .wrap) (setR base [(6, 0xFFFFFFFF), (7, 2)]) = [1] := by decide
/-- R84: the clamp of 0x7FFFFFFF + 1, and of 1 − 2 unsigned. -/
theorem test_iadd_saturates : pend (.iadd 5 (.reg 6) (.reg 7) .s32) (setR base [(6, 0x7FFFFFFF), (7, 1)]) = [0x7FFFFFFF] := by decide
theorem test_isub_saturates : pend (.isub 5 (.reg 6) (.reg 7) .n32) (setR base [(6, 1), (7, 2)]) = [0] := by decide
/-- R84: (−1 × −1) >> 32, and its unsigned form. -/
theorem test_imulh_signed : pend (.imulh 5 (.reg 6) (.reg 6) .s) (setR base [(6, 0xFFFFFFFF)]) = [0] := by decide
theorem test_imulh_unsigned : pend (.imulh 5 (.reg 6) (.reg 6) .n) (setR base [(6, 0xFFFFFFFF)]) = [0xFFFFFFFE] := by decide
/-- R85: `IMAD64.S32 v4:5, v7, 12` with v7 = 0xFFFFFFFF subtracts 12, with a borrow from the high word. -/
theorem test_imad64_example : pend (.imad64 4 (.reg 7) (.lit 12) .s) (setR base [(4, 4), (5, 1), (7, 0xFFFFFFFF)]) =
    [0xFFFFFFF8, 0] := by decide
/-- R86: no amount is reduced modulo 32. -/
theorem test_shr_signed_by_32 : pend (.shr 5 (.reg 6) (.reg 7) .s) (setR base [(6, 0x80000000), (7, 32)]) = [0xFFFFFFFF] := by decide
theorem test_shl_by_33 : pend (.shl 5 (.reg 6) (.reg 7)) (setR base [(6, 1), (7, 33)]) = [0] := by decide
theorem test_shf_left : pend (.shf 5 (.reg 6) (.reg 8) .l) (setR base [(6, 0x80000001), (7, 0x2), (8, 65)]) = [5] := by decide
/-- R87: a signed field of four bits at bit 30 takes sign bits above bit 31. -/
theorem test_bfx_past_31 : pend (.bfx 5 (.reg 6) (.reg 7) .s) (setR base [(6, 0x80000000), (7, 0x41E)]) = [0xFFFFFFFE] := by decide
/-- R89: the chapter's worked examples. -/
theorem test_bitil_example : pend (.bitil 9 (.reg 6) (.reg 7) .x3) (setR base [(6, 5), (7, 3), (9, 6)]) = [0x173] := by decide
theorem test_bitdl_example : pend (.bitdl 10 (.reg 9) .x3) (setR base [(9, 0x173)]) = [0x00600C05] := by decide
theorem test_clz_zero : pend (.clz 5 (.reg 6) true) (setR base [(6, 0), (7, 0)]) = [64] := by decide
theorem test_icmpn_unsigned : pend (.icmpn 5 (.reg 6) (.reg 7) .ltN) (setR base [(6, 1), (7, 0xFFFFFFFF)]) = [1] := by decide
theorem test_icmps_signed : pend (.icmps 5 (.reg 6) (.reg 7) .ltS) (setR base [(6, 1), (7, 0xFFFFFFFF)]) = [0] := by decide
/-- R127: 1.5 + 1.5, an overflow under RTZ, and Inf × 0. -/
theorem test_fadd : pend (.fadd 5 (.reg 6) (.reg 6) .rne) (setR base [(6, 0x3FC00000)]) = [0x40400000] := by decide
theorem test_fmul_rtz_overflow : pend (.fmul 5 (.reg 6) (.reg 6) .rtz) (setR base [(6, 0x7F000000)]) = [0x7F7FFFFF] := by decide
theorem test_fmul_inf_zero : pend (.fmul 5 (.reg 6) .zero .rne) (setR base [(6, 0x7F800000)]) = [0x7FC00000] := by decide
/-- R127: fused, so that the low bits of the product survive: (1 + 2^-23)^2 − (1 + 2^-22) = 2^-46. -/
theorem test_ffma_fused : pend (.ffma 5 (.reg 6) (.reg 6) .rne) (setR base [(5, 0xBF800002), (6, 0x3F800001)]) = [0x28800000] := by
  decide
theorem test_fmin_zero_order : pend (.fmin 5 (.reg 6) .zero) (setR base [(6, 0x80000000)]) = [0x80000000] := by decide
theorem test_fcmp_unordered : pend (.fcmp 5 (.reg 6) .fone .ne) (setR base [(6, 0x7FC00000)]) = [0xFFFFFFFF] := by decide
/-- R137: 2.5 to the nearest even integer. -/
theorem test_cvti_tie : pend (.cvti 5 (.reg 6) .f32 .s32 .rne) (setR base [(6, 0x40200000)]) = [2] := by decide
/-- R134: 1 / 3 and the root of 2, rounded to nearest. -/
theorem test_fdiv : pend (.fdiv 5 .fone (.reg 6) .rne) (setR base [(6, 0x40400000)]) = [0x3EAAAAAB] := by decide
theorem test_fsqrt : pend (.fsqrt 5 (.reg 6) .rne) (setR base [(6, 0x40000000)]) = [0x3FB504F3] := by decide
/-- R112, R40: BKPT has cause 0x12, and TRAP its code. -/
theorem test_bkpt_cause : causeOf .bkpt base = some 0x12 := by decide
theorem test_trap_cause : causeOf (.trap 5) base = some 0x85 := by decide

/-! ### Witnesses: control flow and traps -/

/-- Lane 0 with a target pair in v6:7. -/
def aimed (pc : Nat) : State := setR base [(6, pc), (7, 0)]

theorem wit_BranchMovesLanes : allIssue base [semBr .one 2, semBr .zero (-2), semBr (.reg 6) 1] = true := by decide
theorem wit_TransfersAndLinks : allIssue (aimed 0x8040) [semBrv 6, semRet 6, semCallv 6, semCall 2] = true := by decide

theorem wit_TransfersAndLinks_misaligned : ∀ link : Bool, (aimed 0x8041).cur = some (0, .a) ∧ slotReady (aimed 0x8041) 0 .a = true ∧
    (lrecOf (landed (aimed 0x8041) 0) 0).scoreboard = false ∧ 7 < (lrecOf (landed (aimed 0x8041) 0) 0).regs * 8 ∧
    canIssue (landed (aimed 0x8041) 0) 0 .a (soleCh (aimed 0x8041) 0 .a (semIndirect 6 link)) = true ∧
    (getGroup (landed (aimed 0x8041) 0) 0).marks = [] ∧ (slotNow (aimed 0x8041) 0 .a).mask.getLsbD 0 = true ∧
    (soleCtx (aimed 0x8041) 0 .a (semIndirect 6 link)).v64 6 0 % 64 ≠ 0 := by decide

/-- A slot at its join address, with its join record on the stack. -/
def joined : State :=
  withG base fun g => { g with a := { g.a with ja := g.a.pc, jd := 1 }, stack := [{ mask := 0, pc := 0, ja := 0, jd := 0 }] }

theorem wit_SplitAndJoin : allIssue base [semSplit 1] = true ∧ allIssue joined [semJoin] = true ∧ joinDepths (getGroup joined 0) ∧
    joinDepths (getGroup (soleStart base 0 .a (semSplit 1)) 0) := by unfold joinDepths; decide

theorem wit_StepKeepsJoinDepth : (∀ g ∈ joined.groups, joinDepths g.2) ∧ joined.groups ≠ [] ∧ (match step joined with
    | .next _ => true
    | _ => false) = true := by unfold joinDepths; decide

/-- A team with buffer 0 allocated: 512 bytes at offset 1,024 of its window, FREE. -/
def buffered (st : BufSt) : State :=
  modTeam base 0 fun t => { t with bufs := [(0, { alloc := true, off := 1024, size := 512, st := st })] }

theorem wit_SlotWordsComplete :
    allIssue base [semNop, semYield, semPset 3 1, semWaitc .copy 0, semSleep (.lit 5), semSleep .zero, semSleepT (.lit 9), semSleepT .zero] = true ∧
    allIssue (setR (buffered .full) [(6, 0x100)]) [semSleepB (.reg 6)] = true ∧
    allIssue (setR (buffered .filling) [(6, 0x100)]) [semSleepB (.reg 6)] = true ∧
    bufIdx? (setR (buffered .full) [(6, 0x100)]) 0 0x100 = some 0 := by decide

theorem wit_ExitFreesSlot : allIssue base [semExit] = true ∧ (getGroup (soleStart base 0 .a semExit) 0).trap = none := by decide

/-- A launch record changed. -/
def withRec (s : State) (f : LRec → LRec) : State := { s with launches := mapMod s.launches 0 fun l => { l with lr := f l.lr } }

theorem wit_TrapEntersHandler_word : semOf (.trap 5) = some (semTrap 5) := rfl
theorem wit_TrapEntersHandler : ((soleCause base 0 .a (semTrap 5)).any fun r =>
    (getGroup r.1 0).trap.isNone && (lrecOf r.1 0).handler != 0 && r.2.2.2.code != tPage && r.2.2.2.code != tPageLost &&
      r.2.2.2.code != tEmulate) = true := by decide

theorem wit_TrapAndBkptTrap : base.cur = some (0, .a) ∧ slotReady base 0 .a = true ∧
    canIssue (landed base 0) 0 .a (soleCh base 0 .a (semTrap 5)) = true ∧ canIssue (landed base 0) 0 .a (soleCh base 0 .a semBkpt) = true := by
  decide

/-- A handler that runs in slot A, with slot B held. -/
def handling : State := withG base fun g =>
  { g with trap := some { code := 0x85, res := 0x8040, pc := 0x8004 }, b := { pc := 0x8084, mask := 2, st := .held, prior := .active } }

theorem wit_RettReturns : allIssue handling [semRett] = true ∧ (getGroup (soleStart handling 0 .a semRett) 0).trap.isSome = true ∧
    ((getGroup (soleStart handling 0 .a semRett) 0).slot (otherSlot .a)).missed = none := by decide

theorem wit_ExitFreesSlot_handler : allIssue handling [semExit] = true ∧ (getGroup (soleStart handling 0 .a semExit) 0).trap.isSome = true ∧
    ((getGroup (soleStart handling 0 .a semExit) 0).slot (otherSlot .a)).missed = none ∧
    ((getGroup (soleStart handling 0 .a semExit) 0).slot (otherSlot .a)).st = .held := by decide

/-- A launch without a handler. -/
def bare : State := withRec base fun r => { r with handler := 0 }

theorem wit_TrapWithoutHandlerFaults : ((soleCause bare 0 .a (semTrap 5)).any fun r => (lrecOf r.1 0).handler == 0 &&
    (mapGet? r.1.ctxs (ctxNumOf r.1 0)).isSome && r.2.2.2.code != tPage && r.2.2.2.code != tPageLost && r.2.2.2.code != tEmulate) = true ∧
    ((soleCause handling 0 .a semBkpt).any fun r => (getGroup r.1 0).trap.isSome) = true := by decide

/-- A launch of eight registers, no tile and no accumulator. -/
def small : State := withRec base fun r => { r with regs := 1, tiles := 0, accs := 0 }

theorem wit_RegBoundTraps_word : semOf (.mov 8 .zero false) = some (semMov 8 .zero false) := rfl
theorem wit_RegBoundTraps : small.cur = some (0, .a) ∧ slotReady small 0 .a = true ∧
    (lrecOf (landed small 0) 0).regs * 8 ≤ 8 ∧ 8 ∈ (semMov 8 .zero false).writes ∧
    0 ∈ (semMquant 0 1).tiles ∧ (lrecOf (landed small 0) 0).tiles ≤ 0 ∧
    0 ∈ (semMzero 0 0).accs ∧ (lrecOf (landed small 0) 0).accs ≤ 0 := by decide

/-! ### Witnesses: loads, stores and atomics -/

/-- Lane 0 with the address 0x20000 - 0x1000 in v8:9 and an atomic's control word for ADD at DIE scope in v10. -/
def addressed : State := setR base [(8, 0x1F000), (9, 0), (10, 0x20)]

theorem wit_StoreWritesLanesBytes : allIssue addressed
    [semSt 4 8 none .b32 none false, semSt 4 8 (some 2) .b128 (some 0x100) false, semSt 4 8 none .b8 none true] = true := by decide

theorem wit_StoreWritesLanesBytes_nc : atIssue addressed (semSt 4 8 none .b32 none true) (fun c s =>
    decide (coreOf s c.gid < 128) && (lanePas s c (c.v64 8 0) 4 .write).all fun pa => homeOf pa == some 0) = true := by decide

theorem wit_LoadReadsLanesBytes : allIssue addressed
    [semLd 4 8 none .b32 none false false, semLd 4 8 (some 2) .b128 (some 0x100) false false, semLd 4 8 none .b8 none true true] = true := by
  decide

theorem wit_LoadReadsLanesBytes_one : atIssue addressed (semLd 4 8 none .b32 none false false) (fun c s =>
      let pas := lanePas s c (c.v64 8 0) 4 .read
      c.lanes == [0] && !crosses pas && (loadBytes? s (coreOf s c.gid) false pas).isSome) = true ∧
    atIssue addressed (semLd 4 8 none .b32 none false true) (fun c s =>
      let pas := lanePas s c (c.v64 8 0) 4 .read
      c.lanes == [0] && !crosses pas && (ncReady s (coreOf s c.gid) pas).2 &&
        (loadBytes? (ncReady s (coreOf s c.gid) pas).1 (coreOf s c.gid) true pas).isSome) = true := by decide

/-- Two lanes, the line of the first in the core's L1 and that of the second in no cache. -/
def halfCached : State := modCore (withG addressed fun g => { g with a := { g.a with mask := 3 }
                                                                     regs := mapSet (mapSet g.regs (vunit 8 1) 0x1F800) (vunit 9 1) 0 })
  0 fun k => { k with l1 := [(992, { present := 2 ^ 128 - 1 })] }

theorem wit_LoadReadsLanesBytes_split : allIssue halfCached [semLd 4 8 none .b32 none false false] = true ∧
    atIssue halfCached (semLd 4 8 none .b32 none false false) (fun c s =>
      let miss := c.lanes.filter fun L => !hitsCache s (coreOf s c.gid) (lanePas s c (c.v64 8 L) 4 .read)
      c.act != 0 && miss == [1] && c.lanes == [0, 1] && (c.g.slot .b).st == .free && (c.g.slot .a).pn == 0) = true := by decide

/-- Lane 0 with a window offset in v8, and the handle of buffer 0 with an offset in v12:13. -/
def windowed : State := setR (buffered .full) [(8, 512), (12, 0x100), (13, 64)]

theorem wit_WindowLoadsRead : allIssue windowed [semLds 4 8 none .b32 none false, semLds 4 8 (some 3) .b16 (some 4) true,
    semLdb 4 12 none .b32 none false, semLdb 4 12 (some 3) .b128 (some 16) false] = true := by decide
theorem wit_WindowStoresWrite : allIssue windowed [semSts 4 8 none .b32 none, semSts 4 8 (some 3) .b16 (some 4),
    semStb 4 12 none .b32 none, semStb 4 12 (some 3) .b128 (some 16)] = true := by decide

theorem wit_AtomicWords : allIssue addressed [semAtom 4 8 none .b32 none false, semAtom 4 8 (some 1) .b64 none true] = true ∧
    allIssue addressed [semCas 4 8 none .b32 none, semCas 4 8 (some 1) .b64 none, semCas128 16 8 none none,
      semAminv 4 8 none none false] = true ∧
    allIssue (setR base [(8, 512), (9, 0)]) [semAtoms 4 8 none .b32 none false, semAtoms 4 8 (some 2) .b64 none true] = true ∧
    winPoison (winOf base 0) (512 / 32 * 32) 32 = false := by decide

/-- The page of address 0 in host memory. -/
def hostPage (s : State) : State := modCore s 0 fun k =>
  { k with tlb := k.tlb.map fun e => { e with pa := 0x80000000000 / 131072, home := 5 } }

/-- A cache has nothing dirty of the byte that lane 0 accesses, in a state as an atomic's effect starts from it. -/
def cleanAt (c : Ctx) (s : State) (pa : Nat) : Bool :=
  (clGet (getCore s (coreOf s c.gid)).l1 (pa / 128)).dirty == 0 && (clGet (getCluster s (clusterOf (coreOf s c.gid))).cc (pa / 128)).dirty == 0

theorem wit_AtomicWords_host : allIssue (hostPage addressed) [semAtom 4 8 none .b32 none false] = true ∧
    atIssue (hostPage addressed) (semAtom 4 8 none .b32 none false) (fun c s =>
      let pa := (lanePas s c (c.v64 8 0) 4 .atomic).headD 0
      c.lanes == [0] && decide ((c.rw 10 c.lead).toNat / 128 % 8 < 2) && (c.g.op? c.g.nextOp).isNone && cleanAt c s pa && !poisoned s pa &&
        (List.range 4).all (fun i => homeOf (pa + i) == some 5) &&
        s.dies.all fun e => (List.range 4).all fun i => (clGet e.2.l2 ((pa + i) / 128)).dirty == 0) = true := by decide

theorem wit_AtomicWords_die : atIssue addressed (semAtom 4 8 none .b32 none false) (fun c s =>
      let pa := (lanePas s c (c.v64 8 0) 4 .atomic).headD 0
      c.lanes == [0] && decide ((c.rw 10 c.lead).toNat / 128 % 8 < 2) && homeOf pa == some 0 && cleanAt c s pa && !lostByte s pa &&
        decide (coreOf s c.gid < 128) && s.movedPages.isEmpty) = true := by decide

theorem wit_FenceAndCacheIssue : allIssue addressed
    [semFence .die .rel, semFence .system .sc, semCachePref 8 none .l1, semCachePref 8 (some 1) .l2, cacheSem 8 none .cl false,
     cacheSem 8 (some 1) .l1 true] = true := by decide

/-- The state after a FENCE. -/
def fenced : State := soleRan base 0 .a (semFence .die .rel)

theorem wit_FenceAndCacheIssue_over : ((getGroup fenced 0).slot .a).waits = [.fence .die .rel 0] ∧ ((getGroup fenced 0).slot .a).st = .active ∧
    ((getGroup fenced 0).slot .b).waits = [] ∧ quietFor (getGroup fenced 0) (.fence .die .rel 0) ∧ (fenceTry fenced 0 .a .die .rel 0).2 = true := by
  unfold quietFor; decide

theorem wit_FenceAndCacheIssue_lines : atIssue addressed (semCachePref 8 none .l1) (fun c s =>
      cacheLines s c 8 == [992] && canRead s (dieOfCore (coreOf s c.gid)) (992 * 128) && !lostByte s (992 * 128) &&
        homeOf (992 * 128) == some 0 && !poisoned s (992 * 128)) = true ∧
    atIssue addressed (cacheSem 8 none .l2 false) (fun c s => cacheLines s c 8 == [992]) = true := by decide

/-- Barrier word 2 with a value. -/
def barred (x : Nat) : State := setBar base 0 2 x

theorem wit_BarrierInitQueryInv : allIssue base [semBarInit 2 false 4] = true ∧
    allIssue (barred (4 + 2 ^ 24)) [semBarQuery 5 2 true, semBarInv 2 false] = true ∧ allIssue (barred (4 + 2 ^ 25)) [semBarInv 2 true] = true := by
  decide

theorem wit_BarrierArriveAndWait :
    allIssue (barred (4 + 2 ^ 24)) [semBarArrive 5 2 false, semBarArrivewait 5 2 false, semBarWait 5 2 false] = true ∧
    allIssue (barred (1 + 2 ^ 24)) [semBarArrive 5 2 false] = true ∧ allIssue (barred (4 + 2 ^ 16 + 2 ^ 24)) [semBarWait 5 2 false] = true ∧ allIssue (barred (4 + 2 ^ 25)) [semBarWait 5 2 false] = true := by decide

/-- Bank 3 of the group's cluster, the group's context's, in a mode. -/
def banked (m : BankMode) (q : List Word) : State :=
  modCluster (setR base [(6, 3), (8, 7)]) 0 fun k => setBank k 3 { mode := m, owner := some 0, fifo := q }

theorem wit_FifoAndBankWords : allIssue (banked .fifo []) [semQpush 8 none false 3, semQpush 8 (some 1) true 3] = true ∧
    allIssue (banked .fifo [9, 10]) [semQpop 5 none false 3, semQpop 5 (some 1) true 3, semBkcfg 5 6 none .cache] = true ∧
    allIssue (banked .cache []) [semBkcfg 5 6 (some 2) .fifo, semBkcfg 5 6 none .scratch] = true := by decide

/-! ### Witnesses: matrix, copies, tiles, rays, builders, system -/

/-- Tiles 0 and 1 of 8 rows of 64 E4M3, 2 and 3 of 8 rows of 32 F16, 4 of 8 rows of 32 scaled E4M3, 5 of 32 rows of 8 F16. -/
def tiled : State := withG (setR base [(8, 0x1F000), (12, 1024)]) fun g =>
  { g with tcfg := [(0, 0x7E74), (1, 0x7E74), (2, 0x3E76), (3, 0x3E76), (4, 0x13E74), (5, 0x0FF6)] }

theorem wit_MatrixWordsQueue : allIssue tiled
    [semTcfg 2 0x7E74, semTld 0 8 .global 64, semTld 0 12 .scratch 64, semTst 0 8 .global .die 64, semTmovv 0 8 0 true, semTmovv 0 8 0 false,
     semMma 1 0 1, semMzero 1 0, semMdrain 1 2 8 0 false, semMhad 2 3 0 .h16 false, semMhad 2 3 8 .h32 true, semMsign 2 3 8 .h16,
     semMquant 4 2, semTtrans 5 2, semMbatch] = true := by decide

/-- One matrix word on the matrix unit of the tiled group: tile 0 has one row of four bytes. -/
def queued (i : Instr) (pas : List (List Nat)) : State := withG base fun g =>
  { g with mq := [{ i := i, unit := 0, lanes := 1, vals := [], base := 0, aux := 0, pas := pas, cfgs := [(0, 0x0034)] }] }

/-- The instructions of `MatrixWordsQueue` that run whatever they find. -/
def freeWords : List Instr := [.tcfg 0 0x34, .mma 0 0 0, .mdrain 0 0 8 0 true, .mhad 0 0 8 .h16 true, .msign 0 0 8 .h16, .mquant 0 0, .ttrans 0 0,
  .tmovv 0 8 0 true, .tld 0 8 .scratch 64, .tst 0 8 .scratch .die 64]

theorem wit_MatrixWordsQueue_runs : ∀ i ∈ freeWords, (mapGet? (queued i []).groups 0).isSome = true ∧ calm (getGroup (queued i []) 0) ∧
    (match (getGroup (queued i []) 0).mq with
      | [w] => w.i == i && w.lanes != 0
      | _ => false) = true ∧ (mapGet? (queued i []).wins (teamOf (queued i []) 0).win).isSome = true := by unfold calm; decide

theorem wit_MatrixWordsQueue_global : let pas := [[0x1F000, 0x1F001, 0x1F002, 0x1F003]]
    anyPending (getGroup (queued (.tld 0 8 .global 64) pas) 0) = false ∧
    (∀ pa ∈ pas.flatten, lostByte (queued (.tld 0 8 .global 64) pas) pa = false ∧ poisoned (queued (.tld 0 8 .global 64) pas) pa = false ∧
      (coreByte? (queued (.tld 0 8 .global 64) pas) (coreOf (queued (.tld 0 8 .global 64) pas) 0) pa).isSome = true) ∧
    (∀ w ∈ (getGroup (queued (.tst 0 8 .global .die 64) pas) 0).mq, (runWord (bump (queued (.tst 0 8 .global .die 64) pas)) 0 w).2 = true) ∧
    3 ≤ Scope.die.code ∧ Scope.group.code < 3 ∧ (getGroup (queued (.tst 0 8 .global .die 64) pas) 0).tmarks.contains 0 = false ∧
    (∀ w ∈ (getGroup (queued (.tst 0 8 .global .group 64) pas) 0).mq, w.stored = false) := by decide

/-- A TMOVV of tile 0 into v8, with its operation. -/
def movingOut : State := withG (queued (.tmovv 0 8 0 false) []) fun g =>
  { g with mq := g.mq.map fun w => { w with op := some 0 }
           ops := [{ id := 0, pipe := 3, slot := .a, kind := .tile, units := (movOutVals g 0 8 0 1 [(0, 0x0034)]).map (·.1) }] }

theorem wit_MatrixWordsQueue_out : (match (getGroup movingOut 0).op? 0, (getGroup movingOut 0).mq with
    | some o, [w] => w.op == some 0 && decide (({ o with vals := movOutVals (getGroup movingOut 0) 0 8 0 w.lanes w.cfgs } : Op).units =
        (movOutVals (getGroup movingOut 0) 0 8 0 w.lanes w.cfgs).map (·.1)) &&
        decide ((movOutVals (getGroup movingOut 0) 0 8 0 w.lanes w.cfgs).map (·.1)).Nodup && o.drop.isEmpty && o.clash.isEmpty &&
        !(movOutVals (getGroup movingOut 0) 0 8 0 w.lanes w.cfgs).isEmpty
    | _, _ => false) = true := by decide

/-- A group with one MZERO on its matrix unit. -/
def zeroing : State := withG base fun g => { g with mq := [{ i := .mzero 1 5, unit := 0, lanes := 1, vals := [], base := 0, aux := 0 }] }

theorem wit_MzeroClears : (mapGet? zeroing.groups 0).isSome = true ∧ (getGroup zeroing 0).retired = false ∧
    ∃ w ∈ (getGroup zeroing 0).mq, w.i = .mzero 1 5 ∧ w.lanes ≠ 0 := ⟨rfl, rfl, _, List.mem_singleton.mpr rfl, rfl, by decide⟩

theorem wit_ResiduesHoldInteger : (-140703129108480 : Int) ≤ -140703129108480 ∧ (-140703129108480 : Int) ≤ 140703129108479 := by decide

theorem wit_BufferWords : allIssue (setR base [(8, 1024), (9, 512)]) [semBnew 5 8 none false, semBnew 5 8 (some 1) true] = true ∧
    allIssue (setR (buffered .full) [(6, 0x100)]) [semBfree 6, semBstat 5 6 none, semBstat 5 6 (some 3)] = true ∧
    bufIdx? (setR (buffered .full) [(6, 0x100)]) 0 0x100 = some 0 := by decide

/-- Bytes put in memory, 4 at a time. -/
def putW (s : State) (ws : List (Nat × Nat)) : State := { s with mem := putWords 4 s.mem ws }

/-- A layout record at 0x1F000: one dimension of 16 signed bytes at 0x1E000, the whole tensor in the box. -/
def recorded (s : State) : State := putW s
  [(0x1F000, 0x1E000), (0x1F024, 16), (0x1F028, 1), (0x1F02C, 1), (0x1F030, 1), (0x1F034, 0x10010), (0x1F038, 0x10001), (0x1F03C, 0x02)]

/-- An operand group in v8 to v15 that names the record, a handle and an origin of zeros. -/
def grouped (s : State) (h : Nat) : State := recorded (setR s [(8, 0x1F000), (9, 0), (10, h), (11, 0), (12, 0), (13, 0), (14, 0), (15, 0)])

/-- The context with a READY mailbox-free queue pair 1 to companion 8. -/
def linked (s : State) : State := modCtx s 0 fun x => { x with qps := [(1, { st := 1, peer := 8, rbase := 0x40000000000, wsize := 4 })] }

theorem wit_CopiesStart :
    allIssue (grouped (buffered .free) 0x100) [semCpy 4 8 none 0] = true ∧
    allIssue (grouped (buffered .full) 0x100) [semCpy 4 8 (some 1) 0, semCpyo 4 8 none 0] = true ∧
    allIssue (linked (setR (buffered .full) [(8, 0), (9, 0), (10, 0x100), (11, 0)])) [semCpylRead 4 8 none 1 64, semCpylWrite 4 8 (some 1) 1 64] = true := by
  decide +kernel

theorem wit_LayoutRecordReads : allIssue (grouped base 0)
    [semLrecBase 4 8 none, semLrecScale 4 8 (some 1), semLrecSeed 4 8 none, semLrecChk 4 8 none] = true := by decide

/-- The context with tile handle 0 in a state, and the handle in v6. -/
def handled (st : Nat) : State := modCtx (grouped (setR base [(6, 0x1000)]) 0) 0 fun x =>
  { x with handles := [(0, { box := { base := 0x1E000, fmt := 2, ext := [16, 1, 1, 1] }, pbox := { base := 0x1E000, fmt := 2, ext := [16, 1, 1, 1] },
                             st := st, alloc := true, home := if st = 0 then 0 else 5 })] }

theorem wit_TileHandleWords : allIssue (grouped base 0) [semThnew 5 8 none, semThnew 5 8 (some 2)] = true ∧
    allIssue (handled 0) [semThnew 5 8 none, semThfree 6 none, semThfree 6 (some 1), semThqry 5 6 none] = true ∧
    tileIdx? (handled 0) 0 0x1000 = some 0 := by decide +kernel

/-- The page of the handle's tensor in host memory. -/
def hosted : State := modCore (handled 0) 0 fun k =>
  { k with tlb := k.tlb.map fun e => if e.va = 0 then { e with pa := 0x80000000000 / 131072, home := 5 } else e }

theorem wit_TileTenureWords : allIssue (handled 0) [semTacq 5 6 none .rd, semTacq 5 6 (some 1) .wr, semTacq 5 6 none .rdTest] = true ∧
    allIssue hosted [semTacq 5 6 none .wr] = true ∧
    allIssue (handled 3) [relSem 6 none true, relSem 6 (some 1) false, semTsplit 5 6 none 0 4] = true ∧
    allIssue (handled 2) [relSem 6 none true, semTsplit 5 6 (some 1) 0 4] = true ∧
    homeOf ((lanePas hosted (soleCtx hosted 0 .a (semTacq 5 6 none .wr)) 0x1E000 1 .write).headD 0) = some 5 := by decide

/-- The tile handle of `handled` held by die 0 of die 1. -/
def away (st : Nat) : State := modCtx (handled st) 0 fun x => { x with handles := x.handles.map fun e => (e.1, { e.2 with home := 1 }) }

theorem wit_TileTenureWords_away : atIssue (handled 0) (semTacq 5 6 none .rd) (fun c s =>
      homeOf ((lanePas s c (boxLow (hEntry s (ctxNumOf s c.gid) 0).box) 1 (acqAcc .rd)).headD 0) == some 0 && decide (dieOf s c.gid < 4) &&
        s.movedPages.isEmpty) = true ∧
    allIssue (away 3) [relSem 6 none true, relSem 6 (some 1) false] = true ∧
    (hEntry (away 3) (ctxNumOf (away 3) 0) 0).home ≠ 5 ∧ (hEntry (away 3) (ctxNumOf (away 3) 0) 0).home ≠ (hEntry (away 3) (ctxNumOf (away 3) 0) 0).die := by
  decide +kernel

/-- An acceleration-structure header at 0x1F000 with pool 0x1E000 of 2 units, which publishes generation 1. -/
def structured : State := putW (setR base [(8, 0x1F000), (9, 0), (10, 1), (11, 0)])
  [(0x1F000, 0x47524E4F), (0x1F004, 1), (0x1F008, 0x1E000), (0x1F010, 2), (0x1F020, 1), (0x1F040, 1), (0x1F044, 1)]

theorem wit_RayWordsStart : allIssue structured
    [semRtrace 24 8 none, semRany 24 8 (some 1), semRhit 24 8 none, semRgenq 24 8 (some 1), semRpin 5 8 none] = true ∧
    allIssue (withG structured fun g => { g with pins := [(0x1F000, 1)] }) [semRunpin 8 none, semRunpin 8 (some 1), semRpin 5 8 (some 1)] = true := by
  decide +kernel

/-- The header of `structured`, in host memory, with a current generation and its PINS. -/
def pinnable (cur pins : Nat) : State := hostPage (putW (setR base [(8, 0x1F000), (9, 0), (10, 1), (11, 0)])
  [(0x8000001F000, 0x47524E4F), (0x8000001F004, cur), (0x8000001F008, 0x1E000), (0x8000001F010, 2), (0x8000001F020, 1), (0x8000001F040, 1),
   (0x8000001F044, 1), (0x8000001F048, pins)])

/-- What RPIN finds: the number of the published generation, its entry, PINS, and its bytes on a host page. -/
def pinLooks (cur pins : Nat) (i : Option Nat) : Bool := allIssue (pinnable cur pins) [semRpin 5 8 none] &&
  atIssue (pinnable cur pins) (semRpin 5 8 none) fun c s => match pinHdr s c (c.v64 8 c.lead) with
    | none => false
    | some (h, pas) => ((List.range 16).find? fun i => h.cur != 0 && ((h.gens[i]?).map (·.gen)) == some h.cur) == i &&
        ((h.gens[i.getD 0]?).map (·.pins)).getD 0 == pins && pas == (List.range 256).map (0x8000001F000 + ·)

theorem wit_RayWordsStart_distinct : ((List.range 256).map (0x8000001F000 + ·)).Nodup ∧ homeOf (0x8000001F000 + 72) = some 5 :=
  ⟨List.pairwise_map.mpr (List.nodup_range.imp fun h e => h (by simpa using e)), by decide⟩

theorem wit_RayWordsStart_pin : pinLooks 1 5 (some 0) = true ∧ pinLooks 1 0xFFFFFFFF (some 0) = true := by decide +kernel

theorem wit_RayWordsStart_unpublished : pinLooks 0 0 none = true := by decide +kernel

theorem wit_BuilderWordsQueue : allIssue (putW (setR base [(8, 0x1F000), (9, 0)]) [(0x1F000, 0x1E000)])
    [bldSem 0 8 none, bldSem 7 8 (some 3)] = true := by decide +kernel

/-- The context with a mirror, and a docked companion in port half 0. -/
def mirrored : State :=
  { modCtx base 0 (fun x => { x with mirror := { en := true, slot0 := 0x40000000000, slot1 := 0x40000010000, commit := 0x40000020000 } })
    with halves := [(0, { st := 4, ver := 3, agent := 8 })] }

theorem wit_SystemWords : allIssue base [semFeat 5, semDfeat 5, semCkpt 5] = true ∧ allIssue handling [semTrapinfo 5 0, semTrapinfo 5 7] = true ∧
    allIssue mirrored [semCkpt 5] = true ∧ allIssue (setR base [(8, 0x1F000), (9, 0), (10, 7)]) [semMbpost 5 8] = true := by decide

theorem wit_SystemWords_post : atIssue (setR base [(8, 0x1F000), (9, 0), (10, 7)]) (semMbpost 5 8) (fun c s =>
      let u := flushFor s c.gid c.sl .package
      let pas := lanePas u c (c.v64 8 c.lead) 64 .read
      !pas.any (poisoned (resolveLine u (pas.headD 0 / 128) false))) = true ∧
    atIssue { setR base [(8, 0x1F000), (9, 0), (10, 7)] with poison := [0x1F000 / 32] } (semMbpost 5 8) (fun c s =>
      let u := flushFor s c.gid c.sl .package
      let pas := lanePas u c (c.v64 8 c.lead) 64 .read
      pas.any (poisoned (resolveLine u (pas.headD 0 / 128) false))) = true ∧
    allIssue { setR base [(8, 0x1F000), (9, 0), (10, 7)] with poison := [0x1F000 / 32] } [semMbpost 5 8] = true := by decide

/-- The cluster's trace bank is the context's. -/
def traced : State := modCluster base 0 fun k => setBank { k with trace := { en := true, bank := 4, ring := 0x1E000, rsize := 1 } } 4
  { mode := .fifo, owner := some 0 }

theorem wit_TraceWords : allIssue base [semTrcon, semTrcoff, semTrcmark 5] = true ∧ allIssue traced [semTrcon, semTrcoff, semTrcmark 5] = true ∧
    traceCluster base 0 = none ∧ traceCluster traced 0 = some 0 := by decide

theorem wit_TraceWords_room : (let s := soleStart (withG traced fun g => { g with trace := { g.trace with on := true } }) 0 .a semTrcon
    traceCluster s 0 == some 0 && (getGroup s 0).trace.on && (getCluster s 0).trace.loss == 0 &&
      decide ((getBank (getCluster s 0) (getCluster s 0).trace.bank).fifo.length + 12 ≤ fifoCap)) = true := by decide

/-! ### Witnesses: encodings and steps -/

/-- Memory with one byte set has its form, and a step from it answers a next state. -/
theorem wit_StepKeepsMemoryForm : Memory.wf base.mem = true ∧ base.mem ≠ [] ∧ (match step base with
    | .next _ => true
    | _ => false) = true := by decide

theorem wit_RoundTrip : (Instr.iadd 5 (.reg 6) (.lit 7) .s32).wf = true ∧ (Instr.iadd 5 (.reg 6) (.lit 7) .s32).isWord = true := by decide

theorem wit_StepRunsDecoded : base.agenda = [] ∧ 6 ≤ base.phase ∧ base.cur = some (0, .a) ∧ base.idling = false ∧ slotGoes base 0 .a = true ∧
    (match (fetch base 0 .a).2 with
      | .chain 0 [(1, .nop)] => true
      | _ => false) = true := by decide
theorem wit_StepRunsDecoded_word : decodeWords [0x030A1BC0, 0xDEADBEEF] = .ok (.iadd 5 (.reg 6) (.lit 0xDEADBEEF) .wrap) ∧
    consumesLit 0x030A1BC0 = true ∧ decodeWords [0x030A1839, 0] = .ok (.iadd 5 (.reg 6) (.reg 7) .s32) := ⟨rfl, rfl, rfl⟩

theorem wit_StepRunsDecoded_trim : trim base = base := by decide

/-- The state before a step that fetches a word. -/
def fetching (w : Nat) : State := bootWith State.reset w

/-- The slot at an address. -/
def standing (pc : Nat) : State := withG base fun g => { g with a := { g.a with pc := pc } }

theorem wit_FetchCausesTrap : slotReady (standing 0x8000) 0 .a = true ∧ ((getGroup (standing 0x8000) 0).slot .a).pc / 4 % 4 = 0 ∧
    (standing 0x20004).cur = some (0, .a) ∧ slotReady (standing 0x20004) 0 .a = true ∧
    (match (fetch (standing 0x20004) 0 .a).2 with
      | .early _ _ => true
      | _ => false) = true ∧ slotReady (fetching 0x7E000000) 0 .a = true ∧
    (match (fetch (fetching 0x7E000000) 0 .a).2 with
      | .bad _ _ _ => true
      | _ => false) = true := by decide

theorem wit_RegisterWordFrame_word : semOf (.iadd 5 (.reg 6) (.reg 7) .wrap) = some (semIadd 5 (.reg 6) (.reg 7) .wrap) := rfl
theorem wit_RegisterWordFrame : (semIadd 5 (.reg 6) (.reg 7) .wrap).pipe < 2 ∧ Issues base 0 .a (semIadd 5 (.reg 6) (.reg 7) .wrap) ∧
    settled (soleEff base 0 .a (semIadd 5 (.reg 6) (.reg 7) .wrap)) 0 ∧
    groupDone (getGroup (soleEff base 0 .a (semIadd 5 (.reg 6) (.reg 7) .wrap)) 0) = false := by
  unfold settled; decide

/-! ### Witnesses: operations, paths, engines, walks -/

/-- The group with one operation. -/
def pending (o : Op) : State := withG { base with cyc := [(0, 9)] } fun g => { g with ops := [o], nextOp := 1 }

/-- An operation that is to write 7 to v5 of lane 0. -/
def sevenOp (pipe : Nat) : Op :=
  { id := 0, pipe := pipe, slot := .a, kind := .result, units := [vunit 5 0], vals := [(vunit 5 0, 7, false)] }

theorem wit_OperationsComplete_v : (mapGet? (pending (sevenOp 0)).groups 0).isSome = true ∧
    ((getGroup (pending (sevenOp 0)) 0).ops.filter fun o => o.pipe == 0 && decide (o.due < cycOf (pending (sevenOp 0)) 0)) = [sevenOp 0] ∧
    (getGroup (pending (sevenOp 0)) 0).op? 0 = some (sevenOp 0) ∧ (sevenOp 0).plain := by unfold Op.plain; decide

theorem wit_OperationsComplete_sl : ∀ p, p = 1 ∨ p = 2 → (getGroup (pending (sevenOp p)) 0).op? 0 = some (sevenOp p) ∧
    (sevenOp p).done = false ∧ (sevenOp p).plain ∧ quietFor (getGroup (pending (sevenOp p)) 0) (.op 0) ∧ (sevenOp p).pipe = p ∧
    (sevenOp p).kind = .result ∧ (sevenOp p).flt = none ∧ (sevenOp p).cls = none := by
  intro p h; unfold Op.plain quietFor; rcases h with rfl | rfl <;> decide

/-- A store that names flag 2. -/
def storeOp : Op := { id := 0, pipe := 2, slot := .a, kind := .store false [992] [(0x1F000, 5)], flag := some 2 }

theorem wit_OperationsComplete_store : (getGroup (pending storeOp) 0).op? 0 = some storeOp ∧ storeOp.done = false ∧ storeOp.plain ∧
    quietFor (getGroup (pending storeOp) 0) (.op 0) ∧ storeOp.kind = .store false [992] [(0x1F000, 5)] ∧ storeOp.vals = [] := by
  unfold Op.plain quietFor; decide

/-- A store with NC that holds a piece, and one to the window. -/
def pieceOp (k : OpKind) : Op := { storeOp with kind := k }

theorem wit_OperationsComplete_pieces : ∀ k ∈ [OpKind.store true [992] [(0x1F000, 5)], .wstore [(512, 5)]],
    let s := pending (pieceOp k)
    (getGroup s 0).op? 0 = some (pieceOp k) ∧ (pieceOp k).done = false ∧ (pieceOp k).plain ∧ quietFor (getGroup s 0) (.op 0) ∧
    (pieceOp k).vals = [] ∧ canWrite s (dieOfCore (coreOf s 0)) 0x1F000 = true ∧ lostByte s 0x1F000 = false ∧
    releasing (getDie s (dieOfCore (coreOf s 0))) (0x1F000 / 128) = false ∧ (clGet (getCore s (coreOf s 0)).l1 992).dirtyOffs = [] ∧
    (clGet (getCluster s (clusterOf (coreOf s 0))).cc 992).dirtyOffs = [] ∧ homeOf 0x1F000 = some 0 := by unfold Op.plain quietFor; decide

/-- A byte load of lane 0 from the window. -/
def windowOp : Op :=
  { id := 0, pipe := 2, slot := .a, kind := .wload 1 false [{ lane := 0, pas := [512] }], units := [vunit 5 0], dst := 5 }

theorem wit_OperationsComplete_window : (getGroup (pending windowOp) 0).op? 0 = some windowOp ∧ windowOp.done = false ∧ windowOp.pipe = 2 ∧
    windowOp.flt = none ∧ windowOp.cls = none ∧ windowOp.vals = [] ∧ quietFor (getGroup (pending windowOp) 0) (.op 0) ∧
    ({ windowOp with vals := loadVals 1 false 5 0 [(0, false)] } : Op).plain := by unfold Op.plain quietFor; decide

/-- A byte load of lane 0 from 0x1F000 to v5. -/
def loadOp : Op :=
  { id := 0, pipe := 2, slot := .a, kind := .load 1 false false [{ lane := 0, pas := [0x1F000] }], units := [vunit 5 0], dst := 5 }

/-- An atomic of lane 0 whose old value has come back. -/
def atomOp : Op :=
  { id := 0, pipe := 2, slot := .a, kind := .atomic 0 4 4 0 [(0, 0x1F000, [1, 0, 0, 0])] [(0, 3)] [(0, [9, 0, 0, 0])], units := [vunit 5 0], dst := 5 }

theorem wit_OperationsComplete_load : (getGroup (pending loadOp) 0).op? 0 = some loadOp ∧ loadOp.done = false ∧ loadOp.pipe = 2 ∧
    loadOp.flt = none ∧ loadOp.cls = none ∧ loadOp.vals = [] ∧ quietFor (getGroup (pending loadOp) 0) (.op 0) ∧
    loadBytes? (pending loadOp) (coreOf (pending loadOp) 0) false [0x1F000] = some [(0, false)] ∧
    ({ loadOp with vals := loadVals 1 false 5 0 [(0, false)] } : Op).plain := by unfold Op.plain quietFor; decide

theorem wit_OperationsComplete_atom : (getGroup (pending atomOp) 0).op? 0 = some atomOp ∧ atomOp.done = false ∧ atomOp.pipe = 2 ∧
    atomOp.flt = none ∧ atomOp.cls = none ∧ atomOp.vals = [] ∧ quietFor (getGroup (pending atomOp) 0) (.op 0) ∧
    poisoned (pending atomOp) 0x1F000 = false ∧ atomOp.units ≠ [] ∧
    ({ atomOp with vals := loadVals 4 false 5 0 ([9, 0, 0, 0].map fun b => (b, false)) } : Op).plain := by unfold Op.plain quietFor; decide

/-- Slot A waits. -/
def waiting (st : SlotSt) (w : Wait) : State := withG { base with cyc := [(0, 9)], tb := 50 } fun g => { g with a := { g.a with st := st, waits := [w] } }

theorem wit_OperationsComplete_fence : ((getGroup (waiting .active (.fence .die .rel 0)) 0).slot .a).waits = [.fence .die .rel 0] ∧
    ((getGroup (waiting .active (.fence .die .rel 0)) 0).slot .a).st = .active ∧
    quietFor (getGroup (waiting .active (.fence .die .rel 0)) 0) (.fence .die .rel 0) ∧
    (fenceTry (waiting .active (.fence .die .rel 0)) 0 .a .die .rel 0).2 = true ∧
    ((getGroup (waiting .active (.fence .die .rel 0)) 0).slot .b).waits = [] := by unfold quietFor; decide

/-- A performed store with NC, one with a piece left, a CACHE.PREF and a CACHE.FLUSH, on flag 2. -/
def lineOp (k : OpKind) : Op := { id := 0, pipe := 2, slot := .a, kind := k, flag := some 2 }

theorem wit_OperationsComplete_lines : ∀ k ∈ [OpKind.store true [992] [], .store false [992] [(0x1F000, 5)], .prefetch .l1 [992], .cacheOp true .l2 [992]],
    (getGroup (pending (lineOp k)) 0).op? 0 = some (lineOp k) ∧ (lineOp k).done = false ∧ (lineOp k).plain ∧
    quietFor (getGroup (pending (lineOp k)) 0) (.op 0) ∧ (lineOp k).kind = k ∧ (lineOp k).vals = [] := by unfold Op.plain quietFor; decide

theorem wit_OperationsComplete_done : let s := pending (lineOp (.store true [992] []))
    (clGet (getCore s (coreOf s 0)).l1 992).dirtyOffs = [] ∧ (clGet (getCluster s (clusterOf (coreOf s 0))).cc 992).dirtyOffs = [] ∧
    canRead s (dieOfCore (coreOf s 0)) (992 * 128) = true ∧ (cacheTry s (coreOf s 0) true .l2 [992]).2 = [] := by decide

/-- An answered TACQ, and a finished RUNPIN. -/
def answered (k : OpKind) : Op := { sevenOp 2 with kind := k, status := 1 }

theorem wit_OperationsComplete_answered : ∀ k ∈ [OpKind.tacq 0 .rd, .runpin], (getGroup (pending (answered k)) 0).op? 0 = some (answered k) ∧
    (answered k).done = false ∧ (answered k).plain ∧ quietFor (getGroup (pending (answered k)) 0) (.op 0) ∧ (answered k).pipe = 2 ∧
    (answered k).status = 1 ∧ (pending (answered k)).unpins = [] ∧ (answered k).flt = none ∧ (answered k).cls = none := by unfold Op.plain quietFor; decide

/-- A byte load of two lanes. -/
def loadsOp : Op := { loadOp with kind := .load 1 false false [{ lane := 0, pas := [0x1F000] }, { lane := 1, pas := [0x1F001] }],
                                  units := [vunit 5 0, vunit 5 1] }

theorem wit_OperationsComplete_loads : let q := (takeLoad (pending loadsOp) 0 loadsOp 1 false false [{ lane := 0, pas := [0x1F000] }, { lane := 1, pas := [0x1F001] }]).2
    (getGroup (pending loadsOp) 0).op? 0 = some loadsOp ∧ loadsOp.vals = [] ∧ q.kind = .result ∧ ({ loadsOp with vals := q.vals } : Op).plain := by
  unfold Op.plain; decide

/-- An RHIT or RGENQ of lane 0 on a header that names no structure. -/
def structOp (k : OpKind) (n : Nat) : Op :=
  { id := 0, pipe := 2, slot := .a, kind := k, dst := 24, units := (List.range n).map fun r => vunit (24 + r) 0 }

/-- The values that it is to write: zeros, and in the last register a status. -/
def structGives (n : Nat) (st : Word) : List (Nat × Word × Bool) := (List.range n).map fun r => (vunit (24 + r) 0, if r + 1 = n then st else 0, false)

/-- It reads those values. -/
def structReads (k : OpKind) (n : Nat) (st : Word) : Bool :=
  (getGroup (pending (structOp k n)) 0).op? 0 == some (structOp k n) && match structVals (pending (structOp k n)) 0 (structOp k n) with
    | .ok vals => vals == structGives n st
    | .error _ => false

theorem wit_OperationsComplete_structure : structReads (.rhit [(0, 0x1F000, 1, 0)]) 12 4 = true ∧ structReads (.rgenq [(0, 0x1F000, 1)]) 2 0 = true ∧
    ({ structOp (.rhit [(0, 0x1F000, 1, 0)]) 12 with vals := structGives 12 4 } : Op).plain ∧
    quietFor (getGroup (pending (structOp (.rhit [(0, 0x1F000, 1, 0)]) 12)) 0) (.op 0) := by
  unfold Op.plain quietFor; decide +kernel

theorem wit_PathsWake_time : ∀ w, w = .cycle 4 ∨ w = .time 40 → ((getGroup (waiting .sleep w) 0).slot .a).st = .sleep ∧
    ((getGroup (waiting .sleep w) 0).slot .a).waits = [w] ∧ 4 ≤ cycOf (waiting .sleep w) 0 ∧
    40 ≤ ctxTime (waiting .sleep w) (ctxOf (waiting .sleep w) 0) ∧ (teamOf (waiting .sleep w) 0).saved = false ∧
    (teamOf (waiting .sleep w) 0).preempt = none ∧
    (getGroup (waiting .sleep w) 0).stack = [] ∧ ((getGroup (waiting .sleep w) 0).slot .b).st = .free := by
  intro w h; rcases h with rfl | rfl <;> decide

theorem wit_PathsWake_miss : ((getGroup (waiting .sleep (.buffer 0x100 0x8004 1)) 0).slot .a).st = .sleep ∧
    (teamOf (waiting .sleep (.buffer 0x100 0x8004 1)) 0).saved = false ∧
    (teamOf (waiting .sleep (.buffer 0x100 0x8004 1)) 0).preempt = none ∧
    (getGroup (waiting .sleep (.buffer 0x100 0x8004 1)) 0).emulates = false ∧
    (bufOf (waiting .sleep (.buffer 0x100 0x8004 1)) 0 (0x100 % 256)).promise ≤
      ctxTime (waiting .sleep (.buffer 0x100 0x8004 1)) (ctxOf (waiting .sleep (.buffer 0x100 0x8004 1)) 0) ∧
    (bufOf (waiting .sleep (.buffer 0x100 0x8004 1)) 0 (0x100 % 256)).st ≠ .full ∧
    (getGroup (waiting .sleep (.buffer 0x100 0x8004 1)) 0).trap = none ∧ (lrecOf (waiting .sleep (.buffer 0x100 0x8004 1)) 0).handler ≠ 0 := by
  decide

theorem wit_PathsWake_emulate : ((getGroup (waiting .active .emulate) 0).slot .a).waits.contains .emulate = true ∧
    (match fetch (emulReady (waiting .active .emulate) 0 .a) 0 .a with
      | (s, .chain cw is) => (issueChain { s with word := cw } 0 .a (chainOf is)).isSome
      | _ => false) = true := by decide

/-- A copy of a box that lies outside its tensor, into buffer 0. -/
def farCopy : CopyDesc := { handle := 0x100, text := [16, 1, 1, 1], box := { fmt := 2, org := [64, 0, 0, 0], ext := [16, 1, 1, 1] } }

/-- The group with that copy on its engine. -/
def copying : State := { pending { id := 0, pipe := 2, slot := .a, kind := .copy farCopy, cls := some .copy } with teams := (buffered .filling).teams }

theorem wit_EnginesComplete_copy : (getGroup copying 0).op? 0 = some { id := 0, pipe := 2, slot := .a, kind := .copy farCopy, cls := some .copy } ∧
    farCopy.wr = false ∧ farCopy.bad = false ∧ bits farCopy.word 5 4 = 0 ∧ bits farCopy.word 20 18 = 0 ∧ copyRuns farCopy = [] ∧
    (∀ e ∈ copying.groups, e.2.a.waits = [] ∧ e.2.b.waits = []) ∧ (∀ p ∈ (getGroup copying 0).ops, accessOp p = false) ∧
    quietFor (getGroup copying 0) (.op 0) ∧ (mapGet? copying.wins (teamOf copying 0).win).isSome = true ∧
    (bufOf copying 0 (farCopy.handle % 256)).serial = bits farCopy.handle 11 8 ∧ (mapGet? copying.teams (getGroup copying 0).team).isSome = true := by
  unfold quietFor; decide

/-- A ray of lane 0 along z on a header that names no structure. -/
def oneRay : Ray := { lane := 0, hdr := 0x1F000, gen := 0, flags := 0, o := [0, 0, 0], tmin := 0, dir := [0, 0, 0x3F800000], tmax := 0x7F800000 }

/-- Its traversal. -/
def rayOp : Op :=
  { id := 0, pipe := 2, slot := .a, kind := .ray false [oneRay], cls := some .ray, dst := 24, units := (List.range 8).map fun r => vunit (24 + r) 0 }

theorem wit_EnginesComplete_ray : (getGroup (pending rayOp) 0).op? 0 = some rayOp ∧ rayOp.done = false ∧ rayOp.flt = none ∧
    (match rayVals (pending rayOp) 0 rayOp false [oneRay] with
      | .ok vals => vals.all (fun v => rayOp.wanted v.1) && decide (vals.map (·.1)).Nodup && decide (vals.length = 8)
      | .error _ => false) = true ∧ quietFor (getGroup (pending rayOp) 0) (.op 0) := by unfold quietFor; decide

/-- A builder request for statistics of a header that names no structure. -/
def statReq : BReq := { fn := 5, hdr := 0x1F000, block := 0x1E000 }

theorem wit_EnginesComplete_build :
    mapGet? (getDie (modDie base 0 fun d => { d with bq := [statReq] }) 0).serving 0 = none ∧
    nextRequest (modDie base 0 fun d => { d with bq := [statReq] }) 0 = some statReq ∧
    mapGet? (getDie (modDie base 0 fun d => { d with serving := [(0, statReq)] }) 0).serving 0 = some statReq ∧
    (match finishRequest (modDie base 0 fun d => { d with serving := [(0, statReq)] }) statReq with
      | .ok u => u.ctxs.all fun x => x.2.moving == none
      | .error _ => false) = true := by decide

/-- A copy of 16 bytes at 0x1E000, in or out, into or from buffer 0. -/
def nearCopy (wr : Bool) : CopyDesc :=
  { handle := 0x100, text := [16, 1, 1, 1], box := { base := 0x1E000, fmt := 2, org := [0, 0, 0, 0], ext := [16, 1, 1, 1] }, wr := wr }

/-- The group with one engine operation on buffer 0, and its page in host memory. -/
def engaged (k : OpKind) (cls : EngClass) (st : BufSt) : State :=
  { putWords8 (pending { id := 0, pipe := 2, slot := .a, kind := k, cls := some cls }) with teams := (buffered st).teams }
where
  putWords8 (s : State) : State := { s with mem := putWords 8 s.mem [(0x4000, 0x8000000017F)] }

theorem wit_EnginesComplete_run : ∀ wr : Bool, let s := engaged (.copy (nearCopy wr)) .copy (if wr then .draining else .filling)
    let acc : Acc := if wr then .engWrite else .engRead
    ((getGroup s 0).op? 0).map (·.kind) = some (.copy (nearCopy wr)) ∧ bits (nearCopy wr).word 5 4 = 0 ∧ bits (nearCopy wr).word 20 18 = 0 ∧
    (∀ p ∈ (getGroup s 0).ops, accessOp p = false ∧ p.done = false ∧ p.flt = none ∧ p.failed = []) ∧
    (∀ e ∈ s.groups, e.2.a.waits = [] ∧ e.2.b.waits = []) ∧ quietFor (getGroup s 0) (.op 0) ∧
    (mapGet? s.wins (teamOf s 0).win).isSome = true ∧ (mapGet? s.teams (getGroup s 0).team).isSome = true ∧
    (bufOf s 0 (0x100 % 256)).serial = bits 0x100 11 8 ∧ s.served = [] ∧ (nearCopy wr).bad = false ∧ (nearCopy wr).moved = [] ∧
    runPieces s (ctxOf s 0) acc (copyRuns (nearCopy wr)) = [({ img := 0, va := 0x1E000, n := 16 }, none)] := by
  unfold quietFor; decide

theorem wit_EnginesComplete_bytes : ∀ wr : Bool, let s := engaged (.copy (nearCopy wr)) .copy (if wr then .draining else .filling)
    let acc : Acc := if wr then .engWrite else .engRead
    let pas := engPas s (ctxOf s 0) 0x1E000 16 acc
    let u := engMark s (ctxOf s 0) 0x1E000 16 acc
    pas.Nodup ∧ (getWin s (teamOf s 0).win).poison = [] ∧ (sectorsOf pas).length < 2 ∧
    ∀ pa ∈ pas, homeOf pa = some 5 ∧ poisoned u pa = false ∧ (clGet (getCore s (coreOf s 0)).l1 (pa / 128)).dirty = 0 ∧
      (clGet (getCluster s (clusterOf (coreOf s 0))).cc (pa / 128)).dirty = 0 := by decide +kernel

/-- The same with a CPYL on queue pair 1, a pair of memory or a mailbox. -/
def linking (wr mbox : Bool) : State :=
  { modCtx (engaged (.link 1 0 0x100 0 64 0 wr false) .link (if wr then .draining else .filling)) 0 (fun x =>
      { x with qps := [(1, { st := 1, peer := 8, kind := b2n mbox, rbase := 0x1E000, wsize := 1, cred := 8 })] })
    with halves := [(0, { st := 4, ver := 3, agent := 8 })] }

theorem wit_EnginesComplete_link : ∀ wr mbox : Bool, ((getGroup (linking wr mbox) 0).op? 0).map (·.kind) = some (.link 1 0 0x100 0 64 0 wr false) ∧
    released (linking wr mbox) 0 0 [] .pair = (linking wr mbox, true) ∧ (∀ e ∈ linksOf (linking wr mbox) (ctxNumOf (linking wr mbox) 0) 1, 0 ≤ linkSeq e.2) ∧
    (getQp (linking wr mbox) (ctxNumOf (linking wr mbox) 0) 1).st = 1 ∧ (getQp (linking wr mbox) (ctxNumOf (linking wr mbox) 0) 1).kind = b2n mbox ∧
    creditsOf 64 ≤ (getQp (linking wr mbox) (ctxNumOf (linking wr mbox) 0) 1).cred ∧
    halfOfAgent (linking wr mbox) (getQp (linking wr mbox) (ctxNumOf (linking wr mbox) 0) 1).peer = some 0 ∧
    (bufOf (linking wr mbox) 0 (0x100 % 256)).serial = bits 0x100 11 8 ∧
    winPoison (getWin (linking wr mbox) (teamOf (linking wr mbox) 0).win) 1024 64 = false ∧ (bufOf (linking wr mbox) 0 (0x100 % 256)).off = 1024 ∧
    ∀ i, i < 64 → poisoned (linking wr mbox) (0x1E000 + 0 + i) = false := by decide +kernel

theorem wit_WalkFillsOrReports : (getCtx base 0).st ≠ 0 ∧ tlbFind { base with cores := [] } 0 (getCtx base 0) 0x1F000 = none ∧
    (match walk { base with cores := [] } (getCtx base 0) 0x1F000 with
      | .ok _ => true
      | .error _ => false) = true ∧
    (match walk base (getCtx base 0) 0x20000 with
      | .ok _ => false
      | .error f => decide (f.cause < 2)) = true := by decide

theorem wit_WalkFillsOrReports_tlb : tlbLook (getCluster { base with cores := [] } (clusterOf 0)).tlb (getCtx base 0) 0x1F000 = none := by decide

/-! ### Witnesses: tenure -/

/-- A message of a type from agent 1 is due at die 0. -/
def arriving (type : Nat) (body : List Byte) : State := { State.reset with chans := [(16, { whole := [(0, { type := type, body := body })] })] }

/-- A request of die 1 for the line at 0x1F000 of die 0. -/
def lineReq : Req := { req := 1, txn := 7, box := { base := 0x1F000, ext := [128, 1, 1, 1] }, ops := List.replicate 32 0 }

theorem wit_TenureMessagesTaken_req : ∀ wr : Bool, dueMsg (arriving (b2n wr) (reqBody lineReq)) 1 0 (b2n wr) (reqBody lineReq) ∧
    mapGet? (arriving (b2n wr) (reqBody lineReq)).movedPages (reqOfBody (reqBody lineReq)).page = none ∧
    outside (arriving (b2n wr) (reqBody lineReq)) (reqOfBody (reqBody lineReq)) = false ∧
    ((getDie (arriving (b2n wr) (reqBody lineReq)) 0).queue.filter fun r => r.set / 128 == lineReq.set / 128).length < 64 ∧
    sliceDue (arriving (b2n wr) (reqBody lineReq)) 0 (lineReq.set / 128) = false ∧
    (mapGet? ({ arriving (b2n wr) (reqBody lineReq) with movedPages := [(0, 5)] } : State).movedPages (reqOfBody (reqBody lineReq)).page).isSome = true ∧
    (reqOfBody (reqBody lineReq)).req ≠ 0 ∧ (reqOfBody (reqBody lineReq)).req < 8 ∧
    hasRoom (arriving (b2n wr) (reqBody lineReq)) 0 (reqOfBody (reqBody lineReq)).req := by unfold dueMsg hasRoom; decide

theorem wit_TenureMessagesTaken_act : ∀ k, k = 3 ∨ k = 5 ∨ k = 7 ∨ k = 9 → dueMsg (arriving k (reqBody lineReq)) 1 0 k (reqBody lineReq) ∧
    dataAwaited (arriving k (reqBody lineReq)) 1 0 { type := k, body := reqBody lineReq } = false ∧ hasRoom (arriving k (reqBody lineReq)) 0 1 ∧
    heldStates (arriving k (reqBody lineReq)) 0 (reqOfBody (reqBody lineReq)).box = [] := by
  intro k h; unfold dueMsg hasRoom; rcases h with rfl | rfl | rfl | rfl <;> decide

/-- A request of die 2 that is forwarded to die 0, which holds the line 0x1F000 bytes into the memory of die 1 with its first byte dirty. -/
def fwdReq (wr : Bool) : Req := { lineReq with req := 2, wr := wr, box := lineBox 0x100003E0 }
def holdingLine (type : Nat) (wr : Bool) (st : HSt) (dirty : Nat) : State :=
  modDie (arriving type (reqBody (fwdReq wr))) 0 fun d =>
    { d with recs := [{ home := 1, box := lineBox 0x100003E0, st := st, impl := true }]
             l2 := [(0x100003E0, { present := 3, dirty := dirty, data := [(0, 7)] })] }

theorem wit_TenureMessagesTaken_held : ∀ k, k = 3 ∨ k = 5 ∨ k = 7 ∨ k = 9 → ∀ wr : Bool, ∀ dirty, dirty = 0 ∨ dirty = 1 →
    let s := holdingLine k wr (if k = 5 then .s else .m) dirty
    dueMsg s 1 0 k (reqBody (fwdReq wr)) ∧ dataAwaited s 1 0 { type := k, body := reqBody (fwdReq wr) } = false ∧
    (reqOfBody (reqBody (fwdReq wr))).box = lineBox 0x100003E0 ∧ homeOf (0x100003E0 * 128) = some 1 ∧
    holdsLine s 0 0x100003E0 (if k = 5 then .s else .m) ∧ (getChan s 0 1).held = [] ∧ (getChan s 0 1).undelivered < 32767 ∧
    (reqOfBody (reqBody (fwdReq wr))).req = 2 ∧ (getChan s 0 2).held = [] ∧ (getChan s 0 2).undelivered < 32767 ∧ (if k = 5 then HSt.s else .m) ≠ .i := by
  intro k h wr d hd; unfold dueMsg holdsLine
  refine ⟨?_, ?_, ?_, ?_, ⟨⟨{ home := 1, box := lineBox 0x100003E0, st := if k = 5 then .s else .m, impl := true }, ?_⟩, ?_⟩, ?_, ?_, ?_, ?_, ?_⟩ <;>
    rcases h with rfl | rfl | rfl | rfl <;> cases wr <;> rcases hd with rfl | rfl <;> decide

/-- Die 0 has one request of its own outstanding at die 1. -/
def asked (s : State) (m : MyReq) : State := modDie s 0 fun d => { d with mine := [m] }

theorem wit_TenureMessagesTaken_grant :
    dueMsg (asked (arriving 2 (ackBody { txn := 7, ndata := 1 })) { r := lineReq, home := 1 }) 1 0 2 (ackBody { txn := 7, ndata := 1 }) ∧
    (getDie (asked (arriving 2 (ackBody { txn := 7, ndata := 1 })) { r := lineReq, home := 1 }) 0).mine = [{ r := lineReq, home := 1 }] ∧
    lineReq.txn = (ackOfBody (ackBody { txn := 7, ndata := 1 })).txn ∧ (ackOfBody (ackBody { txn := 7, ndata := 1 })).code < 2 ∧
    0 < (ackOfBody (ackBody { txn := 7, ndata := 1 })).ndata := by unfold dueMsg; decide

/-- The bytes of one line. -/
def lineData : DataB := { line := 0x1F000, mask := 3, txn := 7, data := [1, 2] ++ List.replicate 126 0 }

theorem wit_TenureMessagesTaken_data :
    dueMsg (asked (arriving 4 (dataBody lineData)) { r := lineReq, home := 1 }) 1 0 4 (dataBody lineData) ∧
    (getDie (asked (arriving 4 (dataBody lineData)) { r := lineReq, home := 1 }) 0).mine = [{ r := lineReq, home := 1 }] ∧
    lineReq.txn = (dataOfBody (dataBody lineData)).txn ∧ (dataOfBody (dataBody lineData)).kind = 0 := by unfold dueMsg; decide

/-- Die 0 runs a transaction that two agents have still to answer. -/
def owing : State := modDie (arriving 6 (ackBody { txn := 7, req := 2, code := 128 })) 0 fun d =>
  { d with txs := [{ freq := 2, ftxn := 7, owed := [(1, 16), (3, 17)] }] }

theorem wit_TenureMessagesTaken_invack : dueMsg owing 1 0 6 (ackBody { txn := 7, req := 2, code := 128 }) ∧ (getDie owing 0).mine = [] ∧
    (getDie owing 0).txs = [{ freq := 2, ftxn := 7, owed := [(1, 16), (3, 17)] }] ∧
    (ackOfBody (ackBody { txn := 7, req := 2, code := 128 })).req = 2 ∧ (ackOfBody (ackBody { txn := 7, req := 2, code := 128 })).txn = 7 := by
  unfold dueMsg; decide

theorem wit_TenureMessagesTaken_wbdata : dueMsg (arriving 8 (dataBody lineData)) 1 0 8 (dataBody lineData) ∧
    (dataOfBody (dataBody lineData)).kind < 3 ∧ (dataOfBody (dataBody lineData)).line % 128 = 0 ∧
    homeOf (dataOfBody (dataBody lineData)).line = some 0 ∧ bit (dataOfBody (dataBody lineData)).mask 1 = true := by unfold dueMsg; decide

theorem wit_TenureMessagesTaken_nack :
    dueMsg (asked (arriving 10 (ackBody { txn := 7, code := 2 })) { r := lineReq, home := 1 }) 1 0 10 (ackBody { txn := 7, code := 2 }) ∧
    (ackOfBody (ackBody { txn := 7, code := 2 })).code = 2 ∧ lineReq.txn = (ackOfBody (ackBody { txn := 7, code := 2 })).txn ∧
    (getDie (asked { State.reset with tb := 300 } { r := lineReq, home := 1, busyAt := some 40 }) 0).mine =
      [{ r := lineReq, home := 1, busyAt := some 40 }] ∧ 40 + 256 ≤ 300 := by unfold dueMsg; decide

/-- A message of one flit on its way. -/
def flitted : State := { State.reset with flits := [{ src := 1, dst := 0, msgno := 0, fidx := 0, fcnt := 0, type := 2, body := ackBody {} }] }

theorem wit_TenureMessagesTaken_flit : (flitted.flits[0]?.map (·.type)) = some 2 ∧ (getChan flitted 1 0).part = [] ∧
    mapGet? (getChan flitted 1 0).whole 0 = none := by decide

theorem wit_TenureMessagesTaken_start : (getDie (modDie State.reset 0 fun d => { d with queue := [lineReq] }) 0).queue = [lineReq] ∧
    (getDie (modDie State.reset 0 fun d => { d with queue := [lineReq] }) 0).dir = [] ∧ lineReq.req ≠ 0 ∧ lineReq.req < 8 ∧ lineReq.at_ = false := by
  decide

theorem wit_TenureMessagesTaken_resend : (getDie (asked { State.reset with tb := 300 } { r := lineReq, home := 1, busyAt := some 40 }) 0).mine =
      [{ r := lineReq, home := 1, busyAt := some 40 }] ∧ 40 + 256 ≤ 300 ∧
    hasRoom (asked { State.reset with tb := 300 } { r := lineReq, home := 1, busyAt := some 40 }) 0 1 ∧
    ({ r := lineReq, home := 1 } : MyReq).why ≠ .engine := by unfold hasRoom; decide

/-! ### Witnesses: launches, teams, checkpoints, trace, errors -/

/-- Mailbox 5 of context 0 with room for two messages and a template at 0x1F000. -/
def boxed (n : Nat) : State := { recorded base with mboxes := [(5, { en := true, qdepth := 1, tmpl := 0x1F000, qbase := 0x1E000, ctx := 0, count := n })] }

theorem wit_LaunchesAndTeams_post : (getBox (boxed 0) 5).en = true ∧ senderOk (boxed 0) (.fn 0) 5 = true ∧
    (getBox (boxed 0) 5).count ≠ (getBox (boxed 0) 5).qdepth + 1 ∧ (getBox (boxed 0) 5).tmpl ≠ 0 ∧
    (({ boxed 0 with posts := [{ mb := 5 }] } : State).posts[0]?) = some { mb := 5 } ∧ ({ mb := 5 } : Post).reply = .none := by decide

/-- The mailbox with one message whose template, a launch record of one group, is sound. -/
def launching : State :=
  let raw := lrecBytes { entry := 0x8000, levels := [{ dom := 2, scope := 1 }] }
  { boxed 1 with mem := (withAddrs 0x1F000 raw).foldl (fun m e => memPut m e.1 e.2) base.mem }

/-- A gang of two teams, the second of which is to be saved. -/
def ganged : State := { withRec base fun r => { r with levels := [{}, { ext := 2, dom := 2, scope := 2 }] } with
  teams := [(0, {}), (1, { index := 1, preempt := some .sched })] }

theorem wit_LaunchesAndTeams_gang : (gangTeams ganged 0).contains 0 = true ∧ (gangCalls ganged 0).isSome = true := by decide

/-- A team whose slice is over while a saved team of another context finds no room. -/
def sliced : State :=
  let l1 : Launch := { ctx := 1, lr := { scratch := 256 } }
  { base with
    tb := 100
    ctxs := mapSet base.ctxs 1 { num := 1, st := 1 }
    launches := mapSet base.launches 1 l1
    teams := [(0, { allow := 10 }), (1, { launch := 1, saved := true, ready := true })] }

theorem wit_LaunchesAndTeams_slice : (gangTeams sliced 0).contains 0 = true ∧ sliceOver sliced 0 = true := by decide

/-- A team that is to be saved, at its safe point. -/
def saving : State := { base with teams := [(0, { preempt := some .retire })] }

theorem wit_LaunchesAndTeams_save : gangTeams saving 0 = [0] ∧ (getTeam saving 0).saved = false ∧ (getTeam saving 0).gone = false ∧ (getTeam saving 0).preempt.isSome = true ∧
    teamSafe saving 0 = true ∧ treatment saving 0 = .save := by decide

/-- A saved team that is ready for restore, with no window. -/
def ready : State := { withRec base fun r => { r with scratch := 0, bars := 0 } with teams := [(0, { saved := true, ready := true })] }

theorem wit_LaunchesAndTeams_restore : (restoreNext ready 0).isSome = true ∧
    (match restoreSpots ready 0 with
      | some [p] => (ready.teams.find? fun o => o.2.launch == (getTeam ready 0).launch && o.2.index == p.idx && !o.2.ended).map (·.1) == some 0
      | _ => false) = true := by decide +kernel

/-- A post that slot A of the group waits for. -/
def posting : State :=
  withG { boxed 0 with posts := [{ id := 3, mb := 5, from_ := .ctx 0, reply := .mbpost 0 .a }] } fun g => { g with a := { g.a with waits := [.post 6 3] } }

theorem wit_LaunchesAndTeams_mbpost : (posting.posts[0]?.map fun p => (p.mb, p.reply)) = some (5, .mbpost 0 .a) ∧ senderOk posting (.ctx 0) 5 = true ∧
    ((getGroup posting 0).slot .a).waits = [.post 6 3] ∧ ((getGroup posting 0).slot .a).st = .active ∧ ((getGroup posting 0).slot .b).waits = [] ∧
    quietFor (getGroup posting 0) (.post 6 3) := by unfold quietFor; decide

theorem wit_LaunchesAndTeams_template : canStart launching 5 = false ∧ (getBox launching 5).count = 1 ∧ (getBox launching 5).tmpl ≠ 0 ∧
    (getBox launching 5).blocked = none ∧ (getCtx launching 0).st ≠ 0 ∧ (getBox launching 5).unchecked = some 0 ∧
    engFail launching (getCtx launching 0) 0x1F000 128 .engRead = none ∧
    ((engPas (engMark launching (getCtx launching 0) 0x1F000 128 .engRead) (getCtx launching 0) 0x1F000 128 .engRead).any
      (poisoned (engMark launching (getCtx launching 0) 0x1F000 128 .engRead))) = false ∧
    (let u := engMark launching (getCtx launching 0) 0x1F000 128 .engRead
     let raw := (engPas u (getCtx launching 0) 0x1F000 128 .engRead).map (engByte u)
     formatOk raw (getBox launching 5).rt && resourceOk (lrecOfBytes raw)) = true := by decide

/-- The mailbox once that template has been checked. -/
def checked : State := modBox launching 5 fun b => { b with ready := [(0, messageLaunch launching 5 0)] }

theorem wit_LaunchesAndTeams_start : canStart checked 5 = true ∧ nextLaunch checked 5 = some (messageLaunch launching 5 0) := by decide

/-- The mirrored context with a checkpoint that is due. -/
def due : State := { modCtx mirrored 0 fun x => { x with mirror := { x.mirror with interval := 1 } } with tb := 2000 }

/-- The mirrored context with checkpoint 3 in progress and its image written. -/
def imaged : State := { modCtx mirrored 0 fun x => { x with mirror := { x.mirror with inProgress := some 3, imgDone := true } } with groups := [] }

theorem wit_CheckpointsTraceAndMoves_ckpt : checkpointDue due 0 = true ∧ (getCtx imaged 0).mirror.inProgress = some 3 ∧
    (getCtx imaged 0).mirror.imgDone = true ∧ mirrorHalf imaged (getCtx imaged 0) = some 0 ∧ imaged.groups = [] ∧
    ∀ x ∈ imaged.ctxs, x.2.moving = none := by decide

/-- The trace bank with one packet of one word. -/
def draining : State := modCluster traced 0 fun k => setBank k 4 { getBank k 4 with fifo := [1] }

theorem wit_CheckpointsTraceAndMoves_trace : (getCluster draining 0).trace.en = true ∧ (getCluster draining 0).trace.flt = none ∧
    (getBank (getCluster draining 0) 4).fifo ≠ [] ∧ headLen [1] = 1 ∧ engFail draining (getCtx draining 0) 0x1E000 64 .engWrite = none ∧
    leValue (engRead draining (getCtx draining 0) 0x1E000 8) = 0 ∧ engFail draining (getCtx draining 0) (0x1E000 + 64) 4 .engWrite = none ∧
    leValue (engRead draining (getCtx draining 0) 0x1E008 8) = 0 := by decide

/-- Page 0 is to move to the docked companion, with free frames or none. -/
def moving (fs : List Nat) : State :=
  { putWords8 base [(0x4000, 0x43F)] with moves := [(0, 4)], moveBy := [(0, 8)], halves := [(0, { st := 4, ver := 3, agent := 8 })], pools := [(8, fs)] }
where
  putWords8 (s : State) (ws : List (Nat × Nat)) : State := { s with mem := putWords 8 s.mem ws }

theorem wit_CheckpointsTraceAndMoves_move : ∀ fs, fs = [] ∨ fs = [0x40000000000 / 131072] →
    (match walk (moving fs) (getCtx (moving fs) 0) 0x1F000 with
      | .ok l => l.level == 0 && l.mob && l.home != 5 && decide (4 ≤ mapGetD (moving fs).moves (l.pa / 131072) 0) &&
        (moveDest (moving fs) (l.pa / 131072) l.home == some 8)
      | .error _ => false) = true ∧
    ((moving fs).halves.any fun h => h.2.agent == 8 && h.2.st == 4 && decide (2 ≤ h.2.ver)) = true ∧ mapGetD (moving fs).pools 8 [] = fs := by
  intro fs h; rcases h with rfl | rfl <;> decide

/-- The mirrored context with a CKPT of slot A that the checkpoint in progress is for. -/
def committing : State := withG (modCtx mirrored 0 fun x => { x with mirror := { x.mirror with inProgress := some 3, imgDone := true } }) fun g =>
  { g with a := { g.a with waits := [.ckpt 5 0x8004 (some 3)] } }

theorem wit_CheckpointsTraceAndMoves_slot : (match committing.groups with
      | [(0, g)] => g.a.waits == [.ckpt 5 0x8004 (some 3)] && g.a.st == .active && g.b.waits == []
      | _ => false) = true ∧ quietFor (getGroup committing 0) (.ckpt 5 0x8004 (some 3)) ∧ ctxNumOf committing 0 = 0 ∧
    (getCtx committing 0).mirror.inProgress = some 3 ∧ (getCtx committing 0).mirror.imgDone = true ∧
    linksToCome committing 0 = false ∧ mirrorHalf committing (getCtx committing 0) = some 0 ∧ ∀ x ∈ committing.ctxs, x.2.moving = none := by unfold quietFor; decide

theorem wit_ErrorsAndRetirement_strike : (homeOf 0x1F000).isSome = true ∧ overwritten base 0x1F000 = false ∧ 0 < (lrecOf base 0).accs ∧
    bit (clGet (getCore (modCore base 0 fun c => { c with l1 := [(992, { present := 1 })] }) 0).l1 (0x1F000 / 128)).present (0x1F000 % 128) = true ∧ (mapGet? base.groups 0).isSome = true ∧ 6 < (lrecOf base 0).regs * 8 ∧
    (mapGet? base.ctxs (ctxNumOf base 0)).isSome = true := by decide

/-- A slice of die 0 over the threshold, with spares or none. -/
def worn (n : Nat) : State := modDie State.reset 0 fun d => { d with sps := n, sliceCe := [(2, 65)] }

theorem wit_ErrorsAndRetirement_slice : ∀ n, n = 0 ∨ n = 1 → sliceDue (worn n) 0 2 = true ∧ (getDie (worn n) 0).dir = [] ∧
    (getDie (worn n) 0).l2 = [] ∧ (getDie (worn n) 0).sps = n := by intro n h; rcases h with rfl | rfl <;> decide

/-- Core 3 at the threshold. -/
def tired (stopped : Bool) (spares : Nat) : State :=
  modDie (modCore State.reset 3 fun k => { k with ce := 64, stopped := stopped }) 0 fun d => { d with spc := spares }

theorem wit_ErrorsAndRetirement_core : ∀ b n, n = 0 ∨ n = 2 → (getCore (tired b n) 3).absent = false ∧
    (tired b n).threshold ≤ (getCore (tired b n) 3).ce ∧ (getCore (tired b n) 3).stopped = b ∧ (∀ e ∈ (tired b n).teams, e.2.core ≠ 3) ∧
    (getCore (tired b n) 3).l1 = [] ∧ (getCluster (tired b n) (clusterOf 3)).cc = [] ∧ (getDie (tired b n) (3 / 32)).spc = n := by
  intro b n h; cases b <;> rcases h with rfl | rfl <;> decide

/-- Page 3 of die 0 with 17 poisoned sectors, and a free frame. -/
def holed : State := { State.reset with poison := (List.range 17).map (3 * 4096 + ·), pools := [(0, [9])], ceWindow := 0, tb := 2 ^ 30 }

theorem wit_ErrorsAndRetirement_page : pageDue holed 3 = true ∧ homeOf (3 * 131072) = some 0 ∧ mapGetD holed.pools 0 [] = [9] ∧
    holed.ceWindow < holed.tb / 2 ^ 30 := by decide

theorem wit_ErrorsAndRetirement_struck : (mapGet? base.wins (getTeam base 0).win).isSome = true ∧ 5 < (getWin base (getTeam base 0).win).size ∧
    0 < (getBank (getCluster (banked .fifo [9]) 0) 3).fifo.length := by decide

/-! ### Witnesses: the host -/

/-- The part after bring-up, with one context of tenant 0 and a mailbox of its own. -/
def up : State := { base with ctxs := [(0, { num := 0, st := 1, floor := 2 })], mboxes := [(5, { en := true, qdepth := 1 })] }

/-- Function 0 has written word 0 of a TLBINV command of a kind. -/
def invalidating (k : Nat) : State := modFn up 0 fun x => { x with tlbinv0 := k }

theorem wit_HostRegisters_inv : ∀ k, k = 0 ∨ k = 1 ∨ k = 2 →
    (invOf (getFn (invalidating k) 0).tlbinv0 0).kind = k ∧ fnLive (invalidating k) 0 = true ∧
    invAllowed (invalidating k) 0 (invOf (getFn (invalidating k) 0).tlbinv0 0) = true ∧ (invalidating k).invq.length < 16 ∧
    16 ≤ ({ invalidating k with invq := List.replicate 16 {} } : State).invq.length := by
  intro k h; rcases h with rfl | rfl | rfl <;> decide

theorem wit_HostRegisters_rej : (invOf (getFn (invalidating 3) 0).tlbinv0 0).kind = 3 ∧ fnLive (invalidating 3) 0 = true ∧
    invAllowed (invalidating 3) 0 (invOf (getFn (invalidating 3) 0).tlbinv0 0) = false ∧
    invAllowed (modFn up 17 fun x => { x with tlbinv0 := 3 }) 17 (invOf 3 0) = true := by decide

theorem wit_HostRegisters_done : ({ up with invq := [{ kind := 3 }] } : State).invq = [{ kind := 3 }] ∧ up.cores ≠ [] ∧
    (∀ k ∈ ({ up with invq := [{ kind := 3 }] } : State).cores, invConcerns { up with invq := [{ kind := 3 }] } { kind := 3 } k.1 = true →
      accessesOut { up with invq := [{ kind := 3 }] } k.1 = false) ∧ companionsDone { up with invq := [{ kind := 3 }] } = true := by decide

theorem wit_HostRegisters_live : fnLive up 0 = true ∧ bit 2 1 = true ∧ ownsCtx up 0 (0x20000 % 4096) = true ∧
    (({ up with faults := [{ ctx := 0, cause := 0, page := 1 }] } : State).faults.any fun o => o.ctx == 0x20000 % 4096 && o.page == bits 0x20000 47 17) = true ∧
    (∀ b ∈ up.mboxes, b.2.blocked = none) ∧ bit 0x20000 12 = false ∧ bit 0x21000 12 = true ∧
    (up.unpins.any fun p => p.ctx == 0x20000 % 4096 && faultPage p.hdr == bits 0x20000 47 17) = false ∧ fnLive up 3 = true ∧ ownsBox up 0 (5 % 4096) = true ∧
    (getBox up (5 % 4096)).tmpl = 0 ∧ invAllowed up 0 (invOf 0 0) = true ∧ (getBox up 5).en = true ∧ senderOk up (.fn 0) 5 = true ∧
    (getBox up 5).count ≠ (getBox up 5).qdepth + 1 := by
  decide

/-- A request block at 0x1000 of host memory. -/
def asking (ws : List (Nat × Nat)) : State := { up with mem := putWords 8 up.mem (ws.map fun w => (0x80000001000 + w.1, w.2)) }

theorem wit_HostRequests_ready :
    hreqReady (asking [(0, 1), (8, 0x20001), (16, 4)]) 0 0x1000 0 ∧ (blockAt (asking [(0, 1), (8, 0x20001), (16, 4)]) 0x1000).code = 1 ∧
    hreqReady (asking [(0, 7), (8, 5)]) 0 0x1000 0 ∧ (blockAt (asking [(0, 7), (8, 5)]) 0x1000).code = 7 ∧
    hreqReady (asking [(0, 4)]) 0 0x1000 0 ∧ (blockAt (asking [(0, 4)]) 0x1000).code = 4 := by unfold hreqReady; decide

theorem wit_HostRequests_box : hreqReady (asking [(0, 2 + 5 * 2 ^ 32), (8, 1)]) 0 0x1000 0 ∧
    (blockAt (asking [(0, 2 + 5 * 2 ^ 32), (8, 1)]) 0x1000).code = 2 ∧
    hreqReady (asking [(0, 3), (8, 0x60001)]) 0 0x1000 0 ∧ (blockAt (asking [(0, 3), (8, 0x60001)]) 0x1000).code = 3 := by
  unfold hreqReady; decide

theorem wit_HostRequests_bank : hreqReady (asking [(0, 5 + 3 * 2 ^ 32)]) 0 0x1000 0 ∧ (blockAt (asking [(0, 5 + 3 * 2 ^ 32)]) 0x1000).code = 5 ∧
    hreqReady (asking [(0, 6), (8, 9)]) 0 0x1000 0 ∧ (blockAt (asking [(0, 6), (8, 9)]) 0x1000).code = 6 ∧
    (blockAt (asking [(0, 6), (8, 9)]) 0x1000).idx = 0 := by unfold hreqReady; decide

theorem wit_HostRequests_rest : fnLive up 0 = true ∧ up.phase = 6 ∧ (getFn up 0).busy = false ∧ 0x1001 % 64 ≠ 0 ∧
    (getFn (modFn up 0 fun x => { x with busy := true }) 0).busy = true ∧
    (∀ c ∈ up.ctxs, c.2.st = 0 ∨ c.2.sys = true ∨ c.2.ten + 1 ≠ 9) ∧
    ownsBox { up with mboxes := [(5, { en := true, ten := 8 })] } 9 5 = true := by decide

/-! ### Witnesses: the pair -/

/-- Port half 0 in a state, as companion 8. -/
def halved (st : Nat) : State :=
  { base with halves := [(0, { st := st, ver := 3, agent := 8, peerVers := 6, offered := [3] })] }

/-- The next message of the half. -/
def nextHdr : PairHdr := { ver := 3, src := 0, qp := 1, ctx := 0, seq := 0 }

theorem wit_DockingSteps_hdr : ∀ st, st = 2 ∨ st = 3 ∨ st = 4 ∨ st = 5 → hdrOk (halved st) 0 nextHdr [st] := by
  intro st h; unfold hdrOk; rcases h with rfl | rfl | rfl | rfl <;> decide

theorem wit_DockingSteps_train : halfThere base 0 = true ∧ (getHalf base 0).st = 0 ∧ (getHalf (halved 6) 0).st = 6 ∧ halfThere (halved 6) 0 = true ∧
    (getHalf (halved 2) 0).heard = false ∧
    (halved 2).leaf < 2 ^ 20 ∧ bit (getHalf (halved 2) 0).peerVers 2 = true ∧ bit (getHalf (halved 2) 0).peerVers 3 = false := by decide

theorem wit_DockingSteps_heard : (getHalf (modHalf (halved 2) 0 fun x => { x with heard := true }) 0).heard = true ∧
    hdrOk (modHalf (halved 2) 0 fun x => { x with heard := true }) 0 nextHdr [2] := by unfold hdrOk; decide

/-- A legal image of a context without launches, in the companion's memory: its tables lie beyond it. -/
def offering : State :=
  { halved 4 with mem := putWords 4 base.mem [(0x40000001000, ckMagic), (0x40000001004, 0x10001), (0x40000001030, 256), (0x40000001038, 256)] }

theorem wit_DockingSteps_image : (getHalf offering 0).offered.contains 3 = true ∧ homeOf 0x40000001000 = some 8 ∧
    homeOf (0x40000001000 + 256 - 1) = some 8 ∧ (getCtx offering 3).st = 0 ∧ (getCtx offering 3).moving = none ∧
    imageLegal (homeBytes offering 0x40000001000 256)
      ((List.range 4).foldl (fun m d => if (getDie offering d).level < m then (getDie offering d).level else m) 2) = true := by decide +kernel

theorem wit_DockingSteps_resume : hdrOk (modHalf (halved 4) 0 fun x => { x with back := [0] }) 0 nextHdr [4] ∧
    (getHalf (modHalf (halved 4) 0 fun x => { x with back := [0] }) 0).back = [0] ∧ (∀ d ∈ (halved 4).dies, d.2.bq = [] ∧ d.2.serving = []) := by
  unfold hdrOk; decide

/-- A docked half of a part that holds nothing. -/
def emptied : State := { State.reset with halves := [(0, { st := 4, ver := 3, agent := 8 })] }

theorem wit_DockingSteps_undock : idlePart emptied ∧ hdrOk emptied 0 nextHdr [4] ∧ hdrOk emptied 0 nextHdr [4, 5] ∧
    (getHalf emptied 0).back = [] ∧ (getHalf emptied 0).st ≠ 0 ∧ (getHalf emptied 0).st ≠ 6 := by unfold idlePart hdrOk; decide

theorem wit_PairTraffic_msg : hdrOk (halved 4) 0 nextHdr [4, 5] ∧ homeOf ((reqOfBody (reqBody lineReq)).page * 131072) = some 0 ∧
    hasRoom (halved 4) (getHalf (halved 4) 0).agent 0 ∧ 8 ≤ (getHalf (halved 4) 0).agent := by
  unfold hdrOk hasRoom; decide

/-- The docked companion's Fwd, Inv, Recall or BackInv for a line that die 2 holds. -/
def relayed (k : Nat) : State := modDie (halved 4) 2 fun d => { d with recs := [{ home := 8, box := lineReq.box, st := if k = 5 then .s else .m }] }

theorem wit_PairTraffic_holder : ∀ k, k = 3 ∨ k = 5 ∨ k = 7 ∨ k = 9 → hdrOk (relayed k) 0 nextHdr [4, 5] ∧ hasRoom (relayed k) (getHalf (relayed k) 0).agent 2 ∧
    ((getDie (relayed k) 2).recs.any fun r =>
      (if k = 3 then r.st != .s else if k = 5 then r.st == .s else true) && boxMeets r.box (reqOfBody (reqBody lineReq)).box) = true ∧
    (∀ e, e < 2 → (getDie (relayed k) e).recs = []) ∧
    onItsWay (relayed k) (getHalf (relayed k) 0).agent 2 k (reqOfBody (reqBody lineReq)) = false := by
  intro k h; unfold hdrOk hasRoom; rcases h with rfl | rfl | rfl | rfl <;> decide

/-- Queue pair 1 of context 0 in a state. -/
def paired (st : Nat) : State :=
  let q : QPair := { st := st, peer := 8, rbase := 0x1E000, wsize := 1 }
  { modCtx (halved 4) 0 (fun x => { x with qps := [(1, q)] }) with groups := [] }

theorem wit_PairTraffic_credit : hdrOk (paired 1) 0 nextHdr [4, 5] ∧ (getQp (paired 1) nextHdr.ctx nextHdr.qp).st = 1 ∧
    (getQp (paired 1) nextHdr.ctx nextHdr.qp).peer = (getHalf (paired 1) 0).agent ∧ (getQp (paired 1) nextHdr.ctx nextHdr.qp).kind = 0 ∧
    (getQp (paired 1) nextHdr.ctx nextHdr.qp).cred + 4 ≤ 1024 ∧ (paired 1).groups = [] := by unfold hdrOk; decide

theorem wit_PairTraffic_request : (getHalf (paired 1) 0).st = 4 ∧ (getQp (paired 1) 0 1).st = 1 ∧ (getQp (paired 1) 0 1).kind = 0 ∧
    (getQp (paired 1) 0 1).peer = (getHalf (paired 1) 0).agent ∧ 16 + 4 ≤ (getQp (paired 1) 0 1).wsize * 4096 ∧ (getCtx (paired 1) 0).sys = true ∧
    (homeOf ((getQp (paired 1) 0 1).rbase + 16)).isSome = true ∧
    homeOf ((getQp (paired 1) 0 1).rbase + 16) = homeOf ((getQp (paired 1) 0 1).rbase + 16 + 4 - 1) ∧
    (getQp (paired 1) 0 1).wsize * 4096 < 4096 + 4 := by decide

/-- A redo log of one line and the marker of checkpoint 2. -/
def logged : State := modCtx (halved 4) 0 fun x =>
  { x with mirror := { en := true, committed := 2, logsz := 4, entries := [{ line := 0x40000000000 / 128, mask := 1, data := [(0, 9)] }, { marker := some 2 }] } }

theorem wit_PairTraffic_commit : (getHalf logged 0).st = 4 ∧
    (getCtx logged 0).mirror.entries = [{ line := 0x40000000000 / 128, mask := 1, data := [(0, 9)] }, { marker := some 2 }] ∧
    2 ≤ (getCtx logged 0).mirror.committed ∧ 0 + 2 ≤ (getCtx logged 0).mirror.logsz := by decide

theorem wit_PairTraffic_reset : (mapGet? (paired 2).ctxs 0).isSome = true ∧ (getQp (paired 2) 0 1).st = 2 ∧ (getQp (paired 0) 0 1).st = 0 ∧
    (getQp (paired 2) 0 1).wsize ≠ 0 ∧ halfOfAgent (paired 2) (getQp (paired 2) 0 1).peer = some 0 := by decide

end Sys2Proof.Tests
end

section
/-! PROOFS. Sleeping and parked paths go on (R7, R30, R109, R326). -/
namespace Sys2Proof.Machine

open Sys2Proof

/-! ### What updates leave of a group -/

/-- A slot that is not FREE belongs to a group that the table lists. -/
theorem isSome_of_slot_not_free {s : State} {gid : Nat} {sl : PSlot} (h : ((getGroup s gid).slot sl).st ≠ .free) :
    (mapGet? s.groups gid).isSome = true := by
  cases e : mapGet? s.groups gid with
  | some _ => rfl
  | none =>
    have hfree : ((getGroup s gid).slot sl).st = .free := by
      rw [getGroup, mapGetD, e]; cases sl <;> rfl
    exact absurd hfree h

theorem getGroup_modSlot_self (s : State) (gid : Nat) (sl : PSlot) (f : Slot → Slot) (h : (mapGet? s.groups gid).isSome = true) :
    getGroup (modSlot s gid sl f) gid = (getGroup s gid).setSlot sl (f ((getGroup s gid).slot sl)) :=
  getGroup_modGroup_self s gid _ h

/-- A change that keeps a part of a group keeps it for every group of the table. -/
theorem getGroup_modGroup_keeps {α : Type} (p : Group → α) {f : Group → Group} (hf : ∀ x, p (f x) = p x) (s : State) (gid g : Nat) :
    p (getGroup (modGroup s gid f) g) = p (getGroup s g) := by
  by_cases e : g = gid
  · subst e
    cases h : mapGet? s.groups g with
    | none => simp [getGroup, mapGetD, mapGet?_mapMod_self, h]
    | some v => simp [getGroup, mapGetD, mapGet?_mapMod_self, h, hf]
  · rw [getGroup_modGroup_ne s f e]

/-- A SYNC changes nothing of a group but its trace state (R398). -/
theorem getGroup_emitSync_keeps {α : Type} (p : Group → α) (hp : ∀ (x : Group) t, p { x with trace := t } = p x) (s : State)
    (gid reason mark : Nat) (ss : Option PSlot) (g : Nat) : p (getGroup (emitSync s gid reason mark ss) g) = p (getGroup s g) := by
  unfold emitSync emitSyncOf
  split
  · rfl
  · split
    · exact getGroup_modGroup_keeps p (fun x => hp x _) s gid g
    · exact getGroup_modGroup_keeps p (fun x => hp x _) _ gid g

/-- A change of a slot leaves the group in its team, so it has the same launch record. -/
@[simp] theorem lrecOf_modSlot (s : State) (gid : Nat) (sl : PSlot) (f : Slot → Slot) (g : Nat) :
    lrecOf (modSlot s gid sl f) g = lrecOf s g := by
  have hteam : (getGroup (modSlot s gid sl f) g).team = (getGroup s g).team :=
    getGroup_modGroup_keeps Group.team (fun x => by cases sl <;> rfl) s gid g
  change (getLaunch s (getTeam s (getGroup (modSlot s gid sl f) g).team).launch).lr = _
  rw [hteam]
  rfl

@[simp] theorem getGroup_bump (s : State) (g : Nat) : getGroup (bump s) g = getGroup s g := rfl
@[simp] theorem lrecOf_bump (s : State) (g : Nat) : lrecOf (bump s) g = lrecOf s g := rfl

/-! ### A sleeping path wakes (R30, R109) -/

theorem Slot.wake_of_sole_sleep {v : Slot} {w : Wait} (hst : v.st = .sleep) (hw : v.waits = [w]) (hs : w.sleeps = true) :
    v.wake Wait.sleeps = { v with st := .active, waits := [] } := by
  simp [Slot.wake, hst, hw, hs, parkedSt]

theorem sleeping_of_sleep {v : Slot} (h : v.st = .sleep) : sleeping v = true := by simp [sleeping, h]

theorem runs_of_team {s : State} {gid : Nat} (hs : (teamOf s gid).saved = false) (hp : (teamOf s gid).preempt = none) :
    runs s gid = true := by simp [runs, hs, hp]

/-- A FREE slot merges with none. -/
theorem ruleMerge_none_of_free {g : Group} {sl : PSlot} (h : (g.slot sl).st = .free) : ruleMerge g = none := by
  have hm : (g.slot sl).mergeable = false := by simp [Slot.mergeable, h]
  cases sl with
  | a => simp [ruleMerge, show g.a.mergeable = false from hm]
  | b => simp [ruleMerge, show g.b.mergeable = false from hm]

/-- No rule of R26 applies to a path alone in its group, with nothing on the stack. -/
theorem settled_of_alone {s : State} {gid : Nat} {sl : PSlot} (hstack : (getGroup s gid).stack = [])
    (hfree : ((getGroup s gid).slot sl).st = .free) : settled s gid := by
  simp [settled, ruleStep, ruleMerge_none_of_free hfree, hstack]

/-- A cycle count or deadline that has passed wakes the path, and the rules follow. -/
theorem sleepWake_of_due {s : State} {gid : Nat} {sl : PSlot} {w : Wait} (hst : ((getGroup s gid).slot sl).st = .sleep)
    (hw : ((getGroup s gid).slot sl).waits = [w])
    (hdue : (∃ n, w = .cycle n ∧ n ≤ cycOf s gid) ∨ ∃ n, w = .time n ∧ n ≤ ctxTime s (ctxOf s gid)) (hruns : runs s gid = true) :
    sleepWake s gid sl = applyRules (modSlot s gid sl (Slot.wake Wait.sleeps)) gid := by
  obtain ⟨n, rfl, hn⟩ | ⟨n, rfl, hn⟩ := hdue <;> simp [sleepWake, hw, sleeping_of_sleep hst, hruns, hn]

/-- The path alone in its group wakes, and nothing else changes. -/
theorem onlySlot_sleepWake {s : State} {gid : Nat} {sl : PSlot} {w : Wait} (hst : ((getGroup s gid).slot sl).st = .sleep)
    (hw : ((getGroup s gid).slot sl).waits = [w])
    (hdue : (∃ n, w = .cycle n ∧ n ≤ cycOf s gid) ∨ ∃ n, w = .time n ∧ n ≤ ctxTime s (ctxOf s gid)) (hruns : runs s gid = true)
    (hstack : (getGroup s gid).stack = []) (hfree : ((getGroup s gid).slot (otherSlot sl)).st = .free) :
    onlySlot s (sleepWake s gid sl) gid sl { (getGroup s gid).slot sl with st := .active, waits := [] } := by
  have hsome : (mapGet? s.groups gid).isSome = true := isSome_of_slot_not_free (sl := sl) (by simp [hst])
  have hsleeps : w.sleeps = true := by obtain ⟨_, rfl, _⟩ | ⟨_, rfl, _⟩ := hdue <;> rfl
  have hgroup := getGroup_modSlot_self s gid sl (Slot.wake Wait.sleeps) hsome
  have hsettled : settled (modSlot s gid sl (Slot.wake Wait.sleeps)) gid := by
    refine settled_of_alone (sl := otherSlot sl) ?_ ?_
    · rw [hgroup]; cases sl <;> exact hstack
    · rw [hgroup, Group.slot_setSlot_other]; exact hfree
  rw [sleepWake_of_due hst hw hdue hruns, applyRules_settled hsettled, ← Slot.wake_of_sole_sleep hst hw hsleeps]
  exact onlySlot_modSlot s gid sl _ hsome

/-! ### A promise is missed (R30, R109) -/

/-- A trap that is neither of a page nor EMULATE, with a handler to go to and none under way, enters the handler (R113). -/
theorem takeTrap_enterHandler {s : State} {gid : Nat} {sl : PSlot} {word pc res : Nat} {c : Cause} (hpage : c.code ≠ tPage)
    (hlost : c.code ≠ tPageLost) (hemul : c.code ≠ tEmulate) (htrap : (getGroup s gid).trap = none)
    (hh : (lrecOf s gid).handler ≠ 0) :
    takeTrap s gid sl word pc res c = enterHandler s gid sl (mkTrapRec (getGroup s gid) sl word pc res c) := by
  simp [takeTrap, hpage, hlost, hemul, htrap, hh]

theorem enterHandler_trap {s : State} {gid : Nat} (sl : PSlot) (t : TrapRec) (h : (mapGet? s.groups gid).isSome = true) :
    (getGroup (enterHandler s gid sl t) gid).trap = some t := by
  rw [enterHandler, getGroup_emitSync_keeps Group.trap (fun _ _ => rfl), getGroup_modGroup_self s gid _ h]

/-- The faulting slot takes the handler path (R30). -/
theorem enterHandler_slot {s : State} {gid : Nat} (sl : PSlot) (t : TrapRec) (h : (mapGet? s.groups gid).isSome = true) :
    (getGroup (enterHandler s gid sl t) gid).slot sl =
      { (getGroup s gid).slot sl with
        pc := (lrecOf s gid).handler + 4, pv := 0, pn := 0, st := .active,
        waits := ((getGroup s gid).slot sl).waits.filter Wait.isOp, seen := (0, []) } := by
  rw [enterHandler, getGroup_emitSync_keeps (fun g => g.slot sl) (fun _ _ => by cases sl <;> rfl), getGroup_modGroup_self s gid _ h]
  cases sl <;> rfl

/-- At its promise, with its buffer not FULL, a SLEEP.B traps PROMISE_MISS at its chain. -/
theorem promiseMiss_of_missed {s : State} {gid : Nat} {sl : PSlot} {h pc w : Nat} (hst : ((getGroup s gid).slot sl).st = .sleep)
    (hw : ((getGroup s gid).slot sl).waits = [.buffer h pc w]) (hruns : runs s gid = true) (hemul : (getGroup s gid).emulates = false)
    (hprom : (bufOf s gid (h % 256)).promise ≤ ctxTime s (ctxOf s gid)) (hfull : (bufOf s gid (h % 256)).st ≠ .full) :
    promiseMiss s gid sl = takeTrap (bump (modSlot s gid sl (Slot.wake Wait.sleeps))) gid sl w pc ((getGroup s gid).slot sl).pc
      { code := tPromiseMiss, detail := h } := by
  have hbits : bits h 7 0 = h % 256 := by simp [bits]
  simp [promiseMiss, hw, firstSome, hbits, sleeping_of_sleep hst, hruns, hemul, Nat.not_lt.mpr hprom, hfull, hst]

/-- The trap of a missed promise goes to the handler, with the record of the path as it slept. -/
theorem promiseMiss_enterHandler {s : State} {gid : Nat} {sl : PSlot} {h pc w : Nat} (hst : ((getGroup s gid).slot sl).st = .sleep)
    (hw : ((getGroup s gid).slot sl).waits = [.buffer h pc w]) (hruns : runs s gid = true) (hemul : (getGroup s gid).emulates = false)
    (hprom : (bufOf s gid (h % 256)).promise ≤ ctxTime s (ctxOf s gid)) (hfull : (bufOf s gid (h % 256)).st ≠ .full)
    (htrap : (getGroup s gid).trap = none) (hh : (lrecOf s gid).handler ≠ 0) :
    promiseMiss s gid sl = enterHandler (bump (modSlot s gid sl (Slot.wake Wait.sleeps))) gid sl
      (mkTrapRec (getGroup s gid) sl w pc ((getGroup s gid).slot sl).pc { code := tPromiseMiss, detail := h }) := by
  have hsome : (mapGet? s.groups gid).isSome = true := isSome_of_slot_not_free (sl := sl) (by simp [hst])
  have hgroup := getGroup_modSlot_self s gid sl (Slot.wake Wait.sleeps) hsome
  obtain ⟨hpage, hlost, hpark⟩ : tPromiseMiss ≠ tPage ∧ tPromiseMiss ≠ tPageLost ∧ tPromiseMiss ≠ tEmulate := by decide
  rw [promiseMiss_of_missed hst hw hruns hemul hprom hfull, takeTrap_enterHandler hpage hlost hpark]
  · rw [getGroup_bump, hgroup, Slot.wake_of_sole_sleep hst hw rfl]
    cases sl <;> rfl
  · rw [getGroup_bump, hgroup]
    cases sl <;> exact htrap
  · simpa using hh

/-! ### A parked chain is executed (R7) -/

/-- The Pavilion executes a parked chain that issues in the state made ready for it, then gives the team its stop and the die its
level back. -/
theorem emulate_of_issueChain {s s1 s2 : State} {gid cw : Nat} {sl : PSlot} {is : List (Nat × Instr)}
    (hpark : ((getGroup s gid).slot sl).waits.contains .emulate = true) (hfetch : fetch (emulReady s gid sl) gid sl = (s1, .chain cw is))
    (hissue : issueChain { s1 with word := cw } gid sl (chainOf is) = some s2) :
    emulate s gid sl = modDie (modTeam s2 (getGroup s gid).team fun x =>
      if x.preempt.isNone then { x with preempt := (teamOf s gid).preempt } else x) (dieOf s gid)
        fun d => { d with level := (getDie s (dieOf s gid)).level } := by
  unfold emulReady at hfetch
  simp only [emulate, hpark, hfetch, hissue, Bool.not_true, Bool.false_eq_true, if_false]
  rfl

@[simp] theorem getDie_modDie_self (s : State) (d : Nat) (f : Die → Die) : getDie (modDie s d f) d = f (getDie s d) :=
  mapGetD_mapPut_self s.dies d {} _

/-! ### The statement -/

/-- Settles O50: the wake with the rules of R26 at rest, the trap through the handler's entry, and the chain issued on a die of
full level. -/
theorem pathsWake : Obligations.PathsWake := by
  intro s gid sl
  refine ⟨?_, ?_, ?_⟩
  · intro w hst hw hdue hsaved hpre hstack hfree
    exact ⟨_, rfl, onlySlot_sleepWake hst hw hdue (runs_of_team hsaved hpre) hstack hfree⟩
  · intro h pc w hst hw hsaved hpre hemul hprom hfull htrap hh
    have hsome : (mapGet? (bump (modSlot s gid sl (Slot.wake Wait.sleeps))).groups gid).isSome = true :=
      (isSome_modGroup s gid gid _).trans (isSome_of_slot_not_free (sl := sl) (by simp [hst]))
    refine ⟨_, rfl, ?_⟩
    rw [promiseMiss_enterHandler hst hw (runs_of_team hsaved hpre) hemul hprom hfull htrap hh, enterHandler_trap sl _ hsome,
      enterHandler_slot sl _ hsome]
    simp [mkTrapRec, tPromiseMiss]
  · intro s1 s2 cw is hpark hfetch hissue
    refine ⟨_, rfl, ?_⟩
    rw [emulate_of_issueChain hpark hfetch hissue]
    exact ⟨rfl, by simp⟩

end Sys2Proof.Machine
end

section
/-! PROOFS. Matrix words execute: MZERO (R184), and a TST whose line the core's L1 lists twice (R157, R177, R250). -/
namespace Sys2Proof.Machine

open Sys2Proof

/-! ### The groups' table after updates elsewhere -/

theorem getGroup_of_groups {s t : State} (h : t.groups = s.groups) (g : Nat) : getGroup t g = getGroup s g := by
  rw [getGroup, h, getGroup]

/-- A fold of steps that leave the groups' table leaves it. -/
theorem foldl_groups {α : Type} {f : State → α → State} (hf : ∀ s x, (f s x).groups = s.groups) (l : List α) (s : State) :
    (l.foldl f s).groups = s.groups := by
  induction l generalizing s with
  | nil => rfl
  | cons x l ih => exact (ih (f s x)).trans (hf s x)

theorem touch_groups (s : State) (pa : Nat) : (touch s pa).groups = s.groups := by
  unfold touch; split <;> rfl

theorem clearCovered_groups (s : State) (pas : List Nat) : (clearCovered s pas).groups = s.groups := by
  unfold clearCovered; split <;> rfl

theorem ringPut_groups (s : State) (m : Mirror) (i : Nat) : (ringPut s m i).groups = s.groups := by
  unfold ringPut
  split
  · rfl
  · split <;> rfl

theorem logPut_groups (s : State) (ctx : Nat) (e : LogE) : (logPut s ctx e).groups = s.groups := by
  unfold logPut
  split
  · rfl
  · exact ringPut_groups _ _ _

theorem homeBytesLine_groups (s : State) (line : Nat) (bs : List (Nat × Byte)) : (homeBytesLine s line bs).groups = s.groups := by
  unfold homeBytesLine
  split
  · exact touch_groups s _
  · split
    · rfl
    · split
      · dsimp only; split <;> rfl
      · split
        · rfl
        · split
          · split
            · rfl
            · exact logPut_groups s _ _
          · rfl

theorem homePutLine_groups (s : State) (line : Nat) (bs : List (Nat × Byte)) : (homePutLine s line bs).groups = s.groups :=
  (clearCovered_groups _ _).trans (homeBytesLine_groups s line bs)

theorem resolveLine_groups (s : State) (line : Nat) (wr : Bool) : (resolveLine s line wr).groups = s.groups := by
  unfold resolveLine
  split
  · exact touch_groups s _
  · repeat' split
    all_goals rfl

theorem homePut_groups (s : State) (bs : List (Nat × Byte)) : (homePut s bs).groups = s.groups := by
  unfold homePut
  refine foldl_groups ?_ _ s
  intro s e
  exact homePutLine_groups s e.1 e.2

theorem resolveLines_groups (s : State) (lines : List Nat) (wr : Bool) : (resolveLines s lines wr).groups = s.groups := by
  unfold resolveLines
  refine foldl_groups ?_ lines s
  intro s l
  exact resolveLine_groups s l wr

theorem engPut_groups (s : State) (bs : List (Nat × Byte)) : (engPut s bs).groups = s.groups := by
  rw [engPut, homePut_groups, resolveLines_groups]

theorem setAD_groups (s : State) (pte : Nat) (d : Bool) : (setAD s pte d).groups = s.groups := by
  unfold setAD
  extract_lets b b'
  split
  · rfl
  · exact engPut_groups s _

theorem fillTlb_groups (s : State) (core : Nat) (x : Context) (va : Nat) (a : Acc) : (fillTlb s core x va a).groups = s.groups := by
  unfold fillTlb
  split
  · rfl
  · split
    · rfl
    · split
      · rfl
      · split
        · split
          · rfl
          · exact touch_groups s _
        · exact setAD_groups s _ _

theorem fillRange_groups (s : State) (core : Nat) (x : Context) (va n : Nat) (a : Acc) :
    (fillRange s core x va n a).groups = s.groups := by
  unfold fillRange
  refine foldl_groups ?_ _ s
  intro s p
  exact fillTlb_groups s core x p.1 a

theorem stackFill_groups (s : State) (g : Nat) (ts : List (Nat × Bool)) : (stackFill s g ts).groups = s.groups := by
  induction ts generalizing s with
  | nil => rfl
  | cons t ts ih =>
    rw [stackFill, List.foldl_cons]
    exact (ih _).trans (fillRange_groups s _ _ _ _ _)

theorem postMsg_groups (s : State) (mb : Nat) (msg : List Byte) (from_ : Sender) (reply : Reply) :
    (postMsg s mb msg from_ reply).1.groups = s.groups := rfl

theorem raiseFault_groups (s : State) (x : Context) (va : Nat) (f : XFail) (a : Acc) (agent : Nat) :
    (raiseFault s x va f a agent).groups = s.groups := by
  unfold raiseFault
  split
  · rfl
  · exact postMsg_groups _ _ _ _ _

theorem parkTeam_groups (s : State) (t ctx page : Nat) : (parkTeam s t ctx page).groups = s.groups := rfl

/-! ### What the rules of R26 leave of a group -/

/-- What a group holds apart from its paths, its outstanding operations and its trace state. -/
def Group.offPath (g : Group) : Group := { g with a := {}, b := {}, stack := [], ops := [], trace := {} }

theorem ruleMerge_offPath {g g' : Group} (h : ruleMerge g = some g') : g'.offPath = g.offPath := by
  unfold ruleMerge at h
  split at h
  · cases h; rfl
  · cases h

theorem joinSkips_offPath (g : Group) (r i : Nat) (sl : PSlot) : (joinSkips g r i sl).offPath = g.offPath := by
  unfold joinSkips
  split
  · rfl
  · split <;> rfl

/-- A rule moves paths between slots and the stack, and changes nothing else of its group. -/
theorem ruleStep_offPath {look : Nat → DEntry → DEntry} {g g' : Group} {r : Nat} {sl : PSlot}
    (h : ruleStep look g = some (g', r, sl)) : g'.offPath = g.offPath := by
  unfold ruleStep at h
  split at h
  · next hm => cases h; exact ruleMerge_offPath hm
  · split at h
    · cases h
    · dsimp only at h
      split at h
      · cases h; rfl
      · split at h
        · cases h; rfl
        · split at h
          · cases h; rfl
          · split at h
            · cases h; exact joinSkips_offPath _ _ _ _
            · split at h
              · cases h; exact joinSkips_offPath _ _ _ _
              · cases h

theorem modTrace_offPath (s : State) (gid : Nat) (f : GTrace → GTrace) (g : Nat) :
    (getGroup (modTrace s gid f) g).offPath = (getGroup s g).offPath :=
  getGroup_modGroup_keeps Group.offPath (f := fun x => { x with trace := f x.trace }) (fun _ => rfl) s gid g

theorem traceWrite_offPath (s : State) (k : Nat) (ws : List Nat) (g : Nat) :
    (getGroup (traceWrite s k ws).1 g).offPath = (getGroup s g).offPath := rfl

theorem emitSyncOf_offPath (x : Group) (s : State) (gid reason mark : Nat) (ss : Option PSlot) (g : Nat) :
    (getGroup (emitSyncOf x s gid reason mark ss) g).offPath = (getGroup s g).offPath := by
  unfold emitSyncOf
  split
  · rfl
  · split <;> exact modTrace_offPath _ _ _ _

theorem emitPkt_offPath (x : Group) (s : State) (gid : Nat) (ss : Option PSlot) (type flags : Nat) (ws : List Nat) (g : Nat) :
    (getGroup (emitPkt x s gid ss type flags ws) g).offPath = (getGroup s g).offPath := by
  unfold emitPkt
  split
  · rfl
  · split
    · exact modTrace_offPath _ _ _ _
    · extract_lets now t s' t' w0 sync r r'
      have hs' : (getGroup s' g).offPath = (getGroup s g).offPath := by
        unfold s'
        split
        · rfl
        · split
          · exact emitSyncOf_offPath _ _ _ _ _ _ _
          · split
            · exact emitSyncOf_offPath _ _ _ _ _ _ _
            · rfl
      rw [← hs']
      split
      · split
        · exact modTrace_offPath _ _ _ _
        · rfl
      · split <;> exact modTrace_offPath _ _ _ _

theorem stackStore_offPath (s : State) (gid i : Nat) (e : DEntry) (g : Nat) :
    (getGroup (stackStore s gid i e) g).offPath = (getGroup s g).offPath :=
  congrArg Group.offPath (getGroup_of_groups (engPut_groups s _) g)

theorem applyRulesN_offPath (ss : Option PSlot) (n : Nat) (s : State) (g : Nat) :
    (getGroup (applyRulesN ss n s g) g).offPath = (getGroup s g).offPath := by
  induction n generalizing s with
  | zero => rfl
  | succ n ih =>
    unfold applyRulesN
    split
    · rfl
    · next g' r sl hrule =>
      extract_lets x s1 s2
      have hs1 : (getGroup s1 g).offPath = (getGroup s g).offPath := by
        rw [show getGroup s1 g = g' from getGroup_setGroup_self s g g']
        exact ruleStep_offPath hrule
      have hs2 : (getGroup s2 g).offPath = (getGroup s g).offPath := by
        unfold s2
        split
        · exact (stackStore_offPath _ _ _ _ _).trans hs1
        · exact hs1
      rw [ih]
      split
      · exact hs2
      · exact (emitPkt_offPath _ _ _ _ _ _ _ _).trans hs2

/-- The rules of R26 leave all of their group but its paths, operations and trace state. -/
theorem applyRules_offPath (s : State) (g : Nat) (ss : Option PSlot) :
    (getGroup (applyRules s g ss) g).offPath = (getGroup s g).offPath := by
  unfold applyRules
  extract_lets x ts s'
  have hfill : getGroup s' g = getGroup s g := getGroup_of_groups (stackFill_groups s g ts) g
  split
  · rw [applyRulesN_offPath, hfill]
  · rw [getGroup_of_groups ((parkTeam_groups _ _ _ _).trans (raiseFault_groups s' _ _ _ _ _)), hfill]

/-! ### MZERO executes (R184) -/

/-- What is left of a table whose entries are chosen by key. -/
theorem mapGet?_filter_key {α : Type} (q : Nat → Bool) (m : FMap α) (k : Nat) :
    mapGet? (m.filter fun e => q e.1) k = if q k then mapGet? m k else none := by
  induction m with
  | nil => simp [mapGet?]
  | cons e r ih =>
    obtain ⟨i, v⟩ := e
    by_cases hk : i = k
    · subst hk
      cases hq : q i <;> simp [mapGet?, hq, ih]
    · cases hq : q i <;> simp [mapGet?, hq, hk, ih]

/-- A group after MZERO of accumulator `a` with base exponent `e`. -/
def Group.zeroAcc (g : Group) (a : Nat) (e : Int) : Group :=
  { g with acc := g.acc.filter (fun x => x.1 / 1024 != a), accE := mapPut g.accE a 0 e }

theorem accKey_div {i j : Nat} (a : Nat) (hi : i < 32) (hj : j < 32) : accKey a i j / 1024 = a := by
  unfold accKey; omega

theorem zeroAcc_entry_self (g : Group) {a i j : Nat} (e : Int) (hi : i < 32) (hj : j < 32) :
    mapGetD (g.zeroAcc a e).acc (accKey a i j) {} = {} := by
  simp [Group.zeroAcc, mapGetD, mapGet?_filter_key (fun k => k / 1024 != a), accKey_div a hi hj]

theorem zeroAcc_entry_ne (g : Group) {a b i j : Nat} (e : Int) (hb : b ≠ a) (hi : i < 32) (hj : j < 32) :
    mapGetD (g.zeroAcc a e).acc (accKey b i j) {} = mapGetD g.acc (accKey b i j) {} := by
  simp [Group.zeroAcc, mapGetD, mapGet?_filter_key (fun k => k / 1024 != a), accKey_div b hi hj, hb]

theorem runWord_mzero {w : MWord} {a : Nat} {e : Int} (hi : w.i = .mzero a e) (hl : w.lanes ≠ 0) (s : State) (gid : Nat) :
    runWord s gid w = (modGroup s gid fun g => g.zeroAcc a e, true) := by
  simp only [runWord, hi, if_neg hl, Group.zeroAcc]

/-- A word that is done leaves its queue, and the rules follow. -/
theorem matrixStep_of_done {s s' : State} {gid : Nat} {w : MWord} {r : List MWord} (hq : (getGroup s gid).mq = w :: r)
    (hrun : runWord (bump s) gid w = (s', true)) :
    matrixStep s gid = afterOp (applyRules (modGroup (seenWord s' gid w) gid fun g => { g with mq := g.mq.drop 1 }) gid) gid := by
  simp [matrixStep, hq, hrun]

/-- Nothing follows an operation of a group that has not retired. -/
theorem afterOp_of_not_retired {s : State} {g : Nat} (h : (getGroup s g).retired = false) : afterOp s g = s := by
  simp [afterOp, h]

/-- The execution of MZERO on a group that has not retired: its accumulator is zeroed, and but for what the rules change of the
paths nothing else of the group is. -/
theorem matrixStep_mzero_offPath {s : State} {gid a : Nat} {e : Int} {w : MWord} {r : List MWord}
    (hsome : (mapGet? s.groups gid).isSome = true) (hret : (getGroup s gid).retired = false) (hq : (getGroup s gid).mq = w :: r)
    (hi : w.i = .mzero a e) (hl : w.lanes ≠ 0) :
    (getGroup (matrixStep s gid) gid).offPath = Group.offPath { (getGroup s gid).zeroAcc a e with mq := r } := by
  let s1 := modGroup (bump s) gid fun g => g.zeroAcc a e
  let s2 := modGroup s1 gid fun g => { g with mq := g.mq.drop 1 }
  have hseen : seenWord s1 gid w = s1 := by simp [seenWord, hi]
  have hgroup : getGroup s2 gid = { (getGroup s gid).zeroAcc a e with mq := r } := by
    have hs1 : getGroup s1 gid = (getGroup s gid).zeroAcc a e := getGroup_modGroup_self (bump s) gid _ hsome
    have hsome1 : (mapGet? s1.groups gid).isSome = true := (isSome_modGroup (bump s) gid gid _).trans hsome
    rw [getGroup_modGroup_self s1 gid _ hsome1, hs1]
    simp [Group.zeroAcc, hq]
  have hrules := applyRules_offPath s2 gid none
  rw [hgroup] at hrules
  have hret' : (getGroup (applyRules s2 gid) gid).retired = false := (congrArg Group.retired hrules).trans hret
  rw [matrixStep_of_done hq (runWord_mzero hi hl _ _), hseen, afterOp_of_not_retired hret', hrules]

/-- Settles O31: the word's own effect zeroes the accumulator, and what follows it, the rules of R26, moves paths alone. -/
theorem mzeroClears : Obligations.MzeroClears := by
  intro s gid a e w r hsome hret hq hi hl
  have h := matrixStep_mzero_offPath hsome hret hq hi hl
  have hacc : (getGroup (matrixStep s gid) gid).acc = ((getGroup s gid).zeroAcc a e).acc := (congrArg Group.acc h :)
  have haccE : (getGroup (matrixStep s gid) gid).accE = mapPut (getGroup s gid).accE a 0 e := (congrArg Group.accE h :)
  refine ⟨_, rfl, (congrArg Group.mq h :), ?_, ?_, ?_, ?_, (congrArg Group.regs h :), (congrArg Group.tiles h :)⟩
  · intro i j hi hj
    rw [hacc]
    exact zeroAcc_entry_self _ e hi hj
  · intro b i j hb hi hj
    rw [hacc]
    exact zeroAcc_entry_ne _ e hb hi hj
  · rw [haccE, mapGetD_mapPut_self]
  · intro b hb
    rw [haccE, mapGetD_mapPut_ne _ _ _ _ hb]

/-! ### A TST over a line that is listed twice (R157, R177, R250)

The statement asks that no line of a TST at CLUSTER scope or wider is dirty in the core's L1 once the word is done. The word's
write-backs clean the entry that a read of the line finds. The acquire that follows drops the clean bytes of every entry and then
the entries that hold nothing (R157). Where the table lists the line once more behind that entry, the later entry is now the one
found, and it is dirty. Neither the statement nor `State.wf` asks that the lines of an L1 have strictly rising keys. -/

/-- A TST of tile 0 to global memory at CLUSTER scope as issue leaves it, of one row of four bytes at 0x1F000. -/
def clusterTst : MWord :=
  { i := .tst 0 8 .global .cluster 64, unit := 0, lanes := 1, vals := [], base := 0, aux := 0,
    pas := [[0x1F000, 0x1F001, 0x1F002, 0x1F003]], cfgs := [(0, 0x604)] }

/-- That word is the oldest of group 0, and the L1 of the group's core lists the row's line twice, clean before dirty. -/
def shadowedLine : State :=
  { groups := [(0, { mq := [clusterTst] })]
    cores := [(0, { l1 := [(992, { present := 1 }), (992, { present := 1, dirty := 1 })] })] }

/-- What the statement asks of the state holds of it, and so does the canonical form of states. -/
theorem shadowedLine_premises : State.wf shadowedLine = true ∧ (mapGet? shadowedLine.groups 0).isSome = true ∧
    calm (getGroup shadowedLine 0) ∧ (runWord (bump shadowedLine) 0 clusterTst).2 = true := by
  unfold calm; decide

theorem shadowedLine_dirty_after_step :
    (clGet (getCore (matrixStep shadowedLine 0) (coreOf shadowedLine 0)).l1 992).dirtyOffs ≠ [] := by decide

/-- Refutes O30: after a TST at CLUSTER scope a line of its row is dirty in the core's L1, where the L1 lists the line twice, a
clean entry before a dirty one. -/
theorem not_matrixWordsQueue : ¬ Obligations.MatrixWordsQueue := by
  intro h
  obtain ⟨-, -, ⟨-, hruns⟩, -⟩ := h 0 0 0 8 0 64 0 0 .global .cluster false .h16
  obtain ⟨-, hsome, hcalm, hdone⟩ := shadowedLine_premises
  obtain ⟨t, hexec, -, -, -, hglobal, -⟩ := hruns shadowedLine 0 clusterTst [] hsome rfl rfl (by decide) hcalm
  obtain rfl : matrixStep shadowedLine 0 = t := Host.Outcome.next.inj hexec
  have hclean := (hglobal rfl hdone).2 (by decide) (by decide) 0x1F000 (by decide)
  exact shadowedLine_dirty_after_step hclean

end Sys2Proof.Machine
end
